-- ==== Sys2Proof/Word.lean ====
section
/-! DEFINITION. The word types of the machine (R4, R7): bytes, 32-bit words and 64-bit words. -/

namespace Sys2Proof

/-- A byte of memory or scratchpad (R4). -/
abbrev Byte := BitVec 8

/-- A 32-bit word: a lane's register, an instruction word. -/
abbrev W32 := BitVec 32

/-- A 64-bit word: a scalar register. -/
abbrev W64 := BitVec 64

end Sys2Proof
end

