-- ==== Sys2Proof/Syntax.lean ====
section
/-! DEFINITION. The syntax of every instruction and event of opcode_table.json: one constructor a row.
Operands are the fields the encoding gives (R30, R31), each at its own width; an operand code (R34) is an
inductive type. Rows of one layout share a record of operands. Events name what they act on by number. -/

namespace Sys2Proof

/-- The length of an instruction (R25). -/
inductive Len | l64 | l96 | l128
  deriving DecidableEq, Repr

/-- The head's fields beside length and opcode (R30): chain bit, no-write-back bit and the guard (R54). -/
structure Head where
  c   : Bool
  nw  : Bool
  pa  : BitVec 3
  pb  : BitVec 3
  pc  : BitVec 3
  ntt : BitVec 8
  deriving DecidableEq, Repr

/-- A scalar-pipe source (R34): a register, a latch of either pipe (a lane latch raises LATCH, R48), a constant. -/
inductive SSrc
  | reg (r : BitVec 6) | ls (i : BitVec 2) | lv (i : BitVec 2) | const (i : BitVec 4)
  deriving DecidableEq, Repr

/-- A lane-pipe source (R34, R37): as SSrc over lane registers, or a scalar register selected by M[7] or E[22]. -/
inductive LSrc
  | reg (v : BitVec 8) | ls (i : BitVec 2) | lv (i : BitVec 2) | const (i : BitVec 4) | sreg (r : BitVec 6)
  deriving DecidableEq, Repr

/-- A scalar source B, or the I32 field that stands for it (R31). -/
inductive SSrcI | src (a : SSrc) | imm (i : W32)
  deriving DecidableEq, Repr

/-- A lane source B, or the I32 field that stands for it (R31). -/
inductive LSrcI | src (a : LSrc) | imm (i : W32)
  deriving DecidableEq, Repr

/-- A branch offset in words: I17 in I64, I32 in J96 (R114). Also MOVI's immediate (R95). -/
inductive Imm | i17 (i : BitVec 17) | i32 (i : W32)
  deriving DecidableEq, Repr

/-- The index part of a scalar memory address (R192): a register index, scaled or not, or a displacement. -/
inductive MemIdx | idx (b : SSrc) (x : Bool) | disp (i : W32)
  deriving DecidableEq, Repr

/-- The lane index of VBCAST and VEXT (R159): a scalar register in A64, I32[4:0] in J96. -/
inductive LaneIdx | sreg (r : BitVec 6) | imm (i : BitVec 5)
  deriving DecidableEq, Repr

/-- The source of a vote (R160): a predicate (with the unused S bit), or a bit of a lane value. -/
inductive VoteSrc | pred (q : BitVec 3) (s : Bool) | val (a : LSrc) (b : LSrc) | valImm (a : LSrc) (j : BitVec 5)
  deriving DecidableEq, Repr

/-- A handler control field (R257): a number, or an s register holding it. -/
inductive HidOp | num (h : BitVec 8) | reg (r : BitVec 6)
  deriving DecidableEq, Repr

/-- The layout of CVT.EF and MCVT (R150, R182): A64, A96 without residuals, A96 with the residual register. -/
inductive EfForm | short | long | resid (vr : BitVec 8)
  deriving DecidableEq, Repr

/-- Saturation of an integer operation (R86, R153); the fourth code is reserved. -/
inductive Sat | wrap | ss | us
  deriving DecidableEq, Repr

/-- The destination and source of a conversion, by pipe (R144). -/
inductive CvtOpd | scalar (d : BitVec 6) (a : SSrc) | lane (d : BitVec 8) (a : LSrc)
  deriving DecidableEq, Repr

/-! ## Operand records -/

structure AluOps where (h : Head) (d : BitVec 6) (a : SSrc) (b : SSrcI) (sat : Sat) (w : Bool)
  deriving DecidableEq, Repr
structure UnOps where (h : Head) (d : BitVec 6) (a : SSrc) (sat : Sat) (w : Bool)
  deriving DecidableEq, Repr
structure BfiOps where (h : Head) (d : BitVec 6) (a : SSrc) (b : SSrc) (ctl : SSrcI)
  deriving DecidableEq, Repr
structure MoviOps where (h : Head) (d : BitVec 6) (imm : Imm)
  deriving DecidableEq, Repr
structure MoviXOps where (h : Head) (d : BitVec 6) (imm : W32)
  deriving DecidableEq, Repr
structure LeaOps where (h : Head) (d : BitVec 6) (a : SSrc) (b : SSrc) (scale : BitVec 3) (disp : Option W32)
  deriving DecidableEq, Repr
structure LeaPcOps where (h : Head) (d : BitVec 6) (b : SSrc) (scale : BitVec 3) (disp : Option W32)
  deriving DecidableEq, Repr
structure SelOps where (h : Head) (d : BitVec 6) (a : SSrc) (b : SSrcI) (neg : Bool) (k : BitVec 3)
  deriving DecidableEq, Repr
structure CmpOps where (h : Head) (pt : BitVec 3) (pf : BitVec 3) (mode : BitVec 2) (cond : BitVec 4) (t : Bool) (a : SSrc) (b : SSrcI)
  deriving DecidableEq, Repr
structure VCmpOps where (h : Head) (pt : BitVec 3) (pf : BitVec 3) (mode : BitVec 2) (cond : BitVec 4) (t : Bool) (a : LSrc) (b : LSrcI)
  deriving DecidableEq, Repr
structure PlopOps where (h : Head) (lane : Bool) (d : BitVec 3) (s1 : BitVec 3) (s2 : BitVec 3) (s3 : BitVec 3) (table : BitVec 8)
  deriving DecidableEq, Repr
structure PsetOps where (h : Head) (lane : Bool) (mask : BitVec 8) (vals : BitVec 8)
  deriving DecidableEq, Repr
structure DOps where (h : Head) (d : BitVec 6)
  deriving DecidableEq, Repr
structure StokOps where (h : Head) (a : SSrc) (mask : SSrcI)
  deriving DecidableEq, Repr
structure QtosOps where (h : Head) (d : BitVec 6) (q : BitVec 3)
  deriving DecidableEq, Repr
structure StoqOps where (h : Head) (q : BitVec 3) (a : SSrcI)
  deriving DecidableEq, Repr
structure QtovOps where (h : Head) (d : BitVec 8) (s : Bool)
  deriving DecidableEq, Repr
structure VtoqOps where (h : Head) (a : LSrc) (mask : LSrcI)
  deriving DecidableEq, Repr
structure NopOps where (h : Head) (len : Len)
  deriving DecidableEq, Repr
structure BrOps where (h : Head) (off : Imm)
  deriving DecidableEq, Repr
structure DBrOps where (h : Head) (d : BitVec 6) (off : Imm)
  deriving DecidableEq, Repr
structure BrxOps where (h : Head) (d : BitVec 6) (a : SSrc) (off : Imm)
  deriving DecidableEq, Repr
structure AOps where (h : Head) (a : SSrc)
  deriving DecidableEq, Repr
structure HOps where (h : Head)
  deriving DecidableEq, Repr
structure SetPriOps where (h : Head) (p : BitVec 3)
  deriving DecidableEq, Repr
structure VDOps where (h : Head) (d : BitVec 8)
  deriving DecidableEq, Repr
structure FOps where (h : Head) (d : BitVec 6) (a : SSrc) (b : SSrcI) (x : BitVec 2) (ftz : Bool) (rm : BitVec 2)
  deriving DecidableEq, Repr
structure FmaOps where (h : Head) (d : BitVec 6) (a : SSrc) (b : SSrc) (c : SSrc) (x : BitVec 2) (ftz : Bool) (rm : BitVec 2)
  deriving DecidableEq, Repr
structure FUnOps where (h : Head) (d : BitVec 6) (a : SSrc) (x : BitVec 2) (ftz : Bool) (rm : BitVec 2)
  deriving DecidableEq, Repr
structure CpysOps where (h : Head) (d : BitVec 6) (a : SSrc) (b : SSrc) (x : BitVec 2)
  deriving DecidableEq, Repr
structure VFOps where (h : Head) (d : BitVec 8) (a : LSrc) (b : LSrcI) (x : BitVec 2) (ftz : Bool) (rm : BitVec 2) (t : BitVec 2)
  deriving DecidableEq, Repr
structure VFmaOps where (h : Head) (d : BitVec 8) (a : LSrc) (b : LSrc) (c : LSrc) (x : BitVec 2) (ftz : Bool) (rm : BitVec 2) (t : BitVec 2)
  deriving DecidableEq, Repr
structure VFUnOps where (h : Head) (d : BitVec 8) (a : LSrc) (x : BitVec 2) (ftz : Bool) (rm : BitVec 2) (t : BitVec 2)
  deriving DecidableEq, Repr
structure CvtOps where (h : Head) (opd : CvtOpd) (dst : BitVec 4) (src : BitVec 4) (ftz : Bool) (rm : BitVec 2) (sat : Bool)
  deriving DecidableEq, Repr
structure PackOps where (h : Head) (d : BitVec 8) (a : LSrc) (b : LSrc) (fmt : BitVec 3) (rm : BitVec 2) (pos : BitVec 2)
  deriving DecidableEq, Repr
structure EfOps where (h : Head) (d : BitVec 8) (a : LSrc) (fmt : BitVec 3) (seg : BitVec 2) (form : EfForm)
  deriving DecidableEq, Repr
structure VIntOps where (h : Head) (d : BitVec 8) (a : LSrc) (b : LSrcI) (sat : Sat) (u : Bool) (p16 : Bool)
  deriving DecidableEq, Repr
structure VMadOps where (h : Head) (d : BitVec 8) (a : LSrc) (b : LSrc) (c : LSrc) (sat : Sat) (p16 : Bool)
  deriving DecidableEq, Repr
structure VBfiOps where (h : Head) (d : BitVec 8) (a : LSrc) (b : LSrc) (ctl : LSrcI)
  deriving DecidableEq, Repr
structure VUnOps where (h : Head) (d : BitVec 8) (a : LSrc)
  deriving DecidableEq, Repr
structure VMovOps where (h : Head) (d : BitVec 8) (b : LSrcI)
  deriving DecidableEq, Repr
structure VSelOps where (h : Head) (d : BitVec 8) (a : LSrc) (b : LSrcI) (q : BitVec 3) (neg : Bool)
  deriving DecidableEq, Repr
structure VBcastOps where (h : Head) (d : BitVec 8) (a : LSrc) (idx : LaneIdx)
  deriving DecidableEq, Repr
structure VExtOps where (h : Head) (d : BitVec 6) (a : LSrc) (idx : LaneIdx) (sx : Bool)
  deriving DecidableEq, Repr
structure VoteBalOps where (h : Head) (d : BitVec 8) (src : VoteSrc)
  deriving DecidableEq, Repr
structure VoteQOps where (h : Head) (q : BitVec 3) (src : VoteSrc)
  deriving DecidableEq, Repr
structure ShflOps where (h : Head) (d : BitVec 8) (a : LSrc) (b : LSrcI) (wl : BitVec 3) (mode : BitVec 2)
  deriving DecidableEq, Repr
structure XchgOps where (h : Head) (d : BitVec 8) (a : LSrc) (b : LSrcI) (dl : BitVec 3)
  deriving DecidableEq, Repr
structure WredOps where (h : Head) (d : BitVec 8) (a : LSrc) (wl : BitVec 3) (op : BitVec 4)
  deriving DecidableEq, Repr
structure SfuOps where (h : Head) (d : BitVec 8) (a : LSrc) (fn : BitVec 3)
  deriving DecidableEq, Repr
structure MmaOps where (h : Head) (d : BitVec 8) (a : BitVec 8) (b : BitVec 8) (i : Bool) (ta : BitVec 3) (tb : BitVec 3)
  deriving DecidableEq, Repr
structure MmasOps where (h : Head) (d : BitVec 8) (a : BitVec 8) (b : BitVec 8) (i : Bool) (ta : BitVec 3) (tb : BitVec 3) (sc : BitVec 8)
  deriving DecidableEq, Repr
structure MmaqOps where (h : Head) (d : BitVec 8) (a : BitVec 8) (b : BitVec 8) (i : Bool) (ta : BitVec 3) (tb : BitVec 3) (pa : BitVec 8) (pb : BitVec 8) (sz : BitVec 2)
  deriving DecidableEq, Repr
structure MZeroOps where (h : Head) (d : BitVec 8) (f64 : Bool)
  deriving DecidableEq, Repr
structure McvtOps where (h : Head) (d : BitVec 8) (a : BitVec 8) (fmt : BitVec 3) (form : EfForm)
  deriving DecidableEq, Repr
structure MldfOps where (h : Head) (d : BitVec 8) (kind : BitVec 2) (base : SSrc) (stride : SSrc) (disp : W32)
  deriving DecidableEq, Repr
structure MemOps where (h : Head) (d : BitVec 6) (a : SSrc) (idx : MemIdx) (sx : Bool) (g : Bool) (size : BitVec 3)
  deriving DecidableEq, Repr
structure XMemOps where (h : Head) (d : BitVec 6) (core : SSrc) (off : SSrc) (x : Bool) (disp : Option W32) (sx : Bool) (size : BitVec 3)
  deriving DecidableEq, Repr
structure PrefOps where (h : Head) (a : SSrc) (idx : MemIdx) (l2 : Bool)
  deriving DecidableEq, Repr
structure VMemOps where (h : Head) (d : BitVec 8) (a : SSrc) (b : LSrc) (x : Bool) (disp : Option W32) (sx : Bool) (g : Bool) (size : BitVec 3)
  deriving DecidableEq, Repr
structure LineOps where (h : Head) (a : SSrc) (b : SSrcI)
  deriving DecidableEq, Repr
structure AllOps where (h : Head) (imm : Option W32)
  deriving DecidableEq, Repr
structure XlOps where (h : Head) (a : SSrc) (imm : Option W32)
  deriving DecidableEq, Repr
structure AtomOps where (h : Head) (d : BitVec 6) (a : SSrc) (b : SSrc) (op : BitVec 3) (u : Bool) (sz : Bool)
  deriving DecidableEq, Repr
structure AtomNzOps where (h : Head) (d : BitVec 6) (a : SSrc) (b : SSrc) (n : BitVec 6) (op : BitVec 3) (u : Bool) (sz : Bool)
  deriving DecidableEq, Repr
structure CasOps where (h : Head) (d : BitVec 6) (a : SSrc) (b : SSrc) (c : SSrc) (sz : Bool)
  deriving DecidableEq, Repr
structure AtomsXOps where (h : Head) (d : BitVec 6) (core : SSrc) (off : SSrc) (b : SSrc) (op : BitVec 3) (u : Bool) (sz : Bool)
  deriving DecidableEq, Repr
structure VatomOps where (h : Head) (d : BitVec 8) (a : SSrc) (b : LSrc) (c : LSrc) (l : Bool) (op : BitVec 3) (u : Bool)
  deriving DecidableEq, Repr
structure SendOps where (h : Head) (d : BitVec 6) (dst : SSrc) (hid : HidOp) (len : BitVec 4) (ch : BitVec 3) (stamp : Option SSrc)
  deriving DecidableEq, Repr
structure SendvOps where (h : Head) (d : BitVec 8) (dst : BitVec 8) (hid : HidOp) (len : BitVec 4) (ch : BitVec 3) (ord : Bool) (stamp : BitVec 8) (qm : BitVec 3)
  deriving DecidableEq, Repr
structure RecvOps where (h : Head) (d : BitVec 6) (nb : Bool)
  deriving DecidableEq, Repr
structure GpostOps where (h : Head) (d : BitVec 6) (g : BitVec 4)
  deriving DecidableEq, Repr
structure GflushOps where (h : Head) (g : BitVec 4)
  deriving DecidableEq, Repr
structure RequeueOps where (h : Head) (d : BitVec 8) (g : BitVec 4) (qm : BitVec 3)
  deriving DecidableEq, Repr
/-- A destination (or first register) and one scalar source: QPUSH, HTAB, LAUNCH, CANCEL, LVLREAD, CNLOOK.DIR, EVICT, FKILL, ... -/
structure DAOps where (h : Head) (d : BitVec 6) (a : SSrc)
  deriving DecidableEq, Repr
/-- A destination and two scalar sources: CNLOOK.LOC, THAW, REMAP, RLOAD, RSTORE, PREEMPT, ... -/
structure DABOps where (h : Head) (d : BitVec 6) (a : SSrc) (b : SSrc)
  deriving DecidableEq, Repr
/-- RPOP (R303): destination, ray group, region table. -/
structure RpopOps where (h : Head) (d : BitVec 6) (ray : BitVec 6) (g : SSrc)
  deriving DecidableEq, Repr
/-- RSEND (R306): ray group, handle, handler control. -/
structure RsendOps where (h : Head) (d : BitVec 6) (a : SSrc) (hid : HidOp)
  deriving DecidableEq, Repr
/-- BOXT, TRIT: destination, node reference, ray group. RPOP, RREPLAY share it with their own roles (R297, R317). -/
structure RayOps where (h : Head) (d : BitVec 6) (a : SSrc) (ray : BitVec 6)
  deriving DecidableEq, Repr
structure RpushBoxOps where (h : Head) (d : BitVec 6) (a : SSrc) (g : SSrc) (n : SSrc)
  deriving DecidableEq, Repr
structure RhitOps where (h : Head) (d : BitVec 6) (core : SSrc) (ray : BitVec 6) (user : SSrc) (hid : BitVec 8)
  deriving DecidableEq, Repr
structure RmissOps where (h : Head) (core : SSrc) (ray : BitVec 6) (user : SSrc) (hid : BitVec 8)
  deriving DecidableEq, Repr
structure RpinOps where (h : Head) (d : BitVec 6) (a : SSrc) (b : SSrc) (c : SSrc)
  deriving DecidableEq, Repr
structure RdoneOps where (h : Head) (d : BitVec 6) (a : SSrc) (b : SSrc) (p : BitVec 6) (n : BitVec 16)
  deriving DecidableEq, Repr
structure RlogOps where (h : Head) (d : BitVec 6) (q : SSrc) (node : SSrc) (stamp : SSrc) (event : BitVec 4) (x : BitVec 6)
  deriving DecidableEq, Repr
structure BlkOps where (h : Head) (d : BitVec 6) (dst : SSrc) (src : SSrc) (len : SSrc) (ctx : BitVec 2) (nt : Option (BitVec 6))
  deriving DecidableEq, Repr
structure BcopyOps where (h : Head) (d : BitVec 6) (dst : SSrc) (src : SSrc) (len : SSrc) (ctx : BitVec 2) (ds : BitVec 2) (ss : BitVec 2) (nt : Option (BitVec 6))
  deriving DecidableEq, Repr
structure TlreadOps where (h : Head) (d : BitVec 6) (ctx : BitVec 2)
  deriving DecidableEq, Repr
structure TlwaitOps where (h : Head) (a : SSrc) (ctx : BitVec 2)
  deriving DecidableEq, Repr
structure SmpOps where (h : Head) (d : BitVec 8) (u : BitVec 8) (v : BitVec 8) (desc : SSrc) (qm : BitVec 3)
  deriving DecidableEq, Repr
structure RsrOps where (h : Head) (d : BitVec 8) (num : BitVec 12)
  deriving DecidableEq, Repr
structure WsrOps where (h : Head) (num : BitVec 12) (a : SSrc)
  deriving DecidableEq, Repr
structure TrapOps where (h : Head) (code : BitVec 8)
  deriving DecidableEq, Repr
structure FinspectOps where (h : Head) (d : BitVec 6) (a : SSrc) (b : SSrc) (k : BitVec 3)
  deriving DecidableEq, Repr

/-! ## What events carry -/

/-- A message (R244): the header of Table 12-1 and its body words. -/
structure Msg where
  dst   : BitVec 29
  ch    : BitVec 3
  hid   : BitVec 8
  len   : BitVec 4
  ord   : Bool
  typ   : BitVec 3
  ltag  : BitVec 32
  stamp : BitVec 48
  body  : List W64
  deriving DecidableEq, Repr

/-- Where an arriving message comes from: a place in the mesh, or a link from another package. -/
inductive ArriveFrom | mesh (i : Nat) | lyspor (m : Msg)
  deriving DecidableEq, Repr

/-- What returns from a spill queue (R247, R260): the oldest message of a channel, or a record of a glade's column. -/
inductive SpillSel | chan (ch : Nat) | glade (g : Nat) (col : Nat)
  deriving DecidableEq, Repr

/-- A remote scratchpad request of a firing (R201): its i-th outstanding deposit, or the i-th entry of its store queue. -/
inductive RemoteSel | load (i : Nat) | store (i : Nat)
  deriving DecidableEq, Repr

/-- Why a firing stops (R348, R351): the code and the record's fields. -/
structure TrapCause where
  code  : BitVec 8
  lane  : Option Nat := none
  kind  : BitVec 8 := 0x0F
  count : W32 := 0
  addr  : Option W64 := none
  value : W64 := 0
  aux   : W64 := 0
  next  : Bool := false
  deriving DecidableEq, Repr

/-- Every instruction form and every event of opcode_table.json, in its order, each with the rule that lays it down. -/
inductive Instr
  | add (o : AluOps)  -- ADD, R89
  | sub (o : AluOps)  -- SUB, R89
  | mul (o : AluOps)  -- MUL, R89
  | mulh (o : AluOps)  -- MULH, R89
  | mulhu (o : AluOps)  -- MULHU, R89
  | div (o : AluOps)  -- DIV, R90
  | divu (o : AluOps)  -- DIVU, R90
  | rem (o : AluOps)  -- REM, R90
  | remu (o : AluOps)  -- REMU, R90
  | min (o : AluOps)  -- MIN, R89
  | max (o : AluOps)  -- MAX, R89
  | minu (o : AluOps)  -- MINU, R89
  | maxu (o : AluOps)  -- MAXU, R89
  | abs (o : UnOps)  -- ABS, R89
  | and (o : AluOps)  -- AND, R91
  | or (o : AluOps)  -- OR, R91
  | xor (o : AluOps)  -- XOR, R91
  | andn (o : AluOps)  -- ANDN, R91
  | orn (o : AluOps)  -- ORN, R91
  | shl (o : AluOps)  -- SHL, R91
  | shr (o : AluOps)  -- SHR, R91
  | sar (o : AluOps)  -- SAR, R91
  | rol (o : AluOps)  -- ROL, R91
  | bfx (o : AluOps)  -- BFX, R93
  | bfxu (o : AluOps)  -- BFXU, R93
  | bfi (o : BfiOps)  -- BFI, R94
  | popc (o : UnOps)  -- POPC, R92
  | clz (o : UnOps)  -- CLZ, R92
  | ctz (o : UnOps)  -- CTZ, R92
  | brev (o : UnOps)  -- BREV, R92
  | bswap (o : UnOps)  -- BSWAP, R92
  | mov (o : UnOps)  -- MOV, R95
  | movi (o : MoviOps)  -- MOVI, R95
  | moviZx (o : MoviXOps)  -- MOVI_ZX, R95
  | moviHi (o : MoviXOps)  -- MOVI_HI, R95
  | lea (o : LeaOps)  -- LEA, R96
  | leaPc (o : LeaPcOps)  -- LEA_PC, R96
  | sel (o : SelOps)  -- SEL, R97
  | cmp (o : CmpOps)  -- CMP, R104
  | fcmp (o : CmpOps)  -- FCMP, R106
  | vcmp (o : VCmpOps)  -- VCMP, R104
  | vfcmp (o : VCmpOps)  -- VFCMP, R106
  | plop (o : PlopOps)  -- PLOP, R107
  | pset (o : PsetOps)  -- PSET, R108
  | pmovKtos (o : DOps)  -- PMOV_KTOS, R109
  | pmovStok (o : StokOps)  -- PMOV_STOK, R109
  | pmovQtos (o : QtosOps)  -- PMOV_QTOS, R109
  | pmovStoq (o : StoqOps)  -- PMOV_STOQ, R109
  | vpmovQtov (o : QtovOps)  -- VPMOV_QTOV, R110
  | vpmovVtoq (o : VtoqOps)  -- VPMOV_VTOQ, R110
  | nop (o : NopOps)  -- NOP, R61
  | br (o : BrOps)  -- BR, R115
  | bra (o : BrOps)  -- BRA, R120
  | bru (o : BrOps)  -- BRU, R120
  | brx (o : BrxOps)  -- BRX, R115
  | call (o : DBrOps)  -- CALL, R115
  | ret (o : AOps)  -- RET, R115
  | loop (o : DBrOps)  -- LOOP, R115
  | join (o : HOps)  -- JOIN, R123
  | yield (o : HOps)  -- YIELD, R124
  | setpri (o : SetPriOps)  -- SETPRI, R124
  | getpri (o : VDOps)  -- GETPRI, R125
  | done (o : HOps)  -- DONE, R126
  | fadd (o : FOps)  -- FADD, R140
  | fsub (o : FOps)  -- FSUB, R140
  | fmul (o : FOps)  -- FMUL, R140
  | ffma (o : FmaOps)  -- FFMA, R140
  | fmin (o : FOps)  -- FMIN, R141
  | fmax (o : FOps)  -- FMAX, R141
  | fdiv (o : FOps)  -- FDIV, R140
  | fsqrt (o : FUnOps)  -- FSQRT, R140
  | frnd (o : FUnOps)  -- FRND, R140
  | fclass (o : FUnOps)  -- FCLASS, R142
  | fcpys (o : CpysOps)  -- FCPYS, R140
  | vfadd (o : VFOps)  -- VFADD, R140
  | vfsub (o : VFOps)  -- VFSUB, R140
  | vfmul (o : VFOps)  -- VFMUL, R140
  | vffma (o : VFmaOps)  -- VFFMA, R140
  | vfmin (o : VFOps)  -- VFMIN, R141
  | vfmax (o : VFOps)  -- VFMAX, R141
  | vfdiv (o : VFOps)  -- VFDIV, R140
  | vfsqrt (o : VFUnOps)  -- VFSQRT, R140
  | vfrnd (o : VFUnOps)  -- VFRND, R140
  | vfclass (o : VFUnOps)  -- VFCLASS, R142
  | cvtFf (o : CvtOps)  -- CVT_FF, R146
  | cvtFi (o : CvtOps)  -- CVT_FI, R147
  | cvtIf (o : CvtOps)  -- CVT_IF, R147
  | cvtPack (o : PackOps)  -- CVT_PACK, R149
  | cvtEf (o : EfOps)  -- CVT_EF, R150
  | vadd (o : VIntOps)  -- VADD, R155
  | vsub (o : VIntOps)  -- VSUB, R155
  | vmul (o : VIntOps)  -- VMUL, R155
  | vmulh (o : VIntOps)  -- VMULH, R155
  | vmad (o : VMadOps)  -- VMAD, R155
  | vmin (o : VIntOps)  -- VMIN, R155
  | vmax (o : VIntOps)  -- VMAX, R155
  | vand (o : VIntOps)  -- VAND, R155
  | vor (o : VIntOps)  -- VOR, R155
  | vxor (o : VIntOps)  -- VXOR, R155
  | vshl (o : VIntOps)  -- VSHL, R155
  | vshr (o : VIntOps)  -- VSHR, R155
  | vsar (o : VIntOps)  -- VSAR, R155
  | vbfx (o : VIntOps)  -- VBFX, R156
  | vbfi (o : VBfiOps)  -- VBFI, R156
  | vpopc (o : VUnOps)  -- VPOPC, R155
  | vclz (o : VUnOps)  -- VCLZ, R155
  | vbrev (o : VUnOps)  -- VBREV, R155
  | vmov (o : VMovOps)  -- VMOV, R157
  | vsel (o : VSelOps)  -- VSEL, R157
  | vbcast (o : VBcastOps)  -- VBCAST, R159
  | vext (o : VExtOps)  -- VEXT, R159
  | voteBal (o : VoteBalOps)  -- VOTE_BAL, R160
  | voteAny (o : VoteQOps)  -- VOTE_ANY, R160
  | voteAll (o : VoteQOps)  -- VOTE_ALL, R160
  | shfl (o : ShflOps)  -- SHFL, R161
  | xchg (o : XchgOps)  -- XCHG, R162
  | wred (o : WredOps)  -- WRED, R163
  | sfu (o : SfuOps)  -- SFU, R165
  | mma (o : MmaOps)  -- MMA, R175
  | mmas (o : MmasOps)  -- MMAS, R178
  | mmaq (o : MmaqOps)  -- MMAQ, R180
  | mzero (o : MZeroOps)  -- MZERO, R181
  | mcvt (o : McvtOps)  -- MCVT, R182
  | mldf (o : MldfOps)  -- MLDF, R183
  | mstf (o : MldfOps)  -- MSTF, R183
  | ld (o : MemOps)  -- LD, R193
  | st (o : MemOps)  -- ST, R193
  | lds (o : MemOps)  -- LDS, R199
  | sts (o : MemOps)  -- STS, R199
  | ldx (o : XMemOps)  -- LDX, R201
  | stx (o : XMemOps)  -- STX, R201
  | pref (o : PrefOps)  -- PREF, R211
  | vld (o : VMemOps)  -- VLD, R196
  | vst (o : VMemOps)  -- VST, R196
  | vlds (o : VMemOps)  -- VLDS, R199
  | vsts (o : VMemOps)  -- VSTS, R199
  | l1invLine (o : LineOps)  -- L1INV_LINE, R210
  | l1invAll (o : AllOps)  -- L1INV_ALL, R210
  | l1invXl (o : XlOps)  -- L1INV_XL, R210
  | l2wbLine (o : LineOps)  -- L2WB_LINE, R211
  | l2wbAll (o : AllOps)  -- L2WB_ALL, R211
  | fenceAcq (o : AOps)  -- FENCE_ACQ, R227
  | fenceRel (o : AOps)  -- FENCE_REL, R226
  | fenceAr (o : AOps)  -- FENCE_AR, R228
  | atom (o : AtomOps)  -- ATOM, R237
  | atomNz (o : AtomNzOps)  -- ATOM_NZ, R238
  | cas (o : CasOps)  -- CAS, R239
  | atomsLocal (o : AtomOps)  -- ATOMS_LOCAL, R240
  | atomsRemote (o : AtomsXOps)  -- ATOMS_REMOTE, R240
  | vatom (o : VatomOps)  -- VATOM, R241
  | send (o : SendOps)  -- SEND, R258
  | sendv (o : SendvOps)  -- SENDV, R258
  | recv (o : RecvOps)  -- RECV, R259
  | gpost (o : GpostOps)  -- GPOST, R261
  | gflush (o : GflushOps)  -- GFLUSH, R264
  | requeue (o : RequeueOps)  -- REQUEUE, R262
  | qpush (o : DAOps)  -- QPUSH, R266
  | qflush (o : AOps)  -- QFLUSH, R266
  | htabGet (o : DAOps)  -- HTAB_GET, R268
  | htabSet (o : DAOps)  -- HTAB_SET, R268
  | launchWake (o : DAOps)  -- LAUNCH_WAKE, R276
  | launchOpen (o : DAOps)  -- LAUNCH_OPEN, R276
  | launchClose (o : DAOps)  -- LAUNCH_CLOSE, R277
  | cancel (o : DAOps)  -- CANCEL, R280
  | lvlread (o : DAOps)  -- LVLREAD, R279
  | lvlreadReap (o : DAOps)  -- LVLREAD_REAP, R279
  | vtget (o : DOps)  -- VTGET, R285
  | vtgetRep (o : DOps)  -- VTGET_REP, R285
  | vtset (o : AOps)  -- VTSET, R285
  | hzread (o : DOps)  -- HZREAD, R285
  | hzreadSys (o : DOps)  -- HZREAD_SYS, R285
  | hzwait (o : AOps)  -- HZWAIT, R285
  | hzwaitSys (o : AOps)  -- HZWAIT_SYS, R285
  | rsend (o : RsendOps)  -- RSEND, R306
  | boxt (o : RayOps)  -- BOXT, R299
  | trit (o : RayOps)  -- TRIT, R302
  | rpush (o : DABOps)  -- RPUSH, R303
  | rpushBox (o : RpushBoxOps)  -- RPUSH_BOX, R303
  | rpop (o : RpopOps)  -- RPOP, R303
  | rhit (o : RhitOps)  -- RHIT, R307
  | rmiss (o : RmissOps)  -- RMISS, R307
  | rxform (o : DABOps)  -- RXFORM, R304
  | rloadRay (o : DABOps)  -- RLOAD_RAY, R305
  | rloadGeom (o : DABOps)  -- RLOAD_GEOM, R305
  | rloadHit (o : DABOps)  -- RLOAD_HIT, R305
  | rstoreRay (o : DABOps)  -- RSTORE_RAY, R305
  | rstoreGeom (o : DABOps)  -- RSTORE_GEOM, R305
  | rstoreHit (o : DABOps)  -- RSTORE_HIT, R305
  | cnlookDir (o : DAOps)  -- CNLOOK_DIR, R318
  | cnlookLoc (o : DABOps)  -- CNLOOK_LOC, R318
  | cnsetDir (o : DAOps)  -- CNSET_DIR, R319
  | cnsetSlot (o : DAOps)  -- CNSET_SLOT, R319
  | thaw (o : DABOps)  -- THAW, R320
  | evict (o : DAOps)  -- EVICT, R321
  | rpin (o : RpinOps)  -- RPIN, R322
  | rdone (o : RdoneOps)  -- RDONE, R322
  | rlog (o : RlogOps)  -- RLOG, R325
  | rreplay (o : RayOps)  -- RREPLAY, R326
  | rreplayTri (o : RayOps)  -- RREPLAY_TRI, R326
  | bget (o : BlkOps)  -- BGET, R335
  | bput (o : BlkOps)  -- BPUT, R335
  | bcopy (o : BcopyOps)  -- BCOPY, R335
  | bfill (o : BcopyOps)  -- BFILL, R335
  | tlreadDone (o : TlreadOps)  -- TLREAD_DONE, R338
  | tlreadIss (o : TlreadOps)  -- TLREAD_ISS, R338
  | tlreadErr (o : TlreadOps)  -- TLREAD_ERR, R338
  | tlwait (o : TlwaitOps)  -- TLWAIT, R339
  | smp (o : SmpOps)  -- SMP, R344
  | smpf (o : SmpOps)  -- SMPF, R344
  | sfence (o : HOps)  -- SFENCE, R346
  | rsr (o : RsrOps)  -- RSR, R362
  | wsr (o : WsrOps)  -- WSR, R362
  | trap (o : TrapOps)  -- TRAP, R364
  | brk (o : HOps)  -- BRK, R364
  | tret (o : HOps)  -- TRET, R356
  | fresume (o : DAOps)  -- FRESUME, R358
  | fresumeStep (o : DAOps)  -- FRESUME_STEP, R365
  | fresumeOut (o : DAOps)  -- FRESUME_OUT, R365
  | fkill (o : DAOps)  -- FKILL, R359
  | finspectRd (o : FinspectOps)  -- FINSPECT_RD, R360
  | finspectWr (o : FinspectOps)  -- FINSPECT_WR, R360
  | halt (o : DAOps)  -- HALT, R360
  | preemptDrain (o : DABOps)  -- PREEMPT_DRAIN, R369
  | preemptSwap (o : DABOps)  -- PREEMPT_SWAP, R369
  | preemptRes (o : DABOps)  -- PREEMPT_RES, R369
  | remap (o : DABOps)  -- REMAP, R373
  | sendBufferDepart (core : Nat)  -- SEND_BUFFER_DEPART, R258
  | messageArrive (src : ArriveFrom)  -- MESSAGE_ARRIVE, R247
  | spillReturn (core : Nat) (sel : SpillSel)  -- SPILL_RETURN, R247
  | firingCreation (core : Nat)  -- FIRING_CREATION, R251
  | gladeTimerExpiry (core : Nat) (g : Nat)  -- GLADE_TIMER_EXPIRY, R263
  | priorityAgeing (core : Nat) (slot : Nat)  -- PRIORITY_AGEING, R255
  | depositLand (core : Nat) (slot : Nat) (i : Nat)  -- DEPOSIT_LAND, R194
  | dataerrDelivery (core : Nat) (slot : Nat) (i : Nat)  -- DATAERR_DELIVERY, R212
  | pageWalkDone (core : Nat) (slot : Nat)  -- PAGE_WALK_DONE, R206
  | storeVisible (core : Nat) (slot : Nat) (i : Nat)  -- STORE_VISIBLE, R214
  | remoteRequestServe (core : Nat) (slot : Nat) (sel : RemoteSel)  -- REMOTE_REQUEST_SERVE, R202
  | atomicAtHome (core : Nat) (slot : Nat) (i : Nat)  -- ATOMIC_AT_HOME, R237
  | l2CopyEviction (site : Nat) (line : Nat)  -- L2_COPY_EVICTION, R219
  | writebackAck (core : Nat) (line : Nat)  -- WRITEBACK_ACK, R215
  | ackLossTimeout (core : Nat) (slot : Nat) (i : Nat) (applied : List Bool)  -- ACK_LOSS_TIMEOUT, R232
  | ldxReplyTimeout (core : Nat) (slot : Nat) (i : Nat)  -- LDX_REPLY_TIMEOUT, R202
  | launchHomeAction (i : Nat)  -- LAUNCH_HOME_ACTION, R277
  | cancelHomeAction (i : Nat)  -- CANCEL_HOME_ACTION, R280
  | recordCountUpdate (i : Nat)  -- RECORD_COUNT_UPDATE, R274
  | recordFinish (idx : Nat)  -- RECORD_FINISH, R272
  | creditRefillReply (core : Nat) (tag : W32)  -- CREDIT_REFILL_REPLY, R274
  | creditIdleReturn (core : Nat) (tag : W32)  -- CREDIT_IDLE_RETURN, R274
  | cancelFilterArrive (core : Nat) (tag : W32)  -- CANCEL_FILTER_ARRIVE, R281
  | cancelFilterRemove (tag : W32)  -- CANCEL_FILTER_REMOVE, R280
  | solsticeReport (core : Nat)  -- SOLSTICE_REPORT, R282
  | horizonPublish  -- HORIZON_PUBLISH, R283
  | systemHorizonPublish (others : W64)  -- SYSTEM_HORIZON_PUBLISH, R285
  | sfuServiceStart (core : Nat)  -- SFU_SERVICE_START, R165
  | sfuResult (core : Nat)  -- SFU_RESULT, R165
  | matrixUnitComplete (core : Nat)  -- MATRIX_UNIT_COMPLETE, R184
  | trapTaken (core : Nat) (slot : Nat) (t : TrapCause)  -- TRAP_TAKEN, R353
  | trapHandlerCreate (core : Nat)  -- TRAP_HANDLER_CREATE, R354
  | doubleTrap (core : Nat)  -- DOUBLE_TRAP, R355
  | engineCommandStart (core : Nat) (ctx : Nat)  -- ENGINE_COMMAND_START, R329
  | engineCommandComplete (core : Nat) (ctx : Nat)  -- ENGINE_COMMAND_COMPLETE, R335
  | engineCommandError (core : Nat) (ctx : Nat) (code : BitVec 8)  -- ENGINE_COMMAND_ERROR, R337
  | samplerService (core : Nat)  -- SAMPLER_SERVICE, R345
  | forwardTimerExpiry (core : Nat) (desc : Nat)  -- FORWARD_TIMER_EXPIRY, R267
  | forwardBatch (core : Nat)  -- FORWARD_BATCH, R267
  | forwardHeadReread (core : Nat) (desc : Nat)  -- FORWARD_HEAD_REREAD, R267
  | forwardBatchPublish (core : Nat) (desc : Nat)  -- FORWARD_BATCH_PUBLISH, R267
  | rayServedAtHome (i : Nat)  -- RAY_SERVED_AT_HOME, R312
  | canopyInvalidation (core : Nat) (handle : BitVec 16)  -- CANOPY_INVALIDATION, R314
  | thawRequest (core : Nat)  -- THAW_REQUEST, R316
  | thawCopyDone (core : Nat)  -- THAW_COPY_DONE, R316
  | thawDoneAtHome (i : Nat)  -- THAW_DONE_AT_HOME, R315
  | thawFailedAtHome (i : Nat)  -- THAW_FAILED_AT_HOME, R315
  | meshInterruptDrain (core : Nat)  -- MESH_INTERRUPT_DRAIN, R370
  | drainComplete (core : Nat)  -- DRAIN_COMPLETE, R370
  | drainTimeout (core : Nat)  -- DRAIN_TIMEOUT, R370
  | meshInterruptSwap (core : Nat)  -- MESH_INTERRUPT_SWAP, R371
  | meshInterruptRes (core : Nat)  -- MESH_INTERRUPT_RES, R372
  | remapSwitch  -- REMAP_SWITCH, R373
  | mailboxMessage (off : Nat) (bytes : List Byte)  -- MAILBOX_MESSAGE, R378
  | mailboxLaunch (off : Nat) (bytes : List Byte)  -- MAILBOX_LAUNCH, R378
  | mailboxCancel (off : Nat) (bytes : List Byte)  -- MAILBOX_CANCEL, R378
  | mailboxInvalid (off : Nat) (bytes : List Byte)  -- MAILBOX_INVALID, R378
  | bar4Write (off : Nat) (bytes : List Byte)  -- BAR4_WRITE, R379
  | bar4Read (off : Nat) (size : Nat)  -- BAR4_READ, R379
  | deviceQueueEnable (words : List W64)  -- DEVICE_QUEUE_ENABLE, R380
  | attestCommand (cmd : W32)  -- ATTEST_COMMAND, R383
  | attestReportDone  -- ATTEST_REPORT_DONE, R383
  | imageLoadCommand (cmd : W32)  -- IMAGE_LOAD_COMMAND, R384
  | bootTreeForward (core : Nat)  -- BOOT_TREE_FORWARD, R83
  | coreReadyReport (core : Nat)  -- CORE_READY_REPORT, R83
  | imageLoaded  -- IMAGE_LOADED, R83
  | coreRestart (gca : W64)  -- CORE_RESTART, R389
  | hostPowerLimit (watts : BitVec 16)  -- HOST_POWER_LIMIT, R387
  | registerWrite (off : Nat) (bytes : List Byte)  -- REGISTER_WRITE, R376
  | capabilityReady (id : BitVec 16)  -- CAPABILITY_READY, R376
  | moduleReset  -- MODULE_RESET, R382
  | powerLimitThrottle (island : Nat)  -- POWER_LIMIT_THROTTLE, R387
  | thermalThrottle (island : Nat) (temp : BitVec 16)  -- THERMAL_THROTTLE, R387
  | thermalHalt (island : Nat) (temp : BitVec 16)  -- THERMAL_HALT, R387
  | linkStateChange (lyspor : Bool) (num : Nat) (st : BitVec 8)  -- LINK_STATE_CHANGE, R386
  | patrolScrubError (addr : Nat) (corrected : Bool) (syndrome : W64)  -- PATROL_SCRUB_ERROR, R386
  | thawCopyFailed (core : Nat) (addr : Nat) (syndrome : W64)  -- THAW_COPY_FAILED, R316
  | hostPortCompletionTimeout (core : Nat) (slot : Nat) (i : Nat)  -- HOST_PORT_COMPLETION_TIMEOUT, R374
  deriving DecidableEq, Repr

end Sys2Proof
end

