-- ==== Sys2Proof/Machine/Bits.lean ====
section
/-! DEFINITION. Bit and byte helpers used by every layer: sign extension (R56), little-endian bytes (R4),
saturation (R89) and the inline constants' integer values (Table 2-6). -/

namespace Sys2Proof.Machine

/-- SExt(x, n) of R56: the low n bits of x as a signed value, in w bits. -/
def sextN (w n : Nat) (x : BitVec w) : BitVec w := (x.setWidth n).signExtend w

/-- ZExt(x, n) of R56. -/
def zextN (w n : Nat) (x : BitVec w) : BitVec w := (x.setWidth n).setWidth w

/-- Byte i of a little-endian value (R4). -/
def byteOf {w : Nat} (x : BitVec w) (i : Nat) : Byte := x.extractLsb' (8 * i) 8

/-- The n low bytes of a value, least significant first (R4). -/
def bytesLE {w : Nat} (n : Nat) (x : BitVec w) : List Byte := (List.range n).map (byteOf x)

/-- The number whose little-endian bytes are bs (R4). -/
def natOfLE : List Byte → Nat
  | [] => 0
  | b :: bs => b.toNat + 256 * natOfLE bs

/-- A 64-bit word from up to eight bytes, the rest zero. -/
def w64OfLE (bs : List Byte) : W64 := BitVec.ofNat 64 (natOfLE bs)

/-- A 32-bit word from up to four bytes. -/
def w32OfLE (bs : List Byte) : W32 := BitVec.ofNat 32 (natOfLE bs)

/-- Bits [lo+n-1 : lo] of x, as a number. -/
def fld {w : Nat} (x : BitVec w) (lo n : Nat) : Nat := (x.extractLsb' lo n).toNat

/-- Bit i of a 32-bit lane mask. -/
def bitAt {w : Nat} (x : BitVec w) (i : Nat) : Bool := x.getLsbD i

/-- The integer value of inline constant i (R35): sint(4) of i. -/
def constInt (w : Nat) (i : BitVec 4) : BitVec w := i.signExtend w

/-- The mask word with bit L set exactly where p L holds, for L below n. -/
def maskOf (n : Nat) (p : Nat → Bool) : Nat :=
  (List.range n).foldl (fun acc l => if p l then acc + 2 ^ l else acc) 0

/-- A 32-lane mask from a predicate on lanes. -/
def laneMask (p : Nat → Bool) : W32 := BitVec.ofNat 32 (maskOf 32 p)

/-- Whether i is one of the instruction's aligned accesses (R192). -/
def aligned (a n : Nat) : Bool := a % n == 0

/-- Round n up to a multiple of k, counted in k. -/
def ceilDiv (n k : Nat) : Nat := (n + k - 1) / k

/-- The 32 lanes in ascending order. -/
def lanes : List Nat := List.range 32

/-- Replace element i of a list. -/
def listSet {α : Type} (l : List α) (i : Nat) (x : α) : List α := l.set i x

/-- Remove element i of a list. -/
def listRemove {α : Type} : List α → Nat → List α
  | [], _ => []
  | _ :: xs, 0 => xs
  | x :: xs, i + 1 => x :: listRemove xs i

end Sys2Proof.Machine
end

