-- ==== Sys2Proof/Machine/Legal.lean ====
section
/-! DEFINITION. Which operand values an encoding admits: the reserved values, the widths and the register groups
that raise ILLEGAL by the encoding alone (R32 to R38, R46, R49 and each chapter's encoding rules). -/

namespace Sys2Proof.Machine

/-- NW = 1 leaves D undecoded (R36), and the model's operand is then 0. -/
def nwD {n : Nat} (h : Head) (d : BitVec n) : Bool := !h.nw || d == 0

/-- Neither C nor NW may be set (R46, R113, R190, R257 and the rules citing them). -/
def noCNW (h : Head) : Bool := !h.c && !h.nw

/-- A scalar operand code under R190: no lane latch. -/
def r190 : SSrc → Bool
  | .lv _ => false
  | _ => true

/-- A register or an inline constant, no latch (R183, R190). -/
def noLatchS : SSrc → Bool
  | .reg _ | .const _ => true
  | _ => false

/-- A lane operand that is no latch (R190, R154). -/
def noLatchL : LSrc → Bool
  | .ls _ | .lv _ => false
  | _ => true

/-- A 64-bit lane source: an even register pair, a constant or a scalar register (R38, R49). -/
def wideL : LSrc → Bool
  | .reg v => v.toNat % 2 == 0
  | .const _ | .sreg _ => true
  | _ => false

def wideLI : LSrcI → Bool
  | .src a => wideL a
  | .imm _ => true

/-- SA of a lane instruction names no scalar register: M[7] and E[22] select SB and SC only (R37). -/
def laneA : LSrc → Bool
  | .sreg _ => false
  | _ => true

/-- I32 of BFX and BFI in their immediate forms (R93): bits [31:15] and [7:6] reserved. -/
def bfCtl64 : SSrcI → Bool
  | .src _ => true
  | .imm i => fld i 15 17 == 0 && fld i 6 2 == 0

/-- I32 of VBFX and VBFI (R156): bits [31:14] and [7:5] reserved. -/
def bfCtl32 : LSrcI → Bool
  | .src _ => true
  | .imm i => fld i 14 18 == 0 && fld i 5 3 == 0

/-- ALU forms of group 000 (R86): whether SAT and W are admitted. -/
def legalAlu (sat w : Bool) (o : AluOps) : Bool := nwD o.h o.d && (sat || o.sat == .wrap) && (w || !o.w)

def legalUn (sat w : Bool) (o : UnOps) : Bool := nwD o.h o.d && (sat || o.sat == .wrap) && (w || !o.w)

/-- The compares' predicate pair (R103) and condition (R105, R106). -/
def legalCmp (pt pf : BitVec 3) (cond : BitVec 4) (maxCond : Nat) : Bool :=
  !(pt == pf && pt != 0) && cond.toNat ≤ maxCond

def legalF (rm : Bool) (o : FOps) : Bool := nwD o.h o.d && o.x == 0 && (rm || o.rm == 0)

/-- Lane floating forms with a result as wide as their type (R138). -/
def legalVF (rm : Bool) (o : VFOps) : Bool :=
  nwD o.h o.d && o.x == 0 && (rm || o.rm == 0) && laneA o.a &&
  (o.t != 1 || (noCNW o.h && o.d.toNat % 2 == 0 && wideL o.a && wideLI o.b))

def legalVFUn (xMax : Nat) (o : VFUnOps) : Bool :=
  nwD o.h o.d && o.x.toNat ≤ xMax && laneA o.a &&
  (o.t != 1 || (noCNW o.h && o.d.toNat % 2 == 0 && wideL o.a))

/-- A conversion (R144): dstOk and srcOk say which codes the form admits. -/
def legalCvt (dstOk srcOk : Nat → Bool) (o : CvtOps) : Bool :=
  dstOk o.dst.toNat && srcOk o.src.toNat &&
  (match o.opd with
   | .scalar d _ => nwD o.h d
   | .lane d a =>
     nwD o.h d && laneA a && o.dst != 8 && o.dst != 9 && o.src != 8 && o.src != 9 &&
     (o.dst != 0 || (noCNW o.h && d.toNat % 2 == 0)) && (o.src != 0 || wideL a))

def fltCode (n : Nat) : Bool := n ≤ 6
def intCode (n : Nat) : Bool := 8 ≤ n

/-- CVT.PACK (R149). -/
def legalPack (o : PackOps) : Bool :=
  !o.h.c && laneA o.a && o.fmt.toNat ≤ 4 &&
  (match o.fmt.toNat with
   | 0 | 1 => o.pos == 0 && nwD o.h o.d
   | 4 => true
   | _ => o.pos.toNat ≤ 1)

def legalEf (o : EfOps) : Bool :=
  !o.h.c && nwD o.h o.d && laneA o.a && o.fmt.toNat ≤ 4 && o.seg != 3 &&
  (match o.form with
   | .resid vr => o.h.nw || vr != o.d
   | _ => true)

def legalVInt (sat u p16 : Bool) (o : VIntOps) : Bool :=
  nwD o.h o.d && laneA o.a && (sat || o.sat == .wrap) && (u || !o.u) && (p16 || !o.p16)

/-- Matrix operand types by I and code (Table 9-2): width in bits, or none where reserved. -/
def mmaWidth (i : Bool) (t : BitVec 3) : Option Nat :=
  match i, t.toNat with
  | false, 0 => some 64 | false, 1 => some 16 | false, 2 => some 16
  | false, 3 => some 8 | false, 4 => some 8 | false, 5 => some 4
  | true, 0 => some 8 | true, 1 => some 8 | true, 2 => some 4 | true, 3 => some 4
  | _, _ => none

/-- Whether two register groups share a register. -/
def overlap (a n b m : Nat) : Bool := a < b + m && b < a + n

/-- Types that pair, and the A, B and accumulator groups (R169, R170). -/
def legalMma (d a b : BitVec 8) (i : Bool) (ta tb : BitVec 3) : Bool :=
  (mmaWidth i ta).isSome && mmaWidth i ta == mmaWidth i tb &&
  d.toNat % 8 == 0 && a.toNat % 8 == 0 && b.toNat % 8 == 0 &&
  (let n := if mmaWidth i ta == some 64 then 16 else 8
   !overlap d.toNat n a.toNat 48 && !overlap d.toNat n b.toNat 48)

/-- Registers of a narrowed destination (Table 9-3) by Table 7-11's code. -/
def mcvtRegs (fmt : BitVec 3) : Nat := match fmt.toNat with | 0 | 1 => 4 | 2 | 3 => 2 | _ => 1

/-- Loads and stores (R191). -/
def legalMem (load st : Bool) (o : MemOps) : Bool :=
  noCNW o.h && r190 o.a && (match o.idx with | .idx b _ => r190 b | .disp _ => true) &&
  o.size.toNat ≤ 4 && (!o.sx || (load && o.size.toNat ≤ 2)) && (st || !o.g) && (o.size != 4 || o.d.toNat % 2 == 0)

def legalXMem (load : Bool) (o : XMemOps) : Bool :=
  noCNW o.h && r190 o.core && r190 o.off && (o.disp.isNone || !o.x) &&
  o.size.toNat ≤ 4 && (!o.sx || (load && o.size.toNat ≤ 2)) && (o.size != 4 || o.d.toNat % 2 == 0)

def legalVMem (load st : Bool) (o : VMemOps) : Bool :=
  noCNW o.h && noLatchS o.a && noLatchL o.b && (o.disp.isNone || !o.x) &&
  o.size.toNat ≤ 4 && (!o.sx || (load && o.size.toNat ≤ 1)) && (st || !o.g) &&
  (o.size != 3 || o.d.toNat % 2 == 0) && (o.size != 4 || o.d.toNat % 4 == 0)

/-- The atomics' OP and U (R236). -/
def legalOp (op : BitVec 3) (u : Bool) : Bool := op != 7 && (!u || op == 1 || op == 2)

/-- A handler control field is always well formed (R257). A channel: 1 to 5. -/
def legalCh (ch : BitVec 3) (len : BitVec 4) : Bool := 1 ≤ ch.toNat && ch.toNat ≤ 5 && len != 15

def legalDA (o : DAOps) : Bool := noCNW o.h && r190 o.a
def legalDAB (o : DABOps) : Bool := noCNW o.h && r190 o.a && r190 o.b
def legalA (o : AOps) : Bool := noCNW o.h && r190 o.a

/-- A 14-register ray group, and a pair of registers (R297). -/
def rayGroup (d : BitVec 6) : Bool := 1 ≤ d.toNat && d.toNat ≤ 50
def hitGroup (d : BitVec 6) : Bool := 1 ≤ d.toNat && d.toNat ≤ 62

/-- An optional engine notify pair: an even register from 2 to 62 (R332). -/
def legalNt (nt : Option (BitVec 6)) : Bool :=
  match nt with
  | none => true
  | some r => r.toNat % 2 == 0 && r != 0

/-- A group of four s registers that starts at a nonzero multiple of 4. -/
def fourGroup (d : BitVec 6) : Bool := d != 0 && d.toNat % 4 == 0

/-- Special registers by number (Table 2-9, Table 17-5). -/
def srKnown (n : BitVec 12) : Bool := n.toNat ≤ 0xC || (0x100 ≤ n.toNat && n.toNat ≤ 0x108)

/-- The operand values each instruction's encoding admits; every event is well formed. VFCLASS.F64, whose result has 32 bits, may
carry C and NW (R138; log entry 92). -/
def legal : Instr → Bool
  | .add o | .sub o | .mul o => legalAlu true true o
  | .mulh o | .mulhu o | .div o | .divu o | .rem o | .remu o => legalAlu false true o
  | .min o | .max o | .minu o | .maxu o => legalAlu false true o
  | .abs o => legalUn true true o && o.sat != .us
  | .and o | .or o | .xor o | .andn o | .orn o => legalAlu false false o
  | .shl o | .shr o | .sar o | .rol o => legalAlu false true o
  | .bfx o | .bfxu o => legalAlu false false o && bfCtl64 o.b
  | .bfi o => nwD o.h o.d && bfCtl64 o.ctl
  | .popc o | .clz o | .ctz o | .brev o | .bswap o => legalUn false true o
  | .mov o => legalUn false false o
  | .movi o => nwD o.h o.d
  | .moviZx o => nwD o.h o.d
  | .moviHi _ => true
  | .lea o => nwD o.h o.d
  | .leaPc o => nwD o.h o.d
  | .sel o => nwD o.h o.d
  | .cmp o => legalCmp o.pt o.pf o.cond 11
  | .fcmp o => legalCmp o.pt o.pf o.cond 14
  | .vcmp o => legalCmp o.pt o.pf o.cond 11 && !o.t && laneA o.a
  | .vfcmp o => legalCmp o.pt o.pf o.cond 14 && laneA o.a && (!o.t || (wideL o.a && wideLI o.b))
  | .plop _ => true
  | .pset o => !bitAt o.mask 0 && !bitAt o.vals 0
  | .pmovKtos o => nwD o.h o.d
  | .pmovStok _ => true
  | .pmovQtos o => nwD o.h o.d
  | .pmovStoq _ => true
  | .vpmovQtov o => nwD o.h o.d
  | .vpmovVtoq o => laneA o.a
  | .nop o => noCNW o.h
  | .br o | .bra o | .bru o => noCNW o.h
  | .brx o => noCNW o.h
  | .call o | .loop o => noCNW o.h
  | .ret o => noCNW o.h
  | .join o | .yield o | .done o => noCNW o.h
  | .setpri o => noCNW o.h
  | .getpri o => noCNW o.h
  | .fadd o | .fsub o | .fmul o | .fdiv o => legalF true o
  | .fmin o | .fmax o => legalF false o
  | .ffma o => nwD o.h o.d
  | .fsqrt o => nwD o.h o.d && o.x == 0
  | .frnd o => nwD o.h o.d && o.x.toNat ≤ 1
  | .fclass o => nwD o.h o.d && o.x == 0 && !o.ftz && o.rm == 0
  | .fcpys o => nwD o.h o.d && o.x != 3
  | .vfadd o | .vfsub o | .vfmul o | .vfdiv o => legalVF true o
  | .vfmin o | .vfmax o => legalVF false o
  | .vffma o =>
    nwD o.h o.d && laneA o.a &&
    (o.t != 1 || (noCNW o.h && o.d.toNat % 2 == 0 && wideL o.a && wideL o.b && wideL o.c))
  | .vfsqrt o => legalVFUn 0 o
  | .vfrnd o => legalVFUn 1 o
  | .vfclass o => nwD o.h o.d && o.x == 0 && !o.ftz && o.rm == 0 && laneA o.a && (o.t != 1 || wideL o.a)
  | .cvtFf o => legalCvt fltCode fltCode o
  | .cvtFi o => legalCvt intCode fltCode o && !o.sat
  | .cvtIf o => legalCvt fltCode intCode o
  | .cvtPack o => legalPack o
  | .cvtEf o => legalEf o
  | .vadd o | .vsub o | .vmul o => legalVInt true false true o
  | .vmulh o | .vmin o | .vmax o => legalVInt false true true o
  | .vmad o => nwD o.h o.d && laneA o.a
  | .vand o | .vor o | .vxor o => legalVInt false false false o
  | .vshl o | .vshr o | .vsar o => legalVInt false false true o
  | .vbfx o => legalVInt false true false o && bfCtl32 o.b
  | .vbfi o => nwD o.h o.d && laneA o.a && bfCtl32 o.ctl
  | .vpopc o | .vclz o | .vbrev o => nwD o.h o.d && laneA o.a
  | .vmov o => nwD o.h o.d
  | .vsel o => nwD o.h o.d && laneA o.a
  | .vbcast o => nwD o.h o.d && laneA o.a
  | .vext o => noCNW o.h && laneA o.a
  | .voteBal o =>
    nwD o.h o.d && (match o.src with | .pred _ _ => true | .val a _ => laneA a | .valImm a _ => laneA a)
  | .voteAny o | .voteAll o =>
    noCNW o.h && (match o.src with | .pred _ _ => true | .val a _ => laneA a | .valImm a _ => laneA a)
  | .shfl o => nwD o.h o.d && laneA o.a && 1 ≤ o.wl.toNat && o.wl.toNat ≤ 5
  | .xchg o => nwD o.h o.d && laneA o.a && o.dl.toNat ≤ 4
  | .wred o => nwD o.h o.d && laneA o.a && 1 ≤ o.wl.toNat && o.wl.toNat ≤ 5 && o.op.toNat ≤ 10
  | .sfu o => noCNW o.h && laneA o.a && noLatchL o.a && o.fn != 7
  | .mma o => noCNW o.h && legalMma o.d o.a o.b o.i o.ta o.tb
  | .mmas o =>
    noCNW o.h && legalMma o.d o.a o.b o.i o.ta o.tb && !o.i && 3 ≤ o.ta.toNat && 3 ≤ o.tb.toNat &&
    !overlap o.d.toNat 8 o.sc.toNat 6
  | .mmaq o =>
    noCNW o.h && legalMma o.d o.a o.b o.i o.ta o.tb && o.i && o.ta == o.tb && (o.ta == 0 || o.ta == 2) &&
    o.sz != 3 && !overlap o.d.toNat 8 o.pa.toNat 8 && !overlap o.d.toNat 8 o.pb.toNat 8
  | .mzero o => noCNW o.h && o.d.toNat % 8 == 0
  | .mcvt o =>
    noCNW o.h && o.fmt.toNat ≤ 4 && o.a.toNat % 8 == 0 &&
    (match o.form with
     | .resid vr => !overlap o.d.toNat (mcvtRegs o.fmt) vr.toNat 1
     | _ => true)
  | .mldf o | .mstf o =>
    noCNW o.h && noLatchS o.base && noLatchS o.stride && o.kind != 3 && o.d.toNat % 8 == 0
  | .ld o | .lds o => legalMem true false o
  | .st o => legalMem false true o
  | .sts o => legalMem false false o
  | .ldx o => legalXMem true o
  | .stx o => legalXMem false o
  | .pref o => noCNW o.h && r190 o.a && (match o.idx with | .idx b _ => r190 b | .disp _ => true)
  | .vld o | .vlds o => legalVMem true false o
  | .vst o => legalVMem false true o
  | .vsts o => legalVMem false false o
  | .l1invLine o | .l2wbLine o =>
    noCNW o.h && r190 o.a && (match o.b with | .src b => r190 b | .imm _ => true)
  | .l1invAll o | .l2wbAll o => noCNW o.h
  | .l1invXl o => noCNW o.h && r190 o.a
  | .fenceAcq o | .fenceRel o | .fenceAr o => legalA o
  | .atom o | .atomsLocal o => noCNW o.h && r190 o.a && r190 o.b && legalOp o.op o.u
  | .atomNz o => noCNW o.h && r190 o.a && r190 o.b && legalOp o.op o.u && o.n.toNat % 2 == 0
  | .cas o => noCNW o.h && r190 o.a && r190 o.b && r190 o.c
  | .atomsRemote o => noCNW o.h && r190 o.core && r190 o.off && r190 o.b && legalOp o.op o.u
  | .vatom o => noCNW o.h && noLatchS o.a && noLatchL o.b && noLatchL o.c && legalOp o.op o.u
  | .send o =>
    noCNW o.h && r190 o.dst && legalCh o.ch o.len && (o.len == 0) == (o.d == 0) &&
    o.d.toNat + o.len.toNat ≤ 64 && (match o.stamp with | some c => r190 c | none => true)
  | .sendv o =>
    noCNW o.h && legalCh o.ch o.len && (o.len != 0 || o.d == 0) &&
    (if o.ord then o.stamp.toNat % 2 == 0 else o.stamp == 0)
  | .recv o => noCNW o.h
  | .gpost o => noCNW o.h && o.d != 0 && o.d.toNat ≤ 58
  | .gflush o => noCNW o.h
  | .requeue o => noCNW o.h
  | .qpush o => legalDA o && o.d != 0
  | .qflush o => legalA o
  | .htabGet o | .htabSet o => legalDA o && fourGroup o.d
  | .launchWake o | .launchOpen o | .launchClose o | .cancel o => legalDA o
  | .lvlread o | .lvlreadReap o => legalDA o && fourGroup o.d
  | .vtget o | .vtgetRep o | .hzread o | .hzreadSys o => noCNW o.h
  | .vtset o | .hzwait o | .hzwaitSys o => legalA o
  | .rsend o => noCNW o.h && r190 o.a && rayGroup o.d
  | .boxt o => noCNW o.h && r190 o.a && rayGroup o.ray
  | .trit o =>
    noCNW o.h && r190 o.a && rayGroup o.ray && hitGroup o.d && !overlap o.d.toNat 2 o.ray.toNat 14
  | .rpush o | .rxform o => legalDAB o && rayGroup o.d
  | .rpushBox o => noCNW o.h && r190 o.a && r190 o.g && r190 o.n && rayGroup o.d
  | .rpop o => noCNW o.h && r190 o.g && rayGroup o.ray && !overlap o.d.toNat 1 o.ray.toNat 14
  | .rhit o => noCNW o.h && r190 o.core && r190 o.user && rayGroup o.ray && hitGroup o.d
  | .rmiss o => noCNW o.h && r190 o.core && r190 o.user && rayGroup o.ray
  | .rloadRay o | .rloadGeom o | .rstoreRay o | .rstoreGeom o => legalDAB o && rayGroup o.d
  | .rloadHit o | .rstoreHit o => legalDAB o && hitGroup o.d
  | .cnlookDir o | .cnsetDir o => legalDA o && fourGroup o.d
  | .cnlookLoc o => legalDAB o && hitGroup o.d
  | .cnsetSlot o => legalDA o && hitGroup o.d
  | .thaw o => legalDAB o
  | .evict o => legalDA o
  | .rpin o => noCNW o.h && r190 o.a && r190 o.b && r190 o.c
  | .rdone o => noCNW o.h && r190 o.a && r190 o.b && o.p.toNat % 2 == 0 && o.n != 0
  | .rlog o =>
    noCNW o.h && r190 o.q && r190 o.node && r190 o.stamp && rayGroup o.d && 1 ≤ o.event.toNat && o.event.toNat ≤ 6
  | .rreplay o => noCNW o.h && r190 o.a && rayGroup o.ray
  | .rreplayTri o => noCNW o.h && r190 o.a && rayGroup o.ray && o.d != 63
  | .bget o | .bput o => noCNW o.h && r190 o.dst && r190 o.src && r190 o.len && legalNt o.nt
  | .bcopy o => noCNW o.h && r190 o.dst && r190 o.src && r190 o.len && legalNt o.nt && o.ds != 3 && o.ss != 3
  | .bfill o => noCNW o.h && r190 o.dst && r190 o.src && r190 o.len && legalNt o.nt && o.ds != 3 && o.ss == 0
  | .tlreadDone o | .tlreadIss o | .tlreadErr o => noCNW o.h
  | .tlwait o => noCNW o.h && r190 o.a
  | .smp o | .smpf o => noCNW o.h && r190 o.desc
  | .sfence o => noCNW o.h
  | .rsr o => !o.h.c && srKnown o.num && nwD o.h o.d && (o.num == 1 || o.d.toNat < 64)
  | .wsr o => !o.h.c && srKnown o.num && r190 o.a
  | .trap o => noCNW o.h
  | .brk o | .tret o => noCNW o.h
  | .fresume o | .fresumeStep o | .fresumeOut o | .fkill o | .halt o => legalDA o
  | .finspectRd o | .finspectWr o => noCNW o.h && r190 o.a && r190 o.b
  | .preemptDrain o | .preemptSwap o | .preemptRes o | .remap o => legalDAB o
  | _ => true

end Sys2Proof.Machine
end

