-- ==== Sys2Proof/WellFormed.lean ====
section
/-! DEFINITION. Well-formed instructions: those whose operands the encoding admits (R33). -/

namespace Sys2Proof

/-- An instruction whose fields hold no reserved value, width or group (R32 to R38, R46, R49). -/
abbrev WellFormed (i : Instr) : Prop := Machine.legal i = true

end Sys2Proof
end

