-- ==== Sys2Proof/Decode.lean ====
section
/-! DEFINITION. From bytes to an instruction (R25 to R39 and each chapter's encoding table), total, rejecting by
name; and after it the encoder. Register numbers and operation codes become operands here and nowhere else. -/

namespace Sys2Proof

/-- The fields of an instruction as the layouts of Table 2-4 cut them. m ++ sb is I17; in A96 and A128 the third
word is E ++ SC, in J96 it is I32; in A128 the fourth word is I32. Absent words are 0. -/
structure Fields where
  len : Len
  c   : Bool
  nw  : Bool
  op  : BitVec 9
  pa  : BitVec 3
  pb  : BitVec 3
  pc  : BitVec 3
  ntt : BitVec 8
  d   : BitVec 8
  sa  : BitVec 9
  sb  : BitVec 9
  m   : BitVec 8
  w2  : W32
  w3  : W32
  deriving DecidableEq, Repr

/-- Why bytes are no instruction: too few bytes, length code 0b00 (R25), or a field no row admits (R32 to R38). -/
inductive DecodeError | short | noLength | illegal
  deriving DecidableEq, Repr

/-- Head fields beside length and opcode. -/
def headOf (f : Fields) : Head := ⟨f.c, f.nw, f.pa, f.pb, f.pc, f.ntt⟩

/-- The length in 32-bit words, and in bytes (Table 2-1). -/
def lenWords : Len → Nat
  | .l64 => 2
  | .l96 => 3
  | .l128 => 4

def lenBytes (l : Len) : Nat := 4 * lenWords l

def lenOfCode (b : BitVec 2) : Option Len :=
  match b.toNat with
  | 1 => some .l64
  | 2 => some .l96
  | 3 => some .l128
  | _ => none

def lenCode : Len → BitVec 2
  | .l64 => 1
  | .l96 => 2
  | .l128 => 3

/-- Cut the words of an instruction into fields (Table 2-3, Table 2-4). -/
def unpack (l : Len) (w0 w1 w2 w3 : W32) : Fields :=
  { len := l, c := w0.getLsbD 2, nw := w0.getLsbD 3, op := w0.extractLsb' 4 9, pa := w0.extractLsb' 13 3,
    pb := w0.extractLsb' 16 3, pc := w0.extractLsb' 19 3, ntt := w0.extractLsb' 22 8,
    d := w1.extractLsb' 0 6 ++ w0.extractLsb' 30 2, sa := w1.extractLsb' 6 9, sb := w1.extractLsb' 15 9,
    m := w1.extractLsb' 24 8, w2 := w2, w3 := w3 }

/-! ## Field readers -/

/-- Continue only where the condition holds. -/
def chk (b : Bool) : Option Unit := if b then some () else none

/-- A scalar operand code (Table 2-5). -/
def parseS (x : BitVec 9) : Option SSrc :=
  if x.toNat < 64 then some (.reg (x.setWidth 6))
  else if 256 ≤ x.toNat ∧ x.toNat < 260 then some (.ls (x.setWidth 2))
  else if 260 ≤ x.toNat ∧ x.toNat < 264 then some (.lv (x.setWidth 2))
  else if 272 ≤ x.toNat ∧ x.toNat < 288 then some (.const (x.setWidth 4))
  else none

/-- A lane operand code; sel is the scalar select of R37. -/
def parseL (sel : Bool) (x : BitVec 9) : Option LSrc :=
  if sel then (if x.toNat < 64 then some (.sreg (x.setWidth 6)) else none)
  else if x.toNat < 256 then some (.reg (x.setWidth 8))
  else if x.toNat < 260 then some (.ls (x.setWidth 2))
  else if x.toNat < 264 then some (.lv (x.setWidth 2))
  else if 272 ≤ x.toNat ∧ x.toNat < 288 then some (.const (x.setWidth 4))
  else none

/-- A register code of a lane group field (R34). -/
def parseV (x : BitVec 9) : Option (BitVec 8) := if x.toNat < 256 then some (x.setWidth 8) else none

/-- A register code of a scalar group field. -/
def parseR (x : BitVec 9) : Option (BitVec 6) := if x.toNat < 64 then some (x.setWidth 6) else none

/-- D as an s register (R36); with NW = 1 it is not decoded and is 0. -/
def destS (f : Fields) : Option (BitVec 6) :=
  if f.nw then some 0 else if f.d.toNat < 64 then some (f.d.setWidth 6) else none

/-- D as an s register that is decoded whatever NW holds: a source, a group or a counter. -/
def dReg (f : Fields) : Option (BitVec 6) := if f.d.toNat < 64 then some (f.d.setWidth 6) else none

/-- D as a v register (R36). -/
def destV (f : Fields) : BitVec 8 := if f.nw then 0 else f.d

def scOf (f : Fields) : BitVec 9 := f.w2.extractLsb' 0 9
def eOf (f : Fields) : BitVec 23 := f.w2.extractLsb' 9 23
def i17Of (f : Fields) : BitVec 17 := f.m ++ f.sb

/-- SAT (R86, R153). -/
def parseSat (x : BitVec 2) : Option Sat :=
  match x.toNat with
  | 0 => some .wrap
  | 1 => some .ss
  | 2 => some .us
  | _ => none

/-- A one-bit value in a two-bit field whose other values are reserved (W, EL). -/
def parse2 (x : BitVec 2) : Option Bool :=
  match x.toNat with
  | 0 => some false
  | 1 => some true
  | _ => none

/-- Source B in A64, or I32 in J96 with SB reserved. -/
def srcBS (f : Fields) : Option SSrcI :=
  match f.len with
  | .l64 => do let b ← parseS f.sb; pure (.src b)
  | .l96 => do chk (f.sb == 0); pure (.imm f.w2)
  | .l128 => none

/-- The same for a lane instruction: M[7] selects a scalar register in A64 and is reserved in J96. -/
def srcBL (f : Fields) : Option LSrcI :=
  match f.len with
  | .l64 => do let b ← parseL (bif f.m.getLsbD 7 then true else false) f.sb; pure (.src b)
  | .l96 => do chk (f.sb == 0 && !f.m.getLsbD 7); pure (.imm f.w2)
  | .l128 => none

/-- The handler control field (R257). -/
def parseHid (x : BitVec 9) : Option HidOp :=
  if x.getLsbD 8 then (do chk (x.extractLsb' 6 2 == 0); pure (.reg (x.setWidth 6))) else some (.num (x.setWidth 8))

def isA64 (f : Fields) : Option Unit := chk (f.len == .l64)
def isJ96 (f : Fields) : Option Unit := chk (f.len == .l96)
def isA128 (f : Fields) : Option Unit := chk (f.len == .l128)

/-- The offset or immediate of a form that admits I64 and J96 (R114): SB and M reserved in J96. -/
def parseImm (f : Fields) : Option Imm :=
  match f.len with
  | .l64 => some (.i17 (i17Of f))
  | .l96 => do chk (f.sb == 0 && f.m == 0); pure (.i32 f.w2)
  | .l128 => none

/-! ## One reader per record of operands -/

def decAlu (mk : AluOps → Instr) (f : Fields) : Option Instr := do
  chk (f.m.extractLsb' 4 4 == 0)
  let d ← destS f; let a ← parseS f.sa; let b ← srcBS f
  let sat ← parseSat (f.m.extractLsb' 2 2); let w ← parse2 (f.m.extractLsb' 0 2)
  pure (mk ⟨headOf f, d, a, b, sat, w⟩)

def decUn (mk : UnOps → Instr) (f : Fields) : Option Instr := do
  isA64 f; chk (f.m.extractLsb' 4 4 == 0 && f.sb == 0)
  let d ← destS f; let a ← parseS f.sa
  let sat ← parseSat (f.m.extractLsb' 2 2); let w ← parse2 (f.m.extractLsb' 0 2)
  pure (mk ⟨headOf f, d, a, sat, w⟩)

def decBfi (f : Fields) : Option Instr := do
  chk (f.m == 0)
  let d ← destS f; let a ← parseS f.sa; let b ← parseS f.sb
  match f.len with
  | .l96 => do chk (eOf f == 0); let c ← parseS (scOf f); pure (.bfi ⟨headOf f, d, a, b, .src c⟩)
  | .l128 => do chk (f.w2 == 0); pure (.bfi ⟨headOf f, d, a, b, .imm f.w3⟩)
  | .l64 => none

def decMovi (f : Fields) : Option Instr := do
  chk (f.sa == 0)
  match f.len with
  | .l64 => do let d ← destS f; pure (.movi ⟨headOf f, d, .i17 (i17Of f)⟩)
  | .l96 => do
    chk (f.sb == 0)
    match f.m.toNat with
    | 0 => do let d ← destS f; pure (.movi ⟨headOf f, d, .i32 f.w2⟩)
    | 1 => do let d ← dReg f; pure (.moviHi ⟨headOf f, d, f.w2⟩)
    | 2 => do let d ← destS f; pure (.moviZx ⟨headOf f, d, f.w2⟩)
    | _ => none
  | .l128 => none

/-- The displacement of a form whose SB stays a source in J96. -/
def parseDisp (f : Fields) : Option (Option W32) :=
  match f.len with
  | .l64 => some none
  | .l96 => some (some f.w2)
  | .l128 => none

def decLea (f : Fields) : Option Instr := do
  chk (f.m.extractLsb' 4 4 == 0)
  let d ← destS f; let b ← parseS f.sb; let disp ← parseDisp f
  if f.m.getLsbD 3 then do
    chk (f.sa == 0); pure (.leaPc ⟨headOf f, d, b, f.m.extractLsb' 0 3, disp⟩)
  else do
    let a ← parseS f.sa; pure (.lea ⟨headOf f, d, a, b, f.m.extractLsb' 0 3, disp⟩)

def decSel (f : Fields) : Option Instr := do
  chk (f.m.extractLsb' 4 4 == 0)
  let d ← destS f; let a ← parseS f.sa; let b ← srcBS f
  pure (.sel ⟨headOf f, d, a, b, f.m.getLsbD 3, f.m.extractLsb' 0 3⟩)

def decCmp (mk : CmpOps → Instr) (f : Fields) : Option Instr := do
  chk (f.d.extractLsb' 6 2 == 0 && !f.m.getLsbD 7)
  let a ← parseS f.sa; let b ← srcBS f
  pure (mk ⟨headOf f, f.d.extractLsb' 0 3, f.d.extractLsb' 3 3, f.m.extractLsb' 5 2, f.m.extractLsb' 1 4,
    f.m.getLsbD 0, a, b⟩)

def decVCmp (mk : VCmpOps → Instr) (f : Fields) : Option Instr := do
  chk (f.d.extractLsb' 6 2 == 0)
  let a ← parseL false f.sa; let b ← srcBL f
  pure (mk ⟨headOf f, f.d.extractLsb' 0 3, f.d.extractLsb' 3 3, f.m.extractLsb' 5 2, f.m.extractLsb' 1 4,
    f.m.getLsbD 0, a, b⟩)

def decPlop (f : Fields) : Option Instr := do
  isA64 f; chk (f.d.extractLsb' 3 5 == 0 && (i17Of f).extractLsb' 8 8 == 0)
  pure (.plop ⟨headOf f, (i17Of f).getLsbD 16, f.d.extractLsb' 0 3, f.sa.extractLsb' 0 3, f.sa.extractLsb' 3 3,
    f.sa.extractLsb' 6 3, (i17Of f).extractLsb' 0 8⟩)

def decPset (f : Fields) : Option Instr := do
  isA64 f; chk (f.d == 0 && f.sa == 0)
  pure (.pset ⟨headOf f, (i17Of f).getLsbD 16, (i17Of f).extractLsb' 0 8, (i17Of f).extractLsb' 8 8⟩)

def decPmov (f : Fields) : Option Instr := do
  chk (f.m.extractLsb' 5 3 == 0)
  let n := f.m.extractLsb' 2 3
  match (f.m.extractLsb' 0 2).toNat with
  | 0 => do
    isA64 f; chk (f.sa == 0 && f.sb == 0 && n == 0); let d ← destS f; pure (.pmovKtos ⟨headOf f, d⟩)
  | 1 => do
    chk (f.d == 0 && n == 0); let a ← parseS f.sa; let b ← srcBS f; pure (.pmovStok ⟨headOf f, a, b⟩)
  | 2 => do
    isA64 f; chk (f.sa == 0 && f.sb == 0); let d ← destS f; pure (.pmovQtos ⟨headOf f, d, n⟩)
  | _ => do
    chk (f.d == 0 && f.sb == 0)
    match f.len with
    | .l64 => do let a ← parseS f.sa; pure (.pmovStoq ⟨headOf f, n, .src a⟩)
    | .l96 => do chk (f.sa == 0); pure (.pmovStoq ⟨headOf f, n, .imm f.w2⟩)
    | .l128 => none

def decVpmov (f : Fields) : Option Instr := do
  chk (f.m.extractLsb' 1 6 == 0)
  if f.m.getLsbD 0 then do
    chk (f.d == 0); let a ← parseL false f.sa; let b ← srcBL f; pure (.vpmovVtoq ⟨headOf f, a, b⟩)
  else do
    isA64 f; chk (f.sa == 0 && f.sb == 0); pure (.vpmovQtov ⟨headOf f, destV f, f.m.getLsbD 7⟩)

def decBr (mk : BrOps → Instr) (f : Fields) : Option Instr := do
  chk (f.d == 0 && f.sa == 0); let i ← parseImm f; pure (mk ⟨headOf f, i⟩)

def decDBr (mk : DBrOps → Instr) (f : Fields) : Option Instr := do
  chk (f.sa == 0); let d ← dReg f; let i ← parseImm f; pure (mk ⟨headOf f, d, i⟩)

def decBrx (f : Fields) : Option Instr := do
  let d ← dReg f; let a ← parseS f.sa; let i ← parseImm f; pure (.brx ⟨headOf f, d, a, i⟩)

/-- A64 with every field after the head zero. -/
def decH (mk : HOps → Instr) (f : Fields) : Option Instr := do
  isA64 f; chk (f.d == 0 && f.sa == 0 && f.sb == 0 && f.m == 0); pure (mk ⟨headOf f⟩)

/-- A64 with one scalar source and nothing else; the modifier has the one value m. -/
def decA (m : BitVec 8) (mk : AOps → Instr) (f : Fields) : Option Instr := do
  isA64 f; chk (f.d == 0 && f.sb == 0 && f.m == m); let a ← parseS f.sa; pure (mk ⟨headOf f, a⟩)

/-- A64 with a destination and nothing else. -/
def decD (mk : DOps → Instr) (f : Fields) : Option Instr := do
  isA64 f; chk (f.sa == 0 && f.sb == 0); let d ← dReg f; pure (mk ⟨headOf f, d⟩)

/-- A64 with D and SA. -/
def decDA (mk : DAOps → Instr) (f : Fields) : Option Instr := do
  isA64 f; chk (f.sb == 0); let d ← dReg f; let a ← parseS f.sa; pure (mk ⟨headOf f, d, a⟩)

/-- A64 with D, SA and SB. -/
def decDAB (mk : DABOps → Instr) (f : Fields) : Option Instr := do
  isA64 f; let d ← dReg f; let a ← parseS f.sa; let b ← parseS f.sb; pure (mk ⟨headOf f, d, a, b⟩)

def decNop (f : Fields) : Option Instr := do
  chk (f.d == 0 && f.sa == 0 && f.sb == 0 && f.m == 0 && f.w2 == 0 && f.w3 == 0); pure (.nop ⟨headOf f, f.len⟩)

def decSetpri (f : Fields) : Option Instr := do
  isA64 f; chk (f.d == 0 && f.sa == 0 && (i17Of f).extractLsb' 3 14 == 0)
  pure (.setpri ⟨headOf f, (i17Of f).extractLsb' 0 3⟩)

def decGetpri (f : Fields) : Option Instr := do
  isA64 f; chk (f.sa == 0 && f.sb == 0 && f.m == 0); pure (.getpri ⟨headOf f, f.d⟩)

/-- The floating modifier byte of a scalar form (Table 2-7): M[7] = 0, T = 0b01. -/
def decF (mk : FOps → Instr) (f : Fields) : Option Instr := do
  chk (!f.m.getLsbD 7 && f.m.extractLsb' 0 2 == 1)
  let d ← destS f; let a ← parseS f.sa; let b ← srcBS f
  pure (mk ⟨headOf f, d, a, b, f.m.extractLsb' 5 2, f.m.getLsbD 4, f.m.extractLsb' 2 2⟩)

def decFUn (mk : FUnOps → Instr) (f : Fields) : Option Instr := do
  isA64 f; chk (f.sb == 0 && !f.m.getLsbD 7 && f.m.extractLsb' 0 2 == 1)
  let d ← destS f; let a ← parseS f.sa
  pure (mk ⟨headOf f, d, a, f.m.extractLsb' 5 2, f.m.getLsbD 4, f.m.extractLsb' 2 2⟩)

def decFfma (f : Fields) : Option Instr := do
  isJ96 f; chk (eOf f == 0 && !f.m.getLsbD 7 && f.m.extractLsb' 0 2 == 1)
  let d ← destS f; let a ← parseS f.sa; let b ← parseS f.sb; let c ← parseS (scOf f)
  pure (.ffma ⟨headOf f, d, a, b, c, f.m.extractLsb' 5 2, f.m.getLsbD 4, f.m.extractLsb' 2 2⟩)

def decFcpys (f : Fields) : Option Instr := do
  isA64 f; chk (!f.m.getLsbD 7 && f.m.extractLsb' 0 5 == 1)
  let d ← destS f; let a ← parseS f.sa; let b ← parseS f.sb
  pure (.fcpys ⟨headOf f, d, a, b, f.m.extractLsb' 5 2⟩)

def decVF (mk : VFOps → Instr) (f : Fields) : Option Instr := do
  let a ← parseL false f.sa; let b ← srcBL f
  pure (mk ⟨headOf f, destV f, a, b, f.m.extractLsb' 5 2, f.m.getLsbD 4, f.m.extractLsb' 2 2, f.m.extractLsb' 0 2⟩)

def decVFUn (mk : VFUnOps → Instr) (f : Fields) : Option Instr := do
  isA64 f; chk (f.sb == 0 && !f.m.getLsbD 7)
  let a ← parseL false f.sa
  pure (mk ⟨headOf f, destV f, a, f.m.extractLsb' 5 2, f.m.getLsbD 4, f.m.extractLsb' 2 2, f.m.extractLsb' 0 2⟩)

def decVffma (f : Fields) : Option Instr := do
  isJ96 f; chk ((eOf f).extractLsb' 0 22 == 0)
  let a ← parseL false f.sa; let b ← parseL (f.m.getLsbD 7) f.sb; let c ← parseL ((eOf f).getLsbD 22) (scOf f)
  pure (.vffma ⟨headOf f, destV f, a, b, c, f.m.extractLsb' 5 2, f.m.getLsbD 4, f.m.extractLsb' 2 2,
    f.m.extractLsb' 0 2⟩)

def decCvt (mk : CvtOps → Instr) (f : Fields) : Option Instr := do
  isA64 f; chk (!f.sb.getLsbD 8 && f.m.extractLsb' 5 2 == 0 && !f.m.getLsbD 0)
  let ftz := f.m.getLsbD 4; let rm := f.m.extractLsb' 2 2; let sat := f.m.getLsbD 1
  if f.m.getLsbD 7 then do
    let a ← parseL false f.sa
    pure (mk ⟨headOf f, .lane (destV f) a, f.sb.extractLsb' 0 4, f.sb.extractLsb' 4 4, ftz, rm, sat⟩)
  else do
    let d ← destS f; let a ← parseS f.sa
    pure (mk ⟨headOf f, .scalar d a, f.sb.extractLsb' 0 4, f.sb.extractLsb' 4 4, ftz, rm, sat⟩)

def decPack (f : Fields) : Option Instr := do
  isA64 f
  let a ← parseL false f.sa; let b ← parseL (f.m.getLsbD 7) f.sb
  let fmt := f.m.extractLsb' 4 3
  pure (.cvtPack ⟨headOf f, if fmt.toNat ≤ 1 then destV f else f.d, a, b, fmt, f.m.extractLsb' 2 2, f.m.extractLsb' 0 2⟩)

/-- The layout of CVT.EF and MCVT (R150, R182). -/
def parseEf (f : Fields) : Option EfForm :=
  match f.len with
  | .l64 => some .short
  | .l96 => do
    chk (scOf f == 0 && (eOf f).extractLsb' 9 14 == 0)
    if (eOf f).getLsbD 8 then some (.resid ((eOf f).extractLsb' 0 8))
    else do chk ((eOf f).extractLsb' 0 8 == 0); pure .long
  | .l128 => none

def decEf (f : Fields) : Option Instr := do
  chk (f.sb == 0 && !f.m.getLsbD 7 && f.m.extractLsb' 0 2 == 0)
  let a ← parseL false f.sa; let form ← parseEf f
  pure (.cvtEf ⟨headOf f, destV f, a, f.m.extractLsb' 4 3, f.m.extractLsb' 2 2, form⟩)

/-- Two-source lane integer forms; each reads its own modifiers (Table 8-2). -/
def decVInt (mk : VIntOps → Instr) (satF uF elF : Bool) (f : Fields) : Option Instr := do
  chk (f.m.extractLsb' 0 2 == 0 && (satF || f.m.extractLsb' 5 2 == 0) && (uF || !f.m.getLsbD 4))
  chk (elF || f.m.extractLsb' 2 2 == 0)
  let a ← parseL false f.sa; let b ← srcBL f
  let sat ← parseSat (f.m.extractLsb' 5 2); let el ← parse2 (f.m.extractLsb' 2 2)
  pure (mk ⟨headOf f, destV f, a, b, sat, f.m.getLsbD 4, el⟩)

def decVMad (f : Fields) : Option Instr := do
  isJ96 f; chk ((eOf f).extractLsb' 0 22 == 0 && !f.m.getLsbD 4 && f.m.extractLsb' 0 2 == 0)
  let a ← parseL false f.sa; let b ← parseL (f.m.getLsbD 7) f.sb; let c ← parseL ((eOf f).getLsbD 22) (scOf f)
  let sat ← parseSat (f.m.extractLsb' 5 2); let el ← parse2 (f.m.extractLsb' 2 2)
  pure (.vmad ⟨headOf f, destV f, a, b, c, sat, el⟩)

def decVBfi (f : Fields) : Option Instr := do
  chk (f.m.extractLsb' 0 7 == 0)
  let a ← parseL false f.sa; let b ← parseL (f.m.getLsbD 7) f.sb
  match f.len with
  | .l96 => do
    chk ((eOf f).extractLsb' 0 22 == 0)
    let c ← parseL ((eOf f).getLsbD 22) (scOf f); pure (.vbfi ⟨headOf f, destV f, a, b, .src c⟩)
  | .l128 => do chk (f.w2 == 0); pure (.vbfi ⟨headOf f, destV f, a, b, .imm f.w3⟩)
  | .l64 => none

def decVUn (mk : VUnOps → Instr) (f : Fields) : Option Instr := do
  isA64 f; chk (f.sb == 0 && f.m == 0); let a ← parseL false f.sa; pure (mk ⟨headOf f, destV f, a⟩)

def decVMov (f : Fields) : Option Instr := do
  chk (f.sa == 0 && f.m.extractLsb' 0 7 == 0); let b ← srcBL f; pure (.vmov ⟨headOf f, destV f, b⟩)

def decVSel (f : Fields) : Option Instr := do
  chk (f.m.extractLsb' 0 3 == 0)
  let a ← parseL false f.sa; let b ← srcBL f
  pure (.vsel ⟨headOf f, destV f, a, b, f.m.extractLsb' 4 3, f.m.getLsbD 3⟩)

/-- The lane index of VBCAST and VEXT (R152). -/
def parseIdx (f : Fields) : Option LaneIdx :=
  match f.len with
  | .l64 => do chk (f.m.getLsbD 7); let r ← parseR f.sb; pure (.sreg r)
  | .l96 => do chk (f.sb == 0 && !f.m.getLsbD 7 && f.w2.extractLsb' 5 27 == 0); pure (.imm (f.w2.extractLsb' 0 5))
  | .l128 => none

def decVbcast (f : Fields) : Option Instr := do
  chk (f.m.extractLsb' 0 7 == 0); let a ← parseL false f.sa; let i ← parseIdx f
  pure (.vbcast ⟨headOf f, destV f, a, i⟩)

def decVext (f : Fields) : Option Instr := do
  chk (f.m.extractLsb' 0 4 == 0 && f.m.extractLsb' 5 2 == 0)
  let d ← dReg f; let a ← parseL false f.sa; let i ← parseIdx f
  pure (.vext ⟨headOf f, d, a, i, f.m.getLsbD 4⟩)

/-- The source of a vote (R160). -/
def parseVote (f : Fields) : Option VoteSrc :=
  if f.m.getLsbD 4 then do
    isA64 f; chk (f.sa.extractLsb' 3 6 == 0 && f.sb == 0); pure (.pred (f.sa.extractLsb' 0 3) (f.m.getLsbD 7))
  else
    match f.len with
    | .l64 => do let a ← parseL false f.sa; let b ← parseL (f.m.getLsbD 7) f.sb; pure (.val a b)
    | .l96 => do
      chk (f.sb == 0 && !f.m.getLsbD 7 && f.w2.extractLsb' 5 27 == 0)
      let a ← parseL false f.sa; pure (.valImm a (f.w2.extractLsb' 0 5))
    | .l128 => none

def decVote (f : Fields) : Option Instr := do
  chk (f.m.extractLsb' 5 2 == 0 && f.m.extractLsb' 2 2 == 0)
  let s ← parseVote f
  match (f.m.extractLsb' 0 2).toNat with
  | 0 => do chk (f.d.extractLsb' 3 5 == 0); pure (.voteAny ⟨headOf f, f.d.extractLsb' 0 3, s⟩)
  | 1 => do chk (f.d.extractLsb' 3 5 == 0); pure (.voteAll ⟨headOf f, f.d.extractLsb' 0 3, s⟩)
  | 2 => pure (.voteBal ⟨headOf f, destV f, s⟩)
  | _ => none

def decShfl (f : Fields) : Option Instr := do
  chk (f.m.extractLsb' 5 2 == 0)
  let a ← parseL false f.sa; let b ← srcBL f
  pure (.shfl ⟨headOf f, destV f, a, b, f.m.extractLsb' 2 3, f.m.extractLsb' 0 2⟩)

def decXchg (f : Fields) : Option Instr := do
  chk (f.m.extractLsb' 5 2 == 0 && f.m.extractLsb' 0 2 == 0)
  let a ← parseL false f.sa; let b ← srcBL f
  pure (.xchg ⟨headOf f, destV f, a, b, f.m.extractLsb' 2 3⟩)

def decWred (f : Fields) : Option Instr := do
  isA64 f; chk (f.sb == 0 && !f.m.getLsbD 7)
  let a ← parseL false f.sa; pure (.wred ⟨headOf f, destV f, a, f.m.extractLsb' 4 3, f.m.extractLsb' 0 4⟩)

def decSfu (f : Fields) : Option Instr := do
  isA64 f; chk (f.sb == 0 && f.m.extractLsb' 3 5 == 0)
  let a ← parseL false f.sa; pure (.sfu ⟨headOf f, f.d, a, f.m.extractLsb' 0 3⟩)

def decMma (f : Fields) : Option Instr := do
  isA64 f; chk (!f.m.getLsbD 7); let a ← parseV f.sa; let b ← parseV f.sb
  pure (.mma ⟨headOf f, f.d, a, b, f.m.getLsbD 6, f.m.extractLsb' 3 3, f.m.extractLsb' 0 3⟩)

def decMmas (f : Fields) : Option Instr := do
  isJ96 f; chk (!f.m.getLsbD 7 && eOf f == 0)
  let a ← parseV f.sa; let b ← parseV f.sb; let s ← parseV (scOf f)
  pure (.mmas ⟨headOf f, f.d, a, b, f.m.getLsbD 6, f.m.extractLsb' 3 3, f.m.extractLsb' 0 3, s⟩)

def decMmaq (f : Fields) : Option Instr := do
  isJ96 f; chk (!f.m.getLsbD 7 && (eOf f).extractLsb' 10 13 == 0)
  let a ← parseV f.sa; let b ← parseV f.sb; let p ← parseV (scOf f)
  pure (.mmaq ⟨headOf f, f.d, a, b, f.m.getLsbD 6, f.m.extractLsb' 3 3, f.m.extractLsb' 0 3, p,
    (eOf f).extractLsb' 0 8, (eOf f).extractLsb' 8 2⟩)

def decMzero (f : Fields) : Option Instr := do
  isA64 f; chk (f.sa == 0 && f.sb == 0 && f.m.extractLsb' 1 7 == 0); pure (.mzero ⟨headOf f, f.d, f.m.getLsbD 0⟩)

def decMcvt (f : Fields) : Option Instr := do
  chk (f.sb == 0 && !f.m.getLsbD 7 && f.m.extractLsb' 0 4 == 0)
  let a ← parseV f.sa; let form ← parseEf f
  pure (.mcvt ⟨headOf f, f.d, a, f.m.extractLsb' 4 3, form⟩)

def decMldf (mk : MldfOps → Instr) (f : Fields) : Option Instr := do
  isJ96 f; chk (f.m.extractLsb' 2 6 == 0); let a ← parseS f.sa; let b ← parseS f.sb
  pure (mk ⟨headOf f, f.d, f.m.extractLsb' 0 2, a, b, f.w2⟩)

/-- The index or displacement of a scalar memory form (R190, R191). -/
def parseMemIdx (f : Fields) : Option MemIdx :=
  match f.len with
  | .l64 => do let b ← parseS f.sb; pure (.idx b (f.m.getLsbD 4))
  | .l96 => do chk (f.sb == 0 && !f.m.getLsbD 4); pure (.disp f.w2)
  | .l128 => none

def decMem (mk : MemOps → Instr) (f : Fields) : Option Instr := do
  chk (!f.m.getLsbD 7 && !f.m.getLsbD 3)
  let d ← dReg f; let a ← parseS f.sa; let i ← parseMemIdx f
  pure (mk ⟨headOf f, d, a, i, f.m.getLsbD 6, f.m.getLsbD 5, f.m.extractLsb' 0 3⟩)

def decXMem (mk : XMemOps → Instr) (f : Fields) : Option Instr := do
  chk (!f.m.getLsbD 7 && !f.m.getLsbD 3 && !f.m.getLsbD 5)
  let d ← dReg f; let a ← parseS f.sa; let b ← parseS f.sb; let disp ← parseDisp f
  pure (mk ⟨headOf f, d, a, b, f.m.getLsbD 4, disp, f.m.getLsbD 6, f.m.extractLsb' 0 3⟩)

def decPref (f : Fields) : Option Instr := do
  chk (f.d == 0 && f.m.extractLsb' 5 3 == 0 && f.m.extractLsb' 0 3 == 0)
  let a ← parseS f.sa; let i ← parseMemIdx f
  pure (.pref ⟨headOf f, a, i, f.m.getLsbD 3⟩)

def decVMem (mk : VMemOps → Instr) (f : Fields) : Option Instr := do
  chk (!f.m.getLsbD 3)
  let a ← parseS f.sa; let b ← parseL (f.m.getLsbD 7) f.sb; let disp ← parseDisp f
  pure (mk ⟨headOf f, f.d, a, b, f.m.getLsbD 4, disp, f.m.getLsbD 6, f.m.getLsbD 5, f.m.extractLsb' 0 3⟩)

/-- The optional I32 of a form that has no address (L1INV.ALL, L1INV.XL, L2WB.ALL). -/
def parseOpt (f : Fields) : Option (Option W32) := parseDisp f

def decL1inv (f : Fields) : Option Instr := do
  chk (f.d == 0)
  match f.m.toNat with
  | 0 => do let a ← parseS f.sa; let b ← srcBS f; pure (.l1invLine ⟨headOf f, a, b⟩)
  | 1 => do chk (f.sa == 0 && f.sb == 0); let i ← parseOpt f; pure (.l1invAll ⟨headOf f, i⟩)
  | 2 => do chk (f.sb == 0); let a ← parseS f.sa; let i ← parseOpt f; pure (.l1invXl ⟨headOf f, a, i⟩)
  | _ => none

def decL2wb (f : Fields) : Option Instr := do
  chk (f.d == 0)
  match f.m.toNat with
  | 0 => do let a ← parseS f.sa; let b ← srcBS f; pure (.l2wbLine ⟨headOf f, a, b⟩)
  | 1 => do chk (f.sa == 0 && f.sb == 0); let i ← parseOpt f; pure (.l2wbAll ⟨headOf f, i⟩)
  | _ => none

def decFence (f : Fields) : Option Instr :=
  match f.m.toNat with
  | 1 => decA 1 .fenceAcq f
  | 2 => decA 2 .fenceRel f
  | 3 => decA 3 .fenceAr f
  | _ => none

/-- ATOM, ATOM.NZ and local ATOMS share a layout; M[7:5] is 0 but for NZ. -/
def decAtomA (mk : AtomOps → Instr) (f : Fields) : Option Instr := do
  isA64 f; chk (f.m.extractLsb' 5 3 == 0)
  let d ← dReg f; let a ← parseS f.sa; let b ← parseS f.sb
  pure (mk ⟨headOf f, d, a, b, f.m.extractLsb' 1 3, f.m.getLsbD 4, f.m.getLsbD 0⟩)

def decAtomNz (f : Fields) : Option Instr := do
  isJ96 f; chk (f.m.extractLsb' 5 3 == 2 && eOf f == 0)
  let d ← dReg f; let a ← parseS f.sa; let b ← parseS f.sb; let n ← parseR (scOf f)
  pure (.atomNz ⟨headOf f, d, a, b, n, f.m.extractLsb' 1 3, f.m.getLsbD 4, f.m.getLsbD 0⟩)

def decAtom (f : Fields) : Option Instr := if f.m.getLsbD 6 then decAtomNz f else decAtomA .atom f

def decCas (f : Fields) : Option Instr := do
  isJ96 f; chk (f.m.extractLsb' 1 7 == 0 && eOf f == 0)
  let d ← dReg f; let a ← parseS f.sa; let b ← parseS f.sb; let c ← parseS (scOf f)
  pure (.cas ⟨headOf f, d, a, b, c, f.m.getLsbD 0⟩)

def decAtomsX (f : Fields) : Option Instr := do
  isJ96 f; chk (f.m.extractLsb' 5 3 == 0 && eOf f == 0)
  let d ← dReg f; let a ← parseS f.sa; let b ← parseS f.sb; let c ← parseS (scOf f)
  pure (.atomsRemote ⟨headOf f, d, a, b, c, f.m.extractLsb' 1 3, f.m.getLsbD 4, f.m.getLsbD 0⟩)

def decAtoms (f : Fields) : Option Instr := if f.len == .l96 then decAtomsX f else decAtomA .atomsLocal f

def decVatom (f : Fields) : Option Instr := do
  isJ96 f; chk (!f.m.getLsbD 6 && !f.m.getLsbD 0 && (eOf f).extractLsb' 0 22 == 0)
  let a ← parseS f.sa; let b ← parseL (f.m.getLsbD 7) f.sb; let c ← parseL ((eOf f).getLsbD 22) (scOf f)
  pure (.vatom ⟨headOf f, f.d, a, b, c, f.m.getLsbD 5, f.m.extractLsb' 1 3, f.m.getLsbD 4⟩)

def decSend (f : Fields) : Option Instr := do
  let d ← dReg f; let a ← parseS f.sa; let h ← parseHid f.sb
  let len := f.m.extractLsb' 3 4; let ch := f.m.extractLsb' 0 3
  match f.len with
  | .l64 => do chk (!f.m.getLsbD 7); pure (.send ⟨headOf f, d, a, h, len, ch, none⟩)
  | .l96 => do
    chk (f.m.getLsbD 7 && eOf f == 0); let c ← parseS (scOf f)
    pure (.send ⟨headOf f, d, a, h, len, ch, some c⟩)
  | .l128 => none

def decSendv (f : Fields) : Option Instr := do
  isJ96 f; chk ((eOf f).extractLsb' 3 20 == 0)
  let a ← parseV f.sa; let h ← parseHid f.sb; let s ← parseV (scOf f)
  pure (.sendv ⟨headOf f, f.d, a, h, f.m.extractLsb' 3 4, f.m.extractLsb' 0 3, f.m.getLsbD 7, s,
    (eOf f).extractLsb' 0 3⟩)

def decRecv (f : Fields) : Option Instr := do
  isA64 f; chk (f.sa == 0 && f.sb == 0 && f.m.extractLsb' 1 7 == 0)
  let d ← dReg f; pure (.recv ⟨headOf f, d, f.m.getLsbD 0⟩)

def decGpost (f : Fields) : Option Instr := do
  isA64 f; chk (f.sa == 0 && f.sb == 0 && f.m.extractLsb' 4 4 == 0)
  let d ← dReg f; pure (.gpost ⟨headOf f, d, f.m.extractLsb' 0 4⟩)

def decGflush (f : Fields) : Option Instr := do
  isA64 f; chk (f.d == 0 && f.sa == 0 && f.sb == 0 && f.m.extractLsb' 4 4 == 0)
  pure (.gflush ⟨headOf f, f.m.extractLsb' 0 4⟩)

def decRequeue (f : Fields) : Option Instr := do
  isA64 f; chk (f.sa == 0 && f.sb == 0 && !f.m.getLsbD 7)
  pure (.requeue ⟨headOf f, f.d, f.m.extractLsb' 0 4, f.m.extractLsb' 4 3⟩)

/-- A form told apart from its siblings by the whole modifier byte. -/
def withM (m : BitVec 8) (k : Fields → Option Instr) (f : Fields) : Option Instr := do chk (f.m == m); k f

def decRsend (f : Fields) : Option Instr := do
  isA64 f; chk (f.m == 0); let d ← dReg f; let a ← parseS f.sa; let h ← parseHid f.sb
  pure (.rsend ⟨headOf f, d, a, h⟩)

/-- BOXT, TRIT, RREPLAY: D, a scalar source in SA, a ray group in SB. -/
def decRay (mk : RayOps → Instr) (f : Fields) : Option Instr := do
  isA64 f; let d ← dReg f; let a ← parseS f.sa; let r ← parseR f.sb; pure (mk ⟨headOf f, d, a, r⟩)

def decRpushBox (f : Fields) : Option Instr := do
  isJ96 f; chk (f.m == 1 && eOf f == 0)
  let d ← dReg f; let a ← parseS f.sa; let g ← parseS f.sb; let n ← parseS (scOf f)
  pure (.rpushBox ⟨headOf f, d, a, g, n⟩)

def decRpush (f : Fields) : Option Instr := if f.m == 0 then decDAB .rpush f else decRpushBox f

def decRpop (f : Fields) : Option Instr := do
  isA64 f; chk (f.m == 0); let d ← dReg f; let r ← parseR f.sa; let g ← parseS f.sb
  pure (.rpop ⟨headOf f, d, r, g⟩)

def decRhit (f : Fields) : Option Instr := do
  isJ96 f; chk (f.m == 0 && (eOf f).extractLsb' 8 15 == 0)
  let d ← dReg f; let a ← parseS f.sa; let r ← parseR f.sb; let u ← parseS (scOf f)
  pure (.rhit ⟨headOf f, d, a, r, u, (eOf f).extractLsb' 0 8⟩)

def decRmiss (f : Fields) : Option Instr := do
  isJ96 f; chk (f.m == 0 && (eOf f).extractLsb' 8 15 == 0 && f.d == 0)
  let a ← parseS f.sa; let r ← parseR f.sb; let u ← parseS (scOf f)
  pure (.rmiss ⟨headOf f, a, r, u, (eOf f).extractLsb' 0 8⟩)

/-- A form whose kind is the whole modifier byte. -/
def byM (k0 k1 k2 : Fields → Option Instr) (f : Fields) : Option Instr :=
  match f.m.toNat with
  | 0 => k0 f
  | 1 => k1 f
  | 2 => k2 f
  | _ => none

def noForm (_ : Fields) : Option Instr := none

def decRpin (f : Fields) : Option Instr := do
  isJ96 f; chk (f.m == 0 && eOf f == 0)
  let d ← dReg f; let a ← parseS f.sa; let b ← parseS f.sb; let c ← parseS (scOf f)
  pure (.rpin ⟨headOf f, d, a, b, c⟩)

def decRdone (f : Fields) : Option Instr := do
  isJ96 f; chk (f.m == 0 && (eOf f).extractLsb' 16 7 == 0)
  let d ← dReg f; let a ← parseS f.sa; let b ← parseS f.sb; let p ← parseR (scOf f)
  pure (.rdone ⟨headOf f, d, a, b, p, (eOf f).extractLsb' 0 16⟩)

def decRlog (f : Fields) : Option Instr := do
  isJ96 f; chk (f.m.extractLsb' 4 4 == 0 && (eOf f).extractLsb' 6 17 == 0)
  let d ← dReg f; let a ← parseS f.sa; let b ← parseS f.sb; let c ← parseS (scOf f)
  pure (.rlog ⟨headOf f, d, a, b, c, f.m.extractLsb' 0 4, (eOf f).extractLsb' 0 6⟩)

/-- The notify pair of an engine form (R332): M[6] and E[5:0]. -/
def parseNt (f : Fields) : Option (Option (BitVec 6)) := do
  chk ((eOf f).extractLsb' 6 17 == 0)
  if f.m.getLsbD 6 then pure (some ((eOf f).extractLsb' 0 6))
  else do chk ((eOf f).extractLsb' 0 6 == 0); pure none

def decBlk (mk : BlkOps → Instr) (f : Fields) : Option Instr := do
  isJ96 f; chk (!f.m.getLsbD 7 && f.m.extractLsb' 2 4 == 0)
  let d ← dReg f; let a ← parseS f.sa; let b ← parseS f.sb; let c ← parseS (scOf f); let nt ← parseNt f
  pure (mk ⟨headOf f, d, a, b, c, f.m.extractLsb' 0 2, nt⟩)

def decBcopy (mk : BcopyOps → Instr) (f : Fields) : Option Instr := do
  isJ96 f; chk (!f.m.getLsbD 7)
  let d ← dReg f; let a ← parseS f.sa; let b ← parseS f.sb; let c ← parseS (scOf f); let nt ← parseNt f
  pure (mk ⟨headOf f, d, a, b, c, f.m.extractLsb' 0 2, f.m.extractLsb' 2 2, f.m.extractLsb' 4 2, nt⟩)

def decTlread (f : Fields) : Option Instr := do
  isA64 f; chk (f.sa == 0 && f.sb == 0 && f.m.extractLsb' 4 4 == 0)
  let d ← dReg f
  match (f.m.extractLsb' 2 2).toNat with
  | 0 => pure (.tlreadDone ⟨headOf f, d, f.m.extractLsb' 0 2⟩)
  | 1 => pure (.tlreadIss ⟨headOf f, d, f.m.extractLsb' 0 2⟩)
  | 2 => pure (.tlreadErr ⟨headOf f, d, f.m.extractLsb' 0 2⟩)
  | _ => none

def decTlwait (f : Fields) : Option Instr := do
  isA64 f; chk (f.d == 0 && f.sb == 0 && f.m.extractLsb' 2 6 == 0)
  let a ← parseS f.sa; pure (.tlwait ⟨headOf f, a, f.m.extractLsb' 0 2⟩)

def decSmp (mk : SmpOps → Instr) (f : Fields) : Option Instr := do
  isJ96 f; chk (f.m.extractLsb' 3 5 == 0 && eOf f == 0)
  let u ← parseV f.sa; let v ← parseV f.sb; let c ← parseS (scOf f)
  pure (mk ⟨headOf f, f.d, u, v, c, f.m.extractLsb' 0 3⟩)

def decRsr (f : Fields) : Option Instr := do
  isA64 f; chk (f.sa == 0 && (i17Of f).extractLsb' 12 5 == 0)
  pure (.rsr ⟨headOf f, destV f, (i17Of f).extractLsb' 0 12⟩)

def decWsr (f : Fields) : Option Instr := do
  isA64 f; chk (f.d == 0 && (i17Of f).extractLsb' 12 5 == 0)
  let a ← parseS f.sa; pure (.wsr ⟨headOf f, (i17Of f).extractLsb' 0 12, a⟩)

def decTrap (f : Fields) : Option Instr := do
  isA64 f; chk (f.d == 0 && f.sa == 0 && (i17Of f).extractLsb' 8 9 == 0)
  pure (.trap ⟨headOf f, (i17Of f).extractLsb' 0 8⟩)

def decFinspect (f : Fields) : Option Instr := do
  isA64 f; chk (!f.m.getLsbD 7 && f.m.extractLsb' 1 3 == 0)
  let d ← dReg f; let a ← parseS f.sa; let b ← parseS f.sb
  if f.m.getLsbD 0 then pure (.finspectWr ⟨headOf f, d, a, b, f.m.extractLsb' 4 3⟩)
  else pure (.finspectRd ⟨headOf f, d, a, b, f.m.extractLsb' 4 3⟩)

def decPreempt (f : Fields) : Option Instr := do
  isJ96 f; chk (eOf f == 0)
  let d ← dReg f; let a ← parseS f.sa
  match f.m.toNat with
  | 0 => do chk (f.sb == 0); let c ← parseS (scOf f); pure (.preemptDrain ⟨headOf f, d, a, c⟩)
  | 1 => do chk (scOf f == 0); let b ← parseS f.sb; pure (.preemptSwap ⟨headOf f, d, a, b⟩)
  | 2 => do chk (scOf f == 0); let b ← parseS f.sb; pure (.preemptRes ⟨headOf f, d, a, b⟩)
  | _ => none

/-! ## The opcode map (Tables 2-16 to 2-23), a group at a time -/

/-- Group 000 (Table 2-16). -/
def decGroup0 (f : Fields) : Option Instr :=
  match f.op.toNat with
  | 0x000 => decAlu .add f | 0x001 => decAlu .sub f | 0x002 => decAlu .mul f | 0x003 => decAlu .mulh f
  | 0x004 => decAlu .mulhu f | 0x005 => decAlu .div f | 0x006 => decAlu .divu f | 0x007 => decAlu .rem f
  | 0x008 => decAlu .remu f | 0x009 => decAlu .min f | 0x00A => decAlu .max f | 0x00B => decAlu .minu f
  | 0x00C => decAlu .maxu f | 0x00D => decUn .abs f | 0x010 => decAlu .and f | 0x011 => decAlu .or f
  | 0x012 => decAlu .xor f | 0x013 => decAlu .andn f | 0x014 => decAlu .orn f | 0x018 => decAlu .shl f
  | 0x019 => decAlu .shr f | 0x01A => decAlu .sar f | 0x01B => decAlu .rol f | 0x020 => decAlu .bfx f
  | 0x021 => decAlu .bfxu f | 0x022 => decBfi f | 0x024 => decUn .popc f | 0x025 => decUn .clz f
  | 0x026 => decUn .ctz f | 0x027 => decUn .brev f | 0x028 => decUn .bswap f | 0x030 => decUn .mov f
  | 0x031 => decMovi f | 0x032 => decLea f | 0x033 => decSel f
  | _ => none

/-- Group 001 (Table 2-17). -/
def decGroup1 (f : Fields) : Option Instr :=
  match f.op.toNat with
  | 0x040 => decCmp .cmp f | 0x041 => decCmp .fcmp f | 0x042 => decVCmp .vcmp f | 0x043 => decVCmp .vfcmp f
  | 0x044 => decPlop f | 0x045 => decPmov f | 0x046 => decVpmov f | 0x047 => decPset f
  | _ => none

/-- Group 010 (Table 2-18). -/
def decGroup2 (f : Fields) : Option Instr :=
  match f.op.toNat with
  | 0x080 => decNop f | 0x081 => decBr .br f | 0x082 => decBr .bra f | 0x083 => decBr .bru f
  | 0x084 => decBrx f | 0x085 => decDBr .call f | 0x086 => decA 0 .ret f | 0x087 => decDBr .loop f
  | 0x088 => decH .join f | 0x089 => decH .yield f | 0x08A => decSetpri f | 0x08B => decGetpri f
  | 0x08C => decH .done f
  | _ => none

/-- Group 011 (Table 2-19). -/
def decGroup3 (f : Fields) : Option Instr :=
  match f.op.toNat with
  | 0x0C0 => decF .fadd f | 0x0C1 => decF .fsub f | 0x0C2 => decF .fmul f | 0x0C3 => decFfma f
  | 0x0C4 => decF .fmin f | 0x0C5 => decF .fmax f | 0x0C6 => decF .fdiv f | 0x0C7 => decFUn .fsqrt f
  | 0x0C8 => decFUn .frnd f | 0x0C9 => decFUn .fclass f | 0x0CA => decFcpys f
  | 0x0D0 => decVF .vfadd f | 0x0D1 => decVF .vfsub f | 0x0D2 => decVF .vfmul f | 0x0D3 => decVffma f
  | 0x0D4 => decVF .vfmin f | 0x0D5 => decVF .vfmax f | 0x0D6 => decVF .vfdiv f | 0x0D7 => decVFUn .vfsqrt f
  | 0x0D8 => decVFUn .vfrnd f | 0x0D9 => decVFUn .vfclass f
  | _ => none

/-- Group 100 (Table 2-20). -/
def decGroup4 (f : Fields) : Option Instr :=
  match f.op.toNat with
  | 0x100 => decVInt .vadd true false true f | 0x101 => decVInt .vsub true false true f
  | 0x102 => decVInt .vmul true false true f | 0x103 => decVInt .vmulh false true true f
  | 0x104 => decVMad f | 0x105 => decVInt .vmin false true true f | 0x106 => decVInt .vmax false true true f
  | 0x108 => decVInt .vand false false false f | 0x109 => decVInt .vor false false false f
  | 0x10A => decVInt .vxor false false false f | 0x10C => decVInt .vshl false false true f
  | 0x10D => decVInt .vshr false false true f | 0x10E => decVInt .vsar false false true f
  | 0x110 => decVInt .vbfx false true false f | 0x111 => decVBfi f | 0x112 => decVUn .vpopc f
  | 0x113 => decVUn .vclz f | 0x114 => decVUn .vbrev f | 0x118 => decVMov f | 0x119 => decVSel f
  | 0x11A => decVbcast f | 0x11B => decVext f | 0x120 => decVote f | 0x121 => decShfl f
  | 0x122 => decXchg f | 0x123 => decWred f | 0x128 => decSfu f
  | _ => none

/-- Group 101 (Table 2-21). -/
def decGroup5 (f : Fields) : Option Instr :=
  match f.op.toNat with
  | 0x140 => decMma f | 0x141 => decMmas f | 0x142 => decMmaq f | 0x143 => decMzero f | 0x144 => decMcvt f
  | 0x145 => decMldf .mldf f | 0x146 => decMldf .mstf f | 0x148 => decCvt .cvtFf f | 0x149 => decCvt .cvtFi f
  | 0x14A => decCvt .cvtIf f | 0x14B => decPack f | 0x14C => decEf f
  | _ => none

/-- Group 110 (Table 2-22). -/
def decGroup6 (f : Fields) : Option Instr :=
  match f.op.toNat with
  | 0x180 => decMem .ld f | 0x181 => decMem .st f | 0x182 => decMem .lds f | 0x183 => decMem .sts f
  | 0x184 => decXMem .ldx f | 0x185 => decXMem .stx f | 0x186 => decPref f | 0x188 => decVMem .vld f
  | 0x189 => decVMem .vst f | 0x18A => decVMem .vlds f | 0x18B => decVMem .vsts f | 0x190 => decL1inv f
  | 0x191 => decL2wb f | 0x198 => decFence f | 0x199 => decAtom f | 0x19A => decCas f | 0x19B => decAtoms f
  | 0x19C => decVatom f
  | _ => none

/-- Group 111 (Table 2-23). -/
def decGroup7 (f : Fields) : Option Instr :=
  match f.op.toNat with
  | 0x1C0 => decSend f | 0x1C1 => decSendv f | 0x1C2 => decRecv f | 0x1C3 => decGpost f | 0x1C4 => decGflush f
  | 0x1C5 => decRequeue f | 0x1C6 => withM 0 (decDA .qpush) f | 0x1C7 => decA 0 .qflush f
  | 0x1C8 => byM (decDA .htabGet) (decDA .htabSet) noForm f
  | 0x1C9 => byM (decDA .launchWake) (decDA .launchOpen) (decDA .launchClose) f
  | 0x1CA => withM 0 (decDA .cancel) f | 0x1CB => byM (decDA .lvlread) (decDA .lvlreadReap) noForm f
  | 0x1CC => byM (decD .vtget) (decD .vtgetRep) noForm f | 0x1CD => decA 0 .vtset f
  | 0x1CE => byM (decD .hzread) (decD .hzreadSys) noForm f
  | 0x1CF => byM (decA 0 .hzwait) (decA 1 .hzwaitSys) noForm f
  | 0x1D0 => decRsend f | 0x1D1 => withM 0 (decRay .boxt) f | 0x1D2 => withM 0 (decRay .trit) f
  | 0x1D3 => decRpush f | 0x1D4 => decRpop f | 0x1D5 => decRhit f | 0x1D6 => decRmiss f
  | 0x1D7 => withM 0 (decDAB .rxform) f
  | 0x1D8 => byM (decDAB .rloadRay) (decDAB .rloadGeom) (decDAB .rloadHit) f
  | 0x1D9 => byM (decDAB .rstoreRay) (decDAB .rstoreGeom) (decDAB .rstoreHit) f
  | 0x1DA => byM (decDA .cnlookDir) (decDAB .cnlookLoc) noForm f
  | 0x1DB => byM (decDA .cnsetDir) (decDA .cnsetSlot) noForm f
  | 0x1DC => withM 0 (decDAB .thaw) f | 0x1DD => withM 0 (decDA .evict) f | 0x1DE => decRpin f
  | 0x1DF => decRdone f | 0x1E0 => decRlog f | 0x1E1 => byM (decRay .rreplay) (decRay .rreplayTri) noForm f
  | 0x1E2 => decBlk .bget f | 0x1E3 => decBlk .bput f | 0x1E4 => decBcopy .bcopy f | 0x1E5 => decBcopy .bfill f
  | 0x1E6 => decTlread f | 0x1E7 => decTlwait f | 0x1E8 => decSmp .smp f | 0x1E9 => decSmp .smpf f
  | 0x1EA => decH .sfence f | 0x1F0 => decRsr f | 0x1F1 => decWsr f | 0x1F2 => decTrap f
  | 0x1F3 => decH .tret f | 0x1F4 => byM (decDA .fresume) (decDA .fresumeStep) (decDA .fresumeOut) f
  | 0x1F5 => withM 0 (decDA .fkill) f | 0x1F6 => decFinspect f | 0x1F7 => withM 0 (decDA .halt) f
  | 0x1F8 => decH .brk f | 0x1F9 => decPreempt f | 0x1FA => withM 0 (decDAB .remap) f
  | _ => none

/-- Fields to an instruction, by group (R60). -/
def parseFields (f : Fields) : Option Instr :=
  match (f.op.extractLsb' 6 3).toNat with
  | 0 => decGroup0 f | 1 => decGroup1 f | 2 => decGroup2 f | 3 => decGroup3 f
  | 4 => decGroup4 f | 5 => decGroup5 f | 6 => decGroup6 f | _ => decGroup7 f

/-- Fields to a well-formed instruction: reserved bits, then reserved values (R33). -/
def decodeFields (f : Fields) : Option Instr :=
  match parseFields f with
  | some i => if Machine.legal i then some i else none
  | none => none

/-- A 32-bit word from four bytes at the head of a list, least significant first (R26). -/
def wordAt (bs : List Byte) (k : Nat) : W32 :=
  (bs.getD (4 * k + 3) 0) ++ (bs.getD (4 * k + 2) 0) ++ (bs.getD (4 * k + 1) 0) ++ (bs.getD (4 * k) 0)

/-- Words of an instruction to the instruction. -/
def decodeWords (l : Len) (w0 w1 w2 w3 : W32) : Option Instr := decodeFields (unpack l w0 w1 w2 w3)

/-- Bytes, as the memory holds them, to an instruction and its length. -/
def decode (bs : List Byte) : Except DecodeError (Instr × Len) :=
  if bs.length < 4 then .error .short
  else
    match lenOfCode ((wordAt bs 0).extractLsb' 0 2) with
    | none => .error .noLength
    | some l =>
      if bs.length < lenBytes l then .error .short
      else
        match decodeWords l (wordAt bs 0) (wordAt bs 1) (if lenWords l > 2 then wordAt bs 2 else 0)
            (if lenWords l > 3 then wordAt bs 3 else 0) with
        | some i => .ok (i, l)
        | none => .error .illegal

/-- The bytes of an instruction numbered as the opcode table numbers its bits: 16 of them, zero above nbits. -/
def tableBytes (nbits w : Nat) : List Byte := Machine.bytesLE 16 (BitVec.ofNat 128 (w % 2 ^ nbits))

/-- What the decoder reads from an instruction whose bits are w, for the opcode table. -/
def decodeTableWord (nbits w : Nat) : Option Instr :=
  match decode (tableBytes nbits w) with
  | .ok (i, _) => some i
  | .error _ => none

/-! ## The encoder -/

def encS : SSrc → BitVec 9
  | .reg r => r.setWidth 9
  | .ls i => 256 + i.setWidth 9
  | .lv i => 260 + i.setWidth 9
  | .const i => 272 + i.setWidth 9

def encL : LSrc → BitVec 9
  | .reg v => v.setWidth 9
  | .ls i => 256 + i.setWidth 9
  | .lv i => 260 + i.setWidth 9
  | .const i => 272 + i.setWidth 9
  | .sreg r => r.setWidth 9

/-- The scalar select bit of a lane operand (R37). -/
def selL : LSrc → Bool
  | .sreg _ => true
  | _ => false

def encHid : HidOp → BitVec 9
  | .num h => h.setWidth 9
  | .reg r => 256 + r.setWidth 9

def encSat : Sat → BitVec 2
  | .wrap => 0
  | .ss => 1
  | .us => 2

def b1 (b : Bool) : BitVec 1 := BitVec.ofBool b

/-- Fields of one head, opcode and layout. -/
def mkF (h : Head) (op : BitVec 9) (len : Len) (d : BitVec 8) (sa sb : BitVec 9) (m : BitVec 8) (w2 : W32 := 0)
    (w3 : W32 := 0) : Fields :=
  ⟨len, h.c, h.nw, op, h.pa, h.pb, h.pc, h.ntt, d, sa, sb, m, w2, w3⟩

/-- Layout, SB and I32 of a source B that may be immediate. -/
def lenB : SSrcI → Len
  | .src _ => .l64
  | .imm _ => .l96
def sbB : SSrcI → BitVec 9
  | .src b => encS b
  | .imm _ => 0
def immB : SSrcI → W32
  | .src _ => 0
  | .imm i => i
def lenBL : LSrcI → Len
  | .src _ => .l64
  | .imm _ => .l96
def sbBL : LSrcI → BitVec 9
  | .src b => encL b
  | .imm _ => 0
def immBL : LSrcI → W32
  | .src _ => 0
  | .imm i => i
def selBL : LSrcI → BitVec 1
  | .src b => b1 (selL b)
  | .imm _ => 0

def d6 (d : BitVec 6) : BitVec 8 := d.setWidth 8

/-- SC and E as the third word (Table 2-4). -/
def wSE (e : BitVec 23) (sc : BitVec 9) : W32 := e ++ sc

/-- The third word's E with only the scalar select of SC. -/
def eSel (c : LSrc) : BitVec 23 := b1 (selL c) ++ (0 : BitVec 22)

def fAlu (op : BitVec 9) (o : AluOps) : Fields :=
  mkF o.h op (lenB o.b) (d6 o.d) (encS o.a) (sbB o.b) ((0 : BitVec 4) ++ encSat o.sat ++ (0 : BitVec 1) ++ b1 o.w) (immB o.b)

def fUn (op : BitVec 9) (o : UnOps) : Fields :=
  mkF o.h op .l64 (d6 o.d) (encS o.a) 0 ((0 : BitVec 4) ++ encSat o.sat ++ (0 : BitVec 1) ++ b1 o.w)

def lenDisp : Option W32 → Len
  | none => .l64
  | some _ => .l96

/-- I17 cut into M and SB. -/
def mI17 (i : BitVec 17) : BitVec 8 := i.extractLsb' 9 8
def sbI17 (i : BitVec 17) : BitVec 9 := i.extractLsb' 0 9

/-- The fields of a form with an offset in I17 or I32. -/
def fImm (h : Head) (op : BitVec 9) (d : BitVec 8) (sa : BitVec 9) : Imm → Fields
  | .i17 i => mkF h op .l64 d sa (sbI17 i) (mI17 i)
  | .i32 i => mkF h op .l96 d sa 0 0 i

def fCmp (op : BitVec 9) (o : CmpOps) : Fields :=
  mkF o.h op (lenB o.b) ((0 : BitVec 2) ++ o.pf ++ o.pt) (encS o.a) (sbB o.b)
    ((0 : BitVec 1) ++ o.mode ++ o.cond ++ b1 o.t) (immB o.b)

def fVCmp (op : BitVec 9) (o : VCmpOps) : Fields :=
  mkF o.h op (lenBL o.b) ((0 : BitVec 2) ++ o.pf ++ o.pt) (encL o.a) (sbBL o.b)
    (selBL o.b ++ o.mode ++ o.cond ++ b1 o.t) (immBL o.b)

def fF (op : BitVec 9) (o : FOps) : Fields :=
  mkF o.h op (lenB o.b) (d6 o.d) (encS o.a) (sbB o.b) ((0 : BitVec 1) ++ o.x ++ b1 o.ftz ++ o.rm ++ (1 : BitVec 2)) (immB o.b)

def fFUn (op : BitVec 9) (o : FUnOps) : Fields :=
  mkF o.h op .l64 (d6 o.d) (encS o.a) 0 ((0 : BitVec 1) ++ o.x ++ b1 o.ftz ++ o.rm ++ (1 : BitVec 2))

def fVF (op : BitVec 9) (o : VFOps) : Fields :=
  mkF o.h op (lenBL o.b) o.d (encL o.a) (sbBL o.b) (selBL o.b ++ o.x ++ b1 o.ftz ++ o.rm ++ o.t) (immBL o.b)

def fVFUn (op : BitVec 9) (o : VFUnOps) : Fields :=
  mkF o.h op .l64 o.d (encL o.a) 0 ((0 : BitVec 1) ++ o.x ++ b1 o.ftz ++ o.rm ++ o.t)

def fCvt (op : BitVec 9) (o : CvtOps) : Fields :=
  let sb := (0 : BitVec 1) ++ o.src ++ o.dst
  match o.opd with
  | .scalar d a => mkF o.h op .l64 (d6 d) (encS a) sb ((0 : BitVec 3) ++ b1 o.ftz ++ o.rm ++ b1 o.sat ++ (0 : BitVec 1))
  | .lane d a => mkF o.h op .l64 d (encL a) sb ((4 : BitVec 3) ++ b1 o.ftz ++ o.rm ++ b1 o.sat ++ (0 : BitVec 1))

def lenEf : EfForm → Len
  | .short => .l64
  | _ => .l96
def w2Ef : EfForm → W32
  | .resid v => wSE ((0 : BitVec 14) ++ (1 : BitVec 1) ++ v) 0
  | _ => 0

def fVInt (op : BitVec 9) (o : VIntOps) : Fields :=
  mkF o.h op (lenBL o.b) o.d (encL o.a) (sbBL o.b)
    (selBL o.b ++ encSat o.sat ++ b1 o.u ++ (0 : BitVec 1) ++ b1 o.p16 ++ (0 : BitVec 2)) (immBL o.b)

def fVUn (op : BitVec 9) (o : VUnOps) : Fields := mkF o.h op .l64 o.d (encL o.a) 0 0

/-- Layout, SB, select and I32 of a lane index. -/
def fIdx (h : Head) (op : BitVec 9) (d : BitVec 8) (sa : BitVec 9) (m : BitVec 7) : LaneIdx → Fields
  | .sreg r => mkF h op .l64 d sa (r.setWidth 9) ((1 : BitVec 1) ++ m)
  | .imm i => mkF h op .l96 d sa 0 ((0 : BitVec 1) ++ m) (i.setWidth 32)

def fVote (h : Head) (d : BitVec 8) (kind : BitVec 2) : VoteSrc → Fields
  | .pred q s => mkF h 0x120 .l64 d (q.setWidth 9) 0 (b1 s ++ (0 : BitVec 2) ++ (1 : BitVec 1) ++ (0 : BitVec 2) ++ kind)
  | .val a b => mkF h 0x120 .l64 d (encL a) (encL b) (b1 (selL b) ++ (0 : BitVec 5) ++ kind)
  | .valImm a j => mkF h 0x120 .l96 d (encL a) 0 ((0 : BitVec 6) ++ kind) (j.setWidth 32)

def fMem (op : BitVec 9) (o : MemOps) : Fields :=
  match o.idx with
  | .idx b x => mkF o.h op .l64 (d6 o.d) (encS o.a) (encS b) ((0 : BitVec 1) ++ b1 o.sx ++ b1 o.g ++ b1 x ++ (0 : BitVec 1) ++ o.size)
  | .disp i => mkF o.h op .l96 (d6 o.d) (encS o.a) 0 ((0 : BitVec 1) ++ b1 o.sx ++ b1 o.g ++ (0 : BitVec 2) ++ o.size) i

def fXMem (op : BitVec 9) (o : XMemOps) : Fields :=
  mkF o.h op (lenDisp o.disp) (d6 o.d) (encS o.core) (encS o.off)
    ((0 : BitVec 1) ++ b1 o.sx ++ (0 : BitVec 1) ++ b1 o.x ++ (0 : BitVec 1) ++ o.size) (o.disp.getD 0)

def fPref (o : PrefOps) : Fields :=
  match o.idx with
  | .idx b x => mkF o.h 0x186 .l64 0 (encS o.a) (encS b) ((0 : BitVec 3) ++ b1 x ++ b1 o.l2 ++ (0 : BitVec 3))
  | .disp i => mkF o.h 0x186 .l96 0 (encS o.a) 0 ((0 : BitVec 4) ++ b1 o.l2 ++ (0 : BitVec 3)) i

def fVMem (op : BitVec 9) (o : VMemOps) : Fields :=
  mkF o.h op (lenDisp o.disp) o.d (encS o.a) (encL o.b)
    (b1 (selL o.b) ++ b1 o.sx ++ b1 o.g ++ b1 o.x ++ (0 : BitVec 1) ++ o.size) (o.disp.getD 0)

def fLine (op : BitVec 9) (o : LineOps) : Fields := mkF o.h op (lenB o.b) 0 (encS o.a) (sbB o.b) 0 (immB o.b)
def fAll (op : BitVec 9) (o : AllOps) : Fields := mkF o.h op (lenDisp o.imm) 0 0 0 1 (o.imm.getD 0)
def fA (op : BitVec 9) (m : BitVec 8) (o : AOps) : Fields := mkF o.h op .l64 0 (encS o.a) 0 m
def fH (op : BitVec 9) (o : HOps) : Fields := mkF o.h op .l64 0 0 0 0
def fD (op : BitVec 9) (m : BitVec 8) (o : DOps) : Fields := mkF o.h op .l64 (d6 o.d) 0 0 m
def fDA (op : BitVec 9) (m : BitVec 8) (o : DAOps) : Fields := mkF o.h op .l64 (d6 o.d) (encS o.a) 0 m
def fDAB (op : BitVec 9) (m : BitVec 8) (o : DABOps) : Fields := mkF o.h op .l64 (d6 o.d) (encS o.a) (encS o.b) m
def fRay (op : BitVec 9) (m : BitVec 8) (o : RayOps) : Fields := mkF o.h op .l64 (d6 o.d) (encS o.a) (o.ray.setWidth 9) m
def mAtom (nz : Bool) (op : BitVec 3) (u sz : Bool) : BitVec 8 := (0 : BitVec 1) ++ b1 nz ++ (0 : BitVec 1) ++ b1 u ++ op ++ b1 sz
def fAtom (op : BitVec 9) (o : AtomOps) : Fields := mkF o.h op .l64 (d6 o.d) (encS o.a) (encS o.b) (mAtom false o.op o.u o.sz)

def ntE : Option (BitVec 6) → BitVec 23
  | none => 0
  | some r => r.setWidth 23

def fBlk (op : BitVec 9) (o : BlkOps) : Fields :=
  mkF o.h op .l96 (d6 o.d) (encS o.dst) (encS o.src) ((0 : BitVec 1) ++ b1 o.nt.isSome ++ (0 : BitVec 4) ++ o.ctx)
    (wSE (ntE o.nt) (encS o.len))

def fBcopy (op : BitVec 9) (o : BcopyOps) : Fields :=
  mkF o.h op .l96 (d6 o.d) (encS o.dst) (encS o.src) ((0 : BitVec 1) ++ b1 o.nt.isSome ++ o.ss ++ o.ds ++ o.ctx)
    (wSE (ntE o.nt) (encS o.len))

def fTl (k : BitVec 2) (o : TlreadOps) : Fields := mkF o.h 0x1E6 .l64 (d6 o.d) 0 0 ((0 : BitVec 4) ++ k ++ o.ctx)
def fSmp (op : BitVec 9) (o : SmpOps) : Fields :=
  mkF o.h op .l96 o.d (o.u.setWidth 9) (o.v.setWidth 9) ((0 : BitVec 5) ++ o.qm) (wSE 0 (encS o.desc))

def fBfi (o : BfiOps) : Fields :=
  match o.ctl with
  | .src c => mkF o.h 0x022 .l96 (d6 o.d) (encS o.a) (encS o.b) 0 (wSE 0 (encS c))
  | .imm i => mkF o.h 0x022 .l128 (d6 o.d) (encS o.a) (encS o.b) 0 0 i

def fVBfi (o : VBfiOps) : Fields :=
  match o.ctl with
  | .src c => mkF o.h 0x111 .l96 o.d (encL o.a) (encL o.b) (b1 (selL o.b) ++ (0 : BitVec 7)) (wSE (eSel c) (encL c))
  | .imm i => mkF o.h 0x111 .l128 o.d (encL o.a) (encL o.b) (b1 (selL o.b) ++ (0 : BitVec 7)) 0 i

def fStoq (o : StoqOps) : Fields :=
  match o.a with
  | .src a => mkF o.h 0x045 .l64 0 (encS a) 0 ((0 : BitVec 3) ++ o.q ++ (3 : BitVec 2))
  | .imm i => mkF o.h 0x045 .l96 0 0 0 ((0 : BitVec 3) ++ o.q ++ (3 : BitVec 2)) i

def fSend (o : SendOps) : Fields :=
  match o.stamp with
  | none => mkF o.h 0x1C0 .l64 (d6 o.d) (encS o.dst) (encHid o.hid) ((0 : BitVec 1) ++ o.len ++ o.ch)
  | some c => mkF o.h 0x1C0 .l96 (d6 o.d) (encS o.dst) (encHid o.hid) ((1 : BitVec 1) ++ o.len ++ o.ch) (wSE 0 (encS c))

/-- The fields of each instruction, from its chapter's encoding table; an event has none. -/
def toFields : Instr → Option Fields
  | .add o => some (fAlu 0x000 o) | .sub o => some (fAlu 0x001 o) | .mul o => some (fAlu 0x002 o)
  | .mulh o => some (fAlu 0x003 o) | .mulhu o => some (fAlu 0x004 o) | .div o => some (fAlu 0x005 o)
  | .divu o => some (fAlu 0x006 o) | .rem o => some (fAlu 0x007 o) | .remu o => some (fAlu 0x008 o)
  | .min o => some (fAlu 0x009 o) | .max o => some (fAlu 0x00A o) | .minu o => some (fAlu 0x00B o)
  | .maxu o => some (fAlu 0x00C o) | .abs o => some (fUn 0x00D o) | .and o => some (fAlu 0x010 o)
  | .or o => some (fAlu 0x011 o) | .xor o => some (fAlu 0x012 o) | .andn o => some (fAlu 0x013 o)
  | .orn o => some (fAlu 0x014 o) | .shl o => some (fAlu 0x018 o) | .shr o => some (fAlu 0x019 o)
  | .sar o => some (fAlu 0x01A o) | .rol o => some (fAlu 0x01B o) | .bfx o => some (fAlu 0x020 o)
  | .bfxu o => some (fAlu 0x021 o) | .bfi o => some (fBfi o) | .popc o => some (fUn 0x024 o)
  | .clz o => some (fUn 0x025 o) | .ctz o => some (fUn 0x026 o) | .brev o => some (fUn 0x027 o)
  | .bswap o => some (fUn 0x028 o) | .mov o => some (fUn 0x030 o)
  | .movi o => some (fImm o.h 0x031 (d6 o.d) 0 o.imm)
  | .moviHi o => some (mkF o.h 0x031 .l96 (d6 o.d) 0 0 1 o.imm)
  | .moviZx o => some (mkF o.h 0x031 .l96 (d6 o.d) 0 0 2 o.imm)
  | .lea o => some (mkF o.h 0x032 (lenDisp o.disp) (d6 o.d) (encS o.a) (encS o.b) ((0 : BitVec 5) ++ o.scale) (o.disp.getD 0))
  | .leaPc o => some (mkF o.h 0x032 (lenDisp o.disp) (d6 o.d) 0 (encS o.b) ((1 : BitVec 5) ++ o.scale) (o.disp.getD 0))
  | .sel o => some (mkF o.h 0x033 (lenB o.b) (d6 o.d) (encS o.a) (sbB o.b) ((0 : BitVec 4) ++ b1 o.neg ++ o.k) (immB o.b))
  | .cmp o => some (fCmp 0x040 o) | .fcmp o => some (fCmp 0x041 o)
  | .vcmp o => some (fVCmp 0x042 o) | .vfcmp o => some (fVCmp 0x043 o)
  | .plop o => some (mkF o.h 0x044 .l64 (o.d.setWidth 8) (o.s3 ++ o.s2 ++ o.s1) (o.table.setWidth 9) (b1 o.lane ++ (0 : BitVec 7)))
  | .pset o =>
    some (mkF o.h 0x047 .l64 0 0 (sbI17 (b1 o.lane ++ o.vals ++ o.mask)) (mI17 (b1 o.lane ++ o.vals ++ o.mask)))
  | .pmovKtos o => some (fD 0x045 0 o)
  | .pmovStok o => some (mkF o.h 0x045 (lenB o.mask) 0 (encS o.a) (sbB o.mask) 1 (immB o.mask))
  | .pmovQtos o => some (mkF o.h 0x045 .l64 (d6 o.d) 0 0 ((0 : BitVec 3) ++ o.q ++ (2 : BitVec 2)))
  | .pmovStoq o => some (fStoq o)
  | .vpmovQtov o => some (mkF o.h 0x046 .l64 o.d 0 0 (b1 o.s ++ (0 : BitVec 7)))
  | .vpmovVtoq o => some (mkF o.h 0x046 (lenBL o.mask) 0 (encL o.a) (sbBL o.mask) (selBL o.mask ++ (1 : BitVec 7)) (immBL o.mask))
  | .nop o => some (mkF o.h 0x080 o.len 0 0 0 0)
  | .br o => some (fImm o.h 0x081 0 0 o.off) | .bra o => some (fImm o.h 0x082 0 0 o.off)
  | .bru o => some (fImm o.h 0x083 0 0 o.off) | .brx o => some (fImm o.h 0x084 (d6 o.d) (encS o.a) o.off)
  | .call o => some (fImm o.h 0x085 (d6 o.d) 0 o.off) | .ret o => some (fA 0x086 0 o)
  | .loop o => some (fImm o.h 0x087 (d6 o.d) 0 o.off) | .join o => some (fH 0x088 o)
  | .yield o => some (fH 0x089 o) | .setpri o => some (mkF o.h 0x08A .l64 0 0 (o.p.setWidth 9) 0)
  | .getpri o => some (mkF o.h 0x08B .l64 o.d 0 0 0) | .done o => some (fH 0x08C o)
  | .fadd o => some (fF 0x0C0 o) | .fsub o => some (fF 0x0C1 o) | .fmul o => some (fF 0x0C2 o)
  | .ffma o =>
    some (mkF o.h 0x0C3 .l96 (d6 o.d) (encS o.a) (encS o.b)
      ((0 : BitVec 1) ++ o.x ++ b1 o.ftz ++ o.rm ++ (1 : BitVec 2)) (wSE 0 (encS o.c)))
  | .fmin o => some (fF 0x0C4 o) | .fmax o => some (fF 0x0C5 o) | .fdiv o => some (fF 0x0C6 o)
  | .fsqrt o => some (fFUn 0x0C7 o) | .frnd o => some (fFUn 0x0C8 o) | .fclass o => some (fFUn 0x0C9 o)
  | .fcpys o => some (mkF o.h 0x0CA .l64 (d6 o.d) (encS o.a) (encS o.b) ((0 : BitVec 1) ++ o.x ++ (1 : BitVec 5)))
  | .vfadd o => some (fVF 0x0D0 o) | .vfsub o => some (fVF 0x0D1 o) | .vfmul o => some (fVF 0x0D2 o)
  | .vffma o =>
    some (mkF o.h 0x0D3 .l96 o.d (encL o.a) (encL o.b) (b1 (selL o.b) ++ o.x ++ b1 o.ftz ++ o.rm ++ o.t)
      (wSE (eSel o.c) (encL o.c)))
  | .vfmin o => some (fVF 0x0D4 o) | .vfmax o => some (fVF 0x0D5 o) | .vfdiv o => some (fVF 0x0D6 o)
  | .vfsqrt o => some (fVFUn 0x0D7 o) | .vfrnd o => some (fVFUn 0x0D8 o) | .vfclass o => some (fVFUn 0x0D9 o)
  | .cvtFf o => some (fCvt 0x148 o) | .cvtFi o => some (fCvt 0x149 o) | .cvtIf o => some (fCvt 0x14A o)
  | .cvtPack o => some (mkF o.h 0x14B .l64 o.d (encL o.a) (encL o.b) (b1 (selL o.b) ++ o.fmt ++ o.rm ++ o.pos))
  | .cvtEf o =>
    some (mkF o.h 0x14C (lenEf o.form) o.d (encL o.a) 0 ((0 : BitVec 1) ++ o.fmt ++ o.seg ++ (0 : BitVec 2)) (w2Ef o.form))
  | .vadd o => some (fVInt 0x100 o) | .vsub o => some (fVInt 0x101 o) | .vmul o => some (fVInt 0x102 o)
  | .vmulh o => some (fVInt 0x103 o)
  | .vmad o =>
    some (mkF o.h 0x104 .l96 o.d (encL o.a) (encL o.b)
      (b1 (selL o.b) ++ encSat o.sat ++ (0 : BitVec 2) ++ b1 o.p16 ++ (0 : BitVec 2)) (wSE (eSel o.c) (encL o.c)))
  | .vmin o => some (fVInt 0x105 o) | .vmax o => some (fVInt 0x106 o) | .vand o => some (fVInt 0x108 o)
  | .vor o => some (fVInt 0x109 o) | .vxor o => some (fVInt 0x10A o) | .vshl o => some (fVInt 0x10C o)
  | .vshr o => some (fVInt 0x10D o) | .vsar o => some (fVInt 0x10E o) | .vbfx o => some (fVInt 0x110 o)
  | .vbfi o => some (fVBfi o)
  | .vpopc o => some (fVUn 0x112 o) | .vclz o => some (fVUn 0x113 o) | .vbrev o => some (fVUn 0x114 o)
  | .vmov o => some (mkF o.h 0x118 (lenBL o.b) o.d 0 (sbBL o.b) (selBL o.b ++ (0 : BitVec 7)) (immBL o.b))
  | .vsel o =>
    some (mkF o.h 0x119 (lenBL o.b) o.d (encL o.a) (sbBL o.b) (selBL o.b ++ o.q ++ b1 o.neg ++ (0 : BitVec 3)) (immBL o.b))
  | .vbcast o => some (fIdx o.h 0x11A o.d (encL o.a) 0 o.idx)
  | .vext o => some (fIdx o.h 0x11B (d6 o.d) (encL o.a) ((0 : BitVec 2) ++ b1 o.sx ++ (0 : BitVec 4)) o.idx)
  | .voteBal o => some (fVote o.h o.d 2 o.src) | .voteAny o => some (fVote o.h (o.q.setWidth 8) 0 o.src)
  | .voteAll o => some (fVote o.h (o.q.setWidth 8) 1 o.src)
  | .shfl o => some (mkF o.h 0x121 (lenBL o.b) o.d (encL o.a) (sbBL o.b) (selBL o.b ++ (0 : BitVec 2) ++ o.wl ++ o.mode) (immBL o.b))
  | .xchg o =>
    some (mkF o.h 0x122 (lenBL o.b) o.d (encL o.a) (sbBL o.b) (selBL o.b ++ (0 : BitVec 2) ++ o.dl ++ (0 : BitVec 2)) (immBL o.b))
  | .wred o => some (mkF o.h 0x123 .l64 o.d (encL o.a) 0 ((0 : BitVec 1) ++ o.wl ++ o.op))
  | .sfu o => some (mkF o.h 0x128 .l64 o.d (encL o.a) 0 ((0 : BitVec 5) ++ o.fn))
  | .mma o => some (mkF o.h 0x140 .l64 o.d (o.a.setWidth 9) (o.b.setWidth 9) ((0 : BitVec 1) ++ b1 o.i ++ o.ta ++ o.tb))
  | .mmas o =>
    some (mkF o.h 0x141 .l96 o.d (o.a.setWidth 9) (o.b.setWidth 9) ((0 : BitVec 1) ++ b1 o.i ++ o.ta ++ o.tb)
      (wSE 0 (o.sc.setWidth 9)))
  | .mmaq o =>
    some (mkF o.h 0x142 .l96 o.d (o.a.setWidth 9) (o.b.setWidth 9) ((0 : BitVec 1) ++ b1 o.i ++ o.ta ++ o.tb)
      (wSE ((0 : BitVec 13) ++ o.sz ++ o.pb) (o.pa.setWidth 9)))
  | .mzero o => some (mkF o.h 0x143 .l64 o.d 0 0 ((0 : BitVec 7) ++ b1 o.f64))
  | .mcvt o =>
    some (mkF o.h 0x144 (lenEf o.form) o.d (o.a.setWidth 9) 0 ((0 : BitVec 1) ++ o.fmt ++ (0 : BitVec 4)) (w2Ef o.form))
  | .mldf o => some (mkF o.h 0x145 .l96 o.d (encS o.base) (encS o.stride) ((0 : BitVec 6) ++ o.kind) o.disp)
  | .mstf o => some (mkF o.h 0x146 .l96 o.d (encS o.base) (encS o.stride) ((0 : BitVec 6) ++ o.kind) o.disp)
  | .ld o => some (fMem 0x180 o) | .st o => some (fMem 0x181 o) | .lds o => some (fMem 0x182 o)
  | .sts o => some (fMem 0x183 o) | .ldx o => some (fXMem 0x184 o) | .stx o => some (fXMem 0x185 o)
  | .pref o => some (fPref o) | .vld o => some (fVMem 0x188 o) | .vst o => some (fVMem 0x189 o)
  | .vlds o => some (fVMem 0x18A o) | .vsts o => some (fVMem 0x18B o)
  | .l1invLine o => some (fLine 0x190 o) | .l1invAll o => some (fAll 0x190 o)
  | .l1invXl o => some (mkF o.h 0x190 (lenDisp o.imm) 0 (encS o.a) 0 2 (o.imm.getD 0))
  | .l2wbLine o => some (fLine 0x191 o) | .l2wbAll o => some (fAll 0x191 o)
  | .fenceAcq o => some (fA 0x198 1 o) | .fenceRel o => some (fA 0x198 2 o) | .fenceAr o => some (fA 0x198 3 o)
  | .atom o => some (fAtom 0x199 o)
  | .atomNz o =>
    some (mkF o.h 0x199 .l96 (d6 o.d) (encS o.a) (encS o.b) (mAtom true o.op o.u o.sz) (wSE 0 (o.n.setWidth 9)))
  | .cas o => some (mkF o.h 0x19A .l96 (d6 o.d) (encS o.a) (encS o.b) ((0 : BitVec 7) ++ b1 o.sz) (wSE 0 (encS o.c)))
  | .atomsLocal o => some (fAtom 0x19B o)
  | .atomsRemote o =>
    some (mkF o.h 0x19B .l96 (d6 o.d) (encS o.core) (encS o.off) (mAtom false o.op o.u o.sz) (wSE 0 (encS o.b)))
  | .vatom o =>
    some (mkF o.h 0x19C .l96 o.d (encS o.a) (encL o.b) (b1 (selL o.b) ++ (0 : BitVec 1) ++ b1 o.l ++ b1 o.u ++ o.op ++ (0 : BitVec 1))
      (wSE (eSel o.c) (encL o.c)))
  | .send o => some (fSend o)
  | .sendv o =>
    some (mkF o.h 0x1C1 .l96 o.d (o.dst.setWidth 9) (encHid o.hid) (b1 o.ord ++ o.len ++ o.ch)
      (wSE (o.qm.setWidth 23) (o.stamp.setWidth 9)))
  | .recv o => some (mkF o.h 0x1C2 .l64 (d6 o.d) 0 0 ((0 : BitVec 7) ++ b1 o.nb))
  | .gpost o => some (mkF o.h 0x1C3 .l64 (d6 o.d) 0 0 ((0 : BitVec 4) ++ o.g))
  | .gflush o => some (mkF o.h 0x1C4 .l64 0 0 0 ((0 : BitVec 4) ++ o.g))
  | .requeue o => some (mkF o.h 0x1C5 .l64 o.d 0 0 ((0 : BitVec 1) ++ o.qm ++ o.g))
  | .qpush o => some (fDA 0x1C6 0 o) | .qflush o => some (fA 0x1C7 0 o) | .htabGet o => some (fDA 0x1C8 0 o)
  | .htabSet o => some (fDA 0x1C8 1 o) | .launchWake o => some (fDA 0x1C9 0 o) | .launchOpen o => some (fDA 0x1C9 1 o)
  | .launchClose o => some (fDA 0x1C9 2 o) | .cancel o => some (fDA 0x1CA 0 o) | .lvlread o => some (fDA 0x1CB 0 o)
  | .lvlreadReap o => some (fDA 0x1CB 1 o) | .vtget o => some (fD 0x1CC 0 o) | .vtgetRep o => some (fD 0x1CC 1 o)
  | .vtset o => some (fA 0x1CD 0 o) | .hzread o => some (fD 0x1CE 0 o) | .hzreadSys o => some (fD 0x1CE 1 o)
  | .hzwait o => some (fA 0x1CF 0 o) | .hzwaitSys o => some (fA 0x1CF 1 o)
  | .rsend o => some (mkF o.h 0x1D0 .l64 (d6 o.d) (encS o.a) (encHid o.hid) 0)
  | .boxt o => some (fRay 0x1D1 0 o) | .trit o => some (fRay 0x1D2 0 o) | .rpush o => some (fDAB 0x1D3 0 o)
  | .rpushBox o => some (mkF o.h 0x1D3 .l96 (d6 o.d) (encS o.a) (encS o.g) 1 (wSE 0 (encS o.n)))
  | .rpop o => some (mkF o.h 0x1D4 .l64 (d6 o.d) (o.ray.setWidth 9) (encS o.g) 0)
  | .rhit o => some (mkF o.h 0x1D5 .l96 (d6 o.d) (encS o.core) (o.ray.setWidth 9) 0 (wSE (o.hid.setWidth 23) (encS o.user)))
  | .rmiss o => some (mkF o.h 0x1D6 .l96 0 (encS o.core) (o.ray.setWidth 9) 0 (wSE (o.hid.setWidth 23) (encS o.user)))
  | .rxform o => some (fDAB 0x1D7 0 o) | .rloadRay o => some (fDAB 0x1D8 0 o) | .rloadGeom o => some (fDAB 0x1D8 1 o)
  | .rloadHit o => some (fDAB 0x1D8 2 o) | .rstoreRay o => some (fDAB 0x1D9 0 o) | .rstoreGeom o => some (fDAB 0x1D9 1 o)
  | .rstoreHit o => some (fDAB 0x1D9 2 o) | .cnlookDir o => some (fDA 0x1DA 0 o) | .cnlookLoc o => some (fDAB 0x1DA 1 o)
  | .cnsetDir o => some (fDA 0x1DB 0 o) | .cnsetSlot o => some (fDA 0x1DB 1 o) | .thaw o => some (fDAB 0x1DC 0 o)
  | .evict o => some (fDA 0x1DD 0 o)
  | .rpin o => some (mkF o.h 0x1DE .l96 (d6 o.d) (encS o.a) (encS o.b) 0 (wSE 0 (encS o.c)))
  | .rdone o => some (mkF o.h 0x1DF .l96 (d6 o.d) (encS o.a) (encS o.b) 0 (wSE (o.n.setWidth 23) (o.p.setWidth 9)))
  | .rlog o =>
    some (mkF o.h 0x1E0 .l96 (d6 o.d) (encS o.q) (encS o.node) ((0 : BitVec 4) ++ o.event) (wSE (o.x.setWidth 23) (encS o.stamp)))
  | .rreplay o => some (fRay 0x1E1 0 o) | .rreplayTri o => some (fRay 0x1E1 1 o)
  | .bget o => some (fBlk 0x1E2 o) | .bput o => some (fBlk 0x1E3 o) | .bcopy o => some (fBcopy 0x1E4 o)
  | .bfill o => some (fBcopy 0x1E5 o) | .tlreadDone o => some (fTl 0 o) | .tlreadIss o => some (fTl 1 o)
  | .tlreadErr o => some (fTl 2 o) | .tlwait o => some (mkF o.h 0x1E7 .l64 0 (encS o.a) 0 ((0 : BitVec 6) ++ o.ctx))
  | .smp o => some (fSmp 0x1E8 o) | .smpf o => some (fSmp 0x1E9 o) | .sfence o => some (fH 0x1EA o)
  | .rsr o => some (mkF o.h 0x1F0 .l64 o.d 0 (sbI17 (o.num.setWidth 17)) (mI17 (o.num.setWidth 17)))
  | .wsr o => some (mkF o.h 0x1F1 .l64 0 (encS o.a) (sbI17 (o.num.setWidth 17)) (mI17 (o.num.setWidth 17)))
  | .trap o => some (mkF o.h 0x1F2 .l64 0 0 (o.code.setWidth 9) 0) | .brk o => some (fH 0x1F8 o)
  | .tret o => some (fH 0x1F3 o) | .fresume o => some (fDA 0x1F4 0 o) | .fresumeStep o => some (fDA 0x1F4 1 o)
  | .fresumeOut o => some (fDA 0x1F4 2 o) | .fkill o => some (fDA 0x1F5 0 o)
  | .finspectRd o => some (mkF o.h 0x1F6 .l64 (d6 o.d) (encS o.a) (encS o.b) ((0 : BitVec 1) ++ o.k ++ (0 : BitVec 4)))
  | .finspectWr o => some (mkF o.h 0x1F6 .l64 (d6 o.d) (encS o.a) (encS o.b) ((0 : BitVec 1) ++ o.k ++ (1 : BitVec 4)))
  | .halt o => some (fDA 0x1F7 0 o)
  | .preemptDrain o => some (mkF o.h 0x1F9 .l96 (d6 o.d) (encS o.a) 0 0 (wSE 0 (encS o.b)))
  | .preemptSwap o => some (mkF o.h 0x1F9 .l96 (d6 o.d) (encS o.a) (encS o.b) 1)
  | .preemptRes o => some (mkF o.h 0x1F9 .l96 (d6 o.d) (encS o.a) (encS o.b) 2)
  | .remap o => some (fDAB 0x1FA 0 o)
  | _ => none

/-- The words of the fields, in address order (R26). -/
def pack0 (f : Fields) : W32 :=
  f.d.extractLsb' 0 2 ++ f.ntt ++ f.pc ++ f.pb ++ f.pa ++ f.op ++ b1 f.nw ++ b1 f.c ++ lenCode f.len
def pack1 (f : Fields) : W32 := f.m ++ f.sb ++ f.sa ++ f.d.extractLsb' 2 6

def packWords (f : Fields) : List W32 :=
  match f.len with
  | .l64 => [pack0 f, pack1 f]
  | .l96 => [pack0 f, pack1 f, f.w2]
  | .l128 => [pack0 f, pack1 f, f.w2, f.w3]

/-- The words of an instruction; none of an event. -/
def encode (i : Instr) : Option (List W32) := (toFields i).map packWords

/-- The bytes of an instruction in memory. -/
def encodeBytes (i : Instr) : Option (List Byte) := (encode i).map (fun ws => ws.flatMap (Machine.bytesLE 4))

end Sys2Proof
end

