-- ==== Sys2Proof/Config.lean ====
section
/-! DEFINITION. What the spec leaves open and the machine needs a value of: opaque constants, which no proof can
evaluate, and the capacities the spec fixes. -/

namespace Sys2Proof.Config

/-- Cycles of an island since module reset after a number of steps (R407): time is not modelled, so any count
(log entry 8). -/
opaque cyclesOf : Nat → Nat → W64

/-- Which of n candidates a full cache displaces: the first argument names the cache (0 L1 data, 1 L1 instruction,
2 translation, 3 sampler, 4 a die's copies), the second a fresh number (log entry 9). -/
opaque victim : Nat → Nat → Nat → Nat

/-- The SFU's result where its error bound admits several (R164): log entry 10. -/
opaque sfuFree : BitVec 3 → W32 → W32

/-- Whether a signature verifies over bytes under the key of an index (R82, R382): log entry 11. -/
opaque sigVerifies : List Byte → W64 → List Byte → Bool

/-- The SHAKE256 measurement of an object, 64 bytes (R382), and the identity key's signature (R383): log entry 11. -/
opaque measure : List Byte → List Byte
opaque identitySign : List Byte → List Byte

/-- Bytes of the measured stage and of the field firmware (R382): log entry 11. -/
opaque stageBytes : List Byte
opaque firmwareBytes : List Byte

/-- The launch table base the Frellan root sets, the core and PC at which it starts the field firmware, and the key
index and signatures of the measured objects (R271, R382): log entry 11. -/
opaque rootLaunchBase : Nat
opaque firmwarePc : W64
opaque rootKeyIndex : W64
opaque stageSignature : List Byte
opaque firmwareSignature : List Byte

/-- Whether the fabric applied the granule of a lost copy-engine write (R337), by a fresh number. -/
opaque lossApplied : Nat → Bool

/-- The syndrome a machine-check record gives (R212), by a fresh number. -/
opaque syndrome : Nat → W64

/-- Cycles left of a glade's running timer (Table 17-7), by a fresh number: time is not modelled (log entry 8). -/
opaque gladeLeft : Nat → W32

/-- What a save area does not say of a firing that the core has kept nothing of (R372), by slot and word: log entry 19. -/
opaque keptWord : Nat → Nat → W64

/-- What a home slice of another package answers to a request about its records and directories: a fresh number, a
word index (log entry 12). -/
opaque farWord : Nat → Nat → W64

/-- Whether another package is a PZ4-7, whose virtual die 7 has no cores (R2), and whether a core of another package
refuses a request of a fresh number (R201): log entry 12. -/
opaque farIs47 : Nat → Bool
opaque farRefuses : Nat → Bool

/-- What the cores, engines and host of other packages have stored at a key of another package by the time of a read: a
fresh number and the key; none where the byte is as this module last knew it (log entry 12). -/
opaque farByte : Nat → Nat → Option Byte

/-- The populated second-tier size of a port of another package, by package and port (R209): log entry 12. -/
opaque farCxlSize : Nat → Nat → Nat

/-- Whether an uncorrectable error met on the way to an address lay in the L2 and not in the memory behind it (R212), by
a fresh number. -/
opaque errInL2 : Nat → Bool

/-- Whether the uncorrectable error of a global copy was met at the granule written, not at the one read (R337), by a fresh
number. -/
opaque errOnWrite : Nat → Bool

/-- A byte a BAR4 read gives for an address that does not exist, by a fresh number and its place (R379 states none). -/
opaque absentByte : Nat → Nat → Byte

/-- Entries of a firing's store queue (R195), of the send buffer (R258), of the dirty list (R226). -/
def sqCap : Nat := 16
def sendCap : Nat := 16
def dirtyCap : Nat := 512

/-- Flits of an inbox channel (R247); entries of the launch cache (R274) and the cancel filter (R281). -/
def inboxCap : Nat := 32
def creditCap : Nat := 16
def filterCap : Nat := 64

/-- Entries of the Canopy cache (R314), the SFU queue (R165), the sampler queue (R345), a context queue (R329). -/
def canopyCap : Nat := 256
def sfuCap : Nat := 16
def sampCap : Nat := 8
def ctxCap : Nat := 8

/-- Lines of an L1 set (R203). -/
def l1Ways : Nat := 4

/-- Ways and sets of a site's L2, 64 slices of 2 MiB (R21), and walkers of a die (R206). -/
def l2Ways : Nat := 16
def l2Sets : Nat := 65536
def walkers : Nat := 64

/-- L1 instruction blocks (R21), translation-cache leaves (R206), sampler lines (R345). -/
def l1iCap : Nat := 1024
def tlbCap : Nat := 512
def sampLines : Nat := 128

/-- Entries the host port holds (R380). -/
def heldCap : Nat := 1024

end Sys2Proof.Config
end

