-- ==== Sys2Proof/Machine/State.lean ====
section
/-! DEFINITION. The state of one module as plain data: everything the spec names, and after it the model's own
fields (agenda, focus, who, turn, tick, fresh), which say which agent moves next. -/

namespace Sys2Proof.Machine

/-- A sparse map from numbers: keys strictly rising, no entry equal to what an unlisted key reads as. -/
abbrev Sparse (α : Type) := List (Nat × α)

/-- The part (R1); a PZ4-7 names the site whose C-die is fused off (R11). -/
inductive Part | pz48 | pz47 (fused : BitVec 3)
  deriving DecidableEq, Repr

/-- Kinds of access in a trap record (Table 17-2); a region access reads or writes, and both have one number there. -/
inductive Access | read | write | fetch | atomic | region | regionW | scratch
  deriving DecidableEq, Repr

/-- A path-table entry (Table 2-13); its reserved bits read zero (R6). -/
structure PathE where
  pc   : W64 := 0
  mask : W32 := 0
  pri  : Byte := 0
  st   : Byte := 0
  deriving DecidableEq, Repr

/-- A translation: a leaf (Table 10-5), its level, the ASID it serves, and the first page address it covers. -/
structure Leaf where
  base  : Nat
  level : Nat
  asid  : BitVec 16
  pte   : W64
  deriving DecidableEq, Repr

/-- What a walk ends in: a leaf, XLATE at a level (R209), or a table entry at a key that a CXL port whose link is down
does not serve (R385). -/
inductive WalkRes | leaf (l : Leaf) | fault (level : Nat) | down (key : Nat)
  deriving DecidableEq, Repr

/-- One global access: lane, virtual address, package and physical address, bytes, whether its page is uncached,
the leaf that translated it where it missed L1 (R203), and the bytes once a later store of the firing has forced the value
to be fixed. -/
structure Acc where
  lane : Nat
  va   : Nat
  pa   : Nat
  size : Nat
  unc  : Bool
  leaf : Option Leaf := none
  got  : Option (List Byte) := none
  deriving DecidableEq, Repr

/-- Where a deposit's bytes go (R191, R193): s registers, or a lane group. -/
inductive DepDst
  | s (d size : Nat) (sx : Bool)
  | v (d size : Nat) (sx : Bool)
  | none
  deriving DecidableEq, Repr

/-- What a deposit waits for: global loads, a remote scratchpad read, a value already fixed (s registers, and lane
words keyed 32 × register + lane), a unit or home that has not answered, or data that will never land, with
their address (R212). -/
inductive DepSrc
  | load (accs : List Acc)
  | ldx (core off size : Nat)
  | val (s : List (Nat × W64)) (v : List (Nat × W32))
  | unit
  | bad (a : Nat)
  deriving DecidableEq, Repr

/-- An outstanding deposit (R194): its place in program order, its instruction, the registers it keeps pending, and the
scratchpad offset its value was read at, where it is a local load (R212). -/
structure Dep where
  seq   : Nat
  pc    : W64
  word  : W64 := 0
  sregs : List Nat
  vregs : List Nat
  dst   : DepDst
  src   : DepSrc
  spad  : Option Nat := none
  deriving DecidableEq, Repr

/-- One atomic operation (R237): size 4 or 8, operation code (8 is CAS), operands. -/
structure AtomAcc where
  lane : Nat
  va   : Nat
  pa   : Nat
  size : Nat
  op   : Nat
  u    : Bool
  b    : W64
  c    : W64 := 0
  deriving DecidableEq, Repr

/-- A byte to be stored: virtual address, package and physical address, value. -/
structure Cell where
  va : Nat
  pa : Nat
  b  : Byte
  deriving DecidableEq, Repr

/-- What a region read is for (R303, R305, R326). -/
inductive RegUse
  | refill (d ray : Nat)
  | words (d n : Nat)
  | replay
  deriving DecidableEq, Repr

/-- A store-queue entry's operation (Table 11-1), and the home operations ordered as atomics (R279, R296, R311). -/
inductive EntOp
  | store (g unc : Bool) (cells : List Cell)
  | atom (accs : List AtomAcc) (nz : Option (W64 × W64))
  | stx (core off : Nat) (bytes : List Byte)
  | atoms (core off size op : Nat) (u : Bool) (b : W64)
  | wb (line : Nat)
  | rwrite (cells : List Cell)
  | rread (va pa len : Nat) (use : RegUse)
  | dirRead (h : BitVec 16)
  | dirWrite (h : BitVec 16) (ws : List W64)
  | thaw (h : BitVec 16) (slot : Nat)
  | evict (slot : Nat)
  | lvl (tag : W32) (reap : Bool)
  deriving DecidableEq, Repr

/-- A store-queue entry; entries of one instruction share its place in program order. sent says that it was on its way
when a loss of its firing was recorded (R232). -/
structure Ent where
  seq  : Nat
  pc   : W64
  op   : EntOp
  sent : Bool := false
  deriving DecidableEq, Repr

/-- What keeps a firing from issuing beyond the scoreboard: a page walk (R204), a launch credit (R274), the record
of RREPLAY, or that record once it has returned (R326), RECV with no message (R259), HZWAIT (R285). -/
inductive Hold
  | none
  | walk (va : Nat) (acc : Access) (lane : Option Nat)
  | credit (tag : W32)
  | replay
  | record (bytes : List Byte)
  | recv
  | hzwait
  deriving DecidableEq, Repr

/-- A release not yet complete (R226): its place in program order, its PC, whether its clearing is cross-die. It is a
FENCE.REL's, or that of the FENCE.AR, DONE or REQUEUE which its firing waits at, whose place is the firing's next
(R228, R231). -/
structure Rel where
  seq   : Nat
  pc    : W64
  cross : Bool
  word  : W64
  deriving DecidableEq, Repr

/-- An entry of the SFU queue (R165); vals holds the lanes' operands once its service has started, or at issue for a latch. -/
structure SfuEnt where
  slot : Nat
  pc   : W64
  mask : W32
  fn   : BitVec 3
  sa   : LSrc
  d    : Nat
  vals : Option (List (Nat × W32))
  deriving DecidableEq, Repr

/-- One firing, with its workspace. relMore holds the FENCE.RELs issued while one was in progress (R226). rbrk says that it stopped at a breakpoint register or a WATCH (R368); sfuDisc holds the
SFU entries its stop discarded, which its resumption reissues (R166). -/
structure Firing where
  uid     : Nat := 0
  hid     : BitVec 8 := 0
  wave    : Bool := false
  ns      : Nat := 8
  nv      : Nat := 0
  plive   : BitVec 8 := 0
  scope   : W64 := 0
  pri     : Nat := 0
  boost   : Nat := 0
  ordered : Bool := false
  gsrc    : Bool := false
  wp      : Nat := 0
  ltag    : W32 := 0
  stamp   : Option (BitVec 48) := none
  taken   : Nat := 0
  s       : Sparse W64 := []
  v       : Sparse W32 := []
  k       : BitVec 8 := 0
  q       : Sparse W32 := []
  fpst    : W64 := 0
  paths   : List PathE := []
  cur     : Nat := 0
  chain   : W64 := 0
  ls      : List W64 := []
  lv      : List (List W32) := []
  trec    : List W64 := []
  last    : Byte := 0
  skip    : Bool := false
  rbrk    : Bool := false
  loss    : Bool := false
  bad     : Option W64 := none
  mode    : BitVec 2 := 0
  sfu0    : W64 := 0
  sfu1    : W64 := 0
  sfum    : W64 := 0
  sfuDisc : List SfuEnt := []
  laddr   : W64 := 0
  lcnt    : W32 := 0
  depth   : BitVec 16 := 0
  stop    : BitVec 4 := 0
  deps    : List Dep := []
  sq      : List Ent := []
  wbq     : List Nat := []
  xl      : List Leaf := []
  hold    : Hold := .none
  rel     : Option Rel := none
  relMore : List Rel := []
  seq     : Nat := 0
  deriving DecidableEq, Repr

/-- A message in the mesh or a send buffer, with the firing that sent it (R246: order is per sender). -/
structure Flight where
  src : Nat
  msg : Msg
  ackCore : Option Nat := none
  deriving DecidableEq, Repr

/-- A message queued at a core, with the number of its arrival, and the firing blocked in RECV that it came to (R259). -/
structure Queued where
  arr : Nat
  msg : Msg
  for_ : Option Nat := none
  deriving DecidableEq, Repr

/-- A record of a glade (R260). -/
structure GRec where
  arr  : Nat
  ltag : W32
  body : List W64
  deriving DecidableEq, Repr

/-- A glade: its declaration (R81), its columns, the timer, the flush mark (R263, R264). -/
structure Glade where
  decl    : Bool := false
  depth   : Nat := 0
  thr     : Nat := 0
  timer   : W32 := 0
  cols    : List (List GRec) := []
  running : Bool := false
  expired : Bool := false
  flush   : Bool := false
  deriving DecidableEq, Repr

/-- What lies in a spill queue, oldest first (R247, R260). -/
inductive Spilled
  | msg (m : Queued)
  | grec (g col : Nat) (r : GRec)
  deriving DecidableEq, Repr

/-- A line of L1 data: virtual line (VA div 128), ASID, the leaf's G, U, R and W, the physical line, 128 bytes (R203). -/
structure L1Line where
  vline : Nat
  asid  : BitVec 16
  pte   : W64
  pline : Nat
  data  : List Byte
  deriving DecidableEq, Repr

/-- A block of L1 instruction: virtual block (VA div 32), ASID, the leaf, 32 bytes (R26, R205). -/
structure L1IBlock where
  vblk : Nat
  asid : BitVec 16
  pte  : W64
  data : List Byte
  deriving DecidableEq, Repr

/-- A line of the sampler cache (R345). -/
structure SampLine where
  vline : Nat
  asid  : BitVec 16
  data  : List Byte
  deriving DecidableEq, Repr

/-- A die's copy of a line homed elsewhere: a valid and a dirty bit a byte, 128 bytes (R217). -/
structure L2Copy where
  valid : BitVec 128
  dirty : BitVec 128
  data  : List Byte
  deriving DecidableEq, Repr

/-- A launch-cache entry (R274). -/
structure Credit where
  tag  : W32
  pool : Nat
  disc : Nat
  deriving DecidableEq, Repr

/-- A pinned slot's two words (Table 15-1). -/
structure Pin where
  w0 : W64 := 0
  w1 : W64 := 0
  deriving DecidableEq, Repr

/-- A Canopy-cache entry (R314), oldest fill first. -/
structure CanopyE where
  h      : BitVec 16
  owners : List (BitVec 16)
  deriving DecidableEq, Repr

/-- A request to a Thaw engine (R316): from a firing's THAW with its slot, or from the home; by_ names the firing and
its deposit. -/
structure ThawReq where
  h    : BitVec 16
  slot : Option Nat
  by_  : Option (Nat × Nat)
  deriving DecidableEq, Repr

/-- The thaw in progress: request, slot, image address, nodes. -/
structure ThawJob where
  req   : ThawReq
  slot  : Nat
  image : Nat
  nodes : Nat
  deriving DecidableEq, Repr

/-- A copy-engine command (R329 to R336). pos counts the granules done. -/
structure Cmd where
  n    : W64
  fill : Bool
  ds   : BitVec 2
  ss   : BitVec 2
  dst  : W64
  src  : W64
  len  : Nat
  asid : BitVec 16
  user : Bool
  nt   : Option (W64 × W64)
  ltag : W32
  pos  : Nat
  supp : Bool
  deriving DecidableEq, Repr

/-- A copy-engine context (R329, R337). wrote lists the virtual lines its commands wrote, with the command's number: the
sampler lines that a TLWAIT drops (R339). -/
structure Ctx where
  i    : W64 := 0
  c    : W64 := 0
  err  : W64 := 0
  addr : W64 := 0
  q    : List Cmd := []
  wrote : List (Nat × Nat) := []
  deriving DecidableEq, Repr

/-- A sampler request (R342 to R344): the firing, its deposit, the descriptor as read, lane operands, and the lines
it uses: virtual line, physical line, whether uncached. -/
structure SampReq where
  slot  : Nat
  seq   : Nat
  fetch : Bool
  desc  : List Byte
  args  : List (Nat × W32 × W32)
  xl    : List (Nat × Nat × Bool)
  d     : Nat
  deriving DecidableEq, Repr

/-- The operation in the matrix unit (R184): its result and flags, written when it completes. -/
structure MatOp where
  slot  : Nat
  pc    : W64
  word  : W64
  d     : Nat
  n     : Nat
  vals  : List (Nat × W32)
  flags : BitVec 6
  deriving DecidableEq, Repr

/-- A batch the forwarding engine has formed (R267): first entry, entries, whether its writes are done. -/
structure Batch where
  first : Nat
  n     : Nat
  wrote : Bool
  deriving DecidableEq, Repr

/-- What the forwarding engine knows of a descriptor with unsent entries (R265 to R267); owners holds each unsent
entry's number, its firing and the order of its push. -/
structure Proxy where
  off     : Nat
  marked  : Nat
  owners  : List (Nat × Nat × Nat)
  batch   : Option Batch
  stopped : Bool
  deriving DecidableEq, Repr

/-- A drain in progress (R370) and who asked: core, firing, deposit. -/
structure DrainSt where
  core : Nat
  uid  : Nat
  seq  : Nat
  lim  : W32
  deriving DecidableEq, Repr

/-- What a core keeps of a swap (R371) beside the save area, which names no launch tag, register counts or consumed
messages: the area's address, whether its firings lie there still and have not been restored, the firings, the trap handler's
subject and the record it was created for, the proxies (log entry 19). -/
structure Kept where
  area    : Nat
  out     : Bool
  firings : Sparse Firing
  subject : Option Nat
  subjRec : List W64
  proxies : List Proxy
  deriving DecidableEq, Repr

/-- A timed unit of a core that was engaged: the step of its engagement and the cycles it takes (R99, R151, R308). -/
structure Busy where
  tick   : Nat
  cycles : Nat
  deriving DecidableEq, Repr

/-- One core. sendvWait is the tag whose refill the placing of a SENDV waits for (R274). -/
structure Core where
  asid     : BitVec 16 := 0
  placed   : Bool := false
  loading  : Bool := false
  htab     : Nat := 0xFE000
  wsLo     : Nat := 0
  wsHi     : Nat := 0x100000
  spad     : Sparse Byte := []
  cstate   : Nat := 0
  firings  : Sparse Firing := []
  trapQ    : List Nat := []
  subject  : Option Nat := none
  subjRec  : List W64 := []
  vt       : W64 := 0xFFFFFFFFFFFFFFFF
  report   : W64 := 0xFFFFFFFFFFFFFFFF
  claim    : Nat := 0
  hz       : W64 := 0xFFFFFFFFFFFFFFFF
  hzSys    : W64 := 0xFFFFFFFFFFFFFFFF
  tvec     : W64 := 0
  tws      : W64 := 0
  spq      : W64 := 0
  spqsz    : W64 := 0
  brk0     : W64 := 0
  brk1     : W64 := 0
  wch0     : W64 := 0
  wch1     : W64 := 0
  sendBuf  : List Flight := []
  sendvQ   : List Flight := []
  sendvWait : Option W32 := none
  inbox    : List Queued := []
  spill    : List Spilled := []
  spTail   : Nat := 0
  metBad   : List Nat := []
  spillSaid : Bool := false
  glades   : List Glade := List.replicate 16 {}
  credits  : List Credit := []
  filter   : List W32 := []
  filterWait : List W32 := []
  pinned   : List Pin := List.replicate 16 {}
  canopy   : List CanopyE := []
  waitSaid : Bool := false
  thawQ    : List ThawReq := []
  thawJob  : Option ThawJob := none
  ctxs     : List Ctx := List.replicate 4 {}
  ectx     : Nat := 0
  samp     : List SampLine := []
  sampQ    : List SampReq := []
  sfuQ     : List SfuEnt := []
  mat      : Option MatOp := none
  busy     : Sparse Busy := []
  l1d      : List L1Line := []
  l1i      : List L1IBlock := []
  tlb      : List Leaf := []
  dirty    : List Nat := []
  dirtyOvf : Bool := false
  proxies  : List Proxy := []
  rr       : List Nat := List.replicate 16 0
  drain    : Option DrainSt := none
  swapping : Bool := false
  kept     : List Kept := []
  deriving DecidableEq, Repr

/-- A core right after module reset. -/
def Core.reset : Core := {}

/-- A request on its way to a home slice: LAUNCH of a firing (core, firing, deposit), a host's launch, CLOSE, CANCEL,
a count change by a core's launch cache, thaw outcomes (R274, R277, R280, R315). -/
inductive HomeReq
  | launch (by_ : Option (Nat × Nat × Nat)) (desc : List Byte)
  | close (core uid seq : Nat) (tag : W32)
  | cancel (by_ : Option (Nat × Nat × Nat)) (tag : W32)
  | refill (core : Nat) (tag : W32) (done : Bool)
  | giveBack (tag : W32) (n disc : Nat)
  | thawDone (core : Nat) (req : ThawReq)
  | thawFailed (core : Nat) (req : ThawReq)
  | ray (core : Nat) (m : Queued)
  deriving DecidableEq, Repr

/-- A broadcast in progress: a cancel filter entry to add or remove, a Canopy invalidation; the cores it reached. -/
structure Bcast where
  key : W32
  got : List Nat
  deriving DecidableEq, Repr

/-- A mesh interrupt (R369): mode 0 drain, 1 swap, 2 restore; target, argument, the issuing firing; whether a REMAP holds it
back at injection (R373). -/
structure MeshIrq where
  mode   : Nat
  target : Nat
  arg    : W64
  asid   : BitVec 16
  core   : Nat
  uid    : Nat
  seq    : Nat
  held   : Bool := false
  deriving DecidableEq, Repr

/-- A REMAP in progress (R373): virtual die, site, the issuing firing. -/
structure RemapSt where
  die  : Nat
  site : Nat
  core : Nat
  uid  : Nat
  seq  : Nat
  deriving DecidableEq, Repr

/-- A page walk of a die's walker pool (R206): the site, the ASID, the 64 KiB page, and once its entries have been read
what they gave. Walks stand in the order in which they arose. -/
structure Walk where
  site : Nat
  asid : BitVec 16
  page : Nat
  res  : Option WalkRes := none
  deriving DecidableEq, Repr

/-- A ray held in the wait area (R313): its entry, the message and its arrival. -/
structure HeldRay where
  h    : BitVec 16
  msg  : Msg
  deriving DecidableEq, Repr

/-- A boot-tree edge of an image being loaded (R80, R83): parent (none for the loader), child, role. -/
structure BootEdge where
  parent : Option Nat
  child  : Nat
  role   : Nat
  deriving DecidableEq, Repr

/-- An image load in progress (R83): where it lies, its bytes, its ASID, its tree, the cores that have their copy, and
those that have reported. -/
structure LoadSt where
  addr     : Nat
  bytes    : List Byte
  asid     : BitVec 16
  tree     : List BootEdge
  arrived  : List Nat
  ready    : List Nat
  deriving DecidableEq, Repr

/-- The host side: the mailbox's FIFO of offsets and entries (R378), device queue (R380, R381), interrupts, capability bodies (R376). -/
structure HostSt where
  rdy       : BitVec 16 := 0
  mailbox   : List (Nat × List Byte) := []
  devq      : List Byte := List.replicate 64 0
  irqs      : List (List Byte) := List.replicate 32 (List.replicate 16 0)
  held      : List (List Byte) := []
  lost      : W32 := 0
  queue     : List (List Byte) := []
  dqMarked  : Nat := 0
  dqBatch   : Option Batch := none
  msix      : List Nat := []
  pba       : BitVec 32 := 0
  msixTable : List Byte := (List.replicate 32 [0, 0, 0, 0, 0, 0, 0, 0, 0, 0, 0, 0, 1, 0, 0, 0]).flatten
  bar4Base  : Nat := 0
  bar4Reads : List (Nat × List Byte) := []
  nonce     : List Byte := List.replicate 32 0
  attAddr   : W64 := 0
  attStatus : Byte := 0
  attBusy   : Bool := false
  imgAddr   : W64 := 0
  imgLen    : W64 := 0
  imgAsid   : BitVec 16 := 0
  imgStatus : Byte := 0
  imgLast   : List Byte := []
  limit     : BitVec 16 := 3300
  clocks    : List Nat := List.replicate 40 36
  temps     : List (BitVec 16) := List.replicate 40 0
  throttled : Bool := false
  cxlState  : List Byte := List.replicate 4 0
  cxlSize   : List Nat := List.replicate 4 0
  lysState  : List Byte := List.replicate 8 0
  lysNear   : List (BitVec 17) := List.replicate 8 0
  lysErr    : List W32 := List.replicate 8 0
  corrected : List W32 := List.replicate 8 0
  uncorr    : List W32 := List.replicate 8 0
  deriving DecidableEq, Repr

/-- A move of the schedule: an event, an instruction's issue at a core and pipe (lane or scalar), or one access of a load
performed before the others of its deposit (R216). -/
inductive Move
  | event (i : Instr)
  | issue (core : Nat) (lane : Bool)
  | access (core slot dep acc : Nat)
  deriving DecidableEq, Repr

/-- The module. -/
structure State where
  part       : Part := .pz48
  pkg        : BitVec 17 := 0
  sysSize    : Nat := 1
  dieMap     : List Nat := [0, 1, 2, 3, 4, 5, 6, 7]
  diesReady  : BitVec 8 := 0
  mem        : List Host.Cell := []
  l2         : Sparse L2Copy := []
  asidBase   : Nat := 0
  launchBase : Nat := 0
  canopyBase : Nat := 0
  canopyAsid : BitVec 16 := 0
  waitBase   : Nat := 0
  waitSize   : Nat := 0
  heldRays   : List HeldRay := []
  thawAcc    : List (BitVec 16 × Nat) := []
  hz         : W64 := 0xFFFFFFFFFFFFFFFF
  sysHz      : W64 := 0xFFFFFFFFFFFFFFFF
  mesh       : List Flight := []
  lyspor     : List Flight := []
  homeQ      : List HomeReq := []
  filterAdd  : List Bcast := []
  filterDel  : List Bcast := []
  canopyInv  : List Bcast := []
  meshIrqs   : List MeshIrq := []
  waitFl     : List Flight := []
  walks      : List Walk := []
  keysFused  : BitVec 16 := 0xFFFF
  keysRevoked : BitVec 16 := 0
  remaps     : List RemapSt := []
  load       : Option LoadSt := none
  loaded     : Bool := false
  cores      : Sparse Core := []
  host       : HostSt := {}
  agenda     : List Move := []
  focus      : Nat := 0
  who        : Option (Nat × Nat) := none
  turn       : Bool := false
  tick       : Nat := 0
  fresh      : Nat := 0
  deriving DecidableEq, Repr

/-- The machine right after module reset (R11, R84, R282, R361, R376, R382); log entries 1 to 7, 11, 82 and 91 name the values
the spec does not give. -/
def State.reset : State := {}

/-- Why the machine stops. -/
inductive Fault
  /-- Raised by an instruction's meaning where `who` names no firing: no instruction issues without one. Safe: no
  step of the machine reaches it, since a step sets `who` before it executes. -/
  | noFiring
  deriving DecidableEq, Repr

/-- Why an instruction has no meaning. -/
inductive Refusal
  /-- Raised by an arm of exec whose instruction is not modelled yet. Safe: nothing is claimed of it. -/
  | notModelled (mnemonic : String)
  deriving DecidableEq, Repr

/-- What a meaning answers. -/
abbrev Out := Host.Outcome State Fault Refusal

end Sys2Proof.Machine
end

