-- ==== Sys2Proof/Machine/Sparse.lean ====
section
/-! DEFINITION. Sparse maps in one canonical form: keys strictly rising, no entry equal to what an unlisted key
reads as. The memories and the register files are kept in it. -/

namespace Sys2Proof.Machine

/-- The entry of a key. -/
def spFind {α : Type} : Sparse α → Nat → Option α
  | [], _ => none
  | (k, a) :: t, n => if n = k then some a else spFind t n

/-- The value of a key, d where none is listed. -/
def spGet {α : Type} (d : α) (l : Sparse α) (n : Nat) : α := (spFind l n).getD d

/-- Insert or replace an entry, keys rising. -/
def spIns {α : Type} : Sparse α → Nat → α → Sparse α
  | [], n, a => [(n, a)]
  | (k, b) :: t, n, a =>
    if n < k then (n, a) :: (k, b) :: t else if n = k then (n, a) :: t else (k, b) :: spIns t n a

/-- Remove an entry. -/
def spDel {α : Type} (l : Sparse α) (n : Nat) : Sparse α := l.filter fun e => e.1 != n

/-- Write a key's value; writing d removes the entry. -/
def spPut {α : Type} [DecidableEq α] (d : α) (l : Sparse α) (n : Nat) (a : α) : Sparse α :=
  if a = d then spDel l n else spIns l n a

/-- Keys strictly rising and at least lo. -/
def spRising {α : Type} : Nat → Sparse α → Bool
  | _, [] => true
  | lo, (k, _) :: t => decide (lo ≤ k) && spRising (k + 1) t

/-- The canonical form: keys rising, no entry equal to d. -/
def spWf {α : Type} [DecidableEq α] (d : α) (l : Sparse α) : Bool := spRising 0 l && l.all (fun e => decide (e.2 ≠ d))

/-- The canonical form of the module's memory: an unlisted byte reads 0 (log entry 3). -/
def Memory.wf (m : List Host.Cell) : Bool := spWf (0 : Byte) m

end Sys2Proof.Machine
end

