-- ==== Sys2Proof/Machine/Base.lean ====
section
/-! DEFINITION. Cores, firings, the module's geometry, and the bytes of memory and scratchpad: what every other
operation is made of. -/

namespace Sys2Proof.Machine

/-! ## Cores and firings -/

/-- Core n; a core nothing has touched is as at reset, with the horizons published since (R283, R285). -/
def State.core (s : State) (n : Nat) : Core := (spFind s.cores n).getD { Core.reset with hz := s.hz, hzSys := s.sysHz }

def State.setCore (s : State) (n : Nat) (c : Core) : State := { s with cores := spIns s.cores n c }

def State.updCore (s : State) (n : Nat) (g : Core → Core) : State := s.setCore n (g (s.core n))

/-- The firing of a slot. -/
def Core.firing (c : Core) (sl : Nat) : Option Firing := spFind c.firings sl

def Core.setFiring (c : Core) (sl : Nat) (f : Firing) : Core := { c with firings := spIns c.firings sl f }

def State.firing (s : State) (n sl : Nat) : Option Firing := (s.core n).firing sl

def State.setFiring (s : State) (n sl : Nat) (f : Firing) : State := s.setCore n ((s.core n).setFiring sl f)

/-- The slot of the trap handler (R354: its sr.fid reads 64). -/
def trapSlot : Nat := 64

/-- Slots at and above this hold what is left of killed firings: the entries of their store queues (R359). -/
def ghostSlot : Nat := 1000

/-- Firings that hold a slot, the trap handler among them; a ghost holds none. -/
def Core.live (c : Core) : List (Nat × Firing) := c.firings.filter fun e => e.1 ≤ trapSlot

/-- Run a meaning on the issuing firing. -/
def withF (s : State) (k : Nat → Nat → Firing → State) : Out :=
  match s.who with
  | none => .fault .noFiring
  | some (n, sl) =>
    match s.firing n sl with
    | none => .fault .noFiring
    | some f => .next (k n sl f)

/-- A meaning that changes the issuing firing alone. -/
def onF (s : State) (g : Firing → Firing) : Out := withF s fun n sl f => s.setFiring n sl (g f)

/-! ## Geometry (R10 to R17) -/

def dieOf (n : Nat) : Nat := n / 512
def meshX (n : Nat) : Nat := (dieOf n % 4) * 32 + n % 32
def meshY (n : Nat) : Nat := (dieOf n / 4) * 16 + (n % 512) / 32

/-- The site a virtual die maps to (R11). -/
def siteOfDie (s : State) (d : Nat) : Nat := s.dieMap.getD d d
def siteOf (s : State) (n : Nat) : Nat := siteOfDie s (dieOf n)

/-- Whether a site's C-die is active (R1, R11). -/
def siteActive (s : State) (site : Nat) : Bool :=
  match s.part with
  | .pz48 => site < 8
  | .pz47 fused => site < 8 && site != fused.toNat

/-- The number of cores of the part (R1), P of R312. -/
def partCores (s : State) : Nat := match s.part with | .pz48 => 4096 | .pz47 _ => 3584

/-- The clock island of a core (R17). -/
def islandOf (s : State) (n : Nat) : Nat := 4 * siteOf s n + 2 * ((n % 512) / 32 / 8) + n % 32 / 16

/-- sr.clk of an island (R407): a free value, log entry 8. -/
def clkOf (s : State) (island : Nat) : W64 := Config.cyclesOf island s.tick

/-- A core's global core address (R13). -/
def gcaOf (s : State) (n : Nat) : Nat := s.pkg.toNat * 4096 + n

/-- Whether core n of the module exists (R2). -/
def coreHere (s : State) (n : Nat) : Bool := n < 4096 && siteActive s (siteOf s n)

/-- Whether a global core address names a core of the configured system (R2, R386); another package has the cores of its
part, and which part it is stays free (log entry 12). -/
def coreExists (s : State) (gca : Nat) : Bool :=
  let p := gca / 4096
  if p = s.pkg.toNat then coreHere s (gca % 4096)
  else p < s.sysSize && (!Config.farIs47 p || dieOf (gca % 4096) < 7)

/-- Whether a firing is privileged (R347). -/
def privileged (c : Core) (sl : Nat) : Bool := sl == trapSlot || c.asid == 0

/-- Whether a firing is stopped. -/
def Firing.stopped (f : Firing) : Bool := f.stop != 0

/-! ## Memory bytes -/

/-- The key of a byte of a package: package number above the 47 bits of R189. -/
def memKey (pkg pa : Nat) : Nat := pkg * 2 ^ 47 + pa

/-- The byte at home. -/
def State.getB (s : State) (k : Nat) : Byte := spGet 0 s.mem k

def State.putB (s : State) (k : Nat) (b : Byte) : State := { s with mem := spPut 0 s.mem k b }

/-- n bytes at home from key k. -/
def State.getBs (s : State) (k n : Nat) : List Byte := (List.range n).map fun i => s.getB (k + i)

/-- Write bytes at home from key k. -/
def State.putBs (s : State) (k : Nat) (bs : List Byte) : State :=
  { s with mem := (bs.zipIdx).foldl (fun m e => spPut 0 m (k + e.2) e.1) s.mem }

/-- Scratchpad bytes (R188). -/
def Core.getB (c : Core) (o : Nat) : Byte := spGet 0 c.spad o

def Core.getBs (c : Core) (o n : Nat) : List Byte := (List.range n).map fun i => c.getB (o + i)

def Core.putBs (c : Core) (o : Nat) (bs : List Byte) : Core :=
  { c with spad := (bs.zipIdx).foldl (fun m e => spPut 0 m (o + e.2) e.1) c.spad }

/-- An 8-byte word of the scratchpad. -/
def Core.getW (c : Core) (o : Nat) : W64 := w64OfLE (c.getBs o 8)

def Core.putW (c : Core) (o : Nat) (x : W64) : Core := c.putBs o (bytesLE 8 x)

def State.getW (s : State) (k : Nat) : W64 := w64OfLE (s.getBs k 8)

def State.putW (s : State) (k : Nat) (x : W64) : State := s.putBs k (bytesLE 8 x)

/-- Whether bytes [o, o + n) meet the workspace region (R45, R198). -/
def Core.inWs (c : Core) (o n : Nat) : Bool := o < c.wsHi && c.wsLo < o + n

/-- The PROT condition of R199. -/
def Core.spadProt (c : Core) (o n : Nat) : Bool := 2 ^ 20 ≤ o + n - 1 || c.inWs o n

end Sys2Proof.Machine
end

