-- ==== Sys2Proof/Machine/Paging.lean ====
section
/-! DEFINITION. The physical map and homes (R10, R189), page tables and walks (R206 to R209), which access a leaf permits,
copies of the die L2 as data (R217), and the code bytes that a trap record names (R351). -/

namespace Sys2Proof.Machine

/-! ## The physical map (Table 10-1) -/

def paHbm (pa : Nat) : Bool := pa < 0x6000000000
def paCxl (pa : Nat) : Bool := 0x80000000000 ≤ pa && pa < 0x100000000000
def paHost (pa : Nat) : Bool := 0x100000000000 ≤ pa && pa < 0x200000000000
def paDev (pa : Nat) : Bool := 0x200000000000 ≤ pa && pa < 0x200100000000

def keyPkg (k : Nat) : Nat := k / 2 ^ 47
def keyPa (k : Nat) : Nat := k % 2 ^ 47

/-- CXL port of a second-tier address, and the site of a port (Table 1-1). -/
def cxlPort (pa : Nat) : Nat := (pa - 0x80000000000) / 0x20000000000
def portSite (p : Nat) : Nat := [0, 3, 4, 7].getD p 0

/-- Home site of a byte: 0 to 7 in this package, 8 where another package is its home. -/
def homeSite (s : State) (k : Nat) : Nat :=
  let pa := keyPa k
  if keyPkg k != s.pkg.toNat then 8
  else if paHbm pa then pa / 0xC00000000
  else if paCxl pa then portSite (cxlPort pa)
  else 0

/-- Home slice of an address in its home site, and the slice group that holds it (R189). -/
def homeSlice (pa : Nat) : Nat := pa / 128 % 64
def sliceGroup (pa : Nat) : Nat := pa / 2048 % 4

/-- Column and row, in site coordinates, of the router to which a home slice attaches (R189). -/
def sliceRouter (pa : Nat) : Nat × Nat :=
  let g := sliceGroup pa
  let j := homeSlice pa % 16
  (16 * (g % 2) + 4 * (j % 4), 8 * (g / 2) + 2 * (j / 4))

/-- The populated second-tier size of a port; that of another package is free (log entry 12). -/
def cxlSizeOf (s : State) (pkg port : Nat) : Nat :=
  if pkg = s.pkg.toNat then s.host.cxlSize.getD port 0 else Config.farCxlSize pkg port

/-- Order 3 of Table 10-6: whether an address exists. -/
def paExists (s : State) (pkg pa : Nat) : Bool :=
  if pkg != s.pkg.toNat && s.sysSize ≤ pkg then false
  else if paCxl pa then (pa - 0x80000000000) % 0x20000000000 < cxlSizeOf s pkg (cxlPort pa)
  else paHbm pa || paHost pa || paDev pa

/-- A key served by a CXL port whose link is down (R385). -/
def portDown (s : State) (key : Nat) : Bool :=
  keyPkg key == s.pkg.toNat && paCxl (keyPa key) && s.host.cxlState.getD (cxlPort (keyPa key)) 0 == 0

/-- Whether a Lyspor link is up: through which one a message goes is not given (log entry 5). -/
def linkUp (s : State) : Bool := s.host.lysState.any (· != 0)

/-- Whether an access to a key of another package waits for a link (R386). -/
def linkWait (s : State) (key : Nat) : Bool := keyPkg key != s.pkg.toNat && !linkUp s

/-- Whether a write-back of a line can reach its home now: neither its port (R385; log entry 78) nor its link keeps it. -/
def homeward (s : State) (line : Nat) : Bool := !portDown s (line * 128) && !linkWait s (line * 128)

/-! ## Page-table entries (Table 10-5) -/

def pteV (w : W64) : Bool := w.getLsbD 0
def pteT (w : W64) : Bool := w.getLsbD 1
def pteR (w : W64) : Bool := w.getLsbD 2
def pteW (w : W64) : Bool := w.getLsbD 3
def pteX (w : W64) : Bool := w.getLsbD 4
def pteU (w : W64) : Bool := w.getLsbD 5
def pteG (w : W64) : Bool := w.getLsbD 6
def pteMt (w : W64) : Nat := fld w 7 2
def ptePa (w : W64) : Nat := fld w 16 31 * 65536
def ptePkg (w : W64) : Nat := fld w 47 17
def pteUnc (w : W64) : Bool := pteMt w == 1

/-- log₂ of a leaf's page size by its level (Table 10-4). -/
def pageBits (level : Nat) : Nat := match level with | 0 => 16 | 1 => 21 | _ => 30

/-- Index of a level's table. -/
def levelIdx (level : Nat) (va : Nat) : Nat :=
  match level with
  | 3 => va / 2 ^ 43 % 8192
  | 2 => va / 2 ^ 30 % 8192
  | 1 => va / 2 ^ 21 % 512
  | _ => va / 2 ^ 16 % 32

/-- Table 10-6, orders 1 to 3, for a leaf at a level. -/
def leafOk (s : State) (level : Nat) (w : W64) : Bool :=
  level != 3 && fld w 12 4 == 0 && ptePa w % 2 ^ pageBits level == 0 && pteMt w ≤ 1 && (pteR w || !pteW w) &&
  paExists s (ptePkg w) (ptePa w) && paExists s (ptePkg w) (ptePa w + 2 ^ pageBits level - 1)

/-- Read one entry a level, from a table's key (R206, R207). -/
def walkFrom (s : State) (asid : BitVec 16) (va : Nat) : Nat → Nat → WalkRes
  | level, table =>
    let key := memKey s.pkg.toNat (table + 8 * levelIdx level va)
    let w := s.getW key
    if portDown s key then .down key
    else if !pteV w then .fault level
    else if pteT w then
      (match level with
       | 0 => .fault 0
       | l + 1 =>
         if fld w 12 4 != 0 || ptePkg w != s.pkg.toNat then .fault (l + 1) else walkFrom s asid va l (ptePa w))
    else if leafOk s level w then .leaf { base := va / 2 ^ pageBits level * 2 ^ pageBits level, level := level, asid := asid, pte := w }
    else .fault level

/-- The walk of an address under an ASID, through the ASID table (R206, R377). -/
def walk (s : State) (asid : BitVec 16) (va : Nat) : WalkRes :=
  let key := memKey s.pkg.toNat (s.asidBase + 8 * asid.toNat)
  let e := s.getW key
  if portDown s key then .down key
  else if !e.getLsbD 0 || fld e 1 15 != 0 || fld e 47 17 != 0 then .fault 3
  else walkFrom s asid va 3 (ptePa e)

/-- The keys of the entries that a walk reads, in order. -/
def walkKeysFrom (s : State) (va : Nat) : Nat → Nat → List Nat
  | level, table =>
    let key := memKey s.pkg.toNat (table + 8 * levelIdx level va)
    let w := s.getW key
    key :: (if portDown s key || !pteV w || !pteT w then []
      else match level with
        | 0 => []
        | l + 1 => if fld w 12 4 != 0 || ptePkg w != s.pkg.toNat then [] else walkKeysFrom s va l (ptePa w))

def walkKeys (s : State) (asid : BitVec 16) (va : Nat) : List Nat :=
  let key := memKey s.pkg.toNat (s.asidBase + 8 * asid.toNat)
  let e := s.getW key
  key :: (if portDown s key || !e.getLsbD 0 || fld e 1 15 != 0 || fld e 47 17 != 0 then [] else walkKeysFrom s va 3 (ptePa e))

/-- Whether a leaf serves an address of an ASID. -/
def Leaf.covers (l : Leaf) (asid : BitVec 16) (va : Nat) : Bool :=
  (l.asid == asid || pteG l.pte) && l.base == va / 2 ^ pageBits l.level * 2 ^ pageBits l.level

/-- The key a leaf gives an address. -/
def Leaf.key (l : Leaf) (va : Nat) : Nat := memKey (ptePkg l.pte) (ptePa l.pte + va % 2 ^ pageBits l.level)

/-- Permission of an access by a leaf's bits (Table 10-6, orders 4 and 5): PROT where it fails. Atomics need R and W
and take neither the host window nor device registers (R237). -/
def permOk (priv : Bool) (k : Access) (w : W64) (pa : Nat) : Bool :=
  (priv || pteU w) && (!paDev pa || (!pteU w && pteUnc w)) &&
  (match k with
   | .read | .region => pteR w
   | .write | .regionW => pteW w
   | .fetch => pteX w
   | .atomic => pteR w && pteW w && !paHost pa && !paDev pa
   | .scratch => true)

/-! ## Copies of the die L2 (R217) -/

def copyKey (line site : Nat) : Nat := line * 8 + site

def State.copy (s : State) (line site : Nat) : Option L2Copy := spFind s.l2 (copyKey line site)

/-- Whether bytes [o, o+n) of a copy are valid. -/
def L2Copy.has (c : L2Copy) (o n : Nat) : Bool := (List.range n).all fun i => c.valid.getLsbD (o + i)

/-- A byte as the die of a site holds it: its copy where that byte is valid, else home. -/
def diePeek (s : State) (site key : Nat) : Byte :=
  match s.copy (key / 128) site with
  | some c => if c.valid.getLsbD (key % 128) then c.data.getD (key % 128) 0 else s.getB key
  | none => s.getB key

/-! ## Code bytes (R26, R205, R351) -/

/-- The block of a PC in the L1 instruction cache. -/
def Core.l1iFind (c : Core) (pc : Nat) : Option L1IBlock :=
  c.l1i.find? fun b => b.vblk == pc / 32 && (b.asid == c.asid || pteG b.pte)

/-- The block of a PC as a fetch would read it, without one taking place; none where it cannot be fetched. -/
def codeBlock (s : State) (n : Nat) (priv : Bool) (pc : Nat) : Option (List Byte) :=
  let c := s.core n
  let a := pc / 32 * 32
  match c.l1iFind pc with
  | some b => if permOk priv .fetch b.pte 0 then some b.data else none
  | none =>
    let l := match c.tlb.find? (fun l => l.covers c.asid pc) with
      | some l => WalkRes.leaf l
      | none => walk s c.asid pc
    match l with
    | .leaf l =>
      if permOk priv .fetch l.pte (keyPa (l.key pc)) && !portDown s (l.key a) then
        some ((List.range 32).map fun i => if pteUnc l.pte then s.getB (l.key a + i) else diePeek s (siteOf s n) (l.key a + i))
      else none
    | _ => none

end Sys2Proof.Machine
end

