-- ==== Sys2Proof/Machine/Ops.lean ====
section
/-! DEFINITION. The named operations over the state: cores, firings, registers, guards, the end of an issue, memory
bytes, host-queue entries, launch credits, freeing a firing, and taking a trap (R351 to R355). -/

namespace Sys2Proof.Machine

/-! ## Registers (R40) -/

/-- s registers; s0 reads zero. -/
def Firing.getS (f : Firing) (r : Nat) : W64 := if r = 0 then 0 else spGet 0 f.s r

/-- A write to s0 is discarded (R36). -/
def Firing.setS (f : Firing) (r : Nat) (x : W64) : Firing := if r = 0 then f else { f with s := spPut 0 f.s r x }

/-- Lane L of v(r). -/
def Firing.getV (f : Firing) (r l : Nat) : W32 := spGet 0 f.v (32 * r + l)

def Firing.setV (f : Firing) (r l : Nat) (x : W32) : Firing := { f with v := spPut 0 f.v (32 * r + l) x }

/-- Write several lane words, keyed 32 × register + lane. -/
def Firing.putV (f : Firing) (xs : List (Nat × W32)) : Firing :=
  { f with v := xs.foldl (fun v e => spPut 0 v e.1 e.2) f.v }

def Firing.putS (f : Firing) (xs : List (Nat × W64)) : Firing := xs.foldl (fun f e => f.setS e.1 e.2) f

/-- The pair v(r), v(r+1) of lane L as 64 bits (R38). -/
def Firing.getV64 (f : Firing) (r l : Nat) : W64 := f.getV (r + 1) l ++ f.getV r l

def Firing.setV64 (f : Firing) (r l : Nat) (x : W64) : Firing :=
  (f.setV r l (x.extractLsb' 0 32)).setV (r + 1) l (x.extractLsb' 32 32)

/-- k predicates; k0 reads 1. -/
def Firing.getK (f : Firing) (i : Nat) : Bool := i == 0 || f.k.getLsbD i

def Firing.setK (f : Firing) (i : Nat) (b : Bool) : Firing :=
  if i = 0 then f
  else { f with k := if b then f.k ||| BitVec.ofNat 8 (2 ^ i) else f.k &&& ~~~ BitVec.ofNat 8 (2 ^ i) }

/-- q predicates; q0 reads all ones. -/
def Firing.getQ (f : Firing) (i : Nat) : W32 := if i = 0 then 0xFFFFFFFF else spGet 0 f.q i

def Firing.setQ (f : Firing) (i : Nat) (x : W32) : Firing := if i = 0 then f else { f with q := spPut 0 f.q i x }

/-! ## Paths and the program counter (R44, R118) -/

def Firing.path (f : Firing) : PathE := f.paths.getD f.cur {}

def Firing.setPath (f : Firing) (i : Nat) (p : PathE) : Firing := { f with paths := f.paths.set i p }

/-- The PC of the current path. -/
def Firing.pc (f : Firing) : W64 := f.path.pc

def Firing.setPc (f : Firing) (x : W64) : Firing := f.setPath f.cur { f.path with pc := x }

/-- pathmask of R56: every lane in a thread. -/
def Firing.mask (f : Firing) : W32 := if f.wave then f.path.mask else 0xFFFFFFFF

/-- Bits [55:0] of an address (R26, R188). -/
def va56 (x : W64) : W64 := x &&& 0x00FFFFFFFFFFFFFF

/-- NextPC of R27. -/
def nextPc (pc : W64) (l : Len) : W64 :=
  let n := pc + BitVec.ofNat 64 (lenBytes l)
  va56 (if fld n 0 5 == 28 then n + 4 else n)

/-! ## Guards (R54, R56, R58) -/

/-- The truth table's bit for three predicate bits. -/
def guardBit (h : Head) (a b c : Bool) : Bool := (~~~ h.ntt).getLsbD (4 * a.toNat + 2 * b.toNat + c.toNat)

/-- ScalarEnabled of R56. -/
def Firing.enS (f : Firing) (h : Head) : Bool :=
  guardBit h (f.getK h.pa.toNat) (f.getK h.pb.toNat) (f.getK h.pc.toNat)

/-- LaneEnabled of R56. -/
def Firing.enL (f : Firing) (h : Head) (l : Nat) : Bool :=
  guardBit h (bitAt (f.getQ h.pa.toNat) l) (bitAt (f.getQ h.pb.toNat) l) (bitAt (f.getQ h.pc.toNat) l) &&
  bitAt f.mask l

/-- The enabled lanes, ascending. -/
def Firing.enLanes (f : Firing) (h : Head) : List Nat := lanes.filter (f.enL h)

/-! ## The end of an issue: chain, latches, program counter (R27, R46 to R52) -/

/-- What an instruction leaves in its latch: nothing, a scalar word, a lane word a lane. -/
inductive LatchRes | none | s (x : W64) | v (xs : List W32)
  deriving DecidableEq, Repr

def chainAct (w : W64) : Bool := w.getLsbD 7
def chainLane (w : W64) : Bool := w.getLsbD 6
def chainPos (w : W64) : Nat := fld w 0 3
def chainSval (w : W64) : BitVec 4 := w.extractLsb' 8 4
def chainLval (w : W64) : BitVec 4 := w.extractLsb' 12 4

/-- A chain state word (Table 2-12). -/
def mkChain (pos : Nat) (lane : Bool) (sval lval : BitVec 4) : W64 :=
  BitVec.ofNat 64 (pos + (if lane then 64 else 0) + 128 + 256 * sval.toNat + 4096 * lval.toNat)

/-- The latches as the next position of the chain sees them: results move up by one (R48, R56). -/
def Firing.pushLatch (f : Firing) (lane : Bool) (r : LatchRes) : Firing :=
  let sv := (chainSval f.chain) <<< 1
  let lv := (chainLval f.chain) <<< 1
  let (sv, x) := match r with | .s x => (sv ||| 1, x) | _ => (sv, 0)
  let (lv, xs) := match r with | .v xs => (lv ||| 1, xs) | _ => (lv, List.replicate 32 0)
  { f with
    chain := mkChain (if chainAct f.chain then chainPos f.chain + 1 else 1) lane sv lv,
    ls := (x :: f.ls).take 4,
    lv := (xs :: f.lv).take 4 }

/-- The bookkeeping of an issue that took effect: the chain goes on under C = 1 and ends otherwise (R52), the skip
mark (R368) and the held translations go. -/
def Firing.endIssue (f : Firing) (lane c : Bool) (r : LatchRes) : Firing :=
  let f := { f with seq := f.seq + 1, skip := false, xl := [], hold := .none }
  if c then f.pushLatch lane r else { f with chain := 0, ls := [], lv := [] }

/-- An instruction that took effect and goes on in sequence. -/
def Firing.retire (f : Firing) (lane : Bool) (h : Head) (l : Len) (r : LatchRes) : Firing :=
  (f.endIssue lane h.c r).setPc (nextPc f.pc l)

/-- What a result leaves in its latch: a 32-bit one zero-extended, whatever extension its register gets (R49). -/
def latch32 (narrow : Bool) (x : W64) : W64 := if narrow then (x.setWidth 32).setWidth 64 else x

/-- A scalar-pipe instruction with one register result x, y in its latch (WriteS of R56; R49, R50, R51). -/
def Firing.writeLS (f : Firing) (h : Head) (l : Len) (d : Nat) (x y : W64) : Firing :=
  if f.enS h then (if h.nw then f else f.setS d x).retire false h l (.s y) else f.retire false h l (.s 0)

/-- The same with the register's value in the latch. -/
def Firing.writeS (f : Firing) (h : Head) (l : Len) (d : Nat) (x : W64) : Firing := f.writeLS h l d x x

/-- A lane-pipe instruction whose enabled lanes get g l (WriteV of R56; R50, R51). -/
def Firing.writeV (f : Firing) (h : Head) (l : Len) (d : Nat) (g : Nat → W32) : Firing :=
  let f' := if h.nw then f else f.putV ((f.enLanes h).map fun L => (32 * d + L, g L))
  f'.retire true h l (.v (lanes.map fun L => if f.enL h L then g L else 0))

/-- The same with 64-bit results (WriteV64): no latch. -/
def Firing.writeV64 (f : Firing) (h : Head) (l : Len) (d : Nat) (g : Nat → W64) : Firing :=
  let f' := f.putV ((f.enLanes h).flatMap fun L =>
    [(32 * d + L, (g L).extractLsb' 0 32), (32 * (d + 1) + L, (g L).extractLsb' 32 32)])
  f'.retire true h l .none

/-! ## Host-queue entries (R380, R381) -/

def leN (n x : Nat) : List Byte := bytesLE n (BitVec.ofNat (8 * n) x)

/-- bs cut or filled with zeros to n bytes. -/
def padTo (n : Nat) (bs : List Byte) : List Byte := (bs ++ List.replicate n 0).take n

/-- An entry of the device queue (R381). -/
def hostEntry (s : State) (kind site : Nat) (core : Option Nat) (detail : List Byte) : List Byte :=
  leN 2 kind ++ leN 2 site ++ leN 4 ((core.map (gcaOf s)).getD 0xFFFFFFFF) ++ bytesLE 8 (clkOf s 32) ++
  padTo 48 detail

/-- Bit k of the RDY bits: capability k is ready (R376). -/
def capReady (s : State) (k : Nat) : Bool := s.host.rdy.getLsbD k

/-- The device queue's target (R380). -/
def devTgt (h : HostSt) : Nat := natOfLE (h.devq.take 8)

/-- A host-window address as a memory key (Table 10-1). -/
def hostKey (s : State) (a : Nat) : Nat := memKey s.pkg.toNat (a % 2 ^ 47)

/-- The MSI-X vectors a tail add at an address gives (R380). -/
def msixFor (h : HostSt) (a : Nat) : List Nat :=
  h.irqs.filterMap fun e =>
    let w := w64OfLE (e.drop 8)
    if w.getLsbD 63 && natOfLE (e.take 7) == a then some (fld w 0 5) else none

/-- Whether a vector is masked in the MSI-X table (PRESUMED: the PCI Express layout; log entry 91). -/
def vecMasked (h : HostSt) (v : Nat) : Bool := (h.msixTable.getD (16 * v + 12) 0).getLsbD 0

/-- Send vectors; a masked one is kept pending in the PBA. -/
def sendVecs (h : HostSt) (vs : List Nat) : HostSt :=
  { h with msix := h.msix ++ vs.filter (fun v => !vecMasked h v),
           pba := (vs.filter (vecMasked h)).foldl (fun p v => p ||| BitVec.ofNat 32 (2 ^ v)) h.pba }

/-- Pending vectors that are no longer masked are sent. -/
def sendPending (h : HostSt) : HostSt :=
  let vs := (List.range 32).filter fun v => h.pba.getLsbD v && !vecMasked h v
  { h with msix := h.msix ++ vs, pba := vs.foldl (fun p v => p &&& ~~~ BitVec.ofNat 32 (2 ^ v)) h.pba }

/-- The device queue's pushed and sent counters (Table 12-5). -/
def devPushed (h : HostSt) : Nat := natOfLE ((h.devq.drop 0x28).take 8)
def devSent (h : HostSt) : Nat := natOfLE ((h.devq.drop 0x30).take 8)

/-- Entries enter the enabled device queue (R266, R380). -/
def devPush (h : HostSt) (es : List (List Byte)) : HostSt :=
  { h with queue := h.queue ++ es,
           devq := h.devq.take 0x28 ++ leN 8 (devPushed h + es.length) ++ h.devq.drop 0x30,
           dqMarked := if devPushed h = devSent h then devSent h else h.dqMarked }

/-- An entry arises: it is held until the queue is enabled, at most 1,024 of them (R380). -/
def pushHost (s : State) (e : List Byte) : State :=
  let h := s.host
  if capReady s 4 && devTgt h != 0 then { s with host := devPush h [e] }
  else if h.held.length < Config.heldCap then { s with host := { h with held := h.held ++ [e] } }
  else { s with host := { h with lost := if h.lost = 0xFFFFFFFF then h.lost else h.lost + 1 } }

/-- The header of Table 12-1 as 16 bytes. -/
def msgHeader (m : Msg) : List Byte :=
  bytesLE 8 (BitVec.ofNat 64 (m.dst.toNat + m.ch.toNat * 2 ^ 29 + m.hid.toNat * 2 ^ 32 + m.len.toNat * 2 ^ 40 +
    m.ord.toNat * 2 ^ 44 + m.typ.toNat * 2 ^ 45 + (m.ltag.toNat % 2 ^ 16) * 2 ^ 48)) ++
  bytesLE 8 (BitVec.ofNat 64 (m.ltag.toNat / 2 ^ 16 + m.stamp.toNat * 2 ^ 16))

/-- A DELIVERY entry (Table 18-4) with its reason code (Table 18-6). -/
def pushDelivery (s : State) (site : Nat) (core : Option Nat) (header : List Byte) (reason extra : Nat) : State :=
  pushHost s (hostEntry s 4 site core (padTo 16 header ++ leN 8 reason ++ leN 8 extra))

/-- One uncorrectable error more at a site (Table 18-3, capability 0x0005), up to the field's greatest count. -/
def countUncorr (s : State) (site : Nat) : State :=
  let u := s.host.uncorr
  { s with host := { s.host with uncorr := u.set site (if u.getD site 0 == 0xFFFFFFFF then 0xFFFFFFFF else u.getD site 0 + 1) } }

/-- An MCHECK entry (Table 18-4). -/
def pushMcheck (s : State) (site : Nat) (core : Option Nat) (pa unit : Nat) (syndrome : W64) : State :=
  pushHost s (hostEntry s 10 site core (leN 8 pa ++ leN 8 unit ++ bytesLE 8 syndrome))

/-! ## Launch credits (R273, R274) -/

/-- Whether a tag is counted (R270). -/
def counted (tag : W32) : Bool := fld tag 0 15 != 0

/-- The pool of a tag, most recently placed last. -/
def Core.pool (c : Core) (tag : W32) : Option Credit := c.credits.find? (fun e => e.tag == tag)

def Core.setPool (c : Core) (e : Credit) : Core :=
  if (c.pool e.tag).isSome then { c with credits := c.credits.map fun x => if x.tag == e.tag then e else x }
  else { c with credits := c.credits ++ [e] }

def Core.dropPool (c : Core) (tag : W32) : Core := { c with credits := c.credits.filter fun x => x.tag != tag }

/-- A pool returns its credits and its discarded total to the record's home. -/
def returnPool (s : State) (n : Nat) (tag : W32) : State :=
  match (s.core n).pool tag with
  | none => s
  | some e =>
    let s := s.setCore n ((s.core n).dropPool tag)
    { s with homeQ := s.homeQ ++ [.giveBack tag e.pool e.disc] }

/-- Make room for a tag's pool: a seventeenth tag displaces the oldest. -/
def roomForPool (s : State) (n : Nat) (tag : W32) : State :=
  let c := s.core n
  if (c.pool tag).isSome || c.credits.length < Config.creditCap then s
  else match c.credits with
    | [] => s
    | e :: _ => returnPool s n e.tag

/-- Add k credits and d discards to core n's pool of a tag; a pool above 128 returns all. -/
def poolAdd (s : State) (n : Nat) (tag : W32) (k d : Nat) : State :=
  if counted tag then
    let s := roomForPool s n tag
    let e := ((s.core n).pool tag).getD ⟨tag, 0, 0⟩
    let s := s.setCore n ((s.core n).setPool { e with pool := e.pool + k, disc := e.disc + d })
    if 128 < e.pool + k then returnPool s n tag else s
  else s

/-- Count k children off at core n (R273). -/
def countOff (s : State) (n : Nat) (tag : W32) (k : Nat) : State := if k = 0 then s else poolAdd s n tag k 0

/-- A message or record of a tag discarded at core n (R273). -/
def countDiscard (s : State) (n : Nat) (tag : W32) : State := poolAdd s n tag 1 1

/-- A send of a tag suppressed at core n (R281): no count, discarded +1. -/
def countSuppressed (s : State) (n : Nat) (tag : W32) : State := poolAdd s n tag 0 1

/-- Whether the core's filter holds a tag (R281). -/
def Core.filtered (c : Core) (tag : W32) : Bool := counted tag && c.filter.contains tag

/-! ## Units of a firing at a stop (R166, R186) -/

/-- OR flags into sr.fpst. -/
def Firing.orFlags (f : Firing) (fl : BitVec 6) : Firing := { f with fpst := f.fpst ||| fl.setWidth 64 }

/-- Whether flags meet a set enable bit (R137): NV to NX against sr.fpst[20:16]; IS has no enable. -/
def fpxHits (f : Firing) (fl : BitVec 6) : Bool := fl.setWidth 5 &&& f.fpst.extractLsb' 16 5 != (0 : BitVec 5)

/-- The matrix unit's result into its firing: the flags first, and nothing more where they raise FPX (R137, R186). -/
def Firing.matDone (f : Firing) (m : MatOp) : Firing :=
  if fpxHits f m.flags then f.orFlags m.flags else (f.putV m.vals).orFlags m.flags

/-- Wait for the firing's matrix-unit operation (R186). -/
def Core.finishMat (c : Core) (sl : Nat) : Core :=
  match c.mat, c.firing sl with
  | some m, some f => if m.slot = sl then { c.setFiring sl (f.matDone m) with mat := none } else c
  | _, _ => c

/-- Word of a discarded SFU entry's PC in the status words (Table 17-3). -/
def sfuWord (pc : W64) : W64 := va56 pc ||| 0x8000000000000000

/-- A discarded entry as it is reissued: its lanes are read anew, a latch's image excepted (R166, R53). -/
def SfuEnt.again (e : SfuEnt) : SfuEnt := { e with vals := match e.sa with | .lv _ => e.vals | _ => none }

/-- Discard the firing's SFU entries, recording the PCs and masks of the first two (R166). -/
def Core.discardSfu (c : Core) (sl : Nat) : Core :=
  match c.firing sl with
  | none => c
  | some f =>
    let mine := c.sfuQ.filter fun e => e.slot == sl
    let c := { c with sfuQ := c.sfuQ.filter fun e => e.slot != sl }
    let keep := mine.take 2 |>.map SfuEnt.again
    match keep with
    | [] => c
    | [a] => c.setFiring sl { f with sfu0 := sfuWord a.pc, sfu1 := 0, sfum := a.mask.setWidth 64, sfuDisc := keep }
    | a :: b :: _ => c.setFiring sl { f with sfu0 := sfuWord a.pc, sfu1 := sfuWord b.pc, sfum := b.mask ++ a.mask, sfuDisc := keep }

/-- Outstanding deposits go, and the queues of units forget the firing (R359). -/
def Core.dropUnits (c : Core) (sl : Nat) : Core :=
  { c with
    sfuQ := c.sfuQ.filter fun e => e.slot != sl,
    sampQ := c.sampQ.filter fun e => e.slot != sl,
    mat := match c.mat with | some m => if m.slot = sl then none else some m | none => none,
    trapQ := c.trapQ.filter fun x => x != sl }

/-! ## Ending a firing (R126, R252, R273, R359) -/

/-- Free the slot and the workspace; store-queue entries not yet at their points stay as a ghost (R359). -/
def Core.free (c : Core) (sl : Nat) (f : Firing) : Core :=
  let c := (c.dropUnits sl)
  let c := { c with firings := spDel c.firings sl,
                    subject := if sl = trapSlot || c.subject = some sl then none else c.subject,
                    subjRec := if sl = trapSlot then [] else c.subjRec }
  if f.sq.isEmpty && f.wbq.isEmpty then c
  else c.setFiring (ghostSlot + f.uid) { f with deps := [], hold := .none, rel := none, relMore := [], stop := 2, ns := 0, loss := false }

/-- End a firing by DONE or FKILL: count off what it consumed, free it (R126, R273, R359). -/
def endFiring (s : State) (n sl : Nat) (f : Firing) : State :=
  countOff (s.setCore n ((s.core n).free sl f)) n f.ltag f.taken

/-- FKILL of a live firing in any state (R359): stopped, its units' work abandoned, counted off, freed. -/
def killFiring (s : State) (n sl : Nat) : State :=
  match s.firing n sl with
  | none => s
  | some f => endFiring s n sl { f with stop := 1 }

/-! ## Taking a trap (R351 to R355) -/

/-- Bits [63:0] of the instruction at a PC, for a firing of core n; zero where it cannot be fetched. -/
def codeWord (s : State) (n sl : Nat) (pc : W64) : W64 :=
  match codeBlock s n (privileged (s.core n) sl) pc.toNat with
  | none => 0
  | some bs => w64OfLE ((bs.drop (pc.toNat % 32)).take 8)

/-- A cause with no address and no lane. -/
def cause (code : Nat) : TrapCause := { code := BitVec.ofNat 8 code }

/-- DATAERR at an address, physical or a scratchpad offset (R212). -/
def dataerr (a : Nat) : TrapCause := { code := 0x0E, addr := some (BitVec.ofNat 64 a) }

/-- FPX: value holds the flags raised (Table 17-2). -/
def fpxCause (fl : BitVec 6) : TrapCause := { code := 0x0F, value := fl.setWidth 64 }

/-- The trap record (Table 17-2). DATAERR (0x0E) is the one code that is not resumable. -/
def trapRecord (s : State) (n : Nat) (f : Firing) (t : TrapCause) (fpc rpc word : W64) : List W64 :=
  let flags := (if t.code == 0x0E then 0 else 1) + (if t.addr.isSome then 2 else 0) +
    (if t.lane.isSome then 4 else 0) + (if chainAct f.chain then 8 else 0)
  [BitVec.ofNat 64 (t.code.toNat + flags * 2 ^ 8 + (t.lane.getD 0) * 2 ^ 16 + t.kind.toNat * 2 ^ 24 +
     t.count.toNat * 2 ^ 32),
   fpc, rpc, t.addr.getD 0, t.value, t.aux, word, clkOf s (islandOf s n)]

/-- Stop a firing involuntarily (R353): its SFU entries discarded, its matrix operation awaited, the record and STOP
written. The store queue, deposits in flight and copy commands go on; a release that its next instruction had begun is
begun anew when that instruction issues again. -/
def Core.stopWith (c : Core) (sl : Nat) (stop : BitVec 4) (record : List W64) : Core :=
  let c := (c.discardSfu sl).finishMat sl
  match c.firing sl with
  | none => c
  | some f =>
    c.setFiring sl { f with stop := stop, hold := .none, xl := [], trec := record,
                            rel := match f.rel with | some r => if r.seq = f.seq then none else some r | none => none }

/-- Bytes 0x00 to 0x2F of a record, as a host entry's detail. -/
def recBytes (r : List W64) : List Byte := padTo 48 (r.flatMap (bytesLE 8))

/-- TRAP entry carrying a record (Table 18-4). -/
def pushTrap (s : State) (n kind : Nat) (record : List W64) : State :=
  pushHost s (hostEntry s kind (siteOf s n) (some n) (recBytes record))

/-- The firing as a trap leaves it, its record apart: LAST, no SKIP, the chain ended where the trap resumes past its
instruction; a register BREAK or WATCH is noted for the resumption (R368); ACKLOSS (0x0D) clears LOSS, LADDR and LCNT
(R352) and with them the releases that met it, which its resumption executes again. -/
def Firing.trapped (f : Firing) (t : TrapCause) : Firing :=
  let f := if t.next then { f with chain := 0, ls := [], lv := [] } else f
  let f := { f with last := t.code, skip := false, rbrk := t.code == 0x18 || (t.code == 0x17 && !t.next) }
  if t.code == 0x0D then { f with loss := false, laddr := 0, lcnt := 0, rel := none, relMore := [] } else f

/-- A firing stops at a trap with its record, at code fpc, resuming at rpc (R351 to R353). -/
def trapStop (s : State) (n sl : Nat) (t : TrapCause) (fpc rpc word : W64) : State :=
  match s.firing n sl with
  | none => s
  | some f =>
    let g := if t.next then { f with chain := 0 } else f
    s.setCore n (((s.core n).setFiring sl (f.trapped t)).stopWith sl 1 (trapRecord s n g t fpc rpc word))

/-- A trapped firing joins the core's trap queue (R354). -/
def Core.queueTrap (c : Core) (sl : Nat) : Core := { c with trapQ := if c.trapQ.contains sl then c.trapQ else c.trapQ ++ [sl] }

/-- The firing's matrix operation, where its flags raise FPX: whatever stops the firing, that is the trap taken (R137,
R186). -/
def Core.fpxDue (c : Core) (sl : Nat) : Option MatOp :=
  match c.mat, c.firing sl with
  | some m, some f => if m.slot = sl && fpxHits f m.flags then some m else none
  | _, _ => none

/-- The trap that stops a firing: FPX of its matrix operation, or the one given. -/
def trapOrFpx (s : State) (n sl : Nat) (t : TrapCause) (fpc rpc word : W64) : State :=
  match (s.core n).fpxDue sl with
  | some m => trapStop s n sl (fpxCause m.flags) m.pc m.pc m.word
  | none => trapStop s n sl t fpc rpc word

/-- Stop a running firing without a trap, for HALT, a swap or the halt of its core: code 0 in the record (R353, R360). FPX
of its matrix operation is a trap all the same. -/
def quietStop (s : State) (n sl : Nat) (stop : BitVec 4) : State :=
  match s.firing n sl with
  | none => s
  | some f =>
    match (s.core n).fpxDue sl with
    | some m => (trapStop s n sl (fpxCause m.flags) m.pc m.pc m.word).updCore n fun c => c.queueTrap sl
    | none => s.setCore n ((s.core n).stopWith sl stop (trapRecord s n f (cause 0) f.pc f.pc (codeWord s n sl f.pc)))

/-- Stop every running firing of a core. -/
def stopAll (s : State) (n : Nat) (stop : BitVec 4) : State :=
  ((s.core n).live.map (·.1)).foldl (fun s sl =>
    match s.firing n sl with
    | some f => if f.stopped then s else quietStop s n sl stop
    | none => s) s

/-- Every firing of the core stops and the core takes state halted (R355); a swap in progress is given up. -/
def haltCore (s : State) (n : Nat) : State := (stopAll s n 2).updCore n fun c => { c with cstate := 4, swapping := false }

/-- A trap of the trap handler (R355), which has stopped: all stop, the core halts, both records go to the host queue,
the subject's as it was at the handler's creation where the subject is gone. -/
def doubleTrap (s : State) (n : Nat) : State :=
  let c := s.core n
  let own := ((c.firing trapSlot).map (·.trec)).getD []
  let other := match c.subject.bind c.firing with | some f => f.trec | none => c.subjRec
  pushTrap (pushTrap (haltCore s n) n 9 own) n 9 other

/-- TAKING A TRAP (R351 to R355) at a PC, with the resume PC and the faulting instruction's word: the record and
LAST are written, the firing stops and joins the core's trap queue; in the trap handler it is a double trap. -/
def takeTrapAt (s : State) (n sl : Nat) (t : TrapCause) (fpc rpc word : W64) : State :=
  match s.firing n sl with
  | none => s
  | some _ =>
    let s := trapOrFpx s n sl t fpc rpc word
    if sl = trapSlot then doubleTrap s n else s.updCore n fun c => c.queueTrap sl

/-- A trap at the firing's current instruction; it resumes there, or past it where the cause says so (Table 17-1). -/
def takeTrap (s : State) (n sl : Nat) (t : TrapCause) (l : Len := .l64) : State :=
  match s.firing n sl with
  | none => s
  | some f => takeTrapAt s n sl t f.pc (if t.next then nextPc f.pc l else f.pc) (codeWord s n sl f.pc)

/-- Mark a deposit as data that never land. -/
def Firing.spoil (f : Firing) (seq a : Nat) : Firing :=
  { f with deps := f.deps.map fun d => if d.seq == seq then { d with src := .bad a } else d }

/-- A deposit whose data are in error and still wait for their trap. -/
def Firing.badDep (f : Firing) : Option (Dep × Nat) :=
  f.deps.findSome? fun d => match d.src with | .bad a => some (d, a) | _ => none

/-- A deposit's data are in error: they never land, and DATAERR comes at once unless the firing is stopped (R212). -/
def deliverBad (s : State) (n sl : Nat) (d : Dep) (a : Nat) : State :=
  match s.firing n sl with
  | none => s
  | some f =>
    let s := s.setFiring n sl (f.spoil d.seq a)
    if f.stopped then s else takeTrapAt s n sl (dataerr a) d.pc f.pc d.word

/-- MSGFMT with the offending field's value (Table 17-2). -/
def msgfmt (v : W64) : TrapCause := { code := 0x11, aux := v }

/-- A cause with an address, access kind and no walk. -/
def causeAt (code : Nat) (k : Access) (a : W64) (lane : Option Nat := none) (level : Nat := 15) : TrapCause :=
  let kn := match k with | .read => 0 | .write => 1 | .fetch => 2 | .atomic => 3 | .region | .regionW => 4 | .scratch => 5
  { code := BitVec.ofNat 8 code, lane := lane, kind := BitVec.ofNat 8 (level + 16 * kn), addr := some a }

/-! ## Returning from a trap (R358) -/

/-- Whether the chain word and the path table hold no reserved value (R360, Tables 2-12 and 2-13). -/
def Firing.tailOk (f : Firing) : Bool :=
  fld f.chain 16 48 == 0 && fld f.chain 3 3 == 0 &&
  f.paths.all fun p => p.st.toNat ≤ 3 && fld p.pri 3 5 == 0 && fld p.pc 56 8 == 0

/-- RETURN FROM A TRAP: the firing runs on at its record's rpc, with MODE set, STOP cleared and the firing out of the
trap queue (R358, steps 2 to 5); SKIP is set after a register BREAK or WATCH (R368). -/
def Core.resume (c : Core) (sl : Nat) (mode : BitVec 2) : Core :=
  match c.firing sl with
  | none => c
  | some f =>
    let rpc := f.trec.getD 2 0
    let f := { f with mode := mode, stop := 0, sfu0 := 0, sfu1 := 0, sfum := 0, sfuDisc := [], skip := f.skip || f.rbrk, rbrk := false,
                      depth := if mode == 2 then 0 else f.depth }
    let c := c.setFiring sl (f.setPc (va56 rpc))
    { c with trapQ := c.trapQ.filter fun x => x != sl, subject := if c.subject = some sl then none else c.subject }

end Sys2Proof.Machine
end

