-- ==== Sys2Proof/Machine/HostRegs.lean ====
section
/-! DEFINITION. The device-register range as it reads (R374 to R376, Tables 18-1 to 18-3): capability headers, their
bodies, the MSI-X table and its pending bits. The places of the registers inside a body that the spec does not give are log entry 18's. -/

namespace Sys2Proof.Machine

/-- Body lengths of capabilities 1 to 9. -/
def capLen (k : Nat) : Nat := [0, 0x18, 0x30, 0x20, 0x248, 0x90, 0x28, 0x40, 0x80, 0x80].getD k 0

/-- BAR0 offset of a capability's header. -/
def capOff (k : Nat) : Nat := (k - 1) * 0x1000

/-- The header of Table 18-2. -/
def capHeader (s : State) (k : Nat) : List Byte :=
  leN 4 (k + 2 ^ 16 + (if capReady s k then 2 ^ 31 else 0)) ++ leN 4 (if k = 9 then 0 else capOff (k + 1)) ++ leN 4 (capLen k) ++
  leN 4 0

/-- The part code of capability 1. -/
def partCode (s : State) : Nat := match s.part with | .pz48 => 0x0408 | .pz47 _ => 0x0407

/-- The core-presence mask: virtual dies that have cores (R2). -/
def presence (s : State) : Nat := maskOf 8 fun d => siteActive s (siteOfDie s d)

/-- The body of a capability (Table 18-3), as bytes. -/
def capBody (s : State) (k : Nat) : List Byte :=
  let h := s.host
  match k with
  | 1 => leN 4 (partCode s) ++ leN 4 s.pkg.toNat ++ leN 4 s.sysSize ++ leN 1 (presence s) ++ leN 1 s.diesReady.toNat ++
      leN 2 0 ++ leN 8 0
  | 2 => padTo 32 h.nonce ++ bytesLE 8 h.attAddr ++ leN 4 0 ++ [h.attStatus, 0, 0, 0]
  | 3 => bytesLE 8 h.imgAddr ++ bytesLE 8 h.imgLen ++ bytesLE 2 h.imgAsid ++ leN 2 0 ++ leN 4 0 ++ [h.imgStatus] ++ leN 7 0
  | 4 => padTo 64 h.devq ++ padTo 512 (h.irqs.flatMap (padTo 16)) ++ bytesLE 4 h.lost ++ leN 4 0
  | 5 => leN 8 h.bar4Base ++ leN 8 s.asidBase ++ (List.range 8).flatMap fun i =>
      leN 8 0xC00000000 ++ bytesLE 4 (h.corrected.getD i 0) ++ bytesLE 4 (h.uncorr.getD i 0)
  | 6 => leN 8 s.launchBase ++ leN 8 s.canopyBase ++ bytesLE 2 s.canopyAsid ++ leN 6 0 ++ leN 8 s.waitBase ++ leN 8 s.waitSize
  | 7 => (List.range 4).flatMap fun i => [h.cxlState.getD i 0] ++ leN 7 0 ++ leN 8 (h.cxlSize.getD i 0)
  | 8 => (List.range 8).flatMap fun i =>
      [h.lysState.getD i 0] ++ leN 3 0 ++ leN 4 (h.lysNear.getD i 0).toNat ++ bytesLE 4 (h.lysErr.getD i 0) ++ leN 4 0
  | 9 => bytesLE 2 h.limit ++ leN 6 0 ++ (List.range 40).map (fun i => BitVec.ofNat 8 (h.clocks.getD i 0)) ++
      (List.range 40).flatMap fun i => bytesLE 2 (h.temps.getD i 0)
  | _ => []

/-- A byte of the device-register range: while RDY is 0 a body reads zero (R376); a byte that no register holds reads
zero. -/
def devByte (s : State) (off : Nat) : Byte :=
  if 0xF0010000 ≤ off then (leN 8 s.host.pba.toNat).getD (off - 0xF0010000) 0
  else if 0xF0000000 ≤ off then s.host.msixTable.getD (off - 0xF0000000) 0
  else
    let k := off / 0x1000 + 1
    let o := off % 0x1000
    if 9 < k then 0
    else if o < 16 then (capHeader s k).getD o 0
    else if capReady s k then (capBody s k).getD (o - 16) 0
    else 0

/-- What an I3C access reads of the device registers: the bodies of capabilities 1, 8 and 9, without a change (R386). -/
def i3cRead (s : State) (k o : Nat) : Option Byte :=
  if k = 1 || k = 8 || k = 9 then (if capReady s k then some ((capBody s k).getD o 0) else some 0) else none

def devRead (s : State) (off n : Nat) : List Byte := (List.range n).map fun i => devByte s (off + i)

end Sys2Proof.Machine
end

