-- ==== Sys2Proof/Machine/Operands.lean ====
section
/-! DEFINITION. Operand forms: what a source code reads (R34, R35, R37, R56), and effective addresses (R192). -/

namespace Sys2Proof.Machine

/-- SrcS of R56 for integer and bit operands. A lane latch never reaches execution (R48). -/
def Firing.srcS (f : Firing) : SSrc → W64
  | .reg r => f.getS r.toNat
  | .ls i => f.ls.getD i.toNat 0
  | .lv _ => 0
  | .const i => constInt 64 i

/-- Source B, or I32 sign-extended (R87). -/
def Firing.srcSI (f : Firing) : SSrcI → W64
  | .src a => f.srcS a
  | .imm i => i.signExtend 64

/-- SrcV of R56 for integer and bit operands; a scalar register gives its low 32 bits to every lane (R37). -/
def Firing.srcV (f : Firing) (l : Nat) : LSrc → W32
  | .reg v => f.getV v.toNat l
  | .ls _ => 0
  | .lv i => (f.lv.getD i.toNat []).getD l 0
  | .const i => constInt 32 i
  | .sreg r => (f.getS r.toNat).setWidth 32

def Firing.srcVI (f : Firing) (l : Nat) : LSrcI → W32
  | .src a => f.srcV l a
  | .imm i => i

/-- A memory form's operand code in a field read as a scalar register number or constant. -/
def Firing.srcR (f : Firing) (r : BitVec 6) : W64 := f.getS r.toNat

/-- Size in bytes of a size code (Table 10-3). -/
def sizeOf (sz : BitVec 3) : Nat := 2 ^ sz.toNat

/-- EA of R192, scalar forms. -/
def Firing.eaS (f : Firing) (a : SSrc) (idx : MemIdx) (size : Nat) : W64 :=
  match idx with
  | .idx b x => f.srcS a + f.srcS b * (if x then BitVec.ofNat 64 size else 1)
  | .disp i => f.srcS a + i.signExtend 64

/-- The lane index of R192, as a signed 32-bit value. -/
def Firing.laneIdx (f : Firing) (b : LSrc) (l : Nat) : W64 := (f.srcV l b).signExtend 64

/-- EA of R192, lane forms. -/
def Firing.eaV (f : Firing) (a : SSrc) (b : LSrc) (x : Bool) (disp : Option W32) (size l : Nat) : W64 :=
  let i := f.laneIdx b l
  match disp with
  | none => f.srcS a + i * (if x then BitVec.ofNat 64 size else 1)
  | some d => f.srcS a + i + d.signExtend 64

/-- The offset of LDX and STX (R192): A64 scales by the X bit. -/
def Firing.offX (f : Firing) (off : SSrc) (x : Bool) (disp : Option W32) (size : Nat) : W64 :=
  match disp with
  | none => f.srcS off * (if x then BitVec.ofNat 64 size else 1)
  | some d => f.srcS off + d.signExtend 64

/-- A branch target (R114): pc plus four times the offset in words, bits [55:0]. -/
def branchTo (base : W64) (off : Imm) : W64 :=
  let o : W64 := match off with | .i17 i => i.signExtend 64 | .i32 i => i.signExtend 64
  va56 (base + 4 * o)

/-- The length of a form whose immediate is I17 or I32. -/
def lenImm : Imm → Len
  | .i17 _ => .l64
  | .i32 _ => .l96

/-- The length of a memory form by its index. -/
def lenIdx : MemIdx → Len
  | .idx _ _ => .l64
  | .disp _ => .l96

/-- The handler control field (R257). -/
def Firing.hidOf (f : Firing) : HidOp → BitVec 8
  | .num h => h
  | .reg r => (f.getS r.toNat).setWidth 8

end Sys2Proof.Machine
end

