-- ==== Sys2Proof/Machine/Memory.lean ====
section
/-! DEFINITION. The memory system: translation (R204 to R209) with the walker pool, L1 (R203 to R205), the die L2's copies
(R216 to R219), writes at home, and what a load reads (R195, R216, R220). -/

namespace Sys2Proof.Machine

/-! ## Home reads and the translation cache (R206) -/

/-- Bytes at home as an access reads them: device registers from the register block (R374), memory otherwise. -/
def homeBs (s : State) (key n : Nat) : List Byte :=
  if keyPkg key == s.pkg.toNat && paDev (keyPa key) then devRead s (keyPa key - 0x200000000000) n else s.getBs key n

/-- Before a read at a home in another package, the bytes there take what others have stored: free (log entry 12). -/
def farSync (s : State) (key n : Nat) : State :=
  if keyPkg key = s.pkg.toNat then s
  else { s with
    fresh := s.fresh + 1
    mem := (List.range n).foldl (fun m i => match Config.farByte s.fresh (key + i) with
      | some b => spPut 0 m (key + i) b
      | none => m) s.mem }

/-- A read at home: the state after it, and the bytes. -/
def homeRead (s : State) (key n : Nat) : State × List Byte := let t := farSync s key n; (t, homeBs t key n)

/-- Choose a victim among n entries of a cache (log entry 9). -/
def pickVictim (s : State) (cache n : Nat) : Nat := if n = 0 then 0 else Config.victim cache s.fresh n % n

/-- A leaf enters the translation cache (R206). -/
def tlbInsert (s : State) (n : Nat) (l : Leaf) : State :=
  let c := s.core n
  let rest := c.tlb.filter fun x => !(x.asid == l.asid && x.base == l.base && x.level == l.level)
  let rest := if Config.tlbCap ≤ rest.length then listRemove rest (pickVictim s 2 rest.length) else rest
  { s.setCore n { c with tlb := rest ++ [l] } with fresh := s.fresh + 1 }

/-! ## The walker pool (R206) -/

/-- The page in which a walk stands: 64 KiB, the least page size (log entry 94). -/
def walkPage (va : Nat) : Nat := va / 65536

/-- The walk of a site's pool for an address of an ASID. -/
def State.poolWalk (s : State) (site : Nat) (asid : BitVec 16) (va : Nat) : Option Walk :=
  s.walks.find? fun w => w.site == site && w.asid == asid && w.page == walkPage va

/-- Whether a firing of the site waits for a walk. -/
def State.walkWanted (s : State) (w : Walk) : Bool :=
  s.cores.any fun e => siteOf s e.1 == w.site && e.2.asid == w.asid && e.2.live.any fun x => match x.2.hold with
    | .walk va _ _ => walkPage va == w.page
    | _ => false

/-- Whether a walk has one of its site's walkers: the first that arose and are still waited for have them. -/
def State.walking (s : State) (w : Walk) : Bool :=
  ((s.walks.filter fun x => x.site == w.site && s.walkWanted x).take Config.walkers).contains w

/-- A walk that no firing waits for any more leaves the pool. -/
def State.pruneWalks (s : State) : State := { s with walks := s.walks.filter s.walkWanted }

/-- A miss: the firing waits, and its walk joins one in progress for the same ASID and page or enters the pool (R204,
R206). -/
def holdWalk (s : State) (n sl : Nat) (f : Firing) (va : Nat) (k : Access) (lane : Option Nat) : State :=
  let s := s.setFiring n sl { f with hold := .walk va k lane }
  let site := siteOf s n
  let a := (s.core n).asid
  if (s.poolWalk site a va).isSome then s
  else { s with walks := s.walks ++ [{ site := site, asid := a, page := walkPage va }] }

/-- What the tables give an address of core n now: the result of a walk of the pool that has been made, else a walk. -/
def walkAt (s : State) (n : Nat) (asid : BitVec 16) (va : Nat) : WalkRes :=
  match (s.poolWalk (siteOf s n) asid va).bind (·.res) with
  | some r => r
  | none => walk s asid va

/-! ## L1 (R203) -/

/-- Drop the L1 lines of an address that the core's ASID matches. -/
def Core.l1Drop (c : Core) (va : Nat) : Core :=
  { c with l1d := c.l1d.filter fun x => !(x.vline == va / 128 && (x.asid == c.asid || pteG x.pte)) }

/-- The L1 line of an address. -/
def Core.l1Find (c : Core) (va : Nat) : Option L1Line :=
  c.l1d.find? fun x => x.vline == va / 128 && (x.asid == c.asid || pteG x.pte)

/-- The L1 line that holds an address under the physical line of a key. -/
def Core.l1For (c : Core) (va key : Nat) : Option L1Line := (c.l1Find va).filter fun x => x.pline == key / 128

/-- What translation of an access finds: a key and whether its page is uncached, a trap, or a miss that needs a walk. -/
inductive XRes | hit (key : Nat) (unc : Bool) | trap (t : TrapCause) | miss
  deriving DecidableEq, Repr

/-- PROT at an address (Table 17-2: level of the walk that served it, 15 for none). -/
def protAt (k : Access) (va : Nat) (lane : Option Nat) (level : Nat) : TrapCause :=
  causeAt 0x0B k (BitVec.ofNat 64 va) lane level

/-- Translate through L1, the translation cache and the walks the firing has waited for (R204, R206). -/
def xlate (c : Core) (xl : List Leaf) (priv : Bool) (k : Access) (va : Nat) (lane : Option Nat) : XRes :=
  match c.l1Find va with
  | some ln =>
    let key := ln.pline * 128 + va % 128
    if permOk priv k ln.pte (keyPa key) then .hit key false else .trap (protAt k va lane 15)
  | none =>
    match xl.find? (fun l => l.covers c.asid va) with
    | some l =>
      if permOk priv k l.pte (keyPa (l.key va)) then .hit (l.key va) (pteUnc l.pte) else .trap (protAt k va lane l.level)
    | none =>
      match c.tlb.find? (fun l => l.covers c.asid va) with
      | some l =>
        if permOk priv k l.pte (keyPa (l.key va)) then .hit (l.key va) (pteUnc l.pte) else .trap (protAt k va lane 15)
      | none => .miss

/-- The leaf that serves an address now, if one is held. -/
def heldLeaf (c : Core) (xl : List Leaf) (va : Nat) : Option Leaf :=
  match xl.find? (fun l => l.covers c.asid va) with
  | some l => some l
  | none => c.tlb.find? fun l => l.covers c.asid va

/-- The leaf that translates an access which misses L1: the one that its line takes when it is allocated (R203). -/
def missLeaf (c : Core) (xl : List Leaf) (va : Nat) : Option Leaf :=
  if (c.l1Find va).isSome then none else heldLeaf c xl va

/-! ## Copies of the die L2 (R217) -/

def State.setCopy (s : State) (line site : Nat) (c : L2Copy) : State := { s with l2 := spIns s.l2 (copyKey line site) c }

def allValid : BitVec 128 := BitVec.allOnes 128

/-- The home's line. -/
def State.homeLine (s : State) (line : Nat) : List Byte := s.getBs (line * 128) 128

/-! ## Writes -/

/-- Apply a function to every core listed. -/
def State.mapCores (s : State) (g : Nat → Core → Core) : State :=
  { s with cores := s.cores.map fun e => (e.1, g e.1 e.2) }

/-- The home invalidates L1 lines of its own die before a store is visible (R217); keep names the one line that the
store itself updates. -/
def l1Invalidate (s : State) (line : Nat) (keep : Option (Nat × Nat)) : State :=
  let site := homeSite s (line * 128)
  s.mapCores fun n c =>
    if siteOf s n = site then
      { c with l1d := c.l1d.filter fun x =>
          x.pline != line || (match keep with | some (m, vl) => n == m && x.vline == vl && (x.asid == c.asid || pteG x.pte) | none => false) }
    else c

/-- Update the issuing core's L1 line for an address (R214). -/
def l1Update (s : State) (n : Nat) (va : Nat) (b : Byte) : State :=
  s.updCore n fun c =>
    { c with l1d := c.l1d.map fun x =>
        if x.vline == va / 128 && (x.asid == c.asid || pteG x.pte) then { x with data := x.data.set (va % 128) b } else x }

/-- Bytes written at home, one line or more; iss names the issuing core and the address of each byte's L1 line. -/
def homeWrite (s : State) (cells : List (Nat × Byte)) (iss : Option (Nat × Nat)) : State :=
  cells.foldl (fun s e => l1Invalidate (s.putB e.1 e.2) (e.1 / 128) iss) s

/-- Whether a copy has dirty bytes. -/
def L2Copy.isDirty (c : L2Copy) : Bool := c.dirty != 0

/-- Write a copy's dirty bytes home (R218, R219): the line leaves every dirty list of the die's cores. -/
def writeBack (s : State) (site line : Nat) : State :=
  match s.copy line site with
  | none => s
  | some c =>
    let cells := (List.range 128).filterMap fun i => if c.dirty.getLsbD i then some (line * 128 + i, c.data.getD i 0) else none
    let s := homeWrite s cells none
    let s := s.setCopy line site { c with dirty := 0 }
    s.mapCores fun n x => if siteOf s n = site then { x with dirty := x.dirty.filter (· != line) } else x

/-- A die's copy leaves L2 (R219). -/
def evictCopy (s : State) (site line : Nat) : State :=
  let s := writeBack s site line
  { s with l2 := spDel s.l2 (copyKey line site) }

/-- A line is entered in a core's dirty list; a full list sets the overflow mark (R226). -/
def markDirty (c : Core) (line : Nat) : Core :=
  if c.dirty.contains line then c
  else if Config.dirtyCap ≤ c.dirty.length then { c with dirtyOvf := true }
  else { c with dirty := c.dirty ++ [line] }

/-! ## Room in the die L2 (R21, R219) -/

/-- Copies of a site in the set of a line (log entry 9). -/
def State.copySet (s : State) (line site : Nat) : List Nat :=
  (s.l2.filter fun e => e.1 % 8 == site && e.1 / 8 % Config.l2Sets == line % Config.l2Sets).map (·.1 / 8)

/-- Whether a line has its copy in a site's L2, or room for one: sixteen ways (R21). -/
def hasRoom (s : State) (line site : Nat) : Bool := (s.copy line site).isSome || (s.copySet line site).length < Config.l2Ways

/-- The copies of the set of a line that can leave it: one with dirty bytes only where they can go home. -/
def State.victims (s : State) (line site : Nat) : List Nat :=
  (s.copySet line site).filter fun l => homeward s l || !((s.copy l site).map L2Copy.isDirty).getD false

/-- Whether a site's L2 can take a copy of a line. -/
def canCopy (s : State) (line site : Nat) : Bool := hasRoom s line site || !(s.victims line site).isEmpty

/-- A full set gives up a victim before it takes a new copy (log entry 78). -/
def makeRoom (s : State) (line site : Nat) : State :=
  if hasRoom s line site then s
  else
    let xs := s.victims line site
    match xs[pickVictim s 4 xs.length]? with
    | some l => { evictCopy s site l with fresh := s.fresh + 1 }
    | none => s

/-- A copy filled from home, the fetched line under its dirty bytes (R217); a set that can give up none takes no copy. -/
def fillCopy (s : State) (line site : Nat) : State :=
  let ok := canCopy s line site
  let s := farSync (makeRoom s line site) (line * 128) 128
  let h := s.homeLine line
  match s.copy line site with
  | none => if ok then s.setCopy line site { valid := allValid, dirty := 0, data := h } else s
  | some c =>
    s.setCopy line site { valid := allValid, dirty := c.dirty,
                          data := (List.range 128).map fun i => if c.dirty.getLsbD i then c.data.getD i 0 else h.getD i 0 }

/-- The bytes of a line as a site's L2 holds them: its copy, else home. -/
def lineAt (s : State) (site line : Nat) : List Byte := ((s.copy line site).map (·.data)).getD (s.homeLine line)

/-- Whether a site's L2 holds n bytes of another site's line from a key (R216, R217). -/
def copyHas (s : State) (site key n : Nat) : Bool :=
  homeSite s key != site && (s.copy (key / 128) site).any fun c => c.has (key % 128) n

/-- Read n bytes of one line as the die of a site sees them, filling its copy where a byte is invalid (R216, R217). -/
def dieRead (s : State) (site key n : Nat) (unc : Bool) : State × List Byte :=
  if unc || homeSite s key = site then homeRead s key n
  else
    let t := if copyHas s site key n then s else fillCopy s (key / 128) site
    (t, ((lineAt t site (key / 128)).drop (key % 128)).take n)

/-- The whole line as the die holds it, where it is wholly valid: the source of an L1 fill (R203). -/
def wholeLine (s : State) (site line : Nat) : Option (List Byte) :=
  if homeSite s (line * 128) = site then some (s.homeLine line)
  else match s.copy line site with
    | some c => if c.valid = allValid then some c.data else none
    | none => none

/-- A line enters L1 (R203): its set holds four. -/
def l1Insert (s : State) (n : Nat) (va : Nat) (l : Leaf) : State :=
  let c := s.core n
  let line := l.key va / 128
  match wholeLine s (siteOf s n) line with
  | none => s
  | some d =>
    let set := va / 128 % 128
    let rest := c.l1d.filter fun x => !(x.vline == va / 128 && (x.asid == c.asid || pteG x.pte))
    let inSet := rest.filter fun x => x.vline % 128 == set
    let rest := if Config.l1Ways ≤ inSet.length then
        (match inSet[pickVictim s 0 inSet.length]? with | some v => rest.erase v | none => rest) else rest
    let new : L1Line := { vline := va / 128, asid := c.asid, pte := l.pte, pline := line, data := d }
    { s.setCore n { c with l1d := rest ++ [new] } with fresh := s.fresh + 1 }

/-- An .E byte into the issuing die's copy: valid and dirty (R214, R217). -/
def copyWrite (s : State) (site key : Nat) (b : Byte) : State :=
  let line := key / 128
  let o := key % 128
  let bit : BitVec 128 := BitVec.ofNat 128 (2 ^ o)
  let s := makeRoom s line site
  let c := (s.copy line site).getD { valid := 0, dirty := 0, data := List.replicate 128 0 }
  s.setCopy line site { valid := c.valid ||| bit, dirty := c.dirty ||| bit, data := c.data.set o b }

/-- The clean valid bytes of the issuing die's copy take a .G store's value (R214). -/
def copyUpdate (s : State) (site key : Nat) (b : Byte) : State :=
  let line := key / 128
  match s.copy line site with
  | none => s
  | some c =>
    if c.valid.getLsbD (key % 128) then s.setCopy line site { c with data := c.data.set (key % 128) b } else s

/-- The clean bytes of a site's copies go; dirty bytes stay (R227). -/
def dropClean (s : State) (site : Nat) : State :=
  { s with l2 := s.l2.filterMap fun e =>
      if e.1 % 8 = site then (if e.2.isDirty then some (e.1, { e.2 with valid := e.2.dirty }) else none) else some e }

/-- Dirty copy lines of a die. -/
def dirtyLines (s : State) (site : Nat) : List Nat :=
  s.l2.filterMap fun e => if e.1 % 8 == site && e.2.isDirty then some (e.1 / 8) else none

/-! ## Loads (R195, R216) -/

/-- Bytes an entry of the store queue forwards: virtual address and value. -/
def Ent.cells (e : Ent) : List Cell :=
  match e.op with
  | .store _ _ cs => cs
  | .rwrite cs => cs
  | _ => []

/-- The youngest earlier store of the firing to a virtual address (R195). -/
def forwardByte (f : Firing) (seq va : Nat) : Option Byte :=
  (f.sq.filter fun e => e.seq < seq).foldl (fun acc e =>
    e.cells.foldl (fun acc c => if c.va == va then some c.b else acc) acc) none

/-- Whether an outstanding atomic of the firing covers a byte (R237). -/
def atomCovers (f : Firing) (seq va : Nat) : Bool :=
  f.sq.any fun e => e.seq < seq &&
    match e.op with
    | .atom accs _ => accs.any fun a => a.va ≤ va && va < a.va + a.size
    | _ => false

/-- Bytes of an access as the core reads them now: L1, then the die, then home; with the state after the fills. The line
that is allocated takes the leaf which translated the access (R203). -/
def coreRead (s : State) (n : Nat) (xl : Option Leaf) (va key size : Nat) (unc : Bool) : State × List Byte :=
  match (if unc then none else (s.core n).l1For va key) with
  | some ln => (s, (ln.data.drop (va % 128)).take size)
  | none =>
    let r := dieRead s (siteOf s n) key size unc
    match xl with
    | some l => if unc then r else (l1Insert r.1 n va l, r.2)
    | none => r

/-- Whether the firing's own earlier stores hold every byte of an access (R195, R216). -/
def Acc.forwarded (f : Firing) (seq : Nat) (a : Acc) : Bool :=
  (List.range a.size).all fun i => (forwardByte f seq (a.va + i)).isSome

/-- An access's value: memory with the firing's own earlier stores over it; these alone where they hold every byte. -/
def accRead (s : State) (n : Nat) (f : Firing) (seq : Nat) (a : Acc) : State × List Byte :=
  match a.got with
  | some bs => (s, bs)
  | none =>
    let r := if a.forwarded f seq then (s, List.replicate a.size 0) else coreRead s n a.leaf a.va a.pa a.size a.unc
    (r.1, (r.2.zipIdx).map fun e => (forwardByte f seq (a.va + e.2)).getD e.1)

/-- Whether an access is served without its home: its value is fixed already, or the firing's queue, L1 or the die's copy
has its bytes (R216). -/
def Acc.near (s : State) (n : Nat) (f : Firing) (seq : Nat) (a : Acc) : Bool :=
  a.got.isSome || a.forwarded f seq ||
  (!a.unc && (((s.core n).l1For a.va a.pa).isSome || copyHas s (siteOf s n) a.pa a.size))

/-- Whether an access asks a home that its CXL port does not serve (R385). -/
def Acc.down (s : State) (n : Nat) (f : Firing) (seq : Nat) (a : Acc) : Bool := portDown s a.pa && !a.near s n f seq

/-- Whether a load's access waits for a link to its home (R386). -/
def Acc.waits (s : State) (n : Nat) (f : Firing) (seq : Nat) (a : Acc) : Bool := linkWait s a.pa && !a.near s n f seq

/-- Whether an access may be performed: no outstanding atomic of the firing covers it. -/
def accReady (f : Firing) (seq : Nat) (a : Acc) : Bool :=
  a.got.isSome || (List.range a.size).all fun i => !atomCovers f seq (a.va + i)

/-- The aligned 8-byte granules of an access (R220). -/
def Acc.grans (a : Acc) : List Nat := (List.range ((a.pa + a.size - 1) / 8 - a.pa / 8 + 1)).map (a.pa / 8 + ·)

/-- Whether two accesses touch one aligned 8-byte granule. -/
def sameGranule (a b : Acc) : Bool :=
  a.pa / 8 ≤ (b.pa + b.size - 1) / 8 && b.pa / 8 ≤ (a.pa + a.size - 1) / 8

/-- Whether an access of a load before another of the firing is still to be performed at one of its granules (R220). -/
def olderLoad (f : Firing) (d : Dep) (accs : List Acc) : Bool :=
  f.deps.any fun e => e.seq < d.seq && match e.src with
    | .load xs => xs.any fun x => x.got.isNone && accs.any (sameGranule x)
    | _ => false

/-- Perform access j of deposit i: its value is fixed, and what it fills is filled (R216); at a port that is down its data
are in error (R385). -/
def perform (s : State) (n sl i j : Nat) : State :=
  match s.firing n sl with
  | none => s
  | some f =>
    match f.deps[i]? with
    | none => s
    | some d =>
      match d.src with
      | .load accs =>
        (match accs[j]? with
         | none => s
         | some a =>
           if a.down s n f d.seq then s.setFiring n sl (f.spoil d.seq (keyPa a.pa)) else
           let r := accRead s n f d.seq a
           r.1.setFiring n sl { f with deps := f.deps.set i { d with src := .load (accs.set j { a with got := some r.2 }) } })
      | _ => s

/-- The accesses that a store of later place fixes: those at a granule of its bytes, and older ones at a granule of
these (R220), in program order. -/
def captured (f : Firing) (seq : Nat) (pas : List Nat) : List (Nat × Nat) :=
  ((f.deps.zipIdx).foldr (fun e r =>
    match e.1.src with
    | .load accs =>
      if e.1.seq < seq then
        let hit := (accs.zipIdx).filter fun x => x.1.got.isNone && x.1.grans.any r.1.contains
        (r.1 ++ hit.flatMap (·.1.grans), hit.map (fun x => (e.2, x.2)) ++ r.2)
      else r
    | _ => r) ((pas.map (· / 8)).eraseDups, [])).2

/-- Whether an access that a later store fixes waits for a link, and with it the store (R386). -/
def captureWaits (s : State) (n : Nat) (f : Firing) (seq : Nat) (pas : List Nat) : Bool :=
  (captured f seq pas).any fun x => match f.deps[x.1]? with
    | some d => (match d.src with
      | .load accs => (accs[x.2]?).any (Acc.waits s n f d.seq)
      | _ => false)
    | none => false

/-- Before a later store of the firing changes a granule, its pending loads of it are performed (R216, R220). -/
def captureLoads (s : State) (n sl : Nat) (seq : Nat) (pas : List Nat) : State :=
  match s.firing n sl with
  | none => s
  | some f => (captured f seq pas).foldl (fun s x => perform s n sl x.1 x.2) s

end Sys2Proof.Machine
end

