-- ==== Sys2Proof/Machine/MemInstr.lean ====
section
/-! DEFINITION. Memory access instructions (R190 to R211): loads and stores in the three address spaces, cache
control and prefetch. -/

namespace Sys2Proof.Machine

/-! ## Deposits (R191, R193, R194) -/

/-- A loaded value extended to w bits. -/
def extLoad (w : Nat) (sx : Bool) (bs : List Byte) : BitVec w :=
  let n := 8 * bs.length
  let x := BitVec.ofNat w (natOfLE bs)
  if sx then sextN w n x else zextN w n x

/-- Registers a scalar deposit keeps pending. -/
def sGroup (d size : Nat) : List Nat := if size = 16 then [d, d + 1] else [d]

/-- Lane registers of a group by size (R191). -/
def vGroup (d size : Nat) : List Nat := (List.range (if size ≤ 4 then 1 else size / 4)).map (d + ·)

/-- What the bytes of one access put into registers. -/
def depWords (dst : DepDst) (lane : Nat) (bs : List Byte) : List (Nat × W64) × List (Nat × W32) :=
  match dst with
  | .s d size sx =>
    if size = 16 then ([(d, w64OfLE (bs.take 8)), (d + 1, w64OfLE (bs.drop 8))], []) else ([(d, extLoad 64 sx bs)], [])
  | .v d size sx =>
    if size ≤ 4 then ([], [(32 * d + lane, extLoad 32 sx bs)])
    else ([], (List.range (size / 4)).map fun j => (32 * (d + j) + lane, w32OfLE ((bs.drop (4 * j)).take 4)))
  | .none => ([], [])

/-- A deposit of a value known now; it lands later (R194). One read from the local scratchpad carries its offset and its
instruction's word, for DATAERR (R212). -/
def Firing.depVal (f : Firing) (xs : List (Nat × W64)) (vs : List (Nat × W32)) (vregs : List Nat) (spad : Option Nat := none)
    (word : W64 := 0) : Firing :=
  { f with deps := f.deps ++ [{ seq := f.seq, pc := f.pc, word := word, sregs := (xs.map (·.1)).filter (· != 0), vregs := vregs,
                                dst := .none, src := .val xs vs, spad := spad }] }

/-- A status deposit into s(D) (R194, R357). -/
def Firing.depStatus (f : Firing) (d : BitVec 6) (x : W64) : Firing := f.depVal [(d.toNat, x)] [] []

/-- A deposit whose answer comes from another unit, kept at its place in program order. -/
def Firing.depUnit (f : Firing) (sregs vregs : List Nat) (word : W64 := 0) : Firing :=
  { f with deps := f.deps ++ [{ seq := f.seq, pc := f.pc, word := word, sregs := sregs.filter (· != 0), vregs := vregs,
                                dst := .none, src := .unit }] }

/-- The deposit of a load: its instruction's word, the registers it keeps pending, where its bytes go, where from. -/
def Firing.depLoad (f : Firing) (word : W64) (sregs vregs : List Nat) (dst : DepDst) (src : DepSrc) : Firing :=
  { f with deps := f.deps ++ [{ seq := f.seq, pc := f.pc, word := word, sregs := sregs.filter (· != 0), vregs := vregs,
                                dst := dst, src := src }] }

/-- Give the answer of a unit's deposit; data in error stay so. -/
def Firing.answer (f : Firing) (seq : Nat) (xs : List (Nat × W64)) (vs : List (Nat × W32)) : Firing :=
  { f with deps := f.deps.map fun d =>
      if d.seq == seq then
        { d with src := match d.src with
            | .val a b => .val (a ++ xs) (b ++ vs)
            | .bad a => .bad a
            | _ => .val xs vs }
      else d }

/-! ## Checks -/

/-- WATCH (R367): a user access of a kind that meets an enabled region, unless SKIP is pending. -/
def watchMeets (w : W64) (k : Access) (va size : Nat) : Bool :=
  let len := 2 ^ (fld w 60 4 + 3)
  let base := fld w 3 53 * 8 / len * len
  let kind := fld w 1 2
  let want := match k with | .read => kind % 2 == 1 | .write => 2 ≤ kind | _ => kind != 0
  w.getLsbD 0 && want && base < va + size && va < base + len

def watchHit (c : Core) (sl : Nat) (f : Firing) (k : Access) (va size : Nat) : Bool :=
  !privileged c sl && !f.skip && (watchMeets c.wch0 k va size || watchMeets c.wch1 k va size)

/-- What the checks of a global access's lanes end in. -/
inductive Plan | ok (accs : List Acc) | trap (t : TrapCause) | walk (va : Nat) (lane : Option Nat)
  deriving DecidableEq, Repr

/-- ALIGN, WATCH, translation and permission, lane by lane ascending; the first lane that fails decides (R196, R350). -/
def planLanes (c : Core) (sl : Nat) (f : Firing) (k : Access) (size : Nat) : List (Option Nat × W64) → Plan
  | [] => .ok []
  | (lane, a) :: rest =>
    let va := (va56 a).toNat
    if va % size != 0 then .trap (causeAt 0x09 k (va56 a) lane)
    else if watchHit c sl f k va size then .trap (causeAt 0x18 k (va56 a) lane)
    else match xlate c f.xl (privileged c sl) k va lane with
      | .trap t => .trap t
      | .miss => .walk va lane
      | .hit key unc =>
        match planLanes c sl f k size rest with
        | .ok accs =>
          .ok ({ lane := lane.getD 0, va := va, pa := key, size := size, unc := unc, leaf := missLeaf c f.xl va } :: accs)
        | p => p

/-- Run a plan: trap, wait for a walk (R204), or go on. -/
def onPlan (s : State) (n sl : Nat) (f : Firing) (k : Access) (p : Plan) (go : List Acc → State) : State :=
  match p with
  | .trap t => takeTrap s n sl t
  | .walk va lane => holdWalk s n sl f va k lane
  | .ok accs => go accs

/-- The enabled lanes with their addresses. -/
def laneAddrs (f : Firing) (o : VMemOps) : List (Option Nat × W64) :=
  (f.enLanes o.h).map fun L => (some L, f.eaV o.a o.b o.x o.disp (sizeOf o.size) L)

/-! ## The store queue (R195, R211, R226) -/

/-- Whether the queue takes k entries: no pending L2WB.ALL, room (R195, R211); an instruction that needs more than 16 goes
alone (log entry 16). -/
def Firing.sqFree (f : Firing) (k : Nat) : Bool := f.wbq.isEmpty && (f.sq.length + k ≤ Config.sqCap || f.sq.isEmpty)

/-- Whether a store or an atomic may enter k entries: no release in progress besides (R226). -/
def Firing.sqRoom (f : Firing) (k : Nat) : Bool := f.rel.isNone && f.sqFree k

def Firing.enter (f : Firing) (ops : List EntOp) : Firing :=
  { f with sq := f.sq ++ ops.map (fun o => ({ seq := f.seq, pc := f.pc, op := o } : Ent)) }

/-- Pending write-backs of L2WB.ALL take the entries that are free (R211). -/
def Firing.wbFill (f : Firing) : Firing :=
  let room := Config.sqCap - f.sq.length
  let now := f.wbq.take room
  { f with sq := f.sq ++ now.map (fun l => ({ seq := f.seq, pc := f.pc, op := .wb l } : Ent)), wbq := f.wbq.drop room }

/-- Bytes of an access to be stored. -/
def accCells (a : Acc) (bs : List Byte) : List Cell := (bs.zipIdx).map fun e => { va := a.va + e.2, pa := a.pa + e.2, b := e.1 }

/-- The groups of a list by a number, in order of first touch. -/
def groupBy {α : Type} (key : α → Nat) (xs : List α) : List (List α) :=
  ((xs.map key).eraseDups).map fun k => xs.filter fun x => key x == k

/-- A cell with the byte that the last of some cells stores to its physical address: the higher lane's, whichever virtual
page each lane writes it through (R197). -/
def Cell.settle (all : List Cell) (c : Cell) : Cell :=
  { c with b := all.foldl (fun b x => if x.pa == c.pa then x.b else b) c.b }

/-- Group the accesses of a VST by 128-byte line of their virtual addresses, in order of first touch (R195; the kind of
address is log entry 80's): each group's page and cells. -/
def byLine (accs : List (Acc × List Byte)) : List (Bool × List Cell) :=
  let all := accs.flatMap fun e => accCells e.1 e.2
  (groupBy (fun e => e.1.va / 128) accs).map fun g =>
    (g.any fun e => e.1.unc, (g.flatMap fun e => accCells e.1 e.2).map (Cell.settle all))

/-- The store data of s registers (R193). -/
def Firing.dataS (f : Firing) (d size : Nat) : List Byte :=
  if size = 16 then bytesLE 8 (f.getS d) ++ bytesLE 8 (f.getS (d + 1)) else bytesLE size (f.getS d)

def Firing.dataV (f : Firing) (d size l : Nat) : List Byte :=
  if size ≤ 4 then bytesLE size (f.getV d l) else (List.range (size / 4)).flatMap fun j => bytesLE 4 (f.getV (d + j) l)

/-! ## Global loads and stores (R193 to R197) -/

def execLd (o : MemOps) (s : State) : Out :=
  withF s fun n sl f =>
    let c := s.core n
    if !f.enS o.h then s.setFiring n sl (f.retire false o.h (lenIdx o.idx) .none)
    else
      let size := sizeOf o.size
      onPlan s n sl f .read (planLanes c sl f .read size [(none, f.eaS o.a o.idx size)]) fun accs =>
        s.setFiring n sl ((f.depLoad (codeWord s n sl f.pc) (sGroup o.d.toNat size) [] (.s o.d.toNat size o.sx)
          (.load accs)).retire false o.h (lenIdx o.idx) .none)

def execSt (o : MemOps) (s : State) : Out :=
  withF s fun n sl f =>
    let c := s.core n
    if !f.enS o.h then s.setFiring n sl (f.retire false o.h (lenIdx o.idx) .none)
    else
      let size := sizeOf o.size
      onPlan s n sl f .write (planLanes c sl f .write size [(none, f.eaS o.a o.idx size)]) fun accs =>
        if !f.sqRoom 1 then s
        else
          let ops := accs.map fun a => EntOp.store o.g a.unc (accCells a (f.dataS o.d.toNat size))
          s.setFiring n sl ((f.enter ops).retire false o.h (lenIdx o.idx) .none)

def execVld (o : VMemOps) (s : State) : Out :=
  withF s fun n sl f =>
    let c := s.core n
    let size := sizeOf o.size
    onPlan s n sl f .read (planLanes c sl f .read size (laneAddrs f o)) fun accs =>
      let f' := if accs.isEmpty then f else
        f.depLoad (codeWord s n sl f.pc) [] (vGroup o.d.toNat size) (.v o.d.toNat size o.sx) (.load accs)
      s.setFiring n sl (f'.retire true o.h (lenDisp o.disp) .none)

def execVst (o : VMemOps) (s : State) : Out :=
  withF s fun n sl f =>
    let c := s.core n
    let size := sizeOf o.size
    onPlan s n sl f .write (planLanes c sl f .write size (laneAddrs f o)) fun accs =>
      let groups := byLine (accs.map fun a => (a, f.dataV o.d.toNat size a.lane))
      if !groups.isEmpty && !f.sqRoom groups.length then s
      else
        let ops := groups.map fun g => EntOp.store o.g g.1 g.2
        s.setFiring n sl ((f.enter ops).retire true o.h (lenDisp o.disp) .none)

/-! ## Local scratchpad (R199) -/

/-- ALIGN, then PROT, of a local access. -/
def localCheck (c : Core) (o : W64) (size : Nat) (lane : Option Nat) : Option TrapCause :=
  if o.toNat % size != 0 then some (causeAt 0x09 .scratch o lane)
  else if c.spadProt o.toNat size then some (causeAt 0x0B .scratch o lane)
  else none

/-- The first failing lane, ascending. -/
def localChecks (c : Core) (size : Nat) (xs : List (Option Nat × W64)) : Option TrapCause :=
  xs.findSome? fun e => localCheck c e.2 size e.1

def execLds (o : MemOps) (s : State) : Out :=
  withF s fun n sl f =>
    let c := s.core n
    if !f.enS o.h then s.setFiring n sl (f.retire false o.h (lenIdx o.idx) .none)
    else
      let size := sizeOf o.size
      let a := f.eaS o.a o.idx size
      match localCheck c a size none with
      | some t => takeTrap s n sl t
      | none =>
        let w := depWords (.s o.d.toNat size o.sx) 0 (c.getBs a.toNat size)
        s.setFiring n sl ((f.depVal w.1 w.2 [] (some a.toNat) (codeWord s n sl f.pc)).retire false o.h (lenIdx o.idx) .none)

/-- A store, so that a release in progress holds it (R226). -/
def execSts (o : MemOps) (s : State) : Out :=
  withF s fun n sl f =>
    let c := s.core n
    if !f.enS o.h then s.setFiring n sl (f.retire false o.h (lenIdx o.idx) .none)
    else
      let size := sizeOf o.size
      let a := f.eaS o.a o.idx size
      match localCheck c a size none with
      | some t => takeTrap s n sl t
      | none =>
        if f.rel.isSome then s
        else s.setCore n ((c.putBs a.toNat (f.dataS o.d.toNat size)).setFiring sl (f.retire false o.h (lenIdx o.idx) .none))

def execVlds (o : VMemOps) (s : State) : Out :=
  withF s fun n sl f =>
    let c := s.core n
    let size := sizeOf o.size
    let xs := laneAddrs f o
    match localChecks c size xs with
    | some t => takeTrap s n sl t
    | none =>
      let vs := xs.flatMap fun e => (depWords (.v o.d.toNat size o.sx) (e.1.getD 0) (c.getBs e.2.toNat size)).2
      let off := (xs.head?).map fun e => e.2.toNat
      let f' := if xs.isEmpty then f else f.depVal [] vs (vGroup o.d.toNat size) off (codeWord s n sl f.pc)
      s.setFiring n sl (f'.retire true o.h (lenDisp o.disp) .none)

/-- As STS, lane by lane; with no lane enabled it stores nothing and is not held. -/
def execVsts (o : VMemOps) (s : State) : Out :=
  withF s fun n sl f =>
    let c := s.core n
    let size := sizeOf o.size
    let xs := laneAddrs f o
    match localChecks c size xs with
    | some t => takeTrap s n sl t
    | none =>
      if !xs.isEmpty && f.rel.isSome then s
      else
        let c' := xs.foldl (fun c e => c.putBs e.2.toNat (f.dataV o.d.toNat size (e.1.getD 0))) c
        s.setCore n (c'.setFiring sl (f.retire true o.h (lenDisp o.disp) .none))

/-! ## Remote scratchpad (R201) -/

/-- The checks of R201, in order: ALIGN, PROT, XLATE. -/
def remoteCheck (s : State) (gca : W64) (off : W64) (size : Nat) : Option TrapCause :=
  if off.toNat % size != 0 then some (causeAt 0x09 .scratch off)
  else if 2 ^ 20 ≤ off.toNat + size - 1 then some (causeAt 0x0B .scratch off)
  else if !coreExists s (fld gca 0 29) then some (causeAt 0x0A .scratch off)
  else none

def execLdx (o : XMemOps) (s : State) : Out :=
  withF s fun n sl f =>
    if !f.enS o.h then s.setFiring n sl (f.retire false o.h (lenDisp o.disp) .none)
    else
      let size := sizeOf o.size
      let g := f.srcS o.core
      let off := f.offX o.off o.x o.disp size
      match remoteCheck s g off size with
      | some t => takeTrap s n sl t
      | none =>
        s.setFiring n sl ((f.depLoad (codeWord s n sl f.pc) (sGroup o.d.toNat size) [] (.s o.d.toNat size o.sx)
          (.ldx (fld g 0 29) off.toNat size)).retire false o.h (lenDisp o.disp) .none)

def execStx (o : XMemOps) (s : State) : Out :=
  withF s fun n sl f =>
    if !f.enS o.h then s.setFiring n sl (f.retire false o.h (lenDisp o.disp) .none)
    else
      let size := sizeOf o.size
      let g := f.srcS o.core
      let off := f.offX o.off o.x o.disp size
      match remoteCheck s g off size with
      | some t => takeTrap s n sl t
      | none =>
        if !f.sqRoom 1 then s
        else s.setFiring n sl ((f.enter [.stx (fld g 0 29) off.toNat (f.dataS o.d.toNat size)]).retire
          false o.h (lenDisp o.disp) .none)

/-! ## Prefetch and cache control (R210, R211) -/

/-- A line into the local L2, unless it is homed there or wholly valid there; one that its port or its link keeps brings
nothing (R385, R386; log entry 106). -/
def prefetchL2 (s : State) (n line : Nat) : State :=
  let site := siteOf s n
  if homeSite s (line * 128) = site || (s.copy line site).map (·.valid) = some allValid || !homeward s line then s
  else fillCopy s line site

/-- Bring a line in for a prefetch; it is dropped where its translation or permission fails (R211). A leaf that faults is
not cached (R209). -/
def prefetch (s : State) (n sl va : Nat) (l2 : Bool) : State :=
  let c := s.core n
  let ok := fun (w : W64) key => permOk (privileged c sl) .read w (keyPa key)
  match c.l1Find va with
  | some x => if l2 && ok x.pte (x.pline * 128 + va % 128) then prefetchL2 s n x.pline else s
  | none =>
    let go := fun (s : State) (l : Leaf) =>
      if pteUnc l.pte || portDown s (l.key va) then s
      else
        let s := prefetchL2 s n (l.key va / 128)
        if l2 then s else l1Insert s n va l
    match heldLeaf c [] va with
    | some l => if ok l.pte (l.key va) then go s l else s
    | none => match walkAt s n c.asid va with
      | .leaf l => if ok l.pte (l.key va) then go (tlbInsert s n l) l else s
      | _ => s

def execPref (o : PrefOps) (s : State) : Out :=
  withF s fun n sl f =>
    let s' := if f.enS o.h then prefetch s n sl (va56 (f.eaS o.a o.idx 1)).toNat o.l2 else s
    s'.setFiring n sl (f.retire false o.h (lenIdx o.idx) .none)

/-- EA of L1INV.LINE and L2WB.LINE. -/
def eaLine (f : Firing) (o : LineOps) : Nat := (va56 (f.srcS o.a + f.srcSI o.b)).toNat

def execL1invLine (o : LineOps) (s : State) : Out :=
  withF s fun n sl f =>
    let c := s.core n
    let c := if f.enS o.h then c.l1Drop (eaLine f o) else c
    s.setCore n (c.setFiring sl (f.retire false o.h (lenB o.b) .none))

/-- Drop every L1 line, data and instruction, of an ASID, global lines with them. -/
def dropAsid (c : Core) (asid : BitVec 16) : Core :=
  { c with l1d := c.l1d.filter fun x => !(x.asid == asid || pteG x.pte),
           l1i := c.l1i.filter fun x => !(x.asid == asid || pteG x.pte) }

def execL1invAll (o : AllOps) (s : State) : Out :=
  withF s fun n sl f =>
    let c := s.core n
    let c := if f.enS o.h then dropAsid c c.asid else c
    s.setCore n (c.setFiring sl (f.retire false o.h (lenDisp o.imm) .none))

/-- The results of an ASID, and those of global pages, leave a site's walker pool: walks in progress are made anew (R210). -/
def dropWalks (s : State) (site : Nat) (asid : BitVec 16) : State :=
  { s with walks := s.walks.map fun w =>
      if w.site == site && (w.asid == asid || (match w.res with | some (.leaf l) => pteG l.pte | _ => false)) then
        { w with res := none } else w }

/-- L1INV.XL: privileged; an ASID's entries in the translation cache and in the die's walker pool, and its L1 lines (R210). -/
def execL1invXl (o : XlOps) (s : State) : Out :=
  withF s fun n sl f =>
    let c := s.core n
    if !privileged c sl then takeTrap s n sl (cause 0x02)
    else
      let a : BitVec 16 := (f.srcS o.a).setWidth 16
      let c' := { dropAsid c a with tlb := c.tlb.filter fun l => !(l.asid == a || pteG l.pte) }
      let s := if f.enS o.h then (dropWalks s (siteOf s n) a).setCore n c' else s
      s.setFiring n sl (f.retire false o.h (lenDisp o.imm) .none)

/-- L2WB.LINE: one entry; the line is written back at its point, if the die's copy is dirty there (R211, R215). -/
def execL2wbLine (o : LineOps) (s : State) : Out :=
  withF s fun n sl f =>
    let c := s.core n
    if !f.enS o.h then s.setFiring n sl (f.retire false o.h (lenB o.b) .none)
    else
      match xlate c f.xl (privileged c sl) .write (eaLine f o) none with
      | .trap t => takeTrap s n sl t
      | .miss => holdWalk s n sl f (eaLine f o) .write none
      | .hit key _ =>
        if !f.sqFree 1 then s
        else s.setFiring n sl ((f.enter [.wb (key / 128)]).retire false o.h (lenB o.b) .none)

/-- L2WB.ALL: the dirty list, or after an overflow every dirty copy line of the die, the mark cleared (R211). -/
def execL2wbAll (o : AllOps) (s : State) : Out :=
  withF s fun n sl f =>
    let c := s.core n
    if !f.enS o.h then s.setFiring n sl (f.retire false o.h (lenDisp o.imm) .none)
    else if !f.wbq.isEmpty || Config.sqCap ≤ f.sq.length then s
    else
      let ls := if c.dirtyOvf then dirtyLines s (siteOf s n) else c.dirty
      let f' := { f with wbq := ls }.wbFill
      s.setCore n ({ c with dirtyOvf := false }.setFiring sl (f'.retire false o.h (lenDisp o.imm) .none))

end Sys2Proof.Machine
end

