-- ==== Sys2Proof/Machine/Ordering.lean ====
section
/-! DEFINITION. Clearings (R222 to R224), the completion of a release (R226, R232), and the fences (R225 to R228). -/

namespace Sys2Proof.Machine

/-! ## Clearings -/

def clrKind (c : W64) : Nat := fld c 62 2
def clrX0 (c : W64) : Nat := fld c 8 7
def clrY0 (c : W64) : Nat := fld c 0 5
def clrX1 (c : W64) : Nat := fld c 24 7
def clrY1 (c : W64) : Nat := fld c 16 5

/-- R224: reserved bits zero, coordinates only in a rectangle and in order. -/
def clearingOk (c : W64) : Bool :=
  fld c 31 31 == 0 && fld c 21 3 == 0 && fld c 15 1 == 0 && fld c 5 3 == 0 &&
  (if clrKind c = 2 then clrX0 c ≤ clrX1 c && clrY0 c ≤ clrY1 c
   else clrX0 c == 0 && clrX1 c == 0 && clrY0 c == 0 && clrY1 c == 0)

/-- The class of R223: cross-die unless self, own die, or a rectangle inside the issuing core's die. -/
def clearingCross (n : Nat) (c : W64) : Bool :=
  match clrKind c with
  | 0 | 1 => false
  | 2 => !(clrX0 c / 32 == dieOf n % 4 && clrX1 c / 32 == dieOf n % 4 &&
           clrY0 c / 16 == dieOf n / 4 && clrY1 c / 16 == dieOf n / 4)
  | _ => true

/-- Whether a clearing holds core m, seen from core n of the same package (R223). -/
def clearingHolds (n : Nat) (c : W64) (m : Nat) : Bool :=
  match clrKind c with
  | 0 => m == n
  | 1 => dieOf m == dieOf n
  | 2 => clrX0 c ≤ meshX m && meshX m ≤ clrX1 c && clrY0 c ≤ meshY m && meshY m ≤ clrY1 c
  | _ => true

/-- The CLEARING trap, with the value (R224). -/
def clearingTrap (c : W64) : TrapCause := { code := 0x0C, value := c }

/-! ## The release (R226) -/

/-- Whether an entry sends something home or to another core, which a recorded loss holds back (R232). -/
def Ent.sends (s : State) (n : Nat) (e : Ent) : Bool :=
  match e.op with
  | .store g unc cells => g || unc || cells.any fun c => homeSite s c.pa == siteOf s n
  | _ => true

def Ent.isWb (e : Ent) : Bool := match e.op with | .wb _ => true | _ => false
def Ent.isE (e : Ent) : Bool := match e.op with | .store g unc _ => !g && !unc | _ => false
/-- The entries of one VST.G or VATOM go together (R215). -/
def Ent.grouped (e : Ent) : Bool := match e.op with | .store g _ _ => g | .atom .. => true | _ => false

/-- Whether an entry waits behind a recorded loss (R232): it sends, and was not on its way when the loss was recorded. A
swap drains the queue all the same (R231; log entry 31). -/
def Ent.lossHeld (s : State) (n : Nat) (f : Firing) (e : Ent) : Bool :=
  f.loss && e.sends s n && !e.sent && !(s.core n).swapping

/-- Whether entry e may reach its point, with the entries before it (R215, R232). -/
def sqMayGo (s : State) (n : Nat) (f : Firing) (i : Nat) (e : Ent) : Bool :=
  (f.sq.take i).all (fun x => (x.seq == e.seq && e.grouped) || ((e.isE || e.isWb) && x.isWb)) && !e.lossHeld s n f

/-- Entries before a place in program order that still can go: past a recorded loss the rest has gone as far as it can
(R232). -/
def sqOpen (s : State) (n : Nat) (f : Firing) (seq : Nat) : Bool :=
  (f.sq.zipIdx).any fun e => e.1.seq < seq && sqMayGo s n f e.2 e.1

/-- Deposits before a place in program order: after a loss, those of entries still held back do not count. -/
def depsOpen (f : Firing) (seq : Nat) : Bool :=
  f.deps.any fun d => d.seq < seq && !(f.loss && f.sq.any fun e => e.seq == d.seq)

/-- Step 3 of R226: no line of the core's dirty list, or after an overflow no dirty copy line of its die. -/
def dirtyOpen (s : State) (n : Nat) : Bool :=
  let c := s.core n
  !c.dirty.isEmpty || (c.dirtyOvf && !(dirtyLines s (siteOf s n)).isEmpty)

/-- Whether a SENDV of the firing still places messages (R258). -/
def Core.placing (c : Core) (f : Firing) : Bool := c.sendvQ.any fun m => m.src == f.uid

/-- Whether a release at a place in program order is complete (R226). -/
def releaseDone (s : State) (n : Nat) (f : Firing) (seq : Nat) (cross : Bool) : Bool :=
  !depsOpen f seq && !sqOpen s n f seq && f.wbq.isEmpty && !(cross && dirtyOpen s n)

/-- Whether an earlier release of the firing is in progress: not the one that its next instruction has begun. -/
def Firing.relOther (f : Firing) : Bool := match f.rel with | some r => r.seq != f.seq | none => false

/-- The firing's next instruction begins its release and waits for it (R228, R231). -/
def beginRel (s : State) (n sl : Nat) (f : Firing) (cross : Bool) : State :=
  if f.rel.isSome then s
  else s.setFiring n sl { f with rel := some { seq := f.seq, pc := f.pc, cross := cross, word := codeWord s n sl f.pc } }

/-- The overflow mark goes with a completed cross-die release (R226). -/
def clearOvf (s : State) (n : Nat) (cross : Bool) : State :=
  if cross then s.updCore n fun c => { c with dirtyOvf := false } else s

/-- ACKLOSS with the lost address and the count of further losses (R232, Table 17-2). -/
def ackloss (f : Firing) : TrapCause :=
  { code := 0x0D, count := f.lcnt - 1, addr := some f.laddr }

/-- What a release's completion or a firing's end raises (R202, R232): DATAERR for a remote access its target refused,
else ACKLOSS for a recorded loss. -/
def Firing.owed (f : Firing) : Option TrapCause :=
  match f.bad with
  | some o => some { code := 0x0E, kind := 0x5F, addr := some o }
  | none => if f.loss then some (ackloss f) else none

/-! ## The acquire (R227) -/

/-- The entries that are atomics or ordered as such (R237, R240, R311). -/
def Ent.isAtomic (e : Ent) : Bool :=
  match e.op with | .atom .. | .atoms .. | .dirRead .. | .dirWrite .. | .thaw .. | .evict .. => true | _ => false

/-- Whether the deposits and atomics before a place in program order are done. -/
def acquireReady (f : Firing) (seq : Nat) : Bool :=
  f.deps.all (fun d => seq ≤ d.seq) && f.sq.all fun e => seq ≤ e.seq || !e.isAtomic

/-- What an acquire drops (R227). -/
def acquire (s : State) (n : Nat) (c : W64) : State :=
  let site := siteOf s n
  let s := if clrKind c = 0 then s else
    s.updCore n fun x => { x with l1d := x.l1d.filter fun l => homeSite s (l.pline * 128) == site }
  if clearingCross n c then dropClean s site else s

/-! ## The fences -/

/-- The oldest release ends, and the next that was issued behind it is the one in progress (R226; log entry 30). -/
def Firing.relNext (f : Firing) : Firing := { f with rel := f.relMore.head?, relMore := f.relMore.tail }

/-- A release in progress completes: its loss is raised at its PC, or it ends (R226, R232). -/
def relComplete (s : State) (n sl : Nat) (f : Firing) (r : Rel) : State :=
  match f.owed with
  | some t => takeTrapAt s n sl t r.pc r.pc r.word
  | none => clearOvf (s.setFiring n sl f.relNext) n r.cross

/-- A FENCE.REL joins the releases of its firing: it is no form that a release in progress holds (R226). -/
def Firing.addRel (f : Firing) (r : Rel) : Firing :=
  if f.rel.isSome then { f with relMore := f.relMore ++ [r] } else { f with rel := some r }

def execFenceRel (o : AOps) (s : State) : Out :=
  withF s fun n sl f =>
    let c := f.srcS o.a
    if !f.enS o.h then s.setFiring n sl (f.retire false o.h .l64 .none)
    else if !clearingOk c then takeTrap s n sl (clearingTrap c)
    else if !f.wbq.isEmpty || (s.core n).placing f then s
    else
      let r : Rel := { seq := f.seq, pc := f.pc, cross := clearingCross n c, word := codeWord s n sl f.pc }
      s.setFiring n sl ((f.retire false o.h .l64 .none).addRel r)

def execFenceAcq (o : AOps) (s : State) : Out :=
  withF s fun n sl f =>
    let c := f.srcS o.a
    if !f.enS o.h then s.setFiring n sl (f.retire false o.h .l64 .none)
    else if !clearingOk c then takeTrap s n sl (clearingTrap c)
    else if !f.wbq.isEmpty || !acquireReady f f.seq then s
    else (acquire s n c).setFiring n sl (f.retire false o.h .l64 .none)

/-- FENCE.AR: the release, then the acquire, with nothing of the firing issuing meanwhile (R228). -/
def execFenceAr (o : AOps) (s : State) : Out :=
  withF s fun n sl f =>
    let c := f.srcS o.a
    if !f.enS o.h then s.setFiring n sl (f.retire false o.h .l64 .none)
    else if !clearingOk c then takeTrap s n sl (clearingTrap c)
    else if f.relOther || !f.wbq.isEmpty || (s.core n).placing f then s
    else if !releaseDone s n f f.seq (clearingCross n c) then beginRel s n sl f (clearingCross n c)
    else match f.owed with
      | some t => takeTrap s n sl t
      | none =>
        if !acquireReady f f.seq then s
        else
          let s := clearOvf s n (clearingCross n c)
          (acquire s n c).setFiring n sl ({ f with rel := none }.retire false o.h .l64 .none)

end Sys2Proof.Machine
end

