-- ==== Sys2Proof/Machine/Atomics.lean ====
section
/-! DEFINITION. Atomic instructions (R235 to R242). -/

namespace Sys2Proof.Machine

/-- The new value of an atomic on w-bit words (R237); operation 8 is CAS with compare b and new value c (R239). -/
def atomNew {w : Nat} (op : Nat) (u : Bool) (old b c : BitVec w) : BitVec w :=
  match op with
  | 0 => old + b
  | 1 => if u then (if old.toNat ≤ b.toNat then old else b) else (if old.toInt ≤ b.toInt then old else b)
  | 2 => if u then (if old.toNat < b.toNat then b else old) else (if old.toInt < b.toInt then b else old)
  | 3 => old &&& b
  | 4 => old ||| b
  | 5 => old ^^^ b
  | 6 => b
  | 8 => if old == b then c else old
  | _ => old

/-- The new bytes of a word of 4 or 8 bytes, from its old bytes. -/
def atomBytes (size op : Nat) (u : Bool) (old : List Byte) (b c : W64) : List Byte :=
  if size = 4 then bytesLE 4 (atomNew op u (w32OfLE old) (b.setWidth 32) (c.setWidth 32))
  else bytesLE 8 (atomNew op u (w64OfLE old) b c)

def atomSize (sz : Bool) : Nat := if sz then 8 else 4

/-- The descriptor check of .NZ (R238): reserved bits [31:29] and [63:40]. -/
def nzBad (d : W64) : Bool := fld d 29 3 != 0 || fld d 40 24 != 0

/-- A scalar atomic at an address: ALIGN, WATCH, translation, then the descriptor, then the store queue (R237). -/
def globalAtom (h : Head) (l : Len) (d : Nat) (a : SSrc) (size op : Nat) (u : Bool) (b c : SSrc)
    (nz : Option Nat) (s : State) : Out :=
  withF s fun n sl f =>
    let x := s.core n
    if !f.enS h then s.setFiring n sl (f.retire false h l .none)
    else
      onPlan s n sl f .atomic (planLanes x sl f .atomic size [(none, f.srcS a)]) fun accs =>
        let pair := nz.map fun r => (f.getS r, f.getS (r + 1))
        if (match pair with | some p => nzBad p.1 | none => false) then
          takeTrap s n sl (msgfmt ((pair.map (·.1)).getD 0))
        else if !f.sqRoom 1 then s
        else
          let ats := accs.map fun y => ({ lane := 0, va := y.va, pa := y.pa, size := size, op := op, u := u,
                                          b := f.srcS b, c := f.srcS c } : AtomAcc)
          let f' := f.enter [.atom ats pair]
          let f' := f'.depUnit [d] [] (codeWord s n sl f.pc)
          s.setFiring n sl (f'.retire false h l .none)

def execAtom (o : AtomOps) (s : State) : Out :=
  globalAtom o.h .l64 o.d.toNat o.a (atomSize o.sz) o.op.toNat o.u o.b (.const 0) none s

def execAtomNz (o : AtomNzOps) (s : State) : Out :=
  globalAtom o.h .l96 o.d.toNat o.a (atomSize o.sz) o.op.toNat o.u o.b (.const 0) (some o.n.toNat) s

def execCas (o : CasOps) (s : State) : Out :=
  globalAtom o.h .l96 o.d.toNat o.a (atomSize o.sz) 8 false o.b o.c none s

/-- ATOMS, local (R240): performed at issue; a release in progress holds it (R226). -/
def execAtomsLocal (o : AtomOps) (s : State) : Out :=
  withF s fun n sl f =>
    let c := s.core n
    if !f.enS o.h then s.setFiring n sl (f.retire false o.h .l64 .none)
    else
      let size := atomSize o.sz
      let a := f.srcS o.a
      match localCheck c a size none with
      | some t => takeTrap s n sl t
      | none =>
        if f.rel.isSome then s
        else
          let old := c.getBs a.toNat size
          let c' := c.putBs a.toNat (atomBytes size o.op.toNat o.u old (f.srcS o.b) 0)
          let f' := f.depVal [(o.d.toNat, w64OfLE old)] [] [] (some a.toNat) (codeWord s n sl f.pc)
          s.setCore n (c'.setFiring sl (f'.retire false o.h .l64 .none))

/-- ATOMS, remote (R240): a queue entry, performed at the target. -/
def execAtomsRemote (o : AtomsXOps) (s : State) : Out :=
  withF s fun n sl f =>
    if !f.enS o.h then s.setFiring n sl (f.retire false o.h .l96 .none)
    else
      let size := atomSize o.sz
      let g := f.srcS o.core
      let off := f.srcS o.off
      match remoteCheck s g off size with
      | some t => takeTrap s n sl t
      | none =>
        if !f.sqRoom 1 then s
        else
          let f' := f.enter [.atoms (fld g 0 29) off.toNat size o.op.toNat o.u (f.srcS o.b)]
          let f' := f'.depUnit [o.d.toNat] [] (codeWord s n sl f.pc)
          s.setFiring n sl (f'.retire false o.h .l96 .none)

/-- The enabled lanes of VATOM with their addresses (R241). -/
def vatomAddrs (f : Firing) (o : VatomOps) : List (Option Nat × W64) :=
  (f.enLanes o.h).map fun L => (some L, f.srcS o.a + f.laneIdx o.b L)

/-- The lanes of VATOM.L act in ascending order, each on the result before it (R241). -/
def vatomLocal (f : Firing) (o : VatomOps) (c : Core) (xs : List (Option Nat × W64)) : Core × List (Nat × W32) :=
  xs.foldl (fun r e =>
    let L := e.1.getD 0
    let old := r.1.getBs e.2.toNat 4
    (r.1.putBs e.2.toNat (atomBytes 4 o.op.toNat o.u old ((f.srcV L o.c).setWidth 64) 0),
     r.2 ++ [(32 * o.d.toNat + L, w32OfLE old)])) (c, [])

/-- VATOM (R241); its local form is held by a release in progress, as ATOMS is. An entry holds the lanes of one physical line, so
that lanes which address one word, through one virtual page or two, act in their order (log entry 80). -/
def execVatom (o : VatomOps) (s : State) : Out :=
  withF s fun n sl f =>
    let c := s.core n
    let xs := vatomAddrs f o
    if o.l then
      match localChecks c 4 xs with
      | some t => takeTrap s n sl t
      | none =>
        if !xs.isEmpty && f.rel.isSome then s
        else
          let r := vatomLocal f o c xs
          let off := (xs.head?).map fun e => e.2.toNat
          let f' := if xs.isEmpty then f else f.depVal [] r.2 [o.d.toNat] off (codeWord s n sl f.pc)
          s.setCore n (r.1.setFiring sl (f'.retire true o.h .l96 .none))
    else
      onPlan s n sl f .atomic (planLanes c sl f .atomic 4 xs) fun accs =>
        let groups := groupBy (fun a => a.pa / 128) accs
        if !groups.isEmpty && !f.sqRoom groups.length then s
        else
          let ops := groups.map fun g => EntOp.atom (g.map fun e =>
            ({ lane := e.lane, va := e.va, pa := e.pa, size := 4, op := o.op.toNat, u := o.u,
               b := (f.srcV e.lane o.c).setWidth 64 } : AtomAcc)) none
          let f' := if accs.isEmpty then f else (f.enter ops).depUnit [] [o.d.toNat] (codeWord s n sl f.pc)
          s.setFiring n sl (f'.retire true o.h .l96 .none)

end Sys2Proof.Machine
end

