-- ==== Sys2Proof/Machine/Control.lean ====
section
/-! DEFINITION. Control flow and divergence (R113 to R126): scalar transfers, lane branches, the path table, JOIN,
priorities, and the end of a firing. -/

namespace Sys2Proof.Machine

/-! ## NOP and scalar transfers (R61, R115) -/

def execNop (o : NopOps) (s : State) : Out := onF s fun f => f.retire false o.h o.len .none

/-- A scalar transfer's end: group 010 carries C = 0, so the chain ends (R113). -/
def Firing.jump (f : Firing) (h : Head) (t : W64) : Firing := (f.endIssue false h.c .none).setPc t

def execBr (o : BrOps) (s : State) : Out :=
  onF s fun f =>
    if f.enS o.h then f.jump o.h (branchTo f.pc o.off) else f.retire false o.h (lenImm o.off) .none

def execCall (o : DBrOps) (s : State) : Out :=
  onF s fun f =>
    let l := lenImm o.off
    if f.enS o.h then (f.setS o.d.toNat (nextPc f.pc l)).jump o.h (branchTo f.pc o.off) else f.retire false o.h l .none

/-- BRX. The ALIGN record of a misaligned target gives no address (R127; log entry 34). -/
def execBrx (o : BrxOps) (s : State) : Out :=
  withF s fun n sl f =>
    let l := lenImm o.off
    if !f.enS o.h then s.setFiring n sl (f.retire false o.h l .none)
    else
      let t := branchTo (f.srcS o.a) o.off
      if fld t 0 2 != 0 then takeTrap s n sl (cause 0x09)
      else s.setFiring n sl ((f.setS o.d.toNat (nextPc f.pc l)).jump o.h t)

/-- RET, with the same record. -/
def execRet (o : AOps) (s : State) : Out :=
  withF s fun n sl f =>
    if !f.enS o.h then s.setFiring n sl (f.retire false o.h .l64 .none)
    else
      let t := va56 (f.srcS o.a)
      if fld t 0 2 != 0 then takeTrap s n sl (cause 0x09) else s.setFiring n sl (f.jump o.h t)

def execLoop (o : DBrOps) (s : State) : Out :=
  onF s fun f =>
    let l := lenImm o.off
    let c := f.getS o.d.toNat
    if !f.enS o.h || c == 0 then f.retire false o.h l .none
    else if c - 1 == 0 then (f.setS o.d.toNat 0).retire false o.h l .none
    else (f.setS o.d.toNat (c - 1)).jump o.h (branchTo f.pc o.off)

/-! ## The path table (R118, R119, R123) -/

/-- Indices of the entries in a state. -/
def Firing.inState (f : Firing) (st : Nat) : List Nat :=
  (List.range f.paths.length).filter fun e => (f.paths.getD e {}).st.toNat == st

def Firing.priOf (f : Firing) (e : Nat) : Nat := (f.paths.getD e {}).pri.toNat

/-- The highest priority among entries. -/
def Firing.topPri (f : Firing) (es : List Nat) : Nat := es.foldl (fun m e => max m (f.priOf e)) 0

/-- Merge of R123: the blocked entries at the lowest address become one ready entry. -/
def Firing.merge (f : Firing) : Firing :=
  match f.inState 2 with
  | [] => f
  | b :: bs =>
    let a := bs.foldl (fun m e => min m (f.paths.getD e {}).pc.toNat) (f.paths.getD b {}).pc.toNat
    let g := (b :: bs).filter fun e => (f.paths.getD e {}).pc.toNat == a
    let mask := g.foldl (fun m e => m ||| (f.paths.getD e {}).mask) 0
    let new : PathE := { pc := nextPc (BitVec.ofNat 64 a) .l64, mask := mask, pri := BitVec.ofNat 8 (f.topPri g), st := 1 }
    let f' := g.foldl (fun f e => f.setPath e { f.paths.getD e {} with st := 0 }) f
    f'.setPath (g.headD 0) new

/-- The choice among ready entries (R119). -/
def Firing.choosePath (f : Firing) (yielded : Bool) : Firing :=
  let rdy := f.inState 1
  let p := f.topPri rdy
  let best := rdy.filter fun e => f.priOf e == p
  let others := best.filter fun e => e != f.cur
  if best.contains f.cur && !yielded then f
  else if yielded then
    match others with
    | e :: _ => { f with cur := e }
    | [] => match best with | e :: _ => { f with cur := e } | [] => f
  else match best with | e :: _ => { f with cur := e } | [] => f

/-- SelectPath of R119 for a firing that has a live path: merge where none is ready, then choose. -/
def Firing.selectPath (f : Firing) (yielded : Bool) : Firing :=
  if (f.inState 1).isEmpty then f.merge.choosePath false else f.choosePath yielded

/-! ## Lane branches (R120) -/

/-- The lanes the guard enables, as a mask. -/
def Firing.enMask (f : Firing) (h : Head) : W32 := laneMask (f.enL h)

/-- The lowest entry free for a split (R120, R121). -/
def Firing.freeEntry (f : Firing) : Option Nat :=
  (List.range f.paths.length).find? fun e => (f.paths.getD e {}).st == 0 || (f.paths.getD e {}).st == 3

def laneBranch (u : Bool) (o : BrOps) (s : State) : Out :=
  withF s fun n sl f =>
    let l := lenImm o.off
    let t := f.enMask o.h
    let p := f.mask
    let tgt := branchTo f.pc o.off
    if u && t != 0 && t != p then takeTrap s n sl (cause 0x06)
    else if t == p then s.setFiring n sl (f.jump o.h tgt)
    else if t == 0 then s.setFiring n sl (f.retire true o.h l .none)
    else match f.freeEntry with
      | none => takeTrap s n sl (cause 0x07)
      | some e =>
        let f' := f.retire true o.h l .none
        let f' := f'.setPath e { pc := tgt, mask := t, pri := f.path.pri, st := 1 }
        let f' := f'.setPath f.cur { f'.path with mask := p &&& ~~~ t }
        s.setFiring n sl (f'.selectPath false)

def execBra (o : BrOps) (s : State) : Out := laneBranch false o s
def execBru (o : BrOps) (s : State) : Out := laneBranch true o s

/-! ## JOIN, YIELD, SETPRI (R122 to R125) -/

/-- Run an instruction that acts on the path as a whole: it acts, has no effect, or raises UNIFORM (R122). -/
def onPath (h : Head) (s : State) (act : Firing → Firing) : Out :=
  withF s fun n sl f =>
    let t := f.enMask h
    if t == f.mask then s.setFiring n sl (act f)
    else if t == 0 then s.setFiring n sl (f.retire true h .l64 .none)
    else takeTrap s n sl (cause 0x06)

def execJoin (o : HOps) (s : State) : Out :=
  onPath o.h s fun f =>
    let f := f.endIssue true o.h.c .none
    (f.setPath f.cur { f.path with st := 2 }).selectPath false

def execYield (o : HOps) (s : State) : Out :=
  onPath o.h s fun f =>
    let f := f.retire true o.h .l64 .none
    (f.setPath f.cur { f.path with pri := if f.path.pri == 0 then 0 else f.path.pri - 1 }).selectPath true

def execSetpri (o : SetPriOps) (s : State) : Out :=
  onPath o.h s fun f =>
    let f := f.retire true o.h .l64 .none
    (f.setPath f.cur { f.path with pri := o.p.setWidth 8 }).selectPath false

def execGetpri (o : VDOps) (s : State) : Out :=
  onF s fun f => f.writeV o.h .l64 o.d.toNat fun _ => BitVec.ofNat 32 (fld f.path.pri 0 3 + 16 * f.cur)

/-! ## DONE and the end of a path (R126) -/

/-- Whether the firing holds nothing that DONE waits for: deposits (R126, step 2) and SFU entries (R165). -/
def endReady (c : Core) (sl : Nat) (f : Firing) : Bool :=
  f.deps.isEmpty && c.sfuQ.all (fun e => e.slot != sl) && c.sampQ.all (fun e => e.slot != sl)

/-- Whether the release at a firing's end may begin: no earlier one, no pending L2WB.ALL, no SENDV (R126, R211, R258). -/
def endOpen (s : State) (n : Nat) (f : Firing) : Bool := !f.relOther && f.wbq.isEmpty && !(s.core n).placing f

/-- Whether the release at a firing's end, at the handler's declared clearing, is complete (R126, R231). -/
def endReleased (s : State) (n : Nat) (f : Firing) : Bool := releaseDone s n f f.seq (clearingCross n f.scope)

/-- The ends of R126: an acknowledgement loss found, or the firing freed with its current path ended. -/
def finishFiring (s : State) (n sl : Nat) (f : Firing) : State :=
  match f.owed with
  | some t => takeTrap s n sl t
  | none => endFiring (clearOvf s n (clearingCross n f.scope)) n sl (f.setPath f.cur { f.path with st := 3 })

def execDone (o : HOps) (s : State) : Out :=
  withF s fun n sl f =>
    let others := (f.inState 1 ++ f.inState 2).filter fun e => e != f.cur
    if !f.enS o.h then s.setFiring n sl (f.retire false o.h .l64 .none)
    else if !endReady (s.core n) sl f then s
    else if f.wave && !others.isEmpty then takeTrap s n sl (cause 0x08)
    else if !endOpen s n f then s
    else if !endReleased s n f then beginRel s n sl f (clearingCross n f.scope)
    else finishFiring s n sl f

end Sys2Proof.Machine
end

