-- ==== Sys2Proof/Machine/Message.lean ====
section
/-! DEFINITION. Messages (R244 to R268): the handler table, sends and launch credits, RECV, glades and spill queue,
proxy queues, HTAB. -/

namespace Sys2Proof.Machine

/-! ## The handler table (R249) -/

/-- A handler table entry's fields (Table 12-3). -/
structure HandlerEntry where
  pc    : W64
  wave  : Bool
  ord   : Bool
  ser   : Bool
  glade : Bool
  src   : Nat
  k     : Nat
  pri   : Nat
  ns    : Nat
  nv    : Nat
  plive : BitVec 8
  scope : W64
  deriving DecidableEq, Repr

/-- The fields of an entry's four words. -/
def entryOf (w0 w1 w2 : W64) : HandlerEntry :=
  { pc := w0, wave := w1.getLsbD 1, ord := w1.getLsbD 2, ser := w1.getLsbD 3, glade := w1.getLsbD 12,
    src := fld w1 8 4, k := fld w1 16 8, pri := fld w1 24 8, ns := fld w1 32 8, nv := 8 * fld w1 40 8,
    plive := w1.extractLsb' 48 8, scope := w2 }

/-- R249 of one entry alone, its V bit aside: all but the glade rule. -/
def entryFormed (w0 w1 w2 w3 : W64) : Bool :=
  let e := entryOf w0 w1 w2
  fld w0 0 2 == 0 && fld w0 56 8 == 0 && fld w1 4 4 == 0 && fld w1 13 3 == 0 && e.pri ≤ 7 && fld w1 56 8 == 0 &&
  w3 == 0 && (e.glade || (1 ≤ e.src && e.src ≤ 5)) &&
  (if e.wave && !e.glade then 1 ≤ e.k && e.k ≤ 32 else e.k == 1) &&
  e.ns % 8 == 0 && 8 ≤ e.ns && e.ns ≤ 64 && (if e.wave then 8 ≤ e.nv && e.nv ≤ 256 else e.nv == 0) && clearingOk e.scope

/-- The four words of entry h (R249). -/
def Core.entryWords (c : Core) (h : Nat) : List W64 := (List.range 4).map fun i => c.getW (c.htab + 32 * h + 8 * i)

/-- Whether entry h has V = 1 and names glade g. -/
def Core.namesGlade (c : Core) (h g : Nat) : Bool :=
  let w1 := c.getW (c.htab + 32 * h + 8)
  w1.getLsbD 0 && w1.getLsbD 12 && fld w1 8 4 == g

/-- Entry h where it is valid and well formed (R249); none on a core without an image (R83). -/
def Core.entry (c : Core) (h : Nat) : Option HandlerEntry :=
  match c.entryWords h with
  | [w0, w1, w2, w3] =>
    let e := entryOf w0 w1 w2
    if !c.placed || !w1.getLsbD 0 || !entryFormed w0 w1 w2 w3 then none
    else if e.glade && (List.range 256).any (fun h' => h' != h && c.namesGlade h' e.src) then none
    else some e
  | _ => none

/-- Whether entry h is valid but not well formed. -/
def Core.entryBad (c : Core) (h : Nat) : Bool := c.placed && (c.getW (c.htab + 32 * h + 8)).getLsbD 0 && (c.entry h).isNone

/-- The valid handler of a glade. -/
def Core.gladeHandler (c : Core) (g : Nat) : Option Nat :=
  (List.range 256).find? fun h => c.namesGlade h g && (c.entry h).isSome

/-- Whether a glade accepts records (R260). -/
def Core.gladeOk (c : Core) (g : Nat) : Bool := (c.glades.getD g {}).decl && (c.gladeHandler g).isSome

/-- The reason a handler message is not accepted, if any (R248, Table 18-6). -/
def refusal (c : Core) (m : Msg) : Option Nat :=
  if !c.placed then some 2
  else match c.entry m.hid.toNat with
    | none => some 3
    | some e =>
      if (if e.glade then m.ch != 3 || m.len != 6 else m.ch.toNat != e.src) then some 4
      else if e.glade && !c.gladeOk e.src then some 5
      else if m.ord != e.ord then some 6
      else none

/-- Discard a message at core n: counted off and reported (R248). -/
def discardMsg (s : State) (n : Nat) (m : Msg) (reason : Nat) : State :=
  pushDelivery (countDiscard s n m.ltag) (siteOf s n) (some n) (msgHeader m) reason 0

/-- The core meets entry h: the first time that one is valid and not well formed, a delivery-error record (R249; its header
is log entry 47's). -/
def meetEntry (s : State) (n h : Nat) : State :=
  let c := s.core n
  if c.entryBad h && !c.metBad.contains h then
    pushDelivery (s.setCore n { c with metBad := c.metBad ++ [h] }) (siteOf s n) (some n) [] 3 0
  else s

/-! ## Injection (R373, R386) -/

/-- Whether a REMAP holds back messages to a core at injection (R373). -/
def heldByRemap (s : State) (dst : Nat) : Bool :=
  dst / 4096 == s.pkg.toNat && s.remaps.any fun r =>
    dieOf (dst % 4096) == r.die || siteOfDie s (dieOf (dst % 4096)) == r.site

/-- Whether a message must wait before the mesh: for a REMAP of its core's die, or for a link (R386). -/
def injectHeld (s : State) (dst : Nat) : Bool := heldByRemap s dst || (dst / 4096 != s.pkg.toNat && !linkUp s)

/-- A message enters the mesh, or leaves on a link for another package. -/
def State.send (s : State) (fl : Flight) : State :=
  if fl.msg.dst.toNat / 4096 = s.pkg.toNat then { s with mesh := s.mesh ++ [fl] } else { s with lyspor := s.lyspor ++ [fl] }

/-- A message of the hardware is sent, or waits until it may be. -/
def State.inject (s : State) (fl : Flight) : State :=
  if injectHeld s fl.msg.dst.toNat then { s with waitFl := s.waitFl ++ [fl] } else s.send fl

/-- The hardware's waiting messages are sent as far as they may be, in their order; so are the mesh interrupts held back. -/
def releaseWait (s : State) : State :=
  s.waitFl.foldl State.inject
    { s with waitFl := [], meshIrqs := s.meshIrqs.map fun q => { q with held := q.held && heldByRemap s (s.pkg.toNat * 4096 + q.target) } }

/-! ## The spill queue (R247, R361) -/

/-- Flits of a message (R244). -/
def flits (m : Msg) : Nat := if m.len.toNat ≤ 6 then 1 else 2

/-- A message as flits of 64 bytes (R244). -/
def msgFlits (m : Msg) : List Byte := padTo (64 * flits m) (msgHeader m ++ m.body.flatMap (bytesLE 8))

/-- A glade record as it lies in memory, with the header of the message that brought it. -/
def gladeRecBytes (h : Nat) (r : GRec) : List Byte :=
  msgFlits { dst := 0, ch := 3, hid := BitVec.ofNat 8 h, len := 6, ord := false, typ := 0, ltag := r.ltag, stamp := 0, body := r.body }

def Spilled.bytes : Spilled → Nat
  | .msg m => if m.msg.len.toNat ≤ 6 then 64 else 128
  | .grec .. => 64

/-- Whether the spill queue takes so many more bytes. -/
def Core.spillRoom (c : Core) (k : Nat) : Bool :=
  (c.spill.map Spilled.bytes).foldl (· + ·) 0 + k ≤ c.spqsz.toNat * 4096

/-- An item of the spill queue as it lies in memory. -/
def Spilled.flits (c : Core) : Spilled → List Byte
  | .msg m => msgFlits m.msg
  | .grec g _ r => gladeRecBytes ((c.gladeHandler g).getD 0) r

/-- The home key of offset o of a core's spill queue: its buffer lies in the HBM of its site, used round (R247, R361). -/
def spillKey (s : State) (c : Core) (o : Nat) : Nat :=
  memKey s.pkg.toNat (c.spq.toNat + o % (c.spqsz.toNat * 4096))

/-- An item enters the spill queue: its flits are written behind those before it. Which items the queue holds stands in
the core's list (log entry 82). -/
def spillIn (s : State) (n : Nat) (x : Spilled) : State :=
  let c := s.core n
  let bs := x.flits c
  let s := if c.spqsz == 0 then s
    else homeWrite s ((bs.zipIdx).map fun e => (spillKey s c (c.spTail + e.2), e.1)) none
  s.updCore n fun c => { c with spill := c.spill ++ [x], spTail := c.spTail + bs.length }

/-- A full or absent spill queue writes one SPILLFULL entry while it lasts (R247, R361). -/
def spillFull (s : State) (n ch : Nat) : State :=
  let c := s.core n
  if c.spillSaid then s
  else
    let s := s.setCore n { c with spillSaid := true }
    pushHost s (hostEntry s 5 (siteOf s n) (some n) [BitVec.ofNat 8 (if c.spqsz == 0 then 0 else ch)])

/-! ## Glades (R260, R263) -/

def Glade.standing (g : Glade) : Bool := g.cols.any fun c => !c.isEmpty

def Glade.col (g : Glade) (l : Nat) : List GRec := g.cols.getD l []

def Core.glade (c : Core) (g : Nat) : Glade := c.glades.getD g {}

def Core.setGlade (c : Core) (g : Nat) (x : Glade) : Core := { c with glades := c.glades.set g x }

/-- Whether a record of the glade's column is spilled. -/
def Core.gladeSpilled (c : Core) (g : Nat) (col : Option Nat) : Bool :=
  c.spill.any fun x => match x with | .grec g' col' _ => g' == g && (match col with | some k => k == col' | none => true) | _ => false

/-- A record stands in its column: the timer starts where none stood (R263). -/
def Glade.enter (g : Glade) (l : Nat) (r : GRec) : Glade :=
  let started := !g.standing
  { g with cols := g.cols.set l (g.col l ++ [r]), running := g.running || started,
           expired := if started then false else g.expired }

/-- The flush mark clears, and the timer stops, where nothing is left (R263, R264). -/
def Core.settleGlade (c : Core) (g : Nat) : Core :=
  let x := c.glade g
  if x.standing then c
  else
    let x := { x with running := false, expired := false }
    c.setGlade g (if c.gladeSpilled g none then x else { x with flush := false })

/-- Place a record at the tail of a column: in the spill queue where the column is full or has spilled records, and
past a full spill queue it waits there (R260, R361; log entry 49). -/
def placeRec (s : State) (n g l : Nat) (ltag : W32) (body : List W64) : State :=
  let c := s.core n
  let r : GRec := { arr := s.fresh, ltag := ltag, body := body }
  let s := { s with fresh := s.fresh + 1 }
  let x := c.glade g
  if x.depth ≤ (x.col l).length || c.gladeSpilled g (some l) then
    let full := !c.spillRoom 64
    let s := spillIn s n (.grec g l r)
    if full then spillFull s n 3 else s
  else s.setCore n (c.setGlade g (x.enter l r))

/-! ## Counting children at a core (R273, R274, R281) -/

/-- Ask the record's home for credits, once (R274). -/
def askRefill (s : State) (n : Nat) (tag : W32) : State :=
  if s.homeQ.any (fun q => match q with | .refill m t _ => m == n && t == tag | _ => false) then s
  else { s with homeQ := s.homeQ ++ [.refill n tag false] }

/-- Take k credits of a tag, or hold the firing until the core has them (R274). -/
def withCredits (s : State) (n sl : Nat) (f : Firing) (k : Nat) (go : State → State) : State :=
  if !counted f.ltag || k = 0 then go s
  else
    let have_ := ((s.core n).pool f.ltag).getD ⟨f.ltag, 0, 0⟩
    if k ≤ have_.pool then go (s.setCore n ((s.core n).setPool { have_ with pool := have_.pool - k }))
    else askRefill (s.setFiring n sl { f with hold := .credit f.ltag }) n f.ltag

/-- Suppress k sends of a tag (R273, R281). -/
def suppress (s : State) (n : Nat) (tag : W32) (k : Nat) : State := poolAdd s n tag 0 k

/-- Count k children and go on, or suppress them under the cancel filter (R281). -/
def countChildren (s : State) (n sl : Nat) (f : Firing) (k : Nat) (send quiet : State → State) : State :=
  if (s.core n).filtered f.ltag then quiet (suppress s n f.ltag k) else withCredits s n sl f k send

/-! ## SEND and SENDV (R258, R284) -/

/-- The floor of R284. -/
def stampFloor (c : Core) (f : Firing) : Nat := match f.stamp with | some t => t.toNat | none => c.vt.toNat

/-- The checks of one message: destination, then order (R258, R284); the offending value. -/
def sendBad (s : State) (n : Nat) (f : Firing) (dst : Nat) (ord : Bool) (stamp : W64) : Option W64 :=
  if !coreExists s dst then some (BitVec.ofNat 64 dst)
  else if ord && dst / 4096 != s.pkg.toNat then some (BitVec.ofNat 64 dst)
  else if ord && fld stamp 0 48 < stampFloor (s.core n) f then some (stamp &&& 0xFFFFFFFFFFFF)
  else none

/-- A message of type 0 of a firing (Table 12-1). -/
def mkMsg (f : Firing) (dst : Nat) (ch : BitVec 3) (hid : BitVec 8) (len : BitVec 4) (ord : Bool) (stamp : W64)
    (body : List W64) : Msg :=
  { dst := BitVec.ofNat 29 dst, ch := ch, hid := hid, len := len, ord := ord, typ := 0, ltag := f.ltag,
    stamp := if ord then stamp.setWidth 48 else 0, body := body }

/-- Place a message in the core's send buffer. -/
def Core.buffer (c : Core) (fl : Flight) : Core := { c with sendBuf := c.sendBuf ++ [fl] }

def mkFlight (n : Nat) (f : Firing) (m : Msg) : Flight :=
  { src := f.uid, msg := m, ackCore := if m.ord then some n else none }

/-- Whether the firing's release, or a SENDV of it, holds its sends (R226, R258). -/
def sendHeld (c : Core) (f : Firing) : Bool := f.relOther || c.placing f

def execSend (o : SendOps) (s : State) : Out :=
  withF s fun n sl f =>
    let c := s.core n
    let l := match o.stamp with | some _ => Len.l96 | none => Len.l64
    let dst := fld (f.srcS o.dst) 0 29
    let stamp := match o.stamp with | some a => f.srcS a | none => 0
    let body := (List.range o.len.toNat).map fun j => f.getS (o.d.toNat + j)
    if !f.enS o.h then s.setFiring n sl (f.retire false o.h l .none)
    else match sendBad s n f dst o.stamp.isSome stamp with
      | some v => takeTrap s n sl (msgfmt v)
      | none =>
        if sendHeld c f || Config.sendCap ≤ c.sendBuf.length then s
        else
          let fl := mkFlight n f (mkMsg f dst o.ch (f.hidOf o.hid) o.len o.stamp.isSome stamp body)
          countChildren s n sl f 1
            (fun s => s.setCore n (((s.core n).buffer fl).setFiring sl (f.retire false o.h l .none)))
            (fun s => s.setFiring n sl (f.retire false o.h l .none))

/-- Lanes of a lane-acting message form (R257). -/
def actLanes (f : Firing) (h : Head) (qm : BitVec 3) : List Nat :=
  if f.enS h then lanes.filter fun L => bitAt (f.getQ qm.toNat) L && bitAt f.mask L else []

/-- Place SENDV's messages one after another while the buffer has room and the credits last (R258); past an empty pool the
placing waits for the reply to its refill (R274). -/
def placeSendv : Nat → State → Nat → State
  | 0, s, _ => s
  | k + 1, s, n =>
    let c := s.core n
    match c.sendvQ with
    | [] => s
    | fl :: rest =>
      let tag := fl.msg.ltag
      let c' := { c with sendvQ := rest }
      if Config.sendCap ≤ c.sendBuf.length || c.sendvWait.isSome then s
      else if c.filtered tag then placeSendv k (suppress (s.setCore n c') n tag 1) n
      else if !counted tag then placeSendv k (s.setCore n (c'.buffer fl)) n
      else
        let e := (c.pool tag).getD ⟨tag, 0, 0⟩
        if e.pool = 0 then askRefill (s.setCore n { c with sendvWait := some tag }) n tag
        else placeSendv k (s.setCore n ((c'.setPool { e with pool := e.pool - 1 }).buffer fl)) n

/-- The fields of lane L's message. -/
def sendvLane (f : Firing) (o : SendvOps) (L : Nat) : Nat × W64 × List W64 :=
  ((f.getV o.dst.toNat L).toNat, f.getV64 o.stamp.toNat L,
   (List.range o.len.toNat).map fun j => f.getV64 (o.d.toNat + 2 * j) L)

/-- The lowest acting lane that fails a check. -/
def sendvBad (s : State) (n : Nat) (f : Firing) (o : SendvOps) (ls : List Nat) : Option (Nat × W64) :=
  ls.findSome? fun L =>
    let x := sendvLane f o L
    let v := if 2 ^ 29 ≤ x.1 then some (BitVec.ofNat 64 x.1) else sendBad s n f x.1 o.ord x.2.1
    v.map fun v => (L, v)

def execSendv (o : SendvOps) (s : State) : Out :=
  withF s fun n sl f =>
    let c := s.core n
    let ls := actLanes f o.h o.qm
    let k := ls.length
    match sendvBad s n f o ls with
    | some (L, v) => takeTrap s n sl { msgfmt v with lane := some L }
    | none =>
      if k = 0 then s.setFiring n sl (f.retire false o.h .l96 .none)
      else if sendHeld c f || !c.sendvQ.isEmpty ||
          (if k ≤ Config.sendCap then Config.sendCap < c.sendBuf.length + k else !c.sendBuf.isEmpty) then s
      else
        let fls := ls.map fun L =>
          let x := sendvLane f o L
          mkFlight n f (mkMsg f x.1 o.ch (f.hidOf o.hid) o.len o.ord x.2.1 x.2.2)
        let go := fun (s : State) =>
          placeSendv k (s.setCore n ({ s.core n with sendvQ := fls }.setFiring sl (f.retire false o.h .l96 .none))) n
        let need := min k Config.sendCap
        if c.filtered f.ltag || !counted f.ltag || need ≤ ((c.pool f.ltag).getD ⟨f.ltag, 0, 0⟩).pool then go s
        else askRefill (s.setFiring n sl { f with hold := .credit f.ltag }) n f.ltag

/-! ## RECV (R259, R284) -/

/-- Undelivered ordered messages of a handler, queued or spilled (R284). -/
def Core.undelivered (c : Core) (hid : BitVec 8) : List Queued :=
  (c.inbox ++ c.spill.filterMap fun x => match x with | .msg m => some m | _ => none).filter
    fun m => m.msg.hid == hid && m.msg.ord

/-- Whether an ordered message is deliverable (R284). -/
def Core.deliverable (c : Core) (m : Queued) : Bool :=
  m.msg.stamp.toNat ≤ c.hz.toNat && (c.undelivered m.msg.hid).all fun x => m.msg.stamp.toNat ≤ x.msg.stamp.toNat

/-- Insert by a key, earlier entries first among equals. -/
def insertBy {α : Type} (key : α → Nat) (x : α) : List α → List α
  | [] => [x]
  | y :: ys => if key x < key y then x :: y :: ys else y :: insertBy key x ys

def sortBy {α : Type} (key : α → Nat) (xs : List α) : List α := xs.foldl (fun acc x => insertBy key x acc) []

/-- Messages queued for a handler, oldest first: by stamp for an ordered one, by arrival otherwise (R284). -/
def Core.queuedFor (c : Core) (hid : BitVec 8) (ord : Bool) : List Queued :=
  let byArr := sortBy (fun m => m.arr) (c.inbox.filter fun m => m.msg.hid == hid)
  if ord then sortBy (fun m => m.msg.stamp.toNat) byArr else byArr

/-- Messages a firing's RECV may take, oldest first. -/
def Core.recvQueue (c : Core) (f : Firing) : List Queued :=
  (c.queuedFor f.hid f.ordered).filter fun m => m.msg.ltag == f.ltag && (!f.ordered || c.deliverable m)

/-- Firings blocked in RECV for a handler and launch. -/
def Core.blockedRecv (c : Core) (hid : BitVec 8) (ltag : W32) : List Firing :=
  (c.firings.map (·.2)).filter fun f => f.hold == .recv && f.hid == hid && f.ltag == ltag && !f.stopped

/-- The firing a message came to while that firing was blocked in RECV (R259), as long as it is. -/
def Core.keptFor (c : Core) (m : Queued) : Option Nat :=
  match m.for_ with
  | none => none
  | some u => if (c.blockedRecv m.msg.hid m.msg.ltag).any (fun f => f.uid == u) then some u else none

/-- Messages that no other firing blocked in RECV has been given. -/
def Core.recvFree (c : Core) (f : Firing) : List Queued :=
  (c.recvQueue f).filter fun m => match c.keptFor m with | some u => u == f.uid | none => true

/-- The message given to a firing. -/
def Core.givenTo (c : Core) (f : Firing) : Option Queued := (c.recvQueue f).find? fun m => c.keptFor m == some f.uid

/-- An arriving message goes to the oldest firing blocked in RECV that none has been given to (R259). An ordered one is given
to none on arrival: which of them a firing may take its stamp decides, once it is deliverable (R284). -/
def Core.giveTo (c : Core) (m : Msg) : Option Nat :=
  if m.ord then none else
  ((c.blockedRecv m.hid m.ltag).filter fun f => !c.inbox.any fun x => c.keptFor x == some f.uid).foldl (fun o f =>
    match o with
    | none => some f.uid
    | some u => if f.uid < u then some f.uid else some u) none

def Core.dequeue (c : Core) (m : Queued) : Core := { c with inbox := c.inbox.filter fun x => x.arr != m.arr }

/-- The summary word of RECV. -/
def recvSummary (m : Msg) : W64 := BitVec.ofNat 64 (m.stamp.toNat + m.len.toNat * 2 ^ 48 + m.ch.toNat * 2 ^ 52)

/-- Take a message: summary, and body words that land at or below s63 (R259). -/
def Firing.takeMsg (f : Firing) (d : Nat) (m : Msg) : Firing :=
  let body := (m.body.zipIdx).filterMap fun e => if d + 1 + e.2 ≤ 63 then some (d + 1 + e.2, e.1) else none
  { f.depVal ((d, recvSummary m) :: body) [] [] with taken := f.taken + 1 }

/-- Discard the messages of a cancelled launch that a RECV would take (R281). -/
def discardQueued (s : State) (n : Nat) (ms : List Queued) : State :=
  ms.foldl (fun s m => countDiscard (s.setCore n ((s.core n).dequeue m)) n m.msg.ltag) s

/-- The message a RECV takes: the one given to its firing while it was blocked; else the oldest that is not another's, of
those left over by older firings still blocked without one. -/
def Core.recvPick (c : Core) (f : Firing) : Option Queued :=
  match c.givenTo f with
  | some m => some m
  | none =>
    let q := (c.recvFree f).filter fun m => (c.keptFor m).isNone
    let older := (c.blockedRecv f.hid f.ltag).filter fun x => x.uid < f.uid && (c.givenTo x).isNone
    q[older.length]?

/-- RECV and RECV.NB (R259). A core whose image is still coming keeps its messages until all have theirs (R83). -/
def execRecv (o : RecvOps) (s : State) : Out :=
  withF s fun n sl f =>
    let c := s.core n
    if !f.enS o.h then s.setFiring n sl (f.retire false o.h .l64 .none)
    else if f.gsrc then takeTrap s n sl (msgfmt 0)
    else if !c.filterWait.isEmpty || c.loading then s
    else
      let none_ := fun (s : State) (f : Firing) =>
        s.setFiring n sl ((f.depStatus o.d 0xFFFFFFFFFFFFFFFF).retire false o.h .l64 .none)
      if c.filtered f.ltag then
        let s := discardQueued s n (if sl = trapSlot then [] else c.recvQueue f)
        if o.nb then none_ s f else takeTrap s n sl (cause 0x16)
      else
        match (if sl = trapSlot then none else c.recvPick f) with
        | some m =>
          s.setCore n ((c.dequeue m).setFiring sl ((f.takeMsg o.d.toNat m.msg).retire false o.h .l64 .none))
        | none => if o.nb then none_ s f else s.setFiring n sl { f with hold := .recv }

/-! ## GPOST, REQUEUE, GFLUSH (R261, R262, R264) -/

def execGpost (o : GpostOps) (s : State) : Out :=
  withF s fun n sl f =>
    let c := s.core n
    let g := o.g.toNat
    if !f.enS o.h then s.setFiring n sl (f.retire false o.h .l64 .none)
    else if !c.gladeOk g then takeTrap s n sl (msgfmt (BitVec.ofNat 64 g))
    else if sendHeld c f then s
    else
      let body := (List.range 6).map fun j => f.getS (o.d.toNat + j)
      countChildren s n sl f 1
        (fun s => placeRec (s.setFiring n sl (f.retire false o.h .l64 .none)) n g (fld (f.getS o.d.toNat) 0 5) f.ltag body)
        (fun s => s.setFiring n sl (f.retire false o.h .l64 .none))

/-- The path after the acting lanes have left it (R262). -/
def Firing.depart (f : Firing) (h : Head) (ls : List Nat) : Firing :=
  let m := f.path.mask &&& ~~~ laneMask fun L => ls.contains L
  if m == 0 then
    let f := f.endIssue false h.c .none
    (f.setPath f.cur { f.path with mask := 0, st := 3 }).selectPath false
  else
    let f := f.retire false h .l64 .none
    f.setPath f.cur { f.path with mask := m }

/-- REQUEUE: the lanes' records enter the glade and the lanes end. Where that ends the firing, it waits and releases as DONE does
before any record enters (log entry 103). -/
def execRequeue (o : RequeueOps) (s : State) : Out :=
  withF s fun n sl f =>
    let c := s.core n
    let g := o.g.toNat
    let ls := actLanes f o.h o.qm
    let others := (f.inState 1 ++ f.inState 2).filter fun e => e != f.cur
    let ends := (f.path.mask &&& ~~~ laneMask fun L => ls.contains L) == 0 && others.isEmpty
    if ls.isEmpty then s.setFiring n sl (f.retire false o.h .l64 .none)
    else if !c.gladeOk g then takeTrap s n sl (msgfmt (BitVec.ofNat 64 g))
    else if sendHeld c f then s
    else if ends && !(endReady c sl f && endOpen s n f) then s
    else if ends && !endReleased s n f then beginRel s n sl f (clearingCross n f.scope)
    else if ends && f.owed.isSome then takeTrap s n sl (f.owed.getD (cause 0))
    else
      let body := fun L => (List.range 6).map fun j => f.getV64 (o.d.toNat + 2 * j) L
      let leave := fun (s : State) =>
        if ends then finishFiring s n sl { f with paths := (f.setPath f.cur { f.path with mask := 0 }).paths }
        else s.setFiring n sl (f.depart o.h ls)
      countChildren s n sl f ls.length
        (fun s => leave (ls.foldl (fun s L => placeRec s n g L f.ltag (body L)) s)) leave

def execGflush (o : GflushOps) (s : State) : Out :=
  withF s fun n sl f =>
    let c := s.core n
    let g := o.g.toNat
    let x := c.glade g
    let c' := if f.enS o.h && (x.standing || c.gladeSpilled g none) then c.setGlade g { x with flush := true } else c
    s.setCore n (c'.setFiring sl (f.retire false o.h .l64 .none))

/-! ## Proxy queues (R265, R266) -/

/-- A descriptor's fields (Table 12-5). -/
structure QDesc where
  tgt    : W64
  tail   : W64
  head   : W64
  asid   : BitVec 16
  esz    : Nat
  kind   : Nat
  tsz    : Nat
  ssz    : Nat
  zero   : Bool
  shoff  : Nat
  ftim   : Nat
  pushed : Nat
  sent   : Nat
  deriving DecidableEq, Repr

/-- The descriptor at an offset. -/
def Core.qdesc (c : Core) (off : Nat) : QDesc :=
  let w3 := c.getW (off + 0x18)
  let w4 := c.getW (off + 0x20)
  { tgt := c.getW off, tail := c.getW (off + 8), head := c.getW (off + 0x10), asid := w3.setWidth 16,
    esz := fld w3 16 8, kind := fld w3 24 8, tsz := fld w3 32 8, ssz := fld w3 40 8,
    zero := fld w3 48 16 == 0 && c.getW (off + 0x38) == 0, shoff := fld w4 0 32, ftim := fld w4 32 32,
    pushed := (c.getW (off + 0x28)).toNat, sent := (c.getW (off + 0x30)).toNat }

def QDesc.entryBytes (d : QDesc) : Nat := 8 * 2 ^ d.esz
def QDesc.shadowEntries (d : QDesc) : Nat := 2 ^ d.ssz * 4096 / d.entryBytes
def QDesc.ringEntries (d : QDesc) : Nat := 2 ^ d.tsz * 4096 / d.entryBytes

/-- A KIND 1 address: other bits zero, an existing core. -/
def farOk (s : State) (w : W64) (align : Nat) : Bool :=
  fld w 29 3 == 0 && fld w 52 12 == 0 && fld w 32 20 % align == 0 && coreExists s (fld w 0 29)

/-- Whether a descriptor is well formed (Table 12-5, R266). -/
def QDesc.formed (s : State) (c : Core) (d : QDesc) : Bool :=
  d.zero && d.esz ≤ 3 && d.kind ≤ 1 && d.tsz ≤ 20 && d.ssz ≤ 4 &&
  d.shoff % 4096 == 0 && d.shoff + 2 ^ d.ssz * 4096 ≤ 2 ^ 20 && !c.inWs d.shoff (2 ^ d.ssz * 4096) &&
  (if d.kind = 1 then farOk s d.tgt 4096 && farOk s d.tail 8 && farOk s d.head 8
   else d.tgt.toNat % 4096 == 0 && d.tail.toNat % 8 == 0 && d.head.toNat % 8 == 0)

/-- The checks of QPUSH and QFLUSH, in order (R266). -/
def qcheck (s : State) (n : Nat) (off : W64) (d : Option Nat) : Option TrapCause :=
  let c := s.core n
  if off.toNat % 64 != 0 then some (causeAt 0x09 .scratch off)
  else if c.spadProt off.toNat 64 then some (causeAt 0x0B .scratch off)
  else
    let q := c.qdesc off.toNat
    if !q.formed s c || q.asid != c.asid then some (msgfmt (c.getW (off.toNat + 0x18)))
    else match d with
      | some r => if 63 < r + 2 ^ q.esz - 1 then some (msgfmt (BitVec.ofNat 64 r)) else none
      | none => none

/-- What the engine keeps of a descriptor. -/
def Core.proxy (c : Core) (off : Nat) : Proxy :=
  (c.proxies.find? fun p => p.off == off).getD ⟨off, 0, [], none, false⟩

def Core.setProxy (c : Core) (p : Proxy) : Core :=
  if c.proxies.any (fun q => q.off == p.off) then { c with proxies := c.proxies.map fun q => if q.off == p.off then p else q }
  else { c with proxies := c.proxies ++ [p] }

/-- A push of entry k by a firing: a queue that was empty starts anew. -/
def Core.pushed (c : Core) (off k sent uid time : Nat) : Core :=
  let p := c.proxy off
  let p := if k = sent then { p with marked := k, owners := [], stopped := false } else p
  c.setProxy { p with owners := p.owners ++ [(k, uid, time)] }

def execQpush (o : DAOps) (s : State) : Out :=
  withF s fun n sl f =>
    let c := s.core n
    if !f.enS o.h then s.setFiring n sl (f.retire false o.h .l64 .none)
    else
      let off := f.srcS o.a
      match qcheck s n off (some o.d.toNat) with
      | some t => takeTrap s n sl t
      | none =>
        let q := c.qdesc off.toNat
        if sendHeld c f || q.shadowEntries ≤ q.pushed - q.sent then s
        else
          let words := (List.range (2 ^ q.esz)).flatMap fun j => bytesLE 8 (f.getS (o.d.toNat + j))
          let c := c.putBs (q.shoff + q.entryBytes * (q.pushed % q.shadowEntries)) words
          let c := c.putW (off.toNat + 0x28) (BitVec.ofNat 64 (q.pushed + 1))
          let c := c.pushed off.toNat q.pushed q.sent f.uid s.fresh
          { s with fresh := s.fresh + 1 }.setCore n (c.setFiring sl (f.retire false o.h .l64 .none))

def execQflush (o : AOps) (s : State) : Out :=
  withF s fun n sl f =>
    let c := s.core n
    if !f.enS o.h then s.setFiring n sl (f.retire false o.h .l64 .none)
    else
      let off := f.srcS o.a
      match qcheck s n off none with
      | some t => takeTrap s n sl t
      | none =>
        let q := c.qdesc off.toNat
        let c := c.setProxy { c.proxy off.toNat with marked := q.pushed }
        s.setCore n (c.setFiring sl (f.retire false o.h .l64 .none))

/-! ## HTAB (R268) -/

def execHtabGet (o : DAOps) (s : State) : Out :=
  withF s fun n sl f =>
    let c := s.core n
    let ws := c.entryWords (fld (f.srcS o.a) 0 8)
    let f' := if f.enS o.h then f.depVal ((ws.zipIdx).map fun e => (o.d.toNat + e.2, e.1)) [] [] else f
    s.setFiring n sl (f'.retire false o.h .l64 .none)

/-- Discard every message queued for a handler (R268). -/
def discardHandler (s : State) (n : Nat) (hid : BitVec 8) : State :=
  let c := s.core n
  let out := (c.inbox ++ c.spill.filterMap fun x => match x with | .msg m => some m | _ => none).filter fun m => m.msg.hid == hid
  let c := { c with inbox := c.inbox.filter fun m => m.msg.hid != hid,
                    spill := c.spill.filter fun x => match x with | .msg m => m.msg.hid != hid | _ => true }
  out.foldl (fun s m => discardMsg s n m.msg 3) (s.setCore n c)

def execHtabSet (o : DAOps) (s : State) : Out :=
  withF s fun n sl f =>
    let c := s.core n
    let hn := fld (f.srcS o.a) 0 8
    let w := fun i => f.getS (o.d.toNat + i)
    if !f.enS o.h then s.setFiring n sl (f.retire false o.h .l64 .none)
    else if (w 1).getLsbD 0 && (!entryFormed (w 0) (w 1) (w 2) (w 3) ||
        ((w 1).getLsbD 12 && (List.range 256).any fun h' => h' != hn && c.namesGlade h' (fld (w 1) 8 4))) then takeTrap s n sl (msgfmt (w 1))
    else
      let c := (List.range 4).foldl (fun c i => c.putW (c.htab + 32 * hn + 8 * i) (w i)) { c with metBad := c.metBad.filter (· != hn) }
      let s := s.setCore n (c.setFiring sl (f.retire false o.h .l64 .none))
      if (w 1).getLsbD 0 then s else discardHandler s n (BitVec.ofNat 8 hn)

end Sys2Proof.Machine
end

