-- ==== Sys2Proof/Machine/Launch.lean ====
section
/-! DEFINITION. Launch, work-level and virtual-time instructions (R270 to R285), as far as the issuing core goes. -/

namespace Sys2Proof.Machine

def tagPkg (t : W32) : Nat := fld t 15 17
def tagIdx (t : W32) : Nat := fld t 0 15

/-- Fields of a launch descriptor (Table 13-4). -/
def ldTag (d : List Byte) : W32 := w32OfLE (d.take 4)
def ldParent (d : List Byte) : W32 := w32OfLE ((d.drop 4).take 4)
def ldLevel (d : List Byte) : Nat := (d.getD 8 0).toNat
def ldKind (d : List Byte) : Nat := (d.getD 9 0).toNat
def ldHid (d : List Byte) : BitVec 8 := d.getD 0xA 0
def ldDies (d : List Byte) : BitVec 8 := d.getD 0xB 0
def ldFlags (d : List Byte) : BitVec 8 := d.getD 0xC 0
def ldWord (d : List Byte) (o : Nat) : W64 := w64OfLE ((d.drop o).take 8)
def ldRect (d : List Byte) : W64 := ldWord d 0x10
def ldNotify (d : List Byte) : W64 := ldWord d 0x18

/-- The MSGFMT conditions of R276; wake says .WAKE. -/
def ldBad (s : State) (wake : Bool) (d : List Byte) : Bool :=
  fld (ldFlags d) 2 6 != 0 || (d.drop 0xD).take 3 != [0, 0, 0] || ldWord d 0x38 != 0 ||
  (ldKind d == 1 && ldRect d != 0) ||
  tagPkg (ldTag d) != s.pkg.toNat || tagIdx (ldTag d) == 0 ||
  (ldParent d != 0 && tagPkg (ldParent d) != s.pkg.toNat) ||
  (if wake then ldLevel d != 0 else ldLevel d != 1 && ldLevel d != 2) ||
  1 < ldKind d || nzBad (ldNotify d)

/-- The CLEARING condition of R276. -/
def ldClearing (d : List Byte) : Bool := ldKind d == 0 && (!clearingOk (ldRect d) || clrKind (ldRect d) != 2)

/-- Send a request to a home slice; its answer is a deposit. -/
def State.askHome (s : State) (q : HomeReq) : State := { s with homeQ := s.homeQ ++ [q] }

/-- LAUNCH.WAKE and .OPEN at issue (R276). -/
def launchIssue (wake : Bool) (o : DAOps) (s : State) : Out :=
  withF s fun n sl f =>
    let c := s.core n
    if !f.enS o.h then s.setFiring n sl (f.retire false o.h .l64 .none)
    else
      let off := f.srcS o.a
      if off.toNat % 8 != 0 then takeTrap s n sl (causeAt 0x09 .scratch off)
      else if c.spadProt off.toNat 64 then takeTrap s n sl (causeAt 0x0B .scratch off)
      else
        let d := c.getBs off.toNat 64
        if ldBad s wake d then takeTrap s n sl (msgfmt (ldWord d 0))
        else if ldClearing d then takeTrap s n sl (clearingTrap (ldRect d))
        else if sendHeld c f then s
        else
          (s.setFiring n sl ((f.depUnit [o.d.toNat] []).retire false o.h .l64 .none)).askHome
            (.launch (some (n, f.uid, f.seq)) d)

def execLaunchWake (o : DAOps) (s : State) : Out := launchIssue true o s
def execLaunchOpen (o : DAOps) (s : State) : Out := launchIssue false o s

def execLaunchClose (o : DAOps) (s : State) : Out :=
  withF s fun n sl f =>
    if !f.enS o.h then s.setFiring n sl (f.retire false o.h .l64 .none)
    else if sendHeld (s.core n) f then s
    else
      (s.setFiring n sl ((f.depUnit [o.d.toNat] []).retire false o.h .l64 .none)).askHome
        (.close n f.uid f.seq ((f.srcS o.a).setWidth 32))

/-- A tag of index 0, or of a package beyond the configured size (R279, R280). -/
def tagBad (s : State) (t : W32) : Bool := tagIdx t == 0 || s.sysSize ≤ tagPkg t

def execCancel (o : DAOps) (s : State) : Out :=
  withF s fun n sl f =>
    let t : W32 := (f.srcS o.a).setWidth 32
    if !f.enS o.h then s.setFiring n sl (f.retire false o.h .l64 .none)
    else if tagBad s t then takeTrap s n sl (msgfmt (f.srcS o.a))
    else if sendHeld (s.core n) f then s
    else
      (s.setFiring n sl ((f.depUnit [o.d.toNat] []).retire false o.h .l64 .none)).askHome
        (.cancel (some (n, f.uid, f.seq)) t)

/-- LVLREAD (R279): ordered like an atomic, so it takes its place in the store queue. -/
def lvlIssue (reap : Bool) (o : DAOps) (s : State) : Out :=
  withF s fun n sl f =>
    let t : W32 := (f.srcS o.a).setWidth 32
    if !f.enS o.h then s.setFiring n sl (f.retire false o.h .l64 .none)
    else if tagBad s t then takeTrap s n sl (msgfmt (f.srcS o.a))
    else if !f.sqRoom 1 then s
    else
      s.setFiring n sl (((f.enter [.lvl t reap]).depUnit ((List.range 4).map (o.d.toNat + ·)) []).retire
        false o.h .l64 .none)

def execLvlread (o : DAOps) (s : State) : Out := lvlIssue false o s
def execLvlreadReap (o : DAOps) (s : State) : Out := lvlIssue true o s

/-! ## Virtual time (R282 to R285) -/

/-- A form that reads a word of the core into s(D). -/
def readCore (o : DOps) (g : Core → W64) (s : State) : Out :=
  withF s fun n sl f => s.setFiring n sl (f.writeS o.h .l64 o.d.toNat (g (s.core n)))

def execVtget (o : DOps) (s : State) : Out := readCore o (·.vt) s
def execVtgetRep (o : DOps) (s : State) : Out := readCore o (·.report) s
def execHzread (o : DOps) (s : State) : Out := readCore o (·.hz) s
def execHzreadSys (o : DOps) (s : State) : Out := readCore o (·.hzSys) s

/-- Whether a value may be written to sr.vt (R285). -/
def vtOk (c : Core) (x : W64) : Bool :=
  x == 0xFFFFFFFFFFFFFFFF || (fld x 48 16 == 0 && c.report.toNat ≤ x.toNat)

def execVtset (o : AOps) (s : State) : Out :=
  withF s fun n sl f =>
    let c := s.core n
    let x := f.srcS o.a
    if !f.enS o.h then s.setFiring n sl (f.retire false o.h .l64 .none)
    else if !vtOk c x then takeTrap s n sl (msgfmt x)
    else s.setCore n ({ c with vt := x }.setFiring sl (f.retire false o.h .l64 .none))

/-- HZWAIT: not ready until the horizon passes the stamp; CANCELLED in a cancelled launch (R285, R349). -/
def hzwait (o : AOps) (g : Core → W64) (s : State) : Out :=
  withF s fun n sl f =>
    let c := s.core n
    if !f.enS o.h then s.setFiring n sl (f.retire false o.h .l64 .none)
    else if fld (f.srcS o.a) 0 48 < (g c).toNat then s.setFiring n sl (f.retire false o.h .l64 .none)
    else if c.filtered f.ltag then takeTrap s n sl (cause 0x16)
    else s.setFiring n sl { f with hold := .hzwait }

def execHzwait (o : AOps) (s : State) : Out := hzwait o (·.hz) s
def execHzwaitSys (o : AOps) (s : State) : Out := hzwait o (·.hzSys) s

end Sys2Proof.Machine
end

