-- ==== Sys2Proof/Machine/Records.lean ====
section
/-! DEFINITION. Completion records at their home slice (R270 to R272, R277, R280): their fields in the launch table, the
changes of LAUNCH, CANCEL and the counting, the finish, and the answers of units to the firings that wait for them. -/

namespace Sys2Proof.Machine

/-! ## Answers -/

/-- The slot of a live firing. -/
def Core.slotOf (c : Core) (uid : Nat) : Option Nat := (c.live.find? fun e => e.2.uid == uid).map (·.1)

/-- Put words into the registers of a unit's deposit. -/
def Firing.answerWords (f : Firing) (seq : Nat) (ws : List W64) : Firing :=
  match f.deps.find? (fun d => d.seq == seq) with
  | none => f
  | some d => f.answer seq (d.sregs.zip ws) []

/-- Answer a deposit of a firing, where it still lives. -/
def answerFiring (s : State) (n uid seq : Nat) (ws : List W64) : State :=
  match (s.core n).slotOf uid with
  | none => s
  | some sl =>
    match s.firing n sl with
    | none => s
    | some f => s.setFiring n sl (f.answerWords seq ws)

/-- The status of a request, to whoever made it: a firing's deposit. -/
def answerBy (s : State) (by_ : Option (Nat × Nat × Nat)) (status : W64) : State :=
  match by_ with
  | none => s
  | some (n, uid, seq) => answerFiring s n uid seq [status]

/-! ## Fields of a record (Table 13-1) -/

/-- Write bytes at home (R217). -/
def homePut (s : State) (key : Nat) (bs : List Byte) : State :=
  homeWrite s ((bs.zipIdx).map fun e => (key + e.2, e.1)) none

/-- The record of an index (R271). -/
def recKey (s : State) (i : Nat) : Nat := memKey s.pkg.toNat (s.launchBase + 64 * i)

def recW (s : State) (i o : Nat) : W64 := s.getW (recKey s i + o)
def recB (s : State) (i o : Nat) : Byte := s.getB (recKey s i + o)

def recCount (s : State) (i : Nat) : W64 := recW s i 0
def recState (s : State) (i : Nat) : Nat := (recB s i 8).toNat
def recLevel (s : State) (i : Nat) : Nat := (recB s i 9).toNat
def recFlags (s : State) (i : Nat) : Byte := recB s i 10
def recParent (s : State) (i : Nat) : W32 := w32OfLE (s.getBs (recKey s i + 0xC) 4)

def recPutW (s : State) (i o : Nat) (x : W64) : State := homePut s (recKey s i + o) (bytesLE 8 x)
def recPutB (s : State) (i o : Nat) (b : Byte) : State := homePut s (recKey s i + o) [b]

/-- Whether a tag's record lies in this package. -/
def tagHere (s : State) (t : W32) : Bool := tagPkg t == s.pkg.toNat

/-- The tag of a record of this package. -/
def tagOf (s : State) (i : Nat) : W32 := BitVec.ofNat 32 (s.pkg.toNat * 2 ^ 15 + i)

/-- A record OPEN with count 0: its finish comes before any other change of it (R272). -/
def recEnding (s : State) (i : Nat) : Bool := recState s i == 1 && recCount s i == 0

/-- Whether an action on a tag must wait for a finish. -/
def tagEnding (s : State) (t : W32) : Bool := tagHere s t && recEnding s (tagIdx t)

/-- Add to a record's count. -/
def recAdd (s : State) (i : Nat) (x : W64) : State := recPutW s i 0 (recCount s i + x)

/-- The site of a record's home slice. -/
def recSite (s : State) (i : Nat) : Nat := homeSite s (recKey s i)

/-! ## Messages made by hardware -/

/-- A message of hardware is injected, from a sender of its own (R246). -/
def sendHw (s : State) (m : Msg) : State := { s with fresh := s.fresh + 1 }.inject { src := s.fresh + 1, msg := m }

/-- A home slice's message; to a core that does not exist it is discarded and reported (R248). -/
def sendHome (s : State) (site : Nat) (m : Msg) : State :=
  if coreExists s m.dst.toNat then sendHw s m else pushDelivery s site none (msgHeader m) 1 0

/-- A home slice's counted notification (R238, R248): the child is counted at the record before the message leaves; to a
core that does not exist it is discarded and counted off again. -/
def sendCounted (s : State) (site : Nat) (m : Msg) : State :=
  let own := counted m.ltag && tagHere s m.ltag
  let i := tagIdx m.ltag
  if coreExists s m.dst.toNat then sendHw (if own then recAdd s i 1 else s) m
  else
    let s := if own then recPutW s i 0x10 (recW s i 0x10 + 1) else s
    pushDelivery s site none (msgHeader m) 1 0

/-- The notification message of a descriptor pair on channel 1 (R238, R272, R336). -/
def notifyMsg (desc : W64) (ltag : W32) (body : List W64) : Msg :=
  { dst := desc.setWidth 29, ch := 1, hid := desc.extractLsb' 32 8, len := BitVec.ofNat 4 body.length, ord := false, typ := 0,
    ltag := ltag, stamp := 0, body := body }

/-! ## The finish (R272) -/

/-- The other packages of the configured system. -/
def otherPkgs (s : State) : List Nat := (List.range s.sysSize).filter (· != s.pkg.toNat)

/-- A cancel filter's entry for a tag on its way to another package, or its removal: a control message on a link, addressed to
that package's first core (its place and its body are log entry 71's). -/
def filterMsg (del : Bool) (tag : W32) (p : Nat) : Msg :=
  { dst := BitVec.ofNat 29 (4096 * p), ch := 5, hid := 0, len := if del then 1 else 0, ord := false, typ := 3, ltag := tag, stamp := 0,
    body := if del then [1] else [] }

/-- A broadcast of R280 leaves for every other package. -/
def tellPkgs (s : State) (del : Bool) (tag : W32) : State := (otherPkgs s).foldl (fun s p => sendHw s (filterMsg del tag p)) s

/-- RECORD_FINISH on a record: its state, its notifications, its parent, and the second broadcast of R280. -/
def finishRecord (s : State) (i : Nat) : State :=
  let fl := recFlags s i
  let ended : Nat := if fl.getLsbD 0 || fl.getLsbD 3 then 3 else 2
  let tag := tagOf s i
  let site := recSite s i
  let cookie := recW s i 0x28
  let p := recParent s i
  let s := recPutB s i 8 (BitVec.ofNat 8 ended)
  let s := if fl.getLsbD 2 then sendHome s site (notifyMsg (recW s i 0x20) 0 [cookie, tag.setWidth 64]) else s
  let s := if fl.getLsbD 1 then
      pushHost s (hostEntry s 3 site none (bytesLE 4 tag ++ leN 4 ended ++ bytesLE 8 cookie)) else s
  let s := if p = 0 then s
    else
      let s := if ended = 3 then recPutB s (tagIdx p) 10 (recFlags s (tagIdx p) ||| 8) else s
      recAdd s (tagIdx p) (-1)
  if fl.getLsbD 0 then tellPkgs { s with filterDel := s.filterDel ++ [⟨tag, []⟩] } true tag else s

/-- RECORD_FINISH (R272). -/
def execRecordFinish (i : Nat) (s : State) : Out :=
  if 1 ≤ i && i < 32768 && recEnding s i then .next (finishRecord s i) else .next s

/-! ## LAUNCH at the home (R277, R278) -/

/-- Whether a core lies in the descriptor's rectangle or on a die of its mask. -/
def ldHolds (d : List Byte) (n : Nat) : Bool :=
  if ldKind d = 0 then clearingHolds 0 (ldRect d) n else (ldDies d).getLsbD (dieOf n)

/-- The woken set, ascending. -/
def wokenSet (s : State) (d : List Byte) : List Nat :=
  (List.range 4096).filter fun n => ldHolds d n && coreHere s n && s.diesReady.getLsbD (dieOf n)

/-- A record as LAUNCH writes it, 64 bytes. -/
def newRecord (d : List Byte) (state count woken : Nat) : List Byte :=
  leN 8 count ++ [BitVec.ofNat 8 state, BitVec.ofNat 8 (ldLevel d), BitVec.ofNat 8 (fld (ldFlags d) 0 2 * 2), 0] ++
  bytesLE 4 (ldParent d) ++ leN 8 0 ++ leN 4 woken ++ leN 4 0 ++ bytesLE 8 (ldNotify d) ++ bytesLE 8 (ldWord d 0x20) ++
  List.replicate 16 0

/-- One wake message of the flood. -/
def wakeMsg (s : State) (d : List Byte) (n r count : Nat) : Msg :=
  { dst := BitVec.ofNat 29 (gcaOf s n), ch := 5, hid := ldHid d, len := 4, ord := false, typ := 0, ltag := ldTag d, stamp := 0,
    body := [ldWord d 0x28, ldWord d 0x30, BitVec.ofNat 64 r, BitVec.ofNat 64 count] }

/-- The parent's test of R277, item 2. -/
def parentOk (s : State) (d : List Byte) : Bool :=
  ldParent d == 0 || (recState s (tagIdx (ldParent d)) == 1 && ldLevel d < recLevel s (tagIdx (ldParent d)))

/-- The parent's count gains 1. -/
def parentAdd (s : State) (d : List Byte) : State := if ldParent d = 0 then s else recAdd s (tagIdx (ldParent d)) 1

/-- A LAUNCH entry (Table 18-4). -/
def pushLaunch (s : State) (core : Option Nat) (tag : W32) (status origin : Nat) : State :=
  pushHost s (hostEntry s 2 (recSite s (tagIdx tag)) core (bytesLE 4 tag ++ leN 1 status ++ leN 1 origin))

/-- LAUNCH at the home: the state after it and its status (Table 13-5). -/
def launchAtHome (s : State) (d : List Byte) : State × Nat :=
  let i := tagIdx (ldTag d)
  if recState s i != 0 then (s, 2)
  else if !parentOk s d then (s, 3)
  else if ldLevel d != 0 then (parentAdd (homePut s (recKey s i) (newRecord d 1 1 0)) d, 0)
  else
    let ns := wokenSet s d
    let count := ns.length
    if count = 0 then (homePut s (recKey s i) (newRecord d 4 0 0), 1)
    else
      let s := parentAdd (homePut s (recKey s i) (newRecord d 1 count count)) d
      ((ns.zipIdx).foldl (fun s e => sendHw s (wakeMsg s d e.1 e.2 count)) s, 0)

/-- CLOSE at the home (R277, item 4). -/
def closeAtHome (s : State) (tag : W32) : State × Nat :=
  let i := tagIdx tag
  if recState s i != 1 then (s, 4) else if recLevel s i = 0 then (s, 3) else (recAdd s i (-1), 0)

/-- Drop request i of the home queue. -/
def dropReq (s : State) (i : Nat) : State := { s with homeQ := listRemove s.homeQ i }

/-- The answer of another package's home (log entry 12). -/
def farAnswer (s : State) (by_ : Option (Nat × Nat × Nat)) : State :=
  answerBy { s with fresh := s.fresh + 1 } by_ (Config.farWord s.fresh 0)

/-- LAUNCH_HOME_ACTION (R277): a wake or open, or a close, and its status. A NO_CORES wake writes its LAUNCH entry. -/
def execLaunchHomeAction (i : Nat) (s : State) : Out :=
  match s.homeQ[i]? with
  | some (.launch by_ d) =>
    if tagEnding s (ldTag d) || (ldParent d != 0 && tagEnding s (ldParent d)) then .next s
    else
      let r := launchAtHome (dropReq s i) d
      let t := if r.2 = 1 then pushLaunch r.1 (by_.map (·.1)) (ldTag d) 1 0 else r.1
      .next (answerBy t by_ (BitVec.ofNat 64 r.2))
  | some (.close n uid seq tag) =>
    if !tagHere s tag then .next (if linkUp s then farAnswer (dropReq s i) (some (n, uid, seq)) else s)
    else if tagEnding s tag then .next s
    else
      let r := closeAtHome (dropReq s i) tag
      .next (answerBy r.1 (some (n, uid, seq)) (BitVec.ofNat 64 r.2))
  | _ => .next s

/-! ## CANCEL at the home (R280) -/

/-- CANCEL of a record of this package: the mark, and the broadcast to every core of every package (R280). -/
def cancelAtHome (s : State) (tag : W32) : State × Nat :=
  let i := tagIdx tag
  if recState s i != 1 then (s, 4)
  else if recLevel s i != 0 then (s, 3)
  else if (recFlags s i).getLsbD 0 then (s, 0)
  else
    let s := recPutB s i 10 (recFlags s i ||| 1)
    (tellPkgs { s with filterAdd := s.filterAdd ++ [⟨tag, []⟩] } false tag, 0)

/-- CANCEL_HOME_ACTION (R280). -/
def execCancelHomeAction (i : Nat) (s : State) : Out :=
  match s.homeQ[i]? with
  | some (.cancel by_ tag) =>
    if !tagHere s tag then .next (if linkUp s then farAnswer (dropReq s i) by_ else s)
    else if tagEnding s tag then .next s
    else
      let r := cancelAtHome (dropReq s i) tag
      .next (answerBy r.1 by_ (BitVec.ofNat 64 r.2))
  | _ => .next s

/-! ## Counting (R274) -/

/-- RECORD_COUNT_UPDATE: a refill adds 64 and may then be answered; a return subtracts its credits and adds its
discards. A record of another package is that package's (log entry 12). -/
def execRecordCountUpdate (i : Nat) (s : State) : Out :=
  match s.homeQ[i]? with
  | some (.refill n tag false) =>
    if tagEnding s tag || (!tagHere s tag && !linkUp s) then .next s
    else
      let s := { s with homeQ := s.homeQ.set i (.refill n tag true) }
      .next (if tagHere s tag then recAdd s (tagIdx tag) 64 else s)
  | some (.giveBack tag k disc) =>
    if !tagHere s tag then .next (if linkUp s then dropReq s i else s)
    else
      let s := dropReq s i
      let s := recPutW s (tagIdx tag) 0x10 (recW s (tagIdx tag) 0x10 + BitVec.ofNat 64 disc)
      .next (recAdd s (tagIdx tag) (0 - BitVec.ofNat 64 k))
  | _ => .next s

/-- CREDIT_REFILL_REPLY: 64 credits come; firings that waited for them run on, and a SENDV goes on placing. -/
def execCreditRefillReply (n : Nat) (tag : W32) (s : State) : Out :=
  if !s.homeQ.contains (.refill n tag true) then .next s
  else
    let s := { s with homeQ := s.homeQ.erase (.refill n tag true) }
    let s := poolAdd s n tag 64 0
    let s := s.updCore n fun c =>
      { c with firings := c.firings.map fun e => (e.1, if e.2.hold = .credit tag then { e.2 with hold := .none } else e.2),
               sendvWait := if c.sendvWait = some tag then none else c.sendvWait }
    .next (placeSendv (s.core n).sendvQ.length s n)

/-- Whether the core holds anything of a tag (R274). -/
def Core.holdsTag (c : Core) (tag : W32) : Bool :=
  c.live.any (fun e => e.2.ltag == tag) || c.inbox.any (fun m => m.msg.ltag == tag) ||
  c.spill.any (fun x => match x with | .msg m => m.msg.ltag == tag | .grec _ _ r => r.ltag == tag) ||
  c.glades.any (fun g => g.cols.any fun col => col.any fun r => r.ltag == tag)

/-- CREDIT_IDLE_RETURN: nothing of the tag has been at the core for 256 cycles. -/
def execCreditIdleReturn (n : Nat) (tag : W32) (s : State) : Out :=
  if (s.core n).holdsTag tag || ((s.core n).pool tag).isNone then .next s else .next (returnPool s n tag)

/-! ## The cancel filter's broadcasts (R280, R281, R349) -/

/-- A cancel entry enters a core's filter: its pool goes back, and firings blocked in RECV or HZWAIT raise CANCELLED. -/
def filterEnter (s : State) (n : Nat) (tag : W32) : State :=
  let c := s.core n
  if c.filter.contains tag then s
  else
    let s := returnPool (s.setCore n { c with filter := c.filter ++ [tag] }) n tag
    let blocked := (c.live.filter fun e => e.2.ltag == tag && !e.2.stopped && (e.2.hold == .recv || e.2.hold == .hzwait)).map (·.1)
    blocked.foldl (fun s sl => takeTrap s n sl (cause 0x16)) s

/-- Whether a broadcast has reached every core of the module. -/
def Bcast.done (s : State) (b : Bcast) : Bool := partCores s ≤ b.got.length

/-- Whether a tag's record lies in another package of the system: what that package broadcasts comes from outside. -/
def tagFar (s : State) (t : W32) : Bool := !tagHere s t && tagIdx t != 0 && tagPkg t < s.sysSize

/-- A cancel entry reaches a core: at a full filter it waits, with a FILTERFULL entry to the host queue (R281), and its tag's
pool goes back all the same (R274). -/
def filterReach (s : State) (n : Nat) (tag : W32) : State :=
  let c := s.core n
  if c.filter.contains tag || c.filterWait.contains tag then s
  else if c.filter.length < Config.filterCap then filterEnter s n tag
  else
    pushHost (returnPool (s.setCore n { c with filterWait := c.filterWait ++ [tag] }) n tag)
      (hostEntry s 7 (siteOf s n) (some n) (bytesLE 4 tag))

/-- CANCEL_FILTER_ARRIVE: the broadcast of this package's home reaches a core, or that of another package (R280). -/
def execCancelFilterArrive (n : Nat) (tag : W32) (s : State) : Out :=
  if !coreHere s n then .next s
  else if tagFar s tag then .next (filterReach s n tag)
  else match s.filterAdd.find? (fun b => b.key == tag && !b.got.contains n) with
    | none => .next s
    | some b =>
      let b' := { b with got := n :: b.got }
      let bs := if b'.done s then s.filterAdd.erase b else s.filterAdd.map fun x => if x = b then b' else x
      .next (filterReach { s with filterAdd := bs } n tag)

/-- A slot of the filter is free: the entry that waited longest takes it. -/
def filterSettle (s : State) (n : Nat) : State :=
  let c := s.core n
  match c.filterWait with
  | [] => s
  | t :: rest => if c.filter.length < Config.filterCap then filterEnter (s.setCore n { c with filterWait := rest }) n t else s

/-- Whether the second broadcast of a tag can act: once the first has reached every core; of another package's tag, that
package's. -/
def mayRemove (s : State) (tag : W32) : Bool :=
  tagFar s tag || (s.filterDel.any (fun b => b.key == tag) && !s.filterAdd.any fun b => b.key == tag)

/-- A tag leaves every filter of the module, and what waited for a slot takes it. -/
def removeTag (s : State) (tag : W32) : State :=
  let s := { s with filterDel := s.filterDel.filter fun b => b.key != tag }
  let s := s.mapCores fun _ c => { c with filter := c.filter.filter (· != tag), filterWait := c.filterWait.filter (· != tag) }
  (s.cores.map (·.1)).foldl filterSettle s

/-! ## Virtual time (R282, R283, R285) -/

/-- The ordered stamps a core holds: its live firings', those of firings that lie in save areas, its undelivered messages', its
sends' not yet acknowledged. -/
def Core.stamps (s : State) (n : Nat) (c : Core) : List (BitVec 48) :=
  c.live.filterMap (fun e => e.2.stamp) ++
  (c.kept.flatMap fun k => if k.out then k.firings.filterMap fun e => e.2.stamp else []) ++
  ((c.inbox ++ c.spill.filterMap fun x => match x with | .msg m => some m | _ => none).filterMap fun m =>
    if m.msg.ord then some m.msg.stamp else none) ++
  ((c.sendBuf ++ c.sendvQ ++ (s.mesh ++ s.lyspor ++ s.waitFl).filter fun f => f.ackCore == some n).filterMap fun f =>
    if f.msg.ord then some f.msg.stamp else none)

def minW (a b : W64) : W64 := if b.toNat < a.toNat then b else a

/-- SOLSTICE_REPORT (R282). -/
def execSolsticeReport (n : Nat) (s : State) : Out :=
  if !coreHere s n then .next s
  else
    let c := s.core n
    let r := (c.stamps s n).foldl (fun m t => minW m (t.setWidth 64)) c.vt
    .next (s.setCore n { c with report := r, claim := if c.claim = 1 then 2 else c.claim })

/-- HORIZON_PUBLISH (R283): the minimum of the latest reports; it falls only where a report since the last publication
follows an image load's claim of 0. -/
def execHorizonPublish (s : State) : Out :=
  let m := (s.cores.filter fun e => coreHere s e.1).foldl (fun m e => minW m e.2.report) 0xFFFFFFFFFFFFFFFF
  let fell := s.cores.any fun e => e.2.claim == 2
  let h := if m.toNat < s.hz.toNat && !fell then s.hz else m
  let s := s.mapCores fun _ c => { c with hz := h, claim := if c.claim = 2 then 0 else c.claim }
  .next { s with hz := h }

/-- SYSTEM_HORIZON_PUBLISH (R285): the minimum of this package's horizon and the other packages'. -/
def execSystemHorizonPublish (others : W64) (s : State) : Out :=
  let h := if s.sysSize ≤ 1 then s.hz else minW s.hz others
  .next { s.mapCores fun _ c => { c with hzSys := h } with sysHz := h }

end Sys2Proof.Machine
end

