-- ==== Sys2Proof/Machine/Float.lean ====
section
/-! DEFINITION. Floating values, exact arithmetic on them and rounding once (R129 to R135, R140 to R147). A finite
value is a sign, a magnitude m and an exponent e: (−1)^neg × m × 2^e. A quotient or root that is not exact carries a
sticky lowest bit of m, which rounding cannot tell from the exact value. -/

namespace Sys2Proof.Machine

/-- The formats of Table 7-1. -/
inductive Fmt | f64 | f32 | f16 | bf16 | e4m3 | e5m2 | e2m1
  deriving DecidableEq, Repr

def Fmt.ebits : Fmt → Nat
  | .f64 => 11 | .f32 => 8 | .f16 => 5 | .bf16 => 8 | .e4m3 => 4 | .e5m2 => 5 | .e2m1 => 2

def Fmt.fbits : Fmt → Nat
  | .f64 => 52 | .f32 => 23 | .f16 => 10 | .bf16 => 7 | .e4m3 => 3 | .e5m2 => 2 | .e2m1 => 1

def Fmt.width (t : Fmt) : Nat := 1 + t.ebits + t.fbits

def Fmt.bias (t : Fmt) : Nat := 2 ^ (t.ebits - 1) - 1

/-- The exponent of the smallest denormal's unit. -/
def Fmt.emin (t : Fmt) : Int := 1 - (t.bias : Int) - t.fbits

/-- Whether the format has infinities (Table 7-1). -/
def Fmt.hasInf : Fmt → Bool
  | .e4m3 | .e2m1 => false
  | _ => true

/-- Whether FTZ acts on the format (R135). -/
def Fmt.flushes : Fmt → Bool
  | .f64 | .f32 | .f16 | .bf16 => true
  | _ => false

def Fmt.infBits (t : Fmt) : Nat := (2 ^ t.ebits - 1) * 2 ^ t.fbits

/-- The largest finite magnitude's bits. -/
def Fmt.maxBits : Fmt → Nat
  | .e4m3 => 0x7E
  | .e2m1 => 7
  | t => t.infBits - 1

/-- The canonical NaN (R130); E2M1 has none and delivers +0 (R146). -/
def Fmt.nanBits : Fmt → Nat
  | .e4m3 => 0x7F
  | .e2m1 => 0
  | t => t.infBits + 2 ^ (t.fbits - 1)

def Fmt.signBits (t : Fmt) (neg : Bool) : Nat := if neg then 2 ^ (t.width - 1) else 0

/-- A decoded value. -/
inductive FVal | nan (sig : Bool) | inf (neg : Bool) | fin (neg : Bool) (m : Nat) (e : Int)
  deriving DecidableEq, Repr

/-- The value of a pattern (R129, R130). -/
def Fmt.decode (t : Fmt) (x : Nat) : FVal :=
  let neg := x.testBit (t.width - 1)
  let a := x % 2 ^ (t.width - 1)
  let ex := a / 2 ^ t.fbits
  let fr := a % 2 ^ t.fbits
  if t == .e4m3 && a == 0x7F then .nan false
  else if t.hasInf && ex == 2 ^ t.ebits - 1 then
    (if fr == 0 then .inf neg else .nan (!fr.testBit (t.fbits - 1)))
  else if ex = 0 then .fin neg fr t.emin
  else .fin neg (2 ^ t.fbits + fr) (t.emin + ex - 1)

/-! ## Flags, in the places of sr.fpst[5:0] (Table 7-4) -/

abbrev FpFlags := BitVec 6
def fNX : FpFlags := 1
def fUF : FpFlags := 2
def fOF : FpFlags := 4
def fDZ : FpFlags := 8
def fNV : FpFlags := 16
def fIS : FpFlags := 32

/-- Rounding modes (Table 2-7). -/
inductive Rm | rne | rtz | rup | rdn
  deriving DecidableEq, Repr

def rmOf (x : BitVec 2) : Rm :=
  match x.toNat with
  | 0 => .rne | 1 => .rtz | 2 => .rup | _ => .rdn

/-- m × 2^-sh rounded to an integer: the integer, and whether it differs. -/
def roundInt (rm : Rm) (neg : Bool) (m : Nat) (sh : Int) : Nat × Bool :=
  if sh ≤ 0 then (m * 2 ^ (-sh).toNat, false)
  else
    let d := 2 ^ sh.toNat
    let q := m / d
    let r := m % d
    let up := match rm with
      | .rne => d < 2 * r || (2 * r == d && q % 2 == 1)
      | .rtz => false
      | .rup => !neg && r != 0
      | .rdn => neg && r != 0
    (if up then q + 1 else q, r != 0)

/-- What an overflow delivers (Table 7-3, R133, R146). -/
def overflowBits (t : Fmt) (rm : Rm) (sat neg : Bool) : Nat :=
  let toInf := match rm with | .rne => true | .rtz => false | .rup => !neg | .rdn => neg
  if sat || !toInf || t == .e2m1 then t.signBits neg + t.maxBits
  else if t == .e4m3 then t.nanBits
  else t.signBits neg + t.infBits

/-- Round the finite value once into the format (R133, R134). The pattern of n units of 2^q is n plus the exponent
steps above the denormal unit, each worth 2^fbits. -/
def roundTo (t : Fmt) (rm : Rm) (sat : Bool) (neg : Bool) (m : Nat) (e : Int) : Nat × FpFlags :=
  if m = 0 then (t.signBits neg, 0)
  else
    let p := t.fbits + 1
    let qu : Int := e + (Nat.log2 m + 1 : Nat) - p
    let nu := (roundInt rm neg m (qu - e)).1
    let tiny := decide (qu + (Nat.log2 nu : Nat) < t.emin + t.fbits)
    let q := if qu < t.emin then t.emin else qu
    let r := roundInt rm neg m (q - e)
    let bits := r.1 + (q - t.emin).toNat * 2 ^ t.fbits
    if t.maxBits < bits then (overflowBits t rm sat neg, fOF ||| fNX)
    else (t.signBits neg + bits, (if r.2 then fNX else 0) ||| (if r.2 && tiny then fUF else 0))

/-- The canonical NaN with Invalid. -/
def invalid (t : Fmt) : Nat × FpFlags := (t.nanBits, fNV)

/-- An exact result that may be NaN or infinite, into a format of the arithmetic. -/
def infTo (t : Fmt) (neg : Bool) : Nat × FpFlags := (t.signBits neg + t.infBits, 0)

def FVal.isNan : FVal → Bool
  | .nan _ => true
  | _ => false

def FVal.isSig : FVal → Bool
  | .nan sg => sg
  | _ => false

def FVal.neg : FVal → FVal
  | .inf n => .inf !n
  | .fin n m e => .fin (!n) m e
  | x => x

def FVal.sign : FVal → Bool
  | .inf n => n
  | .fin n _ _ => n
  | .nan _ => false

/-- Flush a denormal input to zero of its sign (R135). -/
def flushIn (t : Fmt) (ftz : Bool) : FVal → FVal
  | .fin n m e => if ftz && t.flushes && m < 2 ^ t.fbits && e == t.emin then .fin n 0 e else .fin n m e
  | x => x

/-- Replace a denormal result by zero of its sign, with UF and NX (R135). -/
def flushOut (t : Fmt) (ftz : Bool) (r : Nat × FpFlags) : Nat × FpFlags :=
  let a := r.1 % 2 ^ (t.width - 1)
  if ftz && t.flushes && a != 0 && a < 2 ^ t.fbits then (r.1 - a, r.2 ||| fUF ||| fNX) else r

/-- NaN operands of an arithmetic instruction (R134). -/
def nanRes (t : Fmt) (xs : List FVal) : Nat × FpFlags := (t.nanBits, if xs.any (·.isSig) then fNV else 0)

/-- m × 2^(e − lo) with its sign. -/
def scaled (neg : Bool) (m : Nat) (e lo : Int) : Int :=
  let v : Int := m * 2 ^ (e - lo).toNat
  if neg then -v else v

/-- The exact sum of two finite values: magnitude, sign and exponent; the sign of an exact zero follows R140. -/
def sumFin (rm : Rm) (n1 : Bool) (m1 : Nat) (e1 : Int) (n2 : Bool) (m2 : Nat) (e2 : Int) : Bool × Nat × Int :=
  let lo := if e1 ≤ e2 then e1 else e2
  let v := scaled n1 m1 e1 lo + scaled n2 m2 e2 lo
  if v = 0 then (if n1 == n2 then n1 else rm == .rdn, 0, lo) else (decide (v < 0), v.natAbs, lo)

/-- Addition (R134, R140). -/
def fAdd (t : Fmt) (rm : Rm) (a b : FVal) : Nat × FpFlags :=
  match a, b with
  | .fin n1 m1 e1, .fin n2 m2 e2 =>
    let r := sumFin rm n1 m1 e1 n2 m2 e2
    roundTo t rm false r.1 r.2.1 r.2.2
  | .inf n1, .inf n2 => if n1 == n2 then infTo t n1 else invalid t
  | .inf n, .fin .. => infTo t n
  | .fin .., .inf n => infTo t n
  | _, _ => nanRes t [a, b]

def fMul (t : Fmt) (rm : Rm) (a b : FVal) : Nat × FpFlags :=
  match a, b with
  | .fin n1 m1 e1, .fin n2 m2 e2 => roundTo t rm false (n1 != n2) (m1 * m2) (e1 + e2)
  | .inf n1, .inf n2 => infTo t (n1 != n2)
  | .inf n1, .fin n2 m _ => if m = 0 then invalid t else infTo t (n1 != n2)
  | .fin n1 m _, .inf n2 => if m = 0 then invalid t else infTo t (n1 != n2)
  | _, _ => nanRes t [a, b]

/-- 0 × ∞ (R134). -/
def zeroInf (a b : FVal) : Bool :=
  match a, b with
  | .inf _, .fin _ m _ => m == 0
  | .fin _ m _, .inf _ => m == 0
  | _, _ => false

/-- Fused multiply–add, rounded once (R140): 0 × ∞ is invalid also with a NaN addend (R134). -/
def fFma (t : Fmt) (rm : Rm) (a b c : FVal) : Nat × FpFlags :=
  if zeroInf a b then invalid t
  else if a.isNan || b.isNan || c.isNan then nanRes t [a, b, c]
  else
    let ps := a.sign != b.sign
    match a, b, c with
    | .fin _ m1 e1, .fin _ m2 e2, .fin n3 m3 e3 =>
      let r := sumFin rm ps (m1 * m2) (e1 + e2) n3 m3 e3
      roundTo t rm false r.1 r.2.1 r.2.2
    | .fin .., .fin .., .inf n3 => infTo t n3
    | _, _, .inf n3 => if ps == n3 then infTo t n3 else invalid t
    | _, _, _ => infTo t ps

/-- m1 × 2^k / m2 with a sticky lowest bit: p significant bits and more. -/
def quot (p m1 m2 : Nat) : Nat × Nat :=
  let k := p + 3 + (Nat.log2 m2 + 1) - Nat.log2 m1
  let x := m1 * 2 ^ k
  (2 * (x / m2) + (if x % m2 = 0 then 0 else 1), k)

def fDiv (t : Fmt) (rm : Rm) (a b : FVal) : Nat × FpFlags :=
  match a, b with
  | .fin n1 m1 e1, .fin n2 m2 e2 =>
    let ns := n1 != n2
    if m2 = 0 then (if m1 = 0 then invalid t else (t.signBits ns + t.infBits, fDZ))
    else if m1 = 0 then (t.signBits ns, 0)
    else
      let q := quot (t.fbits + 1) m1 m2
      roundTo t rm false ns q.1 (e1 - e2 - q.2 - 1)
  | .inf _, .inf _ => invalid t
  | .inf n1, .fin n2 _ _ => infTo t (n1 != n2)
  | .fin n1 _ _, .inf n2 => (t.signBits (n1 != n2), 0)
  | _, _ => nanRes t [a, b]

/-- The integer square root of a number below 4^k. -/
def isqrt (k n : Nat) : Nat :=
  (List.range k).foldl (fun r i => let c := r + 2 ^ (k - 1 - i); if c * c ≤ n then c else r) 0

def fSqrt (t : Fmt) (rm : Rm) (a : FVal) : Nat × FpFlags :=
  match a with
  | .fin n m e =>
    if m = 0 then (t.signBits n, 0)
    else if n then invalid t
    else
      let k := 2 * (t.fbits + 4)
      let sh := if (e - k) % 2 = 0 then k else k + 1
      let x := m * 2 ^ sh
      let r := isqrt (Nat.log2 x / 2 + 1) x
      roundTo t rm false false (2 * r + (if r * r = x then 0 else 1)) ((e - sh) / 2 - 1)
  | .inf n => if n then invalid t else infTo t false
  | .nan sg => nanRes t [.nan sg]

/-- FRND (R140): NX only where asked. -/
def fRnd (t : Fmt) (rm : Rm) (nx : Bool) (a : FVal) : Nat × FpFlags :=
  match a with
  | .fin n m e =>
    let r := roundInt rm n m (-e)
    let v := roundTo t .rne false n r.1 0
    if 0 ≤ e then (roundTo t .rne false n m e) else (v.1, if r.2 && nx then fNX else 0)
  | .inf n => infTo t n
  | .nan sg => nanRes t [.nan sg]

/-- Whether a is below b, both ordered; −0 and +0 equal. -/
def fLt (a b : FVal) : Bool :=
  match a, b with
  | .fin n1 m1 e1, .fin n2 m2 e2 =>
    let lo := if e1 ≤ e2 then e1 else e2
    decide (scaled n1 m1 e1 lo < scaled n2 m2 e2 lo)
  | .inf n1, .inf n2 => n1 && !n2
  | .inf n1, .fin .. => n1
  | .fin .., .inf n2 => !n2
  | _, _ => false

def fEq (a b : FVal) : Bool := !a.isNan && !b.isNan && !fLt a b && !fLt b a

/-- The pattern of a value that is in the format already: no rounding, no flag. -/
def repack (t : Fmt) : FVal → Nat
  | .fin n m e => (roundTo t .rne false n m e).1
  | .inf n => t.signBits n + t.infBits
  | .nan _ => t.nanBits

/-- minimumNumber and maximumNumber (R141): −0 is below +0. -/
def fMinMax (t : Fmt) (wantMax : Bool) (a b : FVal) : Nat × FpFlags :=
  let fl := if a.isSig || b.isSig then fNV else 0
  if a.isNan && b.isNan then (t.nanBits, fl)
  else if a.isNan then (repack t b, fl)
  else if b.isNan then (repack t a, fl)
  else
    let aLess := fLt a b || (fEq a b && a.sign && !b.sign)
    (repack t (if aLess != wantMax then a else b), fl)

/-- The class mask (R142), from the pattern. -/
def fClass (t : Fmt) (x : Nat) : Nat :=
  let a := x % 2 ^ (t.width - 1)
  let neg := x.testBit (t.width - 1)
  match t.decode x with
  | .nan true => 2 ^ 8
  | .nan false => 2 ^ 9
  | .inf true => 1
  | .inf false => 2 ^ 7
  | .fin .. =>
    let k := if a = 0 then 3 else if a < 2 ^ t.fbits then 2 else 1
    if neg then 2 ^ k else 2 ^ (7 - k)

/-! ## Conversions (R146, R147) -/

/-- CVT.FF of a value. -/
def cvtFF (t : Fmt) (rm : Rm) (sat : Bool) (a : FVal) : Nat × FpFlags :=
  match a with
  | .nan sg => if t == .e2m1 then (0, fNV) else (t.nanBits, if sg then fNV else 0)
  | .inf n =>
    if t.hasInf then infTo t n
    else if sat || t == .e2m1 then (t.signBits n + t.maxBits, fOF ||| fNX)
    else (t.nanBits, fNV)
  | .fin n m e => roundTo t rm sat n m e

/-- Integer types of Table 7-9: width and signedness of codes 8 to 15. -/
def intType (code : Nat) : Nat × Bool :=
  (2 ^ (6 - (code - 8) / 2), code % 2 == 0)

/-- CVT.FI: saturating, NaN gives 0 (R147). -/
def cvtFI (w : Nat) (signed : Bool) (rm : Rm) (a : FVal) : Int × FpFlags :=
  let lo : Int := if signed then -(2 ^ (w - 1)) else 0
  let hi : Int := if signed then 2 ^ (w - 1) - 1 else 2 ^ w - 1
  match a with
  | .nan _ => (0, fNV)
  | .inf n => (if n then lo else hi, fNV)
  | .fin n m e =>
    let r := roundInt rm n m (-e)
    let v : Int := if n then -(r.1 : Int) else r.1
    if v < lo then (lo, fNV) else if hi < v then (hi, fNV) else (v, if r.2 then fNX else 0)

/-- CVT.IF: the exact integer rounded once (R147). -/
def cvtIF (t : Fmt) (rm : Rm) (sat : Bool) (x : Int) : Nat × FpFlags := roundTo t rm sat (decide (x < 0)) x.natAbs 0

/-- Exact widening of an FP32 pattern to FP64 (R138): a NaN keeps its sign and payload, left-aligned. -/
def widen32 (x : W32) : W64 :=
  let a := Fmt.f32.decode x.toNat
  match a with
  | .nan _ => BitVec.ofNat 64 (Fmt.f64.signBits (x.getLsbD 31) + Fmt.f64.infBits + fld x 0 23 * 2 ^ 29)
  | v => BitVec.ofNat 64 (repack .f64 v)

/-- The floating constants of Table 2-6, in quarters: value × 4. -/
def constQuarters : List Nat := [0, 1, 2, 4, 8, 12, 16, 32]

/-- Inline constant i encoded in a format (R35). -/
def floatConst (t : Fmt) (i : BitVec 4) : Nat :=
  (roundTo t .rne false (i.getLsbD 3) (constQuarters.getD (i.toNat % 8) 0) (-2)).1

/-- UE4M3 scale byte (R132): sign, magnitude and exponent, none where the pattern is no scale. -/
def scaleVal (b : Byte) : Option (Nat × Int) :=
  if 0x7F ≤ b.toNat then none
  else match Fmt.e4m3.decode b.toNat with
    | .fin _ m e => some (m, e)
    | _ => none

end Sys2Proof.Machine
end

