-- ==== Sys2Proof/Machine/RayBody.lean ====
section
/-! DEFINITION. The ray body (R287 to R290), pinned slots and resolution (R309, R310, R293), treelet nodes (R291, R292)
and the ray region (R294, R296). -/

namespace Sys2Proof.Machine

/-! ## The body: fourteen words -/

/-- The ray group from s(b). -/
def Firing.rayBody (f : Firing) (b : Nat) : List W64 := (List.range 14).map fun j => f.getS (b + j)

def Firing.setBody (f : Firing) (b : Nat) (ws : List W64) : Firing := f.putS ((ws.zipIdx).map fun e => (b + e.2, e.1))

def bodyW (ws : List W64) (j : Nat) : W64 := ws.getD j 0

/-- The low or high half of word j. -/
def bodyHalf (ws : List W64) (j : Nat) (hi : Bool) : W32 := (bodyW ws j).extractLsb' (if hi then 32 else 0) 32

def isF32 (ws : List W64) : Bool := (bodyW ws 13).getLsbD 53
def bodyFmt (ws : List W64) : Fmt := if isF32 ws then .f32 else .f64
def bodyCap (ws : List W64) : Nat := if isF32 ws then 14 else 8
def bodySpill (ws : List W64) : Nat := fld (bodyW ws 13) 48 4
def bodyDepth (ws : List W64) : Nat := fld (bodyW ws 13) 44 4
def rayNum (ws : List W64) : Nat := fld (bodyW ws 0) 0 48
def rayEpoch (ws : List W64) : Nat := fld (bodyW ws 0) 48 16

/-- Whether a body is well formed (R290). -/
def bodyOk (ws : List W64) : Bool :=
  bodySpill ws ≤ 8 && bodyDepth ws ≤ bodyCap ws && (!isF32 ws || bodyW ws 5 == 0)

/-- The RAYFMT, RAYSTACK and STALEVER traps. -/
def rayfmt : TrapCause := cause 0x12

/-- First word of the stack. -/
def stackBase (ws : List W64) : Nat := if isF32 ws then 6 else 9

/-- Stack entry i (Tables 14-1 and 14-2). -/
def bodyEntry (ws : List W64) (i : Nat) : W32 := bodyHalf ws (stackBase ws + i / 2) (i % 2 == 1)

def bodyStack (ws : List W64) : List W32 := (List.range (bodyDepth ws)).map (bodyEntry ws)

/-- The body with a stack and a spill count; entries above are zero (R290). -/
def bodySetStack (ws : List W64) (st : List W32) (spill : Nat) : List W64 :=
  let b := stackBase ws
  let words := (List.range (bodyCap ws / 2)).map fun j => ((st.getD (2 * j + 1) 0) ++ (st.getD (2 * j) 0) : W64)
  let w13 := bodyW ws 13
  let w13' := (w13 &&& ~~~ 0x000FF00000000000) ||| BitVec.ofNat 64 (spill * 2 ^ 48 + st.length * 2 ^ 44)
  ws.take b ++ words ++ [w13']

/-- The value of a geometric field (R288). -/
def bodyVal (ws : List W64) (f64Word f32Word : Nat) (hi : Bool) : FVal :=
  if isF32 ws then Fmt.f32.decode (bodyHalf ws f32Word hi).toNat else Fmt.f64.decode (bodyW ws f64Word).toNat

/-- Origin and direction by axis, tmin and tmax. -/
def rayO (ws : List W64) : List FVal := [bodyVal ws 1 1 false, bodyVal ws 2 1 true, bodyVal ws 3 2 false]
def rayD (ws : List W64) : List FVal := [bodyVal ws 4 2 true, bodyVal ws 5 3 false, bodyVal ws 6 3 true]
def rayTmin (ws : List W64) : FVal := bodyVal ws 7 4 false
def rayTmax (ws : List W64) : FVal := bodyVal ws 8 4 true

/-- tmax as FP64 bits (Table 14-15, R324). -/
def tmaxF64 (ws : List W64) : W64 := if isF32 ws then widen32 (bodyHalf ws 4 true) else bodyW ws 8

/-- Write tmax, a pattern of the body's format. -/
def bodySetTmax (ws : List W64) (bits : Nat) : List W64 :=
  if isF32 ws then ws.set 4 ((BitVec.ofNat 32 bits) ++ bodyHalf ws 4 false) else ws.set 8 (BitVec.ofNat 64 bits)

/-- The words of origin and direction (R305). -/
def geomWords (ws : List W64) : Nat := if isF32 ws then 3 else 6

/-! ## Pushes and pops (R303) -/

/-- Push: the body, and where four entries went to the region. -/
def pushOne (r : List W64 × List (Nat × List Byte)) (x : W32) : List W64 × List (Nat × List Byte) :=
  let st := bodyStack r.1
  let sp := bodySpill r.1
  if st.length = bodyCap r.1 then
    (bodySetStack r.1 (st.drop 4 ++ [x]) (sp + 1), r.2 ++ [(0x80 + 16 * sp, (st.take 4).flatMap (bytesLE 4))])
  else (bodySetStack r.1 (st ++ [x]) sp, r.2)

/-- Pushes in order; after them the entries above the stack are zero (R290). -/
def pushAll (ws : List W64) (xs : List W32) : List W64 × List (Nat × List Byte) :=
  let r := xs.foldl pushOne (ws, [])
  (bodySetStack r.1 (bodyStack r.1) (bodySpill r.1), r.2)

/-- How many spills k pushes need. -/
def spillsFor (depth cap k : Nat) : Nat := if depth + k ≤ cap then 0 else ceilDiv (depth + k - cap) 4

/-- Whether k pushes would pass eight spilled groups. -/
def noRoom (ws : List W64) (k : Nat) : Bool := 8 < bodySpill ws + spillsFor (bodyDepth ws) (bodyCap ws) k

/-- Pop with entries in the body: the value and the body. -/
def popBody (ws : List W64) : W64 × List W64 :=
  let st := bodyStack ws
  ((st.getLast?.getD 0).setWidth 64, bodySetStack ws st.dropLast (bodySpill ws))

/-- A refilled body popped once: the four entries read come back, and the top leaves (R303). -/
def refillPop (ws : List W64) (bytes : List Byte) : W64 × List W64 :=
  let es := (List.range 4).map fun i => w32OfLE ((bytes.drop (4 * i)).take 4)
  ((es.getD 3 0).setWidth 64, bodySetStack ws (es.take 3) (bodySpill ws - 1))

/-! ## Pinned slots and resolution (R309, R310) -/

def pinHandle (p : Pin) : Nat := fld p.w0 48 16
def pinFrom (p : Pin) : Nat := fld p.w0 32 16
def pinTo (p : Pin) : Nat := fld p.w0 16 16
def pinSup (p : Pin) : Bool := p.w0.getLsbD 15
def pinState (p : Pin) : Nat := fld p.w0 10 2
def pinOff (p : Pin) : Nat := fld p.w1 0 20

/-- The slot that resolves a handle for an epoch (R310). -/
def resolveSlot (c : Core) (h e : Nat) : Option Nat :=
  (List.range 16).find? fun i =>
    let p := c.pinned.getD i {}
    pinState p == 3 && pinHandle p == h && pinFrom p ≤ e && (!pinSup p || e < pinTo p)

/-! ## Nodes (R291 to R293) -/

def refHandle (r : W32) : Nat := fld r 16 16
def refKind (r : W32) : Nat := fld r 8 3
def refIndex (r : W32) : Nat := fld r 0 8

/-- A node's 256 bytes, where the reference resolves. -/
def nodeAt (c : Core) (e : Nat) (r : W32) : Option (List Byte) :=
  (resolveSlot c (refHandle r) e).map fun i => c.getBs (pinOff (c.pinned.getD i {}) + 256 * refIndex r) 256

def nByte (nd : List Byte) (o : Nat) : Nat := (nd.getD o 0).toNat
def nW32 (nd : List Byte) (o : Nat) : W32 := w32OfLE ((nd.drop o).take 4)
def nW64 (nd : List Byte) (o : Nat) : W64 := w64OfLE ((nd.drop o).take 8)

/-- The header checks of R293. -/
def headerOk (nd : List Byte) (r : W32) : Bool :=
  let k := refKind r
  let cnt := nByte nd 2
  nByte nd 0 == k && natOfLE ((nd.drop 4).take 2) == refHandle r && nByte nd 6 == refIndex r &&
  (match k with | 1 => 1 ≤ cnt && cnt ≤ 4 | 2 => 1 ≤ cnt && cnt ≤ 2 | _ => cnt == 0) &&
  nByte nd 3 == 0 && nByte nd 7 == 0 && ((nd.drop 0x10).take 16).all (· == 0) && (k == 0 || nByte nd 1 == 0)

/-- Resolve and check a reference of the kinds an instruction accepts: STALEVER, then RAYFMT (Table 14-10). -/
def resolveNode (c : Core) (ws : List W64) (r : W32) (kinds : List Nat) : Except TrapCause (List Byte) :=
  match nodeAt c (rayEpoch ws) r with
  | none => .error (cause 0x14)
  | some nd => if kinds.contains (refKind r) && headerOk nd r then .ok nd else .error rayfmt

/-- A child reference as an entry (R291). -/
def childEntry (own : Nat) (c : W32) : W32 :=
  if c.getLsbD 31 then BitVec.ofNat 32 (fld c 0 16 * 2 ^ 16 + fld c 24 3 * 2 ^ 8 + fld c 16 8)
  else BitVec.ofNat 32 (own * 2 ^ 16 + fld c 8 3 * 2 ^ 8 + fld c 0 8)

/-! ## The region (R294, R296) -/

/-- The address of ray n's region. -/
def regionOf (base : W64) (n : Nat) : W64 := va56 (base + BitVec.ofNat 64 (256 * n))

/-- Whether an access to the region reads or writes. -/
def regKind (w : Bool) : Access := if w then .regionW else .region

/-- Translate accesses to the region in order, each an address and a size: R for reads, W for writes; the first that fails
decides, and the record names it (R296, Table 17-2). -/
def planRegion (c : Core) (sl : Nat) (f : Firing) (w : Bool) : List (W64 × Nat) → Plan
  | [] => .ok []
  | (a, size) :: rest =>
    match xlate c f.xl (privileged c sl) (regKind w) (va56 a).toNat none with
    | .trap t => .trap t
    | .miss => .walk (va56 a).toNat none
    | .hit key unc =>
      match planRegion c sl f w rest with
      | .ok accs => .ok ({ lane := 0, va := (va56 a).toNat, pa := key, size := size, unc := unc } :: accs)
      | p => p

/-- An access of bytes at an offset of a region. -/
def regSpan (a : W64) (o size : Nat) : W64 × Nat := (a + BitVec.ofNat 64 o, size)

/-- Whether every earlier region write of the firing has been acknowledged (R296). -/
def regionQuiet (f : Firing) : Bool := f.sq.all fun e => match e.op with | .rwrite _ => false | _ => true

end Sys2Proof.Machine
end

