-- ==== Sys2Proof/Machine/Residency.lean ====
section
/-! DEFINITION. Scene residency, version and log instructions (R309 to R327), as far as the issuing core goes. -/

namespace Sys2Proof.Machine

/-- PROT outside the Canopy ASID (R311). -/
def canopyProt (s : State) (n : Nat) : Bool := (s.core n).asid != s.canopyAsid

/-- Run a residency form: guard, then the ASID check. -/
def canopyForm (h : Head) (s : State) (go : Nat → Nat → Firing → State) : Out :=
  withF s fun n sl f =>
    if !f.enS h then s.setFiring n sl (f.retire false h .l64 .none)
    else if canopyProt s n then takeTrap s n sl (cause 0x0B)
    else go n sl f

/-! ## Directory entries (Table 15-2), as four words -/

def ceHandle (w : List W64) : BitVec 16 := (w.getD 0 0).setWidth 16
def ceVersion (w : List W64) : Nat := fld (w.getD 0 0) 16 16
def ceState (w : List W64) : Nat := fld (w.getD 0 0) 32 8
def ceM (w : List W64) : Nat := fld (w.getD 0 0) 40 8
def ceTarget (w : List W64) : Nat := fld (w.getD 0 0) 48 16
def ceOwner (w : List W64) (j : Nat) : BitVec 16 := (w.getD 1 0).extractLsb' (16 * j) 16
def ceOwners (w : List W64) : List (BitVec 16) := (List.range (min (ceM w) 4)).map (ceOwner w)
def ceImage (w : List W64) : Nat := (w.getD 2 0).toNat
def ceNodes (w : List W64) : Nat := fld (w.getD 3 0) 0 16

/-- Whether words may be written as entry h (R319). -/
def ceFormed (s : State) (h : BitVec 16) (w : List W64) : Bool :=
  let st := ceState w
  let m := ceM w
  ceHandle w == h && st ≤ 4 && st != 3 &&
  (match st with | 0 | 2 => m == 0 | 1 => 1 ≤ m && m ≤ 4 | _ => m ≤ 4) &&
  1 ≤ ceNodes w && ceNodes w ≤ 256 && ceImage w % 256 == 0 && paHbm (ceImage w) &&
  coreHere s (ceTarget w) && (ceOwners w).all (fun o => coreHere s o.toNat) &&
  (List.range 4).all (fun j => j < m || ceOwner w j == 0) && fld (w.getD 3 0) 16 16 == 0

/-! ## CNLOOK and CNSET -/

def execCnlookDir (o : DAOps) (s : State) : Out :=
  canopyForm o.h s fun n sl f =>
    if !f.sqRoom 1 then s
    else s.setFiring n sl (((f.enter [.dirRead ((f.srcS o.a).setWidth 16)]).depUnit
      ((List.range 4).map (o.d.toNat + ·)) []).retire false o.h .l64 .none)

def execCnlookLoc (o : DABOps) (s : State) : Out :=
  canopyForm o.h s fun n sl f =>
    let c := s.core n
    let d := o.d.toNat
    let f' := match resolveSlot c (fld (f.srcS o.a) 0 16) (fld (f.srcS o.b) 0 16) with
      | some i =>
        let p := c.pinned.getD i {}
        (f.setS d p.w0).setS (d + 1) (p.w1 ||| BitVec.ofNat 64 (i * 2 ^ 56))
      | none => (f.setS d 0xFFFFFFFFFFFFFFFF).setS (d + 1) 0xFFFFFFFFFFFFFFFF
    s.setFiring n sl (f'.retire false o.h .l64 .none)

def execCnsetDir (o : DAOps) (s : State) : Out :=
  canopyForm o.h s fun n sl f =>
    let h : BitVec 16 := (f.srcS o.a).setWidth 16
    let ws := (List.range 4).map fun i => f.getS (o.d.toNat + i)
    if !ceFormed s h ws then takeTrap s n sl (msgfmt (ws.headD 0))
    else if !f.sqRoom 1 then s
    else s.setFiring n sl ((f.enter [.dirWrite h ws]).retire false o.h .l64 .none)

/-- Whether slot i may be reserved at an offset (R309). -/
def slotSpanOk (c : Core) (i off : Nat) : Bool :=
  off % 4096 == 0 && off + 65536 ≤ 2 ^ 20 && !c.inWs off 65536 &&
  (List.range 16).all fun j =>
    let p := c.pinned.getD j {}
    j == i || pinState p == 0 || off + 65536 ≤ pinOff p || pinOff p + 65536 ≤ off

/-- Words of a slot: the fields software writes, with VFROM and NM1 kept (Table 15-1, R6). -/
def mkPin (old : Pin) (handle vto : Nat) (sup : Bool) (st off : Nat) : Pin :=
  { w0 := BitVec.ofNat 64 (handle * 2 ^ 48 + pinFrom old * 2 ^ 32 + vto * 2 ^ 16 + sup.toNat * 2 ^ 15 + st * 2 ^ 10 +
      fld old.w0 0 8),
    w1 := BitVec.ofNat 64 off }

/-- The change CNSET.SLOT makes, where it is permitted (R319): a change of state or SUP with another field of a pinned slot
is none of those listed. -/
def slotChange (c : Core) (i : Nat) (old new : Pin) : Option Pin :=
  let st := pinState new
  let same := pinHandle new == pinHandle old && pinOff new == pinOff old
  let sameTo := pinTo new == pinTo old && pinSup new == pinSup old
  match pinState old with
  | 0 => if st = 1 && slotSpanOk c i (pinOff new) then
      some (mkPin old (pinHandle new) (pinTo new) (pinSup new) 1 (pinOff new)) else none
  | 1 => if st = 0 then some (mkPin old (pinHandle new) (pinTo new) (pinSup new) 0 (pinOff new)) else none
  | 3 =>
    if st = 1 && same && sameTo then some (mkPin old (pinHandle old) (pinTo old) (pinSup old) 1 (pinOff old))
    else if st = 3 && same && !pinSup old && pinSup new && pinFrom old < pinTo new then
      some (mkPin old (pinHandle old) (pinTo new) true 3 (pinOff old))
    else none
  | _ => none

def execCnsetSlot (o : DAOps) (s : State) : Out :=
  canopyForm o.h s fun n sl f =>
    let c := s.core n
    let i := (f.srcS o.a).toNat
    let new : Pin := { w0 := f.getS o.d.toNat, w1 := f.getS (o.d.toNat + 1) }
    match (if i ≤ 15 then slotChange c i (c.pinned.getD i {}) new else none) with
    | none => takeTrap s n sl (msgfmt (if i ≤ 15 then new.w0 else f.srcS o.a))
    | some p => s.setCore n ({ c with pinned := c.pinned.set i p }.setFiring sl (f.retire false o.h .l64 .none))

/-! ## THAW and EVICT (R320, R321) -/

def execThaw (o : DABOps) (s : State) : Out :=
  canopyForm o.h s fun n sl f =>
    let i := fld (f.srcS o.b) 0 4
    if pinState ((s.core n).pinned.getD i {}) != 1 then
      s.setFiring n sl ((f.depStatus o.d 2).retire false o.h .l64 .none)
    else if !f.sqRoom 1 then s
    else s.setFiring n sl (((f.enter [.thaw ((f.srcS o.a).setWidth 16) i]).depUnit [o.d.toNat] []).retire
      false o.h .l64 .none)

def execEvict (o : DAOps) (s : State) : Out :=
  canopyForm o.h s fun n sl f =>
    let i := fld (f.srcS o.a) 0 4
    if pinState ((s.core n).pinned.getD i {}) != 3 then
      s.setFiring n sl ((f.depStatus o.d 2).retire false o.h .l64 .none)
    else if !f.sqRoom 1 then s
    else s.setFiring n sl (((f.enter [.evict i]).depUnit [o.d.toNat] []).retire false o.h .l64 .none)

/-! ## Epoch counters (R322) -/

/-- RPIN and RDONE: ATOM.ADD.D of a count on the counter of an epoch. -/
def epochCount (h : Head) (d : Nat) (a e : SSrc) (b : Firing → W64) (nz : Option Nat) (s : State) : Out :=
  withF s fun n sl f =>
    let c := s.core n
    let base := f.srcS a
    if !f.enS h then s.setFiring n sl (f.retire false h .l96 .none)
    else if base.toNat % 8 != 0 then takeTrap s n sl (causeAt 0x09 .atomic (va56 base))
    else
      let addr := base + BitVec.ofNat 64 (8 * fld (f.srcS e) 0 16)
      onPlan s n sl f .atomic (planLanes c sl f .atomic 8 [(none, addr)]) fun accs =>
        let pair := nz.map fun r => (f.getS r, f.getS (r + 1))
        if (match pair with | some p => nzBad p.1 | none => false) then
          takeTrap s n sl (msgfmt ((pair.map (·.1)).getD 0))
        else if !f.sqRoom 1 then s
        else
          let ats := accs.map fun y => ({ lane := 0, va := y.va, pa := y.pa, size := 8, op := 0, u := false, b := b f } : AtomAcc)
          let f' := f.enter [.atom ats pair]
          let f' := f'.depUnit [d] [] (codeWord s n sl f.pc)
          s.setFiring n sl (f'.retire false h .l96 .none)

def execRpin (o : RpinOps) (s : State) : Out := epochCount o.h o.d.toNat o.a o.b (fun f => f.srcS o.c) none s

def execRdone (o : RdoneOps) (s : State) : Out :=
  epochCount o.h o.d.toNat o.a o.b (fun _ => 0 - o.n.setWidth 64) (some o.p.toNat) s

/-! ## The traversal log (R324 to R326) -/

/-- The record of Table 15-6, as four words. -/
def logRecord (ws : List W64) (event : Nat) (node : W32) (stamp x : W64) : List W64 :=
  let mask := match event with | 1 => fld x 24 8 | 2 | 3 => fld x 8 4 | _ => 0
  let prim := match event with | 2 | 3 => fld x 32 32 | _ => 0
  let value := match event with | 1 => x | 2 | 3 => tmaxF64 ws | _ => 0
  [BitVec.ofNat 64 (rayNum ws + event * 2 ^ 48 + mask * 2 ^ 56), stamp &&& 0xFFFFFFFFFFFF,
   BitVec.ofNat 64 (node.toNat + prim * 2 ^ 32), value]

def execRlog (o : RlogOps) (s : State) : Out :=
  withF s fun n sl f =>
    let c := s.core n
    let ws := f.rayBody o.d.toNat
    if !f.enS o.h then s.setFiring n sl (f.retire false o.h .l96 .none)
    else if !bodyOk ws then takeTrap s n sl rayfmt
    else if !(bodyW ws 13).getLsbD 55 then s.setFiring n sl (f.retire false o.h .l96 .none)
    else
      let off := f.srcS o.q
      match qcheck s n off none with
      | some t => takeTrap s n sl t
      | none =>
        let q := c.qdesc off.toNat
        if q.esz != 2 then takeTrap s n sl (msgfmt (c.getW (off.toNat + 0x18)))
        else if sendHeld c f || q.shadowEntries ≤ q.pushed - q.sent then s
        else
          let words := (logRecord ws o.event.toNat ((f.srcS o.node).setWidth 32) (f.srcS o.stamp)
            (f.getS o.x.toNat)).flatMap (bytesLE 8)
          let c := c.putBs (q.shoff + q.entryBytes * (q.pushed % q.shadowEntries)) words
          let c := c.putW (off.toNat + 0x28) (BitVec.ofNat 64 (q.pushed + 1))
          let c := c.pushed off.toNat q.pushed q.sent f.uid s.fresh
          { s with fresh := s.fresh + 1 }.setCore n (c.setFiring sl (f.retire false o.h .l96 .none))

/-- A record's checks against the ray (R326). -/
def recordOk (ws : List W64) (tri : Bool) (rb : List Byte) : Bool :=
  let w0 := w64OfLE (rb.take 8)
  fld w0 0 48 == rayNum ws && (if tri then fld w0 48 8 == 2 || fld w0 48 8 == 3 else fld w0 48 8 == 1)

/-- What RREPLAY.TRI writes: the hit word, and tmax where it is valid (R326). For a record without VALID the hit word is 0,
as the forward pass wrote it (R302, R327; log entry 84). -/
def replayTri (f : Firing) (o : RayOps) (ws : List W64) (rb : List Byte) : Firing :=
  let w0 := w64OfLE (rb.take 8)
  let nr : W32 := w32OfLE ((rb.drop 0x10).take 4)
  let value := w64OfLE ((rb.drop 0x18).take 8)
  let hit := if !w0.getLsbD 59 then 0 else natOfLE ((rb.drop 0x14).take 4) * 2 ^ 32 + refHandle nr * 2 ^ 16 + fld w0 56 4 * 2 ^ 8 + refIndex nr
  let f := (f.setS o.d.toNat (BitVec.ofNat 64 hit)).setS (o.d.toNat + 1) 0
  if w0.getLsbD 59 then
    let t := if isF32 ws then (cvtFF .f32 .rne false (Fmt.f64.decode value.toNat)).1 else value.toNat
    f.setBody o.ray.toNat (bodySetTmax (f.rayBody o.ray.toNat) t)
  else f

/-- RREPLAY: the region read first, with a deposit of no register that carries its errors (R212, R296); then its checks and
results (R326). -/
def replay (tri : Bool) (o : RayOps) (s : State) : Out :=
  withF s fun n sl f =>
    let ws := f.rayBody o.ray.toNat
    let a := f.srcS o.a
    if !f.enS o.h then s.setFiring n sl (f.retire false o.h .l64 .none)
    else if !bodyOk ws || !(bodyW ws 13).getLsbD 54 then takeTrap s n sl rayfmt
    else match f.hold with
      | .record rb =>
        if !recordOk ws tri rb then takeTrap s n sl rayfmt
        else if tri then s.setFiring n sl ((replayTri f o ws rb).retire false o.h .l64 .none)
        else s.setFiring n sl ((f.setS o.d.toNat (w64OfLE ((rb.drop 0x18).take 8))).retire false o.h .l64 .none)
      | .replay => s
      | _ =>
        if a.toNat % 32 != 0 then takeTrap s n sl (causeAt 0x09 .region (va56 a))
        else
          onPlan s n sl f .region (planRegion (s.core n) sl f false [(a, 32)]) fun accs =>
            if !f.sqRoom 1 then s
            else s.setFiring n sl { (f.enter (accs.map fun x => .rread x.va x.pa 32 .replay)).depUnit [] [] (codeWord s n sl f.pc) with
                                    hold := .replay, seq := f.seq + 1 }

def execRreplay (o : RayOps) (s : State) : Out := replay false o s
def execRreplayTri (o : RayOps) (s : State) : Out := replay true o s

end Sys2Proof.Machine
end

