-- ==== Sys2Proof/Machine/CanopyHome.lean ====
section
/-! DEFINITION. The Canopy directory at its home slice (R311 to R315), the rays served there, and the Thaw engine (R316). -/

namespace Sys2Proof.Machine

/-! ## Entries (Table 15-2) -/

def dirKey (s : State) (h : BitVec 16) : Nat := memKey s.pkg.toNat (s.canopyBase + 32 * h.toNat)

/-- The four words of entry h. -/
def dirWords (s : State) (h : BitVec 16) : List W64 := (List.range 4).map fun i => s.getW (dirKey s h + 8 * i)

/-- The state an entry acts in: one whose handle field is wrong is absent (R312). -/
def dirState (s : State) (h : BitVec 16) : Nat :=
  let w := dirWords s h
  if ceHandle w != h then 0 else ceState w

/-- Rays held for an entry. -/
def heldFor (s : State) (h : BitVec 16) : List Msg := (s.heldRays.filter fun r => r.h == h).map (·.msg)

/-- The entry's `waiting` field, as hardware keeps it. -/
def putWaiting (s : State) (h : BitVec 16) : State := homePut s (dirKey s h + 0x1C) (leN 4 (heldFor s h).length)

/-- Entry words with a state and an owner list. -/
def mkEntry (w : List W64) (st : Nat) (owners : List (BitVec 16)) : List W64 :=
  let w0 := (w.getD 0 0 &&& 0xFFFF0000FFFFFFFF) ||| BitVec.ofNat 64 (st * 2 ^ 32 + owners.length * 2 ^ 40)
  let w1 := BitVec.ofNat 64 (((List.range 4).map fun j => (owners.getD j 0).toNat * 2 ^ (16 * j)).foldl (· + ·) 0)
  [w0, w1, w.getD 2 0, w.getD 3 0]

/-- Write entry h; a change of its owners, or to a state other than resident, is broadcast (R314). -/
def putDir (s : State) (h : BitVec 16) (w : List W64) : State :=
  let old := dirWords s h
  let tell := ceOwners old != ceOwners w || (ceState old != ceState w && ceState w != 1)
  let s := homePut s (dirKey s h) ((w.take 4).flatMap (bytesLE 8))
  if tell then { s with canopyInv := s.canopyInv ++ [⟨h.setWidth 32, []⟩] } else s

/-- Set an entry's state and owners. -/
def setDir (s : State) (h : BitVec 16) (st : Nat) (owners : List (BitVec 16)) : State :=
  putDir s h (mkEntry (dirWords s h) st owners)

/-- The Canopy home of a handle (R312). -/
def canopyHome (s : State) (h : BitVec 16) : Nat := h.toNat % partCores s

/-! ## Rays (R312, R313) -/

/-- The handle of a ray's top entry. -/
def rayTop (m : Msg) : BitVec 16 := BitVec.ofNat 16 (refHandle ((bodyStack m.body).getLast?.getD 0))

/-- Whether the Canopy logic beneath core n serves a channel-2 message (R312). -/
def canopyServes (s : State) (n : Nat) (m : Msg) : Bool :=
  m.ch == 2 && m.typ == 0 && m.len == 14 && bodyOk m.body && 1 ≤ bodyDepth m.body && canopyHome s (rayTop m) == n &&
  (s.core n).pinned.all fun p => !(pinState p == 3 && pinHandle p == (rayTop m).toNat)

/-- The sender a home forwards rays as: they keep their order (R313). -/
def canopySrc (n : Nat) : Nat := 2 ^ 64 + n

/-- Forward a ray to an owner (R312). -/
def forwardRay (s : State) (n : Nat) (m : Msg) (owners : List (BitVec 16)) : State :=
  let o := owners.getD (rayNum m.body % owners.length) 0
  s.inject { src := canopySrc n, msg := { m with dst := BitVec.ofNat 29 (gcaOf s o.toNat) } }

/-- Release the held rays of an entry that has become resident. -/
def releaseHeld (s : State) (h : BitVec 16) : State :=
  let rays := heldFor s h
  let owners := ceOwners (dirWords s h)
  let s := { s with heldRays := s.heldRays.filter fun r => r.h != h }
  putWaiting (rays.foldl (fun s m => forwardRay s (canopyHome s h) m owners) s) h

/-- Whether the wait area takes another ray of 128 bytes (R313). -/
def waitRoom (s : State) : Bool := 128 * (s.heldRays.length + 1) ≤ s.waitSize

/-- A request to a core's Thaw engine. -/
def askThaw (s : State) (n : Nat) (r : ThawReq) : State := s.updCore n fun c => { c with thawQ := c.thawQ ++ [r] }

/-- The home asks the target's Thaw engine for a cold entry, which becomes thawing (Table 15-3). -/
def homeThaw (s : State) (h : BitVec 16) : State :=
  let t := ceTarget (dirWords s h)
  askThaw { setDir s h 3 [] with thawAcc := s.thawAcc ++ [(h, t)] } t ⟨h, none, none⟩

/-- Hold a ray. -/
def holdRay (s : State) (h : BitVec 16) (m : Msg) : State := putWaiting { s with heldRays := s.heldRays ++ [⟨h, m⟩] } h

/-- Whether a ray would have to be held while the wait area is full. -/
def rayBlocked (s : State) (m : Msg) : Bool :=
  let st := dirState s (rayTop m)
  (st == 2 || st == 3 || st == 4) && !waitRoom s

/-- A ray served at its home, core n (Table 15-3). -/
def serveRay (s : State) (n : Nat) (m : Msg) : State :=
  let h := rayTop m
  match dirState s h with
  | 1 => forwardRay s n m (ceOwners (dirWords s h))
  | 2 => holdRay (homeThaw s h) h m
  | 3 | 4 => holdRay s h m
  | _ => discardMsg s n m 7

/-- RAY_SERVED_AT_HOME (R312): while the wait area is full the ray waits, with one WAITFULL entry (R313). -/
def execRayServedAtHome (i : Nat) (s : State) : Out :=
  match s.homeQ[i]? with
  | some (.ray n m) =>
    let c := s.core n
    if (s.homeQ.take i).any (fun q => match q with | .ray n' _ => n' == n | _ => false) then .next s
    else if rayBlocked s m.msg then
      (if c.waitSaid then .next s
       else .next (pushHost (s.setCore n { c with waitSaid := true })
        (hostEntry s 6 (siteOf s n) (some n) (leN 2 (rayTop m.msg).toNat))))
    else .next (serveRay ((dropReq s i).setCore n { c with waitSaid := false }) n m.msg)
  | _ => .next s

/-- CANOPY_INVALIDATION (R314): the core drops its cached entry. -/
def execCanopyInvalidation (n : Nat) (h : BitVec 16) (s : State) : Out :=
  match s.canopyInv.find? (fun b => b.key == h.setWidth 32 && !b.got.contains n) with
  | none => .next s
  | some b =>
    if !coreHere s n then .next s
    else
      let b' := { b with got := n :: b.got }
      let s := { s with canopyInv := if b'.done s then s.canopyInv.erase b else s.canopyInv.map fun x => if x = b then b' else x }
      .next (s.updCore n fun c => { c with canopy := c.canopy.filter fun e => e.h != h })

/-! ## Directory operations of instructions (R311, R318 to R321) -/

/-- CNLOOK.DIR: the words, and the Canopy cache filled from a resident entry (R314, R318). -/
def dirRead (s : State) (n : Nat) (h : BitVec 16) : State × List W64 :=
  let w := dirWords s h
  if dirState s h != 1 then (s, w)
  else
    (s.updCore n fun c =>
      let rest := c.canopy.filter fun e => e.h != h
      let rest := if Config.canopyCap ≤ rest.length then rest.drop 1 else rest
      { c with canopy := rest ++ [⟨h, ceOwners w⟩] }, w)

/-- CNSET.DIR (R315, R319): the entry as given, its `waiting` field the hardware's; absent discards the held rays, and
cold with rays held asks for a thaw at once. -/
def dirWrite (s : State) (h : BitVec 16) (ws : List W64) : State :=
  let w3 : W64 := (ws.getD 3 0 &&& 0xFFFFFFFF) ||| (((dirWords s h).getD 3 0) &&& 0xFFFFFFFF00000000)
  let s := putDir s h (ws.take 3 ++ [w3])
  match ceState ws with
  | 0 =>
    let rays := heldFor s h
    let s := putWaiting { s with heldRays := s.heldRays.filter fun r => r.h != h } h
    rays.foldl (fun s m => discardMsg s (canopyHome s h) m 7) s
  | 2 => if (heldFor s h).isEmpty then s else homeThaw s h
  | _ => s

/-- THAW at the home (R320): a status at once, or the request accepted. -/
def thawAtHome (s : State) (n uid seq : Nat) (h : BitVec 16) (slot : Nat) : State × Option Nat :=
  let w := dirWords s h
  let m := (ceOwners w).length
  match dirState s h with
  | 0 => (s, some 1)
  | 4 => (s, some 2)
  | st =>
    if (ceOwners w).contains (BitVec.ofNat 16 n) then (s, some 0)
    else if 4 ≤ m + (s.thawAcc.filter fun a => a.1 == h).length then (s, some 3)
    else
      let s := if st = 2 then setDir s h 3 [] else s
      (askThaw { s with thawAcc := s.thawAcc ++ [(h, n)] } n ⟨h, some slot, some (uid, seq)⟩, none)

/-- EVICT (R321): the directory step where the slot holds the entry's version, then the slot reserved. -/
def evictSlot (s : State) (n i : Nat) : State × Nat :=
  let p := (s.core n).pinned.getD i {}
  let h : BitVec 16 := BitVec.ofNat 16 (pinHandle p)
  if pinState p != 3 then (s, 2)
  else
    let w := dirWords s h
    let me : BitVec 16 := BitVec.ofNat 16 n
    let s := if dirState s h != 0 && ceVersion w == pinFrom p && (ceOwners w).contains me then
        let rest := (ceOwners w).filter (· != me)
        setDir s h (if rest.isEmpty && ceState w == 1 then 2 else ceState w) rest
      else s
    (s.updCore n fun c => { c with pinned := c.pinned.set i (mkPin p (pinHandle p) (pinTo p) (pinSup p) 1 (pinOff p)) }, 0)

/-! ## The Thaw engine (R316) -/

/-- A slot's words as the engine sets them. -/
def thawPin (old : Pin) (h : BitVec 16) (vfrom nodes st : Nat) : Pin :=
  { w0 := BitVec.ofNat 64 (h.toNat * 2 ^ 48 + vfrom * 2 ^ 32 + pinTo old * 2 ^ 16 + st * 2 ^ 10 + (nodes - 1) % 256), w1 := old.w1 }

/-- A slot's state alone. -/
def Core.pinSet (c : Core) (i st : Nat) : Core :=
  let p := c.pinned.getD i {}
  { c with pinned := c.pinned.set i { p with w0 := (p.w0 &&& ~~~ 0xC00) ||| BitVec.ofNat 64 (st * 2 ^ 10) } }

/-- A THAW entry (Table 18-4). -/
def pushThaw (s : State) (n : Nat) (h : BitVec 16) (outcome : Nat) : State :=
  pushHost s (hostEntry s 11 (siteOf s n) (some n) (leN 2 h.toNat ++ leN 1 outcome))

/-- A refused or failed thaw: its entry, and the home told. -/
def thawFail (s : State) (n : Nat) (r : ThawReq) (outcome : Nat) : State :=
  pushThaw { s with homeQ := s.homeQ ++ [.thawFailed n r] } n r.h outcome

/-- THAW_REQUEST: the engine takes its oldest request: the named slot, or the lowest reserved one; an image outside the
package's HBM fails before any byte is copied. -/
def execThawRequest (n : Nat) (s : State) : Out :=
  let c := s.core n
  match c.thawJob, c.thawQ with
  | none, r :: rest =>
    let s := s.setCore n { c with thawQ := rest }
    let slot := match r.slot with
      | some i => if pinState (c.pinned.getD i {}) == 1 then some i else none
      | none => (List.range 16).find? fun i => pinState (c.pinned.getD i {}) == 1
    match slot with
    | none => .next (thawFail s n r 1)
    | some i =>
      let w := dirWords s r.h
      let p := c.pinned.getD i {}
      let img := ceImage w
      if !paHbm (img + 256 * ceNodes w - 1) then
        .next (thawFail (s.updCore n fun c => { c with pinned := c.pinned.set i (thawPin p r.h (ceVersion w) (ceNodes w) 1) }) n r 3)
      else
        .next (s.updCore n fun c => { c with
          thawJob := some { req := r, slot := i, image := img, nodes := ceNodes w },
          pinned := c.pinned.set i (thawPin p r.h (ceVersion w) (ceNodes w) 2) })
  | _, _ => .next s

/-- THAW_COPY_DONE: the bytes of the image, read at home, stand in the slot's span; the slot is pinned. -/
def execThawCopyDone (n : Nat) (s : State) : Out :=
  let c := s.core n
  match c.thawJob with
  | none => .next s
  | some j =>
    let off := pinOff (c.pinned.getD j.slot {})
    let c := (c.putBs off (s.getBs (memKey s.pkg.toNat j.image) (256 * j.nodes))).pinSet j.slot 3
    .next { s.setCore n { c with thawJob := none } with homeQ := s.homeQ ++ [.thawDone n j.req] }

/-- THAW_COPY_FAILED: an uncorrectable error at an address of the image. -/
def execThawCopyFailed (n addr : Nat) (syn : W64) (s : State) : Out :=
  let c := s.core n
  match c.thawJob with
  | none => .next s
  | some j =>
    if addr < j.image || j.image + 256 * j.nodes ≤ addr then .next s
    else
      let s := s.setCore n { c.pinSet j.slot 1 with thawJob := none }
      .next (thawFail (pushMcheck s (addr / 0xC00000000) (some n) addr 4 syn) n j.req 2)

/-- One accepted thaw of an entry is over. -/
def thawOver (s : State) (h : BitVec 16) (n : Nat) : State := { s with thawAcc := s.thawAcc.erase (h, n) }

/-- The status of a firing's THAW. -/
def thawAnswer (s : State) (n : Nat) (r : ThawReq) (status : W64) : State :=
  match r.by_ with
  | none => s
  | some (uid, seq) => answerFiring s n uid seq [status]

/-- THAW_DONE_AT_HOME (Table 15-3). -/
def execThawDoneAtHome (i : Nat) (s : State) : Out :=
  match s.homeQ[i]? with
  | some (.thawDone n r) =>
    let s := thawOver (dropReq s i) r.h n
    let owners := ceOwners (dirWords s r.h) ++ [BitVec.ofNat 16 n]
    let t := match dirState s r.h with
      | 3 => releaseHeld (setDir s r.h 1 owners) r.h
      | 1 => setDir s r.h 1 owners
      | 4 => setDir s r.h 4 owners
      | _ => s
    .next (thawAnswer t n r 0)
  | _ => .next s

/-- THAW_FAILED_AT_HOME (Table 15-3): a thawing entry becomes cold, or resident where it has owners. -/
def execThawFailedAtHome (i : Nat) (s : State) : Out :=
  match s.homeQ[i]? with
  | some (.thawFailed n r) =>
    let s := thawOver (dropReq s i) r.h n
    let owners := ceOwners (dirWords s r.h)
    let t := if dirState s r.h != 3 then s
      else if owners.isEmpty then setDir s r.h 2 []
      else releaseHeld (setDir s r.h 1 owners) r.h
    .next (thawAnswer t n r 4)
  | _ => .next s

end Sys2Proof.Machine
end

