-- ==== Sys2Proof/Machine/Engine.lean ====
section
/-! DEFINITION. Engine and sampler instructions (R329 to R346), as far as the issuing core goes; the sampler's
coordinates and filtering (R344). -/

namespace Sys2Proof.Machine

/-! ## Engine commands (R333, R334) -/

/-- Fields of a remote operand. -/
def farCore (w : W64) : Nat := fld w 0 29
def farOff (w : W64) : Nat := fld w 32 20

/-- The access that a trap on an operand records: a global one is read or written, a local or remote one is a scratchpad's. -/
def engKind (sp : Nat) (write : Bool) : Access := if sp = 0 then (if write then .write else .read) else .scratch

/-- ALIGN of an operand in a space. -/
def engAlign (sp : Nat) (w : W64) : Bool := (if sp = 2 then farOff w else w.toNat) % 8 == 0

/-- Whether bytes [o, o + len) lie in the scratchpad and, where the limit applies, outside the workspace region. -/
def rangeOk (c : Core) (ws : Bool) (o len : Nat) : Bool := o + len ≤ 2 ^ 20 && !(ws && 0 < len && c.inWs o len)

/-- PROT of a range (R333): a user firing's local range, and every remote range at its target; what the workspace region of
a core of another package is stays free (log entry 12). -/
def engRange (s : State) (n sl : Nat) (sp : Nat) (w : W64) (len : Nat) : Bool :=
  match sp with
  | 1 => rangeOk (s.core n) (!privileged (s.core n) sl) w.toNat len
  | 2 =>
    let g := farCore w
    if g / 4096 == s.pkg.toNat || !coreExists s g then rangeOk (s.core (g % 4096)) (coreExists s g) (farOff w) len
    else farOff w + len ≤ 2 ^ 20 && (len = 0 || !Config.farRefuses s.fresh)
  | _ => true

/-- Whether an operand of a space names a core of another package. -/
def farOperand (s : State) (sp : Nat) (w : W64) : Bool := sp == 2 && farCore w / 4096 != s.pkg.toNat

/-- The state after the checks of R334: what another package's core reported at one issue says nothing of the next. -/
def engDraw (s : State) (ds ss : Nat) (dst src : W64) (fill : Bool) : State :=
  if farOperand s ds dst || (!fill && farOperand s ss src) then { s with fresh := s.fresh + 1 } else s

/-- MSGFMT of a remote operand. -/
def engFar (s : State) (sp : Nat) (w : W64) : Bool :=
  sp != 2 || (fld w 29 3 == 0 && fld w 52 12 == 0 && coreExists s (farCore w))

/-- The checks of R334, in order. -/
def engCheck (s : State) (n sl : Nat) (ds ss : Nat) (dst src len : W64) (fill : Bool) (nt : Option (W64 × W64)) :
    Option TrapCause :=
  let bad := fun (w : W64) => some (msgfmt w)
  if !engAlign ds dst then some (causeAt 0x09 (engKind ds true) (if ds = 0 then va56 dst else dst))
  else if !fill && !engAlign ss src then some (causeAt 0x09 (engKind ss false) (if ss = 0 then va56 src else src))
  else if len.toNat % 8 != 0 then some (cause 0x09)
  else if !engRange s n sl ds dst len.toNat then some (causeAt 0x0B .scratch dst)
  else if !fill && !engRange s n sl ss src len.toNat then some (causeAt 0x0B .scratch src)
  else if !engFar s ds dst then bad dst
  else if !fill && !engFar s ss src then bad src
  else if 2 ^ 24 < len.toNat then bad len
  else match nt with
    | some p => if nzBad p.1 || !coreExists s (fld p.1 0 29) then bad p.1 else none
    | none => none

def Core.ctx (c : Core) (i : Nat) : Ctx := c.ctxs.getD i {}
def Core.setCtx (c : Core) (i : Nat) (x : Ctx) : Core := { c with ctxs := c.ctxs.set i x }

/-- Issue an engine command (R334): its number into s(D), the command into its context's queue, a notification's
child counted or suppressed (R336). -/
def engIssue (h : Head) (d ctx ds ss : Nat) (dstR srcR lenR : SSrc) (fill : Bool) (nt : Option (BitVec 6)) (s : State) : Out :=
  withF s fun n sl f =>
    let c := s.core n
    let dst := f.srcS dstR
    let src := f.srcS srcR
    let len := f.srcS lenR
    let pair := nt.map fun r => (f.getS r.toNat, f.getS (r.toNat + 1))
    if !f.enS h then s.setFiring n sl (f.retire false h .l96 .none)
    else match engCheck s n sl ds ss dst src len fill pair with
      | some t => takeTrap (engDraw s ds ss dst src fill) n sl t
      | none =>
        let x := c.ctx ctx
        if f.rel.isSome || Config.ctxCap ≤ x.q.length then s
        else
          let cmd := fun supp =>
            Cmd.mk (x.i + 1) fill (BitVec.ofNat 2 ds) (BitVec.ofNat 2 ss) dst src len.toNat c.asid (!privileged c sl) pair
              f.ltag 0 supp
          let go := fun supp (s : State) =>
            let c := s.core n
            let x := c.ctx ctx
            s.setCore n ((c.setCtx ctx { x with i := x.i + 1, q := x.q ++ [cmd supp] }).setFiring sl (f.writeS h .l96 d (x.i + 1)))
          let s := engDraw s ds ss dst src fill
          if pair.isSome then countChildren s n sl f 1 (go false) (go true) else go false s

def execBget (o : BlkOps) (s : State) : Out := engIssue o.h o.d.toNat o.ctx.toNat 1 0 o.dst o.src o.len false o.nt s
def execBput (o : BlkOps) (s : State) : Out := engIssue o.h o.d.toNat o.ctx.toNat 0 1 o.dst o.src o.len false o.nt s
def execBcopy (o : BcopyOps) (s : State) : Out :=
  engIssue o.h o.d.toNat o.ctx.toNat o.ds.toNat o.ss.toNat o.dst o.src o.len false o.nt s
def execBfill (o : BcopyOps) (s : State) : Out :=
  engIssue o.h o.d.toNat o.ctx.toNat o.ds.toNat 0 o.dst o.src o.len true o.nt s

/-! ## TLREAD, TLWAIT (R338, R339) -/

def execTlreadDone (o : TlreadOps) (s : State) : Out :=
  withF s fun n sl f => s.setFiring n sl (f.writeS o.h .l64 o.d.toNat ((s.core n).ctx o.ctx.toNat).c)

def execTlreadIss (o : TlreadOps) (s : State) : Out :=
  withF s fun n sl f => s.setFiring n sl (f.writeS o.h .l64 o.d.toNat ((s.core n).ctx o.ctx.toNat).i)

def execTlreadErr (o : TlreadOps) (s : State) : Out :=
  withF s fun n sl f =>
    let c := s.core n
    let x := c.ctx o.ctx.toNat
    let c' := if f.enS o.h then c.setCtx o.ctx.toNat { x with err := 0, addr := 0 } else c
    s.setCore n (c'.setFiring sl (f.writeS o.h .l64 o.d.toNat x.err))

/-- ENGERR (Table 17-2): context and number, the error record, the overflow count, the faulting address. -/
def engerr (ctx : Nat) (x : Ctx) : TrapCause :=
  { code := 0x15, value := BitVec.ofNat 64 (ctx * 2 ^ 62 + fld x.err 0 48), aux := x.err,
    count := BitVec.ofNat 32 (fld x.err 48 8), addr := some x.addr }

/-- After a TLWAIT for number k the core's sampler sees what the context's commands up to it wrote: its lines of those
addresses go (R339; log entry 83). -/
def Core.tlAcquire (c : Core) (i k : Nat) : Core :=
  let x := c.ctx i
  { c.setCtx i { x with wrote := x.wrote.filter fun w => k < w.1 } with
    samp := c.samp.filter fun l => !(x.wrote.any fun w => w.1 ≤ k && w.2 == l.vline && l.asid == c.asid) }

def execTlwait (o : TlwaitOps) (s : State) : Out :=
  withF s fun n sl f =>
    let x := (s.core n).ctx o.ctx.toNat
    let k := f.srcS o.a
    if !f.enS o.h then s.setFiring n sl (f.retire false o.h .l64 .none)
    else if x.i.toNat < k.toNat then takeTrap s n sl (msgfmt k)
    else if x.c.toNat < k.toNat then s
    else if x.err != 0 && fld x.err 0 48 ≤ k.toNat then takeTrap s n sl (engerr o.ctx.toNat x)
    else s.setCore n (((s.core n).tlAcquire o.ctx.toNat k.toNat).setFiring sl (f.retire false o.h .l64 .none))

/-! ## Sampler descriptors (R341) -/

def sdBase (d : List Byte) : Nat := natOfLE (d.take 8)
def sdW (d : List Byte) : Nat := natOfLE ((d.drop 8).take 2) + 1
def sdH (d : List Byte) : Nat := natOfLE ((d.drop 0xA).take 2) + 1
def sdPitch (d : List Byte) : Nat := natOfLE ((d.drop 0xC).take 4)
def sdFmt (d : List Byte) : Nat := (d.getD 0x10 0).toNat
def sdKind (d : List Byte) : Nat := (d.getD 0x11 0).toNat
def sdFilt (d : List Byte) : Nat := (d.getD 0x12 0).toNat
def sdAddr (d : List Byte) : BitVec 8 := d.getD 0x13 0
def texelSize (fmt : Nat) : Nat := if fmt % 2 = 1 then 8 else 4

def sdFormed (d : List Byte) : Bool :=
  sdBase d < 2 ^ 56 && sdBase d % 16 == 0 && sdPitch d % 16 == 0 && sdFmt d ≤ 3 && sdKind d ≤ 1 &&
  (sdH d == 1 || (sdKind d == 0 && sdW d * texelSize (sdFmt d) ≤ sdPitch d)) && sdFilt d ≤ 1 &&
  fld (sdAddr d) 2 6 == 0 && (d.drop 0x14).all (· == 0)

/-! ## Coordinates (R344) -/

/-- Bring an index into [0, n): clamp or wrap. -/
def bringIn (wrap : Bool) (i : Int) (n : Nat) : Nat :=
  if wrap then (i % (n : Int)).toNat else if i < 0 then 0 else min i.toNat (n - 1)

/-- u × n − half/2 as a numerator over 2^k. -/
def coordOf (u : FVal) (n : Nat) (half : Bool) : Option (Int × Nat) :=
  match u with
  | .fin neg m e =>
    let k := 1 + (if e < 0 then (-e).toNat else 0)
    let v : Int := m * n * 2 ^ ((k : Int) + e).toNat
    some ((if neg then -v else v) - (if half then 2 ^ (k - 1) else 0), k)
  | _ => none

/-- Indices along one axis with their weights in 256ths: one for nearest, two for bilinear. -/
def axisTaps (u : FVal) (n : Nat) (wrap bil : Bool) : Option (List (Nat × Nat)) :=
  (coordOf u n bil).map fun x =>
    let i := x.1 / (2 ^ x.2 : Int)
    if bil then
      let fr := (x.1 % (2 ^ x.2 : Int)).toNat
      let al := (roundInt .rne false (fr * 256) x.2).1
      [(bringIn wrap i n, 256 - al), (bringIn wrap (i + 1) n, al)]
    else [(bringIn wrap i n, 256)]

/-- The texels of a lane and their weights in 65,536ths, weight zero left out; none for a NaN or infinite
coordinate. -/
def taps (d : List Byte) (fetch : Bool) (u v : W32) : Option (List ((Nat × Nat) × Nat)) :=
  let uw := (sdAddr d).getLsbD 0
  let vw := (sdAddr d).getLsbD 1
  let oneD := sdKind d == 1
  let bil := sdFilt d == 1 && !fetch
  let us := if fetch then some [(bringIn uw u.toInt (sdW d), 256)] else axisTaps (Fmt.f32.decode u.toNat) (sdW d) uw bil
  let vs := if oneD then some [(0, 256)] else if fetch then some [(bringIn vw v.toInt (sdH d), 256)]
    else axisTaps (Fmt.f32.decode v.toNat) (sdH d) vw bil
  match us, vs with
  | some us, some vs => some ((vs.flatMap fun y => us.map fun x => ((x.1, y.1), x.2 * y.2)).filter fun t => t.2 != 0)
  | _, _ => none

/-- The address of texel (i, j). -/
def texelVa (d : List Byte) (i j : Nat) : Nat := (sdBase d + j * sdPitch d + i * texelSize (sdFmt d)) % 2 ^ 56

/-! ## Texels (R343, R344) -/

/-- Channel k of a texel, an exact value; UNORM bytes are numerators over 255. -/
def texelChan (fmt : Nat) (bs : List Byte) (k : Nat) : FVal :=
  let f32 := fun o => Fmt.f32.decode (natOfLE ((bs.drop o).take 4))
  let one : FVal := .fin false 1 0
  let zero : FVal := .fin false 0 0
  match fmt with
  | 0 => match k with | 0 => f32 0 | 3 => one | _ => zero
  | 1 => match k with | 0 => f32 0 | 1 => f32 4 | 3 => one | _ => zero
  | 2 => .fin false (bs.getD k 0).toNat 0
  | _ => Fmt.f16.decode (natOfLE ((bs.drop (2 * k)).take 2))

/-- The weighted sum of one channel, rounded once to FP32 (R344); den is 255 for UNORM and 1 otherwise. -/
def sumChan (den : Int) (xs : List (FVal × Nat)) : W32 :=
  let infs := xs.filterMap fun x => match x.1 with | .inf n => some n | _ => none
  let nan : W32 := BitVec.ofNat 32 Fmt.f32.nanBits
  if xs.any (fun x => x.1.isNan) then nan
  else match infs with
    | n :: rest => if rest.all (· == n) then BitVec.ofNat 32 (Fmt.f32.signBits n + Fmt.f32.infBits) else nan
    | [] =>
      let sum := (xs.map fun x => match x.1 with | .fin n m e => scaled n m e (-149) * x.2 | _ => 0).foldl (· + ·) (0 : Int)
      let minus := xs.all fun x => match x.1 with | .fin n m _ => n && m == 0 | _ => false
      if sum = 0 then (if minus && !xs.isEmpty then 0x80000000 else 0)
      else BitVec.ofNat 32 (roundQ32 sum (den * 2 ^ (149 + 16)))
where
  roundQ32 (num den : Int) : Nat :=
    let q := quot 24 num.natAbs den.natAbs
    (roundTo .f32 .rne false (decide (num < 0)) q.1 (-(q.2 : Int) - 1)).1

/-- A lane's four channels from the texels' bytes. -/
def sampleLane (d : List Byte) (ts : List (List Byte × Nat)) : List W32 :=
  (List.range 4).map fun k =>
    sumChan (if sdFmt d = 2 then 255 else 1) (ts.map fun t => (texelChan (sdFmt d) t.1 k, t.2))

/-! ## SMP, SMPF, SFENCE (R342 to R346) -/

/-- What the translations of a request end in: the lines used, a trap, or a walk. -/
inductive LinePlan | ok (xs : List (Nat × Nat × Bool)) | trap (t : TrapCause) | walk (va lane : Nat)
  deriving DecidableEq, Repr

/-- Translate the texels' lines, lane by lane ascending (R343). -/
def planTexels (c : Core) (sl : Nat) (f : Firing) : List (Nat × Nat) → LinePlan
  | [] => .ok []
  | (lane, va) :: rest =>
    match xlate c f.xl (privileged c sl) .read va (some lane) with
    | .trap t => .trap t
    | .miss => .walk va lane
    | .hit key unc =>
      match planTexels c sl f rest with
      | .ok xs => .ok ((va / 128, key / 128, unc) :: xs)
      | p => p

/-- Issue a sampler request. -/
def smpIssue (fetch : Bool) (o : SmpOps) (s : State) : Out :=
  withF s fun n sl f =>
    let c := s.core n
    let off := f.srcS o.desc
    let ls := actLanes f o.h o.qm
    if !f.enS o.h then s.setFiring n sl (f.retire false o.h .l96 .none)
    else if off.toNat % 32 != 0 then takeTrap s n sl (causeAt 0x09 .scratch off)
    else if c.spadProt off.toNat 32 then takeTrap s n sl (causeAt 0x0B .scratch off)
    else
      let d := c.getBs off.toNat 32
      let args := ls.map fun L => (L, f.getV o.u.toNat L, f.getV o.v.toNat L)
      let vas := args.flatMap fun a => ((taps d fetch a.2.1 a.2.2).getD []).map fun t => (a.1, texelVa d t.1.1 t.1.2)
      if !sdFormed d then takeTrap s n sl (msgfmt (w64OfLE ((d.drop 0x10).take 8)))
      else match planTexels c sl f vas with
        | .trap t => takeTrap s n sl t
        | .walk va lane => holdWalk s n sl f va .read (some lane)
        | .ok xs =>
          if ls.isEmpty then s.setFiring n sl (f.retire false o.h .l96 .none)
          else if Config.sampCap ≤ c.sampQ.length then s
          else
            let q : SampReq := { slot := sl, seq := f.seq, fetch := fetch, desc := d, args := args, xl := xs.eraseDups, d := o.d.toNat }
            let f' := (f.depUnit [] ((List.range 4).map (o.d.toNat + ·)) (codeWord s n sl f.pc)).retire false o.h .l96 .none
            s.setCore n ({ c with sampQ := c.sampQ ++ [q] }.setFiring sl f')

def execSmp (o : SmpOps) (s : State) : Out := smpIssue false o s
def execSmpf (o : SmpOps) (s : State) : Out := smpIssue true o s

def execSfence (o : HOps) (s : State) : Out :=
  withF s fun n sl f =>
    let c := s.core n
    if !f.enS o.h then s.setFiring n sl (f.retire false o.h .l64 .none)
    else if c.sampQ.any (fun q => q.slot == sl) then s
    else s.setCore n ({ c with samp := [] }.setFiring sl (f.retire false o.h .l64 .none))

end Sys2Proof.Machine
end

