-- ==== Sys2Proof/Machine/Flags.lean ====
section
/-! DEFINITION. Flag computations: the sticky FP flags and FPX (R136, R137), the integer and floating conditions of
the compares (R105, R106), and the writing of predicate pairs (R104). -/

namespace Sys2Proof.Machine

/-- The end of an instruction that raises flags (R137): flags first; FPX writes nothing more. -/
def fpEnd (s : State) (n sl : Nat) (f : Firing) (fl : FpFlags) (k : Firing → Firing) : State :=
  let f := f.orFlags fl
  if fpxHits f fl then takeTrap (s.setFiring n sl f) n sl (fpxCause fl) else s.setFiring n sl (k f)

def orAll (fls : List FpFlags) : FpFlags := fls.foldl (· ||| ·) 0

/-- The integer conditions (Table 5-3). -/
def intCond {w : Nat} (c : BitVec 4) (a b : BitVec w) : Bool :=
  match c.toNat with
  | 0 => a == b
  | 1 => a != b
  | 2 => a.slt b
  | 3 => a.sle b
  | 4 => b.slt a
  | 5 => b.sle a
  | 6 => a.ult b
  | 7 => a.ule b
  | 8 => b.ult a
  | 9 => b.ule a
  | 10 => a &&& b != 0
  | 11 => a &&& b == 0
  | _ => false

/-- key of TLT (R106). -/
def tltKey (w : Nat) (x : Nat) : Int :=
  if x.testBit (w - 1) then ((x ^^^ (2 ^ (w - 1) - 1) : Nat) : Int) - 2 ^ w else x

/-- The floating conditions (Table 5-4): the result, and whether Invalid is raised. -/
def floatCond (t : Fmt) (c : BitVec 4) (x y : Nat) : Bool × Bool :=
  let a := t.decode x
  let b := t.decode y
  let un := a.isNan || b.isNan
  let sg := a.isSig || b.isSig
  match c.toNat with
  | 0 => (fEq a b, sg)
  | 1 => (!fEq a b, sg)
  | 2 => (fLt a b, un)
  | 3 => (fLt a b || fEq a b, un)
  | 4 => (fLt b a, un)
  | 5 => (fLt b a || fEq a b, un)
  | 6 => (un, sg)
  | 7 => (!un, sg)
  | 8 => (un || fLt a b, sg)
  | 9 => (un || fLt a b || fEq a b, sg)
  | 10 => (un || fLt b a, sg)
  | 11 => (un || fLt b a || fEq a b, sg)
  | 12 => (un || fEq a b, sg)
  | 13 => (fLt a b || fLt b a, sg)
  | _ => (decide (tltKey t.width x < tltKey t.width y), false)

/-- The pair (T, F) a compare writes for one element (R104): mode, enabled, result, old pt and pf. -/
def cmpPair (mode : BitVec 2) (en r oldT oldF : Bool) : Bool × Bool :=
  match mode.toNat with
  | 0 => (r && en, !r && en)
  | 1 => if en then (r, !r) else (oldT, oldF)
  | 2 => if en then (oldT && r, oldF || !r) else (oldT, oldF)
  | _ => if en then (oldT || r, oldF && !r) else (oldT, oldF)

/-- Write a compare's k pair. -/
def Firing.cmpK (f : Firing) (o : CmpOps) (en r : Bool) : Firing :=
  let p := cmpPair o.mode en r (f.getK o.pt.toNat) (f.getK o.pf.toNat)
  (f.setK o.pt.toNat p.1).setK o.pf.toNat p.2

/-- Write a compare's q pair over the 32 lanes. -/
def Firing.cmpQ (f : Firing) (o : VCmpOps) (r : Nat → Bool) : Firing :=
  let t := f.getQ o.pt.toNat
  let u := f.getQ o.pf.toNat
  let p := fun L => cmpPair o.mode (f.enL o.h L) (r L) (bitAt t L) (bitAt u L)
  (f.setQ o.pt.toNat (laneMask fun L => (p L).1)).setQ o.pf.toNat (laneMask fun L => (p L).2)

end Sys2Proof.Machine
end

