-- ==== Sys2Proof/Machine/ScalarInt.lean ====
section
/-! DEFINITION. Group 000: scalar integer, address and bit-field instructions (R85 to R97). -/

namespace Sys2Proof.Machine

/-- Operand width (R87). -/
def wOf (w : Bool) : Nat := if w then 32 else 64

/-- A result of w bits extended to 64 by sign or by zero. -/
def extR (w : Nat) (signed : Bool) (x : Int) : W64 :=
  if w = 64 then BitVec.ofInt 64 x
  else if signed then (BitVec.ofInt 32 x).signExtend 64 else (BitVec.ofInt 32 x).setWidth 64

/-- Operand x read as sint(w) or uint(w). -/
def rdI (w : Nat) (signed : Bool) (x : W64) : Int :=
  if w = 64 then (if signed then x.toInt else x.toNat)
  else if signed then (x.setWidth 32).toInt else (x.setWidth 32).toNat

/-- Clamp to the range of sint(w) or uint(w) (R89). -/
def clampI (w : Nat) (signed : Bool) (x : Int) : Int :=
  let lo : Int := if signed then -(2 ^ (w - 1)) else 0
  let hi : Int := if signed then 2 ^ (w - 1) - 1 else 2 ^ w - 1
  if x < lo then lo else if hi < x then hi else x

/-- The exact operation g under SAT (R89): operands of the mode's type, the exact value clamped, the low w bits,
extended by sign, or by zero under .US. -/
def satOp (g : Int → Int → Int) (sat : Sat) (w : Nat) (a b : W64) : W64 :=
  match sat with
  | .wrap => extR w true (g (rdI w true a) (rdI w true b))
  | .ss => extR w true (clampI w true (g (rdI w true a) (rdI w true b)))
  | .us => extR w false (clampI w false (g (rdI w false a) (rdI w false b)))

def mulhOp (signed : Bool) (w : Nat) (a b : W64) : W64 :=
  extR w signed ((rdI w signed a * rdI w signed b) / 2 ^ w)

def minOp (signed : Bool) (w : Nat) (a b : W64) : W64 := extR w signed (min (rdI w signed a) (rdI w signed b))
def maxOp (signed : Bool) (w : Nat) (a b : W64) : W64 := extR w signed (max (rdI w signed a) (rdI w signed b))

/-- ABS; wrap keeps the most negative number, .SS clamps (Table 4-4); .US reads its operand as unsigned. -/
def absOp (sat : Sat) (w : Nat) (a : W64) : W64 := satOp (fun x _ => x.natAbs) sat w a 0

/-- Quotient truncated toward zero, with the cases of Table 4-5. -/
def divOp (signed : Bool) (w : Nat) (a b : W64) : W64 :=
  let x := rdI w signed a
  let y := rdI w signed b
  extR w signed (if y = 0 then -1 else x.tdiv y)

def remOp (signed : Bool) (w : Nat) (a b : W64) : W64 :=
  let x := rdI w signed a
  let y := rdI w signed b
  extR w signed (if y = 0 then x else x.tmod y)

/-- Shifts (R91): the count is all 64 bits of b. -/
def shlOp (w : Nat) (a b : W64) : W64 :=
  if w ≤ b.toNat then 0 else if w = 64 then a <<< b.toNat else ((a.setWidth 32) <<< b.toNat).setWidth 64

def shrOp (w : Nat) (a b : W64) : W64 :=
  if w ≤ b.toNat then 0 else if w = 64 then a >>> b.toNat else ((a.setWidth 32) >>> b.toNat).setWidth 64

def sarOp (w : Nat) (a b : W64) : W64 :=
  let c := if w ≤ b.toNat then w - 1 else b.toNat
  if w = 64 then a.sshiftRight c else ((a.setWidth 32).sshiftRight c).signExtend 64

def rolOp (w : Nat) (a b : W64) : W64 :=
  let c := b.toNat % w
  if w = 64 then a.rotateLeft c else ((a.setWidth 32).rotateLeft c).setWidth 64

/-- pos and wid of a control word (R93). -/
def bfPos (ctl : W64) : Nat := fld ctl 0 6
def bfWid (ctl : W64) : Nat := min (fld ctl 8 7) 64

def bfxOp (signed : Bool) (a ctl : W64) : W64 :=
  let wid := bfWid ctl
  let f := (a.toNat >>> bfPos ctl) % 2 ^ wid
  if signed && wid != 0 && 2 ^ (wid - 1) ≤ f then BitVec.ofInt 64 ((f : Int) - 2 ^ wid) else BitVec.ofNat 64 f

def bfiOp (a b ctl : W64) : W64 :=
  let m := BitVec.ofNat 64 ((2 ^ bfWid ctl - 1) <<< bfPos ctl)
  (a &&& ~~~ m) ||| ((b <<< bfPos ctl) &&& m)

/-- Counts of R92 over the low w bits. -/
def popcN (w : Nat) (x : Nat) : Nat := (List.range w).foldl (fun n i => n + (x >>> i) % 2) 0
def ctzN (w : Nat) (x : Nat) : Nat := ((List.range w).find? fun i => x.testBit i).getD w
def clzN (w : Nat) (x : Nat) : Nat := ((List.range w).find? fun i => x.testBit (w - 1 - i)).getD w
def brevN (w : Nat) (x : Nat) : Nat := maskOf w fun i => x.testBit (w - 1 - i)
def bswapN (w : Nat) (x : Nat) : Nat :=
  (List.range (w / 8)).foldl (fun acc j => acc + ((x >>> (8 * (w / 8 - 1 - j))) % 256) * 2 ^ (8 * j)) 0

def cntOp (g : Nat → Nat → Nat) (w : Nat) (a : W64) : W64 := BitVec.ofNat 64 (g w (a.toNat % 2 ^ w))

/-- The skeleton of R87 for two sources; a .W result is one of 32 bits to the latch (R49). -/
def aluExec (o : AluOps) (g : W64 → W64 → W64) (s : State) : Out :=
  onF s fun f =>
    let r := g (f.srcS o.a) (f.srcSI o.b)
    f.writeLS o.h (lenB o.b) o.d.toNat r (latch32 o.w r)

/-- The skeleton of R87 for one source. -/
def unExec (o : UnOps) (g : W64 → W64) (s : State) : Out :=
  onF s fun f =>
    let r := g (f.srcS o.a)
    f.writeLS o.h .l64 o.d.toNat r (latch32 o.w r)

def execAdd (o : AluOps) (s : State) : Out := aluExec o (satOp (· + ·) o.sat (wOf o.w)) s
def execSub (o : AluOps) (s : State) : Out := aluExec o (satOp (· - ·) o.sat (wOf o.w)) s
def execMul (o : AluOps) (s : State) : Out := aluExec o (satOp (· * ·) o.sat (wOf o.w)) s
def execMulh (o : AluOps) (s : State) : Out := aluExec o (mulhOp true (wOf o.w)) s
def execMulhu (o : AluOps) (s : State) : Out := aluExec o (mulhOp false (wOf o.w)) s
def execDiv (o : AluOps) (s : State) : Out := aluExec o (divOp true (wOf o.w)) s
def execDivu (o : AluOps) (s : State) : Out := aluExec o (divOp false (wOf o.w)) s
def execRem (o : AluOps) (s : State) : Out := aluExec o (remOp true (wOf o.w)) s
def execRemu (o : AluOps) (s : State) : Out := aluExec o (remOp false (wOf o.w)) s
def execMin (o : AluOps) (s : State) : Out := aluExec o (minOp true (wOf o.w)) s
def execMax (o : AluOps) (s : State) : Out := aluExec o (maxOp true (wOf o.w)) s
def execMinu (o : AluOps) (s : State) : Out := aluExec o (minOp false (wOf o.w)) s
def execMaxu (o : AluOps) (s : State) : Out := aluExec o (maxOp false (wOf o.w)) s
def execAbs (o : UnOps) (s : State) : Out := unExec o (absOp o.sat (wOf o.w)) s
def execAnd (o : AluOps) (s : State) : Out := aluExec o (fun a b => a &&& b) s
def execOr (o : AluOps) (s : State) : Out := aluExec o (fun a b => a ||| b) s
def execXor (o : AluOps) (s : State) : Out := aluExec o (fun a b => a ^^^ b) s
def execAndn (o : AluOps) (s : State) : Out := aluExec o (fun a b => a &&& ~~~ b) s
def execOrn (o : AluOps) (s : State) : Out := aluExec o (fun a b => a ||| ~~~ b) s
def execShl (o : AluOps) (s : State) : Out := aluExec o (shlOp (wOf o.w)) s
def execShr (o : AluOps) (s : State) : Out := aluExec o (shrOp (wOf o.w)) s
def execSar (o : AluOps) (s : State) : Out := aluExec o (sarOp (wOf o.w)) s
def execRol (o : AluOps) (s : State) : Out := aluExec o (rolOp (wOf o.w)) s
def execBfx (o : AluOps) (s : State) : Out := aluExec o (bfxOp true) s
def execBfxu (o : AluOps) (s : State) : Out := aluExec o (bfxOp false) s

/-- Length of BFI by its control (R85). -/
def lenBfi : SSrcI → Len
  | .src _ => .l96
  | .imm _ => .l128

def execBfi (o : BfiOps) (s : State) : Out :=
  onF s fun f => f.writeS o.h (lenBfi o.ctl) o.d.toNat (bfiOp (f.srcS o.a) (f.srcS o.b) (f.srcSI o.ctl))

def execPopc (o : UnOps) (s : State) : Out := unExec o (cntOp popcN (wOf o.w)) s
def execClz (o : UnOps) (s : State) : Out := unExec o (cntOp clzN (wOf o.w)) s
def execCtz (o : UnOps) (s : State) : Out := unExec o (cntOp ctzN (wOf o.w)) s
def execBrev (o : UnOps) (s : State) : Out := unExec o (cntOp brevN (wOf o.w)) s
def execBswap (o : UnOps) (s : State) : Out := unExec o (cntOp bswapN (wOf o.w)) s
def execMov (o : UnOps) (s : State) : Out := unExec o id s

/-- MOVI in I64 and in J96 with X = 0 (R95). -/
def execMovi (o : MoviOps) (s : State) : Out :=
  onF s fun f => f.writeS o.h (lenImm o.imm) o.d.toNat
    (match o.imm with | .i17 i => i.signExtend 64 | .i32 i => i.signExtend 64)

def execMoviZx (o : MoviXOps) (s : State) : Out :=
  onF s fun f => f.writeS o.h .l96 o.d.toNat (o.imm.setWidth 64)

/-- MOVI.HI reads its destination register as a source (R95). -/
def execMoviHi (o : MoviXOps) (s : State) : Out :=
  onF s fun f => f.writeS o.h .l96 o.d.toNat (o.imm ++ (f.getS o.d.toNat).setWidth 32)

/-- The displacement of LEA. -/
def dispOf (d : Option W32) : W64 := (d.getD 0).signExtend 64

def execLea (o : LeaOps) (s : State) : Out :=
  onF s fun f => f.writeS o.h (lenDisp o.disp) o.d.toNat
    (f.srcS o.a + (f.srcS o.b <<< o.scale.toNat) + dispOf o.disp)

/-- LEA.PC: the base is the instruction's own address (R96). -/
def execLeaPc (o : LeaPcOps) (s : State) : Out :=
  onF s fun f => f.writeS o.h (lenDisp o.disp) o.d.toNat
    (f.pc + (f.srcS o.b <<< o.scale.toNat) + dispOf o.disp)

def execSel (o : SelOps) (s : State) : Out :=
  onF s fun f => f.writeS o.h (lenB o.b) o.d.toNat
    (if f.getK o.k.toNat != o.neg then f.srcS o.a else f.srcSI o.b)

end Sys2Proof.Machine
end

