-- ==== Sys2Proof/Machine/Floating.lean ====
section
/-! DEFINITION. Group 011, floating instructions (R138 to R143), and the conversions of group 101 (R144 to R150). -/

namespace Sys2Proof.Machine

/-- The format of a type field (Table 2-7). -/
def tFmt (t : BitVec 2) : Fmt :=
  match t.toNat with
  | 0 => .f32 | 1 => .f64 | 2 => .f16 | _ => .bf16

/-- A scalar source as a pattern of a format; constants are encoded in it (R35). -/
def Firing.fsrcS (f : Firing) (t : Fmt) : SSrc → Nat
  | .const i => floatConst t i
  | a => (f.srcS a).toNat % 2 ^ t.width

def Firing.fsrcSI (f : Firing) (t : Fmt) : SSrcI → Nat
  | .src a => f.fsrcS t a
  | .imm i => if t == .f64 then (widen32 i).toNat else i.toNat

/-- The elements of 32 bits of a lane in a type (R131). -/
def elems (t : BitVec 2) (x : W32) : List Nat :=
  if t.toNat < 2 then [x.toNat] else [fld x 0 16, fld x 16 16]

/-- A lane source's elements (R35, R37, R38, R138). -/
def Firing.fsrcV (f : Firing) (t : BitVec 2) (l : Nat) : LSrc → List Nat
  | .const i => List.replicate (if t.toNat < 2 then 1 else 2) (floatConst (tFmt t) i)
  | .reg v => if t = 1 then [(f.getV64 v.toNat l).toNat] else elems t (f.getV v.toNat l)
  | .sreg r => if t = 1 then [(f.getS r.toNat).toNat] else elems t ((f.getS r.toNat).setWidth 32)
  | a => elems t (f.srcV l a)

def Firing.fsrcVI (f : Firing) (t : BitVec 2) (l : Nat) : LSrcI → List Nat
  | .src a => f.fsrcV t l a
  | .imm i => if t = 1 then [(widen32 i).toNat] else elems t i

/-- Op of R139 on patterns: inputs flushed, the operation, the result flushed. -/
def opOn (t : Fmt) (ftz : Bool) (g : List FVal → Nat × FpFlags) (xs : List Nat) : Nat × FpFlags :=
  flushOut t ftz (g (xs.map fun x => flushIn t ftz (t.decode x)))

def fv (xs : List FVal) (i : Nat) : FVal := xs.getD i (.nan false)

/-- ExecFloat of R139, scalar forms; narrow says whether the result is one of 32 bits to the latch (R49). -/
def scalarResult (h : Head) (l : Len) (d : BitVec 6) (narrow : Bool) (g : Firing → W64 × FpFlags) (s : State) : Out :=
  withF s fun n sl f =>
    if f.enS h then
      let r := g f
      fpEnd s n sl f r.2 fun f => f.writeLS h l d.toNat r.1 (latch32 narrow r.1)
    else s.setFiring n sl (f.writeS h l d.toNat 0)

/-- The forms whose register value is the latch's as well. -/
def scalarFloat (h : Head) (l : Len) (d : BitVec 6) (g : Firing → W64 × FpFlags) (s : State) : Out :=
  scalarResult h l d false g s

/-- One element result as a register word. -/
def asW64 (r : Nat × FpFlags) : W64 × FpFlags := (BitVec.ofNat 64 r.1, r.2)

/-- Elements of a lane's result as one word, with their flags. -/
def joinElems (rs : List (Nat × FpFlags)) : W64 × FpFlags :=
  (BitVec.ofNat 64 ((rs.zipIdx).foldl (fun acc e => acc + e.1.1 * 2 ^ (16 * e.2)) 0), orAll (rs.map (·.2)))

/-- Element j of every operand through op. -/
def mapElems (xs : List (List Nat)) (op : List Nat → Nat × FpFlags) : W64 × FpFlags :=
  joinElems ((List.range ((xs.headD []).length)).map fun j => op (xs.map fun x => x.getD j 0))

/-- ExecFloat of R139, lane forms; wide results go to a pair. -/
def laneFloat (h : Head) (l : Len) (d : BitVec 8) (wide : Bool) (g : Firing → Nat → W64 × FpFlags) (s : State) : Out :=
  withF s fun n sl f =>
    let res := fun L => g f L
    let fl := orAll ((f.enLanes h).map fun L => (res L).2)
    fpEnd s n sl f fl fun f' =>
      if wide then f'.writeV64 h l d.toNat fun L => (res L).1
      else f'.writeV h l d.toNat fun L => ((res L).1).setWidth 32

/-- A two-operand scalar operation. -/
def fExec (o : FOps) (g : Fmt → Rm → FVal → FVal → Nat × FpFlags) (s : State) : Out :=
  scalarFloat o.h (lenB o.b) o.d (fun f =>
    asW64 (opOn .f64 o.ftz (fun xs => g .f64 (rmOf o.rm) (fv xs 0) (fv xs 1)) [f.fsrcS .f64 o.a, f.fsrcSI .f64 o.b])) s

/-- A two-operand lane operation. -/
def vfExec (o : VFOps) (g : Fmt → Rm → FVal → FVal → Nat × FpFlags) (s : State) : Out :=
  laneFloat o.h (lenBL o.b) o.d (o.t == 1) (fun f L =>
    mapElems [f.fsrcV o.t L o.a, f.fsrcVI o.t L o.b]
      (opOn (tFmt o.t) o.ftz fun xs => g (tFmt o.t) (rmOf o.rm) (fv xs 0) (fv xs 1))) s

/-- a − b is a + (−b), NaN rules included (R140). -/
def fSub (t : Fmt) (rm : Rm) (a b : FVal) : Nat × FpFlags := fAdd t rm a b.neg

def fMin (t : Fmt) (_ : Rm) (a b : FVal) : Nat × FpFlags := fMinMax t false a b
def fMax (t : Fmt) (_ : Rm) (a b : FVal) : Nat × FpFlags := fMinMax t true a b

/-- FFMA with its negations (Table 7-6). -/
def fmaX (t : Fmt) (rm : Rm) (x : BitVec 2) (xs : List FVal) : Nat × FpFlags :=
  fFma t rm (if x.getLsbD 0 then (fv xs 0).neg else fv xs 0) (fv xs 1) (if x.getLsbD 1 then (fv xs 2).neg else fv xs 2)

def execFadd (o : FOps) (s : State) : Out := fExec o fAdd s
def execFsub (o : FOps) (s : State) : Out := fExec o fSub s
def execFmul (o : FOps) (s : State) : Out := fExec o fMul s
def execFmin (o : FOps) (s : State) : Out := fExec o fMin s
def execFmax (o : FOps) (s : State) : Out := fExec o fMax s
def execFdiv (o : FOps) (s : State) : Out := fExec o fDiv s

def execFfma (o : FmaOps) (s : State) : Out :=
  scalarFloat o.h .l96 o.d (fun f =>
    asW64 (opOn .f64 o.ftz (fmaX .f64 (rmOf o.rm) o.x)
      [f.fsrcS .f64 o.a, f.fsrcS .f64 o.b, f.fsrcS .f64 o.c])) s

/-- A one-operand scalar operation. -/
def fUnExec (o : FUnOps) (g : FVal → Nat × FpFlags) (s : State) : Out :=
  scalarFloat o.h .l64 o.d (fun f => asW64 (opOn .f64 o.ftz (fun xs => g (fv xs 0)) [f.fsrcS .f64 o.a])) s

def execFsqrt (o : FUnOps) (s : State) : Out := fUnExec o (fSqrt .f64 (rmOf o.rm)) s
def execFrnd (o : FUnOps) (s : State) : Out := fUnExec o (fRnd .f64 (rmOf o.rm) (o.x == 1)) s

def execFclass (o : FUnOps) (s : State) : Out :=
  scalarFloat o.h .l64 o.d (fun f => (BitVec.ofNat 64 (fClass .f64 (f.fsrcS .f64 o.a)), 0)) s

/-- FCPYS (R140): bits only. -/
def cpysOp (x : BitVec 2) (a b : W64) : W64 :=
  let sb := b.getLsbD 63
  let sg := match x.toNat with | 0 => sb | 1 => !sb | _ => a.getLsbD 63 != sb
  (a &&& 0x7FFFFFFFFFFFFFFF) ||| (if sg then 0x8000000000000000 else 0)

def execFcpys (o : CpysOps) (s : State) : Out :=
  scalarFloat o.h .l64 o.d (fun f =>
    (cpysOp o.x (BitVec.ofNat 64 (f.fsrcS .f64 o.a)) (BitVec.ofNat 64 (f.fsrcS .f64 o.b)), 0)) s

def execVfadd (o : VFOps) (s : State) : Out := vfExec o fAdd s
def execVfsub (o : VFOps) (s : State) : Out := vfExec o fSub s
def execVfmul (o : VFOps) (s : State) : Out := vfExec o fMul s
def execVfmin (o : VFOps) (s : State) : Out := vfExec o fMin s
def execVfmax (o : VFOps) (s : State) : Out := vfExec o fMax s
def execVfdiv (o : VFOps) (s : State) : Out := vfExec o fDiv s

def execVffma (o : VFmaOps) (s : State) : Out :=
  laneFloat o.h .l96 o.d (o.t == 1) (fun f L =>
    mapElems [f.fsrcV o.t L o.a, f.fsrcV o.t L o.b, f.fsrcV o.t L o.c]
      (opOn (tFmt o.t) o.ftz (fmaX (tFmt o.t) (rmOf o.rm) o.x))) s

/-- A one-operand lane operation. -/
def vfUnExec (o : VFUnOps) (g : Fmt → FVal → Nat × FpFlags) (s : State) : Out :=
  laneFloat o.h .l64 o.d (o.t == 1) (fun f L =>
    mapElems [f.fsrcV o.t L o.a] (opOn (tFmt o.t) o.ftz fun xs => g (tFmt o.t) (fv xs 0))) s

def execVfsqrt (o : VFUnOps) (s : State) : Out := vfUnExec o (fun t => fSqrt t (rmOf o.rm)) s
def execVfrnd (o : VFUnOps) (s : State) : Out := vfUnExec o (fun t => fRnd t (rmOf o.rm) (o.x == 1)) s

/-- VFCLASS: a 32-bit result in every type (R142). -/
def execVfclass (o : VFUnOps) (s : State) : Out :=
  laneFloat o.h .l64 o.d false (fun f L =>
    mapElems [f.fsrcV o.t L o.a] fun xs => (fClass (tFmt o.t) (xs.getD 0 0), 0)) s

/-! ## Floating compares (R104, R106) -/

/-- The type bit of FCMP and VFCMP. -/
def cmpFmt (t : Bool) : Fmt := if t then .f64 else .f32

def execFcmp (o : CmpOps) (s : State) : Out :=
  withF s fun n sl f =>
    let en := f.enS o.h
    let r := if en then floatCond (cmpFmt o.t) o.cond (f.fsrcS (cmpFmt o.t) o.a) (f.fsrcSI (cmpFmt o.t) o.b)
      else (false, false)
    fpEnd s n sl f (if r.2 then fNV else 0) fun f => (f.cmpK o en r.1).retire false o.h (lenB o.b) .none

def execVfcmp (o : VCmpOps) (s : State) : Out :=
  withF s fun n sl f =>
    let t : BitVec 2 := if o.t then 1 else 0
    let r := fun L => floatCond (cmpFmt o.t) o.cond ((f.fsrcV t L o.a).headD 0) ((f.fsrcVI t L o.b).headD 0)
    let fl := orAll ((f.enLanes o.h).map fun L => if (r L).2 then fNV else 0)
    fpEnd s n sl f fl fun f => (f.cmpQ o fun L => (r L).1).retire true o.h (lenBL o.b) .none

/-! ## Conversions (R144 to R148) -/

/-- A floating type code of Table 7-9. -/
def cvtFmt (code : BitVec 4) : Fmt :=
  match code.toNat with
  | 0 => .f64 | 1 => .f32 | 2 => .f16 | 3 => .bf16 | 4 => .e4m3 | 5 => .e5m2 | _ => .e2m1

/-- An integer of a type code, from the low bits of a register. -/
def intRead (code : Nat) (x : Nat) : Int :=
  let t := intType code
  let v := x % 2 ^ t.1
  if t.2 && v.testBit (t.1 - 1) then (v : Int) - 2 ^ t.1 else v

/-- The floating source of a conversion by its pipe: a constant is encoded in the source type. -/
def Firing.cvtSrcF (f : Firing) (t : Fmt) (l : Nat) : CvtOpd → Nat
  | .scalar _ a => f.fsrcS t a
  | .lane _ (.const i) => floatConst t i
  | .lane _ a => if t == .f64 then ((f.fsrcV 1 l a).headD 0) else (f.srcV l a).toNat % 2 ^ t.width

/-- The integer source: a constant has its integer value. -/
def Firing.cvtSrcI (f : Firing) (code : Nat) (l : Nat) : CvtOpd → Int
  | .scalar _ a => intRead code (f.srcS a).toNat
  | .lane _ a => intRead code (f.srcV l a).toNat

/-- The skeleton of the three conversions: g gives a lane's result. A result of type S32 or U32 is one of 32 bits to the
latch (R49); a narrower integer leaves there what its register gets (log entry 90). -/
def cvtExec (o : CvtOps) (wide : Bool) (g : Firing → Nat → W64 × FpFlags) (s : State) : Out :=
  match o.opd with
  | .scalar d _ => scalarResult o.h .l64 d (o.dst.toNat / 2 == 5) (fun f => g f 0) s
  | .lane d _ => laneFloat o.h .l64 d wide g s

def execCvtFf (o : CvtOps) (s : State) : Out :=
  cvtExec o (o.dst == 0) (fun f l =>
    let st := cvtFmt o.src
    let dt := cvtFmt o.dst
    let x := flushIn st o.ftz (st.decode (f.cvtSrcF st l o.opd))
    asW64 (flushOut dt o.ftz (cvtFF dt (rmOf o.rm) o.sat x))) s

def execCvtFi (o : CvtOps) (s : State) : Out :=
  cvtExec o false (fun f l =>
    let st := cvtFmt o.src
    let it := intType o.dst.toNat
    let r := cvtFI it.1 it.2 (rmOf o.rm) (flushIn st o.ftz (st.decode (f.cvtSrcF st l o.opd)))
    (BitVec.ofInt 64 r.1, r.2)) s

def execCvtIf (o : CvtOps) (s : State) : Out :=
  cvtExec o (o.dst == 0) (fun f l =>
    let dt := cvtFmt o.dst
    asW64 (flushOut dt o.ftz (cvtIF dt (rmOf o.rm) o.sat (f.cvtSrcI o.src.toNat l o.opd)))) s

/-- A narrow format of Table 7-11. -/
def packFmt (c : BitVec 3) : Fmt :=
  match c.toNat with
  | 0 => .f16 | 1 => .bf16 | 2 => .e4m3 | 3 => .e5m2 | _ => .e2m1

/-- Place y : x at POS over the old word (R149). -/
def packPlace (c : BitVec 3) (pos : Nat) (old : W32) (x y : Nat) : W32 :=
  let w := (packFmt c).width
  let v := x + y * 2 ^ w
  let m := (2 ^ (2 * w) - 1) * 2 ^ (2 * w * pos)
  (old &&& ~~~ BitVec.ofNat 32 m) ||| BitVec.ofNat 32 (v * 2 ^ (2 * w * pos))

/-- An FP32 lane source: constants in FP32. -/
def Firing.f32V (f : Firing) (l : Nat) (a : LSrc) : Nat := (f.fsrcV 0 l a).headD 0

def execCvtPack (o : PackOps) (s : State) : Out :=
  laneFloat o.h .l64 o.d false (fun f L =>
    let t := packFmt o.fmt
    let x := cvtFF t (rmOf o.rm) true (Fmt.f32.decode (f.f32V L o.a))
    let y := cvtFF t (rmOf o.rm) true (Fmt.f32.decode (f.f32V L o.b))
    ((packPlace o.fmt o.pos.toNat (f.getV o.d.toNat L) x.1 y.1).setWidth 64, x.2 ||| y.2)) s

/-- An exact carried error: a signed multiple of 2^e. -/
structure EfAcc where
  v  : Int := 0
  e  : Int := 0
  deriving DecidableEq, Repr

/-- Signed sum of two exact values. -/
def addExact (a : EfAcc) (v : Int) (e : Int) : EfAcc :=
  let lo := if a.e ≤ e then a.e else e
  ⟨a.v * 2 ^ (a.e - lo).toNat + v * 2 ^ (e - lo).toNat, lo⟩

/-- One element of CVT.EF (R150): delivered pattern, new error, flags. The exact real sum has no sign of zero, so a
zero sum delivers +0 (DEDUCED, log entry 14). -/
def efStep (t : Fmt) (e : EfAcc) (x : FVal) : Nat × EfAcc × FpFlags :=
  match x with
  | .nan _ => let r := cvtFF t .rne true x; (r.1, {}, fNV)
  | .inf n => (t.signBits n + t.maxBits, {}, fOF ||| fNX)
  | .fin n m ex =>
    let u := addExact e (if n then -(m : Int) else m) ex
    let neg := decide (u.v < 0)
    let r := roundTo t .rne true neg u.v.natAbs u.e
    match t.decode r.1 with
    | .fin n' m' e' => (r.1, addExact u (if n' then (m' : Int) else -(m' : Int)) e', r.2)
    | _ => (r.1, {}, r.2)

/-- One block of CVT.EF over its enabled lanes: delivered lanes, residual, flags. -/
def efBlock (t : Fmt) (src : Nat → FVal) : List Nat → EfAcc → List (Nat × Nat) × EfAcc × FpFlags
  | [], e => ([], e, 0)
  | L :: ls, e =>
    let r := efStep t e (src L)
    let rest := efBlock t src ls r.2.1
    ((L, r.1) :: rest.1, rest.2.1, r.2.2 ||| rest.2.2)

/-- Lanes of each block (R150). -/
def efSize (seg : BitVec 2) : Nat :=
  match seg.toNat with
  | 0 => 32 | 1 => 16 | _ => 8

/-- CVT.EF and MCVT's narrowing of 32 lanes: delivered lanes, residuals by the block's last enabled lane, flags. -/
def efLanes (t : Fmt) (size : Nat) (en : Nat → Bool) (src : Nat → FVal) :
    List (Nat × Nat) × List (Nat × EfAcc) × FpFlags :=
  (List.range (32 / size)).foldl (fun acc b =>
    let ls := ((List.range size).map (· + b * size)).filter en
    let r := efBlock t src ls {}
    (acc.1 ++ r.1, (match ls.getLast? with | some L => acc.2.1 ++ [(L, r.2.1)] | none => acc.2.1), acc.2.2 ||| r.2.2))
    ([], [], 0)

/-- A residual as FP32 (R150). -/
def residF32 (e : EfAcc) : W32 := BitVec.ofNat 32 (roundTo .f32 .rne false (decide (e.v < 0)) e.v.natAbs e.e).1

/-- Length of CVT.EF and MCVT. -/
def efLen : EfForm → Len
  | .short => .l64
  | _ => .l96

def execCvtEf (o : EfOps) (s : State) : Out :=
  withF s fun n sl f =>
    let t := packFmt o.fmt
    let r := efLanes t (efSize o.seg) (f.enL o.h) fun L => Fmt.f32.decode (f.f32V L o.a)
    let out := fun L => BitVec.ofNat 32 (((r.1.find? fun e => e.1 == L).map (·.2)).getD 0)
    fpEnd s n sl f r.2.2 fun f =>
      let f' := match o.form with
        | .resid vr => f.putV (r.2.1.map fun (e : Nat × EfAcc) => (32 * vr.toNat + e.1, residF32 e.2))
        | _ => f
      f'.writeV o.h (efLen o.form) o.d.toNat out

end Sys2Proof.Machine
end

