-- ==== Sys2Proof/Machine/Sfu.lean ====
section
/-! DEFINITION. The values of the special-function unit (R164): Table 8-7 and the exact cases as given; else a free value
that the bound of Table 8-6 holds (log entry 10). The exact value lies between two integers that count units of 2^-320,
computed here by series; a value is within a bound where some number between them is. -/

namespace Sys2Proof.Machine

/-- 1.0 in units of 2^-320. -/
def fixOne : Nat := 2 ^ 320

/-- The sum of t·z^(2k) / (2k + 1) from k on, n terms, with z = p ÷ q. -/
def atanhSum (p q : Nat) : Nat → Nat → Nat → Nat
  | 0, _, _ => 0
  | n + 1, k, t => t / (2 * k + 1) + atanhSum p q n (k + 1) (t * (p * p) / (q * q))

/-- atanh of p ÷ q, at most 1 ÷ 3: at most 2^8 units too small. -/
def atanhFix (p q : Nat) : Nat := atanhSum p q 110 0 (fixOne * p / q)

/-- ln 2 = 2 atanh (1 ÷ 3): at most 2^9 + 2 units too small. -/
def ln2Fix : Nat := 2 * atanhFix 1 3

/-- The alternating sum of t ÷ (2k + 1) · q^(-2k) from k on, n terms: the arc tangent of 1 ÷ q. -/
def atanSum (q : Nat) : Nat → Nat → Int → Int
  | 0, _, _ => 0
  | n + 1, k, t => t / (2 * (k : Int) + 1) + atanSum q n (k + 1) (-(t / ((q * q : Nat) : Int)))

/-- π = 16 arctan (1 ÷ 5) − 4 arctan (1 ÷ 239), to within 2^13 units. -/
def piFix : Nat := (16 * atanSum 5 75 0 ((fixOne / 5 : Nat) : Int) - 4 * atanSum 239 25 0 ((fixOne / 239 : Nat) : Int)).toNat

/-- The sum of t^k ÷ k! from a term on, n terms. -/
def expSum (t : Nat) : Nat → Nat → Nat → Nat
  | 0, _, _ => 0
  | n + 1, k, u => u + expSum t n (k + 1) (u * t / (fixOne * (k + 1)))

/-- 2^f for f below 1, to within 2^11 units. -/
def exp2Fix (f : Nat) : Nat := expSum (f * ln2Fix / fixOne) 75 0 fixOne

/-- The alternating sum of a sine's (j = 1) or a cosine's (j = 0) terms in r, n terms from u on. -/
def circSum (r : Nat) : Nat → Nat → Int → Int
  | 0, _, _ => 0
  | n + 1, j, u => u + circSum r n (j + 2) (-(u * ((r * r : Nat) : Int) / ((fixOne * fixOne * ((j + 1) * (j + 2)) : Nat) : Int)))

/-- Sine (or cosine) of a number of units, and how far from it the sum may be: the reduction by 2π is off by the error of
piFix for every turn. -/
def sinFix (x : Nat) : Int × Nat := (let r := x % (2 * piFix); circSum r 60 1 (r : Int), x / (2 * piFix) * 2 ^ 14 + 2 ^ 15)
def cosFix (x : Nat) : Int × Nat := (circSum (x % (2 * piFix)) 60 0 (fixOne : Int), x / (2 * piFix) * 2 ^ 14 + 2 ^ 15)

/-- Units in m × 2^e, for e at least −320; an integer square root of that many squares. -/
def fixOf (m : Nat) (e : Int) : Nat := m * 2 ^ (e + 320).toNat
def fixSqrt (x : Nat) : Nat := isqrt (Nat.log2 x / 2 + 1) x

/-- A number of units with a sign. -/
def sgnInt (neg : Bool) (x : Int) : Int := if neg then -x else x

/-- Bounds of log₂ (m × 2^e): the exponent, and 2 atanh z ÷ ln 2 for the rest of m with z = (m − 2^b) ÷ (m + 2^b). -/
def log2Encl (m : Nat) (e : Int) : Int × Int :=
  let b := Nat.log2 m
  let v : Int := (e + b) * (fixOne : Int) + ((2 * atanhFix (m - 2 ^ b) (m + 2 ^ b) * fixOne / ln2Fix : Nat) : Int)
  (v - 4096, v + 4096)

/-- Bounds of 2^x for |x| below 256: the fraction's power, scaled by the integer part's. -/
def exp2Encl (neg : Bool) (m : Nat) (e : Int) : Int × Int :=
  let x := sgnInt neg (fixOf m e : Int)
  let i := x / (fixOne : Int)
  let p := exp2Fix (x % (fixOne : Int)).toNat
  if 0 ≤ i then (((p : Int) - 2048) * 2 ^ i.toNat, ((p : Int) + 2048) * 2 ^ i.toNat)
  else (((p : Int) - 2048) / 2 ^ (-i).toNat, ((p : Int) + 2048) / 2 ^ (-i).toNat + 1)

/-- Bounds of a function's exact value at a finite input m × 2^e that has no value of its own in Table 8-7. -/
def sfuEncl (fn : Nat) (neg : Bool) (m : Nat) (e : Int) : Int × Int :=
  match fn with
  | 0 =>
    let q : Int := ((2 ^ (320 - e).toNat / m : Nat) : Int)
    if neg then (-q - 1, -q) else (q, q + 1)
  | 1 =>
    let r : Int := (fixSqrt (2 ^ (640 - e).toNat / m) : Int)
    (r, r + 1)
  | 2 =>
    let r : Int := (fixSqrt (m * 2 ^ (640 + e).toNat) : Int)
    (r, r + 1)
  | 3 => exp2Encl neg m e
  | 4 => log2Encl m e
  | 5 =>
    let r := sinFix (fixOf m e)
    let v := sgnInt neg r.1
    (v - r.2, v + r.2)
  | _ =>
    let r := cosFix (fixOf m e)
    (r.1 - r.2, r.1 + r.2)

/-- A number of units as FP32, rounded to nearest (its pattern), and the unit in the last place there. -/
def unitsF32 (x : Int) : Nat := (roundTo .f32 .rne false (decide (x < 0)) x.natAbs (-320)).1
def ulpF32 (x : Int) : Nat := 2 ^ (max 1 (unitsF32 x / 2 ^ 23 % 256) - 150 + 320)

/-- Whether x, m × 2^e, is in [0.5, 2]. -/
def nearOne (m : Nat) (e : Int) : Bool :=
  let x := fixOf m e
  fixOne ≤ 2 * x && x ≤ 2 * fixOne

/-- The error bound of Table 8-6 in units. -/
def sfuTol (fn m : Nat) (e : Int) (b : Int × Int) : Nat :=
  let ulp := max (ulpF32 b.1) (ulpF32 b.2)
  match fn with
  | 0 | 1 | 2 => ulp
  | 3 => 2 * ulp
  | 4 => if nearOne m e then 2 ^ 298 else 2 * ulp
  | _ => 2 ^ 299 + m * 2 ^ (e + 296).toNat

/-- Whether a pattern may be delivered where a result within tol of a number between b.1 and b.2 is due: a zero stands for
a result of its sign below 2^-126. -/
def sfuOk (b : Int × Int) (tol : Nat) (y : W32) : Bool :=
  match Fmt.f32.decode y.toNat with
  | .fin n m e =>
    if m = 0 then (if n then b.1 - tol < 0 && -(2 ^ 194) < b.2 + tol else b.1 - tol < 2 ^ 194 && 0 ≤ b.2 + tol)
    else
      let v := sgnInt n (fixOf m e : Int)
      2 ^ 23 ≤ m && b.1 - tol ≤ v && v ≤ b.2 + tol
  | _ => false

/-- A result below the smallest normal is delivered as zero of its sign (R164). -/
def sfuFlush (x : W32) : W32 := if fld x 23 8 = 0 then x &&& 0x80000000 else x

def sfuNan : W32 := 0x7FC00000

/-- 2^k as FP32, for k from −126 to 127. -/
def pow2F32 (k : Int) : W32 := BitVec.ofNat 32 ((k + 127).toNat * 2 ^ 23)

/-- The integer an FP32 value is, if it is one. -/
def fIntOf : FVal → Option Int
  | .fin n m e =>
    let v := if 0 ≤ e then some (m * 2 ^ e.toNat) else if m % 2 ^ (-e).toNat = 0 then some (m / 2 ^ (-e).toNat) else none
    v.map fun k => if n then -(k : Int) else k
  | _ => none

/-- log₂ of an exact power of two. -/
def log2Of : FVal → Option Int
  | .fin false m e => if m ≠ 0 ∧ m = 2 ^ Nat.log2 m then some (e + Nat.log2 m) else none
  | _ => none

/-- Half of log₂ of an exact power of four. -/
def log4Of (v : FVal) : Option Int := (log2Of v).bind fun k => if k % 2 = 0 then some (k / 2) else none

/-- A result within the bound of Table 8-6: the free value where the bound admits it, else the exact value to nearest. -/
def sfuNear (fn : BitVec 3) (x : W32) (neg : Bool) (m : Nat) (e : Int) : W32 :=
  let b := sfuEncl fn.toNat neg m e
  let y := Config.sfuFree fn x
  if sfuOk b (sfuTol fn.toNat m e b) y then y else sfuFlush (BitVec.ofNat 32 (unitsF32 b.1))

/-- .EX2 at a finite input other than zero: the exact powers; +∞ from 128 on, whose powers round to no finite FP32 value; +0
below −128, where 2 ulp do not reach 2^-126. -/
def sfuEx2 (x : W32) (n : Bool) (m : Nat) (e : Int) : W32 :=
  let i := if e ≤ 104 ∧ fixOf m e < 256 * fixOne then fixOf m e else 256 * fixOne
  match fIntOf (.fin n m e) with
  | some k =>
    if -126 ≤ k ∧ k ≤ 127 then pow2F32 k else if 0 ≤ k then 0x7F800000 else if k < -128 then 0 else sfuNear 3 x n m e
  | none => if i < 128 * fixOne then sfuNear 3 x n m e else if n then 0 else 0x7F800000

/-- The result at a finite value other than zero. -/
def sfuFin (fn : BitVec 3) (x : W32) (n : Bool) (m : Nat) (e : Int) : W32 :=
  match fn.toNat with
  | 0 => match log4Of (.fin false m e) with
    | some k => sfuFlush (BitVec.ofNat 32 (roundTo .f32 .rne false n 1 (-2 * k)).1)
    | none => sfuNear fn x n m e
  | 1 => if n then sfuNan else match log4Of (.fin n m e) with
    | some k => pow2F32 (-k)
    | none => sfuNear fn x n m e
  | 2 => if n then sfuNan else match log4Of (.fin n m e) with
    | some k => pow2F32 k
    | none => sfuNear fn x n m e
  | 3 => sfuEx2 x n m e
  | 4 => if n then sfuNan else match log2Of (.fin n m e) with
    | some k => BitVec.ofNat 32 (roundTo .f32 .rne false (decide (k < 0)) k.natAbs 0).1
    | none => sfuNear fn x n m e
  | 7 => sfuNan
  | _ => sfuNear fn x n m e

/-- The result at a zero, or at an infinity (Table 8-7). -/
def sfuZero (fn : BitVec 3) (n : Bool) : W32 :=
  match fn.toNat with
  | 0 | 1 => if n then 0xFF800000 else 0x7F800000
  | 2 | 5 => if n then 0x80000000 else 0
  | 3 | 6 => 0x3F800000
  | 4 => 0xFF800000
  | _ => sfuNan

def sfuInf (fn : BitVec 3) (n : Bool) : W32 :=
  match fn.toNat with
  | 0 => if n then 0x80000000 else 0
  | 1 => if n then sfuNan else 0
  | 2 | 4 => if n then sfuNan else 0x7F800000
  | 3 => if n then 0 else 0x7F800000
  | _ => sfuNan

/-- The SFU's result (R164); a denormal input is a zero of its sign. -/
def sfuVal (fn : BitVec 3) (x : W32) : W32 :=
  match flushIn .f32 true (Fmt.f32.decode x.toNat) with
  | .nan _ => sfuNan
  | .inf n => sfuInf fn n
  | .fin n m e => if m = 0 then sfuZero fn n else sfuFin fn x n m e

end Sys2Proof.Machine
end

