-- ==== Sys2Proof/Machine/LaneInt.lean ====
section
/-! DEFINITION. Group 100: lane integer, cross-lane and special-function instructions (R152 to R165). -/

namespace Sys2Proof.Machine

/-- An element of w bits read as sint(w) or uint(w). -/
def elI (w : Nat) (signed : Bool) (x : Nat) : Int :=
  if signed && x.testBit (w - 1) then (x : Int) - 2 ^ w else x

/-- The low w bits of an exact value. -/
def wrapN (w : Nat) (x : Int) : Nat := (x % 2 ^ w).toNat

/-- An exact element operation under SAT (R89, R155): operands of the mode's type. -/
def elSat (g : Int → Int → Int → Int) (sat : Sat) (w : Nat) (a b c : Nat) : Nat :=
  match sat with
  | .wrap => wrapN w (g (elI w true a) (elI w true b) (elI w true c))
  | .ss => wrapN w (clampI w true (g (elI w true a) (elI w true b) (elI w true c)))
  | .us => wrapN w (clampI w false (g (elI w false a) (elI w false b) (elI w false c)))

def elShl (w a b : Nat) : Nat := if w ≤ b then 0 else (a * 2 ^ b) % 2 ^ w
def elShr (w a b : Nat) : Nat := if w ≤ b then 0 else a / 2 ^ b
def elSar (w a b : Nat) : Nat := wrapN w (elI w true a / 2 ^ (if w ≤ b then w - 1 else b))
def elMulh (u : Bool) (w a b : Nat) : Nat := wrapN w ((elI w (!u) a * elI w (!u) b) / 2 ^ w)
def elMin (u : Bool) (w a b : Nat) : Nat := wrapN w (min (elI w (!u) a) (elI w (!u) b))
def elMax (u : Bool) (w a b : Nat) : Nat := wrapN w (max (elI w (!u) a) (elI w (!u) b))

/-- A lane source as a 32-bit word; under .P16 a constant stands in both halves (R35, R155). -/
def Firing.isrcV (f : Firing) (p16 : Bool) (l : Nat) : LSrc → W32
  | .const i => if p16 then (constInt 16 i) ++ (constInt 16 i) else constInt 32 i
  | a => f.srcV l a

def Firing.isrcVI (f : Firing) (p16 : Bool) (l : Nat) : LSrcI → W32
  | .src a => f.isrcV p16 l a
  | .imm i => i

/-- One lane of ExecLaneInt (R155): the whole word, or each half by itself. -/
def laneOp (p16 : Bool) (g : Nat → Nat → Nat → Nat → Nat) (a b c : W32) : W32 :=
  if p16 then
    BitVec.ofNat 32 (g 16 (fld a 0 16) (fld b 0 16) (fld c 0 16) + g 16 (fld a 16 16) (fld b 16 16) (fld c 16 16) * 65536)
  else BitVec.ofNat 32 (g 32 a.toNat b.toNat c.toNat)

/-- The skeleton of the two-source forms. -/
def vintExec (o : VIntOps) (g : Nat → Nat → Nat → Nat) (s : State) : Out :=
  onF s fun f => f.writeV o.h (lenBL o.b) o.d.toNat fun L =>
    laneOp o.p16 (fun w a b _ => g w a b) (f.isrcV o.p16 L o.a) (f.isrcVI o.p16 L o.b) 0

def execVadd (o : VIntOps) (s : State) : Out := vintExec o (fun w a b => elSat (fun x y _ => x + y) o.sat w a b 0) s
def execVsub (o : VIntOps) (s : State) : Out := vintExec o (fun w a b => elSat (fun x y _ => x - y) o.sat w a b 0) s
def execVmul (o : VIntOps) (s : State) : Out := vintExec o (fun w a b => elSat (fun x y _ => x * y) o.sat w a b 0) s
def execVmulh (o : VIntOps) (s : State) : Out := vintExec o (elMulh o.u) s
def execVmin (o : VIntOps) (s : State) : Out := vintExec o (elMin o.u) s
def execVmax (o : VIntOps) (s : State) : Out := vintExec o (elMax o.u) s
def execVand (o : VIntOps) (s : State) : Out := vintExec o (fun _ a b => a &&& b) s
def execVor (o : VIntOps) (s : State) : Out := vintExec o (fun _ a b => a ||| b) s
def execVxor (o : VIntOps) (s : State) : Out := vintExec o (fun _ a b => a ^^^ b) s
def execVshl (o : VIntOps) (s : State) : Out := vintExec o elShl s
def execVshr (o : VIntOps) (s : State) : Out := vintExec o elShr s
def execVsar (o : VIntOps) (s : State) : Out := vintExec o elSar s

def execVmad (o : VMadOps) (s : State) : Out :=
  onF s fun f => f.writeV o.h .l96 o.d.toNat fun L =>
    laneOp o.p16 (elSat (fun x y z => x * y + z) o.sat) (f.isrcV o.p16 L o.a) (f.isrcV o.p16 L o.b) (f.isrcV o.p16 L o.c)

/-- pos and wid of a lane control word (R156). -/
def vbfPos (ctl : W32) : Nat := fld ctl 0 5
def vbfWid (ctl : W32) : Nat := min (fld ctl 8 6) 32

def vbfxOp (signed : Bool) (a ctl : W32) : W32 :=
  let wid := vbfWid ctl
  let f := (a.toNat >>> vbfPos ctl) % 2 ^ wid
  if signed && wid != 0 && 2 ^ (wid - 1) ≤ f then BitVec.ofInt 32 ((f : Int) - 2 ^ wid) else BitVec.ofNat 32 f

def vbfiOp (a b ctl : W32) : W32 :=
  let m := BitVec.ofNat 32 ((2 ^ vbfWid ctl - 1) <<< vbfPos ctl)
  (a &&& ~~~ m) ||| ((b <<< vbfPos ctl) &&& m)

def execVbfx (o : VIntOps) (s : State) : Out :=
  onF s fun f => f.writeV o.h (lenBL o.b) o.d.toNat fun L => vbfxOp (!o.u) (f.srcV L o.a) (f.srcVI L o.b)

/-- Length of VBFI by its control (R152). -/
def lenVbfi : LSrcI → Len
  | .src _ => .l96
  | .imm _ => .l128

def execVbfi (o : VBfiOps) (s : State) : Out :=
  onF s fun f => f.writeV o.h (lenVbfi o.ctl) o.d.toNat fun L =>
    vbfiOp (f.srcV L o.a) (f.srcV L o.b) (f.srcVI L o.ctl)

/-- A one-source count or reversal at width 32. -/
def vunExec (o : VUnOps) (g : Nat → Nat → Nat) (s : State) : Out :=
  onF s fun f => f.writeV o.h .l64 o.d.toNat fun L => BitVec.ofNat 32 (g 32 (f.srcV L o.a).toNat)

def execVpopc (o : VUnOps) (s : State) : Out := vunExec o popcN s
def execVclz (o : VUnOps) (s : State) : Out := vunExec o clzN s
def execVbrev (o : VUnOps) (s : State) : Out := vunExec o brevN s

def execVmov (o : VMovOps) (s : State) : Out :=
  onF s fun f => f.writeV o.h (lenBL o.b) o.d.toNat fun L => f.srcVI L o.b

def execVsel (o : VSelOps) (s : State) : Out :=
  onF s fun f => f.writeV o.h (lenBL o.b) o.d.toNat fun L =>
    if bitAt (f.getQ o.q.toNat) L != o.neg then f.srcV L o.a else f.srcVI L o.b

/-- The lane named by VBCAST and VEXT (R159). -/
def Firing.laneOf (f : Firing) : LaneIdx → Nat
  | .sreg r => fld (f.getS r.toNat) 0 5
  | .imm i => i.toNat

def lenLaneIdx : LaneIdx → Len
  | .sreg _ => .l64
  | .imm _ => .l96

def execVbcast (o : VBcastOps) (s : State) : Out :=
  onF s fun f => f.writeV o.h (lenLaneIdx o.idx) o.d.toNat fun _ => f.srcV (f.laneOf o.idx) o.a

/-- VEXT: a scalar result when any lane is enabled, no latch (R159). -/
def execVext (o : VExtOps) (s : State) : Out :=
  onF s fun f =>
    let x := f.srcV (f.laneOf o.idx) o.a
    let r : W64 := if o.sx then x.signExtend 64 else x.setWidth 64
    (if (f.enLanes o.h).isEmpty then f else f.setS o.d.toNat r).retire true o.h (lenLaneIdx o.idx) .none

/-- The contribution word of a vote (R160). -/
def Firing.voteWord (f : Firing) (h : Head) (v : VoteSrc) : W32 :=
  laneMask fun L => f.enL h L &&
    match v with
    | .pred q _ => bitAt (f.getQ q.toNat) L
    | .val a b => bitAt (f.srcV L a) (fld (f.srcV L b) 0 5)
    | .valImm a j => bitAt (f.srcV L a) j.toNat

def lenVote : VoteSrc → Len
  | .valImm _ _ => .l96
  | _ => .l64

def execVoteBal (o : VoteBalOps) (s : State) : Out :=
  onF s fun f => f.writeV o.h (lenVote o.src) o.d.toNat fun _ => f.voteWord o.h o.src

/-- VOTE.ANY and .ALL write bit x of the enabled lanes of a q predicate. -/
def voteQ (o : VoteQOps) (g : W32 → W32 → Bool) (s : State) : Out :=
  onF s fun f =>
    let e := laneMask (f.enL o.h)
    let x := g (f.voteWord o.h o.src) e
    let old := f.getQ o.q.toNat
    (f.setQ o.q.toNat (if x then old ||| e else old &&& ~~~ e)).retire true o.h (lenVote o.src) .none

def execVoteAny (o : VoteQOps) (s : State) : Out := voteQ o (fun c _ => c != 0) s
def execVoteAll (o : VoteQOps) (s : State) : Out := voteQ o (fun c e => c == e) s

/-- The source lane of a shuffle (R161): its own lane where the source lies outside the segment. -/
def shflLane (mode : BitVec 2) (w L i : Nat) : Nat :=
  match mode.toNat with
  | 0 => if i < w then L - L % w + i else L
  | 1 => if i < w then L ^^^ i else L
  | 2 => if i ≤ L % w then L - i else L
  | _ => if L % w + i < w then L + i else L

def execShfl (o : ShflOps) (s : State) : Out :=
  onF s fun f => f.writeV o.h (lenBL o.b) o.d.toNat fun L =>
    f.srcV (shflLane o.mode (2 ^ o.wl.toNat) L (f.srcVI L o.b).toNat) o.a

/-- One lane of an exchange (R162). -/
def xchgOp (d L : Nat) (a p m : W32) : W32 :=
  if L &&& d = 0 then (a &&& ~~~ (m <<< d)) ||| ((p &&& m) <<< d) else (a &&& ~~~ m) ||| ((p >>> d) &&& m)

def execXchg (o : XchgOps) (s : State) : Out :=
  onF s fun f => f.writeV o.h (lenBL o.b) o.d.toNat fun L =>
    let d := 2 ^ o.dl.toNat
    xchgOp d L (f.srcV L o.a) (f.srcV (L ^^^ d) o.a) (f.srcVI L o.b)

/-! ## Wave reduction (R163) -/

/-- Op of Table 8-5 on patterns, with flags. -/
def wredOp (op : Nat) (a b : W32) : W32 × FpFlags :=
  let fl := fun (g : FVal → FVal → Nat × FpFlags) =>
    let r := g (Fmt.f32.decode a.toNat) (Fmt.f32.decode b.toNat)
    (BitVec.ofNat 32 r.1, r.2)
  match op with
  | 0 => (a + b, 0)
  | 1 => (if b.slt a then b else a, 0)
  | 2 => (if a.slt b then b else a, 0)
  | 3 => (if b.ult a then b else a, 0)
  | 4 => (if a.ult b then b else a, 0)
  | 5 => (a &&& b, 0)
  | 6 => (a ||| b, 0)
  | 7 => (a ^^^ b, 0)
  | 8 => fl (fAdd .f32 .rne)
  | 9 => fl (fMinMax .f32 false)
  | _ => fl (fMinMax .f32 true)

def wredId (op : Nat) : W32 :=
  match op with
  | 1 => 0x7FFFFFFF
  | 2 => 0x80000000
  | 3 => 0xFFFFFFFF
  | 5 => 0xFFFFFFFF
  | 8 => 0x80000000
  | 9 => 0x7FC00000
  | 10 => 0x7FC00000
  | _ => 0

/-- One step at distance s over all lanes. -/
def wredStep (op s : Nat) (acc : List W32 × FpFlags) : List W32 × FpFlags :=
  let r := lanes.map fun L =>
    wredOp op (acc.1.getD (min L (L ^^^ s)) 0) (acc.1.getD (max L (L ^^^ s)) 0)
  (r.map (·.1), acc.2 ||| orAll (r.map (·.2)))

/-- The steps w/2 down to 1. -/
def wredSteps (op : Nat) : Nat → List W32 × FpFlags → List W32 × FpFlags
  | 0, acc => acc
  | k + 1, acc => wredSteps op k (wredStep op (2 ^ k) acc)

def execWred (o : WredOps) (s : State) : Out :=
  withF s fun n sl f =>
    let op := o.op.toNat
    let src := lanes.map fun L =>
      if f.enL o.h L then (match o.a with
        | .const i => if 8 ≤ op then BitVec.ofNat 32 (floatConst .f32 i) else constInt 32 i
        | a => f.srcV L a) else wredId op
    let r := wredSteps op o.wl.toNat (src, 0)
    fpEnd s n sl f r.2 fun f => f.writeV o.h .l64 o.d.toNat fun L => r.1.getD L 0

/-! ## The special-function unit (R165) -/

/-- SFU issues: an entry of the core's queue, or no effect with no lane enabled, at once (log entry 104). A full queue, or two
entries of the firing, keep it from issuing. -/
def execSfu (o : SfuOps) (s : State) : Out :=
  withF s fun n sl f =>
    let mask := laneMask (f.enL o.h)
    let c := s.core n
    if mask = 0 then s.setFiring n sl (f.retire true o.h .l64 .none)
    else if Config.sfuCap ≤ c.sfuQ.length || 2 ≤ (c.sfuQ.filter fun e => e.slot == sl).length then s
    else
      let e : SfuEnt := { slot := sl, pc := f.pc, mask := mask, fn := o.fn, sa := o.a, d := o.d.toNat,
                          vals := match o.a with | .lv _ => some (lanes.map fun L => (L, f.srcV L o.a)) | _ => none }
      s.setCore n ({ c with sfuQ := c.sfuQ ++ [e] }.setFiring sl (f.retire true o.h .l64 .none))

end Sys2Proof.Machine
end

