-- ==== Sys2Proof/Machine/Matrix.lean ====
section
/-! DEFINITION. Matrix instructions (R168 to R186). -/

namespace Sys2Proof.Machine

/-- Element k of row or column m of a fragment of w-bit elements at a base register (R172). -/
def Firing.fragElem (f : Firing) (base w m k : Nat) : Nat :=
  let kh := 1536 / w
  let lane := m + 16 * (k / kh)
  let off := (k % kh) * w
  if w = 64 then (f.getV64 (base + off / 32) lane).toNat else fld (f.getV (base + off / 32) lane) (off % 32) w

/-- Element (m, n) of an accumulator (R173). -/
def Firing.accElem (f : Firing) (base : Nat) (wide : Bool) (m n : Nat) : Nat :=
  let lane := m + 16 * (n / 8)
  let j := n % 8
  if wide then (f.getV64 (base + 2 * j) lane).toNat else (f.getV (base + j) lane).toNat

/-- The lane words an accumulator element's result is written to. -/
def accWords (base : Nat) (wide : Bool) (m n x : Nat) : List (Nat × W32) :=
  let lane := m + 16 * (n / 8)
  let j := n % 8
  if wide then [(32 * (base + 2 * j) + lane, BitVec.ofNat 32 x), (32 * (base + 2 * j + 1) + lane, BitVec.ofNat 32 (x / 2 ^ 32))]
  else [(32 * (base + j) + lane, BitVec.ofNat 32 x)]

/-- The floating format of a type code (Table 9-2, I = 0). -/
def mmaFmt (t : BitVec 3) : Fmt :=
  match t.toNat with
  | 0 => .f64 | 1 => .f16 | 2 => .bf16 | 3 => .e4m3 | 4 => .e5m2 | _ => .e2m1

/-- The value of an integer element (Table 9-2, I = 1). -/
def mmaInt (t : BitVec 3) (x : Nat) : Int :=
  match t.toNat with
  | 0 => elI 8 true x | 1 => x | 2 => elI 4 true x | _ => x

/-- What an exact product of several factors is. -/
inductive Prod | nan (sig : Bool) | zeroInf | inf (neg : Bool) | fin (neg : Bool) (m : Nat) (e : Int)
  deriving DecidableEq, Repr

/-- The exact product of factors, with the special cases of R176; a NaN factor decides before a zero beside an infinity (log entry
105). -/
def prodOf (xs : List FVal) : Prod :=
  let neg := xs.foldl (fun b x => b != x.sign) false
  if xs.any (·.isNan) then .nan (xs.any (·.isSig))
  else if xs.any (fun x => match x with | .inf _ => true | _ => false) then
    (if xs.any (fun x => match x with | .fin _ m _ => m == 0 | _ => false) then .zeroInf else .inf neg)
  else
    let me := xs.foldl (fun (acc : Nat × Int) x =>
      match x with | .fin _ m e => (acc.1 * m, acc.2 + e) | _ => acc) (1, 0)
    .fin neg me.1 me.2

def Prod.isInf (neg : Bool) : Prod → Bool
  | .inf n => n == neg
  | _ => false

/-- A floating group sum (R176). -/
def groupSum (acc : Fmt) (ps : List Prod) : FVal × FpFlags :=
  let anyNan := ps.any fun p => match p with | .nan _ | .zeroInf => true | _ => false
  let nv := ps.any fun p => match p with | .nan sg => sg | .zeroInf => true | _ => false
  if anyNan then (.nan false, if nv then fNV else 0)
  else if ps.any (·.isInf true) && ps.any (·.isInf false) then (.nan false, fNV)
  else if ps.any (·.isInf true) then (.inf true, 0)
  else if ps.any (·.isInf false) then (.inf false, 0)
  else
    let fins := ps.filterMap fun p => match p with | .fin n m e => some (n, m, e) | _ => none
    let lo := fins.foldl (fun (lo : Int) p => if p.2.2 < lo then p.2.2 else lo) 0
    let sum := fins.foldl (fun (v : Int) p => v + scaled p.1 p.2.1 p.2.2 lo) 0
    let neg := if sum = 0 then fins.all (·.1) else decide (sum < 0)
    let r := roundTo acc .rne false neg sum.natAbs lo
    (acc.decode r.1, r.2)

/-- One accumulated element: groups in ascending K (R175); g gives the products of a group, none where an invalid
scale makes the group the canonical NaN with IS (R178). -/
def accFloat (acc : Fmt) (g : Nat → Option (List Prod)) : Nat → Nat → Nat × FpFlags → Nat × FpFlags
  | _, 0, x => x
  | i, k + 1, x =>
    let s := match g i with
      | none => (FVal.nan false, fIS)
      | some ps => groupSum acc ps
    let r := fAdd acc .rne (acc.decode x.1) s.1
    accFloat acc g (i + 1) k (r.1, x.2 ||| s.2 ||| r.2)

/-- The K indexes of group g. -/
def groupKs (kTotal g : Nat) : List Nat := (List.range (min 32 (kTotal - 32 * g))).map (· + 32 * g)

/-- Elements of a depth (Table 9-2). -/
def kOf (w : Nat) : Nat := 3072 / w

/-- Result words and flags over the 16 × 16 elements. -/
def mmaAll (base : Nat) (wide : Bool) (el : Nat → Nat → Nat × FpFlags) : List (Nat × W32) × FpFlags :=
  (List.range 256).foldl (fun acc i =>
    let m := i / 16
    let n := i % 16
    let r := el m n
    (acc.1 ++ accWords base wide m n r.1, acc.2 ||| r.2)) ([], 0)

/-- MMA's element (R175). -/
def mmaElem (f : Firing) (o : MmaOps) (w : Nat) (m n : Nat) : Nat × FpFlags :=
  let wide := w == 64
  let d := f.accElem o.d.toNat wide m n
  let a := fun k => f.fragElem o.a.toNat w m k
  let b := fun k => f.fragElem o.b.toNat w n k
  let ng := (kOf w + 31) / 32
  if o.i then
    let sum := (List.range (kOf w)).foldl (fun (v : Int) k => v + mmaInt o.ta (a k) * mmaInt o.tb (b k)) 0
    (wrapN 32 (elI 32 true d + sum), 0)
  else
    accFloat (if wide then .f64 else .f32) (fun g => some ((groupKs (kOf w) g).map fun k =>
      prodOf [(mmaFmt o.ta).decode (a k), (mmaFmt o.tb).decode (b k)])) 0 ng (d, 0)

/-- Scale byte of block g (R178): part 0 the A scales, 3 the B scales. -/
def Firing.mmaScale (f : Firing) (base part w m g : Nat) : Option FVal :=
  let nb := 1536 / w / 32
  let j := g % nb
  (scaleVal (byteOf (f.getV (base + part + j / 4) (m + 16 * (g / nb))) (j % 4))).map fun v => .fin false v.1 v.2

/-- MMAS's element (R178). -/
def mmasElem (f : Firing) (o : MmasOps) (w : Nat) (m n : Nat) : Nat × FpFlags :=
  let d := f.accElem o.d.toNat false m n
  accFloat .f32 (fun g =>
    match f.mmaScale o.sc.toNat 0 w m g, f.mmaScale o.sc.toNat 3 w n g with
    | some x, some y => some ((groupKs (kOf w) g).map fun k =>
        prodOf [(mmaFmt o.ta).decode (f.fragElem o.a.toNat w m k), (mmaFmt o.tb).decode (f.fragElem o.b.toNat w n k), x, y])
    | _, _ => none) 0 (kOf w / 32) (d, 0)

/-- Scale and zero point of quantisation group q (R179). -/
def Firing.quantParam (f : Firing) (base : Nat) (t : BitVec 3) (m q : Nat) : FVal × Int :=
  let lane := m + 16 * (q / 12)
  let j := q % 12
  let z := (byteOf (f.getV (base + 6 + j / 4) lane) (j % 4)).toNat
  (Fmt.f16.decode (fld (f.getV (base + j / 2) lane) (16 * (j % 2)) 16),
   if t == 0 then elI 8 true z else elI 4 true (z % 16))

/-- An exact integer as a factor; zero is positive. -/
def intVal (x : Int) : FVal := .fin (decide (x < 0)) x.natAbs 0

/-- MMAQ's element (R180). -/
def mmaqElem (f : Firing) (o : MmaqOps) (w : Nat) (m n : Nat) : Nat × FpFlags :=
  let d := f.accElem o.d.toNat false m n
  let sz := 32 * 2 ^ o.sz.toNat
  accFloat .f32 (fun g => some ((groupKs (kOf w) g).map fun k =>
    let pa := f.quantParam o.pa.toNat o.ta m (k / sz)
    let pb := f.quantParam o.pb.toNat o.tb n (k / sz)
    prodOf [pa.1, pb.1, intVal (mmaInt o.ta (f.fragElem o.a.toNat w m k) - pa.2),
            intVal (mmaInt o.tb (f.fragElem o.b.toNat w n k) - pb.2)])) 0 (kOf w / 32) (d, 0)

/-- Whether every lane, or none, is enabled (R171). -/
def Firing.allLanes (f : Firing) (h : Head) : Bool := lanes.all (f.enL h)
def Firing.noLanes (f : Firing) (h : Head) : Bool := lanes.all fun L => !f.enL h L

/-- A unit form (R171, R184): it waits for the unit before its guard is looked at, as a divide does (R99); with all lanes
enabled it takes its operands and occupies the unit, and the result is written when the unit completes. -/
def unitExec (h : Head) (l : Len) (d regs : Nat) (g : Firing → List (Nat × W32) × FpFlags) (s : State) : Out :=
  withF s fun n sl f =>
    let c := s.core n
    if c.mat.isSome then s
    else if f.noLanes h then s.setFiring n sl (f.retire true h l .none)
    else if !f.allLanes h then takeTrap s n sl (cause 0x10)
    else
      let r := g f
      let op : MatOp := { slot := sl, pc := f.pc, word := codeWord s n sl f.pc, d := d, n := regs, vals := r.1, flags := r.2 }
      s.setCore n ({ c with mat := some op }.setFiring sl (f.retire true h l .none))

def execMma (o : MmaOps) (s : State) : Out :=
  let w := (mmaWidth o.i o.ta).getD 8
  unitExec o.h .l64 o.d.toNat (if w == 64 then 16 else 8) (fun f => mmaAll o.d.toNat (w == 64) (mmaElem f o w)) s

def execMmas (o : MmasOps) (s : State) : Out :=
  let w := (mmaWidth o.i o.ta).getD 8
  unitExec o.h .l96 o.d.toNat 8 (fun f => mmaAll o.d.toNat false (mmasElem f o w)) s

def execMmaq (o : MmaqOps) (s : State) : Out :=
  let w := (mmaWidth o.i o.ta).getD 8
  unitExec o.h .l96 o.d.toNat 8 (fun f => mmaAll o.d.toNat false (mmaqElem f o w)) s

def execMzero (o : MZeroOps) (s : State) : Out :=
  onF s fun f =>
    let regs := if o.f64 then 16 else 8
    (f.putV ((f.enLanes o.h).flatMap fun L =>
      (List.range regs).map fun j => (32 * (o.d.toNat + j) + L, (0 : W32)))).retire true o.h .l64 .none

/-- MCVT (R182): each row narrowed with error feedback, n ascending. -/
def mcvtRow (f : Firing) (o : McvtOps) (m : Nat) : List (Nat × Nat) × EfAcc × FpFlags :=
  efBlock (packFmt o.fmt) (fun n => Fmt.f32.decode (f.accElem o.a.toNat false m n)) (List.range 16) {}

/-- The destination words of a narrowed row: element j of a lane at bits [w(j+1)−1 : wj]. -/
def mcvtWords (d w m : Nat) (row : List (Nat × Nat)) : List (Nat × W32) :=
  [0, 1].flatMap fun h =>
    let v := row.foldl (fun acc e => if e.1 / 8 = h then acc + e.2 * 2 ^ (w * (e.1 % 8)) else acc) 0
    (List.range (8 * w / 32)).map fun r => (32 * (d + r) + (m + 16 * h), BitVec.ofNat 32 (v / 2 ^ (32 * r)))

def execMcvt (o : McvtOps) (s : State) : Out :=
  withF s fun n sl f =>
    if f.noLanes o.h then s.setFiring n sl (f.retire true o.h (efLen o.form) .none)
    else if !f.allLanes o.h then takeTrap s n sl (cause 0x10)
    else
      let rows := (List.range 16).map fun m => (m, mcvtRow f o m)
      let words := rows.flatMap fun r => mcvtWords o.d.toNat (packFmt o.fmt).width r.1 r.2.1
      let res := match o.form with
        | .resid vr => rows.map fun r => (32 * vr.toNat + (r.1 + 16), residF32 r.2.2.1)
        | _ => []
      fpEnd s n sl f (orAll (rows.map fun r => r.2.2.2)) fun f =>
        (f.putV (words ++ res)).retire true o.h (efLen o.form) .none

/-! ## MLDF and MSTF (R183) -/

/-- Registers and bytes per lane of a kind. -/
def mldfRegs (kind : BitVec 2) : Nat :=
  match kind.toNat with
  | 0 => 48 | 1 => 8 | _ => 16

/-- A lane's exact offset; register values are read as signed (log entry 15). -/
def mldfOff (f : Firing) (o : MldfOps) (L : Nat) : Int :=
  (f.srcS o.base).toInt + o.disp.toInt + (L % 16 : Nat) * (f.srcS o.stride).toInt + (L / 16) * (4 * mldfRegs o.kind : Nat)

/-- The checks over all enabled lanes: ALIGN, then PROT, each at its lowest lane. -/
def mldfCheck (c : Core) (f : Firing) (o : MldfOps) (k : Access) : Option TrapCause :=
  let p := 4 * mldfRegs o.kind
  let ls := f.enLanes o.h
  match ls.find? fun L => mldfOff f o L % 4 != 0 with
  | some L => some (causeAt 0x09 k (BitVec.ofInt 64 (mldfOff f o L)) (some L))
  | none =>
    match ls.find? fun L => decide (mldfOff f o L < 0) || c.spadProt (mldfOff f o L).toNat p with
    | some L => some (causeAt 0x0B k (BitVec.ofInt 64 (mldfOff f o L)) (some L))
    | none => none

def execMldf (o : MldfOps) (s : State) : Out :=
  withF s fun n sl f =>
    let c := s.core n
    match mldfCheck c f o .scratch with
    | some t => takeTrap s n sl t
    | none =>
      let regs := mldfRegs o.kind
      let ws := (f.enLanes o.h).flatMap fun L =>
        let off := (mldfOff f o L).toNat
        (List.range regs).map fun r => (32 * (o.d.toNat + r) + L, w32OfLE (c.getBs (off + 4 * r) 4))
      s.setFiring n sl ((f.putV ws).retire true o.h .l96 .none)

/-- MSTF: a store, so that a release in progress holds it (R226). Lanes write in ascending order: where two lanes name one
byte, the higher one's stands (log entry 81). -/
def execMstf (o : MldfOps) (s : State) : Out :=
  withF s fun n sl f =>
    let c := s.core n
    match mldfCheck c f o .scratch with
    | some t => takeTrap s n sl t
    | none =>
      if !(f.enLanes o.h).isEmpty && f.rel.isSome then s
      else
        let regs := mldfRegs o.kind
        let c' := (f.enLanes o.h).foldl (fun c L =>
          let off := (mldfOff f o L).toNat
          c.putBs off ((List.range regs).flatMap fun r => bytesLE 4 (f.getV (o.d.toNat + r) L))) c
        s.setCore n (c'.setFiring sl (f.retire true o.h .l96 .none))

end Sys2Proof.Machine
end

