-- ==== Sys2Proof/Machine/Fetch.lean ====
section
/-! DEFINITION. Fetching an instruction (R25 to R28, R205): its 32-byte block from the L1 instruction cache, else from
the die, and the instruction the bytes hold. -/

namespace Sys2Proof.Machine

/-- A block enters the L1 instruction cache (R21, R205). -/
def l1iInsert (s : State) (n pc : Nat) (pte : W64) (bytes : List Byte) : State :=
  let c := s.core n
  let new : L1IBlock := { vblk := pc / 32, asid := c.asid, pte := pte, data := bytes }
  let rest := c.l1i.filter fun b => !(b.vblk == pc / 32 && (b.asid == c.asid || pteG b.pte))
  let rest := if Config.l1iCap ≤ rest.length then listRemove rest (pickVictim s 1 rest.length) else rest
  { s.setCore n { c with l1i := rest ++ [new] } with fresh := s.fresh + 1 }

/-- The leaf that serves a fetch: one the firing waited for, or one of the translation cache. -/
def fetchLeaf (c : Core) (xl : List Leaf) (pc : Nat) : Option Leaf := heldLeaf c xl pc

/-- What a fetch ends in: the state after fills with the block's bytes, a trap (Table 2-15, order 1), a walk, or a wait for a
link to the block's home (R386). -/
inductive FetchRes | ok (s : State) (bytes : List Byte) | trap (t : TrapCause) | walk | wait
  deriving DecidableEq, Repr

/-- Fetch the block of a PC for a firing (R205, R209); a CXL port whose link is down gives DATAERR (R385). -/
def fetchBlock (s : State) (n : Nat) (xl : List Leaf) (priv : Bool) (pc : Nat) : FetchRes :=
  let c := s.core n
  match c.l1iFind pc with
  | some b =>
    if permOk priv .fetch b.pte 0 then .ok s b.data else .trap (protAt .fetch pc none 15)
  | none =>
    match fetchLeaf c xl pc with
    | none => .walk
    | some l =>
      if !permOk priv .fetch l.pte (keyPa (l.key pc)) then
        .trap (protAt .fetch pc none (if xl.contains l then l.level else 15))
      else
        let a := pc / 32 * 32
        let near := !pteUnc l.pte && copyHas s (siteOf s n) (l.key a) 32
        if !near && portDown s (l.key a) then .trap (dataerr (keyPa (l.key a)))
        else if !near && linkWait s (l.key a) then .wait
        else
          let r := dieRead s (siteOf s n) (l.key a) 32 (pteUnc l.pte)
          .ok (if pteUnc l.pte then r.1 else l1iInsert r.1 n pc l.pte r.2) r.2

/-- What the bytes at a PC hold: FETCHALIGN (R28), ILLEGAL, or an instruction with its length. At a PC whose low two bits are
not zero, which R26 rules out and R28 does not list, no instruction can be fetched: FETCHALIGN too (log entry 99). -/
def decodeAt (bytes : List Byte) (pc : Nat) : Except TrapCause (Instr × Len) :=
  let o := pc % 32
  if pc % 4 != 0 || o = 28 then .error (cause 0x03)
  else match lenOfCode ((wordAt (bytes.drop o) 0).extractLsb' 0 2) with
    | none => .error (cause 0x01)
    | some l =>
      if 32 < o + lenBytes l then .error (cause 0x03)
      else match decode (bytes.drop o) with
        | .ok r => .ok r
        | .error _ => .error (cause 0x01)

/-- The instruction at a PC of core n as it stands, where one can be read: the reissue of R166 reads its fields. -/
def peekInstr (s : State) (n sl : Nat) (pc : Nat) : Option Instr :=
  match (codeBlock s n (privileged (s.core n) sl) pc).map fun bs => decodeAt bs pc with
  | some (.ok r) => some r.1
  | _ => none

end Sys2Proof.Machine
end

