-- ==== Sys2Proof/Machine/System.lean ====
section
/-! DEFINITION. Trap, debug, pre-emption and special-register instructions (R356 to R373). -/

namespace Sys2Proof.Machine

/-! ## Special registers (R42, R361, R362) -/

/-- sr.trap (Table 17-3, word 0x340). -/
def Firing.srTrap (f : Firing) : W64 :=
  BitVec.ofNat 64 (f.last.toNat * 256 + f.skip.toNat * 8 + f.loss.toNat * 4 + f.mode.toNat)

/-- The value of a special register (Tables 2-9 and 17-5). An nv of 256 does not fit sr.nreg's 8 bits, and they read 0 (log
entry 85). -/
def srRead (s : State) (n sl : Nat) (f : Firing) (num : Nat) : W64 :=
  let c := s.core n
  let w : Nat → W64 := BitVec.ofNat 64
  match num with
  | 0x000 => w (gcaOf s n)
  | 0x002 => w f.wp
  | 0x003 => w sl
  | 0x004 => w f.hid.toNat
  | 0x005 => w f.ltag.toNat
  | 0x006 => c.vt
  | 0x007 => c.hz
  | 0x008 => clkOf s (islandOf s n)
  | 0x009 => f.fpst
  | 0x00A => f.srTrap
  | 0x00B => w c.asid.toNat
  | 0x00C => w (f.nv % 256 * 256 + f.ns)
  | 0x100 => c.tvec
  | 0x101 => c.tws
  | 0x102 => c.spq
  | 0x103 => c.spqsz
  | 0x104 => c.brk0
  | 0x105 => c.brk1
  | 0x106 => c.wch0
  | 0x107 => c.wch1
  | 0x108 => w c.cstate
  | _ => 0

/-- Whether an access to a number is privileged (R42, R361): the registers of Table 17-5, and user writes to RO ones. -/
def srPriv (write : Bool) (num : Nat) : Bool := 0x100 ≤ num || (write && num != 6 && num != 9)

/-- Registers no firing may write (R361): RO in Table 2-9, and sr.cstate. -/
def srRo (num : Nat) : Bool := num == 0x108 || (num < 0x100 && num != 6 && num != 9)

/-- Whether the firing's flags are still to come from the matrix unit (R137). -/
def flagsPending (c : Core) (sl : Nat) : Bool := match c.mat with | some m => m.slot == sl | none => false

def execRsr (o : RsrOps) (s : State) : Out :=
  withF s fun n sl f =>
    let c := s.core n
    if srPriv false o.num.toNat && !privileged c sl then takeTrap s n sl (cause 0x02)
    else if o.num == 9 && flagsPending c sl then s
    else if o.num == 1 then
      let ls := actLanes f o.h 0
      let f' := if o.h.nw then f else f.putV (ls.map fun L => (32 * o.d.toNat + L, BitVec.ofNat 32 L))
      s.setFiring n sl (f'.retire false o.h .l64 .none)
    else s.setFiring n sl (f.writeS o.h .l64 o.d.toNat (srRead s n sl f o.num.toNat))

/-- Whether a value has a nonzero zero-bit of the register (R361, R367). -/
def srBad (num : Nat) (x : W64) : Bool :=
  match num with
  | 0x100 => fld x 56 8 != 0 || x.getLsbD 1
  | 0x101 => fld x 20 44 != 0 || fld x 1 9 != 0
  | 0x102 => fld x 47 17 != 0 || fld x 0 12 != 0
  | 0x103 => 2 ^ 20 < x.toNat
  | 0x104 | 0x105 => x.getLsbD 1
  | 0x106 | 0x107 => fld x 56 4 != 0
  | _ => false

/-- Bytes of a workspace (R252). -/
def wsBytes (nv : Nat) : Nat := ceilDiv (1536 + nv * 128) 1024 * 1024

/-- Whether the 2 KiB that sr.tws names meet a firing's workspace. -/
def twsMeets (x : W64) (f : Firing) : Bool :=
  let o := fld x 10 10 * 1024
  o < f.wp + wsBytes f.nv && f.wp < o + 2048

/-- Write a special register of the core. -/
def srWrite (c : Core) (num : Nat) (x : W64) : Core :=
  match num with
  | 0x006 => { c with vt := x }
  | 0x100 => { c with tvec := x }
  | 0x101 => { c with tws := x }
  | 0x102 => { c with spq := x }
  | 0x103 => { c with spqsz := x }
  | 0x104 => { c with brk0 := x }
  | 0x105 => { c with brk1 := x }
  | 0x106 => { c with wch0 := x }
  | 0x107 => { c with wch1 := x }
  | _ => c

def execWsr (o : WsrOps) (s : State) : Out :=
  withF s fun n sl f =>
    let c := s.core n
    let num := o.num.toNat
    let x := f.srcS o.a
    if srPriv true num && !privileged c sl then takeTrap s n sl (cause 0x02)
    else if srRo num then takeTrap s n sl (cause 0x01)
    else if !f.enS o.h then s.setFiring n sl (f.retire false o.h .l64 .none)
    else if srBad num x then takeTrap s n sl (cause 0x01)
    else if num = 6 && !vtOk c x then takeTrap s n sl (msgfmt x)
    else if num = 9 then
      (if flagsPending c sl then s
       else s.setFiring n sl ({ f with fpst := x &&& 0x1F003F }.retire false o.h .l64 .none))
    else if num = 0x101 && x.getLsbD 0 then
      let off := fld x 10 10 * 1024
      if off < c.wsLo || c.wsHi < off + 2048 || twsMeets x f then takeTrap s n sl (cause 0x01)
      else if c.live.any (fun e => e.1 != sl && twsMeets x e.2) then s
      else s.setCore n ((srWrite c num x).setFiring sl (f.retire false o.h .l64 .none))
    else s.setCore n ((srWrite c num x).setFiring sl (f.retire false o.h .l64 .none))

/-! ## TRAP, BRK, TRET (R356, R364) -/

def execTrap (o : TrapOps) (s : State) : Out :=
  withF s fun n sl f =>
    if !f.enS o.h then s.setFiring n sl (f.retire false o.h .l64 .none)
    else takeTrap s n sl { code := 0x1A, value := o.code.setWidth 64, next := true }

def execBrk (o : HOps) (s : State) : Out :=
  withF s fun n sl f =>
    if !f.enS o.h then s.setFiring n sl (f.retire false o.h .l64 .none)
    else takeTrap s n sl { code := 0x17, next := true }

/-- A privileged form: PRIV in a user firing, whatever its guard (Table 2-15); then its guard. -/
def privForm (h : Head) (l : Len) (s : State) (go : Nat → Nat → Firing → State) : Out :=
  withF s fun n sl f =>
    if !privileged (s.core n) sl then takeTrap s n sl (cause 0x02)
    else if !f.enS h then s.setFiring n sl (f.retire false h l .none)
    else go n sl f

/-- Kill the trap handler's subject where it is still trapped, its record to the host queue (R356). -/
def dropSubject (s : State) (n : Nat) : State :=
  let c := s.core n
  match c.subject with
  | none => s
  | some t =>
    match c.firing t with
    | some g => if g.stop = 1 then pushTrap (killFiring s n t) n 8 g.trec else s
    | none => s

def execTret (o : HOps) (s : State) : Out :=
  privForm o.h .l64 s fun n sl f =>
    let c := s.core n
    if sl != trapSlot then takeTrap s n sl (cause 0x01)
    else if !endReady c sl f || f.rel.isSome || !f.wbq.isEmpty || c.placing f || !releaseDone s n f f.seq false then s
    else match f.owed with
      | some t => takeTrap s n sl t
      | none => endFiring (dropSubject s n) n sl (f.setPath f.cur { f.path with st := 3 })

/-! ## Acting on another firing (R357 to R360) -/

/-- The target of a form and its status where the form may not act: 1 STATE for a free slot, 2 LAUNCH (R357). -/
def targetOf (c : Core) (sl : Nat) (f : Firing) (slot : Nat) : Except Nat Firing :=
  match c.firing slot with
  | none => .error 1
  | some g => if sl = trapSlot && g.ltag != f.ltag then .error 2 else .ok g

/-- The entry that a status word and a mask name: the instruction at its PC gives function and registers. -/
def entryAt (s : State) (n slot : Nat) (w : W64) (mask : W32) : List SfuEnt :=
  if !w.getLsbD 63 then []
  else match peekInstr s n slot (va56 w).toNat with
    | some (.sfu o) => [{ slot := slot, pc := va56 w, mask := mask, fn := o.fn, sa := o.a, d := o.d.toNat, vals := none }]
    | _ => []

/-- The SFU entries that a firing's resumption reissues, in their order (R166): those its stop discarded. Of a firing
restored from an area that the core has kept nothing of, the status words name them (log entry 86). -/
def reissues (s : State) (n slot : Nat) (g : Firing) : List SfuEnt :=
  if g.sfuDisc.isEmpty then
    entryAt s n slot g.sfu0 (g.sfum.extractLsb' 0 32) ++ entryAt s n slot g.sfu1 (g.sfum.extractLsb' 32 32)
  else g.sfuDisc.map fun e => { e with slot := slot }

/-- Reissue a firing's discarded SFU entries. -/
def reissueSfu (s : State) (n slot : Nat) (g : Firing) : State :=
  let es := reissues s n slot g
  s.updCore n fun c => { c with sfuQ := c.sfuQ ++ es }

/-- Whether a firing can be resumed (R358, R360). -/
def resumable (g : Firing) : Bool :=
  (g.stop == 2 || (g.stop == 1 && g.last != 0x0E)) && g.tailOk

/-- FRESUME in a mode (R358, R365). It waits while the SFU queue has no room for what it reissues (R165; log entry 86). -/
def resumeForm (mode : BitVec 2) (o : DAOps) (s : State) : Out :=
  privForm o.h .l64 s fun n sl f =>
    let slot := fld (f.srcS o.a) 0 6
    let st := fun (s : State) k => s.setFiring n sl ((f.depStatus o.d (BitVec.ofNat 64 k)).retire false o.h .l64 .none)
    match targetOf (s.core n) sl f slot with
    | .error k => st s k
    | .ok g =>
      if !resumable g then st s 1
      else if Config.sfuCap < (s.core n).sfuQ.length + (reissues s n slot g).length && !(reissues s n slot g).isEmpty then s
      else
        let s := reissueSfu s n slot g
        st (s.updCore n fun c => c.resume slot mode) 0

def execFresume (o : DAOps) (s : State) : Out := resumeForm 0 o s
def execFresumeStep (o : DAOps) (s : State) : Out := resumeForm 1 o s
def execFresumeOut (o : DAOps) (s : State) : Out := resumeForm 2 o s

def execFkill (o : DAOps) (s : State) : Out :=
  privForm o.h .l64 s fun n sl f =>
    let slot := fld (f.srcS o.a) 0 6
    let st := fun k => s.setFiring n sl ((f.depStatus o.d (BitVec.ofNat 64 k)).retire false o.h .l64 .none)
    match targetOf (s.core n) sl f slot with
    | .error k => st k
    | .ok _ => killFiring (st 0) n slot

/-- The matrix unit finishes the operation it holds: its result, or FPX at its PC (R137, R184, R186). -/
def matComplete (s : State) (n : Nat) : State :=
  let c := s.core n
  match c.mat with
  | none => s
  | some m =>
    let s' := s.setCore n { c with mat := none }
    match c.firing m.slot with
    | none => s'
    | some f =>
      let s' := s'.setFiring n m.slot (f.matDone m)
      if fpxHits f m.flags then takeTrapAt s' n m.slot (fpxCause m.flags) m.pc m.pc m.word else s'

/-- HALT of a running firing at its next instruction boundary (R353, R360); one that FPX of its matrix operation stops
before is STATE. -/
def execHalt (o : DAOps) (s : State) : Out :=
  privForm o.h .l64 s fun n sl f =>
    let slot := fld (f.srcS o.a) 0 6
    let st := fun k => s.setFiring n sl ((f.depStatus o.d (BitVec.ofNat 64 k)).retire false o.h .l64 .none)
    match targetOf (s.core n) sl f slot with
    | .error k => st k
    | .ok g =>
      if g.stopped then st 1 else quietStop (st (if ((s.core n).fpxDue slot).isSome then 1 else 0)) n slot 2

/-! ## The workspace image (R43, R44, Tables 2-10 to 2-13, 17-3) -/

/-- The path table's live field (R118). -/
def Firing.live (f : Firing) : Nat :=
  maskOf 8 fun e => (f.paths.getD e {}).st == 1 || (f.paths.getD e {}).st == 2

def Firing.stateWord (f : Firing) : W64 :=
  BitVec.ofNat 64 (f.hid.toNat * 2 ^ 16 + f.live * 2 ^ 8 + f.wave.toNat * 8 + f.cur)

/-- A word of the tail at an offset, a multiple of 8. -/
def Firing.tailRead (f : Firing) (t : Nat) : W64 :=
  if t = 0 then f.pc
  else if t = 8 then f.stateWord
  else if t = 0x10 then BitVec.ofNat 64 (f.k.toNat / 2 * 2 + 1)
  else if t = 0x18 then f.fpst
  else if t < 0x40 then f.getQ ((t - 0x20) / 4 + 1) ++ f.getQ ((t - 0x20) / 4)
  else if t < 0xC0 then
    let p := f.paths.getD ((t - 0x40) / 16) {}
    if t % 16 = 0 then p.pc else (p.st ++ p.pri ++ p.mask).setWidth 64
  else if t = 0xC0 then f.chain
  else if 0xD0 ≤ t && t < 0xF0 then f.ls.getD ((t - 0xD0) / 8) 0
  else if 0x100 ≤ t && t < 0x300 then
    let xs := f.lv.getD ((t - 0x100) / 128) []
    let L := (t - 0x100) % 128 / 4
    xs.getD (L + 1) 0 ++ xs.getD L 0
  else if 0x300 ≤ t && t < 0x340 then f.trec.getD ((t - 0x300) / 8) 0
  else if t = 0x340 then f.srTrap
  else if t = 0x348 then f.sfu0
  else if t = 0x350 then f.sfu1
  else if t = 0x358 then f.sfum
  else if t = 0x360 then f.laddr
  else if t = 0x368 then f.lcnt.setWidth 64
  else if t = 0x370 then BitVec.ofNat 64 (f.depth.toNat * 2 ^ 16 + f.stop.toNat)
  else 0

/-- Element i of a list padded to n, replaced. -/
def setPad {α : Type} (xs : List α) (n i : Nat) (x z : α) : List α :=
  ((xs ++ List.replicate n z).take n).set i x

/-- Write a word of the tail: read-only and reserved fields keep what they hold (R6). -/
def Firing.tailWrite (f : Firing) (t : Nat) (x : W64) : Firing :=
  if t = 0 then f.setPc x
  else if t = 0x10 then { f with k := x.setWidth 8 }
  else if t = 0x18 then { f with fpst := x &&& 0x1F003F }
  else if 0x20 ≤ t && t < 0x40 then
    (f.setQ ((t - 0x20) / 4) (x.extractLsb' 0 32)).setQ ((t - 0x20) / 4 + 1) (x.extractLsb' 32 32)
  else if 0x40 ≤ t && t < 0xC0 then
    let i := (t - 0x40) / 16
    let p := f.paths.getD i {}
    if t % 16 = 0 then f.setPath i { p with pc := x }
    else f.setPath i { p with mask := x.extractLsb' 0 32, pri := (x.extractLsb' 32 3).setWidth 8, st := x.extractLsb' 40 8 }
  else if t = 0xC0 then { f with chain := x &&& 0xFFC7 }
  else if 0xD0 ≤ t && t < 0xF0 then { f with ls := setPad f.ls 4 ((t - 0xD0) / 8) x 0 }
  else if 0x100 ≤ t && t < 0x300 then
    let i := (t - 0x100) / 128
    let L := (t - 0x100) % 128 / 4
    let z : List W32 := List.replicate 32 0
    let row := setPad (setPad (f.lv.getD i z) 32 L (x.extractLsb' 0 32) 0) 32 (L + 1) (x.extractLsb' 32 32) 0
    { f with lv := setPad f.lv 4 i row z }
  else if 0x300 ≤ t && t < 0x340 then { f with trec := setPad f.trec 8 ((t - 0x300) / 8) x 0 }
  else f

/-- A word of a workspace at an offset from wp. -/
def Firing.wsRead (f : Firing) (o : Nat) : W64 :=
  if o < 512 then f.getS (o / 8)
  else if o < 512 + f.nv * 128 then f.getV ((o - 512) / 128) (o % 128 / 4 + 1) ++ f.getV ((o - 512) / 128) (o % 128 / 4)
  else f.tailRead (o - 512 - f.nv * 128)

def Firing.wsWrite (f : Firing) (o : Nat) (x : W64) : Firing :=
  if o < 512 then f.setS (o / 8) x
  else if o < 512 + f.nv * 128 then
    (f.setV ((o - 512) / 128) (o % 128 / 4) (x.extractLsb' 0 32)).setV ((o - 512) / 128) (o % 128 / 4 + 1) (x.extractLsb' 32 32)
  else f.tailWrite (o - 512 - f.nv * 128) x

/-- The live firing whose workspace holds a scratchpad offset: registers and tail are words of the scratchpad (R43, R44). -/
def Core.wsOwner (c : Core) (o : Nat) : Option (Nat × Firing) :=
  c.live.find? fun e => e.2.wp ≤ o && o < e.2.wp + wsBytes e.2.nv

/-- A granule of the scratchpad, a live firing's workspace among it (R334; of an ended firing's, log entry 93). -/
def Core.granW (c : Core) (o : Nat) : W64 :=
  match c.wsOwner o with
  | some e => e.2.wsRead (o - e.2.wp)
  | none => c.getW o

def Core.setGranW (c : Core) (o : Nat) (x : W64) : Core :=
  match c.wsOwner o with
  | some e => c.setFiring e.1 (e.2.wsWrite (o - e.2.wp) x)
  | none => c.putW o x

/-- The target and offset of FINSPECT, where it succeeds (R360). -/
def inspectOf (c : Core) (sl : Nat) (f : Firing) (slot : Nat) (o : W64) : Option Firing :=
  match targetOf c sl f slot with
  | .error _ => none
  | .ok g => if (g.stop == 1 || g.stop == 2) && o.toNat % 8 == 0 && o.toNat < wsBytes g.nv then some g else none

def execFinspectRd (o : FinspectOps) (s : State) : Out :=
  privForm o.h .l64 s fun n sl f =>
    let off := f.srcS o.b
    let f' := match inspectOf (s.core n) sl f (fld (f.srcS o.a) 0 6) off with
      | some g => (f.setS o.d.toNat (g.wsRead off.toNat)).setK o.k.toNat true
      | none => f.setK o.k.toNat false
    s.setFiring n sl (f'.retire false o.h .l64 .none)

def execFinspectWr (o : FinspectOps) (s : State) : Out :=
  privForm o.h .l64 s fun n sl f =>
    let off := f.srcS o.b
    let slot := fld (f.srcS o.a) 0 6
    match inspectOf (s.core n) sl f slot off with
    | some g =>
      let s := s.setFiring n slot (g.wsWrite off.toNat (f.getS o.d.toNat))
      s.setFiring n sl ((f.setK o.k.toNat true).retire false o.h .l64 .none)
    | none => s.setFiring n sl ((f.setK o.k.toNat false).retire false o.h .l64 .none)

/-! ## PREEMPT and REMAP (R369, R373) -/

/-- Send a mesh interrupt, which a REMAP of its target's die holds back (R373); the status comes when the target has reached the state asked for. The status of a core of
another package is that package's answer (log entry 12). -/
def preempt (mode : Nat) (o : DABOps) (s : State) : Out :=
  privForm o.h .l96 s fun n sl f =>
    let g := fld (f.srcS o.a) 0 29
    if !coreExists s g then s.setFiring n sl ((f.depStatus o.d 5).retire false o.h .l96 .none)
    else if g / 4096 != s.pkg.toNat then
      { s.setFiring n sl ((f.depStatus o.d (Config.farWord s.fresh 0)).retire false o.h .l96 .none) with fresh := s.fresh + 1 }
    else
      let q : MeshIrq := { mode := mode, target := g % 4096, arg := f.srcS o.b, asid := (s.core n).asid, core := n, uid := f.uid,
                           seq := f.seq, held := heldByRemap s g }
      let s := s.setFiring n sl ((f.depUnit [o.d.toNat] []).retire false o.h .l96 .none)
      { s with meshIrqs := s.meshIrqs ++ [q] }

def execPreemptDrain (o : DABOps) (s : State) : Out := preempt 0 o s
def execPreemptSwap (o : DABOps) (s : State) : Out := preempt 1 o s
def execPreemptRes (o : DABOps) (s : State) : Out := preempt 2 o s

/-- The virtual die that holds a site. -/
def dieOfSite (s : State) (site : Nat) : Nat := ((List.range 8).find? fun d => siteOfDie s d == site).getD site

/-- Whether every core of a virtual die is pre-empted. -/
def diePreempted (s : State) (d : Nat) : Bool := (List.range 512).all fun i => (s.core (512 * d + i)).cstate == 2

def execRemap (o : DABOps) (s : State) : Out :=
  privForm o.h .l64 s fun n sl f =>
    let d := fld (f.srcS o.a) 0 3
    let site := fld (f.srcS o.b) 0 3
    let st := fun k => s.setFiring n sl ((f.depStatus o.d (BitVec.ofNat 64 k)).retire false o.h .l64 .none)
    if !siteActive s (siteOfDie s d) || !siteActive s site then st 5
    else if siteOfDie s d = site then st 0
    else if !diePreempted s d || !diePreempted s (dieOfSite s site) then st 3
    else
      let s := s.setFiring n sl ((f.depUnit [o.d.toNat] []).retire false o.h .l64 .none)
      { s with remaps := s.remaps ++ [{ die := d, site := site, core := n, uid := f.uid, seq := f.seq }] }

end Sys2Proof.Machine
end

