-- ==== Sys2Proof/Machine/Uses.lean ====
section
/-! DEFINITION. What an instruction names, as far as the decode checks (R41, R42, R48, R59) and the scoreboard (R100,
R165, R185, R194) need it: its pipe, its registers, its latches, its privilege. -/

namespace Sys2Proof.Machine

/-- What an instruction names: the pipe it issues on, whether it exists in waves only, whether it is privileged, s and
v registers in any field, v registers it writes, latch codes of either pipe. -/
structure Uses where
  lane : Bool := false
  wave : Bool := false
  priv : Bool := false
  s    : List Nat := []
  v    : List Nat := []
  vw   : List Nat := []
  ls   : List Nat := []
  lv   : List Nat := []
  deriving DecidableEq, Repr

/-- Registers from r upward. -/
def regsFrom (r n : Nat) : List Nat := (List.range n).map (r + ·)

/-- A scalar operand code. -/
def Uses.addS (u : Uses) : SSrc → Uses
  | .reg r => { u with s := u.s ++ [r.toNat] }
  | .ls i => { u with ls := u.ls ++ [i.toNat] }
  | .lv i => { u with lv := u.lv ++ [i.toNat] }
  | .const _ => u

def Uses.addSI (u : Uses) : SSrcI → Uses
  | .src a => u.addS a
  | .imm _ => u

/-- A lane operand code over n registers a lane. -/
def Uses.addL (u : Uses) (n : Nat) : LSrc → Uses
  | .reg r => { u with v := u.v ++ regsFrom r.toNat n }
  | .ls i => { u with ls := u.ls ++ [i.toNat] }
  | .lv i => { u with lv := u.lv ++ [i.toNat] }
  | .const _ => u
  | .sreg r => { u with s := u.s ++ [r.toNat] }

def Uses.addLI (u : Uses) (n : Nat) : LSrcI → Uses
  | .src a => u.addL n a
  | .imm _ => u

/-- s registers named by number. -/
def Uses.addRegs (u : Uses) (r : BitVec 6) (n : Nat) : Uses := { u with s := u.s ++ regsFrom r.toNat n }

/-- A scalar destination: not decoded under NW = 1 (R36). -/
def Uses.dst (u : Uses) (h : Head) (d : BitVec 6) : Uses := if h.nw then u else u.addRegs d 1

/-- v registers read by number. -/
def Uses.addV (u : Uses) (r n : Nat) : Uses := { u with v := u.v ++ regsFrom r n }

/-- v registers written. -/
def Uses.putV (u : Uses) (r n : Nat) : Uses := { u with v := u.v ++ regsFrom r n, vw := u.vw ++ regsFrom r n }

/-- A lane destination of n registers. -/
def Uses.dstV (u : Uses) (h : Head) (d : BitVec 8) (n : Nat := 1) : Uses := if h.nw then u else u.putV d.toNat n

def usesLane : Uses := { lane := true, wave := true }
def usesPriv : Uses := { priv := true }

def usesAlu (o : AluOps) : Uses := (({ : Uses }.addS o.a).addSI o.b).dst o.h o.d
def usesUn (o : UnOps) : Uses := ({ : Uses }.addS o.a).dst o.h o.d
def usesF (o : FOps) : Uses := (({ : Uses }.addS o.a).addSI o.b).dst o.h o.d
def usesFUn (o : FUnOps) : Uses := ({ : Uses }.addS o.a).dst o.h o.d

/-- Registers a lane holds of an operand of a type: a pair for .F64 (R38). -/
def tRegs (t : BitVec 2) : Nat := if t == 1 then 2 else 1

def usesVF (o : VFOps) : Uses := ((usesLane.addL (tRegs o.t) o.a).addLI (tRegs o.t) o.b).dstV o.h o.d (tRegs o.t)
def usesVFUn (o : VFUnOps) (n : Nat) : Uses := (usesLane.addL (tRegs o.t) o.a).dstV o.h o.d n

def usesCvt (o : CvtOps) : Uses :=
  match o.opd with
  | .scalar d a => ({ : Uses }.addS a).dst o.h d
  | .lane d a => (usesLane.addL (if o.src == 0 then 2 else 1) a).dstV o.h d (if o.dst == 0 then 2 else 1)

def usesVInt (o : VIntOps) : Uses := ((usesLane.addL 1 o.a).addLI 1 o.b).dstV o.h o.d
def usesVUn (o : VUnOps) : Uses := (usesLane.addL 1 o.a).dstV o.h o.d

def Uses.addIdx (u : Uses) : LaneIdx → Uses
  | .sreg r => u.addRegs r 1
  | .imm _ => u

def Uses.addVote (u : Uses) : VoteSrc → Uses
  | .pred _ _ => u
  | .val a b => (u.addL 1 a).addL 1 b
  | .valImm a _ => u.addL 1 a

def Uses.addResid (u : Uses) : EfForm → Uses
  | .resid r => u.putV r.toNat 1
  | _ => u

/-- Registers of the accumulator of a matrix type. -/
def accRegs (i : Bool) (t : BitVec 3) : Nat := if mmaWidth i t == some 64 then 16 else 8

def usesMma (d a b : BitVec 8) (i : Bool) (ta : BitVec 3) : Uses :=
  ((usesLane.addV a.toNat 48).addV b.toNat 48).putV d.toNat (accRegs i ta)

def usesMldf (o : MldfOps) (load : Bool) : Uses :=
  let u := (usesLane.addS o.base).addS o.stride
  if load then u.putV o.d.toNat (mldfRegs o.kind) else u.addV o.d.toNat (mldfRegs o.kind)

def Uses.addMemIdx (u : Uses) : MemIdx → Uses
  | .idx b _ => u.addS b
  | .disp _ => u

def usesMem (o : MemOps) : Uses := (({ : Uses }.addS o.a).addMemIdx o.idx).addRegs o.d (if o.size == 4 then 2 else 1)
def usesXMem (o : XMemOps) : Uses := (({ : Uses }.addS o.core).addS o.off).addRegs o.d (if o.size == 4 then 2 else 1)

def usesVMem (o : VMemOps) (load : Bool) : Uses :=
  let u := (usesLane.addS o.a).addL 1 o.b
  let n := if sizeOf o.size ≤ 4 then 1 else sizeOf o.size / 4
  if load then u.putV o.d.toNat n else u.addV o.d.toNat n

def usesA (o : AOps) : Uses := { : Uses }.addS o.a
def usesDA (o : DAOps) (n : Nat := 1) : Uses := ({ : Uses }.addS o.a).addRegs o.d n
def usesDAB (o : DABOps) (n : Nat := 1) : Uses := (({ : Uses }.addS o.a).addS o.b).addRegs o.d n

def Uses.addHid (u : Uses) : HidOp → Uses
  | .num _ => u
  | .reg r => u.addRegs r 1

def Uses.addNt (u : Uses) : Option (BitVec 6) → Uses
  | none => u
  | some r => u.addRegs r 2

def usesRay (o : RayOps) (n : Nat) : Uses := ((({ : Uses }.addS o.a).addRegs o.ray 14)).addRegs o.d n

def usesSmp (o : SmpOps) : Uses :=
  (((({ wave := true } : Uses).addS o.desc).addV o.u.toNat 1).addV o.v.toNat 1).putV o.d.toNat 4

def usesFin (o : FinspectOps) : Uses := ((usesPriv.addS o.a).addS o.b).addRegs o.d 1

/-- What an instruction names; an event names nothing. -/
def uses : Instr → Uses
  | .add o | .sub o | .mul o | .mulh o | .mulhu o | .div o | .divu o | .rem o | .remu o => usesAlu o
  | .min o | .max o | .minu o | .maxu o => usesAlu o
  | .and o | .or o | .xor o | .andn o | .orn o | .shl o | .shr o | .sar o | .rol o | .bfx o | .bfxu o => usesAlu o
  | .abs o | .popc o | .clz o | .ctz o | .brev o | .bswap o | .mov o => usesUn o
  | .bfi o => ((({ : Uses }.addS o.a).addS o.b).addSI o.ctl).dst o.h o.d
  | .movi o => { : Uses }.dst o.h o.d
  | .moviZx o => { : Uses }.dst o.h o.d
  | .moviHi o => { : Uses }.addRegs o.d 1
  | .lea o => (({ : Uses }.addS o.a).addS o.b).dst o.h o.d
  | .leaPc o => ({ : Uses }.addS o.b).dst o.h o.d
  | .sel o => (({ : Uses }.addS o.a).addSI o.b).dst o.h o.d
  | .cmp o | .fcmp o => ({ : Uses }.addS o.a).addSI o.b
  | .vcmp o => (usesLane.addL 1 o.a).addLI 1 o.b
  | .vfcmp o => (usesLane.addL (if o.t then 2 else 1) o.a).addLI (if o.t then 2 else 1) o.b
  | .plop o => { lane := o.lane, wave := o.lane }
  | .pset o => { lane := o.lane, wave := o.lane }
  | .pmovKtos o => { : Uses }.dst o.h o.d
  | .pmovStok o => ({ : Uses }.addS o.a).addSI o.mask
  | .pmovQtos o => { wave := true : Uses }.dst o.h o.d
  | .pmovStoq o => { wave := true : Uses }.addSI o.a
  | .vpmovQtov o => usesLane.dstV o.h o.d
  | .vpmovVtoq o => (usesLane.addL 1 o.a).addLI 1 o.mask
  | .nop _ => {}
  | .br _ => {}
  | .bra _ | .bru _ => usesLane
  | .brx o => ({ : Uses }.addS o.a).addRegs o.d 1
  | .call o | .loop o => { : Uses }.addRegs o.d 1
  | .ret o => usesA o
  | .join _ | .yield _ | .setpri _ => usesLane
  | .getpri o => usesLane.dstV o.h o.d
  | .done _ => {}
  | .fadd o | .fsub o | .fmul o | .fmin o | .fmax o | .fdiv o => usesF o
  | .ffma o => ((({ : Uses }.addS o.a).addS o.b).addS o.c).dst o.h o.d
  | .fsqrt o | .frnd o | .fclass o => usesFUn o
  | .fcpys o => (({ : Uses }.addS o.a).addS o.b).dst o.h o.d
  | .vfadd o | .vfsub o | .vfmul o | .vfmin o | .vfmax o | .vfdiv o => usesVF o
  | .vffma o => (((usesLane.addL (tRegs o.t) o.a).addL (tRegs o.t) o.b).addL (tRegs o.t) o.c).dstV o.h o.d (tRegs o.t)
  | .vfsqrt o | .vfrnd o => usesVFUn o (tRegs o.t)
  | .vfclass o => usesVFUn o 1
  | .cvtFf o | .cvtFi o | .cvtIf o => usesCvt o
  | .cvtPack o =>
    let u := (usesLane.addL 1 o.a).addL 1 o.b
    if 2 ≤ o.fmt.toNat then u.putV o.d.toNat 1 else u.dstV o.h o.d
  | .cvtEf o => ((usesLane.addL 1 o.a).addResid o.form).dstV o.h o.d
  | .vadd o | .vsub o | .vmul o | .vmulh o | .vmin o | .vmax o | .vand o | .vor o | .vxor o => usesVInt o
  | .vshl o | .vshr o | .vsar o | .vbfx o => usesVInt o
  | .vmad o => (((usesLane.addL 1 o.a).addL 1 o.b).addL 1 o.c).dstV o.h o.d
  | .vbfi o => (((usesLane.addL 1 o.a).addL 1 o.b).addLI 1 o.ctl).dstV o.h o.d
  | .vpopc o | .vclz o | .vbrev o => usesVUn o
  | .vmov o => (usesLane.addLI 1 o.b).dstV o.h o.d
  | .vsel o => ((usesLane.addL 1 o.a).addLI 1 o.b).dstV o.h o.d
  | .vbcast o => ((usesLane.addL 1 o.a).addIdx o.idx).dstV o.h o.d
  | .vext o => ((usesLane.addL 1 o.a).addIdx o.idx).addRegs o.d 1
  | .voteBal o => (usesLane.addVote o.src).dstV o.h o.d
  | .voteAny o | .voteAll o => usesLane.addVote o.src
  | .shfl o => ((usesLane.addL 1 o.a).addLI 1 o.b).dstV o.h o.d
  | .xchg o => ((usesLane.addL 1 o.a).addLI 1 o.b).dstV o.h o.d
  | .wred o => (usesLane.addL 1 o.a).dstV o.h o.d
  | .sfu o => (usesLane.addL 1 o.a).putV o.d.toNat 1
  | .mma o => usesMma o.d o.a o.b o.i o.ta
  | .mmas o => (usesMma o.d o.a o.b o.i o.ta).addV o.sc.toNat 6
  | .mmaq o => ((usesMma o.d o.a o.b o.i o.ta).addV o.pa.toNat 8).addV o.pb.toNat 8
  | .mzero o => usesLane.putV o.d.toNat (if o.f64 then 16 else 8)
  | .mcvt o => ((usesLane.addV o.a.toNat 8).putV o.d.toNat (mcvtRegs o.fmt)).addResid o.form
  | .mldf o => usesMldf o true
  | .mstf o => usesMldf o false
  | .ld o | .st o | .lds o | .sts o => usesMem o
  | .ldx o | .stx o => usesXMem o
  | .pref o => ({ : Uses }.addS o.a).addMemIdx o.idx
  | .vld o | .vlds o => usesVMem o true
  | .vst o | .vsts o => usesVMem o false
  | .l1invLine o | .l2wbLine o => ({ : Uses }.addS o.a).addSI o.b
  | .l1invAll _ | .l2wbAll _ => {}
  | .l1invXl o => usesPriv.addS o.a
  | .fenceAcq o | .fenceRel o | .fenceAr o => usesA o
  | .atom o | .atomsLocal o => (({ : Uses }.addS o.a).addS o.b).addRegs o.d 1
  | .atomNz o => ((({ : Uses }.addS o.a).addS o.b).addRegs o.d 1).addRegs o.n 2
  | .cas o => ((({ : Uses }.addS o.a).addS o.b).addS o.c).addRegs o.d 1
  | .atomsRemote o => ((({ : Uses }.addS o.core).addS o.off).addS o.b).addRegs o.d 1
  | .vatom o => (((usesLane.addS o.a).addL 1 o.b).addL 1 o.c).putV o.d.toNat 1
  | .send o =>
    let u := (({ : Uses }.addS o.dst).addHid o.hid).addRegs o.d o.len.toNat
    (match o.stamp with | some c => u.addS c | none => u)
  | .sendv o =>
    let u := ((({ wave := true } : Uses).addV o.dst.toNat 1).addHid o.hid).addV o.d.toNat (2 * o.len.toNat)
    if o.ord then u.addV o.stamp.toNat 2 else u
  | .recv o => { : Uses }.addRegs o.d 1
  | .gpost o => { : Uses }.addRegs o.d 6
  | .gflush _ => {}
  | .requeue o => ({ wave := true } : Uses).addV o.d.toNat 12
  | .qpush o => usesDA o
  | .qflush o => usesA o
  | .htabGet o | .htabSet o => usesDA o 4
  | .launchWake o | .launchOpen o | .launchClose o | .cancel o => usesDA o
  | .lvlread o | .lvlreadReap o => usesDA o 4
  | .vtget o | .vtgetRep o | .hzread o | .hzreadSys o => { : Uses }.addRegs o.d 1
  | .vtset o | .hzwait o | .hzwaitSys o => usesA o
  | .rsend o => (({ : Uses }.addS o.a).addHid o.hid).addRegs o.d 14
  | .boxt o => usesRay o 1
  | .trit o => usesRay o 2
  | .rpush o | .rxform o => usesDAB o 14
  | .rpushBox o => ((({ : Uses }.addS o.a).addS o.g).addS o.n).addRegs o.d 14
  | .rpop o => ((({ : Uses }.addS o.g).addRegs o.ray 14)).addRegs o.d 1
  | .rhit o => (((({ : Uses }.addS o.core).addS o.user).addRegs o.ray 14)).addRegs o.d 2
  | .rmiss o => (({ : Uses }.addS o.core).addS o.user).addRegs o.ray 14
  | .rloadRay o | .rloadGeom o | .rstoreRay o | .rstoreGeom o => usesDAB o 14
  | .rloadHit o | .rstoreHit o => usesDAB o 2
  | .cnlookDir o | .cnsetDir o => usesDA o 4
  | .cnlookLoc o => usesDAB o 2
  | .cnsetSlot o => usesDA o 2
  | .thaw o => usesDAB o
  | .evict o => usesDA o
  | .rpin o => ((({ : Uses }.addS o.a).addS o.b).addS o.c).addRegs o.d 1
  | .rdone o => ((({ : Uses }.addS o.a).addS o.b).addRegs o.d 1).addRegs o.p 2
  | .rlog o => (((({ : Uses }.addS o.q).addS o.node).addS o.stamp).addRegs o.d 14).addRegs o.x 1
  | .rreplay o => usesRay o 1
  | .rreplayTri o => usesRay o 2
  | .bget o | .bput o => (((({ : Uses }.addS o.dst).addS o.src).addS o.len).addNt o.nt).addRegs o.d 1
  | .bcopy o | .bfill o => (((({ : Uses }.addS o.dst).addS o.src).addS o.len).addNt o.nt).addRegs o.d 1
  | .tlreadDone o | .tlreadIss o | .tlreadErr o => { : Uses }.addRegs o.d 1
  | .tlwait o => { : Uses }.addS o.a
  | .smp o | .smpf o => usesSmp o
  | .sfence _ => {}
  | .rsr o =>
    let u : Uses := { priv := srPriv false o.num.toNat }
    if o.h.nw then u
    else if o.num == 1 then u.putV o.d.toNat 1
    else u.addRegs (o.d.setWidth 6) 1
  | .wsr o => ({ priv := srPriv true o.num.toNat } : Uses).addS o.a
  | .trap _ => {}
  | .brk _ => {}
  | .tret _ => usesPriv
  | .fresume o | .fresumeStep o | .fresumeOut o | .fkill o | .halt o => (usesPriv.addS o.a).addRegs o.d 1
  | .finspectRd o | .finspectWr o => usesFin o
  | .preemptDrain o | .preemptSwap o | .preemptRes o | .remap o => ((usesPriv.addS o.a).addS o.b).addRegs o.d 1
  | _ => {}

end Sys2Proof.Machine
end

