-- ==== Sys2Proof/Machine/Checks.lean ====
section
/-! DEFINITION. What comes before an instruction's own effect: breakpoints (R350, R367), fetch, the decode checks of
Table 2-15 in order (R59), and the holds of the scoreboard (R100, R165, R185, R194) and of FPX (R137). -/

namespace Sys2Proof.Machine

/-- A breakpoint register matches the firing's PC (R367); SKIP lets one instruction pass (R368). -/
def brkMeets (b : W64) (f : Firing) : Bool :=
  b.getLsbD 0 && fld b 2 54 == fld f.pc 2 54 && (fld b 56 8 == 0 || fld b 56 8 == fld f.ltag 0 8)

def brkHit (c : Core) (sl : Nat) (f : Firing) : Bool :=
  !privileged c sl && !f.skip && (brkMeets c.brk0 f || brkMeets c.brk1 f)

/-- Whether latch i of a pipe is valid for the instruction about to issue (R48). -/
def latchOk (f : Firing) (lane : Bool) (i : Nat) : Bool :=
  chainAct f.chain && i + 1 ≤ chainPos f.chain && chainLane f.chain == lane &&
  (if lane then chainLval f.chain else chainSval f.chain).getLsbD i

/-- Chain, pipe and thread violations (R41, R46, R101, R257, R361): ILLEGAL. -/
def chainIllegal (priv : Bool) (f : Firing) (chained : Bool) (i : Instr) (u : Uses) : Bool :=
  ((u.lane || u.wave) && !f.wave) ||
  (chained && chainAct f.chain && chainPos f.chain == 7) ||
  (chainAct f.chain && chainLane f.chain != u.lane) ||
  (match i with | .wsr o => priv && srRo o.num.toNat | _ => false)

/-- Orders 3 to 6 of Table 2-15 for a decoded instruction. -/
def decodeCheck (priv : Bool) (f : Firing) (chained : Bool) (i : Instr) : Option TrapCause :=
  let u := uses i
  if chainIllegal priv f chained i u then some (cause 0x01)
  else if u.priv && !priv then some (cause 0x02)
  else if u.ls.any (fun k => u.lane || !latchOk f false k) || u.lv.any (fun k => !u.lane || !latchOk f true k) then some (cause 0x04)
  else if u.s.any (fun r => r != 0 && f.ns ≤ r) || u.v.any (fun r => f.nv ≤ r) then some (cause 0x05)
  else none

/-- What stands before a firing: a page walk for its fetch, a wait for a link, a trap, or an instruction that passes every
decode check, each with the state after the fetch. -/
inductive Look | walk | wait | trap (s : State) (t : TrapCause) | go (s : State) (i : Instr) (l : Len)
  deriving DecidableEq, Repr

/-- The checks of R350, items 1 and 2, on the firing's next instruction. -/
def look (s : State) (n sl : Nat) (f : Firing) : Look :=
  let c := s.core n
  let priv := privileged c sl
  if brkHit c sl f then .trap s (cause 0x17)
  else match fetchBlock s n f.xl priv f.pc.toNat with
    | .walk => .walk
    | .wait => .wait
    | .trap t => .trap s t
    | .ok s' bytes =>
      match decodeAt bytes f.pc.toNat with
      | .error t => .trap s' t
      | .ok (i, l) =>
        match decodeCheck priv f ((wordAt (bytes.drop (f.pc.toNat % 32)) 0).getLsbD 2) i with
        | some t => .trap s' t
        | none => .go s' i l

/-- Whether a firing waits for a walk (R204). -/
def Firing.walking (f : Firing) : Bool := match f.hold with | .walk .. => true | _ => false

/-- Whether a firing waits for its launch's credits (R274). -/
def Firing.crediting (f : Firing) : Bool := match f.hold with | .credit _ => true | _ => false

/-- Whether a firing may look at its next instruction: it runs, on a core that runs or drains (R361), and neither a walk nor a
missing credit holds it, its own or that of the messages which its SENDV still places (R274). -/
def mayLook (c : Core) (sl : Nat) (f : Firing) : Bool :=
  c.cstate ≤ 1 && sl ≤ trapSlot && !f.stopped && !f.walking && !f.crediting && !(c.sendvWait.isSome && c.placing f)

/-- The trap that meets the firing at its next instruction's decode, with the state after the fetch. Data in error that
still wait for their DATAERR come before it (R350). -/
def issueTrap (s : State) (n sl : Nat) : Option (State × TrapCause) :=
  match s.firing n sl with
  | none => none
  | some f =>
    if !mayLook (s.core n) sl f || f.badDep.isSome then none
    else match look s n sl f with
      | .trap s' t => some (s', t)
      | _ => none

/-! ## Holds -/

/-- s and v registers with a result pending: deposits, SFU entries, the matrix unit's accumulator. -/
def Firing.pendS (f : Firing) : List Nat := f.deps.flatMap (·.sregs)

def pendV (c : Core) (sl : Nat) (f : Firing) : List Nat :=
  f.deps.flatMap (·.vregs) ++ (c.sfuQ.filter fun e => e.slot == sl).map (·.d) ++
  (match c.mat with | some m => if m.slot = sl then regsFrom m.d m.n else [] | none => [])

/-- v registers a waiting SFU entry of the firing still has to read (R165). -/
def sfuReads (c : Core) (sl : Nat) : List Nat :=
  c.sfuQ.filterMap fun e =>
    if e.slot == sl && e.vals.isNone then (match e.sa with | .reg r => some r.toNat | _ => none) else none

/-- s registers QPUSH reads beyond the one it names: as many as its descriptor's entry has words (R266). -/
def moreRegs (c : Core) (f : Firing) : Instr → List Nat
  | .qpush o =>
    let off := f.srcS o.a
    if c.spadProt off.toNat 64 then [] else regsFrom o.d.toNat (2 ^ (c.qdesc off.toNat).esz)
  | _ => []

/-- The scoreboard's hold (R100, R165, R185, R194): no register the instruction reads or writes is pending. -/
def scoreReady (c : Core) (sl : Nat) (f : Firing) (i : Instr) : Bool :=
  let u := uses i
  let ps := f.pendS
  let pv := pendV c sl f
  let rd := sfuReads c sl
  (u.s ++ moreRegs c f i).all (fun r => !ps.contains r) && u.v.all (fun r => !pv.contains r) &&
  u.vw.all (fun r => !rd.contains r)

/-- The hold of R137: with an FPX enable set, nothing issues until the flags of a unit form are known. -/
def fpxReady (c : Core) (sl : Nat) (f : Firing) : Bool := fld f.fpst 16 5 == 0 || !flagsPending c sl

end Sys2Proof.Machine
end

