-- ==== Sys2Proof/Machine/Image.lean ====
section
/-! DEFINITION. The image container and its load checks (R77 to R84): parsing, the workspace region (R198), boot trees,
relocation, and what a core receives. -/

namespace Sys2Proof.Machine

/-! ## Fields of the container -/

/-- An n-byte little-endian field. -/
def leAt (bs : List Byte) (o n : Nat) : Nat := natOfLE ((bs.drop o).take n)

def zeroAt (bs : List Byte) (o n : Nat) : Bool := ((bs.drop o).take n).all (· == 0)

def imgNrole (b : List Byte) : Nat := leAt b 0xC 2
def imgNplace (b : List Byte) : Nat := leAt b 0xE 2
def imgNtree (b : List Byte) : Nat := leAt b 0x10 4
def imgNreloc (b : List Byte) : Nat := leAt b 0x14 4
def imgRoledir (b : List Byte) : Nat := leAt b 0x18 4
def imgPlace (b : List Byte) : Nat := leAt b 0x1C 4
def imgTree (b : List Byte) : Nat := leAt b 0x20 4
def imgHand (b : List Byte) : Nat := leAt b 0x24 4
def imgReloc (b : List Byte) : Nat := leAt b 0x28 4
def imgSig (b : List Byte) : Nat := leAt b 0x2C 4

/-- Bytes of a signature block (R82), of a role's handler block (R81). -/
def sigLen : Nat := 29824
def handLen : Nat := 8464

/-- A role directory entry (Table 3-4): file offset, size and base of a segment 0 text, 1 rodata, 2 data. -/
def roleOff (b : List Byte) (r : Nat) : Nat := imgRoledir b + 64 * r
def segOff (b : List Byte) (r seg : Nat) : Nat := leAt b (roleOff b r + [0x10, 0x20, 0x30].getD seg 0) 4
def segSize (b : List Byte) (r seg : Nat) : Nat := leAt b (roleOff b r + [0x14, 0x24, 0x34].getD seg 0) 4
def segBase (b : List Byte) (r seg : Nat) : Nat :=
  if seg = 2 then leAt b (roleOff b r + 0x38) 4 else leAt b (roleOff b r + [0x18, 0x28].getD seg 0) 8
def roleZfill (b : List Byte) (r : Nat) : Nat := leAt b (roleOff b r + 0x3C) 4

/-- The handler block of a role: its htab offset, its entries, its glade records (R81). -/
def handOff (b : List Byte) (r : Nat) : Nat := imgHand b + handLen * r
def roleHtab (b : List Byte) (r : Nat) : Nat := leAt b (handOff b r + 12) 4

/-- A placement entry (R80). -/
structure Place where
  x0 : Nat
  y0 : Nat
  x1 : Nat
  y1 : Nat
  role : Nat
  opt : Bool
  deriving DecidableEq, Repr

def placeAt (b : List Byte) (i : Nat) : Place :=
  let o := imgPlace b + 16 * i
  { x0 := leAt b o 1, y0 := leAt b (o + 1) 1, x1 := leAt b (o + 2) 1, y1 := leAt b (o + 3) 1, role := leAt b (o + 4) 2,
    opt := leAt b (o + 6) 2 % 2 == 1 }

def places (b : List Byte) : List Place := (List.range (imgNplace b)).map (placeAt b)

/-- The flat number of a mesh position (R12, R14). -/
def coreAt (x y : Nat) : Nat := (y / 16 * 4 + x / 32) * 512 + y % 16 * 32 + x % 32

def Place.cores (p : Place) : List Nat :=
  (List.range (p.y1 + 1 - p.y0)).flatMap fun j => (List.range (p.x1 + 1 - p.x0)).map fun i => coreAt (p.x0 + i) (p.y0 + j)

/-- A boot-tree entry (R80). -/
def edgeAt (b : List Byte) (i : Nat) : BootEdge :=
  let o := imgTree b + 8 * i
  let p := leAt b o 2
  { parent := if p = 0xFFFF then none else some p, child := leAt b (o + 2) 2, role := leAt b (o + 4) 2 }

def edges (b : List Byte) : List BootEdge := (List.range (imgNtree b)).map (edgeAt b)

/-- A relocation entry (R80). -/
structure Reloc where
  off    : Nat
  role   : Nat
  seg    : Nat
  typ    : Nat
  target : Nat
  addend : Int
  deriving DecidableEq, Repr

def relocAt (b : List Byte) (i : Nat) : Reloc :=
  let o := imgReloc b + 16 * i
  { off := leAt b o 4, role := leAt b (o + 4) 1, seg := leAt b (o + 5) 1, typ := leAt b (o + 6) 1, target := leAt b (o + 7) 1,
    addend := (BitVec.ofNat 64 (leAt b (o + 8) 8)).toInt }

def relocs (b : List Byte) : List Reloc := (List.range (imgNreloc b)).map (relocAt b)

/-! ## The checks of Table 3-5 -/

/-- Whether a key index names one of the 16 verification keys, provisioned and not revoked by fuse (R382). -/
def keyUsable (s : State) (k : W64) : Bool := k.toNat < 16 && s.keysFused.getLsbD k.toNat && !s.keysRevoked.getLsbD k.toNat

/-- Check 1: the signature block and the signature (R82). -/
def imgSigned (s : State) (b : List Byte) : Bool :=
  let g := b.drop (imgSig b)
  g.length == sigLen && leAt g 0 4 == 0x474953 && leAt g 4 2 == 1 && zeroAt g 6 2 && leAt g 0x10 4 == 29792 &&
  zeroAt g 0x14 12 && keyUsable s (w64OfLE ((g.drop 8).take 8)) && Config.sigVerifies (b.take (imgSig b)) (w64OfLE ((g.drop 8).take 8)) (g.drop 0x20)

/-- Whether the sections stand in order at their alignments (R78). -/
def imgSections (b : List Byte) : Bool :=
  let pts := [(128, imgRoledir b), (imgRoledir b + 64 * imgNrole b, imgPlace b), (imgPlace b + 16 * imgNplace b, imgTree b),
    (imgTree b + 8 * imgNtree b, imgHand b), (imgHand b + handLen * imgNrole b, imgReloc b),
    (imgReloc b + 16 * imgNreloc b, imgSig b)]
  pts.all fun p => p.1 ≤ p.2 && p.2 % 8 == 0

/-- Whether a glade record's reserved bytes and flag bits are zero, and all of an undeclared glade's (R81). -/
def gladeFormed (x : List Byte) : Bool :=
  match x with
  | [fl, _, _, z, _, _, _, _, z8, z9, za, zb, zc, zd, ze, zf] =>
    fl ≤ 1 && [z, z8, z9, za, zb, zc, zd, ze, zf].all (· == 0) && (fl == 1 || x.all (· == 0))
  | _ => false

/-- Whether the 16 glade records of a role's block are so. -/
def gladesFormed (b : List Byte) (r : Nat) : Bool :=
  let bs := (b.drop (handOff b r + 16 + 8192)).take 256
  (List.range 16).all fun g => gladeFormed ((bs.drop (16 * g)).take 16)

/-- Whether a role's directory entry, segments and handler block are well formed. Alignments that the tables of the image state
and Table 3-5 does not list are among it (log entry 102). -/
def roleFormed (b : List Byte) (r : Nat) : Bool :=
  segBase b r 0 % 65536 == 0 && segSize b r 0 % 4 == 0 && segBase b r 2 < 2 ^ 20 &&
  ([0, 1, 2].all fun g => segSize b r g == 0 ||
    (imgReloc b + 16 * imgNreloc b ≤ segOff b r g && segOff b r g + segSize b r g ≤ imgSig b &&
     segOff b r g % (if g = 0 then 32 else 8) == 0)) &&
  leAt b (handOff b r) 2 == r && zeroAt b (handOff b r + 6) 6 && gladesFormed b r && roleHtab b r % 8192 == 0

def placeFormed (b : List Byte) (i : Nat) : Bool :=
  let p := placeAt b i
  let o := imgPlace b + 16 * i
  p.role < imgNrole b && p.x0 ≤ p.x1 && p.x1 ≤ 127 && p.y0 ≤ p.y1 && p.y1 ≤ 31 && leAt b (o + 6) 2 ≤ 1 && zeroAt b (o + 8) 8

def treeFormed (b : List Byte) (i : Nat) : Bool := zeroAt b (imgTree b + 8 * i + 6) 2

/-- Check 2: the format; no core under two placement entries. -/
def imgFormed (b : List Byte) : Bool :=
  leAt b 0 8 == 0x00004853_55494E53 && leAt b 8 2 == 1 && leAt b 0xA 2 == 128 && zeroAt b 0x31 79 &&
  1 ≤ imgNrole b && imgNrole b ≤ 64 && imgSections b && (List.range (imgNrole b)).all (roleFormed b) &&
  (List.range (imgNplace b)).all (placeFormed b) && (List.range (imgNtree b)).all (treeFormed b) &&
  ((List.range (imgNplace b)).all fun i => (List.range (imgNplace b)).all fun j =>
    let p := placeAt b i
    let q := placeAt b j
    j ≤ i || p.x1 < q.x0 || q.x1 < p.x0 || p.y1 < q.y0 || q.y1 < p.y0)

/-- Check 3: every die named has cores. -/
def imgDies (s : State) (b : List Byte) : Bool :=
  (List.range 8).all fun d => !(leAt b 0x30 1).testBit d || siteActive s (siteOfDie s d)

/-- Placed cores that exist, with their roles; those of optional entries that do not exist are dropped. -/
def placed (s : State) (b : List Byte) : List (Nat × Nat) :=
  (places b).flatMap fun p => (p.cores.filter (coreHere s)).map fun n => (n, p.role)

/-- Check 4: every core of an entry that is not optional exists. -/
def imgCores (s : State) (b : List Byte) : Bool := (places b).all fun p => p.opt || p.cores.all (coreHere s)

/-- What a role covers of the scratchpad: data with its zero-fill, and the handler table. -/
def roleSpans (b : List Byte) (r : Nat) : List (Nat × Nat) :=
  let d := segBase b r 2
  let e := d + segSize b r 2 + roleZfill b r
  (if d < e then [(d, e)] else []) ++ [(roleHtab b r, roleHtab b r + 8192)]

/-- Check 5: data, zero-fill and handler table inside the scratchpad; the workspace region lies outside them (R198). -/
def imgScratch (b : List Byte) (r : Nat) : Bool := (roleSpans b r).all fun p => p.2 ≤ 2 ^ 20

/-- The spans of [0, 2^20) that sorted spans leave free. -/
def gaps : Nat → List (Nat × Nat) → List (Nat × Nat)
  | lo, [] => [(lo, 2 ^ 20)]
  | lo, (a, e) :: t => (lo, a) :: gaps (max lo e) t

/-- The workspace region (R198): the largest free span between 1 KiB boundaries, the lowest of equals. -/
def wsRegion (b : List Byte) (r : Nat) : Nat × Nat :=
  let gs := (gaps 0 (sortBy (·.1) (roleSpans b r))).map fun g => (ceilDiv g.1 1024 * 1024, g.2 / 1024 * 1024)
  gs.foldl (fun best g => if best.2 - best.1 < g.2 - g.1 then g else best) (0, 0)

/-- The nearest ancestor that remains, for a parent that was dropped. -/
def remaining (keep : List Nat) (es : List BootEdge) : Nat → Option Nat → Option Nat
  | 0, _ => none
  | _, none => none
  | k + 1, some p =>
    if keep.contains p then some p
    else remaining keep es k ((es.find? fun e => e.child == p).bind (·.parent))

/-- The tree without dropped cores: an edge, and whether it was made by re-attachment. -/
def keptEdges (keep : List Nat) (es : List BootEdge) : List (BootEdge × Bool) :=
  (es.filter fun e => keep.contains e.child).map fun e =>
    let p := remaining keep es (es.length + 1) e.parent
    ({ e with parent := p }, p != e.parent)

def meshDist (a b : Nat) : Nat :=
  (meshX a - meshX b) + (meshX b - meshX a) + (meshY a - meshY b) + (meshY b - meshY a)

/-- Check 6 over the edges in order: seen holds the children so far. -/
def treeOk (pl : List (Nat × Nat)) : List Nat → List (BootEdge × Bool) → Bool
  | seen, [] => pl.all fun p => seen.contains p.1
  | seen, (e, re) :: t =>
    pl.contains (e.child, e.role) && !seen.contains e.child &&
    (match e.parent with
     | none => true
     | some p => seen.contains p && pl.contains (p, e.role) && (re || meshDist p e.child == 1)) &&
    treeOk pl (e.child :: seen) t

/-- Whether every edge of the file names a placed core, dropped ones among them. -/
def edgesPlaced (b : List Byte) : Bool :=
  (edges b).all fun e => (places b).any fun p => p.role == e.role && p.cores.contains e.child

/-- Where a relocation patches within its segment and how many bytes (R80). -/
def relocSpan (b : List Byte) (r : Reloc) : Option (Nat × Nat) :=
  let sz := segSize b r.role r.seg
  match r.typ with
  | 1 => if r.off + 8 ≤ sz then some (r.off, 8) else none
  | 2 => if r.off + 4 ≤ sz then some (r.off, 4) else none
  | 3 =>
    let code := leAt b (segOff b r.role r.seg + r.off) 1 % 4
    let at_ := if code = 3 then 12 else 8
    if (code = 2 || code = 3) && r.off + at_ + 4 ≤ sz then some (r.off + at_, 4) else none
  | _ => none

def relocVal (b : List Byte) (r : Reloc) : Int := (segBase b r.role r.target : Int) + r.addend

/-- Check 7: every relocated value fits its field. An entry of a type or segment that R80 does not list, an offset beyond its
segment, or IMM32 at an instruction without I32 fails it as well (log entry 51). -/
def relocOk (b : List Byte) (r : Reloc) : Bool :=
  let v := relocVal b r
  r.role < imgNrole b && r.seg ≤ 2 && r.target ≤ 2 &&
  (match relocSpan b r with
   | none => false
   | some p => if p.2 = 8 then decide (-(2 ^ 63) ≤ v) && decide (v < 2 ^ 64) else decide (-(2 ^ 31) ≤ v) && decide (v < 2 ^ 32))

/-- A segment's bytes with its relocations applied (R82: after verification). -/
def segBytes (b : List Byte) (r seg : Nat) : List Byte :=
  ((relocs b).filter fun x => x.role == r && x.seg == seg).foldl (fun bs x =>
    match relocSpan b x with
    | none => bs
    | some p => bs.take p.1 ++ bytesLE p.2 (BitVec.ofInt 64 (relocVal b x)) ++ bs.drop (p.1 + p.2))
    ((b.drop (segOff b r seg)).take (segSize b r seg))

/-- The pages a span touches. -/
def pagesOf (va len : Nat) : List Nat :=
  if len = 0 then [] else (List.range ((va + len - 1) / 65536 - va / 65536 + 1)).map fun i => (va / 65536 + i) * 65536

/-- Check 8: every page of text and rodata translates, text pages with X. -/
def imgMapped (s : State) (asid : BitVec 16) (b : List Byte) (r : Nat) : Bool :=
  [0, 1].all fun g => (pagesOf (segBase b r g) (segSize b r g)).all fun va =>
    match walk s asid va with
    | .leaf l => g = 1 || pteX l.pte
    | _ => false

/-- The status of the load checks in order (Table 3-5); 0 where all pass. -/
def imgStatusOf (s : State) (asid : BitVec 16) (b : List Byte) : Byte :=
  let roles := List.range (imgNrole b)
  let pl := placed s b
  if !imgSigned s b then 1
  else if !imgFormed b then 2
  else if !imgDies s b then 3
  else if !imgCores s b then 4
  else if !roles.all (imgScratch b) then 5
  else if !edgesPlaced b || !treeOk pl [] (keptEdges (pl.map (·.1)) (edges b)) then 6
  else if !(relocs b).all (relocOk b) then 7
  else if !roles.all (imgMapped s asid b) then 9
  else 0

/-! ## Loading -/

/-- Write bytes at a virtual address of an ASID, at home, through its page tables (R84). -/
def writeVa (s : State) (asid : BitVec 16) (va : Nat) (bs : List Byte) : State :=
  homeWrite s ((bs.zipIdx).filterMap fun e =>
    match walk s asid (va + e.2) with
    | .leaf l => some (l.key (va + e.2), e.1)
    | _ => none) none

/-- Step 1 of R83: text and rodata of every role. -/
def loadSegments (s : State) (asid : BitVec 16) (b : List Byte) : State :=
  (List.range (imgNrole b)).foldl (fun s r =>
    writeVa (writeVa s asid (segBase b r 0) (segBytes b r 0)) asid (segBase b r 1) (segBytes b r 1)) s

/-- A LOAD entry (Table 18-4). -/
def pushLoad (s : State) (status : Byte) (addr : Nat) : State :=
  pushHost s (hostEntry s 1 0 none ([status] ++ leN 7 0 ++ leN 8 addr))

/-- The loader on a command (R83, R384): BUSY during a load; refused with a status; or accepted, its segments written
and its cores waiting for their copies. -/
def startLoad (s : State) (addr len : Nat) (asid : BitVec 16) : State :=
  let say := fun (s : State) (st : Byte) => pushLoad { s with host := { s.host with imgStatus := st } } st addr
  if s.load.isSome then say s 8
  else
    let b := s.getBs (memKey s.pkg.toNat (addr % 2 ^ 47)) len
    let st := imgStatusOf s asid b
    if st != 0 then say s st
    else
      let pl := placed s b
      let s := loadSegments s asid b
      let s := pl.foldl (fun s p => s.updCore p.1 fun c => { c with loading := true }) s
      { s with load := some { addr := addr, bytes := b, asid := asid,
                              tree := (keptEdges (pl.map (·.1)) (edges b)).map (·.1), arrived := [], ready := [] } }

/-- A glade's declaration from its record (R81), its columns kept. -/
def declGlade (b : List Byte) (r g : Nat) (old : Glade) : Glade :=
  let o := handOff b r + 16 + 8192 + 16 * g
  { old with decl := leAt b o 1 % 2 == 1, depth := leAt b (o + 1) 1, thr := leAt b (o + 2) 1, timer := BitVec.ofNat 32 (leAt b (o + 4) 4),
             cols := if old.cols.isEmpty then List.replicate 32 [] else old.cols }

/-- A placed core takes its data, zero-fill, handler block, ASID and region; its trap and debug registers reset, its
claim is 0 (R83, R84, R198, R282, R361). -/
def takeImage (c : Core) (b : List Byte) (r : Nat) (asid : BitVec 16) : Core :=
  let ws := wsRegion b r
  let c := c.putBs (segBase b r 2) (segBytes b r 2 ++ List.replicate (roleZfill b r) 0)
  let c := c.putBs (roleHtab b r) ((b.drop (handOff b r + 16)).take 8192)
  { c with asid := asid, placed := true, htab := roleHtab b r, metBad := [], wsLo := ws.1, wsHi := ws.2, vt := 0, claim := 1, tvec := 0, tws := 0,
           brk0 := 0, brk1 := 0, wch0 := 0, wch1 := 0, pinned := List.replicate 16 {},
           ctxs := c.ctxs.map fun x => { x with i := 0, c := 0, err := 0, addr := 0, wrote := [] },
           glades := (c.glades.zipIdx).map fun e => declGlade b r e.2 e.1 }

/-! ## Load events (R83) -/

/-- BOOT_TREE_FORWARD: the core's copy comes along its edge once its parent has its own. -/
def execBootTreeForward (n : Nat) (s : State) : Out :=
  match s.load with
  | none => .next s
  | some l =>
    match l.tree.find? (fun e => e.child == n) with
    | none => .next s
    | some e =>
      if l.arrived.contains n || !(match e.parent with | none => true | some p => l.arrived.contains p) then .next s
      else
        let s := s.updCore n fun c => takeImage c l.bytes e.role l.asid
        .next { s with load := some { l with arrived := l.arrived ++ [n] } }

/-- CORE_READY_REPORT: the core's copy is complete and has been forwarded to each of its children. -/
def execCoreReadyReport (n : Nat) (s : State) : Out :=
  match s.load with
  | none => .next s
  | some l =>
    if !l.arrived.contains n || l.ready.contains n ||
        (l.tree.any fun e => e.parent == some n && !l.arrived.contains e.child) then .next s
    else .next { s with load := some { l with ready := l.ready ++ [n] } }

end Sys2Proof.Machine
end

