-- ==== Sys2Proof/Machine/HostWrite.lean ====
section
/-! DEFINITION. Writes to the device-register range and the events of the module's controllers (R374 to R389): the
capability bodies, the device queue, attestation, power, links, patrol scrubbing, restart and module reset. -/

namespace Sys2Proof.Machine

/-! ## Commands -/

/-- Forward the held entries once the queue is enabled (R380). -/
def flushHeld (s : State) : State :=
  if capReady s 4 && devTgt s.host != 0 && !s.host.held.isEmpty then
    { s with host := devPush { s.host with held := [] } s.host.held }
  else s

/-- An attestation command: 1 starts a report; it is ignored while one is being made (R383). -/
def attest (s : State) (cmd : Nat) : State :=
  if cmd = 1 && !s.host.attBusy then { s with host := { s.host with attBusy := true } } else s

/-- A load command (R384): the host may not name ASID 0. -/
def loadCommand (s : State) (host : Bool) (cmd : Nat) : State :=
  let h := s.host
  if cmd != 1 then s
  else if s.load.isSome then startLoad s h.imgAddr.toNat h.imgLen.toNat h.imgAsid
  else if host && h.imgAsid == 0 then pushLoad { s with host := { h with imgStatus := 2 } } 2 h.imgAddr.toNat
  else startLoad s h.imgAddr.toNat h.imgLen.toNat h.imgAsid

/-- Kill every firing of a core as FKILL does. -/
def killAll (s : State) (n : Nat) : State := ((s.core n).live.map (·.1)).foldl (fun s sl => killFiring s n sl) s

/-- Restart a halted core (R389). -/
def restart (s : State) (gca : Nat) : State :=
  let n := gca % 4096
  if gca / 4096 = s.pkg.toNat && coreHere s n && (s.core n).cstate = 4 then
    (killAll s n).updCore n fun c => { c with trapQ := [], cstate := 0 }
  else s

/-- Every island below 100 °C runs at 1.8 GHz again. -/
def restoreClocks (h : HostSt) : HostSt :=
  { h with clocks := (h.clocks.zip h.temps).map fun e => if e.2.toNat < 100 then 36 else e.1, throttled := false }

/-- The host power limit (R387): ignored outside 1,000 to 3,300 W. A limit that rises lets the manager raise the clocks it
lowered (R17; log entry 87). -/
def setLimit (s : State) (w : Nat) : State :=
  let h := s.host
  if 1000 ≤ w && w ≤ 3300 then
    { s with host := { if h.limit.toNat < w then restoreClocks h else h with limit := BitVec.ofNat 16 w } }
  else s

/-- The package takes a number: memory at home follows it. -/
def rekey (s : State) (p : BitVec 17) : State :=
  let old := s.pkg.toNat
  let new := p.toNat
  let f := fun k => if keyPkg k = old then memKey new (keyPa k) else if keyPkg k = new then memKey old (keyPa k) else k
  { s with pkg := p, mem := s.mem.foldl (fun m e => spPut 0 m (f e.1) e.2) [] }

/-! ## Register writes -/

/-- The writable registers of a capability, from its body as patched by a write (Table 18-3; log entry 18). The
launch table base is the Frellan root's alone. -/
def setCap (s : State) (k : Nat) (b : List Byte) : State :=
  let h := s.host
  match k with
  | 1 =>
    let s := { s with diesReady := BitVec.ofNat 8 (leAt b 0xD 1) }
    if capReady s 8 then s
    else rekey { s with sysSize := max 1 (leAt b 8 4) } (BitVec.ofNat 17 (leAt b 4 4))
  | 2 => { s with host := { h with nonce := b.take 32, attAddr := w64OfLE ((b.drop 0x20).take 8) } }
  | 3 => { s with host := { h with imgAddr := w64OfLE (b.take 8), imgLen := w64OfLE ((b.drop 8).take 8),
                                   imgAsid := BitVec.ofNat 16 (leAt b 0x10 2) } }
  | 4 =>
    flushHeld { s with host := { h with devq := b.take 64,
                                        irqs := (List.range 32).map fun i => (b.drop (64 + 16 * i)).take 16 } }
  | 5 => { s with asidBase := leAt b 8 8, host := { h with bar4Base := leAt b 0 8 / 2 ^ 36 * 2 ^ 36 } }
  | 6 => { s with canopyBase := leAt b 8 8, canopyAsid := BitVec.ofNat 16 (leAt b 0x10 2), waitBase := leAt b 0x18 8,
                  waitSize := leAt b 0x20 8 }
  | 7 => { s with host := { h with cxlSize := (List.range 4).map fun i => min (leAt b (16 * i + 8) 8) (2 ^ 41) } }
  | 8 => { s with host := { h with lysNear := (List.range 8).map fun i => BitVec.ofNat 17 (leAt b (16 * i + 4) 4) } }
  | 9 => setLimit s (leAt b 0 2)
  | _ => s

/-- Whether a write of n bytes at o covers a register at r of size m. -/
def covers (o n r m : Nat) : Bool := o ≤ r && r + m ≤ o + n

/-- The commands a body write gives. -/
def capCommand (s : State) (host : Bool) (k o : Nat) (bs : List Byte) : State :=
  let n := bs.length
  if k = 1 && covers o n 0x10 8 then restart s (leAt bs (0x10 - o) 4 % 2 ^ 29)
  else if k = 2 && covers o n 0x28 4 then attest s (leAt bs (0x28 - o) 4)
  else if k = 3 && covers o n 0x14 4 then loadCommand s host (leAt bs (0x14 - o) 4)
  else s

/-- A write to the device-register range: headers and bodies not ready ignore it (R376), and so do the pending bits of the
MSI-X table, whose vectors are sent once they are unmasked (PRESUMED: PCI Express; log entry 91). -/
def devWrite (s : State) (host : Bool) (off : Nat) (bs : List Byte) : State :=
  if 0xF0000000 ≤ off then
    let o := off - 0xF0000000
    let t := s.host.msixTable
    if o + bs.length ≤ 512 then
      { s with host := sendPending { s.host with msixTable := t.take o ++ bs ++ t.drop (o + bs.length) } }
    else s
  else
    let k := off / 0x1000 + 1
    let o := off % 0x1000
    if 9 < k || o < 16 || !capReady s k || capLen k < o - 16 + bs.length then s
    else
      let o := o - 16
      let b := capBody s k
      capCommand (setCap s k (b.take o ++ bs ++ b.drop (o + bs.length))) host k o bs

/-! ## Register events -/

/-- REGISTER_WRITE (R376). -/
def execRegisterWrite (off : Nat) (bs : List Byte) (s : State) : Out := .next (devWrite s true off bs)

/-- DEVICE_QUEUE_ENABLE (R380): the host writes the device-queue descriptor. -/
def execDeviceQueueEnable (words : List W64) (s : State) : Out :=
  .next (devWrite s true (capOff 4 + 16) ((words.take 8).flatMap (bytesLE 8)))

/-- ATTEST_COMMAND (R383). -/
def execAttestCommand (cmd : W32) (s : State) : Out :=
  .next (devWrite s true (capOff 2 + 16 + 0x28) (bytesLE 4 cmd))

/-- The signed part of a report, in the order of R383. -/
def reportBody (s : State) : List Byte :=
  padTo 32 s.host.nonce ++ leN 4 (partCode s) ++ leN 4 s.pkg.toNat ++ padTo 64 (Config.measure Config.stageBytes) ++
  padTo 64 (Config.measure Config.firmwareBytes) ++ padTo 64 (Config.measure s.host.imgLast)

/-- ATTEST_REPORT_DONE (R383): the report into BAR4 space at its address, then an ATTEST entry. -/
def execAttestReportDone (s : State) : Out :=
  if !s.host.attBusy then .next s
  else
    let h := s.host
    let body := reportBody s
    let bs := body ++ Config.identitySign body
    let key := memKey s.pkg.toNat (h.bar4Base + h.attAddr.toNat % 2 ^ 36)
    let s := homeWrite s ((bs.zipIdx).map fun e => (key + e.2, e.1)) none
    .next (pushHost { s with host := { s.host with attBusy := false, attStatus := 0 } }
      (hostEntry s 14 0 none (leN 8 0 ++ bytesLE 8 h.attAddr)))

/-- IMAGE_LOAD_COMMAND (R384). -/
def execImageLoadCommand (cmd : W32) (s : State) : Out :=
  .next (devWrite s true (capOff 3 + 16 + 0x14) (bytesLE 4 cmd))

/-- CORE_RESTART (R389). -/
def execCoreRestart (gca : W64) (s : State) : Out := .next (devWrite s true (capOff 1 + 16 + 0x10) (bytesLE 8 gca))

/-- HOST_POWER_LIMIT (R387). -/
def execHostPowerLimit (w : BitVec 16) (s : State) : Out := .next (devWrite s true (capOff 9 + 16) (bytesLE 2 w))

/-- CAPABILITY_READY (R376): a function is ready, and stays so. -/
def execCapabilityReady (id : BitVec 16) (s : State) : Out :=
  if 1 ≤ id.toNat && id.toNat ≤ 9 then .next { s with host := { s.host with rdy := s.host.rdy ||| BitVec.ofNat 16 (2 ^ id.toNat) } }
  else .next s

/-! ## Power and temperature (R387) -/

/-- The site of an island (R17). -/
def islandSite (i : Nat) : Nat := if i < 32 then i / 4 else i - 32

/-- An island's clock one step down, never below 0.9 GHz. -/
def lowerClock (s : State) (i : Nat) : State :=
  { s with host := { s.host with clocks := s.host.clocks.set i (max 18 (s.host.clocks.getD i 36 - 1)) } }

/-- An island's clock one step up, never above 1.8 GHz; with every clock there the manager throttles no more. -/
def raiseClock (s : State) (i : Nat) : State :=
  let cs := s.host.clocks.set i (min 36 (s.host.clocks.getD i 36 + 1))
  { s with host := { s.host with clocks := cs, throttled := s.host.throttled && cs.any (· < 36) } }

/-- A POWER entry (Table 18-4). -/
def pushPower (s : State) (site event island : Nat) (temp : BitVec 16) : State :=
  pushHost s (hostEntry s 12 site none (leN 1 event ++ leN 1 island ++ bytesLE 2 s.host.limit ++ bytesLE 2 temp))

/-- POWER_LIMIT_THROTTLE: an entry goes when the manager first lowers a clock. -/
def execPowerLimitThrottle (i : Nat) (s : State) : Out :=
  if 40 ≤ i || s.host.clocks.getD i 36 ≤ 18 then .next s
  else
    let first := !s.host.throttled
    let s := lowerClock { s with host := { s.host with throttled := true } } i
    .next (if first then pushPower s 0 1 i (s.host.temps.getD i 0) else s)

/-- Record a temperature. -/
def setTemp (s : State) (i : Nat) (t : BitVec 16) : State := { s with host := { s.host with temps := s.host.temps.set i t } }

/-- THERMAL_THROTTLE at 100 °C: the island is lowered; an entry goes when it first is. A temperature below that raises it
again (log entry 87). -/
def execThermalThrottle (i : Nat) (t : BitVec 16) (s : State) : Out :=
  if 40 ≤ i then .next s
  else if t.toNat < 100 then .next (raiseClock (setTemp s i t) i)
  else
    let first := (s.host.temps.getD i 0).toNat < 100
    let s := lowerClock (setTemp s i t) i
    .next (if first then pushPower s (islandSite i) 2 i t else s)

/-- THERMAL_HALT at 110 °C: every core halts as R355 gives. -/
def execThermalHalt (i : Nat) (t : BitVec 16) (s : State) : Out :=
  if 40 ≤ i || t.toNat < 110 then .next s
  else
    let s := setTemp s i t
    let ns := (List.range 4096).filter (coreHere s)
    let s := ns.foldl haltCore s
    .next (pushPower s (islandSite i) 3 i t)

/-! ## Links and scrubbing (R385, R386) -/

/-- The site of a Lyspor link (Table 1-1). -/
def lysSite (l : Nat) : Nat := [1, 1, 2, 2, 5, 5, 6, 6].getD l 0

/-- LINK_STATE_CHANGE: the state, and a LINK entry with the old and the new one; what waited for a link goes (R386). -/
def execLinkStateChange (lyspor : Bool) (num : Nat) (st : BitVec 8) (s : State) : Out :=
  let h := s.host
  let old := if lyspor then h.lysState.getD num 0 else h.cxlState.getD num 0
  if (if lyspor then 8 else 4) ≤ num || old == st then .next s
  else
    let s := if lyspor then { s with host := { h with lysState := h.lysState.set num st } }
      else { s with host := { h with cxlState := h.cxlState.set num st } }
    .next (releaseWait <| pushHost s (hostEntry s 13 (if lyspor then lysSite num else portSite num) none
      [BitVec.ofNat 8 lyspor.toNat, BitVec.ofNat 8 num, old, st]))

/-- PATROL_SCRUB_ERROR: a corrected error is counted; another is counted and reported as a machine check. -/
def execPatrolScrubError (addr : Nat) (corrected : Bool) (syn : W64) (s : State) : Out :=
  if !paHbm addr then .next s
  else
    let site := addr / 0xC00000000
    let u := s.host.corrected
    if corrected then
      .next { s with host := { s.host with
        corrected := u.set site (if u.getD site 0 == 0xFFFFFFFF then 0xFFFFFFFF else u.getD site 0 + 1) } }
    else .next (pushMcheck (countUncorr s site) site none addr 3 syn)

/-! ## Module reset (R11, R382) -/

/-- The die map at reset. -/
def resetMap : Part → List Nat
  | .pz48 => List.range 8
  | .pz47 f => (List.range 8).filter (· != f.toNat) ++ [f.toNat]

/-- The state at module reset, before the Frellan root's steps; the part and its fuses stay, and what is the model's own
goes on. -/
def resetState (s : State) : State :=
  { State.reset with part := s.part, keysFused := s.keysFused, keysRevoked := s.keysRevoked, dieMap := resetMap s.part, agenda := s.agenda, focus := s.focus, turn := s.turn,
                     tick := s.tick, fresh := s.fresh }

/-- The field firmware's first firing, a privileged thread of ASID 0. -/
def firmwareFiring (uid : Nat) : Firing :=
  { uid := uid, ns := 64, paths := { pc := va56 Config.firmwarePc, mask := 1, pri := 4, st := 1 } :: List.replicate 7 {} }

/-- The first core of site 0's virtual die, or of the first that has cores. -/
def bootCore (s : State) : Nat := ((List.range 4096).find? (coreHere s)).getD 0

/-- Whether an object the root measures verifies under its key (R382). -/
def rootVerifies (s : State) (bytes sig : List Byte) : Bool :=
  keyUsable s Config.rootKeyIndex && Config.sigVerifies bytes Config.rootKeyIndex sig

/-- MODULE_RESET (R382): the root verifies the stage, sets the launch table base, verifies the field firmware and
starts it; where a verification fails, the later steps do not happen. -/
def execModuleReset (s : State) : Out :=
  let r := resetState s
  if !rootVerifies r Config.stageBytes Config.stageSignature then .next r
  else
    let r := { r with launchBase := Config.rootLaunchBase % 0x6000000000 / 64 * 64 }
    if !rootVerifies r Config.firmwareBytes Config.firmwareSignature then .next r
    else
      let n := bootCore r
      .next ({ r with fresh := r.fresh + 1 }.updCore n fun c => c.setFiring 0 (firmwareFiring (r.fresh + 1)))

end Sys2Proof.Machine
end

