-- ==== Sys2Proof/Machine/MemEvents.lean ====
section
/-! DEFINITION. Memory events (R194, R202, R206, R212 to R219, R226, R232, R237): deposits, data errors, walks, store-queue
entries at their points, remote requests, write-backs and losses. -/

namespace Sys2Proof.Machine

/-! ## Deposits (R194, R216) -/

/-- Whether deposit i may land: no earlier one shares a register, no store-queue entry of its instruction is left, and
its data are there. -/
def depReady (f : Firing) (i : Nat) (d : Dep) : Bool :=
  (f.deps.take i).all (fun e => d.sregs.all (fun r => !e.sregs.contains r) && d.vregs.all fun r => !e.vregs.contains r) &&
  f.sq.all (fun e => e.seq != d.seq) &&
  (match d.src with
   | .val .. => true
   | .load accs => accs.all (accReady f d.seq) && !olderLoad f d accs
   | _ => false)

/-- The words of a load's accesses, with the state after the fills they cause. -/
def loadWords (s : State) (n : Nat) (f : Firing) (d : Dep) (accs : List Acc) :
    State × List (Nat × W64) × List (Nat × W32) :=
  accs.foldl (fun r a =>
    let x := accRead r.1 n f d.seq a
    let w := depWords d.dst a.lane x.2
    (x.1, r.2.1 ++ w.1, r.2.2 ++ w.2)) (s, [], [])

/-- A deposit's words into its registers. -/
def Firing.land (f : Firing) (i : Nat) (xs : List (Nat × W64)) (vs : List (Nat × W32)) : Firing :=
  { (f.putS xs).putV vs with deps := listRemove f.deps i }

/-- DEPOSIT_LAND (R194). -/
def execDepositLand (n sl i : Nat) (s : State) : Out :=
  match s.firing n sl with
  | none => .next s
  | some f =>
    match f.deps[i]? with
    | none => .next s
    | some d =>
      if !depReady f i d then .next s
      else match d.src with
        | .val xs vs => .next (s.setFiring n sl (f.land i xs vs))
        | .load accs =>
          match accs.find? (Acc.down s n f d.seq) with
          | some a => .next (deliverBad s n sl d (keyPa a.pa))
          | none =>
            if accs.any (Acc.waits s n f d.seq) then .next s else
            let r := loadWords s n f d accs
            .next (r.1.setFiring n sl (f.land i r.2.1 r.2.2))
        | _ => .next s

/-! ## Walks (R204, R206) -/

/-- A firing's wait for a walk ends with its result: the leaf serves the held instruction, and the translation cache unless
it faults; or XLATE; or DATAERR where a CXL port did not serve an entry (R385). -/
def endWalk (s : State) (n sl : Nat) (f : Firing) (va : Nat) (acc : Access) (lane : Option Nat) : WalkRes → State
  | .fault level => takeTrap s n sl (causeAt 0x0A acc (BitVec.ofNat 64 va) lane level)
  | .down key => takeTrap s n sl (dataerr (keyPa key))
  | .leaf l =>
    let t := s.setFiring n sl { f with hold := .none, xl := f.xl ++ [l] }
    if permOk (privileged (s.core n) sl) acc l.pte (keyPa (l.key va)) then tlbInsert t n l else t

/-- PAGE_WALK_DONE: a walk that has a walker reads its entries, and every firing that waits for it gets the result (R206). -/
def execPageWalkDone (n sl : Nat) (s : State) : Out :=
  match s.firing n sl with
  | none => .next s
  | some f =>
    match f.hold with
    | .walk va acc lane =>
      let asid := (s.core n).asid
      (match s.poolWalk (siteOf s n) asid va with
       | none => .next (holdWalk s n sl f va acc lane)
       | some w =>
         if w.res.isNone && !s.walking w then .next s
         else
           let r := w.res.getD (walk s asid va)
           let t := { s with walks := s.walks.map fun x => if x = w then { w with res := some r } else x }
           .next (endWalk t n sl f va acc lane r).pruneWalks)
    | _ => .next s

/-! ## The store queue (R214, R215, R218, R232) -/

/-- Remove entry i; pending write-backs take its place (R211). -/
def dropEnt (s : State) (n sl i : Nat) : State :=
  match s.firing n sl with
  | none => s
  | some f =>
    let f := { f with sq := listRemove f.sq i }.wbFill
    if ghostSlot ≤ sl && f.sq.isEmpty && f.wbq.isEmpty then s.updCore n fun c => { c with firings := spDel c.firings sl }
    else s.setFiring n sl f

/-- A cell written by an .E store (R214, R217): at home, or into the die's copy. -/
def storeE (s : State) (n : Nat) (c : Cell) : State :=
  let site := siteOf s n
  let s := if homeSite s c.pa = site then homeWrite s [(c.pa, c.b)] (some (n, c.va / 128))
    else (copyWrite s site c.pa c.b).updCore n fun x => markDirty x (c.pa / 128)
  l1Update s n c.va c.b

/-- A cell written at home by a .G store: the die's dirty bytes first (R218), then L1 and the die's clean copy. -/
def storeG (s : State) (n : Nat) (c : Cell) : State :=
  let site := siteOf s n
  let s := writeBack s site (c.pa / 128)
  let s := homeWrite s [(c.pa, c.b)] (some (n, c.va / 128))
  copyUpdate (l1Update s n c.va c.b) site c.pa c.b

/-- A cell of a region write (R296): as an atomic, so the core's L1 line goes. -/
def storeR (s : State) (n : Nat) (c : Cell) : State :=
  let site := siteOf s n
  let s := writeBack s site (c.pa / 128)
  let s := homeWrite s [(c.pa, c.b)] none
  let s := s.updCore n fun x => x.l1Drop c.va
  copyUpdate s site c.pa c.b

/-- Cells in runs of rising addresses. -/
def runsOf : List Cell → List (Nat × List Byte)
  | [] => []
  | c :: t =>
    match runsOf t with
    | [] => [(c.pa, [c.b])]
    | (a, bs) :: rest => if a = c.pa + 1 then (c.pa, c.b :: bs) :: rest else (c.pa, [c.b]) :: (a, bs) :: rest

/-- Writes to the device-register range (R374). -/
def storeDev (s : State) (cs : List Cell) : State :=
  (runsOf cs).foldl (fun s r => devWrite s false (keyPa r.1 - 0x200000000000) r.2) s

/-- Cells written, those of memory by an operation and those of the device-register range at the register block. -/
def putCells (s : State) (put : State → Cell → State) (cs : List Cell) : State :=
  let dev := cs.filter fun c => keyPkg c.pa == s.pkg.toNat && paDev (keyPa c.pa)
  let mem := cs.filter fun c => !(keyPkg c.pa == s.pkg.toNat && paDev (keyPa c.pa))
  let s := mem.foldl put s
  if dev.isEmpty then s else storeDev s dev

/-- The cells of a store written; one of an uncached page is performed at home, in either mode (R203; log entry 98). -/
def storeCells (s : State) (n : Nat) (g unc : Bool) (cs : List Cell) : State :=
  putCells s (fun s c => if g || unc then storeG s n c else storeE s n c) cs

/-- The cells of a region write written (R296). -/
def regionCells (s : State) (n : Nat) (cs : List Cell) : State := putCells s (fun s c => storeR s n c) cs

/-- A store to a CXL port whose link is down: DATAERR at the next release (R202, R385). -/
def refuseStore (s : State) (n sl i a : Nat) : State :=
  match s.firing n sl with
  | none => s
  | some f => dropEnt (s.setFiring n sl { f with bad := some (f.bad.getD (BitVec.ofNat 64 a)) }) n sl i

/-- Bytes an entry changes at home. -/
def Ent.pas (e : Ent) : List Nat :=
  e.cells.map (·.pa) ++ match e.op with
    | .atom accs _ => accs.flatMap fun a => (List.range a.size).map (a.pa + ·)
    | _ => []

/-- The address an entry reads or changes at home. -/
def Ent.homeAddr (e : Ent) : Option Nat :=
  match e.op with
  | .atom accs _ => accs.head?.map (·.pa)
  | .rread _ pa _ _ => some pa
  | .rwrite cs => cs.head?.map (·.pa)
  | .store g unc cs => if g || unc then cs.head?.map (·.pa) else none
  | .wb line => some (line * 128)
  | _ => none

/-- Whether an entry waits for a link to another package (R386), or for room that its bytes need in the die's L2. -/
def Ent.waits (s : State) (n : Nat) (f : Firing) (e : Ent) : Bool :=
  (e.homeAddr.map (linkWait s)).getD false || captureWaits s n f e.seq e.pas ||
  (e.isE && e.pas.any fun a => homeSite s a != siteOf s n && !canCopy s (a / 128) (siteOf s n))

/-- STORE_VISIBLE (R214): a store or region write reaches its point; pending loads of the firing that stand before it
take their values first (R216). -/
def execStoreVisible (n sl i : Nat) (s : State) : Out :=
  match s.firing n sl with
  | none => .next s
  | some f =>
    match f.sq[i]? with
    | none => .next s
    | some e =>
      if !sqMayGo s n f i e || e.waits s n f then .next s
      else
        let s := captureLoads s n sl e.seq e.pas
        match e.op, e.cells.find? (fun c => portDown s c.pa) with
        | .store g unc cs, some c =>
          if g || unc || homeSite s c.pa = siteOf s n then .next (refuseStore s n sl i (keyPa c.pa))
          else .next (dropEnt (storeCells s n g unc cs) n sl i)
        | .store g unc cs, none => .next (dropEnt (storeCells s n g unc cs) n sl i)
        | .rwrite _, some c => .next (refuseStore s n sl i (keyPa c.pa))
        | .rwrite cs, none => .next (dropEnt (regionCells s n cs) n sl i)
        | _, _ => .next s

/-! ## Atomics and home operations (R237, R238) -/

/-- One atomic access at its home slice: the state and the old value. -/
def atomHome (s : State) (n : Nat) (a : AtomAcc) : State × W64 :=
  let site := siteOf s n
  let s := writeBack s site (a.pa / 128)
  let s := farSync (s.updCore n fun x => x.l1Drop a.va) a.pa a.size
  let old := s.getBs a.pa a.size
  let new := atomBytes a.size a.op a.u old a.b a.c
  let s := homeWrite s ((new.zipIdx).map fun e => (a.pa + e.2, e.1)) none
  ((new.zipIdx).foldl (fun s e => copyUpdate s site (a.pa + e.2) e.1) s, w64OfLE old)

/-- Whether an atomic brings a nonzero value to zero (R238). -/
def atomNotifies (a : AtomAcc) (old : W64) : Bool :=
  old != 0 && (atomBytes a.size a.op a.u (bytesLE a.size old) a.b a.c).all (· == 0)

/-- The notification of an atomic (R238): cookie and address. -/
def atomNotify (s : State) (tag : W32) (a : AtomAcc) (old : W64) (nz : Option (W64 × W64)) : State :=
  match nz with
  | none => s
  | some p =>
    if atomNotifies a old then sendCounted s (homeSite s a.pa) (notifyMsg p.1 tag [p.2, BitVec.ofNat 64 a.va]) else s

/-- The accesses of one entry in order: the state and the lanes' old values. -/
def atomsHome (s : State) (n : Nat) (tag : W32) (accs : List AtomAcc) (nz : Option (W64 × W64)) :
    State × List (Nat × W64) :=
  accs.foldl (fun r a =>
    let x := atomHome r.1 n a
    (atomNotify x.1 tag a x.2 nz, r.2 ++ [(a.lane, x.2)])) (s, [])

/-- What old values put into the registers of an atomic's deposit. -/
def atomWords (d : Dep) (olds : List (Nat × W64)) : List (Nat × W64) × List (Nat × W32) :=
  match d.vregs with
  | v :: _ => ([], olds.map fun e => (32 * v + e.1, e.2.setWidth 32))
  | [] => (d.sregs.flatMap fun r => (olds.take 1).map fun e => (r, e.2), [])

/-- Answer the deposit of an entry's instruction. -/
def answerEnt (s : State) (n sl seq : Nat) (g : Firing → Dep → List (Nat × W64) × List (Nat × W32)) : State :=
  match s.firing n sl with
  | none => s
  | some f =>
    match f.deps.find? (fun d => d.seq == seq) with
    | none => s
    | some d => let w := g f d; s.setFiring n sl (f.answer seq w.1 w.2)

/-- Words into a deposit's registers in order. -/
def answerRegs (s : State) (n sl seq : Nat) (ws : List W64) : State :=
  answerEnt s n sl seq fun _ d => (d.sregs.zip ws, [])

/-- What a region read gives its instruction (R303, R305, R326). -/
def regionAnswer (s : State) (n sl : Nat) (seq : Nat) (bs : List Byte) : RegUse → State
  | .refill d ray =>
    answerEnt s n sl seq fun f _ =>
      let r := refillPop (f.rayBody ray) bs
      ((d, r.1) :: (r.2.zipIdx).map fun e => (ray + e.2, e.1), [])
  | .words d k =>
    answerEnt s n sl seq fun _ _ => ((List.range k).map fun j => (d + j, w64OfLE ((bs.drop (8 * j)).take 8)), [])
  | .replay =>
    match s.firing n sl with
    | none => s
    | some f =>
      s.setFiring n sl { f with deps := f.deps.filter (·.seq != seq), hold := if f.hold = .replay then .record bs else f.hold }

/-- LVLREAD at the record's home (R279). -/
def lvlAtHome (s : State) (tag : W32) (reap : Bool) : State × List W64 :=
  let i := tagIdx tag
  if !tagHere s tag then ({ s with fresh := s.fresh + 1 }, (List.range 4).map fun j => Config.farWord s.fresh j)
  else
    let ws := (List.range 4).map fun j => recW s i (8 * j)
    let st := recState s i
    (if reap && 2 ≤ st && st ≤ 4 then homePut s (recKey s i) (List.replicate 64 0) else s, ws)

/-- An entry whose access cannot be served: DATAERR for its deposit, or at the next release where it has none. -/
def failEnt (s : State) (n sl i seq a : Nat) : State :=
  match s.firing n sl with
  | none => s
  | some f =>
    match f.deps.find? (fun d => d.seq == seq) with
    | some d => deliverBad (dropEnt s n sl i) n sl d a
    | none => refuseStore s n sl i a

/-- An operation that answers its deposit with data, which can be in error there (R212, R237, R296). -/
def Ent.reads (e : Ent) : Bool := match e.op with | .atom .. | .rread .. => true | _ => false

/-- A directory access is ordered as an atomic (R237, R311): the die's dirty bytes of the entry's line go home first, and the
issuing core's L1 lines of it are dropped. -/
def dirDrain (s : State) (n : Nat) (h : BitVec 16) : State :=
  (writeBack s (siteOf s n) (dirKey s h / 128)).updCore n fun c =>
    { c with l1d := c.l1d.filter fun x => x.pline != dirKey s h / 128 }

/-- The clean bytes of the issuing die's copy take an entry as it now is (R214). -/
def dirUpdate (s : State) (n : Nat) (h : BitVec 16) : State :=
  (List.range 32).foldl (fun t i => copyUpdate t (siteOf s n) (dirKey s h + i) (s.getB (dirKey s h + i))) s

/-- ATOMIC_AT_HOME (R237): an atomic or another operation of the queue that its home performs, and the reply. -/
def execAtomicAtHome (n sl i : Nat) (s : State) : Out :=
  match s.firing n sl with
  | none => .next s
  | some f =>
    match f.sq[i]? with
    | none => .next s
    | some e =>
      if !sqMayGo s n f i e || e.waits s n f then .next s
      else if e.reads && (e.homeAddr.map (portDown s)).getD false then .next (failEnt s n sl i e.seq (keyPa (e.homeAddr.getD 0)))
      else match e.op with
        | .atom accs nz =>
          let s := captureLoads s n sl e.seq e.pas
          let r := atomsHome s n f.ltag accs nz
          .next (dropEnt (answerEnt r.1 n sl e.seq fun _ d => atomWords d r.2) n sl i)
        | .rread va pa len use =>
          let r := homeRead ((writeBack s (siteOf s n) (pa / 128)).updCore n fun x => x.l1Drop va) pa len
          .next (dropEnt (regionAnswer r.1 n sl e.seq r.2 use) n sl i)
        | .dirRead h =>
          let r := dirRead (dirDrain s n h) n h
          .next (dropEnt (answerRegs r.1 n sl e.seq r.2) n sl i)
        | .dirWrite h ws => .next (dropEnt (dirUpdate (dirWrite (dirDrain s n h) h ws) n h) n sl i)
        | .thaw h slot =>
          let r := thawAtHome (dirDrain s n h) n f.uid e.seq h slot
          .next (dropEnt (match r.2 with
            | some k => answerRegs r.1 n sl e.seq [BitVec.ofNat 64 k]
            | none => r.1) n sl i)
        | .evict slot =>
          let r := evictSlot s n slot
          .next (dropEnt (answerRegs r.1 n sl e.seq [BitVec.ofNat 64 r.2]) n sl i)
        | .lvl tag reap =>
          if tagEnding s tag || (!tagHere s tag && !linkUp s) then .next s
          else
            let r := lvlAtHome s tag reap
            .next (dropEnt (answerRegs r.1 n sl e.seq r.2) n sl i)
        | _ => .next s

/-! ## Remote scratchpad requests (R201, R202, R240) -/

/-- The target of a deposit or entry, if it is a remote request. -/
def Dep.target (d : Dep) : Option Nat := match d.src with | .ldx g _ _ => some g | _ => none
def Ent.target (e : Ent) : Option Nat := match e.op with | .stx g _ _ => some g | .atoms g _ _ _ _ _ => some g | _ => none

/-- Whether an earlier remote request of the firing to a target is unserved (R202). -/
def olderRemote (f : Firing) (seq g : Nat) : Bool :=
  f.deps.any (fun d => d.seq < seq && d.target == some g) || f.sq.any fun e => e.seq < seq && e.target == some g

/-- Whether a target core serves requests now: one that is pre-empted or restoring lets them wait (R202), as does one that
consumes nothing of channel 1 while an entry waits for its cancel filter (R281), and another package while no link is up
(R386). -/
def serves (s : State) (g : Nat) : Bool :=
  let c := s.core (g % 4096)
  if g / 4096 != s.pkg.toNat then linkUp s else c.cstate != 2 && c.cstate != 3 && c.filterWait.isEmpty

/-- Whether a request at bytes [off, off + size) of a target's scratchpad is refused (R201). Whether another package refuses
one is free (log entry 12). -/
def refuses (s : State) (g off size : Nat) : Bool :=
  if g / 4096 != s.pkg.toNat then Config.farRefuses s.fresh else (s.core (g % 4096)).inWs off size

/-- A machine-check record of the scratchpad unit, for a request of core n to a target (R202, R212). -/
def mcheckPad (s : State) (n g off : Nat) : State :=
  let site := if g / 4096 != s.pkg.toNat then siteOf s n else siteOf s (g % 4096)
  pushMcheck { s with fresh := s.fresh + 1 } site (some n) off 1 (Config.syndrome s.fresh)

/-- Serve an LDX: its bytes, or its refusal. Another package's answer is free (log entry 12). -/
def serveLdx (s : State) (n sl : Nat) (d : Dep) (g off size : Nat) : State :=
  let give := fun (s : State) (bs : List Byte) =>
    let w := depWords d.dst 0 bs
    match s.firing n sl with
    | none => s
    | some f => s.setFiring n sl (f.answer d.seq w.1 w.2)
  if refuses s g off size then deliverBad (mcheckPad s n g off) n sl d off
  else if g / 4096 != s.pkg.toNat then
    give { s with fresh := s.fresh + 1 } ((bytesLE 8 (Config.farWord s.fresh 0) ++ bytesLE 8 (Config.farWord s.fresh 1)).take size)
  else give s ((s.core (g % 4096)).getBs off size)

/-- Serve a queue entry: STX or remote ATOMS. A refused ATOMS answers its deposit with DATAERR, with D = 0 too (log entry 54). -/
def serveEnt (s : State) (n sl i : Nat) (e : Ent) : State :=
  match e.op with
  | .stx g off bs =>
    if refuses s g off bs.length then refuseStore { s with fresh := s.fresh + 1 } n sl i off
    else if g / 4096 != s.pkg.toNat then dropEnt { s with fresh := s.fresh + 1 } n sl i
    else dropEnt (s.updCore (g % 4096) fun c => c.putBs off bs) n sl i
  | .atoms g off size op u b =>
    if refuses s g off size then failEnt (mcheckPad s n g off) n sl i e.seq off
    else if g / 4096 != s.pkg.toNat then
      dropEnt (answerRegs { s with fresh := s.fresh + 1 } n sl e.seq
        [if size = 4 then (Config.farWord s.fresh 0) &&& 0xFFFFFFFF else Config.farWord s.fresh 0]) n sl i
    else
      let old := (s.core (g % 4096)).getBs off size
      let s := s.updCore (g % 4096) fun c => c.putBs off (atomBytes size op u old b 0)
      dropEnt (answerRegs s n sl e.seq [w64OfLE old]) n sl i
  | _ => s

/-- Whether entry i, a remote request, may be served now. -/
def mayServe (s : State) (n : Nat) (f : Firing) (i : Nat) (e : Ent) (g : Nat) : Bool :=
  !olderRemote f e.seq g && serves s g && sqMayGo s n f i e

/-- REMOTE_REQUEST_SERVE (R202). -/
def execRemoteRequestServe (n sl : Nat) (sel : RemoteSel) (s : State) : Out :=
  match s.firing n sl with
  | none => .next s
  | some f =>
    match sel with
    | .load i =>
      (match f.deps[i]? with
       | none => .next s
       | some d => match d.src with
         | .ldx g off size => if olderRemote f d.seq g || !serves s g then .next s else .next (serveLdx s n sl d g off size)
         | _ => .next s)
    | .store i =>
      match f.sq[i]? with
      | none => .next s
      | some e => match e.target with
        | none => .next s
        | some g => if mayServe s n f i e g then .next (serveEnt s n sl i e) else .next s

/-! ## Data in error (R212) -/

/-- The MCHECK unit of an error at a home: its L2, or the memory behind it, HBM or a CXL port; which of the two is free. What
lies behind the host window is no unit of the table, so that an error there is the L2's. -/
def errUnit (s : State) (pa : Nat) : Nat := if paHost pa || Config.errInL2 s.fresh then 2 else if paCxl pa then 6 else 3
def errSite (s : State) (n key : Nat) : Nat := let h := homeSite s key; if h < 8 then h else siteOf s n

/-- An uncorrectable error that core n met at a unit of a site: the count of errors corrected by ECC where that unit has one,
L1, the scratchpad, L2 or HBM (R212), and the machine-check record. -/
def mcheckErr (s : State) (site n pa unit : Nat) : State :=
  pushMcheck { if unit ≤ 3 then countUncorr s site else s with fresh := s.fresh + 1 } site (some n) pa unit (Config.syndrome s.fresh)

/-- An uncorrectable error at the home of a key. -/
def mcheckAt (s : State) (n key : Nat) : State := mcheckErr s (errSite s n key) n (keyPa key) (errUnit s (keyPa key))

/-- An uncorrectable error of data that core n's die reads: at its own site where its L2 has a copy of the bytes. -/
def mcheckDie (s : State) (n key size : Nat) : State :=
  if copyHas s (siteOf s n) key size then mcheckErr s (siteOf s n) n (keyPa key) 2 else mcheckAt s n key

/-- The machine-check record of a load's access in error: unit 0 where its line is in L1. -/
def mcheckLoad (s : State) (n : Nat) (a : Acc) : State :=
  if a.unc then mcheckAt s n a.pa
  else if ((s.core n).l1For a.va a.pa).isSome then mcheckErr s (siteOf s n) n (keyPa a.pa) 0
  else mcheckDie s n a.pa a.size

/-- Whether an access of a load brings data that can be in error now: they come from no store of the firing and from no
device register, and nothing keeps them. -/
def Acc.canErr (s : State) (n : Nat) (f : Firing) (seq : Nat) (a : Acc) : Bool :=
  a.got.isNone && !paDev (keyPa a.pa) && !a.forwarded f seq && !a.down s n f seq && !a.waits s n f seq

/-- The machine-check record of an uncorrectable error in a target's scratchpad (R202, R212); another package keeps its own. -/
def mcheckFar (s : State) (n g off : Nat) : State :=
  if g / 4096 != s.pkg.toNat then s else mcheckPad (countUncorr s (siteOf s (g % 4096))) n g off

/-- Whether entry i of a deposit's instruction reads data, at home or at a target, that can be in error now. -/
def canErr (s : State) (n : Nat) (f : Firing) (d : Dep) (i : Nat) (e : Ent) : Bool :=
  e.seq == d.seq && match e.op with
    | .atoms g _ _ _ _ _ => mayServe s n f i e g
    | _ => e.reads && sqMayGo s n f i e && !e.waits s n f

/-- The data that an entry of the deposit's instruction reads are in error. -/
def errEnt (s : State) (n sl i : Nat) (d : Dep) (e : Ent) : State :=
  match e.op with
  | .atoms g off _ _ _ _ => deliverBad (dropEnt (mcheckFar s n g off) n sl i) n sl d off
  | _ =>
    let a := e.homeAddr.getD 0
    deliverBad (dropEnt (mcheckAt s n a) n sl i) n sl d (keyPa a)

/-- The sampler request of a deposit. -/
def Core.sampOf (c : Core) (sl : Nat) (d : Dep) : Option SampReq := c.sampQ.find? fun q => q.slot == sl && q.seq == d.seq

/-- A sampler request ends in an error of its texels (R212, R343). -/
def errSamp (s : State) (n sl : Nat) (d : Dep) (q : SampReq) (key : Nat) (t : State → State) : State :=
  deliverBad (t (s.updCore n fun c => { c with sampQ := c.sampQ.erase q })) n sl d (keyPa key)

/-- DATAERR_DELIVERY (R212): the data of deposit i are in error; or an error met while the firing was stopped is
delivered. -/
def execDataerrDelivery (n sl i : Nat) (s : State) : Out :=
  match s.firing n sl with
  | none => .next s
  | some f =>
    match f.deps[i]? with
    | none => .next s
    | some d =>
      let ent := (f.sq.zipIdx).find? fun e => canErr s n f d e.2 e.1
      match d.src, ent with
      | .bad a, _ => if f.stopped then .next s else .next (deliverBad s n sl d a)
      | .load accs, _ =>
        (match accs.find? (Acc.canErr s n f d.seq) with
         | none => .next s
         | some a => if depReady f i d then .next (deliverBad (mcheckLoad s n a) n sl d (keyPa a.pa)) else .next s)
      | .ldx g off _, _ =>
        if olderRemote f d.seq g || !serves s g then .next s else .next (deliverBad (mcheckFar s n g off) n sl d off)
      | _, some e => .next (errEnt s n sl e.2 d e.1)
      | .val .., none =>
        (match d.spad with
         | some off => .next (deliverBad (mcheckFar s n (gcaOf s n) off) n sl d off)
         | none => .next s)
      | .unit, none =>
        match (s.core n).sampOf sl d with
        | some q => (match q.xl.head? with
          | some l => .next (errSamp s n sl d q (l.2.1 * 128) fun s => mcheckDie s n (l.2.1 * 128) 128)
          | none => .next s)
        | none => .next s

/-- LDX_REPLY_TIMEOUT (R202). -/
def execLdxReplyTimeout (n sl i : Nat) (s : State) : Out :=
  match (s.firing n sl).bind (fun f => f.deps[i]?) with
  | none => .next s
  | some d => match d.src with
    | .ldx _ off _ => .next (deliverBad s n sl d off)
    | _ => .next s

/-! ## Write-backs (R215, R219, R226) -/

/-- L2_COPY_EVICTION (R219): a copy whose dirty bytes cannot go home stays. -/
def execL2CopyEviction (site line : Nat) (s : State) : Out :=
  if (s.copy line site).any (fun c => homeward s line || !c.isDirty) then .next (evictCopy s site line) else .next s

/-- The place of a firing's write-back entry of a line that may go. -/
def wbAt (s : State) (n : Nat) (f : Firing) (line : Nat) : Option Nat :=
  ((f.sq.zipIdx).find? fun e => e.1.op == .wb line && sqMayGo s n f e.2 e.1).map (·.2)

/-- Every write-back entry of a line at a core reaches its point. -/
def wbDrop (s : State) (n line : Nat) : State :=
  ((s.core n).firings.map (·.1)).foldl (fun s sl =>
    match (s.firing n sl).bind (fun f => wbAt s n f line) with
    | some i => dropEnt s n sl i
    | none => s) s

/-- Whether a firing has a cross-die release in progress. -/
def Firing.relCross (f : Firing) : Bool := f.rel.any Rel.cross || f.relMore.any Rel.cross

/-- Whether a core has a cross-die release in progress: a firing's, or that of a swap (R226, R231). -/
def Core.crossing (c : Core) : Bool := c.swapping || c.firings.any fun e => e.2.relCross

/-- The lines that a cross-die release of core n writes back: its dirty list, and after an overflow every dirty copy line of
its die (R226). -/
def releaseLines (s : State) (n : Nat) : List Nat :=
  let c := s.core n
  c.dirty ++ (if c.dirtyOvf then (dirtyLines s (siteOf s n)).filter fun l => !c.dirty.contains l else [])

/-- WRITEBACK_ACK (R215, R219): a line of a cross-die release in progress, or of an L2WB entry, is at home. -/
def execWritebackAck (n line : Nat) (s : State) : Out :=
  let c := s.core n
  let due := (c.crossing && (releaseLines s n).contains line) || c.firings.any fun e => (wbAt s n e.2 line).isSome
  if !due || !homeward s line then .next s
  else
    let s := wbDrop s n line
    .next ((writeBack s (siteOf s n) line).updCore n fun c => { c with dirty := c.dirty.filter (· != line) })

/-! ## Acknowledgement losses (R232, R359) -/

/-- The granules of a list of addresses, in order of first touch, with whether the fabric applied each. -/
def granules (as : List Nat) : List Nat := (as.map (· / 8)).eraseDups

def wasApplied (gs : List Nat) (applied : List Bool) (a : Nat) : Bool :=
  ((gs.zip applied).find? fun e => e.1 == a / 8).map (·.2) == some true

/-- The loss recorded: LOSS, the first address, and the count (Table 17-3); the entries on their way then are marked (R232); a
killed firing's goes to the host queue. -/
def recordLoss (s : State) (n sl : Nat) (a : W64) : State :=
  match s.firing n sl with
  | none => s
  | some f =>
    if ghostSlot ≤ sl then pushDelivery s (siteOf s n) (some n) [] 14 0
    else s.setFiring n sl { f with
      sq := if f.loss then f.sq else (f.sq.zipIdx).map fun e => { e.1 with sent := sqMayGo s n f e.2 e.1 },
      loss := true, laddr := if f.loss then f.laddr else a, lcnt := f.lcnt + 1 }

/-- Drop the deposit of a lost entry: its answer will not come. -/
def dropDep (s : State) (n sl seq : Nat) : State :=
  match s.firing n sl with
  | none => s
  | some f => s.setFiring n sl { f with deps := f.deps.filter fun d => !(d.seq == seq && d.src == .unit) }

/-- What the fabric applied of a lost entry, and the lost address; none for an entry that cannot be lost. -/
def lossEffect (s : State) (n : Nat) (tag : W32) (e : Ent) (applied : List Bool) : Option (State × W64) :=
  let pick := fun (cs : List Cell) => cs.filter fun c => wasApplied (granules (cs.map (·.pa))) applied c.pa
  let va := fun (cs : List Cell) => BitVec.ofNat 64 (((cs.head?).map (·.va)).getD 0)
  match e.op with
  | .store g unc cs => if g || unc then some (storeCells s n g unc (pick cs), va cs) else none
  | .rwrite cs => some (regionCells s n (pick cs), va cs)
  | .atom accs nz =>
    let gs := granules (accs.map (·.pa))
    some ((atomsHome s n tag (accs.filter fun a => wasApplied gs applied a.pa) nz).1,
      BitVec.ofNat 64 (((accs.head?).map (·.va)).getD 0))
  | .stx g off bs =>
    let gs := granules ((List.range bs.length).map (off + ·))
    let s' := if g / 4096 != s.pkg.toNat then s else
      s.updCore (g % 4096) fun c => (bs.zipIdx).foldl (fun c b =>
        if wasApplied gs applied (off + b.2) then c.putBs (off + b.2) [b.1] else c) c
    some (s', BitVec.ofNat 64 off)
  | .atoms g off size op u b =>
    let s' := if g / 4096 != s.pkg.toNat || !wasApplied [off / 8] applied off then s else
      s.updCore (g % 4096) fun c => c.putBs off (atomBytes size op u (c.getBs off size) b 0)
    some (s', BitVec.ofNat 64 off)
  | _ => none

/-- A lost write-back of a line: the granules the fabric applied are home, the others keep their old value there. -/
def lossLine (s : State) (n line : Nat) (applied : List Bool) : State :=
  let site := siteOf s n
  match s.copy line site with
  | none => s
  | some c =>
    let keep := fun i => c.dirty.getLsbD i && applied.getD (i / 8) false
    let cells := (List.range 128).filterMap fun i => if keep i then some (line * 128 + i, c.data.getD i 0) else none
    (homeWrite s cells none).setCopy line site { c with dirty := 0 }

/-- Whether a firing pushed the last entry of the batch being written (R267). -/
def Proxy.pushedBy (p : Proxy) (uid : Nat) : Bool :=
  match p.batch with
  | none => false
  | some b => p.owners.any fun o => o.1 + 1 == b.first + b.n && o.2.1 == uid

/-- ACK_LOSS_TIMEOUT (R232): entry i, or past the queue a line of a cross-die release in progress, or past those lines a
batch of the forwarding engine whose last entry the firing pushed (R267), is retired unacknowledged and the loss recorded;
`applied` says of each granule whether the fabric applied it. A write-back has no virtual address: its record gives the
line's physical one (log entry 31). -/
def execAckLossTimeout (n sl i : Nat) (applied : List Bool) (s : State) : Out :=
  match s.firing n sl with
  | none => .next s
  | some f =>
    let ls := releaseLines s n
    let rel := (s.core n).swapping || f.relCross
    match f.sq[i]?, ls[i - f.sq.length]?, (s.core n).proxies[i - f.sq.length - ls.length]? with
    | some e, _, _ =>
      if !sqMayGo s n f i e || captureWaits s n f e.seq e.pas then .next s
      else (match e.op with
        | .wb line => .next (dropEnt (recordLoss (lossLine s n line applied) n sl (BitVec.ofNat 64 (keyPa (line * 128)))) n sl i)
        | _ => match lossEffect (captureLoads s n sl e.seq e.pas) n f.ltag e applied with
          | none => .next s
          | some r => .next (dropDep (dropEnt (recordLoss r.1 n sl r.2) n sl i) n sl e.seq))
    | none, some line, _ =>
      if !rel then .next s
      else
        let s := (lossLine s n line applied).updCore n fun c => { c with dirty := c.dirty.filter (· != line) }
        .next (recordLoss s n sl (BitVec.ofNat 64 (keyPa (line * 128))))
    | none, none, some p =>
      if p.pushedBy f.uid then
        .next (recordLoss (s.setCore n ((s.core n).setProxy { p with batch := none, stopped := true })) n sl ((s.core n).getW p.off))
      else .next s
    | none, none, none => .next s

end Sys2Proof.Machine
end

