-- ==== Sys2Proof/Machine/EngineEvents.lean ====
section
/-! DEFINITION. Events of the copy engine (R329 to R337), the sampler (R343 to R345) and the forwarding engine (R267). -/

namespace Sys2Proof.Machine

/-! ## Translation for an engine -/

/-- Where an engine's access to an address of an ASID lands: key and whether uncached, or the trap code (R209), DATAERR where
a CXL port does not serve an entry of the tables (R385). -/
def engXlate (s : State) (n : Nat) (asid : BitVec 16) (priv : Bool) (k : Access) (va : Nat) : Except Nat (Nat × Bool) :=
  let go := fun (l : Leaf) =>
    if permOk priv k l.pte (keyPa (l.key va)) then .ok (l.key va, pteUnc l.pte) else .error 0x0B
  match (s.core n).tlb.find? (fun l => l.covers asid va) with
  | some l => go l
  | none => match walkAt s n asid va with
    | .leaf l => go l
    | .fault _ => .error 0x0A
    | .down _ => .error 0x0E

/-! ## The copy engine -/

/-- Address of granule pos of an operand. -/
def granVa (w : W64) (pos : Nat) : Nat := (va56 (w + BitVec.ofNat 64 (8 * pos))).toNat

/-- One side of a granule: what it meets, if anything: a trap code with its address, or a wait at a core that does not
serve now. -/
inductive Side | ok | wait | bad (code va : Nat)
  deriving DecidableEq, Repr

/-- Test one side of granule pos (R335, R337). -/
def sideOf (s : State) (n : Nat) (c : Cmd) (sp : Nat) (w : W64) (write : Bool) : Side :=
  match sp with
  | 0 =>
    let va := granVa w c.pos
    (match engXlate s n c.asid (!c.user) (if write then .write else .read) va with
     | .error code => .bad code va
     | .ok (key, unc) =>
       if !write && !unc && copyHas s (siteOf s n) key 8 then .ok
       else if portDown s key then .bad 0x0E va else if linkWait s key then .wait else .ok)
  | 2 =>
    let g := farCore w
    let off := farOff w + 8 * c.pos
    if !serves s g then .wait
    else if refuses s g off 8 then .bad 0x0E off
    else .ok
  | _ => .ok

/-- What the source of granule pos meets. -/
def srcSide (s : State) (n : Nat) (c : Cmd) : Side := if c.fill then .ok else sideOf s n c c.ss.toNat c.src false

/-- What granule pos of a command meets: its source first. -/
def granSide (s : State) (n : Nat) (c : Cmd) : Side :=
  match srcSide s n c with
  | .ok => sideOf s n c c.ds.toNat c.dst true
  | x => x

/-- The bytes of granule pos. -/
def granRead (s : State) (n : Nat) (c : Cmd) : State × List Byte :=
  if c.fill then (s, bytesLE 8 c.src)
  else match c.ss.toNat with
    | 0 =>
      (match engXlate s n c.asid (!c.user) .read (granVa c.src c.pos) with
       | .ok (key, unc) => dieRead s (siteOf s n) key 8 unc
       | .error _ => (s, []))
    | 1 => (s, bytesLE 8 ((s.core n).granW (c.src.toNat + 8 * c.pos)))
    | _ =>
      let g := farCore c.src
      if g / 4096 == s.pkg.toNat then (s, (s.core (g % 4096)).getBs (farOff c.src + 8 * c.pos) 8)
      else ({ s with fresh := s.fresh + 1 }, bytesLE 8 (Config.farWord s.fresh 0))

/-- A line that command k of context i has written is noted for its TLWAIT (R339); commands are numbered from 1. -/
def Core.noteWrite (c : Core) (i k vline : Nat) : Core :=
  let x := c.ctx i
  if k = 0 || x.wrote.contains (k, vline) then c else c.setCtx i { x with wrote := x.wrote ++ [(k, vline)] }

/-- Write granule pos of context i's command: a global one drops the core's L1 line and updates the die's clean copy (R335). -/
def granWrite (s : State) (n i : Nat) (c : Cmd) (bs : List Byte) : State :=
  match c.ds.toNat with
  | 0 =>
    let va := granVa c.dst c.pos
    (match engXlate s n c.asid (!c.user) .write va with
     | .ok (key, _) =>
       let cs := (bs.zipIdx).map fun e => ({ va := va + e.2, pa := key + e.2, b := e.1 } : Cell)
       let s := s.updCore n fun x => x.noteWrite i c.n.toNat (va / 128)
       regionCells s n cs
     | .error _ => s)
  | 1 => s.updCore n fun x => x.setGranW (c.dst.toNat + 8 * c.pos) (w64OfLE bs)
  | _ =>
    let g := farCore c.dst
    if g / 4096 == s.pkg.toNat then s.updCore (g % 4096) fun x => x.putBs (farOff c.dst + 8 * c.pos) bs
    else { s with fresh := s.fresh + 1 }

/-- The head command of a context. -/
def Core.cmd (c : Core) (i : Nat) : Option Cmd := (c.ctx i).q.head?

def setCmd (s : State) (n i : Nat) (m : Cmd) : State :=
  s.updCore n fun c => let x := c.ctx i; c.setCtx i { x with q := m :: x.q.drop 1 }

/-- Move up to k granules, up to the first that meets something. -/
def runBeat : Nat → State → Nat → Nat → State
  | 0, s, _, _ => s
  | k + 1, s, n, i =>
    match (s.core n).cmd i with
    | none => s
    | some m =>
      if m.len ≤ 8 * m.pos || granSide s n m != .ok then s
      else
        let r := granRead s n m
        runBeat k (setCmd (granWrite r.1 n i m r.2) n i { m with pos := m.pos + 1 }) n i

/-- Whether context i has a granule to move. -/
def canMove (s : State) (n i : Nat) : Bool :=
  match (s.core n).cmd i with
  | none => false
  | some m => 8 * m.pos < m.len && granSide s n m == .ok

/-- The context whose beat is next: round robin among those that can move (R329). -/
def nextCtx (s : State) (n : Nat) : Option Nat :=
  ((List.range 4).map fun j => ((s.core n).ectx + j) % 4).find? (canMove s n)

/-- ENGINE_COMMAND_START (R329, R335): one 64-byte beat of a context's oldest command, where it is that context's turn. -/
def execEngineCommandStart (n i : Nat) (s : State) : Out :=
  if nextCtx s n = some i then .next ((runBeat 8 s n i).updCore n fun c => { c with ectx := (i + 1) % 4 }) else .next s

/-- The end of the head command: the counter, and its notification (R336). -/
def endCmd (s : State) (n i : Nat) (m : Cmd) (status : Nat) : State :=
  let s := s.updCore n fun c => let x := c.ctx i; c.setCtx i { x with c := m.n, q := x.q.drop 1 }
  match m.nt with
  | none => s
  | some p =>
    if m.supp then s
    else if (s.core n).filtered m.ltag then countDiscard s n m.ltag
    else sendHw s (notifyMsg p.1 m.ltag [p.2, m.n, BitVec.ofNat 64 status])

/-- ENGINE_COMMAND_COMPLETE (R335). -/
def execEngineCommandComplete (n i : Nat) (s : State) : Out :=
  match (s.core n).cmd i with
  | none => .next s
  | some m => if m.len ≤ 8 * m.pos then .next (endCmd s n i m 0) else .next s

/-- An error enters the context's record: the first one whole, a later one in the overflow count (R337). -/
def Ctx.record (x : Ctx) (f : W64) (code va : Nat) : Ctx :=
  if x.err = 0 then { x with err := BitVec.ofNat 64 (code * 2 ^ 56) ||| (f &&& 0x0000FFFFFFFFFFFF), addr := BitVec.ofNat 64 va }
  else if fld x.err 48 8 = 255 then x else { x with err := x.err + 0x0001000000000000 }

/-- A command stops with an error and counts as complete (R337). -/
def failCmd (s : State) (n i : Nat) (m : Cmd) (code va : Nat) : State :=
  let s := s.updCore n fun c => c.setCtx i ((c.ctx i).record m.n code va)
  let s := if code = 0x0E then
      pushMcheck { s with fresh := s.fresh + 1 } (siteOf s n) (some n) (match engXlate s n m.asid true .read va with
        | .ok (key, _) => keyPa key | .error _ => va) 5 (Config.syndrome s.fresh) else s
  endCmd s n i m code

/-- The address of the next granule of an operand, as an error record gives it. -/
def granAddr (sp : BitVec 2) (w : W64) (pos : Nat) : Nat := if sp = 0 then granVa w pos else farOff w + 8 * pos

/-- The address at which the next granule meets an uncorrectable error or a lost reply: its source's, where that is global or
remote; else its destination's, where that is global; where both could be, either. -/
def dataErrAt (s : State) (m : Cmd) : Option Nat :=
  let src := if m.fill || m.ss = 1 then none else some (granAddr m.ss m.src m.pos)
  let dst := if m.ds = 0 then some (granVa m.dst m.pos) else none
  match src, dst with
  | some a, some b => some (if Config.errOnWrite s.fresh then b else a)
  | some a, none => some a
  | none, b => b

/-- The site whose count of uncorrectable errors rises with such an error of the next granule: that of the die's own copy, of
the home or of the target. -/
def granErrSite (s : State) (n : Nat) (m : Cmd) : Nat :=
  if !m.fill && m.ss = 2 then
    (if farCore m.src / 4096 = s.pkg.toNat then siteOf s (farCore m.src % 4096) else siteOf s n)
  else match engXlate s n m.asid true .read (granVa (if !m.fill && m.ss = 0 then m.src else m.dst) m.pos) with
    | .ok (key, _) => if !m.fill && m.ss = 0 && copyHas s (siteOf s n) key 8 then siteOf s n else errSite s n key
    | .error _ => siteOf s n

/-- ENGINE_COMMAND_ERROR (R337): the next granule's fault or refusal, an uncorrectable error of its read or write, or a lost
acknowledgement of its write, after which the granule holds its old value or the new one. While an access of it waits at its
target, the reply of its read or the acknowledgement of its write can be lost (R202, R386). -/
def execEngineCommandError (n i : Nat) (code : BitVec 8) (s : State) : Out :=
  match (s.core n).cmd i with
  | none => .next s
  | some m =>
    let t := { s with fresh := s.fresh + 1 }
    if m.len ≤ 8 * m.pos then .next s
    else match granSide s n m with
      | .wait =>
        let read := srcSide s n m = .wait
        if code = 0x0E && read then .next (failCmd t n i m 0x0E (granAddr m.ss m.src m.pos))
        else if code = 0x0D && !read then .next (failCmd t n i m 0x0D (granAddr m.ds m.dst m.pos))
        else .next s
      | .bad k va => if code.toNat = k then .next (failCmd t n i m k va) else .next s
      | .ok =>
        if code = 0x0E then
          (match dataErrAt s m with
           | some a => .next (failCmd (countUncorr t (granErrSite s n m)) n i m 0x0E a)
           | none => .next s)
        else if code = 0x0D && m.ds != 1 then
          let r := granRead t n m
          .next (failCmd (if Config.lossApplied s.fresh then granWrite r.1 n i m r.2 else t) n i m 0x0D (granAddr m.ds m.dst m.pos))
        else .next s

/-! ## The sampler (R343 to R345) -/

/-- A line of the sampler cache, filled from the die's L2 on a miss; an uncached page is read at home. -/
def sampLine (s : State) (n vline pline : Nat) (unc : Bool) : State × List Byte :=
  let c := s.core n
  match (if unc then none else c.samp.find? fun x => x.vline == vline && x.asid == c.asid) with
  | some x => (s, x.data)
  | none =>
    let r := dieRead s (siteOf s n) (pline * 128) 128 unc
    if unc then r
    else
      let keep := if Config.sampLines ≤ c.samp.length then listRemove c.samp (pickVictim s 3 c.samp.length) else c.samp
      ({ r.1.updCore n fun c => { c with samp := keep ++ [⟨vline, c.asid, r.2⟩] } with fresh := s.fresh + 1 }, r.2)

/-- The lines of a request: each virtual line with its bytes. -/
def sampFill (s : State) (n : Nat) (xl : List (Nat × Nat × Bool)) : State × List (Nat × List Byte) :=
  xl.foldl (fun r l => let x := sampLine r.1 n l.1 l.2.1 l.2.2; (x.1, r.2 ++ [(l.1, x.2)])) (s, [])

/-- A texel's bytes among filled lines. -/
def texelOf (ls : List (Nat × List Byte)) (va size : Nat) : List Byte :=
  match ls.find? (fun l => l.1 == va / 128) with
  | some l => (l.2.drop (va % 128)).take size
  | none => List.replicate size 0

/-- The four channels of one lane's operands. -/
def laneSample (q : SampReq) (ls : List (Nat × List Byte)) (u v : W32) : List W32 :=
  match taps q.desc q.fetch u v with
  | none => List.replicate 4 0x7FC00000
  | some ts => sampleLane q.desc (ts.map fun t => (texelOf ls (texelVa q.desc t.1.1 t.1.2) (texelSize (sdFmt q.desc)), t.2))

/-- Whether a line of a request has to be read at its home: neither the sampler's cache nor the die's copy holds it. -/
def sampHome (s : State) (n : Nat) (l : Nat × Nat × Bool) : Bool :=
  l.2.2 || !(((s.core n).samp.any fun x => x.vline == l.1 && x.asid == (s.core n).asid) || copyHas s (siteOf s n) (l.2.1 * 128) 128)

/-- SAMPLER_SERVICE: the oldest request's lanes; a line of a CXL port whose link is down is a data error (R385). -/
def execSamplerService (n : Nat) (s : State) : Out :=
  let c := s.core n
  match c.sampQ with
  | [] => .next s
  | q :: rest =>
    if q.xl.any fun l => linkWait s (l.2.1 * 128) && sampHome s n l then .next s else
    let s := s.setCore n { c with sampQ := rest }
    match c.firing q.slot with
    | none => .next s
    | some f =>
      match q.xl.find? (fun l => portDown s (l.2.1 * 128) && sampHome s n l), f.deps.find? (fun d => d.seq == q.seq) with
      | some l, some d => .next (deliverBad s n q.slot d (keyPa (l.2.1 * 128)))
      | _, _ =>
        let r := sampFill s n q.xl
        let vs := q.args.flatMap fun a => ((laneSample q r.2 a.2.1 a.2.2).zipIdx).map fun e => (32 * (q.d + e.2) + a.1, e.1)
        .next (match r.1.firing n q.slot with
          | some f => r.1.setFiring n q.slot (f.answer q.seq [] vs)
          | none => r.1)

/-! ## The forwarding engine (R267) -/

/-- How many entries the engine may take into a batch: 4 KiB waiting, or the marked ones, of those pushed. -/
def batchSize (q : QDesc) (p : Proxy) : Nat :=
  let full := 4096 / q.entryBytes
  if full ≤ q.pushed - q.sent then full else min (min p.marked q.pushed - q.sent) full

/-- The order of a descriptor's oldest unsent entry. -/
def Proxy.since (p : Proxy) : Nat := match p.owners with | o :: _ => o.2.2 | [] => 0

/-- A descriptor stops, with a DELIVERY entry. -/
def stopProxy (s : State) (n : Nat) (p : Proxy) (reason va : Nat) : State :=
  let s := s.updCore n fun c => c.setProxy { p with batch := none, stopped := true }
  pushDelivery s (siteOf s n) (some n) [] reason va

/-- The firing that pushed the last entry of a batch. -/
def Proxy.lastPusher (p : Proxy) (b : Batch) : Option Nat := (p.owners.find? fun o => o.1 + 1 == b.first + b.n).map (·.2.1)

/-- A descriptor stops at a CXL port whose link is down: DATAERR at the next release of the firing that pushed the batch's
last entry (R385; log entry 88). -/
def failProxy (s : State) (n : Nat) (p : Proxy) (b : Batch) (a : Nat) : State :=
  let s := s.updCore n fun c => c.setProxy { p with batch := none, stopped := true }
  match (p.lastPusher b).bind (s.core n).slotOf with
  | none => s
  | some sl => match s.firing n sl with
    | none => s
    | some f => s.setFiring n sl { f with bad := some (f.bad.getD (BitVec.ofNat 64 a)) }

/-- What a step of a batch meets: it goes on; it waits for its target; its descriptor stops for a reason at an address; or a
port does not serve an address. -/
inductive Fwd (α : Type) | ok (x : α) | wait | stop (reason va : Nat) | down (a : Nat)

/-- Go on with what a step gave. -/
def Fwd.andThen {α β : Type} (x : Fwd α) (g : α → Fwd β) : Fwd β :=
  match x with
  | .ok a => g a
  | .wait => .wait
  | .stop r va => .stop r va
  | .down a => .down a

/-- A global address of a descriptor (KIND 0) as the engine reaches it: its key and whether it is uncached. -/
def fwdKey (s : State) (n : Nat) (q : QDesc) (k : Access) (va : Nat) : Fwd (Nat × Bool) :=
  match engXlate s n q.asid (q.asid == 0) k va with
  | .error 0x0E => .down va
  | .error _ => .stop 12 va
  | .ok x => if portDown s x.1 then .down va else if linkWait s x.1 then .wait else .ok x

/-- A remote scratchpad address (KIND 1): the target waits or refuses as for a remote access (R201, R202). -/
def fwdPad (s : State) (g off size : Nat) : Fwd Unit :=
  if !serves s g then .wait
  else if 2 ^ 20 < off + size || refuses s g off size then .stop 13 0
  else .ok ()

/-- Read the consumer's head counter. -/
def headCount (s : State) (n : Nat) (q : QDesc) : Fwd Nat :=
  if q.kind = 1 then
    let g := farCore q.head
    let off := farOff q.head
    (fwdPad s g off 8).andThen fun _ =>
      .ok (if g / 4096 != s.pkg.toNat then Config.farWord s.fresh 0 else (s.core (g % 4096)).getW off).toNat
  else (fwdKey s n q .read (va56 q.head).toNat).andThen fun x => .ok (w64OfLE (homeBs s x.1 8)).toNat

/-- Write entry k at its ring position. -/
def putEntry (s : State) (n : Nat) (q : QDesc) (k : Nat) : Fwd State :=
  let bs := (s.core n).getBs (q.shoff + q.entryBytes * (k % q.shadowEntries)) q.entryBytes
  let o := q.entryBytes * (k % q.ringEntries)
  if q.kind = 1 then
    let g := farCore q.tgt
    let off := farOff q.tgt + o
    (fwdPad s g off q.entryBytes).andThen fun _ =>
      .ok (if g / 4096 != s.pkg.toNat then s else s.updCore (g % 4096) fun c => c.putBs off bs)
  else
    let va := (va56 (q.tgt + BitVec.ofNat 64 o)).toNat
    (fwdKey s n q .write va).andThen fun x =>
      .ok (storeCells s n true x.2 ((bs.zipIdx).map fun e => { va := va + e.2, pa := x.1 + e.2, b := e.1 }))

/-- Write m entries of a batch from number k: the state with those written, and what stopped it. -/
def putEntries (n : Nat) (q : QDesc) : Nat → Nat → State → State × Fwd Unit
  | 0, _, s => (s, .ok ())
  | m + 1, k, s => match putEntry s n q k with
    | .ok t => putEntries n q m (k + 1) t
    | .wait => (s, .wait)
    | .stop r va => (s, .stop r va)
    | .down a => (s, .down a)

/-- Steps 1 and 2 of R267 for a batch; a batch whose ring has no room, or whose target waits, is tried again. -/
def tryBatch (s : State) (n : Nat) (p : Proxy) (b : Batch) : State :=
  let q := (s.core n).qdesc p.off
  let s := { s with fresh := s.fresh + 1 }
  let put := fun (s : State) wrote => s.updCore n fun c => c.setProxy { p with batch := some { b with wrote := wrote } }
  let room := (headCount s n q).andThen fun head => if q.ringEntries < q.sent - head + b.n then .wait else .ok ()
  let r := match room with | .ok _ => putEntries n q b.n b.first s | x => (s, x)
  match r.2 with
  | .ok _ => put r.1 true
  | .wait => put r.1 false
  | .stop k va => stopProxy r.1 n p k va
  | .down a => failProxy r.1 n p b a

/-- The descriptor served next: of those that can form a batch, the one whose oldest unsent entry was pushed first. -/
def Core.nextProxy (c : Core) : Option Proxy :=
  (c.proxies.filter fun p => !p.stopped && p.batch.isNone && batchSize (c.qdesc p.off) p != 0).foldl (fun m p =>
    match m with
    | none => some p
    | some x => if p.since < x.since then some p else some x) none

/-- The proxy of a descriptor, if the engine knows it. -/
def Core.knownProxy (c : Core) (off : Nat) : Option Proxy := c.proxies.find? fun p => p.off == off

/-- The tail counter gains k: an atomic at its home, with MSI-X where it lands on an enabled entry (R380), or at the
target core. -/
def tailAdd (s : State) (n : Nat) (q : QDesc) (k : Nat) : Fwd State :=
  if q.kind = 1 then
    let g := farCore q.tail
    let off := farOff q.tail
    (fwdPad s g off 8).andThen fun _ =>
      .ok (if g / 4096 != s.pkg.toNat then s else s.updCore (g % 4096) fun c => c.putW off (c.getW off + BitVec.ofNat 64 k))
  else
    let va := (va56 q.tail).toNat
    (fwdKey s n q .read va).andThen fun _ => (fwdKey s n q .write va).andThen fun x =>
      let t := (atomHome s n { lane := 0, va := va, pa := x.1, size := 8, op := 0, u := false, b := BitVec.ofNat 64 k }).1
      .ok (if keyPkg x.1 == s.pkg.toNat && paHost (keyPa x.1) then { t with host := sendVecs t.host (msixFor t.host (keyPa x.1)) } else t)

/-! ## The device queue (R380): the host port's own proxy queue, known to these events as that of core 4096 -/

/-- The number by which an event names the host port. -/
def hostPort : Nat := 4096

/-- Entries that the port may take into a batch: 64 of 64 bytes waiting, or the marked ones. -/
def devBatchSize (h : HostSt) : Nat :=
  if 64 ≤ h.queue.length then 64 else min (min h.dqMarked (devPushed h) - devSent h) h.queue.length

/-- An 8-byte field of the device queue's descriptor. -/
def devField (h : HostSt) (o : Nat) : Nat := natOfLE ((h.devq.drop o).take 8)

/-- Steps 1 and 2 of R267 for a batch of the device queue. -/
def devTry (s : State) (b : Batch) : State :=
  let h := s.host
  let cap := 2 ^ (h.devq.getD 0x1C 0).toNat * 64
  let head := (s.getW (hostKey s (devField h 0x10))).toNat
  let set := fun (s : State) w => { s with host := { s.host with dqBatch := some { b with wrote := w } } }
  if cap < devSent h - head + b.n then set s false
  else
    set (((h.queue.take b.n).zipIdx).foldl (fun s e => s.putBs (hostKey s (devTgt h + 64 * ((b.first + e.2) % cap))) e.1) s) true

/-- Step 3 and 4: one add of the batch to the tail counter, its interrupts, and the entries are sent. -/
def devPublish (s : State) (b : Batch) : State :=
  let h := s.host
  let tail := devField h 8
  let s := s.putW (hostKey s tail) (s.getW (hostKey s tail) + BitVec.ofNat 64 b.n)
  { s with host := { sendVecs s.host (msixFor s.host tail) with
      queue := h.queue.drop b.n, dqBatch := none, devq := h.devq.take 0x30 ++ leN 8 (devSent h + b.n) ++ h.devq.drop 0x38 } }

/-! ## The engine's events -/

/-- FORWARD_BATCH (R267): the core forms its next batch, after a drain too, which leaves its scratchpad in place (R370); a swap
only finishes those it has formed (R371), and takes the descriptors with it. -/
def execForwardBatch (n : Nat) (s : State) : Out :=
  if n = hostPort then
    (if s.host.dqBatch.isSome || devBatchSize s.host = 0 then .next s
     else .next (devTry s { first := devSent s.host, n := devBatchSize s.host, wrote := false }))
  else if (s.core n).swapping then .next s
  else match (s.core n).nextProxy with
    | none => .next s
    | some p =>
      let q := (s.core n).qdesc p.off
      .next (tryBatch s n p { first := q.sent, n := batchSize q p, wrote := false })

/-- FORWARD_HEAD_REREAD (R267). -/
def execForwardHeadReread (n off : Nat) (s : State) : Out :=
  if n = hostPort then
    (match s.host.dqBatch with
     | some b => if b.wrote then .next s else .next (devTry s b)
     | none => .next s)
  else match (s.core n).knownProxy off with
    | none => .next s
    | some p => match p.batch with
      | some b => if b.wrote || p.stopped then .next s else .next (tryBatch s n p b)
      | none => .next s

/-- FORWARD_TIMER_EXPIRY (R267): the waiting entries are marked; the device queue's ftim is 64 (R380). -/
def execForwardTimerExpiry (n off : Nat) (s : State) : Out :=
  if n = hostPort then
    (if devPushed s.host ≤ devSent s.host || devPushed s.host ≤ s.host.dqMarked then .next s
     else .next { s with host := { s.host with dqMarked := devPushed s.host } })
  else
    let c := s.core n
    match c.knownProxy off with
    | none => .next s
    | some p =>
      let q := c.qdesc off
      if q.ftim = 0 || q.pushed ≤ q.sent || q.pushed ≤ p.marked then .next s
      else .next (s.setCore n (c.setProxy { p with marked := q.pushed }))

/-- FORWARD_BATCH_PUBLISH (R267, steps 3 and 4). -/
def execForwardBatchPublish (n off : Nat) (s : State) : Out :=
  if n = hostPort then
    (match s.host.dqBatch with
     | some b => if b.wrote then .next (devPublish s b) else .next s
     | none => .next s)
  else match (s.core n).knownProxy off with
    | none => .next s
    | some p => match p.batch with
      | none => .next s
      | some b =>
        let q := (s.core n).qdesc off
        if !b.wrote || p.stopped then .next s
        else match tailAdd { s with fresh := s.fresh + 1 } n q b.n with
          | .wait => .next s
          | .stop r va => .next (stopProxy s n p r va)
          | .down a => .next (failProxy s n p b a)
          | .ok t =>
            .next (t.updCore n fun c =>
              (c.putW (off + 0x30) (BitVec.ofNat 64 (q.sent + b.n))).setProxy
                { p with batch := none, owners := p.owners.filter fun o => q.sent + b.n ≤ o.1 })

/-! ## Reads through the host window that fail (R374) -/

/-- The address in the host window that a firing's fetch or page walk would read. -/
def hostFetch (s : State) (n sl : Nat) (f : Firing) : Option Nat :=
  let c := s.core n
  match f.hold with
  | .walk va _ _ => (walkKeys s c.asid va).find? fun k => paHost (keyPa k)
  | _ =>
    let pc := f.pc.toNat
    if !mayLook c sl f || (c.l1iFind pc).isSome then none
    else (heldLeaf c f.xl pc).bind fun l =>
      if permOk (privileged c sl) .fetch l.pte (keyPa (l.key pc)) && paHost (keyPa (l.key pc)) then some (l.key (pc / 32 * 32)) else none

/-- The batch, with the counter's address, that the k-th descriptor from 1 reads through the host window for the firing that
pushed the batch's last entry: the head before its entries are written, the tail after. -/
def hostCounter (s : State) (n : Nat) (f : Firing) (k : Nat) : Option (Proxy × Batch × Nat) :=
  match (if k = 0 then none else (s.core n).proxies[k - 1]?) with
  | none => none
  | some p => match p.batch with
    | none => none
    | some b =>
      let q := (s.core n).qdesc p.off
      let va := (va56 (if b.wrote then q.tail else q.head)).toNat
      if p.stopped || q.kind = 1 || !p.pushedBy f.uid then none
      else match fwdKey s n q .read va with
        | .ok x => if paHost (keyPa x.1) then some (p, b, va) else none
        | _ => none

/-- HOST_PORT_COMPLETION_TIMEOUT (R374): a read through the host window fails: that of deposit i; past the deposits that of a
region read in the store queue; past the queue that of the firing's walk or fetch; past these that of a counter which the
forwarding engine reads for a batch whose last entry the firing pushed (log entry 88). -/
def execHostPortCompletionTimeout (n sl i : Nat) (s : State) : Out :=
  match s.firing n sl with
  | none => .next s
  | some f =>
    match f.deps[i]?, f.sq[i - f.deps.length]? with
    | some d, _ =>
      (match d.src with
       | .load accs =>
         (match accs.find? (fun a => paHost (keyPa a.pa) && !a.near s n f d.seq) with
          | some a => .next (deliverBad s n sl d (keyPa a.pa))
          | none => .next s)
       | .unit =>
         (match (s.core n).sampOf sl d with
          | some q => (match q.xl.find? (fun l => paHost (keyPa (l.2.1 * 128)) && sampHome s n l) with
            | some l => .next (errSamp s n sl d q (l.2.1 * 128) id)
            | none => .next s)
          | none => .next s)
       | _ => .next s)
    | none, some e =>
      if e.reads && sqMayGo s n f (i - f.deps.length) e && (e.homeAddr.map fun k => paHost (keyPa k)).getD false then
        .next (failEnt s n sl (i - f.deps.length) e.seq (keyPa (e.homeAddr.getD 0)))
      else .next s
    | none, none =>
      match hostCounter s n f (i - f.deps.length - f.sq.length) with
      | some x => .next (failProxy s n x.1 x.2.1 x.2.2)
      | none => match hostFetch s n sl f with
      | some k => .next (takeTrap s n sl (dataerr (keyPa k))).pruneWalks
      | none => .next s

end Sys2Proof.Machine
end

