-- ==== Sys2Proof/Machine/Ray.lean ====
section
/-! DEFINITION. Ray traversal instructions (R299 to R307). Geometry is exact: a finite value is an integer in units of
2^-1074, products of k values in units of 2^(-1074 k), and quotients are rounded once. -/

namespace Sys2Proof.Machine

/-- A finite value in units of 2^-1074; none for a NaN or an infinity. -/
def unitsOf : FVal → Option Int
  | .fin n m e => some (scaled n m e (-1074))
  | _ => none

/-- All of a list finite. -/
def unitsAll (xs : List FVal) : Option (List Int) := xs.mapM unitsOf

def oneUnit : Int := 2 ^ 1074

/-- num / den rounded once into a format; den is not zero. -/
def roundQ (t : Fmt) (rm : Rm) (num den : Int) : Nat :=
  if num = 0 then 0
  else
    let q := quot (t.fbits + 1) num.natAbs den.natAbs
    (roundTo t rm false (decide (num < 0) != decide (den < 0)) q.1 (-(q.2 : Int) - 1)).1

/-- The ray as exact numbers: o, d, tmin, tmax, where every one is finite. -/
def rayUnits (ws : List W64) : Option (List Int × List Int × Int × Int) :=
  match unitsAll (rayO ws), unitsAll (rayD ws), unitsOf (rayTmin ws), unitsOf (rayTmax ws) with
  | some o, some d, some a, some b => some (o, d, a, b)
  | _, _, _, _ => none

/-! ## BOXT (R299) -/

/-- The parameter where the ray meets a bound, rounded: an infinite bound gives an infinity. -/
def boundT (rm : Rm) (bound : FVal) (o d : Int) : FVal :=
  match bound with
  | .inf neg => .inf (neg != decide (d < 0))
  | .fin n m e => Fmt.f64.decode (roundQ .f64 rm (scaled n m e (-1074) - o) d)
  | .nan g => .nan g

def fMaxV (a b : FVal) : FVal := if fLt a b then b else a
def fMinV (a b : FVal) : FVal := if fLt b a then b else a

/-- One axis narrows the interval. -/
def boxAxis (iv : FVal × FVal) (lo hi oV : FVal) (o d : Int) : FVal × FVal :=
  if d = 0 then (if fLt oV lo || fLt hi oV then (.inf false, .inf true) else iv)
  else
    let near := if d < 0 then hi else lo
    let far := if d < 0 then lo else hi
    (fMaxV iv.1 (boundT .rdn near o d), fMinV iv.2 (boundT .rup far o d))

/-- The bound of an axis of child c's box (Table 14-6). -/
def boxBound (nd : List Byte) (c i : Nat) (hi : Bool) : FVal :=
  Fmt.f32.decode (nW32 nd (0x20 + 24 * c + (if hi then 12 else 0) + 4 * i)).toNat

/-- Entry parameter of child c where the ray may meet its box. -/
def boxEnter (nd : List Byte) (ws : List W64) (u : List Int × List Int × Int × Int) (c : Nat) : Option FVal :=
  let axes := [0, 1, 2]
  if axes.any (fun i => (boxBound nd c i false).isNan || (boxBound nd c i true).isNan ||
      fLt (boxBound nd c i true) (boxBound nd c i false)) then none
  else
    let iv := axes.foldl (fun iv i =>
      boxAxis iv (boxBound nd c i false) (boxBound nd c i true) ((rayO ws).getD i (.nan false)) (u.1.getD i 0) (u.2.1.getD i 0))
      (rayTmin ws, rayTmax ws)
    if fLt iv.2 iv.1 then none else some iv.1

/-- Insert by entry parameter, after its equals. -/
def insertEn (x : FVal × Nat) : List (FVal × Nat) → List (FVal × Nat)
  | [] => [x]
  | y :: ys => if fLt x.1 y.1 then x :: y :: ys else y :: insertEn x ys

/-- The children a BOXT reports, nearest first. -/
def boxList (nd : List Byte) (ws : List W64) : List Nat :=
  match rayUnits ws with
  | none => []
  | some u =>
    let hits := (List.range 8).filterMap fun c =>
      if (nByte nd 1).testBit c then (boxEnter nd ws u c).map fun en => (en, c) else none
    (hits.foldl (fun acc x => insertEn x acc) []).map (·.2)

/-- The result word of BOXT. -/
def boxWord (cs : List Nat) : W64 :=
  BitVec.ofNat 64 (((cs.zipIdx).map fun e => e.1 * 2 ^ (3 * e.2)).foldl (· + ·) 0 +
    maskOf 8 (fun c => cs.contains c) * 2 ^ 24 + cs.length * 2 ^ 32)

def execBoxt (o : RayOps) (s : State) : Out :=
  withF s fun n sl f =>
    let ws := f.rayBody o.ray.toNat
    let r : W32 := (f.srcS o.a).setWidth 32
    if !f.enS o.h then s.setFiring n sl (f.retire false o.h .l64 .none)
    else if !bodyOk ws then takeTrap s n sl rayfmt
    else match resolveNode (s.core n) ws r [0] with
      | .error t => takeTrap s n sl t
      | .ok nd => s.setFiring n sl ((f.setS o.d.toNat (boxWord (boxList nd ws))).retire false o.h .l64 .none)

/-! ## TRIT (R300 to R302) -/

abbrev V3 := Int × Int × Int

def v3sub (a b : V3) : V3 := (a.1 - b.1, a.2.1 - b.2.1, a.2.2 - b.2.2)
def v3cross (a b : V3) : V3 :=
  (a.2.1 * b.2.2 - a.2.2 * b.2.1, a.2.2 * b.1 - a.1 * b.2.2, a.1 * b.2.1 - a.2.1 * b.1)
def v3dot (a b : V3) : Int := a.1 * b.1 + a.2.1 * b.2.1 + a.2.2 * b.2.2
def v3at (a : V3) (i : Nat) : Int := match i % 3 with | 0 => a.1 | 1 => a.2.1 | _ => a.2.2
def v3of (xs : List Int) : V3 := (xs.getD 0 0, xs.getD 1 0, xs.getD 2 0)

/-- TieIn of R300. -/
def tieIn (d u : V3) (sg : Int) : Bool :=
  let abs := fun i => (v3at d i).natAbs
  let kz := if abs 0 ≥ abs 1 && abs 0 ≥ abs 2 then 0 else if abs 1 ≥ abs 2 then 1 else 2
  let q := (v3at d kz).sign
  let x := sg * q * (v3at d kz * v3at u (kz + 1) - v3at d (kz + 1) * v3at u kz)
  let y := sg * q * (v3at d kz * v3at u (kz + 2) - v3at d (kz + 2) * v3at u kz)
  decide (0 < y) || (decide (y = 0) && decide (0 < x))

/-- A hit of the line: the parameter's numerator over a positive denominator, and the weights' numerators. -/
structure TriHit where
  num : Int
  den : Int
  e1  : Int
  e2  : Int
  deriving DecidableEq, Repr

/-- The line of the ray against one triangle (R300). -/
def triLine (o d : V3) (p0 p1 p2 : V3) : Option TriHit :=
  let nrm := v3cross (v3sub p1 p0) (v3sub p2 p0)
  let w := v3dot d nrm
  let sg := w.sign
  let edge := fun (a b : V3) => v3dot d (v3cross (v3sub a o) (v3sub b o))
  let pass := fun (a b : V3) => (edge a b).sign == sg || (edge a b == 0 && tieIn d (v3sub b a) sg)
  if w = 0 then none
  else if pass p1 p2 && pass p2 p0 && pass p0 p1 then
    some { num := sg * v3dot nrm (v3sub p0 o), den := sg * w, e1 := sg * edge p2 p0, e2 := sg * edge p0 p1 }
  else none

/-- Whether a hit lies in the interval (R301); tmin and tmax in units. -/
def triAccept (closed : Bool) (h : TriHit) (tmin tmax : Int) : Bool :=
  let t := h.num * oneUnit
  decide (t ≤ tmax * h.den) && (decide (tmin * h.den < t) || (closed && decide (tmin * h.den = t)))

/-- Vertex k of triangle j of a leaf, where it is finite. -/
def triVertex (nd : List Byte) (kind j k : Nat) : Option V3 :=
  (unitsAll ((List.range 3).map fun i =>
    if kind = 1 then Fmt.f32.decode (nW32 nd (0x20 + 36 * j + 12 * k + 4 * i)).toNat
    else Fmt.f64.decode (nW64 nd (0x20 + 72 * j + 24 * k + 8 * i)).toNat)).map v3of

/-- The accepted hit of least parameter, the lower slot on equality (R302). -/
def triBest (nd : List Byte) (kind : Nat) (ws : List W64) : Option (Nat × TriHit) :=
  match rayUnits ws with
  | none => none
  | some u =>
    let closed := (bodyW ws 13).getLsbD 52
    (List.range (nByte nd 2)).foldl (fun best j =>
      match triVertex nd kind j 0, triVertex nd kind j 1, triVertex nd kind j 2 with
      | some p0, some p1, some p2 =>
        match triLine (v3of u.1) (v3of u.2.1) p0 p1 p2 with
        | none => best
        | some h =>
          if !triAccept closed h u.2.2.1 u.2.2.2 then best
          else match best with
            | none => some (j, h)
            | some (_, b) => if h.num * b.den < b.num * h.den then some (j, h) else best
      | _, _, _ => best) none

/-- The hit word (Table 14-8). -/
def hitWord (nd : List Byte) (r : W32) (slot : Nat) : W64 :=
  BitVec.ofNat 64 ((nW32 nd (0xB0 + 4 * slot)).toNat * 2 ^ 32 + refHandle r * 2 ^ 16 + 2 ^ 11 + slot * 2 ^ 8 + refIndex r)

/-- The barycentric word (Table 14-7). -/
def baryWord (h : TriHit) : W64 :=
  (BitVec.ofNat 32 (roundQ .f32 .rne h.e2 h.den)) ++ (BitVec.ofNat 32 (roundQ .f32 .rne h.e1 h.den))

def execTrit (o : RayOps) (s : State) : Out :=
  withF s fun n sl f =>
    let ws := f.rayBody o.ray.toNat
    let r : W32 := (f.srcS o.a).setWidth 32
    let d := o.d.toNat
    if !f.enS o.h then s.setFiring n sl (f.retire false o.h .l64 .none)
    else if !bodyOk ws then takeTrap s n sl rayfmt
    else match resolveNode (s.core n) ws r [1, 2] with
      | .error t => takeTrap s n sl t
      | .ok nd =>
        let f' := match triBest nd (refKind r) ws with
          | none => (f.setS d 0).setS (d + 1) 0
          | some (slot, h) =>
            let f := (f.setS d (hitWord nd r slot)).setS (d + 1) (baryWord h)
            f.setBody o.ray.toNat (bodySetTmax ws (roundQ (bodyFmt ws) .rne h.num h.den))
        s.setFiring n sl (f'.retire false o.h .l64 .none)

/-! ## RPUSH, RPOP (R303) -/

/-- The region accesses of k spills, from the body's spill count on (R303). -/
def spillSpans (a : W64) (ws : List W64) (k : Nat) : List (W64 × Nat) :=
  (List.range k).map fun i => regSpan a (0x80 + 16 * (bodySpill ws + i)) 16

/-- The store-queue entries of region writes: the bytes of each access. -/
def regionOps (accs : List Acc) (bs : List (List Byte)) : List EntOp :=
  (accs.zip bs).map fun e => .rwrite (accCells e.1 e.2)

/-- Do pushes: stack room, region alignment, the writes' translation; nothing before they pass (Table 14-10). -/
def doPush (s : State) (n sl : Nat) (f : Firing) (ray : Nat) (base : W64) (k : Nat)
    (entries : Except TrapCause (List W32)) (h : Head) (l : Len) : State :=
  let ws := f.rayBody ray
  let spills := spillsFor (bodyDepth ws) (bodyCap ws) k
  let go := fun (accs : List Acc) =>
    match entries with
    | .error t => takeTrap s n sl t
    | .ok xs =>
      let r := pushAll ws xs
      let ops := regionOps accs (r.2.map (·.2))
      if !ops.isEmpty && !f.sqRoom ops.length then s
      else s.setFiring n sl (((f.enter ops).setBody ray r.1).retire false h l .none)
  if !bodyOk ws then takeTrap s n sl rayfmt
  else if noRoom ws k then takeTrap s n sl (cause 0x13)
  else if fld base 0 8 != 0 then takeTrap s n sl (causeAt 0x09 .region (va56 base))
  else onPlan s n sl f .regionW (planRegion (s.core n) sl f true (spillSpans (regionOf base (rayNum ws)) ws spills)) go

def execRpush (o : DABOps) (s : State) : Out :=
  withF s fun n sl f =>
    if !f.enS o.h then s.setFiring n sl (f.retire false o.h .l64 .none)
    else doPush s n sl f o.d.toNat (f.srcS o.b) 1 (.ok [(f.srcS o.a).setWidth 32]) o.h .l64

def execRpushBox (o : RpushBoxOps) (s : State) : Out :=
  withF s fun n sl f =>
    if !f.enS o.h then s.setFiring n sl (f.retire false o.h .l96 .none)
    else
      let r := f.srcS o.a
      let ref : W32 := (f.srcS o.n).setWidth 32
      let k := fld r 32 4
      let entries := (resolveNode (s.core n) (f.rayBody o.d.toNat) ref [0]).map fun nd =>
        ((List.range k).reverse).map fun j => childEntry (refHandle ref) (nW32 nd (0xE0 + 4 * fld r (3 * j) 3))
      doPush s n sl f o.d.toNat (f.srcS o.g) k entries o.h .l96

def execRpop (o : RpopOps) (s : State) : Out :=
  withF s fun n sl f =>
    let ray := o.ray.toNat
    let ws := f.rayBody ray
    let base := f.srcS o.g
    if !f.enS o.h then s.setFiring n sl (f.retire false o.h .l64 .none)
    else if !bodyOk ws then takeTrap s n sl rayfmt
    else if fld base 0 8 != 0 then takeTrap s n sl (causeAt 0x09 .region (va56 base))
    else if bodyDepth ws != 0 then
      let r := popBody ws
      s.setFiring n sl (((f.setBody ray r.2).setS o.d.toNat r.1).retire false o.h .l64 .none)
    else if bodySpill ws = 0 then
      let f' := (f.setBody ray (bodySetStack ws [] 0)).setS o.d.toNat 0xFFFFFFFFFFFFFFFF
      s.setFiring n sl (f'.retire false o.h .l64 .none)
    else
      onPlan s n sl f .region (planRegion (s.core n) sl f false
          [regSpan (regionOf base (rayNum ws)) (0x80 + 16 * (bodySpill ws - 1)) 16]) fun accs =>
        if !f.sqRoom 1 then s
        else
          let ops := accs.map fun a => EntOp.rread a.va a.pa 16 (.refill o.d.toNat ray)
          let regs := o.d.toNat :: (List.range 14).map (ray + ·)
          s.setFiring n sl (((f.enter ops).depUnit regs [] (codeWord s n sl f.pc)).retire false o.h .l64 .none)

/-! ## RXFORM (R304) -/

/-- M[i][j] of an instance node. -/
def instM (nd : List Byte) (i j : Nat) : FVal := Fmt.f64.decode (nW64 nd (0x20 + 8 * (4 * i + j))).toNat

/-- Row i of the transform on a vector, with the translation column or without, rounded once; the canonical NaN where
a term is not finite. -/
def xformRow (t : Fmt) (nd : List Byte) (i : Nat) (v : List FVal) (move : Bool) : Nat :=
  let row := (List.range 3).map (instM nd i)
  let col := if move then [instM nd i 3] else []
  match unitsAll row, unitsAll v, unitsAll col with
  | some r, some x, some c =>
    let sum := ((r.zip x).map fun e => e.1 * e.2).foldl (· + ·) 0 + (c.map (· * oneUnit)).foldl (· + ·) 0
    roundQ t .rne sum (oneUnit * oneUnit)
  | _, _, _ => t.nanBits

/-- Write origin and direction patterns into a body (Tables 14-1, 14-2). -/
def bodySetGeom (ws : List W64) (g : List Nat) : List W64 :=
  let b := fun i => g.getD i 0
  let new : List W64 :=
    if isF32 ws then (List.range 3).map fun j => (BitVec.ofNat 32 (b (2 * j + 1))) ++ (BitVec.ofNat 32 (b (2 * j)))
    else (List.range 6).map fun j => BitVec.ofNat 64 (b j)
  ws.take 1 ++ new ++ ws.drop (1 + new.length)

/-- Bytes of the origin and direction words. -/
def geomBytes (ws : List W64) : List Byte := ((ws.drop 1).take (geomWords ws)).flatMap (bytesLE 8)

def execRxform (o : DABOps) (s : State) : Out :=
  withF s fun n sl f =>
    let ray := o.d.toNat
    let ws := f.rayBody ray
    let base := f.srcS o.b
    let ref : W32 := (f.srcS o.a).setWidth 32
    if !f.enS o.h then s.setFiring n sl (f.retire false o.h .l64 .none)
    else if !bodyOk ws then takeTrap s n sl rayfmt
    else if noRoom ws 2 then takeTrap s n sl (cause 0x13)
    else if fld base 0 8 != 0 then takeTrap s n sl (causeAt 0x09 .region (va56 base))
    else
      let a := regionOf base (rayNum ws)
      let spills := spillsFor (bodyDepth ws) (bodyCap ws) 2
      onPlan s n sl f .regionW (planRegion (s.core n) sl f true
          (regSpan a 8 (8 * geomWords ws) :: spillSpans a ws spills)) fun accs =>
        match resolveNode (s.core n) ws ref [4] with
        | .error t => takeTrap s n sl t
        | .ok nd =>
          let t := bodyFmt ws
          let g := (List.range 3).map (fun i => xformRow t nd i (rayO ws) true) ++
            (List.range 3).map (fun i => xformRow t nd i (rayD ws) false)
          let r := pushAll (bodySetGeom ws g) [0x00000700, childEntry (refHandle ref) (nW32 nd 0x80)]
          let ops := regionOps accs (geomBytes ws :: r.2.map (·.2))
          if !f.sqRoom ops.length then s
          else s.setFiring n sl (((f.enter ops).setBody ray r.1).retire false o.h .l64 .none)

/-! ## RLOAD, RSTORE (R305) -/

/-- Where a kind lies in the region and in its group: region offset, first register offset, words. -/
def rlsSpan (kind : Nat) (ws : List W64) : Nat × Nat × Nat :=
  match kind with
  | 0 => (0, 0, 14)
  | 1 => (8, 1, geomWords ws)
  | _ => (0x70, 0, 2)

/-- RLOAD and RSTORE of a kind: 0 .RAY, 1 .GEOM, 2 .HIT. -/
def rls (store : Bool) (kind : Nat) (o : DABOps) (s : State) : Out :=
  withF s fun n sl f =>
    let d := o.d.toNat
    let ws := f.rayBody d
    let base := f.srcS o.a
    let checks := kind = 1 || (store && kind = 0)
    if !f.enS o.h then s.setFiring n sl (f.retire false o.h .l64 .none)
    else if checks && !bodyOk ws then takeTrap s n sl rayfmt
    else if fld base 0 8 != 0 then takeTrap s n sl (causeAt 0x09 .region (va56 base))
    else
      let sp := rlsSpan kind ws
      let addr := regionOf base (fld (f.srcS o.b) 0 48)
      onPlan s n sl f (regKind store) (planRegion (s.core n) sl f store [regSpan addr sp.1 (8 * sp.2.2)]) fun accs =>
        if !f.sqRoom 1 then s
        else if store then
          let bytes := ((List.range sp.2.2).map fun j => f.getS (d + sp.2.1 + j)).flatMap (bytesLE 8)
          s.setFiring n sl ((f.enter (regionOps accs [bytes])).retire false o.h .l64 .none)
        else
          let ops := accs.map fun a => EntOp.rread a.va a.pa (8 * sp.2.2) (.words (d + sp.2.1) sp.2.2)
          let regs := (List.range sp.2.2).map (d + sp.2.1 + ·)
          s.setFiring n sl (((f.enter ops).depUnit regs [] (codeWord s n sl f.pc)).retire false o.h .l64 .none)

def execRloadRay (o : DABOps) (s : State) : Out := rls false 0 o s
def execRloadGeom (o : DABOps) (s : State) : Out := rls false 1 o s
def execRloadHit (o : DABOps) (s : State) : Out := rls false 2 o s
def execRstoreRay (o : DABOps) (s : State) : Out := rls true 0 o s
def execRstoreGeom (o : DABOps) (s : State) : Out := rls true 1 o s
def execRstoreHit (o : DABOps) (s : State) : Out := rls true 2 o s

/-! ## RSEND, RHIT, RMISS (R306, R307) -/

/-- Send a message of a ray form: waits, count, send buffer. -/
def raySend (s : State) (n sl : Nat) (f : Firing) (h : Head) (l : Len) (m : Msg) : State :=
  let c := s.core n
  if !regionQuiet f || sendHeld c f || Config.sendCap ≤ c.sendBuf.length then s
  else
    countChildren s n sl f 1
      (fun s => s.setCore n (((s.core n).buffer (mkFlight n f m)).setFiring sl (f.retire false h l .none)))
      (fun s => s.setFiring n sl (f.retire false h l .none))

/-- Where RSEND sends: an owner of the cached entry, or the Canopy home (R306, R312). -/
def raySendTo (s : State) (n : Nat) (h : BitVec 16) (num : Nat) : Nat :=
  let home := h.toNat % partCores s
  match (s.core n).canopy.find? (fun e => e.h == h) with
  | some e => match e.owners with
    | [] => home
    | os => (os.getD (num % os.length) 0).toNat
  | none => home

def execRsend (o : RsendOps) (s : State) : Out :=
  withF s fun n sl f =>
    let ws := f.rayBody o.d.toNat
    if !f.enS o.h then s.setFiring n sl (f.retire false o.h .l64 .none)
    else if !bodyOk ws then takeTrap s n sl rayfmt
    else
      let dst := gcaOf s (raySendTo s n ((f.srcS o.a).setWidth 16) (rayNum ws))
      raySend s n sl f o.h .l64 (mkMsg f dst 2 (f.hidOf o.hid) 14 false 0 ws)

/-- RHIT and RMISS: body check, destination check, then the send of the record (Table 14-15). -/
def hitSend (h : Head) (core : SSrc) (ray : BitVec 6) (user : SSrc) (hid : BitVec 8) (hit : Firing → W64 × W64)
    (s : State) : Out :=
  withF s fun n sl f =>
    let ws := f.rayBody ray.toNat
    let dst := fld (f.srcS core) 0 29
    if !f.enS h then s.setFiring n sl (f.retire false h .l96 .none)
    else if !bodyOk ws then takeTrap s n sl rayfmt
    else if !coreExists s dst then takeTrap s n sl (msgfmt (BitVec.ofNat 64 dst))
    else
      let x := hit f
      raySend s n sl f h .l96
        (mkMsg f dst 3 hid 6 false 0 [bodyW ws 0, x.1, x.2, tmaxF64 ws, bodyW ws 13, f.srcS user])

def execRhit (o : RhitOps) (s : State) : Out :=
  hitSend o.h o.core o.ray o.user o.hid (fun f => (f.getS o.d.toNat, f.getS (o.d.toNat + 1))) s

def execRmiss (o : RmissOps) (s : State) : Out := hitSend o.h o.core o.ray o.user o.hid (fun _ => (0, 0)) s

end Sys2Proof.Machine
end

