-- ==== Sys2Proof/Machine/Ready.lean ====
section
/-! DEFINITION. Readiness (R255): the timed units a core's firings share (R99, R151, R308), and whether an instruction that
can be made to wait would issue now. -/

namespace Sys2Proof.Machine

/-! ## Timed units (R99, R151, R308) -/

/-- What an instruction needs of a timed unit: the unit (0 divider, 1 scalar divide and square root, 2 lane divide, 3
triangle tester), the cycles it is busy with it, and whether the guard lets it engage the unit. -/
structure Need where
  unit   : Nat
  cycles : Nat
  on     : Bool
  deriving DecidableEq, Repr

/-- A lane divide's cycles by its type (Table 7-13). -/
def laneDivide (t : BitVec 2) : Nat := if t == 1 then 32 else 8

/-- The triangle tester's cycles for the node that a TRIT names: ceil(n / 2) in FP32, 2n in FP64 (R308). -/
def tritCycles (c : Core) (f : Firing) (o : RayOps) : Nat :=
  let r : W32 := (f.srcS o.a).setWidth 32
  match resolveNode c (f.rayBody o.ray.toNat) r [1, 2] with
  | .ok nd => if refKind r = 1 then ceilDiv (nByte nd 2) 2 else 2 * nByte nd 2
  | .error _ => 0

/-- The timed unit of an instruction; none of the others has one. -/
def needOf (c : Core) (f : Firing) (i : Instr) : Option Need :=
  let divide := fun (o : AluOps) => some ⟨0, if o.w then 20 else 36, f.enS o.h⟩
  let lanes := fun (h : Head) t => some ⟨2, laneDivide t, !(f.enLanes h).isEmpty⟩
  match i with
  | .div o => divide o
  | .divu o => divide o
  | .rem o => divide o
  | .remu o => divide o
  | .fdiv o => some ⟨1, 20, f.enS o.h⟩
  | .fsqrt o => some ⟨1, 24, f.enS o.h⟩
  | .vfdiv o => lanes o.h o.t
  | .vfsqrt o => lanes o.h o.t
  | .trit o => some ⟨3, tritCycles c f o, f.enS o.h⟩
  | _ => none

/-- Whether a unit of core n is free: the cycles of its last engagement have passed. -/
def unitFree (s : State) (n u : Nat) : Bool :=
  match spFind (s.core n).busy u with
  | none => true
  | some b => b.cycles ≤ (clkOf s (islandOf s n) - Config.cyclesOf (islandOf s n) b.tick).toNat

/-- The unit is looked at before the guard, so that a disabled instruction waits as well (R99). -/
def unitReady (s : State) (n : Nat) (f : Firing) (i : Instr) : Bool :=
  match needOf (s.core n) f i with
  | none => true
  | some u => unitFree s n u.unit

/-- An instruction that has issued engages its unit where its guard holds. -/
def engage (s : State) (n : Nat) : Option Need → State
  | some u => if u.on && u.cycles != 0 then s.updCore n fun c => { c with busy := spIns c.busy u.unit ⟨s.tick, u.cycles⟩ } else s
  | none => s

/-! ## Whether an instruction issues -/

/-- Whether firing f of a slot has issued an instruction, or ended: its place in program order has moved, it has stopped, or
it is gone. A hold, a walk or a release that it began is no issue (R255). -/
def issued (t : State) (n sl : Nat) (f : Firing) : Bool :=
  match t.firing n sl with
  | none => true
  | some g => g.uid != f.uid || g.seq != f.seq || g.stopped

/-- The meaning of an instruction that R255 can make wait: a full store queue, a release, a busy queue or unit, a full send
buffer or shadow ring, a blocked RECV, HZWAIT or TLWAIT. -/
def trial (i : Instr) : Option (State → Out) :=
  match i with
  | .st o => some (execSt o)
  | .vst o => some (execVst o)
  | .stx o => some (execStx o)
  | .sts o => some (execSts o)
  | .vsts o => some (execVsts o)
  | .mstf o => some (execMstf o)
  | .ld o => some (execLd o)
  | .vld o => some (execVld o)
  | .l2wbLine o => some (execL2wbLine o)
  | .l2wbAll o => some (execL2wbAll o)
  | .fenceAcq o => some (execFenceAcq o)
  | .fenceRel o => some (execFenceRel o)
  | .fenceAr o => some (execFenceAr o)
  | .done o => some (execDone o)
  | .atom o => some (execAtom o)
  | .atomNz o => some (execAtomNz o)
  | .cas o => some (execCas o)
  | .atomsLocal o => some (execAtomsLocal o)
  | .atomsRemote o => some (execAtomsRemote o)
  | .vatom o => some (execVatom o)
  | .sfu o => some (execSfu o)
  | .mma o => some (execMma o)
  | .mmas o => some (execMmas o)
  | .mmaq o => some (execMmaq o)
  | .send o => some (execSend o)
  | .sendv o => some (execSendv o)
  | .recv o => some (execRecv o)
  | .gpost o => some (execGpost o)
  | .requeue o => some (execRequeue o)
  | .qpush o => some (execQpush o)
  | .launchWake o => some (execLaunchWake o)
  | .launchOpen o => some (execLaunchOpen o)
  | .launchClose o => some (execLaunchClose o)
  | .cancel o => some (execCancel o)
  | .lvlread o => some (execLvlread o)
  | .lvlreadReap o => some (execLvlreadReap o)
  | .hzwait o => some (execHzwait o)
  | .hzwaitSys o => some (execHzwaitSys o)
  | .rpush o => some (execRpush o)
  | .rpushBox o => some (execRpushBox o)
  | .rpop o => some (execRpop o)
  | .rxform o => some (execRxform o)
  | .rloadRay o => some (execRloadRay o)
  | .rloadGeom o => some (execRloadGeom o)
  | .rloadHit o => some (execRloadHit o)
  | .rstoreRay o => some (execRstoreRay o)
  | .rstoreGeom o => some (execRstoreGeom o)
  | .rstoreHit o => some (execRstoreHit o)
  | .rsend o => some (execRsend o)
  | .rhit o => some (execRhit o)
  | .rmiss o => some (execRmiss o)
  | .cnlookDir o => some (execCnlookDir o)
  | .cnsetDir o => some (execCnsetDir o)
  | .thaw o => some (execThaw o)
  | .evict o => some (execEvict o)
  | .rpin o => some (execRpin o)
  | .rdone o => some (execRdone o)
  | .rlog o => some (execRlog o)
  | .rreplay o => some (execRreplay o)
  | .rreplayTri o => some (execRreplayTri o)
  | .bget o => some (execBget o)
  | .bput o => some (execBput o)
  | .bcopy o => some (execBcopy o)
  | .bfill o => some (execBfill o)
  | .tlwait o => some (execTlwait o)
  | .smp o => some (execSmp o)
  | .smpf o => some (execSmpf o)
  | .sfence o => some (execSfence o)
  | .rsr o => some (execRsr o)
  | .wsr o => some (execWsr o)
  | .tret o => some (execTret o)
  | .fresume o => some (execFresume o)
  | .fresumeStep o => some (execFresumeStep o)
  | .fresumeOut o => some (execFresumeOut o)
  | _ => none

/-- Whether the firing's own instruction would issue now. -/
def wouldIssue (s : State) (n sl : Nat) (f : Firing) (i : Instr) : Bool :=
  match trial i with
  | none => true
  | some g => match g { s with who := some (n, sl) } with
    | .next t => issued t n sl f
    | _ => true

/-- The firing's state once a release of it that is complete has been completed (R226). -/
def settled (s : State) (n sl : Nat) (f : Firing) : State :=
  match f.rel with
  | none => s
  | some r => if r.seq != f.seq && releaseDone s n f r.seq r.cross then relComplete s n sl f r else s

/-- Whether a firing is ready on the pipe of its next instruction (R255); a trap there is an issue too. -/
def firingReady (s : State) (n sl : Nat) (f : Firing) : Bool :=
  let t := settled s n sl f
  mayLook (s.core n) sl f &&
  match t.firing n sl with
  | none => true
  | some g => g.stopped || g.badDep.isSome ||
    match look t n sl g with
    | .walk | .wait => false
    | .trap .. => true
    | .go s' i _ =>
      scoreReady (s'.core n) sl g i && fpxReady (s'.core n) sl g && unitReady s' n g i && wouldIssue s' n sl g i

end Sys2Proof.Machine
end

