-- ==== Sys2Proof/Machine/MsgEvents.lean ====
section
/-! DEFINITION. Message events (R246 to R264, R281, R284): departure, arrival, spill returns, firing creation, glade
timers, priority ageing, and the end of an image load (R83). -/

namespace Sys2Proof.Machine

/-! ## Departure (R258) -/

/-- SEND_BUFFER_DEPART: the oldest message leaves, where nothing holds it back at injection, and a large SENDV places its
next. -/
def execSendBufferDepart (n : Nat) (s : State) : Out :=
  let c := s.core n
  match c.sendBuf with
  | [] => .next s
  | fl :: rest =>
    if injectHeld s fl.msg.dst.toNat then .next s
    else .next (placeSendv c.sendvQ.length ((s.setCore n { c with sendBuf := rest }).send fl) n)

/-! ## Arrival (R247, R248) -/

/-- Flits in a channel's inbox. -/
def Core.inboxFlits (c : Core) (ch : BitVec 3) : Nat :=
  ((c.inbox.filter fun m => m.msg.ch == ch).map fun m => flits m.msg).foldl (· + ·) 0

/-- Whether a message of a channel is spilled. -/
def Core.chanSpilled (c : Core) (ch : BitVec 3) : Bool :=
  c.spill.any fun x => match x with | .msg m => m.msg.ch == ch | _ => false

/-- Whether the core's acceptance checks apply: its image is loaded, or a load has left it under no placement (R83,
R248). -/
def routes (s : State) (c : Core) : Bool := !c.loading && (c.placed || s.loaded)

/-- A message enters the inbox, given to a firing that is blocked in RECV for it (R259). -/
def Core.queueIn (c : Core) (m : Queued) : Core := { c with inbox := c.inbox ++ [{ m with for_ := c.giveTo m.msg }] }

/-- Whether a message goes into a glade at once: not while an entry waits for the core's cancel filter, when the core consumes
nothing (R281; log entry 107). -/
def Core.takesRec (c : Core) (e : HandlerEntry) : Bool := e.glade && c.filterWait.isEmpty

/-- Where an accepted message goes: its glade's column, or the inbox with its arrival. -/
def enterCore (s : State) (n : Nat) (m : Queued) : State :=
  let c := s.core n
  match c.entry m.msg.hid.toNat with
  | some e =>
    if c.takesRec e && routes s c then placeRec s n e.src (fld (m.msg.body.getD 0 0) 0 5) m.msg.ltag (padTo6 m.msg.body)
    else s.setCore n (c.queueIn m)
  | none => s.setCore n (c.queueIn m)
where padTo6 (b : List W64) : List W64 := (b ++ List.replicate 6 0).take 6

/-- A message past the inbox's door: its handler entry is met, and it is discarded (R248) or enters. -/
def takeIn (s : State) (n : Nat) (m : Queued) : State :=
  let s := if routes s (s.core n) then meetEntry s n m.msg.hid.toNat else s
  let c := s.core n
  if routes s c then
    match refusal c m.msg with
    | some r => discardMsg s n m.msg r
    | none => enterCore s n m
  else enterCore s n m

/-- Whether an arriving message must go to the spill queue: its channel has spilled, its inbox is full, its glade record
finds its column full, or the core is pre-empted (R247, R260, R372). -/
def mustSpill (s : State) (c : Core) (m : Msg) : Bool :=
  c.cstate == 2 || c.cstate == 3 || c.chanSpilled m.ch ||
  (if routes s c && (refusal c m).isSome then false
   else match c.entry m.hid.toNat with
     | some e => if c.takesRec e && routes s c then false else Config.inboxCap < c.inboxFlits m.ch + flits m
     | none => Config.inboxCap < c.inboxFlits m.ch + flits m)

/-- Whether a glade record would spill from this message. -/
def recSpills (s : State) (c : Core) (m : Msg) : Bool :=
  routes s c && (refusal c m).isNone && (match c.entry m.hid.toNat with
    | some e =>
      let l := fld (m.body.getD 0 0) 0 5
      c.takesRec e && ((c.glade e.src).depth ≤ ((c.glade e.src).col l).length || c.gladeSpilled e.src (some l))
    | none => false)

/-- A message reaches core n; false where it waits in the mesh, with the state of that wait. While the wait area is full the
home holds all of channel 2 back (R313). -/
def reach (s : State) (n : Nat) (m : Msg) : State × Bool :=
  let c := s.core n
  if m.ch == 2 && c.waitSaid then (s, false)
  else if canopyServes s n m then ({ s with homeQ := s.homeQ ++ [.ray n ⟨s.fresh, m, none⟩], fresh := s.fresh + 1 }, true)
  else
    let q : Queued := ⟨s.fresh, m, none⟩
    if mustSpill s c m then
      if c.spillRoom (Spilled.msg q).bytes then (spillIn { s with fresh := s.fresh + 1 } n (.msg q), true)
      else (spillFull s n m.ch.toNat, false)
    else if recSpills s c m && !c.spillRoom 64 then (spillFull s n m.ch.toNat, false)
    else (takeIn { s with fresh := s.fresh + 1 } n q, true)

/-- Whether a message of another package's link is one that this module receives (Table 12-1). -/
def farMsgOk (s : State) (m : Msg) : Bool :=
  m.dst.toNat / 4096 == s.pkg.toNat && coreHere s (m.dst.toNat % 4096) && 1 ≤ m.ch.toNat && m.ch.toNat ≤ 5 && m.typ == 0 &&
  m.len.toNat ≤ 14 && m.body.length == m.len.toNat && !m.ord

/-- MESSAGE_ARRIVE: from the mesh, after every earlier message of its sender on its channel (R246), or from a link. -/
def execMessageArrive (src : ArriveFrom) (s : State) : Out :=
  match src with
  | .lyspor m => if farMsgOk s m then .next (reach s (m.dst.toNat % 4096) m).1 else .next s
  | .mesh i =>
    match s.mesh[i]? with
    | none => .next s
    | some fl =>
      if (s.mesh.take i).any (fun x => x.src == fl.src && x.msg.dst == fl.msg.dst && x.msg.ch == fl.msg.ch) then .next s
      else
        let r := reach s (fl.msg.dst.toNat % 4096) fl.msg
        .next (if r.2 then { r.1 with mesh := listRemove r.1.mesh i } else r.1)

/-- SPILL_RETURN (R247, R260): the oldest spilled message of a channel, or record of a column, once room appears. -/
def execSpillReturn (n : Nat) (sel : SpillSel) (s : State) : Out :=
  let c := s.core n
  if c.cstate == 2 || c.cstate == 3 then .next s
  else match sel with
    | .chan ch =>
      (match c.spill.find? (fun x => match x with | .msg m => m.msg.ch.toNat == ch | _ => false) with
       | some (.msg m) =>
         if Config.inboxCap < c.inboxFlits m.msg.ch + flits m.msg then .next s
         else .next (takeIn (s.setCore n { c with spill := c.spill.erase (.msg m), spillSaid := false }) n m)
       | _ => .next s)
    | .glade g col =>
      match c.spill.find? (fun x => match x with | .grec g' l _ => g' == g && l == col | _ => false) with
      | some (.grec g' l r) =>
        let x := c.glade g
        if x.depth ≤ (x.col l).length then .next s
        else .next (s.setCore n ({ c with spill := c.spill.erase (.grec g' l r), spillSaid := false }.setGlade g (x.enter l r)))
      | _ => .next s

/-! ## Creation (R251 to R253) -/

/-- Where core n has a firing's workspace, and the reserved 2 KiB of sr.tws (R354). -/
def Core.wsTaken (c : Core) : List (Nat × Nat) :=
  c.live.map (fun e => (e.2.wp, e.2.wp + wsBytes e.2.nv)) ++
  (if c.tws.getLsbD 0 then [(fld c.tws 10 10 * 1024, fld c.tws 10 10 * 1024 + 2048)] else [])

/-- The lowest 1 KiB-aligned offset of the workspace region where len bytes are free (R252). -/
def Core.wsAlloc (c : Core) (len : Nat) : Option Nat :=
  ((List.range 1024).map (· * 1024)).find? fun o =>
    c.wsLo ≤ o && o + len ≤ c.wsHi && c.wsTaken.all fun t => t.2 ≤ o || o + len ≤ t.1

/-- The lowest free slot (R252). -/
def Core.freeSlot (c : Core) : Option Nat := (List.range 64).find? fun sl => (c.firing sl).isNone

/-- What a creation consumes: messages, or records with their columns. -/
inductive Take | msgs (ms : List Queued) | recs (g : Nat) (rs : List (Nat × GRec))
  deriving DecidableEq, Repr

/-- A candidate of R251: its handler, its entry, what it takes, and its arrival. -/
structure Cand where
  h    : Nat
  e    : HandlerEntry
  take : Take
  arr  : Nat
  deriving DecidableEq, Repr

/-- Ordered messages of a handler that can be delivered one after another: each with a stamp at or below the horizon, and none
with a lower stamp left out (R284). -/
def Core.ordChain (c : Core) (hid : BitVec 8) : List Queued :=
  (sortBy (fun m => m.msg.stamp.toNat) (sortBy (fun m => m.arr) (c.undelivered hid))).takeWhile fun m =>
    c.inbox.contains m && m.msg.stamp.toNat ≤ c.hz.toNat

/-- Whether a message of a queue is held for no blocked RECV: it has been given to none, and there are as many older ones of
its launch as firings blocked there that have been given none (R251, R259). -/
def Core.unheld (c : Core) (q : List Queued) (m : Queued) : Bool :=
  let same := q.filter fun x => x.msg.ltag == m.msg.ltag && (c.keptFor x).isNone
  let open_ := (c.blockedRecv m.msg.hid m.msg.ltag).filter fun f => !(c.inbox.any fun x => c.keptFor x == some f.uid)
  (c.keptFor m).isNone && decide (open_.length ≤ (same.takeWhile fun x => x.arr != m.arr).length)

/-- Messages of a handler that a creation can take, in the order of consumption: those held for no blocked RECV; of ordered
ones none past the first that is held, which has a lower stamp and is undelivered still (R251, R259, R284). -/
def Core.available (c : Core) (hid : BitVec 8) (ord : Bool) : List Queued :=
  if ord then (c.ordChain hid).takeWhile (c.unheld (c.ordChain hid)) else (c.queuedFor hid false).filter (c.unheld (c.queuedFor hid false))

/-- The candidate of a channel-source handler. -/
def Core.chanCand (c : Core) (h : Nat) (e : HandlerEntry) : Option Cand :=
  let q := c.available (BitVec.ofNat 8 h) e.ord
  match q with
  | [] => none
  | m :: _ =>
    let same := if e.ord then q.takeWhile fun x => x.msg.ltag == m.msg.ltag else q.filter fun x => x.msg.ltag == m.msg.ltag
    if same.length < e.k then none else some ⟨h, e, .msgs (same.take e.k), m.arr⟩

/-- The record of a glade that entered first, with its column. -/
def Glade.oldest (g : Glade) : Option (Nat × GRec) :=
  ((g.cols.zipIdx).filterMap fun c => (c.1.head?).map fun r => (c.2, r)).foldl (fun m x =>
    match m with
    | none => some x
    | some y => if x.2.arr < y.2.arr then some x else some y) none

/-- The formation condition of R263. -/
def Glade.forms (g : Glade) : Bool :=
  let k := (g.cols.filter fun c => !c.isEmpty).length
  1 ≤ k && (32 ≤ k || (g.thr ≤ k && g.expired) || g.flush)

/-- The candidate of a glade-source handler. Its arrival is that of lane 0's record, and where column 0 gives none that of the
glade's oldest record (log entry 89). -/
def Core.gladeCand (c : Core) (h : Nat) (e : HandlerEntry) : Option Cand :=
  let g := c.glade e.src
  match g.oldest with
  | none => none
  | some (l, r) =>
    if !e.wave then some ⟨h, e, .recs e.src [(l, r)], r.arr⟩
    else if !g.forms then none
    else
      let rs := (g.cols.zipIdx).filterMap fun x => match x.1 with
        | y :: _ => if y.ltag == r.ltag then some (x.2, y) else none
        | [] => none
      some ⟨h, e, .recs e.src rs, ((rs.find? fun x => x.1 == 0).map fun x => x.2.arr).getD r.arr⟩

/-- The candidate of a handler, if it is one (R251): a serial handler with a live firing is none, nor is any while an entry waits
for the core's cancel filter (R281). -/
def Core.candOf (c : Core) (h : Nat) : Option Cand :=
  match c.entry h with
  | none => none
  | some e =>
    if e.ser && c.live.any (fun x => x.1 != trapSlot && x.2.hid.toNat == h) then none
    else if !c.filterWait.isEmpty then none
    else if e.glade then (if c.gladeOk e.src then c.gladeCand h e else none)
    else c.chanCand h e

/-- Whether a candidate comes before another. -/
def Cand.before (a b : Cand) : Bool :=
  b.e.pri < a.e.pri || (a.e.pri == b.e.pri && (a.arr < b.arr || (a.arr == b.arr && a.h < b.h)))

/-- Handlers that can have something queued: those of the messages, and the valid entries, well formed or not, that name a glade
with records. -/
def Core.busyHandlers (c : Core) : List Nat :=
  (c.inbox.map fun m => m.msg.hid.toNat) ++ ((List.range 16).filterMap fun g =>
    if (c.glade g).standing then some g else none).flatMap fun g => (List.range 256).filter fun h => c.namesGlade h g

/-- The first candidate. -/
def Core.firstCand (c : Core) : Option Cand :=
  (c.busyHandlers.eraseDups.filterMap c.candOf).foldl (fun m x =>
    match m with
    | none => some x
    | some y => if x.before y then some x else some y) none

/-- Words of a wave's lane L from a body (R253). -/
def laneWords (nv L : Nat) (body : List W64) : List (Nat × W32) :=
  (body.zipIdx).flatMap fun e =>
    (if 2 * e.2 < nv then [(32 * (2 * e.2) + L, e.1.extractLsb' 0 32)] else []) ++
    (if 2 * e.2 + 1 < nv then [(32 * (2 * e.2 + 1) + L, e.1.extractLsb' 32 32)] else [])

/-- The bodies a creation takes, by lane, with launch tag and stamp. -/
def Take.bodies : Take → List (Nat × List W64)
  | .msgs ms => (ms.zipIdx).map fun e => (e.2, e.1.msg.body)
  | .recs _ rs => rs.map fun e => (e.1, e.2.body)

def Take.ltag : Take → W32
  | .msgs ms => ((ms.head?).map fun m => m.msg.ltag).getD 0
  | .recs _ rs => ((rs.head?).map fun r => r.2.ltag).getD 0

def Take.stamp (ord : Bool) : Take → Option (BitVec 48)
  | .msgs ms => if ord then (ms.head?).map fun m => m.msg.stamp else none
  | .recs .. => none

/-- The new firing (R118, R253). -/
def newFiring (uid wp : Nat) (x : Cand) : Firing :=
  let bs := x.take.bodies
  let f : Firing :=
    { uid := uid, hid := BitVec.ofNat 8 x.h, wave := x.e.wave, ns := x.e.ns, nv := x.e.nv, plive := x.e.plive, scope := x.e.scope,
      pri := x.e.pri, ordered := x.e.ord, gsrc := x.e.glade, wp := wp, ltag := x.take.ltag, stamp := x.take.stamp x.e.ord,
      taken := bs.length,
      paths := { pc := x.e.pc, mask := if x.e.wave then laneMask (fun L => bs.any fun b => b.1 == L) else 1, pri := 4, st := 1 } ::
        List.replicate 7 {} }
  if x.e.wave then f.putV (bs.flatMap fun b => laneWords x.e.nv b.1 b.2)
  else f.putS ((bs.take 1).flatMap fun b => (b.2.zipIdx).map fun e => (e.2 + 1, e.1))

/-- What a creation takes leaves its queue or its columns; a wave's formation restarts the timer (R263). -/
def Core.consume (c : Core) (wave : Bool) : Take → Core
  | .msgs ms => { c with inbox := c.inbox.filter fun m => !(ms.any fun x => x.arr == m.arr) }
  | .recs g rs =>
    let x := c.glade g
    let x := { x with cols := (x.cols.zipIdx).map fun e => if rs.any (fun r => r.1 == e.2) then e.1.drop 1 else e.1 }
    let x := if wave then { x with running := true, expired := false } else x
    (c.setGlade g x).settleGlade g

/-- Messages and records of cancelled launches that would next be consumed are discarded and counted off (R281). -/
def purge (s : State) (n : Nat) : State :=
  let c := s.core n
  let go := fun (m : Queued) => c.filtered m.msg.ltag
  let ms := c.inbox.filter go
  let rs := c.glades.flatMap fun g => g.cols.flatMap fun col => col.filter fun r => c.filtered r.ltag
  let c' := { c with inbox := c.inbox.filter fun m => !go m,
                     glades := c.glades.map fun g => { g with cols := g.cols.map fun col => col.filter fun r => !c.filtered r.ltag } }
  let c' := (List.range 16).foldl (fun c g => c.settleGlade g) c'
  let s := ms.foldl (fun s m => countDiscard s n m.msg.ltag) (s.setCore n c')
  rs.foldl (fun s r => countDiscard s n r.ltag) s

/-- Whether the core holds anything of a cancelled launch to discard. -/
def Core.needsPurge (c : Core) : Bool :=
  c.filterWait.isEmpty && ((c.inbox.any fun m => c.filtered m.msg.ltag) ||
    c.glades.any fun g => g.cols.any fun col => col.any fun r => c.filtered r.ltag)

/-- FIRING_CREATION (R251): the first candidate, where a slot and a workspace are free. A core that a swap empties creates
none (R371); an ill-formed entry met on the way is reported (R249). -/
def execFiringCreation (n : Nat) (s : State) : Out :=
  let c := s.core n
  if !c.placed || c.loading || c.cstate != 0 || c.swapping then .next s
  else match c.busyHandlers.find? (fun h => c.entryBad h && !c.metBad.contains h) with
  | some h => .next (meetEntry s n h)
  | none =>
  if c.needsPurge then .next (purge s n)
  else match c.firstCand with
    | none => .next s
    | some x =>
      match c.freeSlot, c.wsAlloc (wsBytes x.e.nv) with
      | some sl, some wp =>
        let f := newFiring (s.fresh + 1) wp x
        .next { s.setCore n ((c.consume x.e.wave x.take).setFiring sl f) with fresh := s.fresh + 1 }
      | _, _ => .next s

/-- GLADE_TIMER_EXPIRY (R263). -/
def execGladeTimerExpiry (n g : Nat) (s : State) : Out :=
  let c := s.core n
  let x := c.glade g
  if g < 16 && x.running && !x.expired && x.standing then .next (s.setCore n (c.setGlade g { x with expired := true })) else .next s

/-- PRIORITY_AGEING (R255): the firing was ready for 1,024 cycles and issued on neither pipe. -/
def execPriorityAgeing (n sl : Nat) (s : State) : Out :=
  match s.firing n sl with
  | none => .next s
  | some f =>
    if firingReady s n sl f && f.pri + f.boost < 7 then .next (s.setFiring n sl { f with boost := f.boost + 1 }) else .next s

/-! ## What waited at a core: the end of a filter's wait (R281), and of an image load (R83) -/

/-- Glade messages that stayed in the inbox while an entry waited for the core's cancel filter go on into their columns. -/
def admitRecs (s : State) (n : Nat) : State :=
  let c := s.core n
  let isRec := fun (m : Queued) => match c.entry m.msg.hid.toNat with | some e => c.takesRec e | none => false
  if c.inbox.any isRec && routes s c then
    (c.inbox.filter isRec).foldl (fun s m => takeIn s n m) (s.setCore n { c with inbox := c.inbox.filter fun m => !isRec m })
  else s

/-- CANCEL_FILTER_REMOVE: the second broadcast (R280), after which a core whose filter has room again goes on consuming. -/
def execCancelFilterRemove (tag : W32) (s : State) : Out :=
  if !mayRemove s tag then .next s
  else
    let s := removeTag s tag
    .next ((s.cores.map (·.1)).foldl admitRecs s)

/-- Messages that waited for the image pass the acceptance checks now (R248). -/
def admitWaiting (s : State) (n : Nat) : State :=
  let c := s.core n
  if !routes s c then s
  else c.inbox.foldl (fun s m => takeIn s n m) (s.setCore n { c with inbox := [] })

/-- IMAGE_LOADED: every placed core has reported; what waited for the image is admitted, and a core under no placement
holds no handler table. -/
def execImageLoaded (s : State) : Out :=
  match s.load with
  | none => .next s
  | some l =>
    if l.tree.any fun e => !l.ready.contains e.child then .next s
    else
      let s := l.tree.foldl (fun s e => s.updCore e.child fun c => { c with loading := false }) s
      let s := { s with load := none, loaded := true, host := { s.host with imgStatus := 0, imgLast := l.bytes } }
      let s := (s.cores.map (·.1)).foldl admitWaiting s
      .next (pushLoad s 0 l.addr)

end Sys2Proof.Machine
end

