-- ==== Sys2Proof/Machine/TrapEvents.lean ====
section
/-! DEFINITION. Trap events (R353 to R355) and the completions of the SFU (R165) and the matrix unit (R184). -/

namespace Sys2Proof.Machine

/-- TRAP_TAKEN (R353): the trap that meets a firing's next instruction before its execution. -/
def execTrapTaken (n sl : Nat) (t : TrapCause) (s : State) : Out :=
  if sl = trapSlot then .next s
  else match issueTrap s n sl with
    | some (s', t') => if t' = t then .next (takeTrap s' n sl t) else .next s
    | none => .next s

/-- DOUBLE_TRAP (R355): the same in the trap handler. -/
def execDoubleTrap (n : Nat) (s : State) : Out :=
  match issueTrap s n trapSlot with
  | some (s', t) => .next (takeTrap s' n trapSlot t)
  | none => .next s

/-- The trap handler's firing (R354): its subject's slot, code, launch tag and tail offset in s1 to s4. -/
def trapHandler (uid wp slot : Nat) (c : Core) (f : Firing) : Firing :=
  { uid := uid, ns := 64, pri := 7, plive := 0xFF, scope := 0x4000000000000000, wp := wp, ltag := f.ltag,
    paths := { pc := c.tvec &&& 0x00FFFFFFFFFFFFFC, mask := 1, pri := 4, st := 1 } :: List.replicate 7 {} : Firing }.putS
    [(1, BitVec.ofNat 64 slot), (2, f.last.setWidth 64), (3, f.ltag.setWidth 64), (4, BitVec.ofNat 64 (512 + f.nv * 128))]

/-- Every queued firing is killed, its record to the host queue: sr.tvec is not valid (R354). -/
def killQueued (s : State) (n : Nat) : State :=
  (s.core n).trapQ.foldl (fun s sl =>
    match s.firing n sl with
    | none => s
    | some f => pushTrap (killFiring s n sl) n 8 f.trec) s

/-- TRAP_HANDLER_CREATE (R354). -/
def execTrapHandlerCreate (n : Nat) (s : State) : Out :=
  let c := s.core n
  if (c.firing trapSlot).isSome || 2 ≤ c.cstate || c.swapping then .next s
  else match c.trapQ with
    | [] => .next s
    | sl :: _ =>
      if !c.tvec.getLsbD 0 then .next (killQueued s n)
      else
        let wp := if c.tws.getLsbD 0 then some (fld c.tws 10 10 * 1024) else c.wsAlloc 2048
        match wp, c.firing sl with
        | some wp, some f =>
          let h := trapHandler (s.fresh + 1) wp sl c f
          .next { s.setCore n { c.setFiring trapSlot h with subject := some sl, subjRec := f.trec } with fresh := s.fresh + 1 }
        | _, _ => .next s

/-! ## The SFU and the matrix unit -/

/-- The lanes' operands of an entry, read when its service starts (R165). -/
def sfuOperands (f : Firing) (e : SfuEnt) : List (Nat × W32) :=
  lanes.map fun L => (L, match e.sa with
    | .const i => BitVec.ofNat 32 (floatConst .f32 i)
    | a => f.srcV L a)

/-- The first element that meets a test, replaced. -/
def replaceFirst {α : Type} (p : α → Bool) (g : α → α) : List α → List α
  | [] => []
  | x :: xs => if p x then g x :: xs else x :: replaceFirst p g xs

/-- An entry with its operands read. -/
def SfuEnt.start (c : Core) (e : SfuEnt) : SfuEnt :=
  match c.firing e.slot with
  | some f => { e with vals := some (sfuOperands f e) }
  | none => e

/-- SFU_SERVICE_START (R165): the oldest entry not yet served reads its operands. -/
def execSfuServiceStart (n : Nat) (s : State) : Out :=
  let c := s.core n
  .next (s.setCore n { c with sfuQ := replaceFirst (fun e => e.vals.isNone) (SfuEnt.start c) c.sfuQ })

/-- SFU_RESULT (R165): all lanes of the oldest served entry are written at once; it held its place until now (log entry 104). -/
def execSfuResult (n : Nat) (s : State) : Out :=
  let c := s.core n
  match c.sfuQ with
  | e :: rest =>
    (match e.vals, c.firing e.slot with
     | some xs, some f =>
       let ws := (xs.filter fun x => bitAt e.mask x.1).map fun x => (32 * e.d + x.1, sfuVal e.fn x.2)
       .next (s.setCore n ({ c with sfuQ := rest }.setFiring e.slot (f.putV ws)))
     | _, _ => .next s)
  | [] => .next s

/-- MATRIX_UNIT_COMPLETE (R184, R137). -/
def execMatrixUnitComplete (n : Nat) (s : State) : Out := .next (matComplete s n)

end Sys2Proof.Machine
end

