-- ==== Sys2Proof/Machine/PreemptEvents.lean ====
section
/-! DEFINITION. Events of pre-emption and REMAP (R369 to R373): drain, swap into the save area of Table 17-7, restore,
and the change of the die map. -/

namespace Sys2Proof.Machine

/-! ## Mesh interrupts -/

/-- The oldest mesh interrupt of a mode that can reach a core. -/
def irqFor (s : State) (mode n : Nat) : Option MeshIrq := s.meshIrqs.find? fun q => q.mode == mode && q.target == n && !q.held

/-- Answer a mesh interrupt's status and drop it. -/
def answerIrq (s : State) (q : MeshIrq) (status : Nat) : State :=
  answerFiring { s with meshIrqs := s.meshIrqs.erase q } q.core q.uid q.seq [BitVec.ofNat 64 status]

/-! ## Drain (R370) -/

/-- MESH_INTERRUPT_DRAIN: the target takes state draining; one that is not running gives STATE (R369). -/
def execMeshInterruptDrain (n : Nat) (s : State) : Out :=
  match irqFor s 0 n with
  | none => .next s
  | some q =>
    if (s.core n).cstate != 0 || (s.core n).swapping then .next (answerIrq s q 1)
    else
      let d : DrainSt := { core := q.core, uid := q.uid, seq := q.seq, lim := q.arg.setWidth 32 }
      .next ({ s with meshIrqs := s.meshIrqs.erase q }.updCore n fun c => { c with cstate := 1, drain := some d })

/-- Answer a drain: the core takes a state, and the asker its status. -/
def endDrain (s : State) (n : Nat) (d : DrainSt) (st status : Nat) : State :=
  answerFiring (s.updCore n fun c => { c with cstate := st, drain := none }) d.core d.uid d.seq [BitVec.ofNat 64 status]

/-- DRAIN_COMPLETE: no firing, no queued trap, no copy command remains. A core that is draining no more, since it has
halted, keeps its state, and the status is STATE. -/
def execDrainComplete (n : Nat) (s : State) : Out :=
  let c := s.core n
  match c.drain with
  | none => .next s
  | some d =>
    if c.cstate != 1 then .next (endDrain s n d c.cstate 1)
    else if c.live.isEmpty && c.trapQ.isEmpty && c.ctxs.all (fun x => x.q.isEmpty) then .next (endDrain s n d 2 0) else .next s

/-- DRAIN_TIMEOUT: the core returns to running; a limit of 0 is none. -/
def execDrainTimeout (n : Nat) (s : State) : Out :=
  let c := s.core n
  match c.drain with
  | none => .next s
  | some d =>
    if c.cstate != 1 then .next (endDrain s n d c.cstate 1)
    else if d.lim == 0 then .next s
    else .next (endDrain s n d 0 4)

/-! ## The save area (Table 17-7) -/

/-- A word of a saved workspace: predicates of plive bit 0 are zero (R111). -/
def savedWord (f : Firing) (o : Nat) : W64 :=
  let live := fun i : Nat => i == 0 || f.plive.getLsbD i
  let t := o - (512 + f.nv * 128)
  let q := fun i : Nat => if live i then f.getQ i else 0
  if 512 + f.nv * 128 ≤ o && t == 0x10 then
    BitVec.ofNat 64 (maskOf 8 fun i => live i && f.getK i)
  else if 512 + f.nv * 128 ≤ o && 0x20 ≤ t && t < 0x40 then q ((t - 0x20) / 4 + 1) ++ q ((t - 0x20) / 4)
  else f.wsRead o

/-- Whether a scratchpad granule is saved: all but the free parts of the workspace region. -/
def Core.savedAt (c : Core) (o : Nat) : Bool := !(c.wsLo ≤ o && o < c.wsHi) || (c.wsOwner o).isSome

/-- A scratchpad granule as the area holds it. -/
def Core.savedGran (c : Core) (o : Nat) : W64 :=
  match c.wsOwner o with
  | some e => savedWord e.2 (o - e.2.wp)
  | none => c.getW o

/-- The slot word of a firing. -/
def slotWord (c : Core) (sl : Nat) : Nat :=
  match c.firing sl with
  | none => 0
  | some f => f.wp + f.stop.toNat * 2 ^ 20 + (if c.trapQ.contains sl then c.trapQ.idxOf sl else 255) * 2 ^ 24

/-- The header, 2,048 bytes. -/
def saveHeader (s : State) (n : Nat) : List Byte :=
  let c := s.core n
  let w := bytesLE 8
  let gl := fun g => c.glade g
  let left := fun g => if (gl g).running && !(gl g).expired then (Config.gladeLeft (s.fresh + g)).toNat else 0
  padTo 2048 (
    [0x50, 0x5A, 0x53, 0x56] ++ leN 4 1 ++ leN 8 (gcaOf s n) ++ w c.vt ++ w c.spq ++ w c.spqsz ++
    leN 8 (maskOf 64 fun sl => (c.firing sl).isSome) ++ leN 8 c.asid.toNat ++ leN 8 0 ++
    ((List.range 64).flatMap fun sl => leN 8 (slotWord c sl)) ++
    ((List.range 16).flatMap fun i => w (c.pinned.getD i {}).w0 ++ w (c.pinned.getD i {}).w1) ++
    ((List.range 4).flatMap fun i => w (c.ctx i).i ++ w (c.ctx i).c ++ w (c.ctx i).err ++ w (c.ctx i).addr) ++
    w c.tvec ++ w c.tws ++ w c.brk0 ++ w c.brk1 ++ w c.wch0 ++ w c.wch1 ++ leN 8 (c.firing trapSlot).isSome.toNat ++ leN 8 0 ++
    ((List.range 16).flatMap fun g => (List.range 32).map fun l => BitVec.ofNat 8 ((gl g).col l).length) ++
    ((List.range 16).flatMap fun g => leN 8 (left g + (gl g).expired.toNat * 2 ^ 32 + (gl g).flush.toNat * 2 ^ 33)) ++
    ((List.range 5).flatMap fun i => leN 8 (c.inboxFlits (BitVec.ofNat 3 (i + 1)))) ++ List.replicate 88 0 ++
    ((List.range 64).flatMap fun i => bytesLE 4 (c.filter.getD i 0)))

/-- Bytes at an offset as 8-byte granules. -/
def areaGrans (off : Nat) (bs : List Byte) : List (Nat × List Byte) :=
  (List.range (bs.length / 8)).map fun i => (off + 8 * i, (bs.drop (8 * i)).take 8)

/-- The messages of an inbox channel, oldest first. -/
def Core.channelMsgs (c : Core) (ch : Nat) : List Msg := (c.inbox.filter fun m => m.msg.ch.toNat == ch).map (·.msg)

/-- Every granule of a save area that is written. -/
def saveImage (s : State) (n : Nat) : List (Nat × List Byte) :=
  let c := s.core n
  areaGrans 0 (saveHeader s n) ++
  ((List.range 5).flatMap fun i => areaGrans (0x1000 + 0x800 * i) ((c.channelMsgs (i + 1)).flatMap msgFlits)) ++
  ((List.range 16).flatMap fun g => (List.range 32).flatMap fun l =>
    areaGrans (0x10000 + 0x8000 * g + 0x400 * l) (((c.glade g).col l).flatMap (gladeRecBytes ((c.gladeHandler g).getD 0)))) ++
  (((List.range 131072).map (8 * ·)).filter c.savedAt).map fun o => (0x100000 + o, bytesLE 8 (c.savedGran o))

/-- The engine's access to the area: a command of the issuing firing's ASID. -/
def areaCmd (q : MeshIrq) (off : Nat) : Cmd :=
  { n := 0, fill := false, ds := 0, ss := 0, dst := q.arg, src := q.arg, len := 0, asid := q.asid, user := false, nt := none,
    ltag := 0, pos := off / 8, supp := false }

/-- Write areaGrans until one faults: the code and address. -/
def writeArea (n : Nat) (q : MeshIrq) : List (Nat × List Byte) → State → State × Option (Nat × Nat)
  | [], s => (s, none)
  | (o, bs) :: rest, s =>
    match sideOf s n (areaCmd q o) 0 q.arg true with
    | .bad code va => (s, some (code, va))
    | _ => writeArea n q rest (granWrite s n 0 (areaCmd q o) bs)

/-! ## Swap (R371) -/

/-- Whether a deposit of a firing keeps a swap waiting: one in error stays until its firing runs again (R212), and the swap's
own status comes at its end (R369). -/
def Dep.landing (q : MeshIrq) (n uid : Nat) (d : Dep) : Bool :=
  (match d.src with | .bad _ => false | _ => true) && !(q.core == n && q.uid == uid && q.seq == d.seq)

/-- Whether steps 2 and 3 are done: every queue drained and released, copy commands and formed batches complete. -/
def swapReady (s : State) (n : Nat) (q : MeshIrq) : Bool :=
  let c := s.core n
  c.firings.all (fun e => e.2.sq.isEmpty && e.2.wbq.isEmpty && !e.2.deps.any (Dep.landing q n e.2.uid)) &&
  !dirtyOpen s n && c.ctxs.all (fun x => x.q.isEmpty) && c.sampQ.isEmpty && c.proxies.all (fun p => p.batch.isNone || p.stopped)

/-- Whether a save area waits for a link to its home (R386). -/
def areaWaits (s : State) (n : Nat) (q : MeshIrq) (write : Bool) : Bool :=
  (List.range 32).any fun i => sideOf s n (areaCmd q (65536 * i)) 0 q.arg write == .wait

/-- The key of an area: its address in its ASID. -/
def areaKey (q : MeshIrq) : Nat := q.asid.toNat * 2 ^ 56 + (va56 q.arg).toNat

/-- A failed swap: the core runs on with every firing stopped as trapped by the code, queued in slot order. -/
def failSwap (s : State) (n : Nat) (q : MeshIrq) (code va : Nat) : State :=
  let lvl := match walk s q.asid va with | .fault l => l | _ => 15
  let t : TrapCause := if code = 0x0E then { cause code with addr := some (BitVec.ofNat 64 va) }
    else causeAt code .write (BitVec.ofNat 64 va) none lvl
  let s := ((s.core n).live).foldl (fun s e =>
    let f := e.2
    let rpc := if f.stop == 1 then f.trec.getD 2 0 else f.pc
    s.setFiring n e.1 { f with stop := 1, last := t.code, trec := trapRecord s n f t f.pc rpc (codeWord s n e.1 f.pc) }) s
  answerIrq (s.updCore n fun c =>
    { c with cstate := 0, swapping := false, trapQ := c.trapQ ++
        ((c.live.map (·.1)).filter fun sl => sl != trapSlot && !c.trapQ.contains sl) }) q 1

/-- What the core keeps of a swap that ends; its status is a deposit of a saved firing where the core swapped itself. -/
def Core.keep (c : Core) (q : MeshIrq) : Core :=
  let k := Kept.mk (areaKey q) true (c.firings.filter fun e => e.1 ≤ trapSlot) c.subject c.subjRec c.proxies
  { c with cstate := 2, swapping := false, proxies := [], kept := k :: c.kept.filter fun x => x.area != areaKey q }

/-- Write the area and end the swap. -/
def writeSwap (s : State) (n : Nat) (q : MeshIrq) : State :=
  let s := ((s.core n).credits.map (·.tag)).foldl (fun s tag => returnPool s n tag) (clearOvf s n true)
  let s := s.updCore n fun c => { c with samp := [] }
  let r := writeArea n q (saveImage s n) { s with fresh := s.fresh + 16 }
  match r.2 with
  | some e => failSwap r.1 n q e.1 e.2
  | none => (answerIrq r.1 q 0).updCore n fun c => c.keep q

/-- MESH_INTERRUPT_SWAP: the firings stop; once all that waits has drained, the area is written. -/
def execMeshInterruptSwap (n : Nat) (s : State) : Out :=
  match irqFor s 1 n with
  | none => .next s
  | some q =>
    let c := s.core n
    if c.swapping then (if swapReady s n q && !areaWaits s n q true then .next (writeSwap s n q) else .next s)
    else if c.cstate != 0 then .next (answerIrq s q 1)
    else .next ((stopAll s n 3).updCore n fun c => { c with swapping := true })

/-! ## Restore (R372) -/

/-- Read granules; none where one faults. -/
def readArea (n : Nat) (q : MeshIrq) : List Nat → State → Option (State × List (Nat × W64))
  | [], s => some (s, [])
  | o :: rest, s =>
    match sideOf s n (areaCmd q o) 0 q.arg false with
    | .bad _ _ => none
    | _ =>
      let r := granRead s n (areaCmd q o)
      (readArea n q rest r.1).map fun t => (t.1, (o, w64OfLE r.2) :: t.2)

/-- A word of what was read. -/
def areaW (ws : List (Nat × W64)) (o : Nat) : W64 := ((ws.find? fun e => e.1 == o).map (·.2)).getD 0

/-- Bytes of what was read. -/
def areaBytes (ws : List (Nat × W64)) (o n : Nat) : List Byte :=
  (((List.range ((n + 7) / 8)).map fun i => o + 8 * i).flatMap fun a => bytesLE 8 (areaW ws a)).take n

/-- A message from its header and body words (Table 12-1). -/
def msgOf (ws : List (Nat × W64)) (o : Nat) : Msg :=
  let a := areaW ws o
  let b := areaW ws (o + 8)
  { dst := a.extractLsb' 0 29, ch := a.extractLsb' 29 3, hid := a.extractLsb' 32 8, len := a.extractLsb' 40 4, ord := a.getLsbD 44,
    typ := a.extractLsb' 45 3, ltag := b.extractLsb' 0 16 ++ a.extractLsb' 48 16, stamp := b.extractLsb' 16 48,
    body := (List.range (fld a 40 4)).map fun j => areaW ws (o + 16 + 8 * j) }

/-- The messages of n flits at an offset. -/
def msgsFrom (ws : List (Nat × W64)) : Nat → Nat → List Msg
  | 0, _ => []
  | n + 1, o =>
    let m := msgOf ws o
    if flits m = 1 then m :: msgsFrom ws n (o + 64)
    else match n with
      | 0 => []
      | n + 1 => m :: msgsFrom ws n (o + 128)

/-- A word of a saved tail, into the firing: every field (Tables 2-11, 17-3). -/
def Firing.loadTail (f : Firing) (t : Nat) (x : W64) : Firing :=
  if t = 8 then { f with hid := x.extractLsb' 16 8, wave := x.getLsbD 3, cur := fld x 0 3 }
  else if t = 0x340 then { f with last := x.extractLsb' 8 8, skip := x.getLsbD 3, loss := x.getLsbD 2, mode := x.extractLsb' 0 2 }
  else if t = 0x348 then { f with sfu0 := x }
  else if t = 0x350 then { f with sfu1 := x }
  else if t = 0x358 then { f with sfum := x }
  else if t = 0x360 then { f with laddr := x }
  else if t = 0x368 then { f with lcnt := x.setWidth 32 }
  else if t = 0x370 then { f with depth := x.extractLsb' 16 16 }
  else f.tailWrite t x

/-- A word of a saved workspace, into the firing. -/
def Firing.loadWs (f : Firing) (o : Nat) (x : W64) : Firing :=
  if o < 512 + f.nv * 128 then f.wsWrite o x else f.loadTail (o - 512 - f.nv * 128) x

/-- What the core keeps of the saved firings: of this area, else of the latest swap with the same workspaces. -/
def Core.keptOf (c : Core) (area : Nat) (hdr : List (Nat × W64)) : Option Kept :=
  let fits := fun (k : Kept) => (List.range 64).all fun sl =>
    (areaW hdr 0x28).getLsbD sl == (spFind k.firings sl).isSome &&
    (match spFind k.firings sl with | some f => f.wp == fld (areaW hdr (0x40 + 8 * sl)) 0 20 | none => true)
  match c.kept.find? (fun k => k.area == area && fits k) with
  | some k => some k
  | none => c.kept.find? fits

/-- A firing of which the core has kept nothing: what the area does not say is free. -/
def freeKept (uid sl wp : Nat) : Firing :=
  let w := fun i => Config.keptWord sl i
  { uid := uid, ns := 8 + 8 * fld (w 0) 0 3, nv := 8 * (fld (w 1) 0 8 % 33), ltag := (w 2).setWidth 32, taken := fld (w 3) 0 8,
    pri := fld (w 4) 0 3, plive := (w 5).setWidth 8, scope := w 6, wp := wp, paths := List.replicate 8 {} }

/-- The firings of an area before their words: from what is kept. -/
def baseFirings (s : State) (n : Nat) (q : MeshIrq) (hdr : List (Nat × W64)) : Sparse Firing :=
  match (s.core n).keptOf (areaKey q) hdr with
  | some k => k.firings.filter fun e => e.1 < trapSlot || areaW hdr 0x3F0 != 0
  | none => ((List.range 64).filter fun sl => (areaW hdr 0x28).getLsbD sl).map fun sl =>
      (sl, freeKept (s.fresh + sl + 1) sl (fld (areaW hdr (0x40 + 8 * sl)) 0 20))

/-- Word offsets of a firing's workspace. -/
def wsOffsets (f : Firing) : List Nat := (List.range (wsBytes f.nv / 8)).map (8 * ·)

/-- Offsets of the area that a restore reads after the header. -/
def restoreOffsets (c : Core) (fs : Sparse Firing) (hdr : List (Nat × W64)) : List Nat :=
  ((List.range 5).flatMap fun i =>
    (List.range (8 * min 32 (fld (areaW hdr (0x680 + 8 * i)) 0 32))).map fun j => 0x1000 + 0x800 * i + 8 * j) ++
  ((List.range 16).flatMap fun g => (List.range 32).flatMap fun l =>
    (List.range (8 * min 16 ((areaBytes hdr (0x400 + 32 * g) 32).getD l 0).toNat)).map fun j => 0x10000 + 0x8000 * g + 0x400 * l + 8 * j) ++
  (((List.range 131072).map (8 * ·)).filter fun o => !(c.wsLo ≤ o && o < c.wsHi)).map (0x100000 + ·) ++
  (fs.flatMap fun e => (wsOffsets e.2).map fun o => 0x100000 + e.2.wp + o)

/-- A saved firing with its words and its STOP: one saved while running runs again. The SFU entries that are kept of it stand
only where the area's words say of them what the swap wrote (R166; log entry 86). -/
def restoreFiring (ws hdr : List (Nat × W64)) (sl : Nat) (f : Firing) : Firing :=
  let g := (wsOffsets f).foldl (fun g o => g.loadWs o (areaW ws (0x100000 + f.wp + o))) f
  let st := if sl = trapSlot then f.stop.toNat else fld (areaW hdr (0x40 + 8 * sl)) 20 4
  { g with
    stop := if st = 1 || st = 2 then BitVec.ofNat 4 st else 0
    sfuDisc := if g.sfu0 == f.sfu0 && g.sfu1 == f.sfu1 && g.sfum == f.sfum then f.sfuDisc else [] }

/-- The glades' records of an area, by glade and column. -/
def areaRecs (ws hdr : List (Nat × W64)) (g l : Nat) : List Msg :=
  msgsFrom ws (min 16 ((areaBytes hdr (0x400 + 32 * g) 32).getD l 0).toNat) (0x10000 + 0x8000 * g + 0x400 * l)

/-- The glades as the area gives them; k is the number of the next arrival. -/
def restoreGlades (c : Core) (ws hdr : List (Nat × W64)) (k : Nat) : List Glade :=
  (c.glades.zipIdx).map fun e =>
    let g := e.2
    let w := areaW hdr (0x600 + 8 * g)
    let cols := (List.range 32).map fun l => ((areaRecs ws hdr g l).zipIdx).map fun m =>
      GRec.mk (k + 512 * g + 16 * l + m.2) m.1.ltag m.1.body
    let x := { e.1 with cols := cols }
    { x with running := x.standing, expired := w.getLsbD 32, flush := w.getLsbD 33 }

/-- Number what lies in the spill queue anew, from k, in its order. -/
def renumber (k : Nat) (xs : List Spilled) : List Spilled :=
  (xs.zipIdx).map fun e => match e.1 with
    | .msg m => .msg { m with arr := k + e.2 }
    | .grec g l r => .grec g l { r with arr := k + e.2 }

/-- The trap queue of an area. -/
def restoreTrapQ (hdr : List (Nat × W64)) : List Nat :=
  let pos := fun sl => fld (areaW hdr (0x40 + 8 * sl)) 24 8
  sortBy pos ((List.range 64).filter fun sl => (areaW hdr 0x28).getLsbD sl && pos sl != 255)

/-- The cancel filter after a restore: what the core's own holds now, and of the saved tags those still cancelled that it lacks
(R281). -/
def restoreFilter (now saved : List W32) (still : W32 → Bool) : List W32 :=
  (now ++ saved.filter fun t => t != 0 && !now.contains t && still t).take Config.filterCap

/-- Whether a tag's filter entry still stands: its record is open and cancelled; of another package that is not known here. -/
def tagCancelled (s : State) (t : W32) : Bool :=
  tagFar s t || (tagHere s t && recState s (tagIdx t) == 1 && (recFlags s (tagIdx t)).getLsbD 0)

/-- The core of an area: k numbers the arrivals; still says which tags are cancelled. -/
def restoreCore (c : Core) (q : MeshIrq) (ws hdr : List (Nat × W64)) (fs : Sparse Firing) (k : Nat) (still : W32 → Bool) : Core :=
  let msgs := (List.range 5).flatMap fun i =>
    msgsFrom ws (min 32 (fld (areaW hdr (0x680 + 8 * i)) 0 32)) (0x1000 + 0x800 * i)
  let w := areaW hdr
  let spadWs := ws.filter fun e => 0x100000 ≤ e.1 && !(c.wsLo ≤ e.1 - 0x100000 && e.1 - 0x100000 < c.wsHi)
  let trapQ := restoreTrapQ hdr
  let kept := c.keptOf (areaKey q) hdr
  let c := spadWs.foldl (fun c e => c.putW (e.1 - 0x100000) e.2) c
  { c with
    asid := (w 0x30).setWidth 16
    vt := w 0x10
    spq := w 0x18
    spqsz := w 0x20
    tvec := w 0x3C0
    tws := w 0x3C8
    brk0 := w 0x3D0
    brk1 := w 0x3D8
    wch0 := w 0x3E0
    wch1 := w 0x3E8
    pinned := (List.range 16).map fun i => Pin.mk (w (0x240 + 16 * i) &&& 0xFFFFFFFFFFFF8CFF) (w (0x248 + 16 * i) &&& 0xFFFFF)
    ctxs := (List.range 4).map fun i =>
      Ctx.mk (w (0x340 + 32 * i)) (w (0x348 + 32 * i)) (w (0x350 + 32 * i)) (w (0x358 + 32 * i)) [] []
    filter := restoreFilter c.filter ((List.range 64).map fun i => w32OfLE (areaBytes hdr (0x700 + 8 * (i / 2)) 8 |>.drop (4 * (i % 2)))) still
    inbox := (msgs.zipIdx).map fun m => Queued.mk (k + m.2) m.1 none
    glades := restoreGlades c ws hdr (k + 256)
    spill := renumber (k + 16384) c.spill
    firings := fs.map fun e => (e.1, restoreFiring ws hdr e.1 e.2)
    trapQ := trapQ
    subject := if w 0x3F0 = 0 then none else match kept with | some x => x.subject | none => trapQ.head?
    subjRec := (kept.map (·.subjRec)).getD []
    proxies := (kept.map (·.proxies)).getD []
    kept := c.kept.map fun k => if some k.area = kept.map (·.area) then { k with out := false } else k
    cstate := 0 }

/-- The SFU entries of firings that ran are reissued (R166). -/
def reissueAll (s : State) (n : Nat) : State :=
  ((s.core n).live).foldl (fun s e =>
    if e.2.stopped then s
    else (reissueSfu s n e.1 e.2).setFiring n e.1 { e.2 with sfu0 := 0, sfu1 := 0, sfum := 0, sfuDisc := [] }) s

/-- MESH_INTERRUPT_RES: the target must be pre-empted, and the area its own. A fault on the area gives STATE. -/
def execMeshInterruptRes (n : Nat) (s : State) : Out :=
  match irqFor s 2 n with
  | none => .next s
  | some q =>
    if (s.core n).cstate != 2 then .next (answerIrq s q 1)
    else if areaWaits s n q false then .next s
    else match readArea n q ((List.range 256).map (8 * ·)) s with
      | none => .next (answerIrq s q 1)
      | some h =>
        if areaW h.2 8 != BitVec.ofNat 64 (gcaOf s n) then .next (answerIrq h.1 q 1)
        else
          let fs := baseFirings h.1 n q h.2
          match readArea n q (restoreOffsets (h.1.core n) fs h.2) h.1 with
          | none => .next (answerIrq h.1 q 1)
          | some r =>
            let k := r.1.fresh + 128
            let t := r.1.updCore n fun c => restoreCore c q r.2 h.2 fs k (tagCancelled r.1)
            .next (answerIrq (reissueAll { t with fresh := k + 16384 + (r.1.core n).spill.length } n) q 0)

/-! ## REMAP (R373) -/

/-- Whether a message is on its way to a core of a virtual die: in the mesh, a ray at its home, or a mesh interrupt; one for a
swap that has begun has arrived. -/
def enRoute (s : State) (d : Nat) : Bool :=
  s.meshIrqs.any (fun q => dieOf q.target == d && !q.held && !(q.mode == 1 && (s.core q.target).swapping)) ||
  s.mesh.any (fun f => f.msg.dst.toNat / 512 == s.pkg.toNat * 8 + d) ||
  s.homeQ.any (fun r => match r with | .ray m _ => dieOf m == d | _ => false)

/-- The die map after a REMAP. -/
def swapDies (s : State) (d site : Nat) : List Nat :=
  let e := dieOfSite s site
  (s.dieMap.set e (siteOfDie s d)).set d site

/-- Whether nothing is on its way to either die of a REMAP. -/
def remapReady (s : State) (r : RemapSt) : Bool := !enRoute s r.die && !enRoute s (dieOfSite s r.site)

/-- Whether two REMAPs have a die in common. -/
def remapsMeet (s : State) (a b : RemapSt) : Bool :=
  let ds := fun (r : RemapSt) => [r.die, dieOfSite s r.site]
  (ds a).any (ds b).contains

/-- The REMAP that may take effect: the first whose dies are quiet, past none that shares a die with it. -/
def nextRemap (s : State) : Option RemapSt :=
  ((s.remaps.zipIdx).find? fun e => remapReady s e.1 && (s.remaps.take e.2).all fun x => !remapsMeet s x e.1).map (·.1)

/-- L1 and translation caches belong to a site's cores: those of two dies that change sites change hands, but for L1 data,
which goes: a line that the old site's cores left may be older than what a moved firing has acquired (R229; log entry 97). So do
the clean bytes of both sites' copies. -/
def exchangeCaches (s : State) (a b : Nat) : State :=
  let x := s.core a
  let y := s.core b
  if x.l1d.isEmpty && x.l1i.isEmpty && x.tlb.isEmpty && y.l1d.isEmpty && y.l1i.isEmpty && y.tlb.isEmpty then s
  else (s.setCore a { x with l1d := [], l1i := y.l1i, tlb := y.tlb }).setCore b { y with l1d := [], l1i := x.l1i, tlb := x.tlb }

/-- REMAP_SWITCH: once no message to either die is in flight, the map changes, the held messages go and the status is
deposited. -/
def execRemapSwitch (s : State) : Out :=
  match nextRemap s with
  | none => .next s
  | some r =>
    let e := dieOfSite s r.site
    let t := (List.range 512).foldl (fun s i => exchangeCaches s (512 * r.die + i) (512 * e + i))
      (dropClean (dropClean s r.site) (siteOfDie s r.die))
    let t := releaseWait { t with dieMap := swapDies s r.die r.site, remaps := s.remaps.erase r }
    .next (answerFiring t r.core r.uid r.seq [0])

end Sys2Proof.Machine
end

