-- ==== Sys2Proof/Machine/HostEvents.lean ====
section
/-! DEFINITION. The host's mailbox and its BAR4 window (R378, R379). -/

namespace Sys2Proof.Machine

/-! ## The mailbox (R378) -/

/-- A mailbox write that is discarded: its DELIVERY entry. -/
def mailboxBad (s : State) (off : Nat) (bytes : List Byte) (reason : Nat) : State :=
  pushDelivery s 0 none (padTo 16 bytes) reason off

/-- Whether a write is of exactly 64 bytes at a 64-byte-aligned offset of BAR2. -/
def mailboxSized (off : Nat) (bytes : List Byte) : Bool := bytes.length == 64 && off % 64 == 0 && off < 65536

/-- Kind of entry: offset bits [15:14]. -/
def mailboxKind (off : Nat) : Nat := off / 2 ^ 14 % 4

/-- A message from the bytes of an entry. -/
def mailboxMsg (bytes : List Byte) : Msg :=
  msgOf ((List.range 8).map fun i => (8 * i, w64OfLE ((bytes.drop (8 * i)).take 8))) 0

/-- Whether a tag is of index 0 or of an OPEN record of the own package. -/
def mailboxTagOk (s : State) (t : W32) : Bool := tagIdx t == 0 || (tagHere s t && recState s (tagIdx t) == 1)

/-- The checks of a message entry. -/
def mailboxMsgOk (s : State) (m : Msg) : Bool :=
  m.typ == 0 && !m.ord && 1 ≤ m.ch.toNat && m.ch.toNat ≤ 5 && m.len.toNat ≤ 6 && m.dst.toNat / 4096 == s.pkg.toNat &&
  coreHere s (m.dst.toNat % 4096) && mailboxTagOk s m.ltag

/-- An accepted message: its child is counted at the record before it enters the mesh; the host is one sender. -/
def mailboxSend (s : State) (m : Msg) : State :=
  let s := if counted m.ltag then recAdd s (tagIdx m.ltag) 1 else s
  { s with mesh := s.mesh ++ [{ src := 0, msg := m }] }

/-- Set the FIFO's entries, oldest first. -/
def setMailbox (s : State) (q : List (Nat × List Byte)) : State := { s with host := { s.host with mailbox := q } }

/-- An entry meets the FIFO of 256. act says what the entry does, none where it must wait. It acts where no other entry
is before it; else the FIFO accepts it behind the others, and while the FIFO is full the host's write waits. -/
def mailboxTake (s : State) (off : Nat) (bytes : List Byte) (act : State → Option State) : State :=
  match s.host.mailbox with
  | [] => (act s).getD (setMailbox s [(off, bytes)])
  | e :: rest =>
    if e = (off, bytes) then (act (setMailbox s rest)).getD s
    else if rest.length < 255 then setMailbox s (e :: rest ++ [(off, bytes)])
    else s

/-- What a message entry does. A tag whose record is about to finish, and a core that a REMAP moves, let it wait. -/
def mailboxMessage (off : Nat) (bytes : List Byte) (s : State) : Option State :=
  let m := mailboxMsg bytes
  if counted m.ltag && tagEnding s m.ltag then none
  else if !mailboxMsgOk s m then some (mailboxBad s off bytes 10)
  else if heldByRemap s m.dst.toNat then none
  else some (mailboxSend s m)

/-- What a launch entry does: LAUNCH.WAKE at level 0, LAUNCH.OPEN at the others; one LAUNCH entry carries the status. -/
def mailboxLaunch (off : Nat) (bytes : List Byte) (s : State) : Option State :=
  if ldBad s (ldLevel bytes == 0) bytes || ldClearing bytes then some (mailboxBad s off bytes 11)
  else if tagEnding s (ldTag bytes) || (ldParent bytes != 0 && tagEnding s (ldParent bytes)) then none
  else
    let r := launchAtHome s bytes
    some (pushLaunch r.1 none (ldTag bytes) r.2 1)

/-- What a cancel entry does: CANCEL of the tag in bytes 0 to 3; the answer of another package,
over a link, is free (log entry 12). -/
def mailboxCancel (off : Nat) (bytes : List Byte) (s : State) : Option State :=
  let t := w32OfLE (bytes.take 4)
  if tagBad s t then some (mailboxBad s off bytes 11)
  else if !tagHere s t then
    if !linkUp s then none else
    some (pushLaunch { s with fresh := s.fresh + 1 } none t (fld (Config.farWord s.fresh 0) 0 8) 2)
  else if tagEnding s t then none
  else
    let r := cancelAtHome s t
    some (pushLaunch r.1 none t r.2 2)

/-- MAILBOX_MESSAGE. -/
def execMailboxMessage (off : Nat) (bytes : List Byte) (s : State) : Out :=
  if !mailboxSized off bytes || mailboxKind off != 0 then .next s
  else .next (mailboxTake s off bytes (mailboxMessage off bytes))

/-- MAILBOX_LAUNCH. -/
def execMailboxLaunch (off : Nat) (bytes : List Byte) (s : State) : Out :=
  if !mailboxSized off bytes || mailboxKind off != 1 then .next s
  else .next (mailboxTake s off bytes (mailboxLaunch off bytes))

/-- MAILBOX_CANCEL. -/
def execMailboxCancel (off : Nat) (bytes : List Byte) (s : State) : Out :=
  if !mailboxSized off bytes || mailboxKind off != 2 then .next s
  else .next (mailboxTake s off bytes (mailboxCancel off bytes))

/-- MAILBOX_INVALID: a write of another size or alignment, or of the reserved kind. -/
def execMailboxInvalid (off : Nat) (bytes : List Byte) (s : State) : Out :=
  if !mailboxSized off bytes then .next (mailboxBad s off bytes 8)
  else if mailboxKind off = 3 then .next (mailboxBad s off bytes 9)
  else .next s

/-! ## The BAR4 window (R374, R379) -/

/-- The physical address of an offset of the window. -/
def bar4Pa (s : State) (off : Nat) : Nat := s.host.bar4Base + off

/-- BAR4_WRITE: at home, as a .G store; what no memory is at is not written. -/
def execBar4Write (off : Nat) (bytes : List Byte) (s : State) : Out :=
  let pa := bar4Pa s off
  if 2 ^ 36 < off + bytes.length then .next s
  else if paDev pa then .next (devWrite s true (pa - 0x200000000000) bytes)
  else
    let cells := ((bytes.zipIdx).map fun e => (pa + e.2, e.1)).filter fun e => paExists s s.pkg.toNat e.1 && !paDev e.1
    .next (homeWrite s (cells.map fun e => (memKey s.pkg.toNat e.1, e.2)) none)

/-- BAR4_READ: home's value; the answer is added to what the host has read. -/
def execBar4Read (off : Nat) (size : Nat) (s : State) : Out :=
  let pa := bar4Pa s off
  if 2 ^ 36 < off + size then .next s
  else
    let bs := (List.range size).map fun i =>
      if paExists s s.pkg.toNat (pa + i) then (homeBs s (memKey s.pkg.toNat (pa + i)) 1).getD 0 0 else Config.absentByte s.fresh i
    .next { s with host := { s.host with bar4Reads := s.host.bar4Reads ++ [(off, bs)] }, fresh := s.fresh + 1 }

end Sys2Proof.Machine
end

