-- ==== Sys2Proof/Machine/Predicate.lean ====
section
/-! DEFINITION. Group 001 beside the floating compares: integer compares, PLOP, PSET and the moves (R103 to R110). -/

namespace Sys2Proof.Machine

def execCmp (o : CmpOps) (s : State) : Out :=
  onF s fun f =>
    let a := f.srcS o.a
    let b := f.srcSI o.b
    let r := if o.t then intCond o.cond (a.setWidth 32) (b.setWidth 32) else intCond o.cond a b
    (f.cmpK o (f.enS o.h) r).retire false o.h (lenB o.b) .none

def execVcmp (o : VCmpOps) (s : State) : Out :=
  onF s fun f =>
    (f.cmpQ o fun L => intCond o.cond (f.srcV L o.a) (f.srcVI L o.b)).retire true o.h (lenBL o.b) .none

/-- The table's bit for three source bits (R107). -/
def plopBit (t : BitVec 8) (x y z : Bool) : Bool := t.getLsbD (4 * x.toNat + 2 * y.toNat + z.toNat)

def execPlop (o : PlopOps) (s : State) : Out :=
  onF s fun f =>
    if o.lane then
      let x := f.getQ o.s1.toNat
      let y := f.getQ o.s2.toNat
      let z := f.getQ o.s3.toNat
      let old := f.getQ o.d.toNat
      (f.setQ o.d.toNat (laneMask fun L =>
        if f.enL o.h L then plopBit o.table (bitAt x L) (bitAt y L) (bitAt z L) else bitAt old L)).retire true o.h .l64 .none
    else
      (if f.enS o.h then
        f.setK o.d.toNat (plopBit o.table (f.getK o.s1.toNat) (f.getK o.s2.toNat) (f.getK o.s3.toNat))
       else f).retire false o.h .l64 .none

/-- Predicates 1 to 7 named by a mask. -/
def predsOf (mask : Nat) : List Nat := [1, 2, 3, 4, 5, 6, 7].filter mask.testBit

def execPset (o : PsetOps) (s : State) : Out :=
  onF s fun f =>
    if o.lane then
      let en := laneMask (f.enL o.h)
      ((predsOf o.mask.toNat).foldl (fun f i =>
        f.setQ i (if o.vals.getLsbD i then f.getQ i ||| en else f.getQ i &&& ~~~ en)) f).retire true o.h .l64 .none
    else
      (if f.enS o.h then (predsOf o.mask.toNat).foldl (fun f i => f.setK i (o.vals.getLsbD i)) f
       else f).retire false o.h .l64 .none

/-- k7 to k0 as a number, bit 0 one. -/
def Firing.kBits (f : Firing) : W64 := (f.k.setWidth 64) ||| 1

def execPmovKtos (o : DOps) (s : State) : Out := onF s fun f => f.writeS o.h .l64 o.d.toNat f.kBits

/-- PMOV without a register result (R109): a later latch read of its position is invalid whatever the guard. -/
def pmovEnd (f : Firing) (h : Head) (l : Len) (g : Firing → Firing) : Firing :=
  (if f.enS h then g f else f).retire false h l .none

def execPmovStok (o : StokOps) (s : State) : Out :=
  onF s fun f =>
    let a := f.srcS o.a
    pmovEnd f o.h (lenB o.mask) fun f' =>
      (predsOf (f.srcSI o.mask).toNat).foldl (fun f i => f.setK i (a.getLsbD i)) f'

def execPmovQtos (o : QtosOps) (s : State) : Out :=
  onF s fun f => f.writeS o.h .l64 o.d.toNat ((f.getQ o.q.toNat).setWidth 64)

def execPmovStoq (o : StoqOps) (s : State) : Out :=
  onF s fun f => pmovEnd f o.h (lenB o.a) fun f' => f'.setQ o.q.toNat ((f.srcSI o.a).setWidth 32)

/-- q7 to q0 of a lane, bit 0 one. -/
def Firing.qBits (f : Firing) (l : Nat) : W32 := BitVec.ofNat 32 (maskOf 8 fun i => bitAt (f.getQ i) l)

def execVpmovQtov (o : QtovOps) (s : State) : Out := onF s fun f => f.writeV o.h .l64 o.d.toNat f.qBits

/-- VPMOV.VTOQ: the mask may differ by lane (R110). -/
def execVpmovVtoq (o : VtoqOps) (s : State) : Out :=
  onF s fun f =>
    let g := fun (f' : Firing) (i : Nat) => f'.setQ i (laneMask fun L =>
      if f.enL o.h L && bitAt (f.srcVI L o.mask) i then bitAt (f.srcV L o.a) i else bitAt (f.getQ i) L)
    ([1, 2, 3, 4, 5, 6, 7].foldl g f).retire true o.h (lenBL o.mask) .none

end Sys2Proof.Machine
end

