-- ==== Sys2Proof/Machine/Dispatch.lean ====
section
/-! DEFINITION. The meaning of every instruction and event: one arm a constructor, each one direct call. -/

namespace Sys2Proof.Machine

def exec (i : Instr) (s : State) : Host.Outcome State Fault Refusal :=
  match i with
  | .add o => Sys2Proof.Machine.execAdd o s
  | .sub o => Sys2Proof.Machine.execSub o s
  | .mul o => Sys2Proof.Machine.execMul o s
  | .mulh o => Sys2Proof.Machine.execMulh o s
  | .mulhu o => Sys2Proof.Machine.execMulhu o s
  | .div o => Sys2Proof.Machine.execDiv o s
  | .divu o => Sys2Proof.Machine.execDivu o s
  | .rem o => Sys2Proof.Machine.execRem o s
  | .remu o => Sys2Proof.Machine.execRemu o s
  | .min o => Sys2Proof.Machine.execMin o s
  | .max o => Sys2Proof.Machine.execMax o s
  | .minu o => Sys2Proof.Machine.execMinu o s
  | .maxu o => Sys2Proof.Machine.execMaxu o s
  | .abs o => Sys2Proof.Machine.execAbs o s
  | .and o => Sys2Proof.Machine.execAnd o s
  | .or o => Sys2Proof.Machine.execOr o s
  | .xor o => Sys2Proof.Machine.execXor o s
  | .andn o => Sys2Proof.Machine.execAndn o s
  | .orn o => Sys2Proof.Machine.execOrn o s
  | .shl o => Sys2Proof.Machine.execShl o s
  | .shr o => Sys2Proof.Machine.execShr o s
  | .sar o => Sys2Proof.Machine.execSar o s
  | .rol o => Sys2Proof.Machine.execRol o s
  | .bfx o => Sys2Proof.Machine.execBfx o s
  | .bfxu o => Sys2Proof.Machine.execBfxu o s
  | .bfi o => Sys2Proof.Machine.execBfi o s
  | .popc o => Sys2Proof.Machine.execPopc o s
  | .clz o => Sys2Proof.Machine.execClz o s
  | .ctz o => Sys2Proof.Machine.execCtz o s
  | .brev o => Sys2Proof.Machine.execBrev o s
  | .bswap o => Sys2Proof.Machine.execBswap o s
  | .mov o => Sys2Proof.Machine.execMov o s
  | .movi o => Sys2Proof.Machine.execMovi o s
  | .moviZx o => Sys2Proof.Machine.execMoviZx o s
  | .moviHi o => Sys2Proof.Machine.execMoviHi o s
  | .lea o => Sys2Proof.Machine.execLea o s
  | .leaPc o => Sys2Proof.Machine.execLeaPc o s
  | .sel o => Sys2Proof.Machine.execSel o s
  | .cmp o => Sys2Proof.Machine.execCmp o s
  | .fcmp o => Sys2Proof.Machine.execFcmp o s
  | .vcmp o => Sys2Proof.Machine.execVcmp o s
  | .vfcmp o => Sys2Proof.Machine.execVfcmp o s
  | .plop o => Sys2Proof.Machine.execPlop o s
  | .pset o => Sys2Proof.Machine.execPset o s
  | .pmovKtos o => Sys2Proof.Machine.execPmovKtos o s
  | .pmovStok o => Sys2Proof.Machine.execPmovStok o s
  | .pmovQtos o => Sys2Proof.Machine.execPmovQtos o s
  | .pmovStoq o => Sys2Proof.Machine.execPmovStoq o s
  | .vpmovQtov o => Sys2Proof.Machine.execVpmovQtov o s
  | .vpmovVtoq o => Sys2Proof.Machine.execVpmovVtoq o s
  | .nop o => Sys2Proof.Machine.execNop o s
  | .br o => Sys2Proof.Machine.execBr o s
  | .bra o => Sys2Proof.Machine.execBra o s
  | .bru o => Sys2Proof.Machine.execBru o s
  | .brx o => Sys2Proof.Machine.execBrx o s
  | .call o => Sys2Proof.Machine.execCall o s
  | .ret o => Sys2Proof.Machine.execRet o s
  | .loop o => Sys2Proof.Machine.execLoop o s
  | .join o => Sys2Proof.Machine.execJoin o s
  | .yield o => Sys2Proof.Machine.execYield o s
  | .setpri o => Sys2Proof.Machine.execSetpri o s
  | .getpri o => Sys2Proof.Machine.execGetpri o s
  | .done o => Sys2Proof.Machine.execDone o s
  | .fadd o => Sys2Proof.Machine.execFadd o s
  | .fsub o => Sys2Proof.Machine.execFsub o s
  | .fmul o => Sys2Proof.Machine.execFmul o s
  | .ffma o => Sys2Proof.Machine.execFfma o s
  | .fmin o => Sys2Proof.Machine.execFmin o s
  | .fmax o => Sys2Proof.Machine.execFmax o s
  | .fdiv o => Sys2Proof.Machine.execFdiv o s
  | .fsqrt o => Sys2Proof.Machine.execFsqrt o s
  | .frnd o => Sys2Proof.Machine.execFrnd o s
  | .fclass o => Sys2Proof.Machine.execFclass o s
  | .fcpys o => Sys2Proof.Machine.execFcpys o s
  | .vfadd o => Sys2Proof.Machine.execVfadd o s
  | .vfsub o => Sys2Proof.Machine.execVfsub o s
  | .vfmul o => Sys2Proof.Machine.execVfmul o s
  | .vffma o => Sys2Proof.Machine.execVffma o s
  | .vfmin o => Sys2Proof.Machine.execVfmin o s
  | .vfmax o => Sys2Proof.Machine.execVfmax o s
  | .vfdiv o => Sys2Proof.Machine.execVfdiv o s
  | .vfsqrt o => Sys2Proof.Machine.execVfsqrt o s
  | .vfrnd o => Sys2Proof.Machine.execVfrnd o s
  | .vfclass o => Sys2Proof.Machine.execVfclass o s
  | .cvtFf o => Sys2Proof.Machine.execCvtFf o s
  | .cvtFi o => Sys2Proof.Machine.execCvtFi o s
  | .cvtIf o => Sys2Proof.Machine.execCvtIf o s
  | .cvtPack o => Sys2Proof.Machine.execCvtPack o s
  | .cvtEf o => Sys2Proof.Machine.execCvtEf o s
  | .vadd o => Sys2Proof.Machine.execVadd o s
  | .vsub o => Sys2Proof.Machine.execVsub o s
  | .vmul o => Sys2Proof.Machine.execVmul o s
  | .vmulh o => Sys2Proof.Machine.execVmulh o s
  | .vmad o => Sys2Proof.Machine.execVmad o s
  | .vmin o => Sys2Proof.Machine.execVmin o s
  | .vmax o => Sys2Proof.Machine.execVmax o s
  | .vand o => Sys2Proof.Machine.execVand o s
  | .vor o => Sys2Proof.Machine.execVor o s
  | .vxor o => Sys2Proof.Machine.execVxor o s
  | .vshl o => Sys2Proof.Machine.execVshl o s
  | .vshr o => Sys2Proof.Machine.execVshr o s
  | .vsar o => Sys2Proof.Machine.execVsar o s
  | .vbfx o => Sys2Proof.Machine.execVbfx o s
  | .vbfi o => Sys2Proof.Machine.execVbfi o s
  | .vpopc o => Sys2Proof.Machine.execVpopc o s
  | .vclz o => Sys2Proof.Machine.execVclz o s
  | .vbrev o => Sys2Proof.Machine.execVbrev o s
  | .vmov o => Sys2Proof.Machine.execVmov o s
  | .vsel o => Sys2Proof.Machine.execVsel o s
  | .vbcast o => Sys2Proof.Machine.execVbcast o s
  | .vext o => Sys2Proof.Machine.execVext o s
  | .voteBal o => Sys2Proof.Machine.execVoteBal o s
  | .voteAny o => Sys2Proof.Machine.execVoteAny o s
  | .voteAll o => Sys2Proof.Machine.execVoteAll o s
  | .shfl o => Sys2Proof.Machine.execShfl o s
  | .xchg o => Sys2Proof.Machine.execXchg o s
  | .wred o => Sys2Proof.Machine.execWred o s
  | .sfu o => Sys2Proof.Machine.execSfu o s
  | .mma o => Sys2Proof.Machine.execMma o s
  | .mmas o => Sys2Proof.Machine.execMmas o s
  | .mmaq o => Sys2Proof.Machine.execMmaq o s
  | .mzero o => Sys2Proof.Machine.execMzero o s
  | .mcvt o => Sys2Proof.Machine.execMcvt o s
  | .mldf o => Sys2Proof.Machine.execMldf o s
  | .mstf o => Sys2Proof.Machine.execMstf o s
  | .ld o => Sys2Proof.Machine.execLd o s
  | .st o => Sys2Proof.Machine.execSt o s
  | .lds o => Sys2Proof.Machine.execLds o s
  | .sts o => Sys2Proof.Machine.execSts o s
  | .ldx o => Sys2Proof.Machine.execLdx o s
  | .stx o => Sys2Proof.Machine.execStx o s
  | .pref o => Sys2Proof.Machine.execPref o s
  | .vld o => Sys2Proof.Machine.execVld o s
  | .vst o => Sys2Proof.Machine.execVst o s
  | .vlds o => Sys2Proof.Machine.execVlds o s
  | .vsts o => Sys2Proof.Machine.execVsts o s
  | .l1invLine o => Sys2Proof.Machine.execL1invLine o s
  | .l1invAll o => Sys2Proof.Machine.execL1invAll o s
  | .l1invXl o => Sys2Proof.Machine.execL1invXl o s
  | .l2wbLine o => Sys2Proof.Machine.execL2wbLine o s
  | .l2wbAll o => Sys2Proof.Machine.execL2wbAll o s
  | .fenceAcq o => Sys2Proof.Machine.execFenceAcq o s
  | .fenceRel o => Sys2Proof.Machine.execFenceRel o s
  | .fenceAr o => Sys2Proof.Machine.execFenceAr o s
  | .atom o => Sys2Proof.Machine.execAtom o s
  | .atomNz o => Sys2Proof.Machine.execAtomNz o s
  | .cas o => Sys2Proof.Machine.execCas o s
  | .atomsLocal o => Sys2Proof.Machine.execAtomsLocal o s
  | .atomsRemote o => Sys2Proof.Machine.execAtomsRemote o s
  | .vatom o => Sys2Proof.Machine.execVatom o s
  | .send o => Sys2Proof.Machine.execSend o s
  | .sendv o => Sys2Proof.Machine.execSendv o s
  | .recv o => Sys2Proof.Machine.execRecv o s
  | .gpost o => Sys2Proof.Machine.execGpost o s
  | .gflush o => Sys2Proof.Machine.execGflush o s
  | .requeue o => Sys2Proof.Machine.execRequeue o s
  | .qpush o => Sys2Proof.Machine.execQpush o s
  | .qflush o => Sys2Proof.Machine.execQflush o s
  | .htabGet o => Sys2Proof.Machine.execHtabGet o s
  | .htabSet o => Sys2Proof.Machine.execHtabSet o s
  | .launchWake o => Sys2Proof.Machine.execLaunchWake o s
  | .launchOpen o => Sys2Proof.Machine.execLaunchOpen o s
  | .launchClose o => Sys2Proof.Machine.execLaunchClose o s
  | .cancel o => Sys2Proof.Machine.execCancel o s
  | .lvlread o => Sys2Proof.Machine.execLvlread o s
  | .lvlreadReap o => Sys2Proof.Machine.execLvlreadReap o s
  | .vtget o => Sys2Proof.Machine.execVtget o s
  | .vtgetRep o => Sys2Proof.Machine.execVtgetRep o s
  | .vtset o => Sys2Proof.Machine.execVtset o s
  | .hzread o => Sys2Proof.Machine.execHzread o s
  | .hzreadSys o => Sys2Proof.Machine.execHzreadSys o s
  | .hzwait o => Sys2Proof.Machine.execHzwait o s
  | .hzwaitSys o => Sys2Proof.Machine.execHzwaitSys o s
  | .rsend o => Sys2Proof.Machine.execRsend o s
  | .boxt o => Sys2Proof.Machine.execBoxt o s
  | .trit o => Sys2Proof.Machine.execTrit o s
  | .rpush o => Sys2Proof.Machine.execRpush o s
  | .rpushBox o => Sys2Proof.Machine.execRpushBox o s
  | .rpop o => Sys2Proof.Machine.execRpop o s
  | .rhit o => Sys2Proof.Machine.execRhit o s
  | .rmiss o => Sys2Proof.Machine.execRmiss o s
  | .rxform o => Sys2Proof.Machine.execRxform o s
  | .rloadRay o => Sys2Proof.Machine.execRloadRay o s
  | .rloadGeom o => Sys2Proof.Machine.execRloadGeom o s
  | .rloadHit o => Sys2Proof.Machine.execRloadHit o s
  | .rstoreRay o => Sys2Proof.Machine.execRstoreRay o s
  | .rstoreGeom o => Sys2Proof.Machine.execRstoreGeom o s
  | .rstoreHit o => Sys2Proof.Machine.execRstoreHit o s
  | .cnlookDir o => Sys2Proof.Machine.execCnlookDir o s
  | .cnlookLoc o => Sys2Proof.Machine.execCnlookLoc o s
  | .cnsetDir o => Sys2Proof.Machine.execCnsetDir o s
  | .cnsetSlot o => Sys2Proof.Machine.execCnsetSlot o s
  | .thaw o => Sys2Proof.Machine.execThaw o s
  | .evict o => Sys2Proof.Machine.execEvict o s
  | .rpin o => Sys2Proof.Machine.execRpin o s
  | .rdone o => Sys2Proof.Machine.execRdone o s
  | .rlog o => Sys2Proof.Machine.execRlog o s
  | .rreplay o => Sys2Proof.Machine.execRreplay o s
  | .rreplayTri o => Sys2Proof.Machine.execRreplayTri o s
  | .bget o => Sys2Proof.Machine.execBget o s
  | .bput o => Sys2Proof.Machine.execBput o s
  | .bcopy o => Sys2Proof.Machine.execBcopy o s
  | .bfill o => Sys2Proof.Machine.execBfill o s
  | .tlreadDone o => Sys2Proof.Machine.execTlreadDone o s
  | .tlreadIss o => Sys2Proof.Machine.execTlreadIss o s
  | .tlreadErr o => Sys2Proof.Machine.execTlreadErr o s
  | .tlwait o => Sys2Proof.Machine.execTlwait o s
  | .smp o => Sys2Proof.Machine.execSmp o s
  | .smpf o => Sys2Proof.Machine.execSmpf o s
  | .sfence o => Sys2Proof.Machine.execSfence o s
  | .rsr o => Sys2Proof.Machine.execRsr o s
  | .wsr o => Sys2Proof.Machine.execWsr o s
  | .trap o => Sys2Proof.Machine.execTrap o s
  | .brk o => Sys2Proof.Machine.execBrk o s
  | .tret o => Sys2Proof.Machine.execTret o s
  | .fresume o => Sys2Proof.Machine.execFresume o s
  | .fresumeStep o => Sys2Proof.Machine.execFresumeStep o s
  | .fresumeOut o => Sys2Proof.Machine.execFresumeOut o s
  | .fkill o => Sys2Proof.Machine.execFkill o s
  | .finspectRd o => Sys2Proof.Machine.execFinspectRd o s
  | .finspectWr o => Sys2Proof.Machine.execFinspectWr o s
  | .halt o => Sys2Proof.Machine.execHalt o s
  | .preemptDrain o => Sys2Proof.Machine.execPreemptDrain o s
  | .preemptSwap o => Sys2Proof.Machine.execPreemptSwap o s
  | .preemptRes o => Sys2Proof.Machine.execPreemptRes o s
  | .remap o => Sys2Proof.Machine.execRemap o s
  | .sendBufferDepart core => Sys2Proof.Machine.execSendBufferDepart core s
  | .messageArrive src => Sys2Proof.Machine.execMessageArrive src s
  | .spillReturn core sel => Sys2Proof.Machine.execSpillReturn core sel s
  | .firingCreation core => Sys2Proof.Machine.execFiringCreation core s
  | .gladeTimerExpiry core g => Sys2Proof.Machine.execGladeTimerExpiry core g s
  | .priorityAgeing core slot => Sys2Proof.Machine.execPriorityAgeing core slot s
  | .depositLand core slot j => Sys2Proof.Machine.execDepositLand core slot j s
  | .dataerrDelivery core slot j => Sys2Proof.Machine.execDataerrDelivery core slot j s
  | .pageWalkDone core slot => Sys2Proof.Machine.execPageWalkDone core slot s
  | .storeVisible core slot j => Sys2Proof.Machine.execStoreVisible core slot j s
  | .remoteRequestServe core slot sel => Sys2Proof.Machine.execRemoteRequestServe core slot sel s
  | .atomicAtHome core slot j => Sys2Proof.Machine.execAtomicAtHome core slot j s
  | .l2CopyEviction site line => Sys2Proof.Machine.execL2CopyEviction site line s
  | .writebackAck core line => Sys2Proof.Machine.execWritebackAck core line s
  | .ackLossTimeout core slot j applied => Sys2Proof.Machine.execAckLossTimeout core slot j applied s
  | .ldxReplyTimeout core slot j => Sys2Proof.Machine.execLdxReplyTimeout core slot j s
  | .launchHomeAction j => Sys2Proof.Machine.execLaunchHomeAction j s
  | .cancelHomeAction j => Sys2Proof.Machine.execCancelHomeAction j s
  | .recordCountUpdate j => Sys2Proof.Machine.execRecordCountUpdate j s
  | .recordFinish idx => Sys2Proof.Machine.execRecordFinish idx s
  | .creditRefillReply core tag => Sys2Proof.Machine.execCreditRefillReply core tag s
  | .creditIdleReturn core tag => Sys2Proof.Machine.execCreditIdleReturn core tag s
  | .cancelFilterArrive core tag => Sys2Proof.Machine.execCancelFilterArrive core tag s
  | .cancelFilterRemove tag => Sys2Proof.Machine.execCancelFilterRemove tag s
  | .solsticeReport core => Sys2Proof.Machine.execSolsticeReport core s
  | .horizonPublish => Sys2Proof.Machine.execHorizonPublish s
  | .systemHorizonPublish others => Sys2Proof.Machine.execSystemHorizonPublish others s
  | .sfuServiceStart core => Sys2Proof.Machine.execSfuServiceStart core s
  | .sfuResult core => Sys2Proof.Machine.execSfuResult core s
  | .matrixUnitComplete core => Sys2Proof.Machine.execMatrixUnitComplete core s
  | .trapTaken core slot t => Sys2Proof.Machine.execTrapTaken core slot t s
  | .trapHandlerCreate core => Sys2Proof.Machine.execTrapHandlerCreate core s
  | .doubleTrap core => Sys2Proof.Machine.execDoubleTrap core s
  | .engineCommandStart core ctx => Sys2Proof.Machine.execEngineCommandStart core ctx s
  | .engineCommandComplete core ctx => Sys2Proof.Machine.execEngineCommandComplete core ctx s
  | .engineCommandError core ctx code => Sys2Proof.Machine.execEngineCommandError core ctx code s
  | .samplerService core => Sys2Proof.Machine.execSamplerService core s
  | .forwardTimerExpiry core desc => Sys2Proof.Machine.execForwardTimerExpiry core desc s
  | .forwardBatch core => Sys2Proof.Machine.execForwardBatch core s
  | .forwardHeadReread core desc => Sys2Proof.Machine.execForwardHeadReread core desc s
  | .forwardBatchPublish core desc => Sys2Proof.Machine.execForwardBatchPublish core desc s
  | .rayServedAtHome j => Sys2Proof.Machine.execRayServedAtHome j s
  | .canopyInvalidation core handle => Sys2Proof.Machine.execCanopyInvalidation core handle s
  | .thawRequest core => Sys2Proof.Machine.execThawRequest core s
  | .thawCopyDone core => Sys2Proof.Machine.execThawCopyDone core s
  | .thawDoneAtHome j => Sys2Proof.Machine.execThawDoneAtHome j s
  | .thawFailedAtHome j => Sys2Proof.Machine.execThawFailedAtHome j s
  | .meshInterruptDrain core => Sys2Proof.Machine.execMeshInterruptDrain core s
  | .drainComplete core => Sys2Proof.Machine.execDrainComplete core s
  | .drainTimeout core => Sys2Proof.Machine.execDrainTimeout core s
  | .meshInterruptSwap core => Sys2Proof.Machine.execMeshInterruptSwap core s
  | .meshInterruptRes core => Sys2Proof.Machine.execMeshInterruptRes core s
  | .remapSwitch => Sys2Proof.Machine.execRemapSwitch s
  | .mailboxMessage off bytes => Sys2Proof.Machine.execMailboxMessage off bytes s
  | .mailboxLaunch off bytes => Sys2Proof.Machine.execMailboxLaunch off bytes s
  | .mailboxCancel off bytes => Sys2Proof.Machine.execMailboxCancel off bytes s
  | .mailboxInvalid off bytes => Sys2Proof.Machine.execMailboxInvalid off bytes s
  | .bar4Write off bytes => Sys2Proof.Machine.execBar4Write off bytes s
  | .bar4Read off size => Sys2Proof.Machine.execBar4Read off size s
  | .deviceQueueEnable words => Sys2Proof.Machine.execDeviceQueueEnable words s
  | .attestCommand cmd => Sys2Proof.Machine.execAttestCommand cmd s
  | .attestReportDone => Sys2Proof.Machine.execAttestReportDone s
  | .imageLoadCommand cmd => Sys2Proof.Machine.execImageLoadCommand cmd s
  | .bootTreeForward core => Sys2Proof.Machine.execBootTreeForward core s
  | .coreReadyReport core => Sys2Proof.Machine.execCoreReadyReport core s
  | .imageLoaded => Sys2Proof.Machine.execImageLoaded s
  | .coreRestart gca => Sys2Proof.Machine.execCoreRestart gca s
  | .hostPowerLimit watts => Sys2Proof.Machine.execHostPowerLimit watts s
  | .registerWrite off bytes => Sys2Proof.Machine.execRegisterWrite off bytes s
  | .capabilityReady id => Sys2Proof.Machine.execCapabilityReady id s
  | .moduleReset => Sys2Proof.Machine.execModuleReset s
  | .powerLimitThrottle island => Sys2Proof.Machine.execPowerLimitThrottle island s
  | .thermalThrottle island temp => Sys2Proof.Machine.execThermalThrottle island temp s
  | .thermalHalt island temp => Sys2Proof.Machine.execThermalHalt island temp s
  | .linkStateChange lyspor num st => Sys2Proof.Machine.execLinkStateChange lyspor num st s
  | .patrolScrubError addr corrected syndrome => Sys2Proof.Machine.execPatrolScrubError addr corrected syndrome s
  | .thawCopyFailed core addr syndrome => Sys2Proof.Machine.execThawCopyFailed core addr syndrome s
  | .hostPortCompletionTimeout core slot j => Sys2Proof.Machine.execHostPortCompletionTimeout core slot j s

end Sys2Proof.Machine
end

