-- ==== Sys2Proof/Machine/Issue.lean ====
section
/-! DEFINITION. Issue (R18, R47, R255, R256): which firing a pipe takes, what one issue does, and what follows it (R365,
the return of the effective priority). -/

namespace Sys2Proof.Machine

/-! ## After an issue -/

/-- STEP at the firing's next PC (R365); data in error that wait for their trap come before it (R350). -/
def stepTrap (s : State) (n sl : Nat) (f : Firing) : State :=
  match f.badDep with
  | some (d, a) => deliverBad s n sl d a
  | none => takeTrapAt s n sl (cause 0x19) f.pc f.pc (codeWord s n sl f.pc)

/-- DEPTH's change by a taken transfer (R365). -/
def depthMove (f : Firing) : Instr → BitVec 16
  | .call o => if f.enS o.h then 1 else 0
  | .brx o => if f.enS o.h && o.d != 0 then 1 else 0
  | .ret o => if f.enS o.h then -1 else 0
  | _ => 0

/-- After the instruction of firing f has been executed: where it completed, a step asked for by FRESUME is raised (R365). An
RREPLAY whose record has not come yet has not completed. -/
def afterIssue (t : State) (n sl : Nat) (f : Firing) (i : Instr) : State :=
  match t.firing n sl with
  | none => t
  | some g =>
    if g.uid != f.uid || g.stopped || g.seq == f.seq || g.hold == .replay then t
    else
      if f.mode = 1 then stepTrap t n sl g
      else if f.mode = 2 then
        let m := depthMove f i
        let g := { g with depth := f.depth + m }
        let t := t.setFiring n sl g
        if m == -1 && f.depth == 0 then stepTrap t n sl g else t
      else t

/-! ## One issue -/

/-- Whether an execution changed its firing: one that did not was not ready (R255). -/
def progressed (t : State) (n sl : Nat) (f : Firing) : Bool := t.firing n sl != some f

/-- Issue the firing's next instruction on a pipe: a trap or a walk before it, or the instruction itself, which engages its
unit; none where the firing is not ready for the pipe. -/
def issueNext (s : State) (n sl : Nat) (f : Firing) (lane : Bool) : Option Out :=
  match look s n sl f with
  | .walk => some (.next (holdWalk s n sl f f.pc.toNat .fetch none))
  | .wait => none
  | .trap s' t => some (.next (takeTrap s' n sl t))
  | .go s' i _ =>
    let c := s'.core n
    if (uses i).lane != lane || !scoreReady c sl f i || !fpxReady c sl f || !unitReady s' n f i then none
    else match exec i { s' with who := some (n, sl) } with
      | .next t =>
        if progressed t n sl f then
          some (.next (afterIssue (if issued t n sl f then engage t n (needOf c f i) else t) n sl f i))
        else none
      | o => some o

/-- Issue a firing on a pipe: DATAERR that waits, or a completed release, comes first (R226, R350). The release of its next
instruction itself that instruction completes. -/
def issueFiring (s : State) (n sl : Nat) (lane : Bool) : Option Out :=
  match s.firing n sl with
  | none => none
  | some f =>
    if !mayLook (s.core n) sl f then none
    else match f.badDep with
      | some (d, a) => some (.next (deliverBad s n sl d a))
      | none =>
        let t := settled s n sl f
        match t.firing n sl with
        | none => some (.next t)
        | some g =>
          if g.stopped then some (.next t)
          else match issueNext t n sl g lane with
            | some o => some o
            | none => if g = f then none else some (.next t)

/-! ## Selection (R47, R256) -/

/-- The firing that holds a pipe in a chain: the trap handler first, then the lowest slot. -/
def chainHolder (c : Core) (lane : Bool) : Option Nat :=
  let hs := (c.live.filter fun e => !e.2.stopped && chainAct e.2.chain && chainLane e.2.chain == lane).map (·.1)
  if hs.contains trapSlot then some trapSlot else hs.head?

/-- Effective priority (R255). -/
def Firing.effPri (f : Firing) : Nat := min 7 (f.pri + f.boost)

/-- Index of a pipe's round-robin pointer for a priority. -/
def rrIdx (lane : Bool) (p : Nat) : Nat := lane.toNat * 8 + p

/-- The order in which a pipe tries the core's firings. -/
def issueOrder (c : Core) (lane : Bool) : List Nat :=
  match chainHolder c lane with
  | some sl => [sl]
  | none =>
    let th := if (c.firing trapSlot).isSome then [trapSlot] else []
    th ++ ([7, 6, 5, 4, 3, 2, 1, 0].flatMap fun p =>
      let slots := (c.live.filter fun e => e.1 < trapSlot && e.2.effPri == p).map (·.1)
      let k := c.rr.getD (rrIdx lane p) 0
      slots.filter (k ≤ ·) ++ slots.filter (· < k))

/-- The effective priority of a firing that has issued returns to its handler's, whether it completed or was trapped (R255). -/
def unboost (t : State) (n sl uid : Nat) : State :=
  match t.firing n sl with
  | some g => if g.uid = uid then t.setFiring n sl { g with boost := 0 } else t
  | none => t

/-- The pointer moves past the chosen slot. -/
def markChosen (s : State) (n sl p : Nat) (lane : Bool) : State :=
  if sl < trapSlot then s.updCore n fun c => { c with rr := c.rr.set (rrIdx lane p) ((sl + 1) % 64) } else s

/-- What the choice of a firing leaves behind where it has issued: its priority, and, unless it was chosen as the holder of a
chain, the pointer (R255, R256). -/
def afterChoice (s t : State) (n sl : Nat) (lane held : Bool) : State :=
  match s.firing n sl with
  | none => t
  | some f =>
    if !issued t n sl f then t
    else
      let t := unboost t n sl f.uid
      if held then t else markChosen t n sl f.effPri lane

/-- Try firings in order; held says that a chain's holder is the one tried. What a firing begins without issuing leaves its
priority and the pointer. -/
def issueFrom (s : State) (n : Nat) (lane held : Bool) : List Nat → Option Out
  | [] => none
  | sl :: rest =>
    match issueFiring s n sl lane with
    | some (.next t) => some (.next (afterChoice s t n sl lane held))
    | some o => some o
    | none => issueFrom s n lane held rest

/-- One issue on a pipe of a core. -/
def issueCore (s : State) (n : Nat) (lane : Bool) : Option Out :=
  issueFrom s n lane (chainHolder (s.core n) lane).isSome (issueOrder (s.core n) lane)

end Sys2Proof.Machine
end

