-- ==== Sys2Proof/Machine/Schedule.lean ====
section
/-! DEFINITION. Moves (log entry 6): an event of the agenda, an issue, and the default move where the agenda is empty;
and the placing of an instruction for the next step. -/

namespace Sys2Proof.Machine

/-- Whether access j of deposit i may be performed before the others of its load: it is not yet, no atomic of an earlier
place covers it, no older load still has its granule to read, and home can serve it (R216, R220, R385). -/
def accOpen (s : State) (n : Nat) (f : Firing) (i j : Nat) : Bool :=
  match f.deps[i]? with
  | none => false
  | some d =>
    match d.src with
    | .load accs =>
      (match accs[j]? with
       | none => false
       | some a => a.got.isNone && accReady f d.seq a && !olderLoad f d [a] && !a.down s n f d.seq && !a.waits s n f d.seq)
    | _ => false

/-- One access of a load, apart from the others of its deposit, in whatever order the agenda says (R216). -/
def performMove (n sl i j : Nat) (s : State) : Out :=
  match s.firing n sl with
  | none => .next s
  | some f => .next (if accOpen s n f i j then perform s n sl i j else s)

/-- One move of the agenda: an event, an issue on a pipe of a core, or one access of a load; a move that cannot happen
changes nothing. -/
def runMove (m : Move) (s : State) : Out :=
  match m with
  | .event i => exec i s
  | .issue n lane => (issueCore s n lane).getD (.next s)
  | .access n sl i j => performMove n sl i j s

/-- An issue on a core: the pipe whose turn it is, then the other. -/
def issueEither (s : State) (n : Nat) : Option Out :=
  match issueCore { s with turn := !s.turn } n s.turn with
  | some o => some o
  | none => issueCore { s with turn := !s.turn } n (!s.turn)

/-- The listed cores, those after the focus first. -/
def coreOrder (s : State) : List Nat :=
  let ks := s.cores.map (·.1)
  s.focus :: (ks.filter (s.focus < ·) ++ ks.filter (· < s.focus))

/-- An issue on the first core of a list that has one; the focus moves to what follows it. -/
def issueAmong (s : State) : List Nat → Option Out
  | [] => none
  | n :: rest =>
    match issueEither s n with
    | some (.next t) => some (.next { t with focus := (rest.head?).getD ((s.cores.map (·.1)).headD n) })
    | some o => some o
    | none => issueAmong s rest

/-- An issue on a core, the focus first. -/
def issueAny (s : State) : Option Out := issueAmong s (coreOrder s)

/-- Indices of a list. -/
def indices {α : Type} (xs : List α) : List Nat := List.range xs.length

/-- Events that a firing of core n waits for. -/
def firingEvents (n : Nat) (e : Nat × Firing) : List (State → Out) :=
  execPageWalkDone n e.1 ::
  (indices e.2.deps).flatMap (fun i => [execDepositLand n e.1 i, execRemoteRequestServe n e.1 (.load i)]) ++
  (e.2.deps.zipIdx.filter fun d => match d.1.src with | .bad _ => true | _ => false).map (fun d => execDataerrDelivery n e.1 d.2) ++
  (indices e.2.sq).flatMap (fun i => [execStoreVisible n e.1 i, execAtomicAtHome n e.1 i, execRemoteRequestServe n e.1 (.store i)]) ++
  (e.2.wbq ++ e.2.sq.filterMap fun x => match x.op with | .wb l => some l | _ => none).map (fun l => execWritebackAck n l)

/-- Events of core n that no timer holds back. -/
def coreEvents (s : State) (e : Nat × Core) : List (State → Out) :=
  let n := e.1
  let c := e.2
  c.firings.flatMap (firingEvents n) ++
  [execTrapHandlerCreate n, execSfuServiceStart n, execSfuResult n, execMatrixUnitComplete n, execSamplerService n, execSendBufferDepart n] ++
  (List.range 4).flatMap (fun i => [execEngineCommandStart n i, execEngineCommandComplete n i, execEngineCommandError n i 0x0A,
    execEngineCommandError n i 0x0B, execEngineCommandError n i 0x0E]) ++
  (releaseLines s n).map (fun l => execWritebackAck n l) ++
  c.credits.map (fun x => execCreditRefillReply n x.tag) ++ (s.homeQ.filterMap fun q => match q with
    | .refill m t true => if m = n then some (execCreditRefillReply n t) else none | _ => none) ++
  s.filterAdd.map (fun b => execCancelFilterArrive n b.key) ++ s.canopyInv.map (fun b => execCanopyInvalidation n (b.key.setWidth 16)) ++
  [execThawRequest n, execThawCopyDone n, execForwardBatch n] ++ c.proxies.map (fun p => execForwardBatchPublish n p.off) ++
  (List.range 6).map (fun ch => execSpillReturn n (.chan ch)) ++
  c.spill.filterMap (fun x => match x with | .grec g l _ => some (execSpillReturn n (.glade g l)) | _ => none) ++
  [execFiringCreation n, execMeshInterruptDrain n, execDrainComplete n, execMeshInterruptSwap n, execMeshInterruptRes n, execSolsticeReport n]

/-- Records that lie in memory. -/
def listedRecords (s : State) : List Nat :=
  (s.mem.filterMap fun e =>
    let o := e.1 - recKey s 0
    if recKey s 0 ≤ e.1 && o < 64 * 32768 && o % 64 = 8 then some (o / 64) else none)

/-- Events of the module that no timer holds back. -/
def moduleEvents (s : State) : List (State → Out) :=
  (listedRecords s).map (fun i => execRecordFinish i) ++ (indices s.homeQ).flatMap (fun i =>
    [execLaunchHomeAction i, execCancelHomeAction i, execRecordCountUpdate i, execRayServedAtHome i, execThawDoneAtHome i, execThawFailedAtHome i]) ++
  (indices s.mesh).map (fun i => execMessageArrive (.mesh i)) ++ s.filterDel.map (fun b => execCancelFilterRemove b.key) ++
  (match s.load with
   | some l => l.tree.flatMap (fun e => [execBootTreeForward e.child, execCoreReadyReport e.child]) ++ [execImageLoaded]
   | none => []) ++
  (match s.host.mailbox with
   | e :: _ => [execMailboxMessage e.1 e.2, execMailboxLaunch e.1 e.2, execMailboxCancel e.1 e.2]
   | [] => []) ++
  [execRemapSwitch, execAttestReportDone, execHorizonPublish, execSystemHorizonPublish 0xFFFFFFFFFFFFFFFF,
    execForwardBatch hostPort, execForwardBatchPublish hostPort 0]

/-- Timers of a core that may run out once nothing else happens. -/
def timerEvents (e : Nat × Core) : List (State → Out) :=
  (List.range 16).map (fun g => execGladeTimerExpiry e.1 g) ++
  e.2.proxies.flatMap (fun p => [execForwardTimerExpiry e.1 p.off, execForwardHeadReread e.1 p.off])

/-- Internal events in the order in which the default move tries them. -/
def internalEvents (s : State) : List (State → Out) := s.cores.flatMap (coreEvents s) ++ moduleEvents s ++ s.cores.flatMap timerEvents ++
  [execForwardTimerExpiry hostPort 0, execForwardHeadReread hostPort 0]

/-- The first event that changes the state. -/
def firstChange (s : State) : List (State → Out) → Option Out
  | [] => none
  | g :: rest =>
    match g s with
    | .next t => if t = s then firstChange s rest else some (.next t)
    | o => some o

/-- The default move: an issue, else an internal event; on even ticks an internal event comes first. -/
def runDefault (s : State) : Out :=
  if s.tick % 2 = 0 then
    match firstChange s (internalEvents s) with
    | some o => o
    | none => (issueAny s).getD (.next s)
  else match issueAny s with
    | some o => o
    | none => (firstChange s (internalEvents s)).getD (.next s)

/-! ## Placing an instruction -/

/-- Address of the block that withFetchWord places. -/
def placePc : Nat := 0x10000

/-- The firing that runs a placed instruction: a wave with every register, all lanes on its path. -/
def placedFiring (uid : Nat) : Firing :=
  { uid := uid, wave := true, ns := 64, nv := 256,
    paths := { pc := BitVec.ofNat 64 placePc, mask := 0xFFFFFFFF, pri := 4, st := 1 } :: List.replicate 7 {} }

/-- A page-table entry that lets a block be fetched: V, R, X, U. -/
def placedPte : W64 := 0x35

/-- Place an instruction's words for the next step, an issue on its pipe. -/
def placeWord (s : State) (nbits w : Nat) : State :=
  let c := s.core s.focus
  let b : L1IBlock := { vblk := placePc / 32, asid := c.asid, pte := placedPte, data := padTo 32 (leN (nbits / 8) w) }
  let c := { c with placed := true, cstate := 0, l1i := b :: c.l1i, firings := [(0, placedFiring (s.fresh + 1))] }
  let lane := ((decodeTableWord nbits w).map fun i => (uses i).lane).getD false
  { s.setCore s.focus c with agenda := [.issue s.focus lane], fresh := s.fresh + 1 }

end Sys2Proof.Machine
end

