-- ==== Sys2Proof/Machine/Step.lean ====
section
/-! DEFINITION. The step: the agenda's next move, else the default one (log entry 6), and the placing of an instruction
where the next step fetches. -/

namespace Sys2Proof.Machine

/-- One step of the module. -/
def step (s : State) : Host.Outcome State Fault Refusal :=
  let s := { s with tick := s.tick + 1, who := none }
  match s.agenda with
  | m :: rest => runMove m { s with agenda := rest }
  | [] => runDefault s

/-- The state with an instruction where step fetches next: its block in the L1 instruction cache of the focus core, at
the PC of a privileged wave firing placed there (log entry 17). -/
def State.withFetchWord (s : State) (nbits w : Nat) : State := placeWord s nbits w

end Sys2Proof.Machine
end

