-- ==== Sys2Proof/Safety.lean ====
section
/-! DEFINITION. What a safe state is: the invariant the claims speak of. -/

namespace Sys2Proof.Machine

/-- Memory is in its canonical form. -/
abbrev State.Inv (s : State) : Prop := Memory.wf s.mem = true

end Sys2Proof.Machine
end

