-- ==== Sys2Proof/Certificates/Slice0/Obligations.lean ====
section
/-! DEFINITION. The statements for the provers: what execution answers, family by family, what it leaves unchanged, and
what the module's events do. `WriteScalar` and `WriteLane` say what the register writes they are stated with do. -/

open Sys2Proof Sys2Proof.Machine

/-! ## What the statements speak of -/

namespace Sys2Proof.Claims

/-- Firing f, in slot sl of core n, is the one whose instruction executes. -/
def Issues (s : State) (n sl : Nat) (f : Firing) : Prop := s.who = some (n, sl) ∧ s.firing n sl = some f

/-- Execution answers the state in which firing g has taken f's place and nothing else differs. -/
abbrev Gives (i : Instr) (s : State) (n sl : Nat) (g : Firing) : Prop := exec i s = .next (s.setFiring n sl g)

/-- Operands under .W (R87): 32 bits or 64. -/
def bits (w : Bool) : Nat := if w then 32 else 64
def sintW (w : Bool) (x : W64) : Int := if w then (x.setWidth 32).toInt else x.toInt
def uintW (w : Bool) (x : W64) : Int := if w then ((x.setWidth 32).toNat : Int) else (x.toNat : Int)

/-- The result of an exact operation under SAT (R89), extended as Table 4-3 says. -/
def SatResult (g : Int → Int → Int) (sat : Sat) (w : Bool) (a b r : W64) : Prop :=
  match sat with
  | .wrap => r.toInt = (g (sintW w a) (sintW w b)).bmod (2 ^ bits w)
  | .ss => r.toInt = max (-2 ^ (bits w - 1)) (min (2 ^ (bits w - 1) - 1) (g (sintW w a) (sintW w b)))
  | .us => (r.toNat : Int) = max 0 (min (2 ^ bits w - 1) (g (uintW w a) (uintW w b)))

/-- What a scalar integer form of two sources, or of one, makes of its firing with the result r: the register gets r, the
latch a 32-bit result zero-extended (R49, R87). -/
abbrev aluTo (f : Firing) (o : AluOps) (r : W64) : Firing := f.writeLS o.h (lenB o.b) o.d.toNat r (latch32 o.w r)
abbrev unTo (f : Firing) (o : UnOps) (r : W64) : Firing := f.writeLS o.h .l64 o.d.toNat r (latch32 o.w r)

/-- Firings that differ in nothing an instruction's own effect does not touch: identity, image of the path table beyond
the current entry, store queue, deposits, trap and debug registers. -/
def SameRest (f g : Firing) : Prop :=
  g.uid = f.uid ∧ g.hid = f.hid ∧ g.wave = f.wave ∧ g.ns = f.ns ∧ g.nv = f.nv ∧ g.plive = f.plive ∧ g.scope = f.scope ∧
  g.pri = f.pri ∧ g.ordered = f.ordered ∧ g.wp = f.wp ∧ g.ltag = f.ltag ∧ g.stamp = f.stamp ∧ g.taken = f.taken ∧
  g.trec = f.trec ∧ g.last = f.last ∧ g.loss = f.loss ∧ g.bad = f.bad ∧ g.mode = f.mode ∧ g.sfu0 = f.sfu0 ∧
  g.sfu1 = f.sfu1 ∧ g.sfum = f.sfum ∧ g.laddr = f.laddr ∧ g.lcnt = f.lcnt ∧ g.depth = f.depth ∧ g.stop = f.stop ∧
  g.sq = f.sq ∧ g.wbq = f.wbq ∧ g.rel = f.rel ∧ g.relMore = f.relMore ∧ g.boost = f.boost ∧ g.gsrc = f.gsrc ∧ g.rbrk = f.rbrk ∧ g.sfuDisc = f.sfuDisc

/-- The frame of a form that writes registers only: every byte of memory and everything beside the firing is as before,
and the firing keeps every register but those named, its flags where they are not named, and the rest. -/
structure Frame (s t : State) (n sl : Nat) (f : Firing) (sd vd kd qd : List Nat) (fp : Bool) : Prop where
  bytes : ∀ a, t.getB a = s.getB a
  only  : ∃ g, t = s.setFiring n sl g ∧ t.firing n sl = some g ∧
    (∀ r, r ∉ sd → g.getS r = f.getS r) ∧ (∀ r l, r ∉ vd → l < 32 → g.getV r l = f.getV r l) ∧
    (∀ k, k ∉ kd → k < 8 → g.getK k = f.getK k) ∧ (∀ q, q ∉ qd → q < 8 → g.getQ q = f.getQ q) ∧
    (fp = false → g.fpst = f.fpst) ∧ g.deps = f.deps ∧ SameRest f g

/-- Destination of the scalar integer forms (group 000). -/
def scalarDest : Instr → Option (BitVec 6)
  | .add o | .sub o | .mul o | .mulh o | .mulhu o | .div o | .divu o | .rem o | .remu o | .min o | .max o | .minu o
  | .maxu o | .and o | .or o | .xor o | .andn o | .orn o | .shl o | .shr o | .sar o | .rol o | .bfx o | .bfxu o => some o.d
  | .abs o | .popc o | .clz o | .ctz o | .brev o | .bswap o | .mov o => some o.d
  | .bfi o => some o.d
  | .movi o => some o.d
  | .moviZx o | .moviHi o => some o.d
  | .lea o => some o.d
  | .leaPc o => some o.d
  | .sel o => some o.d
  | _ => none

end Sys2Proof.Claims

open Sys2Proof.Claims

/-! ## Scalar instructions -/

/-- R56, R49, R51, R40, R27: what WriteS does to a firing whose path table holds its current path: with the guard true and
NW = 0 the destination holds the value (s0 reads zero), every other register keeps its value, and the PC goes on; the
latch holds the latched value, and zero where the guard is false. A 32-bit result is latched zero-extended. -/
def Sys2Proof.Claims.WriteScalar : Prop :=
  (∀ (f : Firing) (h : Head) (l : Len) (d : Nat) (x y : W64), f.cur < f.paths.length →
    (∀ r, (f.writeLS h l d x y).getS r = if f.enS h = true ∧ h.nw = false ∧ r = d ∧ d ≠ 0 then x else f.getS r) ∧
    (f.writeLS h l d x y).pc = nextPc f.pc l ∧
    (h.c = false → (f.writeLS h l d x y).chain = 0) ∧
    (h.c = true → (f.writeLS h l d x y).srcS (.ls 0) = (if f.enS h = true then y else 0) ∧
      (chainPos f.chain < 7 → latchOk (f.writeLS h l d x y) false 0 = true))) ∧
  (∀ (f : Firing) (h : Head) (l : Len) (d : Nat) (x : W64), f.writeS h l d x = f.writeLS h l d x x) ∧
  ∀ x : W64, latch32 false x = x ∧ (latch32 true x).toNat = x.toNat % 2 ^ 32

/-- R89, Table 4-3: ADD, SUB, MUL and ABS. -/
def Sys2Proof.Claims.AddSubMulAbs : Prop :=
  (∀ o s n sl f, Issues s n sl f → ∃ r, SatResult (· + ·) o.sat o.w (f.srcS o.a) (f.srcSI o.b) r ∧
    Gives (.add o) s n sl (aluTo f o r)) ∧
  (∀ o s n sl f, Issues s n sl f → ∃ r, SatResult (· - ·) o.sat o.w (f.srcS o.a) (f.srcSI o.b) r ∧
    Gives (.sub o) s n sl (aluTo f o r)) ∧
  (∀ o s n sl f, Issues s n sl f → ∃ r, SatResult (· * ·) o.sat o.w (f.srcS o.a) (f.srcSI o.b) r ∧
    Gives (.mul o) s n sl (aluTo f o r)) ∧
  (∀ o s n sl f, Issues s n sl f → o.sat ≠ .us → ∃ r, SatResult (fun x _ => (x.natAbs : Int)) o.sat o.w (f.srcS o.a) 0 r ∧
    Gives (.abs o) s n sl (unTo f o r))

/-- R89 and R90, Tables 4-3 and 4-5: high products, division, remainder, least and greatest. -/
def Sys2Proof.Claims.ProductsQuotients : Prop :=
  ∀ (o : AluOps) (s : State) (n sl : Nat) (f : Firing) (a b : W64), Issues s n sl f → a = f.srcS o.a → b = f.srcSI o.b →
    (∃ r : W64, r.toInt = sintW o.w a * sintW o.w b / 2 ^ bits o.w ∧
      Gives (.mulh o) s n sl (aluTo f o r)) ∧
    (∃ r : W64, (r.toNat : Int) = uintW o.w a * uintW o.w b / 2 ^ bits o.w ∧
      Gives (.mulhu o) s n sl (aluTo f o r)) ∧
    (∃ r : W64, r.toInt = (if sintW o.w b = 0 then -1
        else if sintW o.w a = -2 ^ (bits o.w - 1) ∧ sintW o.w b = -1 then -2 ^ (bits o.w - 1)
        else (sintW o.w a).tdiv (sintW o.w b)) ∧
      Gives (.div o) s n sl (aluTo f o r)) ∧
    (∃ r : W64, (r.toNat : Int) = (if uintW o.w b = 0 then 2 ^ bits o.w - 1 else uintW o.w a / uintW o.w b) ∧
      Gives (.divu o) s n sl (aluTo f o r)) ∧
    (∃ r : W64, r.toInt = (if sintW o.w b = 0 then sintW o.w a
        else sintW o.w a - (sintW o.w a).tdiv (sintW o.w b) * sintW o.w b) ∧
      Gives (.rem o) s n sl (aluTo f o r)) ∧
    (∃ r : W64, (r.toNat : Int) = (if uintW o.w b = 0 then uintW o.w a
        else uintW o.w a - uintW o.w a / uintW o.w b * uintW o.w b) ∧
      Gives (.remu o) s n sl (aluTo f o r)) ∧
    (∃ r : W64, r.toInt = min (sintW o.w a) (sintW o.w b) ∧
      Gives (.min o) s n sl (aluTo f o r)) ∧
    (∃ r : W64, r.toInt = max (sintW o.w a) (sintW o.w b) ∧
      Gives (.max o) s n sl (aluTo f o r)) ∧
    (∃ r : W64, (r.toNat : Int) = min (uintW o.w a) (uintW o.w b) ∧
      Gives (.minu o) s n sl (aluTo f o r)) ∧
    (∃ r : W64, (r.toNat : Int) = max (uintW o.w a) (uintW o.w b) ∧
      Gives (.maxu o) s n sl (aluTo f o r))

/-- R91: logic and shifts, bit by bit. -/
def Sys2Proof.Claims.ScalarLogicShift : Prop :=
  ∀ (o : AluOps) (s : State) (n sl : Nat) (f : Firing) (a b : W64), Issues s n sl f → a = f.srcS o.a → b = f.srcSI o.b →
    Gives (.and o) s n sl (aluTo f o (a &&& b)) ∧
    Gives (.or o) s n sl (aluTo f o (a ||| b)) ∧
    Gives (.xor o) s n sl (aluTo f o (a ^^^ b)) ∧
    Gives (.andn o) s n sl (aluTo f o (a &&& ~~~ b)) ∧
    Gives (.orn o) s n sl (aluTo f o (a ||| ~~~ b)) ∧
    (∃ r : W64, (∀ i, r.getLsbD i = (decide (i < bits o.w) && decide (b.toNat ≤ i) && a.getLsbD (i - b.toNat))) ∧
      Gives (.shl o) s n sl (aluTo f o r)) ∧
    (∃ r : W64, (∀ i, r.getLsbD i = (decide (i + b.toNat < bits o.w) && a.getLsbD (i + b.toNat))) ∧
      Gives (.shr o) s n sl (aluTo f o r)) ∧
    (∃ r : W64, (∀ i, i < 64 → r.getLsbD i = a.getLsbD (min (i + b.toNat) (bits o.w - 1))) ∧
      Gives (.sar o) s n sl (aluTo f o r)) ∧
    (∃ r : W64, (∀ i, r.getLsbD i =
        (decide (i < bits o.w) && a.getLsbD ((i + bits o.w - b.toNat % bits o.w) % bits o.w))) ∧
      Gives (.rol o) s n sl (aluTo f o r))

/-- R92: counts and reversals. -/
def Sys2Proof.Claims.ScalarCounts : Prop :=
  ∀ (o : UnOps) (s : State) (n sl : Nat) (f : Firing) (a : W64), Issues s n sl f → a = f.srcS o.a →
    (∃ r : W64, r.toNat = (List.range (bits o.w)).countP a.getLsbD ∧
      Gives (.popc o) s n sl (unTo f o r)) ∧
    (∃ r : W64, r.toNat ≤ bits o.w ∧ (∀ i, i < r.toNat → a.getLsbD (bits o.w - 1 - i) = false) ∧
      (r.toNat < bits o.w → a.getLsbD (bits o.w - 1 - r.toNat) = true) ∧
      Gives (.clz o) s n sl (unTo f o r)) ∧
    (∃ r : W64, r.toNat ≤ bits o.w ∧ (∀ i, i < r.toNat → a.getLsbD i = false) ∧
      (r.toNat < bits o.w → a.getLsbD r.toNat = true) ∧
      Gives (.ctz o) s n sl (unTo f o r)) ∧
    (∃ r : W64, (∀ i, r.getLsbD i = (decide (i < bits o.w) && a.getLsbD (bits o.w - 1 - i))) ∧
      Gives (.brev o) s n sl (unTo f o r)) ∧
    (∃ r : W64, (∀ i, r.getLsbD i = (decide (i < bits o.w) && a.getLsbD (8 * (bits o.w / 8 - 1 - i / 8) + i % 8))) ∧
      Gives (.bswap o) s n sl (unTo f o r))

/-- R93 and R94: a field of wid bits from pos; bits above 63 read as zero. -/
def Sys2Proof.Claims.ScalarBitFields : Prop :=
  (∀ (o : AluOps) (s : State) (n sl : Nat) (f : Firing) (a ctl : W64) (pos wid : Nat), Issues s n sl f →
    a = f.srcS o.a → ctl = f.srcSI o.b → pos = ctl.toNat % 64 → wid = min (ctl.toNat / 256 % 128) 64 →
    (∃ r : W64, (∀ i, r.getLsbD i = (decide (i < wid) && a.getLsbD (pos + i))) ∧
      Gives (.bfxu o) s n sl (aluTo f o r)) ∧
    (∃ r : W64, (∀ i, i < 64 → r.getLsbD i = (decide (wid ≠ 0) && a.getLsbD (pos + min i (wid - 1)))) ∧
      Gives (.bfx o) s n sl (aluTo f o r))) ∧
  (∀ (o : BfiOps) (s : State) (n sl : Nat) (f : Firing) (a b ctl : W64) (pos wid : Nat), Issues s n sl f →
    a = f.srcS o.a → b = f.srcS o.b → ctl = f.srcSI o.ctl → pos = ctl.toNat % 64 → wid = min (ctl.toNat / 256 % 128) 64 →
    ∃ r : W64, (∀ i, i < 64 → r.getLsbD i = if pos ≤ i ∧ i < pos + wid then b.getLsbD (i - pos) else a.getLsbD i) ∧
      Gives (.bfi o) s n sl (f.writeS o.h (lenBfi o.ctl) o.d.toNat r))

/-- R97, R95, R96: moves, constants, addresses and selection, whose predicate 0 always selects, and whose guard is independent of
it. -/
def Obligations.ScalarMoves : Prop :=
  (∀ o s n sl f, Issues s n sl f → Gives (.mov o) s n sl (unTo f o (f.srcS o.a))) ∧
  (∀ h d (i : BitVec 17) s n sl f, Issues s n sl f →
    Gives (.movi ⟨h, d, .i17 i⟩) s n sl (f.writeS h .l64 d.toNat (i.signExtend 64))) ∧
  (∀ h d (i : W32) s n sl f, Issues s n sl f →
    Gives (.movi ⟨h, d, .i32 i⟩) s n sl (f.writeS h .l96 d.toNat (i.signExtend 64))) ∧
  (∀ o s n sl f, Issues s n sl f → Gives (.moviZx o) s n sl (f.writeS o.h .l96 o.d.toNat (o.imm.setWidth 64))) ∧
  (∀ o s n sl f, Issues s n sl f → ∃ r : W64, r.extractLsb' 32 32 = o.imm ∧
    r.extractLsb' 0 32 = (f.getS o.d.toNat).extractLsb' 0 32 ∧ Gives (.moviHi o) s n sl (f.writeS o.h .l96 o.d.toNat r)) ∧
  (∀ h d a b sc s n sl f, Issues s n sl f →
    Gives (.lea ⟨h, d, a, b, sc, none⟩) s n sl
      (f.writeS h .l64 d.toNat (f.srcS a + f.srcS b * BitVec.ofNat 64 (2 ^ sc.toNat)))) ∧
  (∀ h d a b sc (i : W32) s n sl f, Issues s n sl f →
    Gives (.lea ⟨h, d, a, b, sc, some i⟩) s n sl
      (f.writeS h .l96 d.toNat (f.srcS a + f.srcS b * BitVec.ofNat 64 (2 ^ sc.toNat) + i.signExtend 64))) ∧
  (∀ h d b sc (i : W32) s n sl f, Issues s n sl f →
    Gives (.leaPc ⟨h, d, b, sc, some i⟩) s n sl
      (f.writeS h .l96 d.toNat (f.pc + f.srcS b * BitVec.ofNat 64 (2 ^ sc.toNat) + i.signExtend 64))) ∧
  (∀ h d b sc s n sl f, Issues s n sl f →
    Gives (.leaPc ⟨h, d, b, sc, none⟩) s n sl
      (f.writeS h .l64 d.toNat (f.pc + f.srcS b * BitVec.ofNat 64 (2 ^ sc.toNat)))) ∧
  (∀ o s n sl f, Issues s n sl f → Gives (.sel o) s n sl (f.writeS o.h (lenB o.b) o.d.toNat
    (if f.getK o.k.toNat = o.neg then f.srcSI o.b else f.srcS o.a))) ∧
  (∀ o s n sl f, Issues s n sl f → o.k = 0 → Gives (.sel o) s n sl (f.writeS o.h (lenB o.b) o.d.toNat
    (if o.neg then f.srcSI o.b else f.srcS o.a))) ∧
  (∀ (o : SelOps) s n sl f, Issues s n sl f → f.enS o.h = false → ∃ t g, exec (.sel o) s = .next t ∧ t.firing n sl = some g ∧
    ∀ r, g.getS r = f.getS r)


/-- R87: a scalar integer form changes its destination register and nothing else. -/
def Sys2Proof.Claims.ScalarFrame : Prop :=
  ∀ i d s t n sl f, scalarDest i = some d → Issues s n sl f → exec i s = .next t →
    Frame s t n sl f [d.toNat] [] [] [] false

/-! ## Predicates -/

namespace Sys2Proof.Claims

/-- The integer conditions of Table 5-3. -/
def IntHolds {w : Nat} (c : BitVec 4) (a b : BitVec w) : Prop :=
  match c.toNat with
  | 0 => a = b
  | 1 => a ≠ b
  | 2 => a.toInt < b.toInt
  | 3 => a.toInt ≤ b.toInt
  | 4 => b.toInt < a.toInt
  | 5 => b.toInt ≤ a.toInt
  | 6 => a.toNat < b.toNat
  | 7 => a.toNat ≤ b.toNat
  | 8 => b.toNat < a.toNat
  | 9 => b.toNat ≤ a.toNat
  | 10 => a &&& b ≠ 0
  | 11 => a &&& b = 0
  | _ => False

/-- The number a finite floating value is, and the order and equality of values: −∞ below every finite value, +∞ above. -/
def ratOf (n : Bool) (m : Nat) (e : Int) : ℚ := (if n then -1 else 1) * m * (2 : ℚ) ^ e
def Below : FVal → FVal → Prop
  | .inf n, .inf n' => n = true ∧ n' = false
  | .inf n, .fin .. => n = true
  | .fin .., .inf n => n = false
  | .fin n m e, .fin n' m' e' => ratOf n m e < ratOf n' m' e'
  | _, _ => False
def Same : FVal → FVal → Prop
  | .inf n, .inf n' => n = n'
  | .fin n m e, .fin n' m' e' => ratOf n m e = ratOf n' m' e'
  | _, _ => False

/-- The second column of Table 5-4: each condition on an ordered pair. -/
def OrderedHolds (c : BitVec 4) (a b : FVal) : Prop :=
  match c.toNat with
  | 0 | 12 => Same a b
  | 1 => ¬ Same a b
  | 2 | 8 => Below a b
  | 3 | 9 => Below a b ∨ Same a b
  | 4 | 10 => Below b a
  | 5 | 11 => Below b a ∨ Same a b
  | 7 => True
  | 13 => Below a b ∨ Below b a
  | _ => False

/-- key of TLT (R106). -/
def totalKey {w : Nat} (x : BitVec w) : Int := (if x.msb then x ^^^ BitVec.ofNat w (2 ^ (w - 1) - 1) else x).toInt

/-- What a compare writes to pt and to pf (R104): its mode, whether the element is enabled, the old bit, the result. -/
def newT (mode : BitVec 2) (en old r : Bool) : Bool :=
  if mode = 0 then r && en else if en = false then old else if mode = 1 then r else if mode = 2 then old && r else old || r
def newF (mode : BitVec 2) (en old r : Bool) : Bool :=
  if mode = 0 then !r && en else if en = false then old else if mode = 1 then !r else if mode = 2 then old || !r else old && !r

/-- Firing g holds the pair that a scalar compare with result r writes, and f's other k predicates. -/
def WritesK (o : CmpOps) (f g : Firing) (r : Bool) : Prop :=
  ∀ k, 0 < k → k < 8 → g.getK k =
    if k = o.pt.toNat then newT o.mode (f.enS o.h) (f.getK k) r
    else if k = o.pf.toNat then newF o.mode (f.enS o.h) (f.getK k) r else f.getK k

/-- The same over the lanes of the q predicates. -/
def WritesQ (o : VCmpOps) (f g : Firing) (r : Nat → Bool) : Prop :=
  ∀ q L, 0 < q → q < 8 → L < 32 → (g.getQ q).getLsbD L =
    if q = o.pt.toNat then newT o.mode (f.enL o.h L) ((f.getQ q).getLsbD L) (r L)
    else if q = o.pf.toNat then newF o.mode (f.enL o.h L) ((f.getQ q).getLsbD L) (r L) else (f.getQ q).getLsbD L

end Sys2Proof.Claims

/-- R104, R105: CMP and VCMP. -/
def Obligations.IntegerCompares : Prop :=
  (∀ (o : CmpOps) (s : State) (n sl : Nat) (f : Firing), Issues s n sl f → (o.pt = o.pf → o.pt = 0) →
    ∃ (r : Bool) (g : Firing), Gives (.cmp o) s n sl (g.retire false o.h (lenB o.b) .none) ∧ WritesK o f g r ∧
      (r = true ↔ if o.t then IntHolds o.cond ((f.srcS o.a).setWidth 32) ((f.srcSI o.b).setWidth 32)
        else IntHolds o.cond (f.srcS o.a) (f.srcSI o.b))) ∧
  (∀ (o : VCmpOps) (s : State) (n sl : Nat) (f : Firing), Issues s n sl f → (o.pt = o.pf → o.pt = 0) →
    ∃ (r : Nat → Bool) (g : Firing), Gives (.vcmp o) s n sl (g.retire true o.h (lenBL o.b) .none) ∧ WritesQ o f g r ∧
      ∀ L, L < 32 → (r L = true ↔ IntHolds o.cond (f.srcV L o.a) (f.srcVI L o.b)))

/-- R106, R104 and R137: FCMP and VFCMP. Where no enabled exception is raised, the predicates and the Invalid flag; where
Invalid is raised by an enabled element and its enable is set, FPX with the flag set and no predicate written. -/
def Sys2Proof.Claims.FloatCompareForms : Prop :=
  (∀ (o : CmpOps) (s : State) (n sl : Nat) (f : Firing) (c : Bool × Bool), Issues s n sl f → (o.pt = o.pf → o.pt = 0) →
    c = (if f.enS o.h then floatCond (cmpFmt o.t) o.cond (f.fsrcS (cmpFmt o.t) o.a) (f.fsrcSI (cmpFmt o.t) o.b)
      else (false, false)) →
    (c.2 = false ∨ f.fpst.getLsbD 20 = false →
      ∃ g : Firing, Gives (.fcmp o) s n sl (g.retire false o.h (lenB o.b) .none) ∧ WritesK o f g c.1 ∧
        (g.fpst.getLsbD 4 = (f.fpst.getLsbD 4 || c.2)) ∧ ∀ i, i ≠ 4 → g.fpst.getLsbD i = f.fpst.getLsbD i) ∧
    (c.2 = true → f.fpst.getLsbD 20 = true →
      exec (.fcmp o) s = .next (takeTrap (s.setFiring n sl (f.orFlags fNV)) n sl (fpxCause fNV)))) ∧
  (∀ (o : VCmpOps) (s : State) (n sl : Nat) (f : Firing) (t : BitVec 2) (r : Nat → Bool × Bool) (inv : Bool),
    Issues s n sl f → (o.pt = o.pf → o.pt = 0) → t = (if o.t then 1 else 0) →
    (∀ L, r L = floatCond (cmpFmt o.t) o.cond ((f.fsrcV t L o.a).headD 0) ((f.fsrcVI t L o.b).headD 0)) →
    (inv = true ↔ ∃ L, L < 32 ∧ f.enL o.h L = true ∧ (r L).2 = true) →
    (inv = false ∨ f.fpst.getLsbD 20 = false →
      ∃ g : Firing, Gives (.vfcmp o) s n sl (g.retire true o.h (lenBL o.b) .none) ∧ WritesQ o f g (fun L => (r L).1) ∧
        (g.fpst.getLsbD 4 = (f.fpst.getLsbD 4 || inv)) ∧ ∀ i, i ≠ 4 → g.fpst.getLsbD i = f.fpst.getLsbD i) ∧
    (inv = true → f.fpst.getLsbD 20 = true →
      exec (.vfcmp o) s = .next (takeTrap (s.setFiring n sl (f.orFlags fNV)) n sl (fpxCause fNV))))

/-- Table 5-4: the floating conditions over values: what each gives on ordered values (zeros of either sign are the same
number), on a pair with a NaN, and who raises Invalid; and TLT, which orders patterns by their keys and raises nothing. -/
def Sys2Proof.Claims.FloatConditions : Prop :=
  (∀ (t : Fmt) (c : BitVec 4) (x y : Nat), c.toNat < 14 →
    ((t.decode x).isNan = false → (t.decode y).isNan = false →
      ((floatCond t c x y).1 = true ↔ OrderedHolds c (t.decode x) (t.decode y))) ∧
    ((t.decode x).isNan = true ∨ (t.decode y).isNan = true →
      (floatCond t c x y).1 = decide (c.toNat ∈ [1, 6, 8, 9, 10, 11, 12])) ∧
    ((floatCond t c x y).2 = true ↔
      if c.toNat ∈ [2, 3, 4, 5] then (t.decode x).isNan = true ∨ (t.decode y).isNan = true
      else (t.decode x).isSig = true ∨ (t.decode y).isSig = true)) ∧
  (∀ (t : Fmt) (a b : Bool), (floatCond t 0 (t.signBits a) (t.signBits b)).1 = true ∧
    (floatCond t 2 (t.signBits a) (t.signBits b)).1 = false) ∧
  ∀ (t : Fmt) (x y : BitVec t.width), (floatCond t 14 x.toNat y.toNat).1 = decide (totalKey x < totalKey y) ∧
    (floatCond t 14 x.toNat y.toNat).2 = false

/-- R107 to R110: PLOP, PSET and the predicate moves. -/
def Obligations.PredicateMoves : Prop :=
  (∀ (o : PlopOps) (s : State) (n sl : Nat) (f : Firing), Issues s n sl f → o.lane = false → ∃ g : Firing,
    Gives (.plop o) s n sl (g.retire false o.h .l64 .none) ∧ ∀ k, 0 < k → k < 8 → g.getK k =
      if k = o.d.toNat ∧ f.enS o.h = true then
        o.table.getLsbD (4 * (f.getK o.s1.toNat).toNat + 2 * (f.getK o.s2.toNat).toNat + (f.getK o.s3.toNat).toNat)
      else f.getK k) ∧
  (∀ (o : PlopOps) (s : State) (n sl : Nat) (f : Firing), Issues s n sl f → o.lane = true → ∃ g : Firing,
    Gives (.plop o) s n sl (g.retire true o.h .l64 .none) ∧ ∀ q L, 0 < q → q < 8 → L < 32 → (g.getQ q).getLsbD L =
      if q = o.d.toNat ∧ f.enL o.h L = true then
        o.table.getLsbD (4 * ((f.getQ o.s1.toNat).getLsbD L).toNat + 2 * ((f.getQ o.s2.toNat).getLsbD L).toNat +
          ((f.getQ o.s3.toNat).getLsbD L).toNat)
      else (f.getQ q).getLsbD L) ∧
  (∀ (o : PsetOps) (s : State) (n sl : Nat) (f : Firing), Issues s n sl f → o.lane = false → ∃ g : Firing,
    Gives (.pset o) s n sl (g.retire false o.h .l64 .none) ∧ ∀ k, 0 < k → k < 8 → g.getK k =
      if o.mask.getLsbD k = true ∧ f.enS o.h = true then o.vals.getLsbD k else f.getK k) ∧
  (∀ (o : PsetOps) (s : State) (n sl : Nat) (f : Firing), Issues s n sl f → o.lane = true → ∃ g : Firing,
    Gives (.pset o) s n sl (g.retire true o.h .l64 .none) ∧ ∀ q L, 0 < q → q < 8 → L < 32 → (g.getQ q).getLsbD L =
      if o.mask.getLsbD q = true ∧ f.enL o.h L = true then o.vals.getLsbD q else (f.getQ q).getLsbD L) ∧
  (∀ (o : DOps) (s : State) (n sl : Nat) (f : Firing), Issues s n sl f → ∃ r : W64,
    Gives (.pmovKtos o) s n sl (f.writeS o.h .l64 o.d.toNat r) ∧
    ∀ i, r.getLsbD i = (decide (i < 8) && f.getK i)) ∧
  (∀ (o : StokOps) (s : State) (n sl : Nat) (f : Firing), Issues s n sl f → ∃ g : Firing,
    Gives (.pmovStok o) s n sl (g.retire false o.h (lenB o.mask) .none) ∧ ∀ k, 0 < k → k < 8 → g.getK k =
      if (f.srcSI o.mask).getLsbD k = true ∧ f.enS o.h = true then (f.srcS o.a).getLsbD k else f.getK k) ∧
  (∀ (o : QtosOps) (s : State) (n sl : Nat) (f : Firing), Issues s n sl f →
    Gives (.pmovQtos o) s n sl (f.writeS o.h .l64 o.d.toNat ((f.getQ o.q.toNat).setWidth 64))) ∧
  (∀ (o : StoqOps) (s : State) (n sl : Nat) (f : Firing), Issues s n sl f → ∃ g : Firing,
    Gives (.pmovStoq o) s n sl (g.retire false o.h (lenB o.a) .none) ∧ ∀ q, 0 < q → q < 8 → g.getQ q =
      if q = o.q.toNat ∧ f.enS o.h = true then (f.srcSI o.a).setWidth 32 else f.getQ q) ∧
  (∀ (o : QtovOps) (s : State) (n sl : Nat) (f : Firing), Issues s n sl f → ∃ r : Nat → W32,
    Gives (.vpmovQtov o) s n sl (f.writeV o.h .l64 o.d.toNat r) ∧
    ∀ L i, (r L).getLsbD i = (decide (i < 8) && (f.getQ i).getLsbD L)) ∧
  (∀ (o : VtoqOps) (s : State) (n sl : Nat) (f : Firing), Issues s n sl f → ∃ g : Firing,
    Gives (.vpmovVtoq o) s n sl (g.retire true o.h (lenBL o.mask) .none) ∧
    ∀ q L, 0 < q → q < 8 → L < 32 → (g.getQ q).getLsbD L =
      if f.enL o.h L = true ∧ (f.srcVI L o.mask).getLsbD q = true then (f.srcV L o.a).getLsbD q
      else (f.getQ q).getLsbD L)

namespace Sys2Proof.Claims

/-- The k and q predicates that a form of group 001 may write, and the register of its moves. -/
def predDest : Instr → Option (List Nat × List Nat × List Nat × List Nat)
  | .cmp o => some ([], [], [o.pt.toNat, o.pf.toNat], [])
  | .vcmp o => some ([], [], [], [o.pt.toNat, o.pf.toNat])
  | .plop o => some ([], [], if o.lane then [] else [o.d.toNat], if o.lane then [o.d.toNat] else [])
  | .pset o =>
    let ps := (List.range 8).filter o.mask.toNat.testBit
    some ([], [], if o.lane then [] else ps, if o.lane then ps else [])
  | .pmovKtos o => some ([o.d.toNat], [], [], [])
  | .pmovQtos o => some ([o.d.toNat], [], [], [])
  | .pmovStok _ => some ([], [], [1, 2, 3, 4, 5, 6, 7], [])
  | .pmovStoq o => some ([], [], [], [o.q.toNat])
  | .vpmovQtov o => some ([], [o.d.toNat], [], [])
  | .vpmovVtoq _ => some ([], [], [], [1, 2, 3, 4, 5, 6, 7])
  | _ => none

end Sys2Proof.Claims

/-- R101, R104, R107 to R110: a form of group 001 changes the predicates or the register it names, and nothing else. -/
def Sys2Proof.Claims.PredicateFrame : Prop :=
  ∀ i sd vd kd qd s t n sl f, predDest i = some (sd, vd, kd, qd) → Issues s n sl f → exec i s = .next t →
    Frame s t n sl f sd vd kd qd false

/-! ## Control flow -/

namespace Sys2Proof.Claims

/-- R114: pc + 4 × off, bits [55:0]. -/
def target (pc : W64) (off : Imm) : W64 :=
  BitVec.ofNat 64 ((pc + 4 * (match off with | .i17 i => i.signExtend 64 | .i32 i => i.signExtend 64)).toNat % 2 ^ 56)

/-- Whether every lane of the current path is enabled, and whether none is (R120, R122). -/
def allLanes (f : Firing) (h : Head) : Prop := ∀ L, L < 32 → f.enL h L = f.mask.getLsbD L
def noLane (f : Firing) (h : Head) : Prop := ∀ L, L < 32 → f.enL h L = false

/-- Entry e of the path table is ready. -/
def ready (f : Firing) (e : Nat) : Prop := e < f.paths.length ∧ (f.paths.getD e {}).st = 1

/-- Entry e is blocked in JOIN. -/
def blocked (f : Firing) (e : Nat) : Prop := e < f.paths.length ∧ (f.paths.getD e {}).st = 2

/-- Between two states k children of a counted tag are counted off at core n: its pool has k credits more, or goes back to
the record's home with them where they are above 128 (R273, R274). -/
def CountsOff (s t : State) (n : Nat) (tag : W32) (k : Nat) : Prop :=
  counted tag = true → k ≠ 0 → ∀ p : Credit, p = ((s.core n).pool tag).getD ⟨tag, 0, 0⟩ →
    (p.pool + k ≤ 128 → (t.core n).pool tag = some ⟨tag, p.pool + k, p.disc⟩) ∧
    (128 < p.pool + k → (t.core n).pool tag = none ∧ .giveBack tag (p.pool + k) p.disc ∈ t.homeQ)

end Sys2Proof.Claims

/-- R115, R116, R61: NOP and the scalar transfers: where the PC goes, the link, the counter. That the ALIGN record of BRX and
RET gives no address is the model's reading (log entry 34). -/
def Obligations.ScalarTransfers : Prop :=
  (∀ (o : NopOps) (s : State) (n sl : Nat) (f : Firing), Issues s n sl f → f.cur < f.paths.length →
    ∃ g : Firing, Gives (.nop o) s n sl g ∧ g.pc = nextPc f.pc o.len) ∧
  (∀ (o : BrOps) (s : State) (n sl : Nat) (f : Firing), Issues s n sl f → f.cur < f.paths.length →
    ∃ g : Firing, Gives (.br o) s n sl g ∧ g.pc = if f.enS o.h then target f.pc o.off else nextPc f.pc (lenImm o.off)) ∧
  (∀ (o : DBrOps) (s : State) (n sl : Nat) (f : Firing), Issues s n sl f → f.cur < f.paths.length →
    ∃ g : Firing, Gives (.call o) s n sl g ∧
      (f.enS o.h = true → g.pc = target f.pc o.off ∧ (o.d ≠ 0 → g.getS o.d.toNat = nextPc f.pc (lenImm o.off))) ∧
      (f.enS o.h = false → g.pc = nextPc f.pc (lenImm o.off) ∧ g.getS o.d.toNat = f.getS o.d.toNat)) ∧
  (∀ (o : BrxOps) (s : State) (n sl : Nat) (f : Firing), Issues s n sl f → f.cur < f.paths.length →
    (f.enS o.h = true → (target (f.srcS o.a) o.off).toNat % 4 = 0 →
      ∃ g : Firing, Gives (.brx o) s n sl g ∧ g.pc = target (f.srcS o.a) o.off ∧
        (o.d ≠ 0 → g.getS o.d.toNat = nextPc f.pc (lenImm o.off))) ∧
    (f.enS o.h = true → (target (f.srcS o.a) o.off).toNat % 4 ≠ 0 →
      exec (.brx o) s = .next (takeTrap s n sl (cause 0x09))) ∧
    (f.enS o.h = false → ∃ g : Firing, Gives (.brx o) s n sl g ∧ g.pc = nextPc f.pc (lenImm o.off) ∧
      g.getS o.d.toNat = f.getS o.d.toNat)) ∧
  (∀ (o : AOps) (s : State) (n sl : Nat) (f : Firing), Issues s n sl f → f.cur < f.paths.length →
    (f.enS o.h = true → (f.srcS o.a).toNat % 4 = 0 →
      ∃ g : Firing, Gives (.ret o) s n sl g ∧ g.pc.toNat = (f.srcS o.a).toNat % 2 ^ 56) ∧
    (f.enS o.h = true → (f.srcS o.a).toNat % 4 ≠ 0 → exec (.ret o) s = .next (takeTrap s n sl (cause 0x09))) ∧
    (f.enS o.h = false → ∃ g : Firing, Gives (.ret o) s n sl g ∧ g.pc = nextPc f.pc .l64)) ∧
  (∀ (o : DBrOps) (s : State) (n sl : Nat) (f : Firing) (c : W64), Issues s n sl f → f.cur < f.paths.length →
    c = f.getS o.d.toNat → ∃ g : Firing, Gives (.loop o) s n sl g ∧
      g.getS o.d.toNat = (if f.enS o.h = true ∧ c ≠ 0 then c - 1 else c) ∧
      g.pc = if f.enS o.h = true ∧ 1 < c.toNat then target f.pc o.off else nextPc f.pc (lenImm o.off))

/-- R119: among the ready paths the wave goes on with one of the highest priority: the current one keeps a tie unless
it yielded, another wins it then, and the lowest index otherwise. -/
def Obligations.PathSelection : Prop :=
  ∀ (f g : Firing) (y : Bool), (∃ e, ready f e) → g = f.selectPath y →
    g.paths = f.paths ∧ ready f g.cur ∧ (∀ e, ready f e → f.priOf e ≤ f.priOf g.cur) ∧
    (y = false → ready f f.cur → (∀ e, ready f e → f.priOf e ≤ f.priOf f.cur) → g.cur = f.cur) ∧
    (y = true → ∀ e, ready f e → e ≠ f.cur → (∀ e', ready f e' → f.priOf e' ≤ f.priOf e) → g.cur ≠ f.cur) ∧
    (g.cur ≠ f.cur → ∀ e, e < g.cur → ready f e → e ≠ f.cur → f.priOf e < f.priOf g.cur)

/-- R123, R119: where no path is ready and one is blocked, the paths blocked at the lowest address become one ready path,
the wave's current one, at the address after it; paths blocked higher stay as they are. -/
def Sys2Proof.Claims.PathMerge : Prop :=
  ∀ (f g : Firing) (y : Bool) (pc : Nat → Nat), (∀ e, ¬ ready f e) → (∃ e, blocked f e) → g = f.selectPath y →
    (∀ e, pc e = (f.paths.getD e {}).pc.toNat) →
    ∃ m, blocked f m ∧ g.cur = m ∧ g.paths.length = f.paths.length ∧
      (∀ e, blocked f e → pc m ≤ pc e ∧ (pc e = pc m → m ≤ e)) ∧
      (g.paths.getD m {}).st = 1 ∧ (g.paths.getD m {}).pc = nextPc (f.paths.getD m {}).pc .l64 ∧
      (∀ L, L < 32 → ((g.paths.getD m {}).mask.getLsbD L = true ↔
        ∃ e, blocked f e ∧ pc e = pc m ∧ (f.paths.getD e {}).mask.getLsbD L = true)) ∧
      (∃ e, blocked f e ∧ pc e = pc m ∧ g.priOf m = f.priOf e) ∧
      (∀ e, blocked f e → pc e = pc m → f.priOf e ≤ g.priOf m) ∧
      (∀ e, e ≠ m → blocked f e → pc e = pc m → g.paths.getD e {} = { f.paths.getD e {} with st := 0 }) ∧
      ∀ e, e ≠ m → ¬ (blocked f e ∧ pc e = pc m) → g.paths.getD e {} = f.paths.getD e {}

/-- R120: BRA and BRU: the whole path jumps, none jumps, BRU traps, or BRA splits the path. -/
def Sys2Proof.Claims.LaneBranches : Prop :=
  ∀ (o : BrOps) (s : State) (n sl : Nat) (f : Firing), Issues s n sl f → f.cur < f.paths.length →
    (allLanes f o.h → ∃ g : Firing, Gives (.bra o) s n sl g ∧ Gives (.bru o) s n sl g ∧ g.pc = target f.pc o.off ∧
      g.path.mask = f.path.mask ∧ g.cur = f.cur) ∧
    (noLane f o.h → ¬ allLanes f o.h → ∃ g : Firing, Gives (.bra o) s n sl g ∧ Gives (.bru o) s n sl g ∧
      g.pc = nextPc f.pc (lenImm o.off) ∧ g.path.mask = f.path.mask ∧ g.cur = f.cur) ∧
    (¬ noLane f o.h → ¬ allLanes f o.h →
      exec (.bru o) s = .next (takeTrap s n sl (cause 0x06)) ∧
      (∀ e, f.freeEntry = some e → ∃ g : Firing, Gives (.bra o) s n sl (g.selectPath false) ∧ g.cur = f.cur ∧
        (e ≠ f.cur → g.path.mask = f.mask &&& ~~~ f.enMask o.h ∧ g.pc = nextPc f.pc (lenImm o.off) ∧
          g.paths.getD e {} = { pc := target f.pc o.off, mask := f.enMask o.h, pri := f.path.pri, st := 1 } ∧
          ∀ e', e' ≠ e → e' ≠ f.cur → g.paths.getD e' {} = f.paths.getD e' {})) ∧
      (f.freeEntry = none → exec (.bra o) s = .next (takeTrap s n sl (cause 0x07))))

/-- R122 to R125: JOIN, YIELD and SETPRI act where every lane of the path is enabled, have no effect where none is, and
raise UNIFORM otherwise; GETPRI reads the path's priority and index. -/
def Sys2Proof.Claims.PathInstructions : Prop :=
  (∀ (h : Head) (s : State) (n sl : Nat) (f : Firing), Issues s n sl f → f.cur < f.paths.length → allLanes f h →
    (∃ g : Firing, Gives (.join ⟨h⟩) s n sl (g.selectPath false) ∧ g.paths = f.paths.set f.cur { f.path with st := 2 } ∧
      g.cur = f.cur ∧ (h.c = false → g.chain = 0)) ∧
    (∃ g : Firing, Gives (.yield ⟨h⟩) s n sl (g.selectPath true) ∧ g.cur = f.cur ∧
      g.paths = f.paths.set f.cur { f.path with pc := nextPc f.pc .l64, pri := f.path.pri - (if f.path.pri = 0 then 0 else 1) }) ∧
    (∀ p : BitVec 3, ∃ g : Firing, Gives (.setpri ⟨h, p⟩) s n sl (g.selectPath false) ∧ g.cur = f.cur ∧
      g.paths = f.paths.set f.cur { f.path with pc := nextPc f.pc .l64, pri := p.setWidth 8 })) ∧
  (∀ (h : Head) (s : State) (n sl : Nat) (f : Firing) (p : BitVec 3), Issues s n sl f → f.cur < f.paths.length →
    noLane f h → ¬ allLanes f h → ∃ g : Firing, g.pc = nextPc f.pc .l64 ∧ g.cur = f.cur ∧ Gives (.join ⟨h⟩) s n sl g ∧
      Gives (.yield ⟨h⟩) s n sl g ∧ Gives (.setpri ⟨h, p⟩) s n sl g) ∧
  (∀ (h : Head) (s : State) (n sl : Nat) (f : Firing) (p : BitVec 3), Issues s n sl f → ¬ noLane f h → ¬ allLanes f h →
    exec (.join ⟨h⟩) s = .next (takeTrap s n sl (cause 0x06)) ∧
    exec (.yield ⟨h⟩) s = .next (takeTrap s n sl (cause 0x06)) ∧
    exec (.setpri ⟨h, p⟩) s = .next (takeTrap s n sl (cause 0x06))) ∧
  (∀ (o : VDOps) (s : State) (n sl : Nat) (f : Firing), Issues s n sl f → f.cur < 8 → f.path.pri.toNat < 8 →
    ∃ x : W32, Gives (.getpri o) s n sl (f.writeV o.h .l64 o.d.toNat fun _ => x) ∧
      x.toNat = f.path.pri.toNat + 16 * f.cur)

/-- R126, R273: DONE. A disabled one goes on; an enabled one with another live path raises JOINDEAD in a wave; with nothing
pending, its release complete and no loss owed, the slot is free and the firing is counted off. That DONE does not wait for
the matrix unit is log entry 48. -/
def Sys2Proof.Claims.DoneEnds : Prop :=
  ∀ (o : HOps) (s : State) (n sl : Nat) (f : Firing), Issues s n sl f → sl ≤ 64 →
    (f.enS o.h = false → Gives (.done o) s n sl (f.retire false o.h .l64 .none)) ∧
    (f.enS o.h = true → endReady (s.core n) sl f = true →
      (f.wave = true → (∃ e, e ≠ f.cur ∧ e < f.paths.length ∧
          ((f.paths.getD e {}).st = 1 ∨ (f.paths.getD e {}).st = 2)) →
        exec (.done o) s = .next (takeTrap s n sl (cause 0x08))) ∧
      ((f.wave = false ∨ ∀ e, e ≠ f.cur → e < f.paths.length →
          (f.paths.getD e {}).st ≠ 1 ∧ (f.paths.getD e {}).st ≠ 2) →
        endOpen s n f = true → endReleased s n f = true →
        (f.owed = none → ∃ t, exec (.done o) s = .next t ∧ t.firing n sl = none ∧ t.mem = s.mem ∧
          CountsOff s t n f.ltag f.taken) ∧
        (∀ x, f.owed = some x → exec (.done o) s = .next (takeTrap s n sl x))))

namespace Sys2Proof.Claims

/-- The registers a form of group 010 that goes on may write. -/
def controlDest : Instr → Option (List Nat)
  | .nop _ | .br _ | .ret _ | .bra _ | .bru _ | .join _ | .yield _ | .setpri _ => some []
  | .call o | .loop o => some [o.d.toNat]
  | .brx o => some [o.d.toNat]
  | _ => none

end Sys2Proof.Claims

/-- R113 to R124: a form of group 010 that takes no trap, DONE apart, changes its link or counter register and the firing's
paths, and nothing else. -/
def Sys2Proof.Claims.ControlFrame : Prop :=
  ∀ i sd s t n sl f, controlDest i = some sd → Issues s n sl f → exec i s = .next t →
    (∀ g, t.firing n sl = some g → g.stopped = false) → Frame s t n sl f sd [] [] [] false

/-! ## Floating point -/

/-- R56, R36, R27 for the lanes: an enabled lane of the destination holds its value under NW = 0, every other lane word is
kept, the PC goes on, and under C = 1 lv0 holds the values of the enabled lanes and 0 elsewhere. -/
def Sys2Proof.Claims.WriteLane : Prop :=
  ∀ (f : Firing) (h : Head) (l : Len) (d : Nat) (x : Nat → W32), f.cur < f.paths.length →
    (∀ r L, L < 32 → (f.writeV h l d x).getV r L = if f.enL h L = true ∧ h.nw = false ∧ r = d then x L else f.getV r L) ∧
    (f.writeV h l d x).pc = nextPc f.pc l ∧
    (h.c = true → ∀ L, L < 32 → (f.writeV h l d x).srcV L (.lv 0) = if f.enL h L then x L else 0)

namespace Sys2Proof.Claims

/-- A floating form with the result x and the flags fl of its enabled element or elements (R137, R139): flags first; with
no enabled flag among them the rest happens, which k says; otherwise FPX is taken, and nothing more is written. -/
def FpGives (i : Instr) (s : State) (n sl : Nat) (f : Firing) (fl : FpFlags) (k : Firing → Firing) : Prop :=
  (fpxHits f fl = false → Gives i s n sl (k (f.orFlags fl))) ∧
  (fpxHits f fl = true → exec i s = .next (takeTrap (s.setFiring n sl (f.orFlags fl)) n sl (fpxCause fl)))

/-- A scalar floating form (R139): disabled, it writes nothing and zeroes the latch; enabled, its result goes to s(D), and
under C = 1 to the latch, where one of 32 bits (narrow) is zero-extended (R49). -/
def FpScalarW (narrow : Bool) (i : Instr) (s : State) (n sl : Nat) (f : Firing) (h : Head) (l : Len) (d : BitVec 6)
    (r : Nat × FpFlags) : Prop :=
  (f.enS h = false → Gives i s n sl (f.writeS h l d.toNat 0)) ∧
  (f.enS h = true → FpGives i s n sl f r.2 fun g =>
    g.writeLS h l d.toNat (BitVec.ofNat 64 r.1) (latch32 narrow (BitVec.ofNat 64 r.1)))
abbrev FpScalar := FpScalarW false

/-- A pattern as the operation sees it, and its result (R135). -/
def inF (t : Fmt) (ftz : Bool) (x : Nat) : FVal := flushIn t ftz (t.decode x)

/-- Elements of a lane type (R131). -/
def elCount (t : BitVec 2) : Nat := if t.toNat < 2 then 1 else 2

/-- A lane floating form whose element j of lane L has result g L j: the flags of enabled lanes, the word or pair. -/
def FpLane (i : Instr) (s : State) (n sl : Nat) (f : Firing) (h : Head) (l : Len) (d : BitVec 8) (t : BitVec 2)
    (wide : Bool) (g : Nat → Nat → Nat × FpFlags) : Prop :=
  ∃ fl : FpFlags, (∀ k, fl.getLsbD k = true ↔
      ∃ L j, L < 32 ∧ f.enL h L = true ∧ j < elCount t ∧ ((g L j).2).getLsbD k = true) ∧
    FpGives i s n sl f fl fun f' =>
      if wide then f'.writeV64 h l d.toNat fun L => BitVec.ofNat 64 (g L 0).1
      else f'.writeV h l d.toNat fun L =>
        if t.toNat < 2 then BitVec.ofNat 32 (g L 0).1 else BitVec.ofNat 32 ((g L 0).1 + (g L 1).1 * 65536)

end Sys2Proof.Claims

/-- R139 to R142, scalar: each form computes its operation of Table 7-6 once on its operands' values; FSUB is FADD with
the sign of b inverted. -/
def Sys2Proof.Claims.FloatScalar : Prop :=
  (∀ (o : FOps) (s : State) (n sl : Nat) (f : Firing) (a b : FVal) (b' : Nat), Issues s n sl f →
    b' = f.fsrcSI .f64 o.b → a = inF .f64 o.ftz (f.fsrcS .f64 o.a) → b = inF .f64 o.ftz b' →
    FpScalar (.fadd o) s n sl f o.h (lenB o.b) o.d (flushOut .f64 o.ftz (fAdd .f64 (rmOf o.rm) a b)) ∧
    FpScalar (.fsub o) s n sl f o.h (lenB o.b) o.d
      (flushOut .f64 o.ftz (fAdd .f64 (rmOf o.rm) a (inF .f64 o.ftz (b' ^^^ 2 ^ 63)))) ∧
    FpScalar (.fmul o) s n sl f o.h (lenB o.b) o.d (flushOut .f64 o.ftz (fMul .f64 (rmOf o.rm) a b)) ∧
    FpScalar (.fdiv o) s n sl f o.h (lenB o.b) o.d (flushOut .f64 o.ftz (fDiv .f64 (rmOf o.rm) a b)) ∧
    FpScalar (.fmin o) s n sl f o.h (lenB o.b) o.d (flushOut .f64 o.ftz (fMinMax .f64 false a b)) ∧
    FpScalar (.fmax o) s n sl f o.h (lenB o.b) o.d (flushOut .f64 o.ftz (fMinMax .f64 true a b))) ∧
  (∀ (o : FmaOps) (s : State) (n sl : Nat) (f : Firing) (a b c : FVal), Issues s n sl f →
    a = inF .f64 o.ftz (f.fsrcS .f64 o.a) → b = inF .f64 o.ftz (f.fsrcS .f64 o.b) → c = inF .f64 o.ftz (f.fsrcS .f64 o.c) →
    FpScalar (.ffma o) s n sl f o.h .l96 o.d (flushOut .f64 o.ftz (fFma .f64 (rmOf o.rm)
      (if o.x.getLsbD 0 then a.neg else a) b (if o.x.getLsbD 1 then c.neg else c)))) ∧
  (∀ (o : FUnOps) (s : State) (n sl : Nat) (f : Firing) (a : FVal), Issues s n sl f →
    a = inF .f64 o.ftz (f.fsrcS .f64 o.a) →
    FpScalar (.fsqrt o) s n sl f o.h .l64 o.d (flushOut .f64 o.ftz (fSqrt .f64 (rmOf o.rm) a)) ∧
    FpScalar (.frnd o) s n sl f o.h .l64 o.d (flushOut .f64 o.ftz (fRnd .f64 (rmOf o.rm) (o.x == 1) a)) ∧
    FpScalar (.fclass o) s n sl f o.h .l64 o.d (fClass .f64 (f.fsrcS .f64 o.a), 0)) ∧
  (∀ (o : CpysOps) (s : State) (n sl : Nat) (f : Firing) (a b : W64), Issues s n sl f →
    a = BitVec.ofNat 64 (f.fsrcS .f64 o.a) → b = BitVec.ofNat 64 (f.fsrcS .f64 o.b) → ∃ r : W64,
    r.setWidth 63 = a.setWidth 63 ∧
    r.getLsbD 63 = (if o.x = 0 then b.getLsbD 63 else if o.x = 1 then !b.getLsbD 63 else a.getLsbD 63 != b.getLsbD 63) ∧
    FpScalar (.fcpys o) s n sl f o.h .l64 o.d (r.toNat, 0))

/-- R139 to R142, lanes: the same operations on every element of every enabled lane, in the form's type. -/
def Sys2Proof.Claims.FloatLane : Prop :=
  (∀ (o : VFOps) (s : State) (n sl : Nat) (f : Firing) (a b : Nat → Nat → FVal), Issues s n sl f →
    (∀ L j, a L j = inF (tFmt o.t) o.ftz ((f.fsrcV o.t L o.a).getD j 0)) →
    (∀ L j, b L j = inF (tFmt o.t) o.ftz ((f.fsrcVI o.t L o.b).getD j 0)) →
    FpLane (.vfadd o) s n sl f o.h (lenBL o.b) o.d o.t (o.t == 1)
      (fun L j => flushOut (tFmt o.t) o.ftz (fAdd (tFmt o.t) (rmOf o.rm) (a L j) (b L j))) ∧
    FpLane (.vfsub o) s n sl f o.h (lenBL o.b) o.d o.t (o.t == 1)
      (fun L j => flushOut (tFmt o.t) o.ftz (fAdd (tFmt o.t) (rmOf o.rm) (a L j) (b L j).neg)) ∧
    FpLane (.vfmul o) s n sl f o.h (lenBL o.b) o.d o.t (o.t == 1)
      (fun L j => flushOut (tFmt o.t) o.ftz (fMul (tFmt o.t) (rmOf o.rm) (a L j) (b L j))) ∧
    FpLane (.vfdiv o) s n sl f o.h (lenBL o.b) o.d o.t (o.t == 1)
      (fun L j => flushOut (tFmt o.t) o.ftz (fDiv (tFmt o.t) (rmOf o.rm) (a L j) (b L j))) ∧
    FpLane (.vfmin o) s n sl f o.h (lenBL o.b) o.d o.t (o.t == 1)
      (fun L j => flushOut (tFmt o.t) o.ftz (fMinMax (tFmt o.t) false (a L j) (b L j))) ∧
    FpLane (.vfmax o) s n sl f o.h (lenBL o.b) o.d o.t (o.t == 1)
      (fun L j => flushOut (tFmt o.t) o.ftz (fMinMax (tFmt o.t) true (a L j) (b L j)))) ∧
  (∀ (o : VFmaOps) (s : State) (n sl : Nat) (f : Firing) (a b c : Nat → Nat → FVal), Issues s n sl f →
    (∀ L j, a L j = inF (tFmt o.t) o.ftz ((f.fsrcV o.t L o.a).getD j 0)) →
    (∀ L j, b L j = inF (tFmt o.t) o.ftz ((f.fsrcV o.t L o.b).getD j 0)) →
    (∀ L j, c L j = inF (tFmt o.t) o.ftz ((f.fsrcV o.t L o.c).getD j 0)) →
    FpLane (.vffma o) s n sl f o.h .l96 o.d o.t (o.t == 1)
      (fun L j => flushOut (tFmt o.t) o.ftz (fFma (tFmt o.t) (rmOf o.rm)
        (if o.x.getLsbD 0 then (a L j).neg else a L j) (b L j) (if o.x.getLsbD 1 then (c L j).neg else c L j)))) ∧
  (∀ (o : VFUnOps) (s : State) (n sl : Nat) (f : Firing) (a : Nat → Nat → FVal), Issues s n sl f →
    (∀ L j, a L j = inF (tFmt o.t) o.ftz ((f.fsrcV o.t L o.a).getD j 0)) →
    FpLane (.vfsqrt o) s n sl f o.h .l64 o.d o.t (o.t == 1)
      (fun L j => flushOut (tFmt o.t) o.ftz (fSqrt (tFmt o.t) (rmOf o.rm) (a L j))) ∧
    FpLane (.vfrnd o) s n sl f o.h .l64 o.d o.t (o.t == 1)
      (fun L j => flushOut (tFmt o.t) o.ftz (fRnd (tFmt o.t) (rmOf o.rm) (o.x == 1) (a L j))) ∧
    FpLane (.vfclass o) s n sl f o.h .l64 o.d o.t false
      (fun L j => (fClass (tFmt o.t) ((f.fsrcV o.t L o.a).getD j 0), 0)))

/-- R144 to R150: the conversions, scalar and lane, CVT.PACK's placing over the old word, and CVT.EF's blocks. That a
scalar CVT.FI to 8 or 16 bits latches what its register gets is the model's choice (log entry 90). -/
def Sys2Proof.Claims.Conversions : Prop :=
  (∀ (o : CvtOps) (s : State) (n sl : Nat) (f : Firing) (d : BitVec 6) (a : SSrc) (w : Bool), Issues s n sl f →
    o.opd = .scalar d a → w = decide (o.dst = 10 ∨ o.dst = 11) →
    FpScalarW w (.cvtFf o) s n sl f o.h .l64 d (flushOut (cvtFmt o.dst) o.ftz
      (cvtFF (cvtFmt o.dst) (rmOf o.rm) o.sat (inF (cvtFmt o.src) o.ftz (f.fsrcS (cvtFmt o.src) a)))) ∧
    (∃ r : Int × FpFlags, r = cvtFI (intType o.dst.toNat).1 (intType o.dst.toNat).2 (rmOf o.rm)
        (inF (cvtFmt o.src) o.ftz (f.fsrcS (cvtFmt o.src) a)) ∧
      FpScalarW w (.cvtFi o) s n sl f o.h .l64 d ((BitVec.ofInt 64 r.1).toNat, r.2)) ∧
    FpScalarW w (.cvtIf o) s n sl f o.h .l64 d (flushOut (cvtFmt o.dst) o.ftz
      (cvtIF (cvtFmt o.dst) (rmOf o.rm) o.sat (intRead o.src.toNat (f.srcS a).toNat)))) ∧
  (∀ (o : CvtOps) (s : State) (n sl : Nat) (f : Firing) (d : BitVec 8) (a : LSrc), Issues s n sl f → o.opd = .lane d a →
    FpLane (.cvtFf o) s n sl f o.h .l64 d 0 (o.dst == 0) (fun L _ => flushOut (cvtFmt o.dst) o.ftz
      (cvtFF (cvtFmt o.dst) (rmOf o.rm) o.sat (inF (cvtFmt o.src) o.ftz (f.cvtSrcF (cvtFmt o.src) L (.lane d a))))) ∧
    (∃ r : Nat → Int × FpFlags, (∀ L, r L = cvtFI (intType o.dst.toNat).1 (intType o.dst.toNat).2 (rmOf o.rm)
        (inF (cvtFmt o.src) o.ftz (f.cvtSrcF (cvtFmt o.src) L (.lane d a)))) ∧
      FpLane (.cvtFi o) s n sl f o.h .l64 d 0 false (fun L _ => ((BitVec.ofInt 64 (r L).1).toNat, (r L).2))) ∧
    FpLane (.cvtIf o) s n sl f o.h .l64 d 0 (o.dst == 0) (fun L _ => flushOut (cvtFmt o.dst) o.ftz
      (cvtIF (cvtFmt o.dst) (rmOf o.rm) o.sat (intRead o.src.toNat (f.srcV L a).toNat)))) ∧
  (∀ (o : PackOps) (s : State) (n sl : Nat) (f : Firing) (w : Nat) (x y : Nat → Nat × FpFlags), Issues s n sl f →
    w = (packFmt o.fmt).width → (o.pos.toNat + 1) * (2 * w) ≤ 32 →
    (∀ L, x L = cvtFF (packFmt o.fmt) (rmOf o.rm) true (Fmt.f32.decode (f.f32V L o.a))) →
    (∀ L, y L = cvtFF (packFmt o.fmt) (rmOf o.rm) true (Fmt.f32.decode (f.f32V L o.b))) →
    ∃ r : Nat → W32, (∀ L, (r L).toNat / 2 ^ (2 * w * o.pos.toNat) % 2 ^ w = (x L).1 ∧
        (r L).toNat / 2 ^ (2 * w * o.pos.toNat + w) % 2 ^ w = (y L).1 ∧
        ∀ i, i < 32 → (i < 2 * w * o.pos.toNat ∨ 2 * w * (o.pos.toNat + 1) ≤ i) →
          (r L).getLsbD i = (f.getV o.d.toNat L).getLsbD i) ∧
      FpLane (.cvtPack o) s n sl f o.h .l64 o.d 0 false (fun L _ => ((r L).toNat, (x L).2 ||| (y L).2))) ∧
  (∀ (o : EfOps) (s : State) (n sl : Nat) (f : Firing) (ls : List (Nat × Nat)) (rs : List (Nat × EfAcc)) (fl : FpFlags),
    Issues s n sl f →
    (ls, rs, fl) = efLanes (packFmt o.fmt) (efSize o.seg) (f.enL o.h) (fun L => Fmt.f32.decode (f.f32V L o.a)) →
    FpGives (.cvtEf o) s n sl f fl fun g =>
      (match o.form with
       | .resid vr => g.putV (rs.map fun (e : Nat × EfAcc) => (32 * vr.toNat + e.1, residF32 e.2))
       | _ => g).writeV o.h (efLen o.form) o.d.toNat fun L =>
        BitVec.ofNat 32 (((ls.find? fun (e : Nat × Nat) => e.1 == L).map Prod.snd).getD 0))

namespace Sys2Proof.Claims

/-- The magnitude of pattern b of a format without its sign, the exponent going on above the format's largest (R129, R133). -/
def magOf (t : Fmt) (b : Nat) : ℚ :=
  if b / 2 ^ t.fbits = 0 then b * (2 : ℚ) ^ t.emin
  else ((2 ^ t.fbits + b % 2 ^ t.fbits : Nat) : ℚ) * (2 : ℚ) ^ (t.emin + (b / 2 ^ t.fbits : Nat) - 1)

/-- Magnitude b is what an exact magnitude rounds to under rm (R133). The exact one is given by its cut: lt q where q is
below it, eq q where q is it. -/
def RoundsTo (t : Fmt) (rm : Rm) (neg : Bool) (lt eq : ℚ → Prop) (b : Nat) : Prop :=
  match rm with
  | .rne => let hi := (magOf t b + magOf t (b + 1)) / 2
            let lo := (magOf t (b - 1) + magOf t b) / 2
    ¬ lt hi ∧ (eq hi → Even b) ∧ (b = 0 ∨ lt lo ∨ eq lo ∧ Even b)
  | m =>
    if m = .rup ∧ neg = false ∨ m = .rdn ∧ neg = true then ¬ lt (magOf t b) ∧ (b = 0 ∨ lt (magOf t (b - 1)))
    else (lt (magOf t b) ∨ eq (magOf t b)) ∧ ¬ lt (magOf t (b + 1)) ∧ ¬ eq (magOf t (b + 1))

/-- Tininess (R134): rounded with the exponent range unbounded below, the magnitude is under the smallest normal. -/
def Tiny (t : Fmt) (rm : Rm) (neg : Bool) (lt eq : ℚ → Prop) : Prop :=
  ∃ k b : Nat, 2 * 2 ^ t.fbits ≤ b ∧ RoundsTo t rm neg (fun q => lt (q / 2 ^ k)) (fun q => eq (q / 2 ^ k)) b ∧
    magOf t b < 2 ^ k * magOf t (2 ^ t.fbits)

/-- What an overflow delivers (Table 7-3, R133, R146). -/
def overflowTo (t : Fmt) (rm : Rm) (sat neg : Bool) : Nat :=
  if sat = true ∨ t = .e2m1 ∨ rm = .rtz ∨ rm = .rup ∧ neg = true ∨ rm = .rdn ∧ neg = false then t.signBits neg + t.maxBits
  else if t = .e4m3 then 0x7F else t.signBits neg + t.infBits

/-- r is a nonzero exact result rounded once (R133), with the flags of R134. -/
def Rounded (t : Fmt) (rm : Rm) (sat neg : Bool) (lt eq : ℚ → Prop) (r : Nat × FpFlags) : Prop :=
  ∃ b, RoundsTo t rm neg lt eq b ∧
    r.1 = (if t.maxBits < b then overflowTo t rm sat neg else t.signBits neg + b) ∧
    (r.2.getLsbD 0 = true ↔ t.maxBits < b ∨ ¬ eq (magOf t b)) ∧
    (r.2.getLsbD 1 = true ↔ b ≤ t.maxBits ∧ ¬ eq (magOf t b) ∧ Tiny t rm neg lt eq) ∧
    (r.2.getLsbD 2 = true ↔ t.maxBits < b) ∧ ∀ k, 3 ≤ k → r.2.getLsbD k = false

/-- The number v, not zero, rounded once, its sign beside it. -/
def RoundedTo (t : Fmt) (rm : Rm) (sat : Bool) (v : ℚ) (r : Nat × FpFlags) : Prop :=
  Rounded t rm sat (decide (v < 0)) (· < |v|) (· = |v|) r

/-- v rounded to an integer under rm. -/
def RoundsInt (rm : Rm) (v : ℚ) (z : Int) : Prop :=
  match rm with
  | .rne => |v - z| ≤ 1 / 2 ∧ (|v - z| = 1 / 2 → Even z)
  | .rtz => z = if v < 0 then ⌈v⌉ else ⌊v⌋
  | .rup => z = ⌈v⌉
  | .rdn => z = ⌊v⌋

end Sys2Proof.Claims

/-- R133, R134, R140: on finite operands the operations of Table 7-6 round the exact result once, with its flags; an
exact zero has the sign R140 gives. -/
def Sys2Proof.Claims.RoundOnce : Prop :=
  (∀ t rm sat n m e, m ≠ 0 → Rounded t rm sat n (· < |ratOf n m e|) (· = |ratOf n m e|) (roundTo t rm sat n m e)) ∧
  (∀ t rm n1 m1 e1 n2 m2 e2 v, v = ratOf n1 m1 e1 + ratOf n2 m2 e2 →
    (v ≠ 0 → RoundedTo t rm false v (fAdd t rm (.fin n1 m1 e1) (.fin n2 m2 e2))) ∧
    (v = 0 → fAdd t rm (.fin n1 m1 e1) (.fin n2 m2 e2) = (t.signBits (if n1 = n2 then n1 else rm = .rdn), 0))) ∧
  (∀ t rm n1 m1 e1 n2 m2 e2 v, v = ratOf n1 m1 e1 * ratOf n2 m2 e2 →
    (v ≠ 0 → RoundedTo t rm false v (fMul t rm (.fin n1 m1 e1) (.fin n2 m2 e2))) ∧
    (v = 0 → fMul t rm (.fin n1 m1 e1) (.fin n2 m2 e2) = (t.signBits (n1 != n2), 0))) ∧
  (∀ t rm n1 m1 e1 n2 m2 e2 v, v = ratOf n1 m1 e1 / ratOf n2 m2 e2 →
    (m1 ≠ 0 → m2 ≠ 0 → RoundedTo t rm false v (fDiv t rm (.fin n1 m1 e1) (.fin n2 m2 e2))) ∧
    (m1 ≠ 0 → m2 = 0 → fDiv t rm (.fin n1 m1 e1) (.fin n2 m2 e2) = (t.signBits (n1 != n2) + t.infBits, fDZ)) ∧
    (m1 = 0 → fDiv t rm (.fin n1 m1 e1) (.fin n2 m2 e2) = if m2 = 0 then (t.nanBits, fNV) else (t.signBits (n1 != n2), 0))) ∧
  (∀ t rm n1 m1 e1 n2 m2 e2 n3 m3 e3 v, v = ratOf n1 m1 e1 * ratOf n2 m2 e2 + ratOf n3 m3 e3 →
    (v ≠ 0 → RoundedTo t rm false v (fFma t rm (.fin n1 m1 e1) (.fin n2 m2 e2) (.fin n3 m3 e3))) ∧
    (v = 0 → fFma t rm (.fin n1 m1 e1) (.fin n2 m2 e2) (.fin n3 m3 e3) =
      (t.signBits (if (n1 != n2) = n3 then n3 else rm = .rdn), 0))) ∧
  ∀ t rm n m e,
    (m ≠ 0 → n = false → Rounded t rm false false (fun q => q < 0 ∨ q * q < ratOf n m e)
      (fun q => 0 ≤ q ∧ q * q = ratOf n m e) (fSqrt t rm (.fin n m e))) ∧
    (m ≠ 0 → n = true → fSqrt t rm (.fin n m e) = (t.nanBits, fNV)) ∧
    (m = 0 → fSqrt t rm (.fin n m e) = (t.signBits n, 0))

namespace Sys2Proof.Claims

/-- The number CVT.EF carries. -/
def efRat (e : EfAcc) : ℚ := e.v * (2 : ℚ) ^ e.e
/-- The number of a finite pattern. -/
def IsNum (t : Fmt) (x : Nat) (v : ℚ) : Prop := ∃ n m e, t.decode x = .fin n m e ∧ v = ratOf n m e

end Sys2Proof.Claims

/-- R146, R147, R150: the values of the conversions. A finite source of CVT.FF and CVT.IF is rounded once under SAT; NaN and
infinite sources give Table 7-1's; CVT.FI rounds to an integer and saturates; an element of CVT.EF is the exact carried sum
narrowed to nearest, and the new error is what the delivered value lacks. An E4M3 overflow that Table 7-3 sends to an infinity
is 0x7F for either sign, as R146 states (log entry 20 on the row of Table 7-10 that differs). That an exact zero sum of CVT.EF
delivers +0 is the model's choice (log entry 14). -/
def Sys2Proof.Claims.ConversionValues : Prop :=
  (∀ t rm sat n m e, (m ≠ 0 → RoundedTo t rm sat (ratOf n m e) (cvtFF t rm sat (.fin n m e))) ∧
    (m = 0 → cvtFF t rm sat (.fin n m e) = (t.signBits n, 0)) ∧
    (∀ sg, cvtFF t rm sat (.nan sg) = if t = .e2m1 then (0, fNV) else (t.nanBits, if sg then fNV else 0)) ∧
    cvtFF t rm sat (.inf n) = if t ≠ .e4m3 ∧ t ≠ .e2m1 then (t.signBits n + t.infBits, 0)
      else if sat = true ∨ t = .e2m1 then (t.signBits n + t.maxBits, fOF ||| fNX) else (0x7F, fNV)) ∧
  (∀ t rm sat (x : Int), (x ≠ 0 → RoundedTo t rm sat x (cvtIF t rm sat x)) ∧ (x = 0 → cvtIF t rm sat x = (0, 0))) ∧
  (∀ (w : Nat) (sg : Bool) (rm : Rm) (lo hi : Int), 0 < w → lo = (if sg then -2 ^ (w - 1) else 0) →
    hi = (if sg then 2 ^ (w - 1) - 1 else 2 ^ w - 1) →
    (∀ n m e, ∃ z, RoundsInt rm (ratOf n m e) z ∧ cvtFI w sg rm (.fin n m e) =
      if z < lo then (lo, fNV) else if hi < z then (hi, fNV) else (z, if (z : ℚ) = ratOf n m e then 0 else fNX)) ∧
    (∀ q, cvtFI w sg rm (.nan q) = (0, fNV)) ∧ (∀ n, cvtFI w sg rm (.inf n) = (if n then lo else hi, fNV))) ∧
  (∀ t c n m e r, r = efStep t c (.fin n m e) → ∀ u, u = efRat c + ratOf n m e →
    (u ≠ 0 → RoundedTo t .rne true u (r.1, r.2.2)) ∧ (u = 0 → (r.1, r.2.2) = (0, 0)) ∧
    ∃ v, IsNum t r.1 v ∧ efRat r.2.1 = u - v) ∧
  (∀ t c q, efStep t c (.nan q) = (if t = .e2m1 then 0 else t.nanBits, {}, fNV)) ∧
  (∀ t c n, efStep t c (.inf n) = (t.signBits n + t.maxBits, {}, fOF ||| fNX))

/-- R133: a value that a format holds rounds to its own pattern, in every mode and without a flag. -/
def Sys2Proof.Claims.RoundExact : Prop :=
  ∀ (t : Fmt) (rm : Rm) (sat : Bool) (x : Nat) (neg : Bool) (m : Nat) (e : Int), x < 2 ^ t.width →
    t.decode x = .fin neg m e → roundTo t rm sat neg m e = (x, 0)

/-- R130, R134, R141: with a NaN operand the arithmetic operations give the canonical NaN and NV exactly for a signalling
one, or for 0 × ∞ in a fused multiply and add; FMIN and FMAX give the number. -/
def Sys2Proof.Claims.NanRules : Prop :=
  ∀ (t : Fmt) (rm : Rm) (a b c : FVal), a.isNan = true ∨ b.isNan = true →
    (∀ r, r ∈ [fAdd t rm a b, fMul t rm a b, fDiv t rm a b] →
      r = (t.nanBits, if a.isSig = true ∨ b.isSig = true then fNV else 0)) ∧
    (zeroInf a b = false → fFma t rm a b c =
      (t.nanBits, if a.isSig = true ∨ b.isSig = true ∨ c.isSig = true then fNV else 0)) ∧
    (∀ w n m e, (fMinMax t w (.nan false) (.fin n m e) = (repack t (.fin n m e), 0)) ∧
      fMinMax t w (.fin n m e) (.nan true) = (repack t (.fin n m e), fNV)) ∧
    (∀ n, fFma t rm (.fin n 0 0) (.inf n) (.nan false) = (t.nanBits, fNV))

/-- R140 to R142, R134: infinite operands; FRND; FMIN and FMAX of two numbers, of a number and a NaN, of two NaNs; the mask of
FCLASS. An infinity of a sign is (sign + exponent all ones, no flag), Invalid gives the canonical NaN. -/
def Sys2Proof.Claims.FloatSpecials : Prop :=
  (∀ (t : Fmt) (rm : Rm) (n k : Bool) (m : Nat) (e : Int) (inf : Bool → Nat × FpFlags) (inv : Nat × FpFlags),
    (∀ b, inf b = (t.signBits b + t.infBits, 0)) → inv = (t.nanBits, fNV) →
    fAdd t rm (.inf n) (.fin k m e) = inf n ∧ fAdd t rm (.fin k m e) (.inf n) = inf n ∧
    fAdd t rm (.inf n) (.inf n) = inf n ∧ fAdd t rm (.inf n) (.inf !n) = inv ∧
    fMul t rm (.inf n) (.inf k) = inf (n != k) ∧
    fMul t rm (.inf n) (.fin k m e) = (if m = 0 then inv else inf (n != k)) ∧
    fMul t rm (.fin k m e) (.inf n) = (if m = 0 then inv else inf (n != k)) ∧
    fDiv t rm (.inf n) (.inf k) = inv ∧ fDiv t rm (.inf n) (.fin k m e) = inf (n != k) ∧
    fDiv t rm (.fin k m e) (.inf n) = (t.signBits (n != k), 0) ∧
    fSqrt t rm (.inf n) = (if n then inv else inf false) ∧ (∀ nx, fRnd t rm nx (.inf n) = inf n) ∧
    (∀ c, fFma t rm (.inf n) (.fin k 0 e) c = inv ∧ fFma t rm (.fin k 0 e) (.inf n) c = inv) ∧
    (∀ k2 m2 e2, fFma t rm (.fin k m e) (.fin k2 m2 e2) (.inf n) = inf n) ∧
    (∀ b n3 m3 e3, b = .inf k ∨ (∃ e2, b = .fin k (m + 1) e2) →
      ∀ p, p = fFma t rm (.inf n) b ∨ p = fFma t rm b (.inf n) →
      p (.fin n3 m3 e3) = inf (n != k) ∧ p (.inf n3) = if n3 = (n != k) then inf n3 else inv)) ∧
  (∀ (t : Fmt) (rm : Rm) (nx : Bool) (x : Nat) (n : Bool) (m : Nat) (e : Int) (r : Nat × FpFlags), x < 2 ^ t.width →
    t.decode x = .fin n m e → r = fRnd t rm nx (.fin n m e) → ∃ z : Int, RoundsInt rm (ratOf n m e) z ∧ IsNum t r.1 z ∧
      r.1.testBit (t.width - 1) = n ∧ r.2 = if nx = true ∧ (z : ℚ) ≠ ratOf n m e then fNX else 0) ∧
  (∀ (t : Fmt) (x y : Nat) (a b : FVal), x < 2 ^ t.width → y < 2 ^ t.width → a = t.decode x → b = t.decode y →
    (a.isNan = false → b.isNan = false →
      (Below a b → fMinMax t false a b = (x, 0) ∧ fMinMax t true a b = (y, 0)) ∧
      (Below b a → fMinMax t false a b = (y, 0) ∧ fMinMax t true a b = (x, 0)) ∧
      (Same a b → fMinMax t false a b = (if a.sign then x else y, 0) ∧ fMinMax t true a b = (if b.sign then x else y, 0))) ∧
    (∀ w s, b.isNan = false → fMinMax t w (.nan s) b = (y, if s then fNV else 0) ∧
      fMinMax t w b (.nan s) = (y, if s then fNV else 0)) ∧
    ∀ w s s', fMinMax t w (.nan s) (.nan s') = (t.nanBits, if s = true ∨ s' = true then fNV else 0)) ∧
  ∀ (t : Fmt) (x : Nat), x < 2 ^ t.width →
    (∀ n, t.decode x = .inf n → fClass t x = 2 ^ (if n then 0 else 7)) ∧
    (∀ s, t.decode x = .nan s → fClass t x = 2 ^ (if s then 8 else 9)) ∧
    ∀ n m e k, t.decode x = .fin n m e →
      k = (if ratOf n m e = 0 then 3 else if |ratOf n m e| < (2 : ℚ) ^ (t.emin + t.fbits) then 2 else 1) →
      fClass t x = 2 ^ (if n then k else 7 - k)

namespace Sys2Proof.Claims

/-- The registers a form of group 011, a conversion, a reduction or MCVT may write: s, v. -/
def floatDest : Instr → Option (List Nat × List Nat)
  | .fadd o | .fsub o | .fmul o | .fmin o | .fmax o | .fdiv o => some ([o.d.toNat], [])
  | .ffma o => some ([o.d.toNat], [])
  | .fsqrt o | .frnd o | .fclass o => some ([o.d.toNat], [])
  | .fcpys o => some ([o.d.toNat], [])
  | .vfadd o | .vfsub o | .vfmul o | .vfmin o | .vfmax o | .vfdiv o =>
    some ([], if o.t = 1 then [o.d.toNat, o.d.toNat + 1] else [o.d.toNat])
  | .vffma o => some ([], if o.t = 1 then [o.d.toNat, o.d.toNat + 1] else [o.d.toNat])
  | .vfsqrt o | .vfrnd o => some ([], if o.t = 1 then [o.d.toNat, o.d.toNat + 1] else [o.d.toNat])
  | .vfclass o => some ([], [o.d.toNat])
  | .cvtFf o | .cvtFi o | .cvtIf o =>
    match o.opd with
    | .scalar d _ => some ([d.toNat], [])
    | .lane d _ => some ([], if o.dst = 0 then [d.toNat, d.toNat + 1] else [d.toNat])
  | .cvtPack o => some ([], [o.d.toNat])
  | .wred o => some ([], [o.d.toNat])
  | .mcvt o => some ([], (List.range 4).map (o.d.toNat + ·) ++ match o.form with | .resid vr => [vr.toNat] | _ => [])
  | .cvtEf o => some ([], match o.form with | .resid vr => [o.d.toNat, vr.toNat] | _ => [o.d.toNat])
  | _ => none

end Sys2Proof.Claims

/-- R137, R139: a floating form that takes no trap changes its destination and the flags of sr.fpst, and nothing else. -/
def Sys2Proof.Claims.FloatFrame : Prop :=
  ∀ i sd vd s t n sl f, floatDest i = some (sd, vd) → Issues s n sl f → exec i s = .next t →
    (∀ g, t.firing n sl = some g → g.stopped = false) →
    Frame s t n sl f sd vd [] [] true ∧ ∀ g, t.firing n sl = some g → ∀ k, 6 ≤ k → g.fpst.getLsbD k = f.fpst.getLsbD k

/-! ## Lane integer and cross-lane instructions -/

namespace Sys2Proof.Claims

/-- Element j of a lane word: the word, or under .P16 a half of it (R155). -/
def elW (p16 : Bool) : Nat := if p16 then 16 else 32
def elem (p16 : Bool) (x : W32) (j : Nat) : Nat := if p16 then x.toNat / 2 ^ (16 * j) % 2 ^ 16 else x.toNat
def sintN (w x : Nat) : Int := (BitVec.ofNat w x).toInt

/-- Word r has in every element what P relates to the elements of a, b and c. -/
def Elementwise (p16 : Bool) (a b c r : W32) (P : Nat → Nat → Nat → Nat → Prop) : Prop :=
  ∀ j, j < (if p16 then 2 else 1) → P (elem p16 a j) (elem p16 b j) (elem p16 c j) (elem p16 r j)

/-- An exact element operation under SAT (R89, R155). -/
def SatEl (g : Int → Int → Int → Int) (sat : Sat) (w a b c r : Nat) : Prop :=
  match sat with
  | .wrap => (r : Int) = (g (sintN w a) (sintN w b) (sintN w c)) % 2 ^ w
  | .ss => sintN w r = max (-2 ^ (w - 1)) (min (2 ^ (w - 1) - 1) (g (sintN w a) (sintN w b) (sintN w c)))
  | .us => (r : Int) = max 0 (min (2 ^ w - 1) (g a b c))

/-- A lane form gives every enabled lane a word whose elements P determines. -/
def LaneGives (i : Instr) (s : State) (n sl : Nat) (f : Firing) (h : Head) (l : Len) (d : BitVec 8) (p16 : Bool)
    (a b c : Nat → W32) (P : Nat → Nat → Nat → Nat → Prop) : Prop :=
  ∃ r : Nat → W32, (∀ L, Elementwise p16 (a L) (b L) (c L) (r L) P) ∧ Gives i s n sl (f.writeV h l d.toNat r)

end Sys2Proof.Claims

/-- R155, Table 8-3: the arithmetic of the lanes. -/
def Sys2Proof.Claims.LaneArithmetic : Prop :=
  (∀ (o : VIntOps) (s : State) (n sl : Nat) (f : Firing) (a b : Nat → W32), Issues s n sl f →
    (∀ L, a L = f.isrcV o.p16 L o.a) → (∀ L, b L = f.isrcVI o.p16 L o.b) →
    LaneGives (.vadd o) s n sl f o.h (lenBL o.b) o.d o.p16 a b b (fun x y _ r => SatEl (fun x y _ => x + y) o.sat (elW o.p16) x y 0 r) ∧
    LaneGives (.vsub o) s n sl f o.h (lenBL o.b) o.d o.p16 a b b (fun x y _ r => SatEl (fun x y _ => x - y) o.sat (elW o.p16) x y 0 r) ∧
    LaneGives (.vmul o) s n sl f o.h (lenBL o.b) o.d o.p16 a b b (fun x y _ r => SatEl (fun x y _ => x * y) o.sat (elW o.p16) x y 0 r) ∧
    LaneGives (.vmulh o) s n sl f o.h (lenBL o.b) o.d o.p16 a b b (fun x y _ r =>
      if o.u then r = x * y / 2 ^ elW o.p16 else sintN (elW o.p16) r = sintN (elW o.p16) x * sintN (elW o.p16) y / 2 ^ elW o.p16) ∧
    LaneGives (.vmin o) s n sl f o.h (lenBL o.b) o.d o.p16 a b b (fun x y _ r =>
      if o.u then r = min x y else sintN (elW o.p16) r = min (sintN (elW o.p16) x) (sintN (elW o.p16) y)) ∧
    LaneGives (.vmax o) s n sl f o.h (lenBL o.b) o.d o.p16 a b b (fun x y _ r =>
      if o.u then r = max x y else sintN (elW o.p16) r = max (sintN (elW o.p16) x) (sintN (elW o.p16) y))) ∧
  (∀ (o : VMadOps) (s : State) (n sl : Nat) (f : Firing), Issues s n sl f →
    LaneGives (.vmad o) s n sl f o.h .l96 o.d o.p16 (fun L => f.isrcV o.p16 L o.a) (fun L => f.isrcV o.p16 L o.b)
      (fun L => f.isrcV o.p16 L o.c) (SatEl (fun x y z => x * y + z) o.sat (elW o.p16)))

/-- R155, R156, R92: logic, shifts, bit fields and counts of the lanes, bit by bit. -/
def Sys2Proof.Claims.LaneLogicShift : Prop :=
  (∀ (o : VIntOps) (s : State) (n sl : Nat) (f : Firing) (a b : Nat → W32), Issues s n sl f →
    (∀ L, a L = f.isrcV o.p16 L o.a) → (∀ L, b L = f.isrcVI o.p16 L o.b) →
    (o.p16 = false →
      Gives (.vand o) s n sl (f.writeV o.h (lenBL o.b) o.d.toNat fun L => a L &&& b L) ∧
      Gives (.vor o) s n sl (f.writeV o.h (lenBL o.b) o.d.toNat fun L => a L ||| b L) ∧
      Gives (.vxor o) s n sl (f.writeV o.h (lenBL o.b) o.d.toNat fun L => a L ^^^ b L)) ∧
    LaneGives (.vshl o) s n sl f o.h (lenBL o.b) o.d o.p16 a b b (fun x y _ r => ∀ i, r.testBit i =
      (decide (i < elW o.p16) && decide (y ≤ i) && x.testBit (i - y))) ∧
    LaneGives (.vshr o) s n sl f o.h (lenBL o.b) o.d o.p16 a b b (fun x y _ r => ∀ i, r.testBit i = x.testBit (i + y)) ∧
    LaneGives (.vsar o) s n sl f o.h (lenBL o.b) o.d o.p16 a b b (fun x y _ r => ∀ i, i < elW o.p16 →
      r.testBit i = x.testBit (min (i + y) (elW o.p16 - 1)))) ∧
  (∀ (o : VIntOps) (s : State) (n sl : Nat) (f : Firing), Issues s n sl f → ∃ r : Nat → W32,
    Gives (.vbfx o) s n sl (f.writeV o.h (lenBL o.b) o.d.toNat r) ∧ ∀ L pos wid, pos = (f.srcVI L o.b).toNat % 32 →
      wid = min ((f.srcVI L o.b).toNat / 256 % 64) 32 → ∀ i, i < 32 → (r L).getLsbD i =
        if o.u then decide (i < wid) && (f.srcV L o.a).getLsbD (pos + i)
        else decide (wid ≠ 0) && (f.srcV L o.a).getLsbD (pos + min i (wid - 1))) ∧
  (∀ (o : VBfiOps) (s : State) (n sl : Nat) (f : Firing), Issues s n sl f → ∃ r : Nat → W32,
    Gives (.vbfi o) s n sl (f.writeV o.h (lenVbfi o.ctl) o.d.toNat r) ∧ ∀ L pos wid, pos = (f.srcVI L o.ctl).toNat % 32 →
      wid = min ((f.srcVI L o.ctl).toNat / 256 % 64) 32 → ∀ i, i < 32 → (r L).getLsbD i =
        if pos ≤ i ∧ i < pos + wid then (f.srcV L o.b).getLsbD (i - pos) else (f.srcV L o.a).getLsbD i) ∧
  (∀ (o : VUnOps) (s : State) (n sl : Nat) (f : Firing), Issues s n sl f →
    (∃ r : Nat → W32, Gives (.vpopc o) s n sl (f.writeV o.h .l64 o.d.toNat r) ∧
      ∀ L, (r L).toNat = (List.range 32).countP (f.srcV L o.a).getLsbD) ∧
    (∃ r : Nat → W32, Gives (.vclz o) s n sl (f.writeV o.h .l64 o.d.toNat r) ∧
      ∀ L, (r L).toNat ≤ 32 ∧ (∀ i, i < (r L).toNat → (f.srcV L o.a).getLsbD (31 - i) = false) ∧
        ((r L).toNat < 32 → (f.srcV L o.a).getLsbD (31 - (r L).toNat) = true)) ∧
    (∃ r : Nat → W32, Gives (.vbrev o) s n sl (f.writeV o.h .l64 o.d.toNat r) ∧
      ∀ L i, i < 32 → (r L).getLsbD i = (f.srcV L o.a).getLsbD (31 - i)))

/-- R157 to R163: moves, selection, other lanes' values, votes, shuffles, exchanges and reductions. -/
def Sys2Proof.Claims.CrossLane : Prop :=
  (∀ (o : VMovOps) (s : State) (n sl : Nat) (f : Firing), Issues s n sl f →
    Gives (.vmov o) s n sl (f.writeV o.h (lenBL o.b) o.d.toNat fun L => f.srcVI L o.b)) ∧
  (∀ (o : VSelOps) (s : State) (n sl : Nat) (f : Firing), Issues s n sl f →
    Gives (.vsel o) s n sl (f.writeV o.h (lenBL o.b) o.d.toNat fun L =>
      if (f.getQ o.q.toNat).getLsbD L = o.neg then f.srcVI L o.b else f.srcV L o.a)) ∧
  (∀ (o : VBcastOps) (s : State) (n sl : Nat) (f : Firing) (i : Nat), Issues s n sl f →
    i = (match o.idx with | .sreg r => (f.getS r.toNat).toNat % 32 | .imm j => j.toNat) →
    Gives (.vbcast o) s n sl (f.writeV o.h (lenLaneIdx o.idx) o.d.toNat fun _ => f.srcV i o.a)) ∧
  (∀ (o : VExtOps) (s : State) (n sl : Nat) (f : Firing) (i : Nat), Issues s n sl f →
    i = (match o.idx with | .sreg r => (f.getS r.toNat).toNat % 32 | .imm j => j.toNat) → ∃ g : Firing,
    Gives (.vext o) s n sl (g.retire true o.h (lenLaneIdx o.idx) .none) ∧ ∀ r, g.getS r =
      if r ≠ 0 ∧ r = o.d.toNat ∧ (List.range 32).any (f.enL o.h) = true then
        (if o.sx then (f.srcV i o.a).signExtend 64 else (f.srcV i o.a).setWidth 64) else f.getS r) ∧
  (∀ (h : Head) (d : BitVec 8) (q : BitVec 3) (v : VoteSrc) (s : State) (n sl : Nat) (f : Firing), Issues s n sl f →
    ∃ c : W32, (∀ L, L < 32 → c.getLsbD L = (f.enL h L && match v with
        | .pred p _ => (f.getQ p.toNat).getLsbD L
        | .val a b => (f.srcV L a).getLsbD ((f.srcV L b).toNat % 32)
        | .valImm a j => (f.srcV L a).getLsbD j.toNat)) ∧
      Gives (.voteBal ⟨h, d, v⟩) s n sl (f.writeV h (lenVote v) d.toNat fun _ => c) ∧
      (∃ g : Firing, Gives (.voteAny ⟨h, q, v⟩) s n sl (g.retire true h (lenVote v) .none) ∧
        ∀ p L, 0 < p → p < 8 → L < 32 → (g.getQ p).getLsbD L =
          if p = q.toNat ∧ f.enL h L = true then decide (c ≠ 0) else (f.getQ p).getLsbD L) ∧
      (∃ g : Firing, Gives (.voteAll ⟨h, q, v⟩) s n sl (g.retire true h (lenVote v) .none) ∧
        ∀ p L, 0 < p → p < 8 → L < 32 → (g.getQ p).getLsbD L =
          if p = q.toNat ∧ f.enL h L = true then (List.range 32).all fun L' => !f.enL h L' || c.getLsbD L'
          else (f.getQ p).getLsbD L)) ∧
  (∀ (o : ShflOps) (s : State) (n sl : Nat) (f : Firing) (w : Nat), Issues s n sl f → w = 2 ^ o.wl.toNat →
    Gives (.shfl o) s n sl (f.writeV o.h (lenBL o.b) o.d.toNat fun L =>
      let i := (f.srcVI L o.b).toNat
      if o.mode = 0 ∧ i < w then f.srcV (L - L % w + i) o.a
      else if o.mode = 1 ∧ i < w then f.srcV (L ^^^ i) o.a
      else if o.mode = 2 ∧ i ≤ L % w then f.srcV (L - i) o.a
      else if o.mode = 3 ∧ L % w + i < w then f.srcV (L + i) o.a
      else f.srcV L o.a)) ∧
  (∀ (o : XchgOps) (s : State) (n sl : Nat) (f : Firing) (d : Nat), Issues s n sl f → d = 2 ^ o.dl.toNat →
    Gives (.xchg o) s n sl (f.writeV o.h (lenBL o.b) o.d.toNat fun L =>
      let a := f.srcV L o.a
      let p := f.srcV (L ^^^ d) o.a
      let m := f.srcVI L o.b
      if L &&& d = 0 then (a &&& ~~~ (m <<< d)) ||| ((p &&& m) <<< d) else (a &&& ~~~ m) ||| ((p >>> d) &&& m))) ∧
  (∀ (o : WredOps) (s : State) (n sl : Nat) (f : Firing), Issues s n sl f → o.op.toNat < 8 →
    ∃ r : Nat → W32, Gives (.wred o) s n sl ((f.orFlags 0).writeV o.h .l64 o.d.toNat r) ∧
      ∀ L, L < 32 → r L = (wredSteps o.op.toNat o.wl.toNat
        ((List.range 32).map (fun L => if f.enL o.h L then f.srcV L o.a else wredId o.op.toNat), 0)).1.getD L 0) ∧
  (∀ (o : WredOps) (s : State) (n sl : Nat) (f : Firing) (r : List W32) (fl : FpFlags), Issues s n sl f → 8 ≤ o.op.toNat →
    (r, fl) = wredSteps o.op.toNat o.wl.toNat ((List.range 32).map (fun L => if f.enL o.h L then
      (match o.a with | .const i => BitVec.ofNat 32 (floatConst .f32 i) | a => f.srcV L a) else wredId o.op.toNat), 0) →
    FpGives (.wred o) s n sl f fl fun g => g.writeV o.h .l64 o.d.toNat fun L => r.getD L 0)

/-- R163: a reduction gives every lane of a segment of 2^k lanes the same word. -/
def Sys2Proof.Claims.ReductionUniform : Prop :=
  ∀ (op k : Nat) (acc : List W32 × FpFlags) (L M : Nat), k ≤ 5 → L < 32 → M < 32 → L / 2 ^ k = M / 2 ^ k →
    (wredSteps op k acc).1.getD L 0 = (wredSteps op k acc).1.getD M 0

namespace Sys2Proof.Claims

/-- WRED's steps on the lanes' values, at distances 2^(lo + k − 1) down to 2^lo: the lower lane's value first (R163). -/
def steps {α : Type} (g : α → α → α) (lo : Nat) : Nat → (Nat → α) → Nat → α
  | 0, t => t
  | k + 1, t => steps g lo k fun L => g (t (min L (L ^^^ 2 ^ (lo + k)))) (t (max L (L ^^^ 2 ^ (lo + k))))

/-- Lane M contributes to the result of lane L's segment of 2^k lanes. -/
def Member (k : Nat) (en : Nat → Bool) (L M : Nat) : Prop := M < 32 ∧ M / 2 ^ k = L / 2 ^ k ∧ en M = true

/-- One of the members' words satisfies P, and the result is one such that none of them comes before it. -/
def FirstOf (In : Nat → Prop) (v : Nat → W32) (P : W32 → Prop) (Before : W32 → W32 → Prop) (r : W32) : Prop :=
  (∃ M, In M ∧ P (v M)) → (∃ M, In M ∧ P (v M) ∧ r = v M) ∧ ∀ M, In M → P (v M) → ¬ Before (v M) r

end Sys2Proof.Claims

/-- R163, Table 8-5: what a reduction gives, from the values of the enabled lanes of a segment alone: sum, least, greatest,
logic; FADD in the one pairwise order, rounded at each step; FMIN and FMAX the least and greatest number, −0 below +0, and the
canonical NaN where there is none; and the flags. -/
def Sys2Proof.Claims.ReductionValues : Prop :=
  ∀ (k : Nat) (v : Nat → W32) (en : Nat → Bool) (w : Nat → List W32 × FpFlags) (r : Nat → Nat → W32), k ≤ 5 →
    (∀ op, w op = wredSteps op k ((List.range 32).map (fun L => if en L then v L else wredId op), 0)) →
    (∀ op L, r op L = (w op).1.getD L 0) →
    (∀ L, L < 32 → ∀ In, In = Member k en L →
      (r 0 L).toNat = ((List.range 32).map fun M => if M / 2 ^ k = L / 2 ^ k ∧ en M = true then (v M).toNat else 0).sum % 2 ^ 32 ∧
      FirstOf In v (fun _ => True) (fun x y => x.toInt < y.toInt) (r 1 L) ∧
      FirstOf In v (fun _ => True) (fun x y => y.toInt < x.toInt) (r 2 L) ∧
      FirstOf In v (fun _ => True) (fun x y => x.toNat < y.toNat) (r 3 L) ∧
      FirstOf In v (fun _ => True) (fun x y => y.toNat < x.toNat) (r 4 L) ∧
      (∀ i, i < 32 → ((r 5 L).getLsbD i = true ↔ ∀ M, In M → (v M).getLsbD i = true)) ∧
      (∀ i, (r 6 L).getLsbD i = true ↔ ∃ M, In M ∧ (v M).getLsbD i = true) ∧
      (∀ i, (r 7 L).getLsbD i =
        decide (((List.range 32).countP fun M => decide (M / 2 ^ k = L / 2 ^ k) && en M && (v M).getLsbD i) % 2 = 1)) ∧
      (∀ (num : W32 → Prop) (b : W32 → FVal), (∀ x, b x = Fmt.f32.decode x.toNat) → (∀ x, num x ↔ (b x).isNan = false) →
        FirstOf In v num (fun x y => Below (b x) (b y) ∨ Same (b x) (b y) ∧ (b x).sign = true ∧ (b y).sign = false) (r 9 L) ∧
        FirstOf In v num (fun x y => Below (b y) (b x) ∨ Same (b x) (b y) ∧ (b x).sign = false ∧ (b y).sign = true) (r 10 L) ∧
        ((∀ M, In M → ¬ num (v M)) → 0 < k → r 9 L = 0x7FC00000 ∧ r 10 L = 0x7FC00000))) ∧
    (∀ (g : Nat → Nat → Nat × FpFlags) (t : Nat → Nat → Nat),
      (∀ x y, g x y = fAdd .f32 .rne (Fmt.f32.decode x) (Fmt.f32.decode y)) →
      (∀ j, t j = steps (fun x y => (g x y).1) j (k - j) fun L => if en L then (v L).toNat else 0x80000000) →
      (∀ L, L < 32 → (r 8 L).toNat = t 0 L) ∧
      ∀ i, (w 8).2.getLsbD i = true ↔ ∃ j L, j < k ∧ L < 32 ∧
        (g (t (j + 1) (min L (L ^^^ 2 ^ j))) (t (j + 1) (max L (L ^^^ 2 ^ j)))).2.getLsbD i = true) ∧
    (∀ op, op < 8 → (w op).2 = 0) ∧
    ∀ op, op = 9 ∨ op = 10 → 0 < k → ((w op).2.getLsbD 4 = true ↔ ∃ M, M < 32 ∧ en M = true ∧ (Fmt.f32.decode (v M).toNat).isSig = true) ∧
      ∀ i, i ≠ 4 → (w op).2.getLsbD i = false

/-- R165: SFU takes its place in the core's queue where it has one, or has no effect with no lane enabled. -/
def Sys2Proof.Claims.SfuIssue : Prop :=
  ∀ (o : SfuOps) (s : State) (n sl : Nat) (f : Firing), Issues s n sl f →
    (noLane f o.h → Gives (.sfu o) s n sl (f.retire true o.h .l64 .none)) ∧
    (¬ noLane f o.h → (s.core n).sfuQ.length < 16 → ((s.core n).sfuQ.filter fun e => e.slot == sl).length < 2 →
      ∃ t e, exec (.sfu o) s = .next t ∧ (t.core n).sfuQ = (s.core n).sfuQ ++ [e] ∧ e.slot = sl ∧ e.pc = f.pc ∧
        e.fn = o.fn ∧ e.d = o.d.toNat ∧ (∀ L, L < 32 → e.mask.getLsbD L = f.enL o.h L) ∧
        t.firing n sl = some (f.retire true o.h .l64 .none) ∧ t.mem = s.mem)

/-! ## Matrix instructions -/

namespace Sys2Proof.Claims

/-- A unit form with every lane enabled and the unit free: it occupies the unit with its operation and goes on. -/
def UnitTakes (i : Instr) (s : State) (n sl : Nat) (f : Firing) (h : Head) (l : Len) (P : MatOp → Prop) : Prop :=
  ∃ op, exec i s = .next (s.setCore n ({ s.core n with mat := some op }.setFiring sl (f.retire true h l .none))) ∧
    op.slot = sl ∧ op.pc = f.pc ∧ P op

/-- Whether, of the lanes, all are enabled (R171). -/
def everyLane (f : Firing) (h : Head) : Prop := ∀ L, L < 32 → f.enL h L = true

/-- The word at which element (m, n) of a 32-bit accumulator lies (R173). -/
def accKey (d m n : Nat) : Nat := 32 * (d + n % 8) + (m + 16 * (n / 8))

end Sys2Proof.Claims

/-- R171, R175, R178, R180, R184: MMA, MMAS and MMAQ with all lanes enabled and the unit free; integer MMA adds the exact
sum of products to the accumulator, modulo 2^32; floating results are their element sums; with no lane they have no
effect, and with some they raise MMALANES. Whatever their lanes, they wait while the unit holds an operation. -/
def Sys2Proof.Claims.MatrixProducts : Prop :=
  (∀ (o : MmaOps) (s : State) (n sl : Nat) (f : Firing) (w : Nat), Issues s n sl f → everyLane f o.h →
    (s.core n).mat = none → mmaWidth o.i o.ta = some w →
    UnitTakes (.mma o) s n sl f o.h .l64 fun op => op.d = o.d.toNat ∧
      (o.i = true → w ≠ 64 → op.flags = 0 ∧ ∀ i j, i < 16 → j < 16 → ∃ x, (accKey o.d.toNat i j, x) ∈ op.vals ∧
        x.toInt = (sintN 32 (f.accElem o.d.toNat false i j) + ((List.range (kOf w)).map fun k =>
          mmaInt o.ta (f.fragElem o.a.toNat w i k) * mmaInt o.tb (f.fragElem o.b.toNat w j k)).sum).bmod (2 ^ 32)) ∧
      (w ≠ 64 → ∀ i j, i < 16 → j < 16 →
        (accKey o.d.toNat i j, BitVec.ofNat 32 (mmaElem f o w i j).1) ∈ op.vals) ∧
      (w = 64 → ∀ i j, i < 16 → j < 16 → ∀ k, k < 2 → (accKey (o.d.toNat + j % 8 + k) i j,
        BitVec.ofNat 32 ((mmaElem f o w i j).1 / 2 ^ (32 * k))) ∈ op.vals)) ∧
  (∀ (o : MmasOps) (s : State) (n sl : Nat) (f : Firing) (w : Nat), Issues s n sl f → everyLane f o.h →
    (s.core n).mat = none → mmaWidth o.i o.ta = some w →
    UnitTakes (.mmas o) s n sl f o.h .l96 fun op => op.d = o.d.toNat ∧ ∀ i j, i < 16 → j < 16 →
      (accKey o.d.toNat i j, BitVec.ofNat 32 (mmasElem f o w i j).1) ∈ op.vals) ∧
  (∀ (o : MmaqOps) (s : State) (n sl : Nat) (f : Firing) (w : Nat), Issues s n sl f → everyLane f o.h →
    (s.core n).mat = none → mmaWidth o.i o.ta = some w →
    UnitTakes (.mmaq o) s n sl f o.h .l96 fun op => op.d = o.d.toNat ∧ ∀ i j, i < 16 → j < 16 →
      (accKey o.d.toNat i j, BitVec.ofNat 32 (mmaqElem f o w i j).1) ∈ op.vals) ∧
  (∀ (o : MmaOps) (p : MmasOps) (q : MmaqOps) (s : State) (n sl : Nat) (f : Firing), Issues s n sl f →
    (s.core n).mat ≠ none → exec (.mma o) s = .next s ∧ exec (.mmas p) s = .next s ∧ exec (.mmaq q) s = .next s) ∧
  (∀ (o : MmaOps) (p : MmasOps) (q : MmaqOps) (s : State) (n sl : Nat) (f : Firing), Issues s n sl f →
    (s.core n).mat = none →
    (noLane f o.h → Gives (.mma o) s n sl (f.retire true o.h .l64 .none)) ∧
    (¬ noLane f o.h → ¬ everyLane f o.h → exec (.mma o) s = .next (takeTrap s n sl (cause 0x10))) ∧
    (noLane f p.h → Gives (.mmas p) s n sl (f.retire true p.h .l96 .none)) ∧
    (¬ noLane f p.h → ¬ everyLane f p.h → exec (.mmas p) s = .next (takeTrap s n sl (cause 0x10))) ∧
    (noLane f q.h → Gives (.mmaq q) s n sl (f.retire true q.h .l96 .none)) ∧
    (¬ noLane f q.h → ¬ everyLane f q.h → exec (.mmaq q) s = .next (takeTrap s n sl (cause 0x10))))

namespace Sys2Proof.Claims

/-- A product's factors: whether one is a zero, an infinity, a NaN; the product's sign; the number of a finite factor. -/
def hasZero (p : List FVal) : Prop := ∃ n e, FVal.fin n 0 e ∈ p
def hasInf (p : List FVal) : Prop := ∃ n, FVal.inf n ∈ p
def hasNan (p : List FVal) : Prop := ∃ q, FVal.nan q ∈ p
def negative (p : List FVal) : Prop := p.countP FVal.sign % 2 = 1
def numOf : FVal → ℚ
  | .fin n m e => ratOf n m e
  | _ => 0

/-- G and its flags are the group sum of products (R176), each given by its factors; that 0 × ∞ beside a NaN factor raises
nothing of its own is log entry 105. -/
def GroupSum (acc : Fmt) (ps : List (List FVal)) (G : FVal × FpFlags) : Prop :=
  ((∃ p ∈ ps, hasNan p ∨ hasZero p ∧ hasInf p) → G.1 = .nan false ∧
    ((∃ p ∈ ps, FVal.nan true ∈ p ∨ ¬ hasNan p ∧ hasZero p ∧ hasInf p) → G.2 = fNV) ∧
    ((¬ ∃ p ∈ ps, FVal.nan true ∈ p ∨ ¬ hasNan p ∧ hasZero p ∧ hasInf p) → G.2 = 0)) ∧
  ((∀ p ∈ ps, ¬ hasNan p ∧ ¬ (hasZero p ∧ hasInf p)) →
    ((∃ p ∈ ps, hasInf p ∧ negative p) → (∃ p ∈ ps, hasInf p ∧ ¬ negative p) → G = (.nan false, fNV)) ∧
    ((∃ p ∈ ps, hasInf p ∧ negative p) → (∀ p ∈ ps, hasInf p → negative p) → G = (.inf true, 0)) ∧
    ((∃ p ∈ ps, hasInf p ∧ ¬ negative p) → (∀ p ∈ ps, hasInf p → ¬ negative p) → G = (.inf false, 0)) ∧
    ((∀ p ∈ ps, ¬ hasInf p) → ∀ v : ℚ, v = (ps.map fun p => (p.map numOf).prod).sum →
      (v ≠ 0 → ∃ y, RoundedTo acc .rne false v y ∧ G = (acc.decode y.1, y.2)) ∧
      (v = 0 → (∀ p ∈ ps, negative p) → G = (acc.decode (acc.signBits true), 0)) ∧
      (v = 0 → (¬ ∀ p ∈ ps, negative p) → G = (acc.decode 0, 0))))

/-- An element of the accumulator with pattern d takes the group sums in ascending order, each addition rounded to nearest
(R175): its new pattern, and the flags of all. -/
def Accumulates (acc : Fmt) (ng d : Nat) (G : Nat → FVal × FpFlags) (r : Nat × FpFlags) : Prop :=
  ∃ x : Nat → Nat, x 0 = d ∧ r.1 = x ng ∧
    (∀ g, g < ng → x (g + 1) = (fAdd acc .rne (acc.decode (x g)) (G g).1).1) ∧
    ∀ b, r.2.getLsbD b = true ↔ ∃ g, g < ng ∧
      ((G g).2.getLsbD b = true ∨ (fAdd acc .rne (acc.decode (x g)) (G g).1).2.getLsbD b = true)

/-- Elements 32g and on of the K elements, as many as the group has. -/
def groupOf {α : Type} (w g : Nat) (p : Nat → α) : List α := (List.range (min 32 (3072 / w - 32 * g))).map fun k => p (32 * g + k)

end Sys2Proof.Claims

/-- R172, R175, R176, R178 to R180: where an operand's elements lie, and what a floating MMA, an MMAS and an MMAQ make of an
element of the accumulator: the group sums of its exact products, an invalid scale giving the canonical NaN and IS, added one
after another. -/
def Sys2Proof.Claims.MatrixValues : Prop :=
  (∀ (f : Firing) (base w m k i : Nat), w ∈ [4, 8, 16, 64] → m < 16 → k < 3072 / w → i < w →
    (f.fragElem base w m k).testBit i = (f.getV (base + (k % (1536 / w) * w + i) / 32)
      (m + 16 * (k / (1536 / w)))).getLsbD ((k % (1536 / w) * w + i) % 32)) ∧
  (∀ (f : Firing) (o : MmaOps) (w m n : Nat) (acc : Fmt), o.i = false → mmaWidth o.i o.ta = some w → m < 16 → n < 16 →
    acc = (if w = 64 then .f64 else .f32) → ∃ G : Nat → FVal × FpFlags,
      (∀ g, g < (3072 / w + 31) / 32 → GroupSum acc (groupOf w g fun k =>
        [(mmaFmt o.ta).decode (f.fragElem o.a.toNat w m k), (mmaFmt o.tb).decode (f.fragElem o.b.toNat w n k)]) (G g)) ∧
      Accumulates acc ((3072 / w + 31) / 32) (f.accElem o.d.toNat (w == 64) m n) G (mmaElem f o w m n)) ∧
  (∀ (f : Firing) (o : MmasOps) (w m n : Nat) (sc : Nat → Nat → Nat → Nat), w = 8 ∨ w = 4 → m < 16 → n < 16 →
    (∀ part m g, sc part m g = (byteOf (f.getV (o.sc.toNat + part + g % (48 / w) / 4) (m + 16 * (g / (48 / w)))) (g % (48 / w) % 4)).toNat) →
    ∃ G : Nat → FVal × FpFlags,
      (∀ g, g < 96 / w →
        (0x7F ≤ sc 0 m g ∨ 0x7F ≤ sc 3 n g → G g = (.nan false, fIS)) ∧
        (sc 0 m g < 0x7F → sc 3 n g < 0x7F → GroupSum .f32 (groupOf w g fun k =>
          [(mmaFmt o.ta).decode (f.fragElem o.a.toNat w m k), (mmaFmt o.tb).decode (f.fragElem o.b.toNat w n k),
           Fmt.e4m3.decode (sc 0 m g), Fmt.e4m3.decode (sc 3 n g)]) (G g))) ∧
      Accumulates .f32 (96 / w) (f.accElem o.d.toNat false m n) G (mmasElem f o w m n)) ∧
  (∀ (f : Firing) (o : MmaqOps) (w m n : Nat) (sg : Nat → Nat → Nat → FVal) (z : Nat → Nat → Nat → Int) (int : Int → FVal),
    o.ta = 0 ∧ o.tb = 0 ∧ w = 8 ∨ o.ta = 2 ∧ o.tb = 2 ∧ w = 4 → m < 16 → n < 16 →
    (∀ base m q, sg base m q = Fmt.f16.decode ((f.getV (base + q % 12 / 2) (m + 16 * (q / 12))).toNat / 2 ^ (16 * (q % 2)) % 2 ^ 16)) →
    (∀ base m q, z base m q = sintN w (byteOf (f.getV (base + 6 + q % 12 / 4) (m + 16 * (q / 12))) (q % 4)).toNat) →
    (∀ x, int x = .fin (decide (x < 0)) x.natAbs 0) →
    ∃ G : Nat → FVal × FpFlags,
      (∀ g, g < 96 / w → GroupSum .f32 (groupOf w g fun k => let q := k / (32 * 2 ^ o.sz.toNat)
        [sg o.pa.toNat m q, sg o.pb.toNat n q, int (sintN w (f.fragElem o.a.toNat w m k) - z o.pa.toNat m q),
         int (sintN w (f.fragElem o.b.toNat w n k) - z o.pb.toNat n q)]) (G g)) ∧
      Accumulates .f32 (96 / w) (f.accElem o.d.toNat false m n) G (mmaqElem f o w m n))

/-- R181 to R183: MZERO, MCVT, MLDF and MSTF. That of two lanes of an MSTF that name one byte the higher one's stands is the
model's reading (log entry 81). -/
def Sys2Proof.Claims.MatrixMoves : Prop :=
  (∀ (o : MZeroOps) (s : State) (n sl : Nat) (f : Firing), Issues s n sl f → ∃ g : Firing,
    Gives (.mzero o) s n sl (g.retire true o.h .l64 .none) ∧ ∀ r L, L < 32 → g.getV r L =
      if o.d.toNat ≤ r ∧ r < o.d.toNat + (if o.f64 then 16 else 8) ∧ f.enL o.h L = true then 0 else f.getV r L) ∧
  (∀ (o : McvtOps) (s : State) (n sl : Nat) (f : Firing) (rows : Nat → List (Nat × Nat) × EfAcc × FpFlags),
    Issues s n sl f →
    (∀ m, rows m = efBlock (packFmt o.fmt) (fun k => Fmt.f32.decode (f.accElem o.a.toNat false m k)) (List.range 16) {}) →
    (everyLane f o.h → FpGives (.mcvt o) s n sl f (orAll ((List.range 16).map fun m => (rows m).2.2)) fun g =>
      (g.putV (((List.range 16).flatMap fun m => mcvtWords o.d.toNat (packFmt o.fmt).width m (rows m).1) ++
        match o.form with
        | .resid vr => (List.range 16).map fun m => (32 * vr.toNat + (m + 16), residF32 (rows m).2.1)
        | _ => [])).retire true o.h (efLen o.form) .none) ∧
    (noLane f o.h → Gives (.mcvt o) s n sl (f.retire true o.h (efLen o.form) .none)) ∧
    (¬ noLane f o.h → ¬ everyLane f o.h → exec (.mcvt o) s = .next (takeTrap s n sl (cause 0x10)))) ∧
  (∀ (o : MldfOps) (s : State) (n sl : Nat) (f : Firing), Issues s n sl f → mldfCheck (s.core n) f o .scratch = none →
    (∃ g : Firing, Gives (.mldf o) s n sl (g.retire true o.h .l96 .none) ∧ ∀ r L, L < 32 → g.getV r L =
      if o.d.toNat ≤ r ∧ r < o.d.toNat + mldfRegs o.kind ∧ f.enL o.h L = true then
        w32OfLE ((s.core n).getBs ((mldfOff f o L).toNat + 4 * (r - o.d.toNat)) 4) else f.getV r L) ∧
    (f.rel = none → ∃ c : Core, exec (.mstf o) s = .next (s.setCore n (c.setFiring sl (f.retire true o.h .l96 .none))) ∧
      (∀ L, L < 32 → f.enL o.h L = true →
        (∀ L', L < L' → L' < 32 → f.enL o.h L' = true → mldfOff f o L + (4 * mldfRegs o.kind : Nat) ≤ mldfOff f o L' ∨
          mldfOff f o L' + (4 * mldfRegs o.kind : Nat) ≤ mldfOff f o L) →
        ∀ r, r < mldfRegs o.kind → w32OfLE (c.getBs ((mldfOff f o L).toNat + 4 * r) 4) = f.getV (o.d.toNat + r) L) ∧
      (∀ a : Nat, (∀ L, L < 32 → f.enL o.h L = true → (a : Int) < mldfOff f o L ∨ mldfOff f o L + (4 * mldfRegs o.kind : Nat) ≤ a) →
        c.getB a = (s.core n).getB a))) ∧
  (∀ (o : MldfOps) (s : State) (n sl : Nat) (f : Firing) (tc : TrapCause), Issues s n sl f →
    mldfCheck (s.core n) f o .scratch = some tc → exec (.mldf o) s = .next (takeTrap s n sl tc) ∧
      exec (.mstf o) s = .next (takeTrap s n sl tc))

namespace Sys2Proof.Claims

/-- The registers a lane integer, cross-lane or register matrix form may write: s, v, q. -/
def laneDest : Instr → Option (List Nat × List Nat × List Nat)
  | .vadd o | .vsub o | .vmul o | .vmulh o | .vmin o | .vmax o | .vand o | .vor o | .vxor o | .vshl o | .vshr o | .vsar o
  | .vbfx o => some ([], [o.d.toNat], [])
  | .vmad o => some ([], [o.d.toNat], [])
  | .vbfi o => some ([], [o.d.toNat], [])
  | .vpopc o | .vclz o | .vbrev o => some ([], [o.d.toNat], [])
  | .vmov o => some ([], [o.d.toNat], [])
  | .vsel o => some ([], [o.d.toNat], [])
  | .vbcast o => some ([], [o.d.toNat], [])
  | .vext o => some ([o.d.toNat], [], [])
  | .voteBal o => some ([], [o.d.toNat], [])
  | .voteAny o | .voteAll o => some ([], [], [o.q.toNat])
  | .shfl o => some ([], [o.d.toNat], [])
  | .xchg o => some ([], [o.d.toNat], [])
  | .getpri o => some ([], [o.d.toNat], [])
  | .mzero o => some ([], (List.range (if o.f64 then 16 else 8)).map (o.d.toNat + ·), [])
  | _ => none

end Sys2Proof.Claims

/-- R155 to R162, R125, R181, R183: a lane integer or cross-lane form changes its destination and nothing else; so does
MLDF where it takes no trap. -/
def Sys2Proof.Claims.LaneFrame : Prop :=
  (∀ i sd vd qd s t n sl f, laneDest i = some (sd, vd, qd) → Issues s n sl f → exec i s = .next t →
    Frame s t n sl f sd vd [] qd false) ∧
  (∀ o s t n sl f, Issues s n sl f → exec (.mldf o) s = .next t → (∀ g, t.firing n sl = some g → g.stopped = false) →
    Frame s t n sl f [] ((List.range (mldfRegs o.kind)).map (o.d.toNat + ·)) [] [] false)

/-! ## Memory access -/

namespace Sys2Proof.Claims

/-- A local access of size bytes at offset a is aligned, inside the scratchpad and outside the workspace region (R199). -/
def SpadOk (c : Core) (a : W64) (size : Nat) : Prop :=
  a.toNat % size = 0 ∧ a.toNat + size ≤ 2 ^ 20 ∧ (c.wsHi ≤ a.toNat ∨ a.toNat + size ≤ c.wsLo)

/-- The value of loaded bytes (R193): little-endian, by sign under SX, else by zero. -/
def Loaded {w : Nat} (sx : Bool) (bs : List Byte) (x : BitVec w) : Prop :=
  if sx then x.toInt = (BitVec.ofNat (8 * bs.length) (natOfLE bs)).toInt else x.toNat = natOfLE bs

/-- Firing f has taken an instruction that leaves one more deposit pending and writes no register yet (R194). -/
def Deposits (i : Instr) (s : State) (n sl : Nat) (f : Firing) (lane : Bool) (h : Head) (l : Len) (P : Dep → Prop) : Prop :=
  ∃ (g : Firing) (d : Dep), Gives i s n sl (g.retire lane h l .none) ∧ g = { f with deps := f.deps ++ [d] } ∧
    d.seq = f.seq ∧ d.pc = f.pc ∧ P d

/-- Firing f has left one deposit that waits for its home's answer, for these s and v registers (R194). -/
def Awaits (f g : Firing) (ss vs : List Nat) : Prop :=
  ∃ d : Dep, g.deps = f.deps ++ [d] ∧ d.seq = f.seq ∧ d.pc = f.pc ∧ d.sregs = ss.filter (· != 0) ∧ d.vregs = vs ∧ d.src = .unit

/-- The leaf that serves an address of a core is at hand and denies the access (R203 to R206, R209), at this level of the
record (Table 17-2). -/
def Denied (c : Core) (xl : List Leaf) (priv : Bool) (k : Access) (va lvl : Nat) : Prop :=
  (∃ x, c.l1Find va = some x ∧ permOk priv k x.pte (keyPa (x.pline * 128 + va % 128)) = false ∧ lvl = 15) ∨
  (c.l1Find va = none ∧ ∃ l, xl.find? (fun l => l.covers c.asid va) = some l ∧
    permOk priv k l.pte (keyPa (l.key va)) = false ∧ lvl = l.level) ∨
  (c.l1Find va = none ∧ xl.find? (fun l => l.covers c.asid va) = none ∧ ∃ l,
    c.tlb.find? (fun l => l.covers c.asid va) = some l ∧ permOk priv k l.pte (keyPa (l.key va)) = false ∧ lvl = 15)

/-- The first check of R350 that a global access fails: ALIGN, WATCH, PROT. -/
def Fails (c : Core) (sl : Nat) (f : Firing) (k : Access) (size : Nat) (lane : Option Nat) (a : W64) (tc : TrapCause) : Prop :=
  (a.toNat % 2 ^ 56 % size ≠ 0 ∧ tc = causeAt 0x09 k (va56 a) lane) ∨
  (a.toNat % 2 ^ 56 % size = 0 ∧ watchHit c sl f k (a.toNat % 2 ^ 56) size = true ∧ tc = causeAt 0x18 k (va56 a) lane) ∨
  (a.toNat % 2 ^ 56 % size = 0 ∧ watchHit c sl f k (a.toNat % 2 ^ 56) size = false ∧
    ∃ lvl, Denied c f.xl (privileged c sl) k (a.toNat % 2 ^ 56) lvl ∧ tc = causeAt 0x0B k (va56 a) lane lvl)

/-- The same for a local access: ALIGN, PROT (R199). -/
def FailsLocal (c : Core) (size : Nat) (lane : Option Nat) (a : W64) (tc : TrapCause) : Prop :=
  (a.toNat % size ≠ 0 ∧ tc = causeAt 0x09 .scratch a lane) ∨
  (a.toNat % size = 0 ∧ ¬ SpadOk c a size ∧ tc = causeAt 0x0B .scratch a lane)

/-- L is the lowest enabled lane at which P fails. -/
def FirstLane (f : Firing) (h : Head) (P : Nat → Prop) (L : Nat) : Prop :=
  L < 32 ∧ f.enL h L = true ∧ ¬ P L ∧ ∀ M, M < L → f.enL h M = true → P M

/-- A user's access of a kind at an address that passes ALIGN, WATCH, translation and permission (R192, R350, R209). -/
def Passes (s : State) (n sl : Nat) (f : Firing) (k : Access) (size va key : Nat) (unc : Bool) : Prop :=
  va % size = 0 ∧ watchHit (s.core n) sl f k va size = false ∧
  xlate (s.core n) f.xl (privileged (s.core n) sl) k va none = .hit key unc

end Sys2Proof.Claims

/-- R199, R193: local loads take the bytes at issue into a deposit; local stores write exactly their bytes. -/
def Obligations.ScratchpadAccess : Prop :=
  (∀ (o : MemOps) (s : State) (n sl : Nat) (f : Firing) (a : W64) (bs : List Byte), Issues s n sl f → f.enS o.h = true →
    o.size.toNat ≤ 4 → a = f.eaS o.a o.idx (2 ^ o.size.toNat) → SpadOk (s.core n) a (2 ^ o.size.toNat) →
    bs = (s.core n).getBs a.toNat (2 ^ o.size.toNat) →
    (o.size.toNat ≤ 3 → Deposits (.lds o) s n sl f false o.h (lenIdx o.idx) fun d =>
      ∃ x : W64, Loaded o.sx bs x ∧ d.src = .val [(o.d.toNat, x)] []) ∧
    (o.size.toNat = 4 → Deposits (.lds o) s n sl f false o.h (lenIdx o.idx) fun d =>
      ∃ x y : W64, x.toNat = natOfLE (bs.take 8) ∧ y.toNat = natOfLE (bs.drop 8) ∧
        d.src = .val [(o.d.toNat, x), (o.d.toNat + 1, y)] []) ∧
    (f.rel = none → ∃ c : Core, exec (.sts o) s = .next (s.setCore n (c.setFiring sl (f.retire false o.h (lenIdx o.idx) .none))) ∧
      c.getBs a.toNat (2 ^ o.size.toNat) = f.dataS o.d.toNat (2 ^ o.size.toNat) ∧
      (∀ b, b < a.toNat ∨ a.toNat + 2 ^ o.size.toNat ≤ b → c.getB b = (s.core n).getB b) ∧
      c = { s.core n with spad := c.spad })) ∧
  (∀ (o : VMemOps) (s : State) (n sl : Nat) (f : Firing) (a : Nat → W64) (size : Nat), Issues s n sl f →
    size = 2 ^ o.size.toNat → o.size.toNat ≤ 4 → (∀ L, a L = f.eaV o.a o.b o.x o.disp size L) →
    (∀ L, L < 32 → f.enL o.h L = true → SpadOk (s.core n) (a L) size) → ¬ noLane f o.h →
    (o.size.toNat ≤ 2 → Deposits (.vlds o) s n sl f true o.h (lenDisp o.disp) fun d =>
      ∃ vs, d.src = .val [] vs ∧ ∀ L, L < 32 → f.enL o.h L = true →
        ∃ x : W32, (32 * o.d.toNat + L, x) ∈ vs ∧ Loaded o.sx ((s.core n).getBs (a L).toNat size) x) ∧
    (3 ≤ o.size.toNat → Deposits (.vlds o) s n sl f true o.h (lenDisp o.disp) fun d =>
      ∃ vs, d.src = .val [] vs ∧ ∀ L j, L < 32 → f.enL o.h L = true → 4 * j < size →
        (32 * (o.d.toNat + j) + L, w32OfLE ((s.core n).getBs ((a L).toNat + 4 * j) 4)) ∈ vs) ∧
    (f.rel = none → ∃ c : Core, exec (.vsts o) s = .next (s.setCore n (c.setFiring sl (f.retire true o.h (lenDisp o.disp) .none))) ∧
      (∀ L, L < 32 → f.enL o.h L = true →
        (∀ M, L < M → M < 32 → f.enL o.h M = true → a M ≠ a L) →
        c.getBs (a L).toNat size = f.dataV o.d.toNat size L) ∧
      (∀ b, (∀ L, L < 32 → f.enL o.h L = true → b < (a L).toNat ∨ (a L).toNat + size ≤ b) →
        c.getB b = (s.core n).getB b)))

/-- R193 to R197, R200, R203: global loads leave a deposit that names the bytes to be read, and the leaf that translated an access
which misses L1; stores take entries of the store queue with the bytes to be written, a byte that several lanes name being the
highest one's; no byte of memory changes when they issue. -/
def Sys2Proof.Claims.GlobalAccess : Prop :=
  (∀ (o : MemOps) (s : State) (n sl : Nat) (f : Firing) (size va key : Nat) (unc : Bool), Issues s n sl f →
    f.enS o.h = true → size = 2 ^ o.size.toNat → va = (f.eaS o.a o.idx size).toNat % 2 ^ 56 →
    (Passes s n sl f .read size va key unc → Deposits (.ld o) s n sl f false o.h (lenIdx o.idx) fun d =>
      (∃ lf, d.src = .load [⟨0, va, key, size, unc, lf, none⟩] ∧
        ((s.core n).l1Find va = none → lf = heldLeaf (s.core n) f.xl va)) ∧ d.dst = .s o.d.toNat size o.sx ∧
      d.sregs = (if size = 16 then [o.d.toNat, o.d.toNat + 1] else [o.d.toNat]).filter (· != 0)) ∧
    (Passes s n sl f .write size va key unc → f.sqRoom 1 = true → ∃ g : Firing,
      Gives (.st o) s n sl (g.retire false o.h (lenIdx o.idx) .none) ∧
      g = { f with sq := f.sq ++ [⟨f.seq, f.pc, .store o.g unc (accCells ⟨0, va, key, size, unc, none, none⟩ (f.dataS o.d.toNat size)), false⟩] })) ∧
  (∀ (o : VMemOps) (s : State) (n sl : Nat) (f : Firing) (size : Nat) (accs : List Acc), Issues s n sl f →
    size = 2 ^ o.size.toNat →
    (planLanes (s.core n) sl f .read size (laneAddrs f o) = .ok accs → accs ≠ [] →
      Deposits (.vld o) s n sl f true o.h (lenDisp o.disp) fun d =>
        d.src = .load accs ∧ d.dst = .v o.d.toNat size o.sx ∧ d.vregs = vGroup o.d.toNat size) ∧
    (planLanes (s.core n) sl f .write size (laneAddrs f o) = .ok accs → accs ≠ [] →
      f.sqRoom (accs.map fun a => a.va / 128).eraseDups.length = true → ∃ (g : Firing) (es : List Ent),
      Gives (.vst o) s n sl (g.retire true o.h (lenDisp o.disp) .none) ∧ g = { f with sq := f.sq ++ es } ∧
      es.length = (accs.map fun a => a.va / 128).eraseDups.length ∧
      ∀ (a : Acc), a ∈ accs → ∀ (j : Nat), j < size → ∃ e ∈ es, ∃ gg u cs b, e.op = .store gg u cs ∧ gg = o.g ∧
        (⟨a.va + j, a.pa + j, b⟩ : Cell) ∈ cs ∧ ∀ (i : Nat) (x : Acc), accs[i]? = some x → x.pa ≤ a.pa + j → a.pa + j < x.pa + size →
          (∀ (k : Nat) (y : Acc), i < k → accs[k]? = some y → a.pa + j < y.pa ∨ y.pa + size ≤ a.pa + j) →
          b = (f.dataV o.d.toNat size x.lane).getD (a.pa + j - x.pa) 0)) ∧
  (∀ (o : MemOps) (s : State) (n sl : Nat) (f : Firing), Issues s n sl f → f.enS o.h = false →
    Gives (.ld o) s n sl (f.retire false o.h (lenIdx o.idx) .none) ∧
    Gives (.st o) s n sl (f.retire false o.h (lenIdx o.idx) .none) ∧
    Gives (.lds o) s n sl (f.retire false o.h (lenIdx o.idx) .none) ∧
    Gives (.sts o) s n sl (f.retire false o.h (lenIdx o.idx) .none))

/-- R196, R350: the plan of a lane access succeeds exactly where every lane is aligned, unwatched and translated, with one
access a lane in ascending order. -/
def Sys2Proof.Claims.LanePlan : Prop :=
  ∀ (c : Core) (sl : Nat) (f : Firing) (k : Access) (size : Nat) (xs : List (Option Nat × W64)) (accs : List Acc),
    planLanes c sl f k size xs = .ok accs ↔
      accs.length = xs.length ∧ ∀ (i : Nat) (x : Option Nat × W64) (a : Acc), xs[i]? = some x → accs[i]? = some a →
        x.2.toNat % 2 ^ 56 % size = 0 ∧ watchHit c sl f k (x.2.toNat % 2 ^ 56) size = false ∧
        a.va = x.2.toNat % 2 ^ 56 ∧ a.lane = x.1.getD 0 ∧ a.size = size ∧ a.got = none ∧
        a.leaf = (if (c.l1Find a.va).isSome then none else heldLeaf c f.xl a.va) ∧
        xlate c f.xl (privileged c sl) k a.va x.1 = .hit a.pa a.unc

/-- R192, R196, R199, R201, R208, R209, R237, R240, R241, R350: the first check that an access fails names its trap, in a lane form at the
lowest lane that fails one: ALIGN, WATCH, and PROT of a leaf that is at hand; ALIGN and PROT in the scratchpad; ALIGN, PROT and
XLATE of a core that does not exist in another's. Where no leaf is at hand the firing waits for a walk of its die's pool. -/
def Obligations.AccessTraps : Prop :=
  (∀ (priv : Bool) (k : Access) (w : W64) (pa : Nat), permOk priv k w pa = true ↔
    (priv = true ∨ w.getLsbD 5 = true) ∧ (paDev pa = true → w.getLsbD 5 = false ∧ w.extractLsb' 7 2 = 1) ∧
    match k with
    | .read | .region => w.getLsbD 2 = true
    | .write | .regionW => w.getLsbD 3 = true
    | .fetch => w.getLsbD 4 = true
    | .atomic => w.getLsbD 2 = true ∧ w.getLsbD 3 = true ∧ paHost pa = false ∧ paDev pa = false
    | .scratch => True) ∧
  (∀ (o : MemOps) (s : State) (n sl : Nat) (f : Firing) (a : W64) (size : Nat) (tc : TrapCause), Issues s n sl f →
    f.enS o.h = true → size = 2 ^ o.size.toNat → a = f.eaS o.a o.idx size →
    (Fails (s.core n) sl f .read size none a tc → exec (.ld o) s = .next (takeTrap s n sl tc)) ∧
    (Fails (s.core n) sl f .write size none a tc → exec (.st o) s = .next (takeTrap s n sl tc)) ∧
    (FailsLocal (s.core n) size none a tc →
      exec (.lds o) s = .next (takeTrap s n sl tc) ∧ exec (.sts o) s = .next (takeTrap s n sl tc)) ∧
    (a.toNat % 2 ^ 56 % size = 0 → watchHit (s.core n) sl f .read (a.toNat % 2 ^ 56) size = false →
      xlate (s.core n) f.xl (privileged (s.core n) sl) .read (a.toNat % 2 ^ 56) none = .miss →
      ∃ t, exec (.ld o) s = .next t ∧ t.firing n sl = some { f with hold := .walk (a.toNat % 2 ^ 56) .read none } ∧
        t.mem = s.mem ∧ ∃ w ∈ t.walks, w.site = siteOf s n ∧ w.asid = (s.core n).asid ∧
          w.page = a.toNat % 2 ^ 56 / 65536)) ∧
  (∀ (o : VMemOps) (s : State) (n sl : Nat) (f : Firing) (a : Nat → W64) (size L : Nat) (tc : TrapCause), Issues s n sl f →
    size = 2 ^ o.size.toNat → (∀ M, a M = f.eaV o.a o.b o.x o.disp size M) →
    (FirstLane f o.h (fun M => ∃ key unc, Passes s n sl f .read size ((a M).toNat % 2 ^ 56) key unc) L →
      Fails (s.core n) sl f .read size (some L) (a L) tc → exec (.vld o) s = .next (takeTrap s n sl tc)) ∧
    (FirstLane f o.h (fun M => ∃ key unc, Passes s n sl f .write size ((a M).toNat % 2 ^ 56) key unc) L →
      Fails (s.core n) sl f .write size (some L) (a L) tc → exec (.vst o) s = .next (takeTrap s n sl tc)) ∧
    (FirstLane f o.h (fun M => SpadOk (s.core n) (a M) size) L → FailsLocal (s.core n) size (some L) (a L) tc →
      exec (.vlds o) s = .next (takeTrap s n sl tc) ∧ exec (.vsts o) s = .next (takeTrap s n sl tc))) ∧
  (∀ (o : XMemOps) (s : State) (n sl : Nat) (f : Firing) (off : W64) (size : Nat) (tc : TrapCause), Issues s n sl f →
    f.enS o.h = true → size = 2 ^ o.size.toNat → off = f.offX o.off o.x o.disp size →
    (off.toNat % size ≠ 0 ∧ tc = causeAt 0x09 .scratch off ∨
      off.toNat % size = 0 ∧ 2 ^ 20 < off.toNat + size ∧ tc = causeAt 0x0B .scratch off ∨
      off.toNat % size = 0 ∧ off.toNat + size ≤ 2 ^ 20 ∧ coreExists s ((f.srcS o.core).toNat % 2 ^ 29) = false ∧
        tc = causeAt 0x0A .scratch off) →
    exec (.ldx o) s = .next (takeTrap s n sl tc) ∧ exec (.stx o) s = .next (takeTrap s n sl tc)) ∧
  (∀ (o : AtomOps) (s : State) (n sl : Nat) (f : Firing) (size : Nat) (tc : TrapCause), Issues s n sl f → f.enS o.h = true →
    size = (if o.sz then 8 else 4) →
    (Fails (s.core n) sl f .atomic size none (f.srcS o.a) tc → exec (.atom o) s = .next (takeTrap s n sl tc)) ∧
    (FailsLocal (s.core n) size none (f.srcS o.a) tc → exec (.atomsLocal o) s = .next (takeTrap s n sl tc))) ∧
  (∀ (o : CasOps) (s : State) (n sl : Nat) (f : Firing) (tc : TrapCause), Issues s n sl f → f.enS o.h = true →
    Fails (s.core n) sl f .atomic (if o.sz then 8 else 4) none (f.srcS o.a) tc →
    exec (.cas o) s = .next (takeTrap s n sl tc)) ∧
  (∀ (o : AtomNzOps) (s : State) (n sl : Nat) (f : Firing) (tc : TrapCause), Issues s n sl f → f.enS o.h = true →
    Fails (s.core n) sl f .atomic (if o.sz then 8 else 4) none (f.srcS o.a) tc →
    exec (.atomNz o) s = .next (takeTrap s n sl tc)) ∧
  (∀ (o : AtomsXOps) (s : State) (n sl : Nat) (f : Firing) (off : W64) (size : Nat) (tc : TrapCause), Issues s n sl f →
    f.enS o.h = true → size = (if o.sz then 8 else 4) → off = f.srcS o.off →
    (off.toNat % size ≠ 0 ∧ tc = causeAt 0x09 .scratch off ∨
      off.toNat % size = 0 ∧ 2 ^ 20 < off.toNat + size ∧ tc = causeAt 0x0B .scratch off ∨
      off.toNat % size = 0 ∧ off.toNat + size ≤ 2 ^ 20 ∧ coreExists s ((f.srcS o.core).toNat % 2 ^ 29) = false ∧
        tc = causeAt 0x0A .scratch off) →
    exec (.atomsRemote o) s = .next (takeTrap s n sl tc)) ∧
  (∀ (o : VatomOps) (s : State) (n sl : Nat) (f : Firing) (a : Nat → W64) (L : Nat) (tc : TrapCause), Issues s n sl f →
    (∀ M, a M = f.srcS o.a + f.laneIdx o.b M) →
    (o.l = false → FirstLane f o.h (fun M => ∃ key unc, Passes s n sl f .atomic 4 ((a M).toNat % 2 ^ 56) key unc) L →
      Fails (s.core n) sl f .atomic 4 (some L) (a L) tc → exec (.vatom o) s = .next (takeTrap s n sl tc)) ∧
    (o.l = true → FirstLane f o.h (fun M => SpadOk (s.core n) (a M) 4) L → FailsLocal (s.core n) 4 (some L) (a L) tc →
      exec (.vatom o) s = .next (takeTrap s n sl tc)))

/-- R201, R240: remote scratchpad accesses of a core that exists become requests to it. -/
def Obligations.RemoteAccess : Prop :=
  (∀ (o : XMemOps) (s : State) (n sl : Nat) (f : Firing) (off : W64) (size gca : Nat), Issues s n sl f → f.enS o.h = true →
    size = 2 ^ o.size.toNat → off = f.offX o.off o.x o.disp size → gca = (f.srcS o.core).toNat % 2 ^ 29 →
    off.toNat % size = 0 → off.toNat + size ≤ 2 ^ 20 → coreExists s gca = true →
    Deposits (.ldx o) s n sl f false o.h (lenDisp o.disp) (fun d =>
      d.src = .ldx gca off.toNat size ∧ d.dst = .s o.d.toNat size o.sx) ∧
    (f.sqRoom 1 = true → Gives (.stx o) s n sl
      (({ f with sq := f.sq ++ [⟨f.seq, f.pc, .stx gca off.toNat (f.dataS o.d.toNat size), false⟩] } : Firing).retire
        false o.h (lenDisp o.disp) .none))) ∧
  (∀ (o : AtomsXOps) (s : State) (n sl : Nat) (f : Firing) (off : W64) (size gca : Nat), Issues s n sl f →
    f.enS o.h = true → size = (if o.sz then 8 else 4) → off = f.srcS o.off → gca = (f.srcS o.core).toNat % 2 ^ 29 →
    off.toNat % size = 0 → off.toNat + size ≤ 2 ^ 20 → coreExists s gca = true → f.sqRoom 1 = true → ∃ g : Firing,
    Gives (.atomsRemote o) s n sl (g.retire false o.h .l96 .none) ∧
    g.sq = f.sq ++ [⟨f.seq, f.pc, .atoms gca off.toNat size o.op.toNat o.u (f.srcS o.b), false⟩] ∧
    Awaits f g [o.d.toNat] [])

/-- R210, R211: cache control and prefetch: which L1 lines go, which dirty lines are to be written back; PREF, unless a full
set of the die's L2 gives up a line, changes no byte of the package's memory, and brings a readable line of the core's own die into L1. That
L1INV.XL drops the L1 lines of global pages is the model's reading (log entry 27). -/
def Sys2Proof.Claims.CacheControl : Prop :=
  (∀ (o : LineOps) (s : State) (n sl : Nat) (f : Firing) (va : Nat), Issues s n sl f → f.enS o.h = true →
    va = (f.srcS o.a + f.srcSI o.b).toNat % 2 ^ 56 →
    (∃ t, exec (.l1invLine o) s = .next t ∧ (t.core n).l1Find va = none ∧
      (∀ x, x.vline ≠ va / 128 → (x ∈ (t.core n).l1d ↔ x ∈ (s.core n).l1d)) ∧ t.mem = s.mem ∧
      t.firing n sl = some (f.retire false o.h (lenB o.b) .none)) ∧
    (∀ key unc, xlate (s.core n) f.xl (privileged (s.core n) sl) .write va none = .hit key unc → f.sqFree 1 = true →
      Gives (.l2wbLine o) s n sl
        (({ f with sq := f.sq ++ [⟨f.seq, f.pc, .wb (key / 128), false⟩] } : Firing).retire false o.h (lenB o.b) .none))) ∧
  (∀ (o : AllOps) (s : State) (n sl : Nat) (f : Firing), Issues s n sl f → f.enS o.h = true →
    (∃ t, exec (.l1invAll o) s = .next t ∧ t.mem = s.mem ∧
      (∀ x, x ∈ (t.core n).l1d ↔ x ∈ (s.core n).l1d ∧ x.asid ≠ (s.core n).asid ∧ pteG x.pte = false) ∧
      (∀ x, x ∈ (t.core n).l1i ↔ x ∈ (s.core n).l1i ∧ x.asid ≠ (s.core n).asid ∧ pteG x.pte = false)) ∧
    (f.wbq = [] → f.sq.length < 16 → ∃ t g, exec (.l2wbAll o) s = .next t ∧ t.firing n sl = some g ∧
      (t.core n).dirtyOvf = false ∧ t.mem = s.mem ∧
      (g.sq.drop f.sq.length).map (·.op) ++ g.wbq.map .wb =
        (if (s.core n).dirtyOvf then dirtyLines s (siteOf s n) else (s.core n).dirty).map .wb)) ∧
  (∀ (o : XlOps) (s : State) (n sl : Nat) (f : Firing) (a : BitVec 16), Issues s n sl f →
    a = (f.srcS o.a).setWidth 16 →
    (privileged (s.core n) sl = true → f.enS o.h = true → ∃ t, exec (.l1invXl o) s = .next t ∧ t.mem = s.mem ∧
      (∀ l, l ∈ (t.core n).tlb ↔ l ∈ (s.core n).tlb ∧ l.asid ≠ a ∧ pteG l.pte = false) ∧
      (∀ w, w ∈ t.walks → w.site = siteOf s n → w.asid = a → w.res = none) ∧
      (∀ w, w ∈ t.walks → w.site = siteOf s n → ∀ l, w.res = some (.leaf l) → pteG l.pte = false) ∧
      (∀ x, x ∈ (t.core n).l1d ↔ x ∈ (s.core n).l1d ∧ x.asid ≠ a ∧ pteG x.pte = false)) ∧
    (privileged (s.core n) sl = false → exec (.l1invXl o) s = .next (takeTrap s n sl (cause 0x02)))) ∧
  (∀ (o : PrefOps) (s : State) (n sl : Nat) (f : Firing) (va : Nat), Issues s n sl f →
    va = (f.eaS o.a o.idx 1).toNat % 2 ^ 56 →
    ∃ t, exec (.pref o) s = .next t ∧ ((∀ line, hasRoom s line (siteOf s n) = true) → ∀ a, keyPkg a = s.pkg.toNat → t.getB a = s.getB a) ∧ t.firing n sl = some (f.retire false o.h (lenIdx o.idx) .none) ∧
      (f.enS o.h = true → o.l2 = false → (s.core n).l1Find va = none → ∀ l, heldLeaf (s.core n) [] va = some l →
        permOk (privileged (s.core n) sl) .read l.pte (keyPa (l.key va)) = true → pteUnc l.pte = false →
        portDown s (l.key va) = false → homeSite s (l.key va / 128 * 128) = siteOf s n →
        ∃ x, (t.core n).l1Find va = some x ∧ x.data = s.homeLine (l.key va / 128)))

/-! ## Ordering and atomics -/

namespace Sys2Proof.Claims

/-- R224: a clearing word with no reserved bit set, coordinates only in a rectangle, and those in order. -/
def ClearingForm (c : W64) : Prop :=
  c.toNat / 2 ^ 31 % 2 ^ 31 = 0 ∧ c.toNat / 2 ^ 21 % 8 = 0 ∧ c.toNat / 2 ^ 15 % 2 = 0 ∧ c.toNat / 2 ^ 5 % 8 = 0 ∧
  if c.toNat / 2 ^ 62 = 2 then
    c.toNat / 2 ^ 8 % 128 ≤ c.toNat / 2 ^ 24 % 128 ∧ c.toNat % 32 ≤ c.toNat / 2 ^ 16 % 32
  else c.toNat / 2 ^ 8 % 128 = 0 ∧ c.toNat / 2 ^ 24 % 128 = 0 ∧ c.toNat % 32 = 0 ∧ c.toNat / 2 ^ 16 % 32 = 0

end Sys2Proof.Claims

namespace Sys2Proof.Claims

/-- What an acquire over clearing c drops between two states (R227): L1 lines of other homes unless the clearing is the core
itself; for a cross-die clearing every clean byte of the die's copies, a copy with none left with them. -/
def Acquires (s t : State) (n : Nat) (c : W64) : Prop :=
  (∀ x, x ∈ (t.core n).l1d ↔ x ∈ (s.core n).l1d ∧ (c.toNat / 2 ^ 62 = 0 ∨ homeSite s (x.pline * 128) = siteOf s n)) ∧
  (clearingCross n c = true → ∀ k e, (k, e) ∈ t.l2 ↔
    if k % 8 = siteOf s n then ∃ e', (k, e') ∈ s.l2 ∧ e'.dirty ≠ 0 ∧ e = { e' with valid := e'.dirty } else (k, e) ∈ s.l2) ∧
  (clearingCross n c = false → t.l2 = s.l2)

end Sys2Proof.Claims

/-- R224 to R228: the fences. An ill-formed clearing raises CLEARING with its value; FENCE.REL marks its place in program
order; FENCE.ACQ, once earlier loads and atomics are done, drops what an acquire drops; FENCE.AR does both: it begins its
release and waits for it, executing again, and once that is complete, with nothing owed, acquires. A FENCE.REL issued while one
is in progress joins it. That a fence's completion needs no entry of its own in the queue, and that several of one firing
complete in their order, is the model's choice (log entry 30). -/
def Sys2Proof.Claims.Fences : Prop :=
  ∀ (o : AOps) (s : State) (n sl : Nat) (f : Firing) (c : W64), Issues s n sl f → f.enS o.h = true → c = f.srcS o.a →
    (¬ ClearingForm c →
      exec (.fenceRel o) s = .next (takeTrap s n sl (clearingTrap c)) ∧
      exec (.fenceAcq o) s = .next (takeTrap s n sl (clearingTrap c)) ∧
      exec (.fenceAr o) s = .next (takeTrap s n sl (clearingTrap c))) ∧
    (ClearingForm c → f.rel = none → f.wbq = [] → (s.core n).placing f = false → ∃ r : Rel,
      Gives (.fenceRel o) s n sl { f.retire false o.h .l64 .none with rel := some r } ∧ r.seq = f.seq ∧ r.pc = f.pc ∧
      r.cross = clearingCross n c) ∧
    (ClearingForm c → f.rel.isSome = true → f.wbq = [] → (s.core n).placing f = false → ∃ r : Rel,
      Gives (.fenceRel o) s n sl { f.retire false o.h .l64 .none with relMore := f.relMore ++ [r] } ∧ r.seq = f.seq ∧ r.pc = f.pc ∧
      r.cross = clearingCross n c) ∧
    (ClearingForm c → f.wbq = [] → acquireReady f f.seq = true → ∃ t, exec (.fenceAcq o) s = .next t ∧ t.mem = s.mem ∧
      t.firing n sl = some (f.retire false o.h .l64 .none) ∧ Acquires s t n c) ∧
    (ClearingForm c → (f.rel = none ∨ ∃ r, f.rel = some r ∧ r.seq = f.seq) → f.wbq = [] → (s.core n).placing f = false →
      (releaseDone s n f f.seq (clearingCross n c) = false →
        (f.rel = none → ∃ r : Rel, Gives (.fenceAr o) s n sl { f with rel := some r } ∧ r.seq = f.seq ∧ r.pc = f.pc ∧
          r.cross = clearingCross n c) ∧
        (f.rel.isSome = true → exec (.fenceAr o) s = .next s)) ∧
      (releaseDone s n f f.seq (clearingCross n c) = true →
        (∀ tc, f.owed = some tc → exec (.fenceAr o) s = .next (takeTrap s n sl tc)) ∧
        (f.owed = none → acquireReady f f.seq = true → ∃ t, exec (.fenceAr o) s = .next t ∧ t.mem = s.mem ∧
          t.firing n sl = some (({ f with rel := none } : Firing).retire false o.h .l64 .none) ∧ Acquires s t n c ∧
          (clearingCross n c = true → (t.core n).dirtyOvf = false))))

/-- R237 to R241: atomics. Global ones take a store-queue entry with their operation, a lane form one for each line (a physical
one: log entry 80), and a
deposit that waits for the answer, of a register where one is named; .NZ with reserved descriptor bits raises MSGFMT; local
ones act on the scratchpad at once, lanes in ascending order, leave every other byte, and deposit the old values. -/
def Sys2Proof.Claims.Atomics : Prop :=
  (∀ (o : AtomOps) (s : State) (n sl : Nat) (f : Firing) (size va key : Nat) (unc : Bool), Issues s n sl f →
    f.enS o.h = true → size = (if o.sz then 8 else 4) → va = (f.srcS o.a).toNat % 2 ^ 56 →
    Passes s n sl f .atomic size va key unc → f.sqRoom 1 = true → ∃ g : Firing,
    Gives (.atom o) s n sl (g.retire false o.h .l64 .none) ∧
    g.sq = f.sq ++ [⟨f.seq, f.pc, .atom [⟨0, va, key, size, o.op.toNat, o.u, f.srcS o.b, 0⟩] none, false⟩] ∧
    Awaits f g [o.d.toNat] []) ∧
  (∀ (o : CasOps) (s : State) (n sl : Nat) (f : Firing) (size va key : Nat) (unc : Bool), Issues s n sl f →
    f.enS o.h = true → size = (if o.sz then 8 else 4) → va = (f.srcS o.a).toNat % 2 ^ 56 →
    Passes s n sl f .atomic size va key unc → f.sqRoom 1 = true → ∃ g : Firing,
    Gives (.cas o) s n sl (g.retire false o.h .l96 .none) ∧
    g.sq = f.sq ++ [⟨f.seq, f.pc, .atom [⟨0, va, key, size, 8, false, f.srcS o.b, f.srcS o.c⟩] none, false⟩] ∧
    Awaits f g [o.d.toNat] []) ∧
  (∀ (o : AtomNzOps) (s : State) (n sl : Nat) (f : Firing) (size va key : Nat) (unc : Bool) (d : W64), Issues s n sl f →
    f.enS o.h = true → size = (if o.sz then 8 else 4) → va = (f.srcS o.a).toNat % 2 ^ 56 →
    Passes s n sl f .atomic size va key unc → d = f.getS o.n.toNat →
    (d.toNat / 2 ^ 29 % 8 = 0 → d.toNat / 2 ^ 40 = 0 → f.sqRoom 1 = true → ∃ g : Firing,
      Gives (.atomNz o) s n sl (g.retire false o.h .l96 .none) ∧
      g.sq = f.sq ++ [⟨f.seq, f.pc, .atom [⟨0, va, key, size, o.op.toNat, o.u, f.srcS o.b, 0⟩]
        (some (d, f.getS (o.n.toNat + 1))), false⟩] ∧ Awaits f g [o.d.toNat] []) ∧
    (d.toNat / 2 ^ 29 % 8 ≠ 0 ∨ d.toNat / 2 ^ 40 ≠ 0 → exec (.atomNz o) s = .next (takeTrap s n sl (msgfmt d)))) ∧
  (∀ (o : AtomOps) (s : State) (n sl : Nat) (f : Firing) (size : Nat) (a : W64) (old new : List Byte), Issues s n sl f →
    f.enS o.h = true → size = (if o.sz then 8 else 4) → a = f.srcS o.a → SpadOk (s.core n) a size → f.rel = none →
    old = (s.core n).getBs a.toNat size → new = atomBytes size o.op.toNat o.u old (f.srcS o.b) 0 →
    ∃ (t : State) (g : Firing) (d : Dep), exec (.atomsLocal o) s = .next t ∧
      t.firing n sl = some (g.retire false o.h .l64 .none) ∧ (t.core n).getBs a.toNat size = new ∧
      (∀ b, b < a.toNat ∨ a.toNat + size ≤ b → (t.core n).getB b = (s.core n).getB b) ∧ t.mem = s.mem ∧
      g = { f with deps := f.deps ++ [d] } ∧ d.seq = f.seq ∧ d.sregs = [o.d.toNat].filter (· != 0) ∧
      d.src = .val [(o.d.toNat, w64OfLE old)] []) ∧
  (∀ (o : VatomOps) (s : State) (n sl : Nat) (f : Firing) (accs : List Acc), Issues s n sl f → o.l = false →
    planLanes (s.core n) sl f .atomic 4 (vatomAddrs f o) = .ok accs → accs ≠ [] →
    f.sqRoom (accs.map fun a => a.pa / 128).eraseDups.length = true → ∃ (g : Firing) (es : List Ent),
    Gives (.vatom o) s n sl (g.retire true o.h .l96 .none) ∧ g.sq = f.sq ++ es ∧ Awaits f g [] [o.d.toNat] ∧
    es.length = (accs.map fun a => a.pa / 128).eraseDups.length ∧
    (∀ a, a ∈ accs → ∃ e ∈ es, ∃ ats, e.op = .atom ats none ∧
      (⟨a.lane, a.va, a.pa, 4, o.op.toNat, o.u, (f.srcV a.lane o.c).setWidth 64, 0⟩ : AtomAcc) ∈ ats)) ∧
  (∀ (o : VatomOps) (s : State) (n sl : Nat) (f : Firing) (a : Nat → W64), Issues s n sl f → o.l = true → f.rel = none →
    ¬ noLane f o.h → (∀ M, a M = f.srcS o.a + f.laneIdx o.b M) →
    (∀ M, M < 32 → f.enL o.h M = true → SpadOk (s.core n) (a M) 4) →
    ∃ (t : State) (g : Firing) (d : Dep) (vs : List (Nat × W32)), exec (.vatom o) s = .next t ∧ t.mem = s.mem ∧
      t.firing n sl = some (g.retire true o.h .l96 .none) ∧ g = { f with deps := f.deps ++ [d] } ∧ d.seq = f.seq ∧
      d.vregs = [o.d.toNat] ∧ d.src = .val [] vs ∧
      (∀ b, (∀ M, M < 32 → f.enL o.h M = true → b < (a M).toNat ∨ (a M).toNat + 4 ≤ b) →
        (t.core n).getB b = (s.core n).getB b) ∧
      ∀ L, L < 32 → f.enL o.h L = true →
        ((∀ M, M < L → f.enL o.h M = true → a M ≠ a L) →
          (32 * o.d.toNat + L, w32OfLE ((s.core n).getBs (a L).toNat 4)) ∈ vs) ∧
        ∃ old : W32, (32 * o.d.toNat + L, old) ∈ vs ∧
          ((∀ M, L < M → M < 32 → f.enL o.h M = true → a M ≠ a L) →
            (t.core n).getBs (a L).toNat 4 = atomBytes 4 o.op.toNat o.u (bytesLE 4 old) ((f.srcV L o.c).setWidth 64) 0) ∧
          ∀ M, L < M → M < 32 → f.enL o.h M = true → a M = a L →
            (∀ K, L < K → K < M → f.enL o.h K = true → a K ≠ a L) →
            (32 * o.d.toNat + M, w32OfLE (atomBytes 4 o.op.toNat o.u (bytesLE 4 old) ((f.srcV L o.c).setWidth 64) 0)) ∈ vs)

/-- R237, R239: the new value of an atomic. -/
def Sys2Proof.Claims.AtomicOperation : Prop :=
  ∀ (w : Nat) (u : Bool) (old b c : BitVec w),
    atomNew 0 u old b c = old + b ∧
    (atomNew 1 true old b c).toNat = min old.toNat b.toNat ∧ (atomNew 1 false old b c).toInt = min old.toInt b.toInt ∧
    (atomNew 2 true old b c).toNat = max old.toNat b.toNat ∧ (atomNew 2 false old b c).toInt = max old.toInt b.toInt ∧
    (∀ i, (atomNew 3 u old b c).getLsbD i = (old.getLsbD i && b.getLsbD i) ∧
      (atomNew 4 u old b c).getLsbD i = (old.getLsbD i || b.getLsbD i) ∧
      (atomNew 5 u old b c).getLsbD i = (old.getLsbD i != b.getLsbD i)) ∧
    atomNew 6 u old b c = b ∧ (old = b → atomNew 8 u old b c = c) ∧ (old ≠ b → atomNew 8 u old b c = old)

namespace Sys2Proof.Claims

/-- Memory forms that write no register and no byte when they issue: their effects are deposits and queue entries. -/
def queuedForm : Instr → Bool
  | .ld _ | .st _ | .vld _ | .vst _ | .ldx _ | .stx _ | .lds _ | .vlds _ | .atom _ | .atomNz _ | .cas _ | .atomsRemote _
  | .l2wbLine _ | .fenceRel _ => true
  | .vatom o => !o.l
  | _ => false

/-- Memory forms that write the core's scratchpad when they issue. -/
def localForm : Instr → Bool
  | .sts _ | .vsts _ | .atomsLocal _ | .mstf _ => true
  | .vatom o => o.l
  | _ => false

end Sys2Proof.Claims

/-- R191, R194, R195, R199: a form that only queues its effect changes no byte of memory or scratchpad and no register;
one that acts on the scratchpad changes no byte of memory and no register, where it takes no trap. -/
def Obligations.MemoryFrame : Prop :=
  ∀ i s t n sl f, Issues s n sl f → exec i s = .next t → (∀ g, t.firing n sl = some g → g.stopped = false) →
    (queuedForm i = true ∨ localForm i = true →
      (∀ a, t.getB a = s.getB a) ∧ (∀ m, m ≠ n → t.core m = s.core m) ∧ ∃ g, t.firing n sl = some g ∧
        (∀ r, g.getS r = f.getS r) ∧ (∀ r L, g.getV r L = f.getV r L) ∧ g.k = f.k ∧ g.q = f.q ∧ g.fpst = f.fpst ∧
        g.trec = f.trec ∧ g.stop = f.stop) ∧
    (queuedForm i = true → ∀ a, (t.core n).getB a = (s.core n).getB a)

/-! ## Messages -/

namespace Sys2Proof.Claims

/-- Nothing keeps firing f of core n from sending k messages now: no release and no SENDV of its own in progress, its
launch not cancelled, and credits for k children where its tag is counted (R226, R258, R274, R281). -/
def MaySend (s : State) (n : Nat) (f : Firing) (k : Nat) : Prop :=
  f.rel = none ∧ (s.core n).placing f = false ∧ (s.core n).filtered f.ltag = false ∧
  (counted f.ltag = true → ∃ e, (s.core n).pool f.ltag = some e ∧ k ≤ e.pool)

/-- Between two states core n spends k credits of a counted tag (R273, R274). -/
def Counts (s t : State) (n : Nat) (tag : W32) (k : Nat) : Prop :=
  counted tag = true → ∃ e, (s.core n).pool tag = some e ∧ (t.core n).pool tag = some { e with pool := e.pool - k }

/-- What a message of firing f carries (Table 12-1). -/
def MsgIs (f : Firing) (m : Msg) (dst : Nat) (ch : BitVec 3) (hid : BitVec 8) (len : BitVec 4) (ord : Bool) (stamp : W64)
    (body : Nat → W64) : Prop :=
  m.dst.toNat = dst ∧ m.ch = ch ∧ m.hid = hid ∧ m.len = len ∧ m.ord = ord ∧ m.typ = 0 ∧ m.ltag = f.ltag ∧
  m.stamp.toNat = (if ord then stamp.toNat % 2 ^ 48 else 0) ∧ m.body = (List.range len.toNat).map body

/-- The instruction places messages ms at the end of the core's send buffer, counts them and goes on. -/
def Sends (i : Instr) (s : State) (n sl : Nat) (f : Firing) (h : Head) (l : Len) (ms : List Msg) : Prop :=
  ∃ t, exec i s = .next t ∧ t.mem = s.mem ∧ t.firing n sl = some (f.retire false h l .none) ∧
    (∃ fls : List Flight, (t.core n).sendBuf = (s.core n).sendBuf ++ fls ∧ fls.map (·.msg) = ms ∧ ∀ x ∈ fls, x.src = f.uid) ∧
    Counts s t n f.ltag ms.length

/-- A counter of the store queue or of deposits does not hold back a form that only asks another unit: it leaves a
pending deposit in registers regs, and the request. -/
def Asks (i : Instr) (s : State) (n sl : Nat) (f : Firing) (h : Head) (regs : List Nat) (q : HomeReq) : Prop :=
  ∃ (g : Firing) (d : Dep), g = { f with deps := f.deps ++ [d] } ∧ d.seq = f.seq ∧ d.src = .unit ∧
    d.sregs = regs.filter (· != 0) ∧
    exec i s = .next { s.setFiring n sl (g.retire false h .l64 .none) with homeQ := s.homeQ ++ [q] }

/-- The instruction takes one entry of the store queue, and a pending deposit where regs is not none, and goes on. -/
def Queues (i : Instr) (s : State) (n sl : Nat) (f : Firing) (h : Head) (l : Len) (op : EntOp) (regs : Option (List Nat)) :
    Prop :=
  ∃ g : Firing, Gives i s n sl (g.retire false h l .none) ∧ g.sq = f.sq ++ [⟨f.seq, f.pc, op, false⟩] ∧
    match regs with
    | none => g.deps = f.deps
    | some rs => ∃ d, g.deps = f.deps ++ [d] ∧ d.seq = f.seq ∧ d.src = .unit ∧ d.sregs = rs.filter (· != 0)

/-- The instruction leaves a deposit of values already known and goes on (R194). -/
def DepositsNow (i : Instr) (s : State) (n sl : Nat) (f : Firing) (h : Head) (xs : List (Nat × W64)) : Prop :=
  ∃ (g : Firing) (d : Dep), Gives i s n sl (g.retire false h .l64 .none) ∧ g = { f with deps := f.deps ++ [d] } ∧
    d.seq = f.seq ∧ d.src = .val xs []

end Sys2Proof.Claims

/-- R258, R284: SEND and SENDV place their messages in the send buffer, in lane order; a destination that is no core, and under
a stamp one of another package, raises MSGFMT with it; a stamp below the floor raises MSGFMT with the stamp; SENDV's trap
names the lowest acting lane that fails. -/
def Obligations.MessageSend : Prop :=
  (∀ (o : SendOps) (s : State) (n sl : Nat) (f : Firing) (dst : Nat) (st : W64), Issues s n sl f → f.enS o.h = true →
    dst = (f.srcS o.dst).toNat % 2 ^ 29 → st = (match o.stamp with | some a => f.srcS a | none => 0) →
    (coreExists s dst = false ∨ o.stamp.isSome = true ∧ dst / 4096 ≠ s.pkg.toNat →
      exec (.send o) s = .next (takeTrap s n sl (msgfmt (BitVec.ofNat 64 dst)))) ∧
    (coreExists s dst = true → o.stamp.isSome = true → dst / 4096 = s.pkg.toNat →
      st.toNat % 2 ^ 48 < stampFloor (s.core n) f →
      exec (.send o) s = .next (takeTrap s n sl (msgfmt (BitVec.ofNat 64 (st.toNat % 2 ^ 48))))) ∧
    (coreExists s dst = true →
      (o.stamp.isSome = true → dst / 4096 = s.pkg.toNat ∧ stampFloor (s.core n) f ≤ st.toNat % 2 ^ 48) →
      MaySend s n f 1 → (s.core n).sendBuf.length < 16 →
      ∃ m, Sends (.send o) s n sl f o.h (if o.stamp.isSome then .l96 else .l64) [m] ∧
        MsgIs f m dst o.ch (f.hidOf o.hid) o.len o.stamp.isSome st fun j => f.getS (o.d.toNat + j))) ∧
  (∀ (o : SendvOps) (s : State) (n sl : Nat) (f : Firing) (L : Nat) (Ok : Nat → Prop) (dst : Nat) (st : W64),
    Issues s n sl f → L ∈ actLanes f o.h o.qm → (∀ M ∈ actLanes f o.h o.qm, M < L → Ok M) →
    (∀ M, Ok M ↔ (f.getV o.dst.toNat M).toNat < 2 ^ 29 ∧ coreExists s (f.getV o.dst.toNat M).toNat = true ∧
      (o.ord = true → (f.getV o.dst.toNat M).toNat / 4096 = s.pkg.toNat ∧
        stampFloor (s.core n) f ≤ (f.getV64 o.stamp.toNat M).toNat % 2 ^ 48)) →
    dst = (f.getV o.dst.toNat L).toNat → st = f.getV64 o.stamp.toNat L →
    (2 ^ 29 ≤ dst ∨ coreExists s dst = false ∨ o.ord = true ∧ dst / 4096 ≠ s.pkg.toNat →
      exec (.sendv o) s = .next (takeTrap s n sl { msgfmt (BitVec.ofNat 64 dst) with lane := some L })) ∧
    (dst < 2 ^ 29 → coreExists s dst = true → o.ord = true → dst / 4096 = s.pkg.toNat →
      st.toNat % 2 ^ 48 < stampFloor (s.core n) f →
      exec (.sendv o) s = .next (takeTrap s n sl { msgfmt (BitVec.ofNat 64 (st.toNat % 2 ^ 48)) with lane := some L }))) ∧
  (∀ (o : SendvOps) (s : State) (n sl : Nat) (f : Firing) (ls : List Nat), Issues s n sl f → ls = actLanes f o.h o.qm →
    (∀ L ∈ ls, (f.getV o.dst.toNat L).toNat < 2 ^ 29 ∧ coreExists s (f.getV o.dst.toNat L).toNat = true ∧
      (o.ord = true → (f.getV o.dst.toNat L).toNat / 4096 = s.pkg.toNat ∧
        stampFloor (s.core n) f ≤ (f.getV64 o.stamp.toNat L).toNat % 2 ^ 48)) →
    MaySend s n f ls.length → (s.core n).sendvQ = [] → (s.core n).sendvWait = none →
    (s.core n).sendBuf.length + ls.length ≤ 16 →
    ∃ ms, Sends (.sendv o) s n sl f o.h .l96 ms ∧ ms.length = ls.length ∧
      ∀ (i L : Nat) (m : Msg), ls[i]? = some L → ms[i]? = some m →
        MsgIs f m (f.getV o.dst.toNat L).toNat o.ch (f.hidOf o.hid) o.len o.ord (f.getV64 o.stamp.toNat L)
          fun j => f.getV64 (o.d.toNat + 2 * j) L)

/-- R260 to R264: GPOST puts its six words in the column that the low five bits of the first name, or in the spill queue
where the column is full; GFLUSH marks a glade that holds records; REQUEUE puts the record of each acting lane in the column
of that lane's number, and the acting lanes leave their path. That a record past a full spill queue waits in it all the same is
the model's choice (log entry 49). -/
def Sys2Proof.Claims.GladeInstructions : Prop :=
  (∀ (o : GpostOps) (s : State) (n sl : Nat) (f : Firing) (g l : Nat) (x : Glade), Issues s n sl f → f.enS o.h = true →
    g = o.g.toNat → l = (f.getS o.d.toNat).toNat % 32 → x = (s.core n).glade g →
    ((s.core n).gladeOk g = false → exec (.gpost o) s = .next (takeTrap s n sl (msgfmt (BitVec.ofNat 64 g)))) ∧
    ((s.core n).gladeOk g = true → MaySend s n f 1 → g < (s.core n).glades.length → l < x.cols.length →
      ∃ (t : State) (r : GRec), exec (.gpost o) s = .next t ∧ t.firing n sl = some (f.retire false o.h .l64 .none) ∧
        r.ltag = f.ltag ∧ r.body = (List.range 6).map (fun j => f.getS (o.d.toNat + j)) ∧ Counts s t n f.ltag 1 ∧
        ((x.col l).length < x.depth → (s.core n).gladeSpilled g (some l) = false →
          ((t.core n).glade g).col l = x.col l ++ [r] ∧ (t.core n).spill = (s.core n).spill ∧ t.mem = s.mem) ∧
        (x.depth ≤ (x.col l).length → (t.core n).glades = (s.core n).glades ∧
          (t.core n).spill = (s.core n).spill ++ [.grec g l r]))) ∧
  (∀ (o : GflushOps) (s : State) (n sl : Nat) (f : Firing) (g : Nat) (x : Glade), Issues s n sl f → f.enS o.h = true →
    g = o.g.toNat → x = (s.core n).glade g → g < (s.core n).glades.length →
    ∃ t, exec (.gflush o) s = .next t ∧ t.firing n sl = some (f.retire false o.h .l64 .none) ∧ t.mem = s.mem ∧
      (t.core n).glade g = { x with flush := x.flush || x.standing || (s.core n).gladeSpilled g none }) ∧
  (∀ (o : RequeueOps) (s : State) (n sl : Nat) (f : Firing) (g : Nat) (x : Glade) (ls : List Nat), Issues s n sl f →
    ls = actLanes f o.h o.qm → g = o.g.toNat → x = (s.core n).glade g →
    (ls = [] → Gives (.requeue o) s n sl (f.retire false o.h .l64 .none)) ∧
    (ls ≠ [] → (s.core n).gladeOk g = false → exec (.requeue o) s = .next (takeTrap s n sl (msgfmt (BitVec.ofNat 64 g)))) ∧
    (ls ≠ [] → (s.core n).gladeOk g = true → MaySend s n f ls.length → g < (s.core n).glades.length →
      (∀ L ∈ ls, L < x.cols.length ∧ (x.col L).length < x.depth ∧ (s.core n).gladeSpilled g (some L) = false) →
      f.cur < f.paths.length → (∃ M, M < 32 ∧ M ∉ ls ∧ f.path.mask.getLsbD M = true) →
      ∃ (t : State) (h : Firing), exec (.requeue o) s = .next t ∧ t.firing n sl = some h ∧ t.mem = s.mem ∧
        h.pc = nextPc f.pc .l64 ∧ (∀ M, M < 32 → h.path.mask.getLsbD M = (f.path.mask.getLsbD M && decide (M ∉ ls))) ∧
        (∀ L ∈ ls, ∃ r : GRec, ((t.core n).glade g).col L = x.col L ++ [r] ∧ r.ltag = f.ltag ∧
          r.body = (List.range 6).map fun j => f.getV64 (o.d.toNat + 2 * j) L) ∧
        (∀ L, L ∉ ls → ((t.core n).glade g).col L = x.col L) ∧ Counts s t n f.ltag ls.length))

/-- R259, R265, R266, R268: RECV takes the message given to its firing while that was blocked, else the oldest queued message
of its handler and launch that is no other's, into a deposit, or reports none under NB; QPUSH appends an entry to its shadow
queue and counts it; QFLUSH marks what is queued; HTAB.GET and HTAB.SET read and write the handler table. How long a message
stays given to its firing is log entry 95. -/
def Sys2Proof.Claims.MessageReceive : Prop :=
  (∀ (o : RecvOps) (s : State) (n sl : Nat) (f : Firing), Issues s n sl f → f.enS o.h = true → sl ≠ trapSlot →
    f.gsrc = false → (s.core n).filterWait = [] → (s.core n).loading = false → (s.core n).filtered f.ltag = false →
    (∀ m, (s.core n).recvPick f = some m → ∃ (t : State) (g : Firing) (d : Dep) (ws : List (Nat × W64)),
      exec (.recv o) s = .next t ∧ t.firing n sl = some (g.retire false o.h .l64 .none) ∧
      g = { f with deps := f.deps ++ [d], taken := f.taken + 1 } ∧ d.seq = f.seq ∧ d.src = .val ws [] ∧
      ws.head? = some (o.d.toNat, recvSummary m.msg) ∧
      (∀ (j : Nat) (w : W64), m.msg.body[j]? = some w → o.d.toNat + 1 + j ≤ 63 → (o.d.toNat + 1 + j, w) ∈ ws) ∧
      (∀ x, x ∈ (t.core n).inbox ↔ x ∈ (s.core n).inbox ∧ x.arr ≠ m.arr) ∧ t.mem = s.mem) ∧
    ((s.core n).recvPick f = none →
      (o.nb = true → DepositsNow (.recv o) s n sl f o.h [(o.d.toNat, 0xFFFFFFFFFFFFFFFF)]) ∧
      (o.nb = false → Gives (.recv o) s n sl { f with hold := .recv }))) ∧
  (∀ (c : Core) (f : Firing),
    (∀ m, c.recvPick f = some m → m ∈ c.inbox ∧ m.msg.hid = f.hid ∧ m.msg.ltag = f.ltag ∧
      ∀ u, c.keptFor m = some u → u = f.uid) ∧
    ((∃ m ∈ c.recvQueue f, c.keptFor m = some f.uid) → ∃ m, c.recvPick f = some m ∧ c.keptFor m = some f.uid) ∧
    (f.ordered = false → (∀ x ∈ c.blockedRecv f.hid f.ltag, f.uid ≤ x.uid) → (∀ m ∈ c.inbox, c.keptFor m = none) →
      (∀ m, c.recvPick f = some m → ∀ x ∈ c.inbox, x.msg.hid = f.hid → x.msg.ltag = f.ltag → m.arr ≤ x.arr) ∧
      (c.recvPick f = none → ∀ x ∈ c.inbox, x.msg.hid = f.hid → x.msg.ltag ≠ f.ltag))) ∧
  (∀ (o : DAOps) (s : State) (n sl : Nat) (f : Firing) (off : Nat) (q : QDesc), Issues s n sl f → f.enS o.h = true →
    off = (f.srcS o.a).toNat → q = (s.core n).qdesc off →
    (∀ tc, qcheck s n (f.srcS o.a) (some o.d.toNat) = some tc → exec (.qpush o) s = .next (takeTrap s n sl tc)) ∧
    (qcheck s n (f.srcS o.a) (some o.d.toNat) = none → f.rel = none → (s.core n).placing f = false →
      q.pushed - q.sent < q.shadowEntries → ∃ t, exec (.qpush o) s = .next t ∧
        t.firing n sl = some (f.retire false o.h .l64 .none) ∧ t.mem = s.mem ∧
        (t.core n).getW (off + 0x28) = BitVec.ofNat 64 (q.pushed + 1) ∧
        ∀ j, j < 2 ^ q.esz → ∀ a, a = q.shoff + q.entryBytes * (q.pushed % q.shadowEntries) + 8 * j →
          a + 8 ≤ off + 0x28 ∨ off + 0x30 ≤ a → (t.core n).getW a = f.getS (o.d.toNat + j))) ∧
  (∀ (o : AOps) (s : State) (n sl : Nat) (f : Firing) (off : Nat), Issues s n sl f → f.enS o.h = true →
    off = (f.srcS o.a).toNat → qcheck s n (f.srcS o.a) none = none →
    ∃ t, exec (.qflush o) s = .next t ∧ t.firing n sl = some (f.retire false o.h .l64 .none) ∧ t.mem = s.mem ∧
      ((t.core n).proxy off).marked = ((s.core n).qdesc off).pushed) ∧
  (∀ (o : DAOps) (s : State) (n sl : Nat) (f : Firing) (h : Nat), Issues s n sl f → f.enS o.h = true →
    h = (f.srcS o.a).toNat % 256 →
    DepositsNow (.htabGet o) s n sl f o.h ((List.range 4).map fun i =>
      (o.d.toNat + i, (s.core n).getW ((s.core n).htab + 32 * h + 8 * i))) ∧
    (∀ w : Nat → W64, (∀ i, w i = f.getS (o.d.toNat + i)) → (w 1).getLsbD 0 = true → ∀ lone : Prop,
      (lone ↔ ((w 1).getLsbD 12 = true → ∀ h', h' < 256 → h' ≠ h → (s.core n).namesGlade h' ((w 1).toNat / 2 ^ 8 % 16) = false)) →
      (entryFormed (w 0) (w 1) (w 2) (w 3) = false ∨ ¬ lone → exec (.htabSet o) s = .next (takeTrap s n sl (msgfmt (w 1)))) ∧
      (entryFormed (w 0) (w 1) (w 2) (w 3) = true → lone → ∃ t, exec (.htabSet o) s = .next t ∧ t.mem = s.mem ∧
        t.firing n sl = some (f.retire false o.h .l64 .none) ∧ (t.core n).inbox = (s.core n).inbox ∧
        ∀ i, i < 4 → (t.core n).getW ((s.core n).htab + 32 * h + 8 * i) = w i)) ∧
    ((f.getS (o.d.toNat + 1)).getLsbD 0 = false → ∃ t, exec (.htabSet o) s = .next t ∧
      t.firing n sl = some (f.retire false o.h .l64 .none) ∧
      (∀ i, i < 4 → (t.core n).getW ((s.core n).htab + 32 * h + 8 * i) = f.getS (o.d.toNat + i)) ∧
      ∀ m ∈ (t.core n).inbox, m.msg.hid.toNat ≠ h))

/-- R274 to R280: LAUNCH (an ill-formed descriptor raises MSGFMT, an ill-formed clearing CLEARING, in both its forms) and
CANCEL pass their checks and go to the record's home, with a status deposit to come; LVLREAD
takes its place among the firing's atomics. -/
def Sys2Proof.Claims.LaunchInstructions : Prop :=
  (∀ (o : DAOps) (s : State) (n sl : Nat) (f : Firing) (off : W64) (d : List Byte), Issues s n sl f → f.enS o.h = true →
    off = f.srcS o.a → d = (s.core n).getBs off.toNat 64 →
    (off.toNat % 8 ≠ 0 → exec (.launchWake o) s = .next (takeTrap s n sl (causeAt 0x09 .scratch off)) ∧
      exec (.launchOpen o) s = .next (takeTrap s n sl (causeAt 0x09 .scratch off))) ∧
    (off.toNat % 8 = 0 → off.toNat + 64 ≤ 2 ^ 20 → (s.core n).inWs off.toNat 64 = false → f.rel = none →
      (s.core n).placing f = false →
      (ldBad s true d = false → ldClearing d = false →
        Asks (.launchWake o) s n sl f o.h [o.d.toNat] (.launch (some (n, f.uid, f.seq)) d)) ∧
      (ldBad s true d = false → ldClearing d = true →
        exec (.launchWake o) s = .next (takeTrap s n sl (clearingTrap (ldRect d)))) ∧
      (ldBad s false d = false → ldClearing d = true →
        exec (.launchOpen o) s = .next (takeTrap s n sl (clearingTrap (ldRect d)))) ∧
      (ldBad s true d = true → exec (.launchWake o) s = .next (takeTrap s n sl (msgfmt (ldWord d 0)))) ∧
      (ldBad s false d = false → ldClearing d = false →
        Asks (.launchOpen o) s n sl f o.h [o.d.toNat] (.launch (some (n, f.uid, f.seq)) d)) ∧
      (ldBad s false d = true → exec (.launchOpen o) s = .next (takeTrap s n sl (msgfmt (ldWord d 0)))))) ∧
  (∀ (o : DAOps) (s : State) (n sl : Nat) (f : Firing) (x : W64), Issues s n sl f → f.enS o.h = true → x = f.srcS o.a →
    (f.rel = none → (s.core n).placing f = false →
      Asks (.launchClose o) s n sl f o.h [o.d.toNat] (.close n f.uid f.seq (x.setWidth 32))) ∧
    (x.toNat % 2 ^ 15 = 0 ∨ s.sysSize ≤ x.toNat / 2 ^ 15 % 2 ^ 17 →
      exec (.cancel o) s = .next (takeTrap s n sl (msgfmt x)) ∧ exec (.lvlread o) s = .next (takeTrap s n sl (msgfmt x)) ∧
      exec (.lvlreadReap o) s = .next (takeTrap s n sl (msgfmt x))) ∧
    (x.toNat % 2 ^ 15 ≠ 0 → x.toNat / 2 ^ 15 % 2 ^ 17 < s.sysSize →
      (f.rel = none → (s.core n).placing f = false →
        Asks (.cancel o) s n sl f o.h [o.d.toNat] (.cancel (some (n, f.uid, f.seq)) (x.setWidth 32))) ∧
      (f.sqRoom 1 = true →
        Queues (.lvlread o) s n sl f o.h .l64 (.lvl (x.setWidth 32) false) (some ((List.range 4).map (o.d.toNat + ·))) ∧
        Queues (.lvlreadReap o) s n sl f o.h .l64 (.lvl (x.setWidth 32) true) (some ((List.range 4).map (o.d.toNat + ·))))))

/-- R282 to R285, R349: the virtual-time forms: reads of the core's time, report and horizons; VTSET writes a permitted
time and raises MSGFMT for another; HZWAIT goes on once the horizon has passed its stamp, waits before that, and raises
CANCELLED in a cancelled launch, and HZWAIT.SYS does the same with the system's horizon. -/
def Sys2Proof.Claims.VirtualTime : Prop :=
  (∀ (o : DOps) (s : State) (n sl : Nat) (f : Firing), Issues s n sl f →
    Gives (.vtget o) s n sl (f.writeS o.h .l64 o.d.toNat (s.core n).vt) ∧
    Gives (.vtgetRep o) s n sl (f.writeS o.h .l64 o.d.toNat (s.core n).report) ∧
    Gives (.hzread o) s n sl (f.writeS o.h .l64 o.d.toNat (s.core n).hz) ∧
    Gives (.hzreadSys o) s n sl (f.writeS o.h .l64 o.d.toNat (s.core n).hzSys)) ∧
  (∀ (o : AOps) (s : State) (n sl : Nat) (f : Firing) (x : W64), Issues s n sl f → f.enS o.h = true → x = f.srcS o.a →
    (x = 0xFFFFFFFFFFFFFFFF ∨ x.toNat < 2 ^ 48 ∧ (s.core n).report.toNat ≤ x.toNat →
      exec (.vtset o) s = .next (s.setCore n ({ s.core n with vt := x }.setFiring sl (f.retire false o.h .l64 .none)))) ∧
    (x ≠ 0xFFFFFFFFFFFFFFFF → 2 ^ 48 ≤ x.toNat ∨ x.toNat < (s.core n).report.toNat →
      exec (.vtset o) s = .next (takeTrap s n sl (msgfmt x))) ∧
    (x.toNat % 2 ^ 48 < (s.core n).hz.toNat → Gives (.hzwait o) s n sl (f.retire false o.h .l64 .none)) ∧
    (x.toNat % 2 ^ 48 < (s.core n).hzSys.toNat → Gives (.hzwaitSys o) s n sl (f.retire false o.h .l64 .none)) ∧
    ((s.core n).hz.toNat ≤ x.toNat % 2 ^ 48 → (s.core n).filtered f.ltag = false →
      Gives (.hzwait o) s n sl { f with hold := .hzwait }) ∧
    ((s.core n).hz.toNat ≤ x.toNat % 2 ^ 48 → (s.core n).filtered f.ltag = true →
      exec (.hzwait o) s = .next (takeTrap s n sl (cause 0x16))) ∧
    ((s.core n).hzSys.toNat ≤ x.toNat % 2 ^ 48 → (s.core n).filtered f.ltag = false →
      Gives (.hzwaitSys o) s n sl { f with hold := .hzwait }) ∧
    ((s.core n).hzSys.toNat ≤ x.toNat % 2 ^ 48 → (s.core n).filtered f.ltag = true →
      exec (.hzwaitSys o) s = .next (takeTrap s n sl (cause 0x16))))

/-! ## Rays -/

namespace Sys2Proof.Claims

/-- Body ws' is body ws with the stack st and the spill count sp: entries above are zero, every other field is kept
(R288, R290). -/
def StackIs (ws ws' : List W64) (st : List W32) (sp : Nat) : Prop :=
  ws'.length = 14 ∧ bodyStack ws' = st ∧ bodySpill ws' = sp ∧ isF32 ws' = isF32 ws ∧
  (∀ i, i < stackBase ws → ws'[i]? = ws[i]?) ∧ (∀ i, st.length ≤ i → i < bodyCap ws → bodyEntry ws' i = 0) ∧
  ∀ b, b < 44 ∨ 52 ≤ b → (bodyW ws' 13).getLsbD b = (bodyW ws 13).getLsbD b

/-- Pushes in order on a stack of a capacity with its spill count (R303, Push): the stack and the count after them, and the
entries spilled with their places in the region. -/
def pushSpec (cap : Nat) : List W32 → List W32 → Nat → List W32 × Nat × List (Nat × List W32)
  | [], st, sp => (st, sp, [])
  | x :: xs, st, sp =>
    if st.length < cap then pushSpec cap xs (st ++ [x]) sp
    else
      let r := pushSpec cap xs (st.drop 4 ++ [x]) (sp + 1)
      (r.1, r.2.1, (0x80 + 16 * sp, st.take 4) :: r.2.2)

/-- The region of ray number num under a base register lies at va, and the accesses at offsets os of it translate, each to
its place of the region's line pair at key (R294, R296, Table 17-2). -/
def Region (s : State) (n sl : Nat) (f : Firing) (w : Bool) (base : W64) (num va key : Nat) (os : List Nat) : Prop :=
  base.toNat % 256 = 0 ∧ va = (base.toNat + 256 * num) % 2 ^ 56 ∧
  ∀ o ∈ os, ∃ unc, xlate (s.core n) f.xl (privileged (s.core n) sl) (if w then .regionW else .region) (va + o) none =
    .hit (key + o) unc

/-- The cells of bytes written at an offset of a region. -/
def regionAt (va key o : Nat) (bs : List Byte) : List Cell := (bs.zipIdx).map fun e => ⟨va + o + e.2, key + o + e.2, e.1⟩

/-- Triangle j of a leaf is hit by the ray within its interval (R300, R301). -/
def TriHits (nd : List Byte) (kind : Nat) (ws : List W64) (j : Nat) (h : TriHit) : Prop :=
  j < nByte nd 2 ∧ ∃ u p0 p1 p2, rayUnits ws = some u ∧ triVertex nd kind j 0 = some p0 ∧ triVertex nd kind j 1 = some p1 ∧
    triVertex nd kind j 2 = some p2 ∧ triLine (v3of u.1) (v3of u.2.1) p0 p1 p2 = some h ∧
    triAccept ((bodyW ws 13).getLsbD 52) h u.2.2.1 u.2.2.2 = true

end Sys2Proof.Claims

/-- R299 to R302, R298: BOXT writes the reported children, nearest first and the lower child first at equal distances, with
zeros above, their mask and count; TRIT takes the
accepted hit of least parameter, the lower slot among equals, or writes zeros; an ill-formed body raises RAYFMT before
the reference is looked at. -/
def Obligations.RayTests : Prop :=
  ∀ (o : RayOps) (s : State) (n sl : Nat) (f : Firing) (ws : List W64) (r : W32), Issues s n sl f → f.enS o.h = true →
    ws = f.rayBody o.ray.toNat → r = (f.srcS o.a).setWidth 32 →
    (bodyOk ws = false → exec (.boxt o) s = .next (takeTrap s n sl (cause 0x12)) ∧
      exec (.trit o) s = .next (takeTrap s n sl (cause 0x12))) ∧
    (bodyOk ws = true → nodeAt (s.core n) (rayEpoch ws) r = none →
      exec (.boxt o) s = .next (takeTrap s n sl (cause 0x14)) ∧ exec (.trit o) s = .next (takeTrap s n sl (cause 0x14))) ∧
    (∀ nd, bodyOk ws = true → resolveNode (s.core n) ws r [0] = .ok nd → ∃ (x : W64) (cs : List Nat),
      Gives (.boxt o) s n sl ((f.setS o.d.toNat x).retire false o.h .l64 .none) ∧ cs.Nodup ∧ cs.length ≤ 8 ∧
      (∀ c, c ∈ cs ↔ c < 8 ∧ (nByte nd 1).testBit c = true ∧
        ∃ u, rayUnits ws = some u ∧ (boxEnter nd ws u c).isSome = true) ∧
      (∀ (i j c e : Nat) (u : List Int × List Int × Int × Int) (x y : FVal), i < j → cs[i]? = some c → cs[j]? = some e →
        rayUnits ws = some u → boxEnter nd ws u c = some x → boxEnter nd ws u e = some y →
        fLt y x = false ∧ (fLt x y = false → c < e)) ∧
      (∀ (j c : Nat), cs[j]? = some c → x.toNat / 2 ^ (3 * j) % 8 = c) ∧
      (∀ j, cs.length ≤ j → j < 8 → x.toNat / 2 ^ (3 * j) % 8 = 0) ∧
      (∀ c, c < 8 → (x.getLsbD (24 + c) = true ↔ c ∈ cs)) ∧ x.toNat / 2 ^ 32 = cs.length) ∧
    (∀ nd, bodyOk ws = true → resolveNode (s.core n) ws r [1, 2] = .ok nd →
      ((∀ j h, ¬ TriHits nd (refKind r) ws j h) →
        Gives (.trit o) s n sl (((f.setS o.d.toNat 0).setS (o.d.toNat + 1) 0).retire false o.h .l64 .none)) ∧
      (∀ j h, TriHits nd (refKind r) ws j h →
        (∀ j' h', TriHits nd (refKind r) ws j' h' → h.num * h'.den < h'.num * h.den ∨
          h.num * h'.den = h'.num * h.den ∧ j ≤ j') →
        Gives (.trit o) s n sl ((((f.setS o.d.toNat (hitWord nd r j)).setS (o.d.toNat + 1) (baryWord h)).setBody o.ray.toNat
          (bodySetTmax ws (roundQ (bodyFmt ws) .rne h.num h.den))).retire false o.h .l64 .none)))

/-- R303, R304, R298: RPUSH, RPUSH.BOX and RPOP work the stack in the body, with four entries to or from the region where
it is full or empty; more spills than eight raise RAYSTACK; RXFORM parks the geometry, transforms it and pushes the exit
marker and the instance's child, with the spills its pushes need. -/
def Obligations.RayStack : Prop :=
  (∀ (o : DABOps) (s : State) (n sl : Nat) (f : Firing) (ws : List W64) (x : W32), Issues s n sl f → f.enS o.h = true →
    1 ≤ o.d.toNat → ws = f.rayBody o.d.toNat → bodyOk ws = true → x = (f.srcS o.a).setWidth 32 →
    (bodyDepth ws < bodyCap ws → (f.srcS o.b).toNat % 256 = 0 → ∃ g : Firing,
      Gives (.rpush o) s n sl (g.retire false o.h .l64 .none) ∧ g.sq = f.sq ∧
      StackIs ws (g.rayBody o.d.toNat) (bodyStack ws ++ [x]) (bodySpill ws)) ∧
    (bodyDepth ws = bodyCap ws → bodySpill ws = 8 → exec (.rpush o) s = .next (takeTrap s n sl (cause 0x13))) ∧
    (∀ va key, bodyDepth ws = bodyCap ws → bodySpill ws < 8 →
      Region s n sl f true (f.srcS o.b) (rayNum ws) va key [0x80 + 16 * bodySpill ws] →
      f.sqRoom 1 = true → ∃ g : Firing, Gives (.rpush o) s n sl (g.retire false o.h .l64 .none) ∧
        g.sq = f.sq ++ [⟨f.seq, f.pc, .rwrite (regionAt va key (0x80 + 16 * bodySpill ws)
          (((bodyStack ws).take 4).flatMap (bytesLE 4))), false⟩] ∧
        StackIs ws (g.rayBody o.d.toNat) ((bodyStack ws).drop 4 ++ [x]) (bodySpill ws + 1))) ∧
  (∀ (o : RpushBoxOps) (s : State) (n sl : Nat) (f : Firing) (ws : List W64) (r : W64) (ref : W32) (nd : List Byte)
    (va key : Nat) (p : List W32 × Nat × List (Nat × List W32)),
    Issues s n sl f → f.enS o.h = true → 1 ≤ o.d.toNat → ws = f.rayBody o.d.toNat → bodyOk ws = true → r = f.srcS o.a →
    ref = (f.srcS o.n).setWidth 32 → p = pushSpec (bodyCap ws) ((List.range (r.toNat / 2 ^ 32 % 16)).reverse.map fun j =>
      childEntry (refHandle ref) (nW32 nd (0xE0 + 4 * (r.toNat / 2 ^ (3 * j) % 8)))) (bodyStack ws) (bodySpill ws) →
    (8 < p.2.1 → exec (.rpushBox o) s = .next (takeTrap s n sl (cause 0x13))) ∧
    (p.2.1 ≤ 8 → (p.2.2 = [] ∧ (f.srcS o.g).toNat % 256 = 0 ∨
        p.2.2 ≠ [] ∧ Region s n sl f true (f.srcS o.g) (rayNum ws) va key (p.2.2.map (·.1)) ∧ f.sqRoom p.2.2.length = true) →
      resolveNode (s.core n) ws ref [0] = .ok nd → ∃ g : Firing,
        Gives (.rpushBox o) s n sl (g.retire false o.h .l96 .none) ∧
        g.sq = f.sq ++ (p.2.2.map fun e => ⟨f.seq, f.pc, .rwrite (regionAt va key e.1 (e.2.flatMap (bytesLE 4))), false⟩) ∧
        StackIs ws (g.rayBody o.d.toNat) p.1 p.2.1)) ∧
  (∀ (o : RpopOps) (s : State) (n sl : Nat) (f : Firing) (ws : List W64), Issues s n sl f → f.enS o.h = true →
    1 ≤ o.ray.toNat → o.d.toNat < o.ray.toNat ∨ o.ray.toNat + 14 ≤ o.d.toNat → ws = f.rayBody o.ray.toNat →
    bodyOk ws = true →
    (∀ st x, bodyStack ws = st ++ [x] → (f.srcS o.g).toNat % 256 = 0 → ∃ g : Firing,
      Gives (.rpop o) s n sl (g.retire false o.h .l64 .none) ∧ StackIs ws (g.rayBody o.ray.toNat) st (bodySpill ws) ∧
      g.getS o.d.toNat = if o.d = 0 then 0 else x.setWidth 64) ∧
    (bodyDepth ws = 0 → bodySpill ws = 0 → (f.srcS o.g).toNat % 256 = 0 → ∃ g : Firing,
      Gives (.rpop o) s n sl (g.retire false o.h .l64 .none) ∧ StackIs ws (g.rayBody o.ray.toNat) [] 0 ∧
      g.getS o.d.toNat = if o.d = 0 then 0 else 0xFFFFFFFFFFFFFFFF) ∧
    (∀ va key, bodyDepth ws = 0 → 0 < bodySpill ws →
      Region s n sl f false (f.srcS o.g) (rayNum ws) va key [0x80 + 16 * (bodySpill ws - 1)] →
      f.sqRoom 1 = true → Queues (.rpop o) s n sl f o.h .l64
        (.rread (va + 0x80 + 16 * (bodySpill ws - 1)) (key + 0x80 + 16 * (bodySpill ws - 1)) 16 (.refill o.d.toNat o.ray.toNat))
        (some (o.d.toNat :: (List.range 14).map (o.ray.toNat + ·))))) ∧
  (∀ (o : DABOps) (s : State) (n sl : Nat) (f : Firing) (ws geo : List W64) (ref : W32) (nd : List Byte) (va key : Nat)
    (p : List W32 × Nat × List (Nat × List W32)), Issues s n sl f → f.enS o.h = true → 1 ≤ o.d.toNat →
    ws = f.rayBody o.d.toNat → bodyOk ws = true →
    p = pushSpec (bodyCap ws) [0x00000700, childEntry (refHandle ref) (nW32 nd 0x80)] (bodyStack ws) (bodySpill ws) →
    p.2.1 ≤ 8 → Region s n sl f true (f.srcS o.b) (rayNum ws) va key (8 :: p.2.2.map (·.1)) →
    ref = (f.srcS o.a).setWidth 32 → resolveNode (s.core n) ws ref [4] = .ok nd → f.sqRoom (1 + p.2.2.length) = true →
    geo = bodySetGeom ws ((List.range 3).map (fun i => xformRow (bodyFmt ws) nd i (rayO ws) true) ++
      (List.range 3).map (fun i => xformRow (bodyFmt ws) nd i (rayD ws) false)) → ∃ g : Firing,
      Gives (.rxform o) s n sl (g.retire false o.h .l64 .none) ∧
      g.sq = f.sq ++ [⟨f.seq, f.pc, .rwrite (regionAt va key 8 (((List.range (if isF32 ws then 3 else 6)).map fun j =>
        f.getS (o.d.toNat + 1 + j)).flatMap (bytesLE 8))), false⟩] ++
        (p.2.2.map fun e => ⟨f.seq, f.pc, .rwrite (regionAt va key e.1 (e.2.flatMap (bytesLE 4))), false⟩) ∧
      StackIs geo (g.rayBody o.d.toNat) p.1 p.2.1)

/-- R294 to R296, R305: RLOAD reads words of a ray's region into a deposit, RSTORE writes them, each at its place. -/
def Sys2Proof.Claims.RayMoves : Prop :=
  ∀ (o : DABOps) (s : State) (n sl : Nat) (f : Firing) (d k va key : Nat), Issues s n sl f →
    f.enS o.h = true → d = o.d.toNat → k = (if isF32 (f.rayBody d) then 3 else 6) → f.sqRoom 1 = true →
    (Region s n sl f false (f.srcS o.a) ((f.srcS o.b).toNat % 2 ^ 48) va key [0] →
      Queues (.rloadRay o) s n sl f o.h .l64 (.rread va key 112 (.words d 14)) (some ((List.range 14).map (d + ·)))) ∧
    (Region s n sl f false (f.srcS o.a) ((f.srcS o.b).toNat % 2 ^ 48) va key [8] → bodyOk (f.rayBody d) = true →
      Queues (.rloadGeom o) s n sl f o.h .l64 (.rread (va + 8) (key + 8) (8 * k) (.words (d + 1) k))
        (some ((List.range k).map (d + 1 + ·)))) ∧
    (Region s n sl f false (f.srcS o.a) ((f.srcS o.b).toNat % 2 ^ 48) va key [0x70] →
      Queues (.rloadHit o) s n sl f o.h .l64 (.rread (va + 0x70) (key + 0x70) 16 (.words d 2)) (some ((List.range 2).map (d + ·)))) ∧
    (Region s n sl f true (f.srcS o.a) ((f.srcS o.b).toNat % 2 ^ 48) va key [0] → bodyOk (f.rayBody d) = true →
      Queues (.rstoreRay o) s n sl f o.h .l64
        (.rwrite (regionAt va key 0 (((List.range 14).map fun j => f.getS (d + j)).flatMap (bytesLE 8)))) none) ∧
    (Region s n sl f true (f.srcS o.a) ((f.srcS o.b).toNat % 2 ^ 48) va key [8] → bodyOk (f.rayBody d) = true →
      Queues (.rstoreGeom o) s n sl f o.h .l64
        (.rwrite (regionAt va key 8 (((List.range k).map fun j => f.getS (d + 1 + j)).flatMap (bytesLE 8)))) none) ∧
    (Region s n sl f true (f.srcS o.a) ((f.srcS o.b).toNat % 2 ^ 48) va key [0x70] →
      Queues (.rstoreHit o) s n sl f o.h .l64
        (.rwrite (regionAt va key 0x70 (((List.range 2).map fun j => f.getS (d + j)).flatMap (bytesLE 8)))) none)

/-- R306, R307: RSEND sends the body to an owner of the handle that the core knows, else to the handle's home; RHIT and
RMISS send their record; none before the firing's region writes are acknowledged. -/
def Sys2Proof.Claims.RaySends : Prop :=
  (∀ (o : RsendOps) (s : State) (n sl : Nat) (f : Firing) (ws : List W64) (h : BitVec 16) (k : Nat), Issues s n sl f →
    f.enS o.h = true → ws = f.rayBody o.d.toNat → bodyOk ws = true → h = (f.srcS o.a).setWidth 16 →
    (∀ e, e ∈ f.sq → ∀ cs, e.op ≠ .rwrite cs) → MaySend s n f 1 → (s.core n).sendBuf.length < 16 →
    ((∃ e, (s.core n).canopy.find? (fun e => e.h == h) = some e ∧ e.owners ≠ [] ∧
        k = (e.owners.getD (rayNum ws % e.owners.length) 0).toNat) ∨
      ((∀ e ∈ (s.core n).canopy, e.h = h → e.owners = []) ∧ k = h.toNat % partCores s)) →
    ∃ m, Sends (.rsend o) s n sl f o.h .l64 [m] ∧
      MsgIs f m ((s.pkg.toNat * 4096 + k) % 2 ^ 29) 2 (f.hidOf o.hid) 14 false 0 fun j => f.getS (o.d.toNat + j)) ∧
  (∀ (o : RhitOps) (s : State) (n sl : Nat) (f : Firing) (ws : List W64) (dst : Nat), Issues s n sl f → f.enS o.h = true →
    ws = f.rayBody o.ray.toNat → bodyOk ws = true → dst = (f.srcS o.core).toNat % 2 ^ 29 →
    (coreExists s dst = false → exec (.rhit o) s = .next (takeTrap s n sl (msgfmt (BitVec.ofNat 64 dst)))) ∧
    (coreExists s dst = true → (∀ e, e ∈ f.sq → ∀ cs, e.op ≠ .rwrite cs) → MaySend s n f 1 →
      (s.core n).sendBuf.length < 16 → ∃ m, Sends (.rhit o) s n sl f o.h .l96 [m] ∧
        MsgIs f m dst 3 o.hid 6 false 0 fun j => [bodyW ws 0, f.getS o.d.toNat, f.getS (o.d.toNat + 1), tmaxF64 ws,
          bodyW ws 13, f.srcS o.user].getD j 0)) ∧
  (∀ (o : RmissOps) (s : State) (n sl : Nat) (f : Firing) (ws : List W64) (dst : Nat), Issues s n sl f → f.enS o.h = true →
    ws = f.rayBody o.ray.toNat → bodyOk ws = true → dst = (f.srcS o.core).toNat % 2 ^ 29 →
    (coreExists s dst = false → exec (.rmiss o) s = .next (takeTrap s n sl (msgfmt (BitVec.ofNat 64 dst)))) ∧
    (coreExists s dst = true → (∀ e, e ∈ f.sq → ∀ cs, e.op ≠ .rwrite cs) → MaySend s n f 1 →
      (s.core n).sendBuf.length < 16 → ∃ m, Sends (.rmiss o) s n sl f o.h .l96 [m] ∧
        MsgIs f m dst 3 o.hid 6 false 0 fun j => [bodyW ws 0, 0, 0, tmaxF64 ws, bodyW ws 13, f.srcS o.user].getD j 0))

/-! ## Scene residency and the log -/

namespace Sys2Proof.Claims

/-- Slot words p hold handle h for epoch e (R310, Table 15-1). -/
def Resolves (p : Pin) (h e : Nat) : Prop :=
  p.w0.toNat / 2 ^ 10 % 4 = 3 ∧ p.w0.toNat / 2 ^ 48 = h ∧ p.w0.toNat / 2 ^ 32 % 2 ^ 16 ≤ e ∧
  (p.w0.getLsbD 15 = true → e < p.w0.toNat / 2 ^ 16 % 2 ^ 16)

end Sys2Proof.Claims

/-- R310, R311, R318 to R321: the residency forms raise PROT outside the Canopy ASID; CNLOOK.LOC gives the lowest slot that
resolves; CNLOOK.DIR, CNSET.DIR, THAW and EVICT go to the entry's home in the order of atomics, with BUSY at once for a
slot that is not in the state they need; CNSET.SLOT makes permitted changes and raises MSGFMT for others. -/
def Obligations.Residency : Prop :=
  (∀ (o : DAOps) (p : DABOps) (s : State) (n sl : Nat) (f : Firing), Issues s n sl f → (s.core n).asid ≠ s.canopyAsid →
    (f.enS o.h = true → exec (.cnlookDir o) s = .next (takeTrap s n sl (cause 0x0B)) ∧
      exec (.cnsetDir o) s = .next (takeTrap s n sl (cause 0x0B)) ∧
      exec (.cnsetSlot o) s = .next (takeTrap s n sl (cause 0x0B)) ∧ exec (.evict o) s = .next (takeTrap s n sl (cause 0x0B))) ∧
    (f.enS p.h = true → exec (.cnlookLoc p) s = .next (takeTrap s n sl (cause 0x0B)) ∧
      exec (.thaw p) s = .next (takeTrap s n sl (cause 0x0B)))) ∧
  (∀ (o : DABOps) (s : State) (n sl : Nat) (f : Firing) (h e i : Nat) (slot : Nat → Pin), Issues s n sl f →
    f.enS o.h = true → (s.core n).asid = s.canopyAsid → (∀ j, slot j = (s.core n).pinned.getD j {}) →
    h = (f.srcS o.a).toNat % 2 ^ 16 → e = (f.srcS o.b).toNat % 2 ^ 16 → i = (f.srcS o.b).toNat % 16 →
    (∀ j, j < 16 → Resolves (slot j) h e → (∀ k, k < j → ¬ Resolves (slot k) h e) →
      Gives (.cnlookLoc o) s n sl (((f.setS o.d.toNat (slot j).w0).setS (o.d.toNat + 1)
        ((slot j).w1 ||| BitVec.ofNat 64 (j * 2 ^ 56))).retire false o.h .l64 .none)) ∧
    ((∀ j, j < 16 → ¬ Resolves (slot j) h e) →
      Gives (.cnlookLoc o) s n sl (((f.setS o.d.toNat 0xFFFFFFFFFFFFFFFF).setS (o.d.toNat + 1) 0xFFFFFFFFFFFFFFFF).retire
        false o.h .l64 .none)) ∧
    ((slot i).w0.toNat / 2 ^ 10 % 4 ≠ 1 → DepositsNow (.thaw o) s n sl f o.h [(o.d.toNat, 2)]) ∧
    ((slot i).w0.toNat / 2 ^ 10 % 4 = 1 → f.sqRoom 1 = true →
      Queues (.thaw o) s n sl f o.h .l64 (.thaw ((f.srcS o.a).setWidth 16) i) (some [o.d.toNat]))) ∧
  (∀ (o : DAOps) (s : State) (n sl : Nat) (f : Firing) (i : Nat) (ws : List W64) (old new : Pin), Issues s n sl f →
    f.enS o.h = true → (s.core n).asid = s.canopyAsid → i = (f.srcS o.a).toNat →
    ws = (List.range 4).map (fun j => f.getS (o.d.toNat + j)) → old = (s.core n).pinned.getD i {} →
    new = ⟨f.getS o.d.toNat, f.getS (o.d.toNat + 1)⟩ →
    (f.sqRoom 1 = true →
      Queues (.cnlookDir o) s n sl f o.h .l64 (.dirRead ((f.srcS o.a).setWidth 16)) (some ((List.range 4).map (o.d.toNat + ·)))) ∧
    (ceFormed s ((f.srcS o.a).setWidth 16) ws = true → f.sqRoom 1 = true →
      Queues (.cnsetDir o) s n sl f o.h .l64 (.dirWrite ((f.srcS o.a).setWidth 16) ws) none) ∧
    (ceFormed s ((f.srcS o.a).setWidth 16) ws = false →
      exec (.cnsetDir o) s = .next (takeTrap s n sl (msgfmt (f.getS o.d.toNat)))) ∧
    (pinState ((s.core n).pinned.getD (i % 16) {}) ≠ 3 → DepositsNow (.evict o) s n sl f o.h [(o.d.toNat, 2)]) ∧
    (pinState ((s.core n).pinned.getD (i % 16) {}) = 3 → f.sqRoom 1 = true →
      Queues (.evict o) s n sl f o.h .l64 (.evict (i % 16)) (some [o.d.toNat])) ∧
    (15 < i → exec (.cnsetSlot o) s = .next (takeTrap s n sl (msgfmt (f.srcS o.a)))) ∧
    (i ≤ 15 → slotChange (s.core n) i old new = none →
      exec (.cnsetSlot o) s = .next (takeTrap s n sl (msgfmt new.w0))) ∧
    (∀ p, i ≤ 15 → slotChange (s.core n) i old new = some p → exec (.cnsetSlot o) s =
      .next (s.setCore n ({ s.core n with pinned := (s.core n).pinned.set i p }.setFiring sl (f.retire false o.h .l64 .none))))) ∧
  (∀ (c : Core) (i : Nat) (old new p : Pin), slotChange c i old new = some p →
    pinFrom p = pinFrom old ∧ p.w0.toNat % 256 = old.w0.toNat % 256 ∧
    (pinState old, pinState p) ∈ [(0, 1), (1, 0), (3, 1), (3, 3)] ∧
    (pinState old = 0 → pinHandle p = pinHandle new ∧ pinOff p = pinOff new ∧ pinOff p % 4096 = 0 ∧
      pinOff p + 65536 ≤ 2 ^ 20 ∧ c.inWs (pinOff p) 65536 = false ∧
      ∀ j, j < 16 → j ≠ i → pinState (c.pinned.getD j {}) ≠ 0 →
        pinOff p + 65536 ≤ pinOff (c.pinned.getD j {}) ∨ pinOff (c.pinned.getD j {}) + 65536 ≤ pinOff p) ∧
    (pinState old ≠ 3 → pinHandle p = pinHandle new ∧ pinOff p = pinOff new ∧ pinTo p = pinTo new ∧ pinSup p = pinSup new) ∧
    (pinState old = 3 → pinHandle p = pinHandle old ∧ pinOff p = pinOff old ∧ pinHandle new = pinHandle old ∧
      pinOff new = pinOff old ∧ pinTo p = pinTo new ∧ pinSup p = pinSup new) ∧
    (pinState old = 3 → pinState p = 1 → pinTo p = pinTo old ∧ pinSup p = pinSup old) ∧
    (pinState old = 3 → pinState p = 3 → pinSup old = false ∧ pinSup p = true ∧ pinFrom p < pinTo p))

/-- R322, R324 to R326: RPIN and RDONE count at the epoch's counter as atomics, RDONE with its notification pair; RLOG
pushes a record of 32 bytes where the ray's LOG is set; RREPLAY fetches a record as a region read, and raises RAYFMT for
one of another ray or event. The hit word of a record without VALID is log entry 84's reading of R327. -/
def Sys2Proof.Claims.LogForms : Prop :=
  (∀ (o : RpinOps) (s : State) (n sl : Nat) (f : Firing) (a : W64) (va key : Nat) (unc : Bool), Issues s n sl f →
    f.enS o.h = true → a = f.srcS o.a →
    (a.toNat % 8 ≠ 0 → exec (.rpin o) s = .next (takeTrap s n sl (causeAt 0x09 .atomic (va56 a)))) ∧
    (a.toNat % 8 = 0 → va = (a.toNat + 8 * ((f.srcS o.b).toNat % 2 ^ 16)) % 2 ^ 56 → Passes s n sl f .atomic 8 va key unc →
      f.sqRoom 1 = true → Queues (.rpin o) s n sl f o.h .l96
        (.atom [⟨0, va, key, 8, 0, false, f.srcS o.c, 0⟩] none) (some [o.d.toNat]))) ∧
  (∀ (o : RdoneOps) (s : State) (n sl : Nat) (f : Firing) (a d : W64) (va key : Nat) (unc : Bool), Issues s n sl f →
    f.enS o.h = true → a = f.srcS o.a → a.toNat % 8 = 0 → va = (a.toNat + 8 * ((f.srcS o.b).toNat % 2 ^ 16)) % 2 ^ 56 →
    Passes s n sl f .atomic 8 va key unc → d = f.getS o.p.toNat →
    (nzBad d = true → exec (.rdone o) s = .next (takeTrap s n sl (msgfmt d))) ∧
    (nzBad d = false → f.sqRoom 1 = true → Queues (.rdone o) s n sl f o.h .l96
      (.atom [⟨0, va, key, 8, 0, false, 0 - o.n.setWidth 64, 0⟩] (some (d, f.getS (o.p.toNat + 1)))) (some [o.d.toNat]))) ∧
  (∀ (o : RlogOps) (s : State) (n sl : Nat) (f : Firing) (ws : List W64) (off : Nat) (q : QDesc), Issues s n sl f →
    f.enS o.h = true → ws = f.rayBody o.d.toNat → off = (f.srcS o.q).toNat → q = (s.core n).qdesc off →
    (bodyOk ws = false → exec (.rlog o) s = .next (takeTrap s n sl (cause 0x12))) ∧
    (bodyOk ws = true → (bodyW ws 13).getLsbD 55 = false → Gives (.rlog o) s n sl (f.retire false o.h .l96 .none)) ∧
    (bodyOk ws = true → (bodyW ws 13).getLsbD 55 = true → qcheck s n (f.srcS o.q) none = none → q.esz = 2 → f.rel = none →
      (s.core n).placing f = false → q.pushed - q.sent < q.shadowEntries → ∃ t, exec (.rlog o) s = .next t ∧
        t.firing n sl = some (f.retire false o.h .l96 .none) ∧ t.mem = s.mem ∧
        (t.core n).getW (off + 0x28) = BitVec.ofNat 64 (q.pushed + 1) ∧
        ∀ j, j < 4 → ∀ a, a = q.shoff + q.entryBytes * (q.pushed % q.shadowEntries) + 8 * j →
          a + 8 ≤ off + 0x28 ∨ off + 0x30 ≤ a → (t.core n).getW a =
            (logRecord ws o.event.toNat ((f.srcS o.node).setWidth 32) (f.srcS o.stamp) (f.getS o.x.toNat)).getD j 0)) ∧
  (∀ (o : RayOps) (s : State) (n sl : Nat) (f : Firing) (ws : List W64) (a : W64), Issues s n sl f → f.enS o.h = true →
    ws = f.rayBody o.ray.toNat → a = f.srcS o.a → bodyOk ws = true → (bodyW ws 13).getLsbD 54 = true →
    (∀ va key unc, f.hold = .none → a.toNat % 32 = 0 → va = a.toNat % 2 ^ 56 → f.sqRoom 1 = true →
      xlate (s.core n) f.xl (privileged (s.core n) sl) .region va none = .hit key unc → ∃ (g : Firing) (d : Dep),
      g = { f with sq := f.sq ++ [⟨f.seq, f.pc, .rread va key 32 .replay, false⟩], deps := f.deps ++ [d], hold := .replay,
                   seq := f.seq + 1 } ∧ d.seq = f.seq ∧ d.pc = f.pc ∧ d.sregs = [] ∧ d.vregs = [] ∧ d.src = .unit ∧
      Gives (.rreplay o) s n sl g ∧ Gives (.rreplayTri o) s n sl g) ∧
    (∀ rb, f.hold = .record rb →
      (recordOk ws false rb = true → Gives (.rreplay o) s n sl
        ((f.setS o.d.toNat (w64OfLE ((rb.drop 0x18).take 8))).retire false o.h .l64 .none)) ∧
      (recordOk ws true rb = true → Gives (.rreplayTri o) s n sl ((replayTri f o ws rb).retire false o.h .l64 .none)) ∧
      (recordOk ws false rb = false → exec (.rreplay o) s = .next (takeTrap s n sl (cause 0x12))) ∧
      (recordOk ws true rb = false → exec (.rreplayTri o) s = .next (takeTrap s n sl (cause 0x12)))))

/-- R327: the record that RLOG builds of a box result replays as that result, and that of a hit word (a miss, 0, among them)
replays as it, for the same ray and the reference the hit word names; a valid hit brings back the tmax that the forward pass left
(in the FP32 form, one that is a number). -/
def Sys2Proof.Claims.ReplayReturns : Prop :=
  ∀ (ws : List W64) (node : W32) (stamp x : W64) (f : Firing) (o : RayOps) (rb : List Byte) (ev : Nat),
    rb = (logRecord ws ev node stamp x).flatMap (bytesLE 8) →
    (ev = 1 → recordOk ws false rb = true ∧ w64OfLE ((rb.drop 0x18).take 8) = x) ∧
    (ev = 2 ∨ ev = 3 → recordOk ws true rb = true ∧
      (x = 0 ∨ x.getLsbD 11 = true ∧ x.toNat / 2 ^ 12 % 16 = 0 ∧ x.toNat / 2 ^ 16 % 2 ^ 16 = node.toNat / 2 ^ 16 ∧
          x.toNat % 256 = node.toNat % 256 →
        o.d ≠ 0 → o.d.toNat < o.ray.toNat ∨ o.ray.toNat + 14 ≤ o.d.toNat →
        (replayTri f o ws rb).getS o.d.toNat = x) ∧
      (∀ vs : List W64, vs = f.rayBody o.ray.toNat → isF32 vs = isF32 ws → x.getLsbD 11 = true →
        o.d.toNat + 2 ≤ o.ray.toNat ∨ o.ray.toNat + 14 ≤ o.d.toNat →
        (isF32 ws = false → bodyW ((replayTri f o vs rb).rayBody o.ray.toNat) 8 = bodyW ws 8) ∧
        (isF32 ws = true → (∀ b, Fmt.f32.decode (bodyHalf ws 4 true).toNat ≠ .nan b) →
          bodyHalf ((replayTri f o vs rb).rayBody o.ray.toNat) 4 true = bodyHalf ws 4 true)))

/-! ## Engines and sampler -/

namespace Sys2Proof.Claims

/-- The command enters its context's queue with the next number, which the destination receives (R333, R334). -/
def Commands (i : Instr) (s : State) (n sl : Nat) (f : Firing) (h : Head) (d ctx : Nat) (P : Cmd → Prop) : Prop :=
  ∃ (t : State) (m : Cmd) (x : Ctx), x = (s.core n).ctx ctx ∧ exec i s = .next t ∧ t.mem = s.mem ∧
    (t.core n).ctx ctx = { x with i := x.i + 1, q := x.q ++ [m] } ∧ t.firing n sl = some (f.writeS h .l96 d (x.i + 1)) ∧
    m.n = x.i + 1 ∧ m.asid = (s.core n).asid ∧ m.pos = 0 ∧ m.ltag = f.ltag ∧ P m

/-- A context that takes a command now: room, no release in progress, and for a notification a credit (R336). -/
def CtxFree (s : State) (n : Nat) (f : Firing) (ctx : Nat) (nt : Option (BitVec 6)) : Prop :=
  ctx < (s.core n).ctxs.length ∧ ((s.core n).ctx ctx).q.length < 8 ∧ f.rel = none ∧
  (nt ≠ none → MaySend s n f 1)

end Sys2Proof.Claims

/-- R333 to R336: BGET, BPUT, BCOPY and BFILL: the operands are checked in order; a command that passes takes its number
and its place in the context's queue; TLREAD and TLWAIT read the counters, wait for them, and raise ENGERR; past a TLWAIT the
sampler cache holds no line that a command up to it wrote, which lines those are being the model's reading (log entry 83). -/
def Obligations.EngineCommands : Prop :=
  (∀ (o : BlkOps) (s : State) (n sl : Nat) (f : Firing) (nt : Option (W64 × W64)) (dst src len : W64), Issues s n sl f →
    f.enS o.h = true → nt = o.nt.map (fun r => (f.getS r.toNat, f.getS (r.toNat + 1))) → dst = f.srcS o.dst →
    src = f.srcS o.src → len = f.srcS o.len →
    (∀ tc, engCheck s n sl 1 0 dst src len false nt = some tc → exec (.bget o) s = .next (takeTrap s n sl tc)) ∧
    (∀ tc, engCheck s n sl 0 1 dst src len false nt = some tc → exec (.bput o) s = .next (takeTrap s n sl tc)) ∧
    (CtxFree s n f o.ctx.toNat o.nt →
      (engCheck s n sl 1 0 dst src len false nt = none →
        Commands (.bget o) s n sl f o.h o.d.toNat o.ctx.toNat fun m => m.ds = 1 ∧ m.ss = 0 ∧ m.dst = dst ∧ m.src = src ∧
          m.len = len.toNat ∧ m.fill = false ∧ m.nt = nt) ∧
      (engCheck s n sl 0 1 dst src len false nt = none →
        Commands (.bput o) s n sl f o.h o.d.toNat o.ctx.toNat fun m => m.ds = 0 ∧ m.ss = 1 ∧ m.dst = dst ∧ m.src = src ∧
          m.len = len.toNat ∧ m.fill = false ∧ m.nt = nt))) ∧
  (∀ (o : BcopyOps) (s : State) (n sl : Nat) (f : Firing) (nt : Option (W64 × W64)) (dst src len : W64), Issues s n sl f →
    f.enS o.h = true → nt = o.nt.map (fun r => (f.getS r.toNat, f.getS (r.toNat + 1))) → dst = f.srcS o.dst →
    src = f.srcS o.src → len = f.srcS o.len → CtxFree s n f o.ctx.toNat o.nt →
    (engCheck s n sl o.ds.toNat o.ss.toNat dst src len false nt = none →
      Commands (.bcopy o) s n sl f o.h o.d.toNat o.ctx.toNat fun m => m.ds = o.ds ∧ m.ss = o.ss ∧ m.dst = dst ∧
        m.src = src ∧ m.len = len.toNat ∧ m.fill = false ∧ m.nt = nt) ∧
    (engCheck s n sl o.ds.toNat 0 dst src len true nt = none →
      Commands (.bfill o) s n sl f o.h o.d.toNat o.ctx.toNat fun m => m.ds = o.ds ∧ m.dst = dst ∧ m.src = src ∧
        m.len = len.toNat ∧ m.fill = true ∧ m.nt = nt)) ∧
  (∀ (o : TlreadOps) (s : State) (n sl : Nat) (f : Firing) (x : Ctx), Issues s n sl f → x = (s.core n).ctx o.ctx.toNat →
    Gives (.tlreadDone o) s n sl (f.writeS o.h .l64 o.d.toNat x.c) ∧
    Gives (.tlreadIss o) s n sl (f.writeS o.h .l64 o.d.toNat x.i) ∧
    (o.ctx.toNat < (s.core n).ctxs.length → ∃ t, exec (.tlreadErr o) s = .next t ∧ t.mem = s.mem ∧
      t.firing n sl = some (f.writeS o.h .l64 o.d.toNat x.err) ∧
      (t.core n).ctx o.ctx.toNat = if f.enS o.h then { x with err := 0, addr := 0 } else x)) ∧
  (∀ (o : TlwaitOps) (s : State) (n sl : Nat) (f : Firing) (x : Ctx) (k : Nat), Issues s n sl f → f.enS o.h = true →
    x = (s.core n).ctx o.ctx.toNat → k = (f.srcS o.a).toNat →
    (x.i.toNat < k → exec (.tlwait o) s = .next (takeTrap s n sl (msgfmt (f.srcS o.a)))) ∧
    (k ≤ x.i.toNat → x.c.toNat < k → exec (.tlwait o) s = .next s) ∧
    (k ≤ x.i.toNat → k ≤ x.c.toNat → x.err ≠ 0 → x.err.toNat % 2 ^ 48 ≤ k →
      ∃ tc, exec (.tlwait o) s = .next (takeTrap s n sl tc) ∧ tc.code = 0x15 ∧ tc.aux = x.err ∧ tc.addr = some x.addr ∧
        tc.value.toNat = o.ctx.toNat * 2 ^ 62 + x.err.toNat % 2 ^ 48 ∧ tc.count.toNat = x.err.toNat / 2 ^ 48 % 256) ∧
    (k ≤ x.i.toNat → k ≤ x.c.toNat → x.err = 0 ∨ k < x.err.toNat % 2 ^ 48 →
      ∃ t, exec (.tlwait o) s = .next t ∧ t.mem = s.mem ∧ t.firing n sl = some (f.retire false o.h .l64 .none) ∧
        ∀ l, l ∈ (t.core n).samp ↔ l ∈ (s.core n).samp ∧
          ¬ (l.asid = (s.core n).asid ∧ ∃ w ∈ x.wrote, w.1 ≤ k ∧ w.2 = l.vline)))

/-- R341 to R346: SMP and SMPF with a well-formed descriptor whose texels are all translated enter the sampler's queue
with their acting lanes' operands, and leave four lane registers pending; an ill-formed descriptor raises MSGFMT; SFENCE
empties the sampler cache once no request of the firing is left. -/
def Sys2Proof.Claims.SamplerForms : Prop :=
  (∀ (o : SmpOps) (s : State) (n sl : Nat) (f : Firing) (fetch : Bool) (i : Instr) (off : W64) (d : List Byte) (ls : List Nat)
    (xs : List (Nat × Nat × Bool)), Issues s n sl f → f.enS o.h = true → i = (if fetch then .smpf o else .smp o) →
    off = f.srcS o.desc → d = (s.core n).getBs off.toNat 32 → ls = actLanes f o.h o.qm →
    (off.toNat % 32 ≠ 0 → exec i s = .next (takeTrap s n sl (causeAt 0x09 .scratch off))) ∧
    (SpadOk (s.core n) off 32 → sdFormed d = false →
      exec i s = .next (takeTrap s n sl (msgfmt (w64OfLE ((d.drop 0x10).take 8))))) ∧
    (SpadOk (s.core n) off 32 → sdFormed d = true → ls ≠ [] → (s.core n).sampQ.length < 8 →
      planTexels (s.core n) sl f (ls.flatMap fun L =>
        ((taps d fetch (f.getV o.u.toNat L) (f.getV o.v.toNat L)).getD []).map fun t => (L, texelVa d t.1.1 t.1.2)) = .ok xs →
      ∃ (t : State) (q : SampReq) (g : Firing) (p : Dep), exec i s = .next t ∧ t.mem = s.mem ∧
        (t.core n).sampQ = (s.core n).sampQ ++ [q] ∧ q.slot = sl ∧ q.seq = f.seq ∧ q.fetch = fetch ∧ q.desc = d ∧
        q.args = ls.map (fun L => (L, f.getV o.u.toNat L, f.getV o.v.toNat L)) ∧ q.d = o.d.toNat ∧
        t.firing n sl = some (g.retire false o.h .l96 .none) ∧ g = { f with deps := f.deps ++ [p] } ∧ p.seq = f.seq ∧
        p.src = .unit ∧ p.vregs = (List.range 4).map (o.d.toNat + ·))) ∧
  (∀ (o : HOps) (s : State) (n sl : Nat) (f : Firing), Issues s n sl f → f.enS o.h = true →
    (∀ q ∈ (s.core n).sampQ, q.slot ≠ sl) →
    exec (.sfence o) s = .next (s.setCore n ({ s.core n with samp := [] }.setFiring sl (f.retire false o.h .l64 .none))))

/-! ## System instructions -/

namespace Sys2Proof.Claims

/-- The value of a special register (Tables 2-9 and 17-5), sr.lane apart; sr.trap as LAST, SKIP, LOSS and MODE. -/
def srValue (s : State) (n sl : Nat) (f : Firing) (num : BitVec 12) (x : W64) : Prop :=
  match num.toNat with
  | 0x000 => x = BitVec.ofNat 64 (s.pkg.toNat * 4096 + n)
  | 0x002 => x = BitVec.ofNat 64 f.wp
  | 0x003 => x = BitVec.ofNat 64 sl
  | 0x004 => x = f.hid.setWidth 64
  | 0x005 => x = f.ltag.setWidth 64
  | 0x006 => x = (s.core n).vt
  | 0x007 => x = (s.core n).hz
  | 0x008 => x = clkOf s (islandOf s n)
  | 0x009 => x = f.fpst
  | 0x00A => x.toNat = f.last.toNat * 256 + f.skip.toNat * 8 + f.loss.toNat * 4 + f.mode.toNat
  | 0x00B => x = (s.core n).asid.setWidth 64
  | 0x00C => x = BitVec.ofNat 64 (f.nv % 256 * 256 + f.ns)
  | 0x100 => x = (s.core n).tvec
  | 0x101 => x = (s.core n).tws
  | 0x102 => x = (s.core n).spq
  | 0x103 => x = (s.core n).spqsz
  | 0x104 => x = (s.core n).brk0
  | 0x105 => x = (s.core n).brk1
  | 0x106 => x = (s.core n).wch0
  | 0x107 => x = (s.core n).wch1
  | 0x108 => x = BitVec.ofNat 64 (s.core n).cstate
  | _ => False

/-- Core c with a writable special register holding x. -/
def srPut (c : Core) (num : Nat) (x : W64) : Core :=
  { c with
    vt := if num = 6 then x else c.vt, tvec := if num = 0x100 then x else c.tvec, tws := if num = 0x101 then x else c.tws,
    spq := if num = 0x102 then x else c.spq, spqsz := if num = 0x103 then x else c.spqsz,
    brk0 := if num = 0x104 then x else c.brk0, brk1 := if num = 0x105 then x else c.brk1,
    wch0 := if num = 0x106 then x else c.wch0, wch1 := if num = 0x107 then x else c.wch1 }

/-- Whether x is a value with zero-bits of a register set (Table 17-5, R367). -/
def zeroBits (num : Nat) (x : W64) : Prop :=
  (num = 0x100 → x.toNat < 2 ^ 56 ∧ x.getLsbD 1 = false) ∧ (num = 0x101 → x.toNat < 2 ^ 20 ∧ x.toNat % 1024 ≤ 1) ∧
  (num = 0x102 → x.toNat < 2 ^ 47 ∧ x.toNat % 4096 = 0) ∧ (num = 0x103 → x.toNat ≤ 2 ^ 20) ∧
  (num = 0x104 ∨ num = 0x105 → x.getLsbD 1 = false) ∧ (num = 0x106 ∨ num = 0x107 → x.toNat / 2 ^ 56 % 16 = 0)

/-- The trap handler acts on firings of its own launch only (R357). -/
def MayAct (sl : Nat) (f g : Firing) : Prop := sl = trapSlot → g.ltag = f.ltag

/-- The forms marked (P) in Table 2-23. -/
def isP : Instr → Bool
  | .tret _ | .fresume _ | .fresumeStep _ | .fresumeOut _ | .fkill _ | .finspectRd _ | .finspectWr _ | .halt _
  | .preemptDrain _ | .preemptSwap _ | .preemptRes _ | .remap _ => true
  | _ => false

end Sys2Proof.Claims

/-- R42, R361, R362, R137: RSR reads each special register, in every mode that may; WSR writes the writable ones where their
zero-bits are zero, and raises MSGFMT for a virtual time that is neither no claim nor a stamp from the report on (R285); what a
user firing may not read or write raises PRIV, a register that is read-only for all ILLEGAL. That
sr.cstate is read-only for a privileged WSR, which raises ILLEGAL, is the model's choice (log entry 41); so is what sr.nreg
reads where nv is 256 (log entry 85). -/
def Obligations.SpecialRegisters : Prop :=
  (∀ (o : RsrOps) (s : State) (n sl : Nat) (f : Firing), Issues s n sl f →
    (privileged (s.core n) sl = true ∨ o.num.toNat < 0x100 →
      (∀ m, (s.core n).mat = some m → m.slot ≠ sl) →
      (∀ x, srValue s n sl f o.num x → Gives (.rsr o) s n sl (f.writeS o.h .l64 o.d.toNat x)) ∧
      (o.num = 1 → f.enS o.h = true → o.h.nw = false → ∃ g : Firing, Gives (.rsr o) s n sl (g.retire false o.h .l64 .none) ∧
        ∀ r L, L < 32 → g.getV r L =
          if r = o.d.toNat ∧ f.mask.getLsbD L = true then BitVec.ofNat 32 L else f.getV r L)) ∧
    (privileged (s.core n) sl = false → 0x100 ≤ o.num.toNat → exec (.rsr o) s = .next (takeTrap s n sl (cause 0x02)))) ∧
  (∀ (o : WsrOps) (s : State) (n sl : Nat) (f : Firing) (num : Nat) (x : W64), Issues s n sl f → sl ≤ trapSlot →
    num = o.num.toNat → x = f.srcS o.a →
    (privileged (s.core n) sl = false → num ≠ 6 → num ≠ 9 → exec (.wsr o) s = .next (takeTrap s n sl (cause 0x02))) ∧
    (privileged (s.core n) sl = true → num = 0x108 ∨ num < 0x100 → num ≠ 6 → num ≠ 9 →
      exec (.wsr o) s = .next (takeTrap s n sl (cause 0x01))) ∧
    (f.enS o.h = true → num = 9 → (∀ m, (s.core n).mat = some m → m.slot ≠ sl) →
      Gives (.wsr o) s n sl ({ f with fpst := x &&& 0x1F003F }.retire false o.h .l64 .none)) ∧
    (f.enS o.h = true → num = 6 → x = 0xFFFFFFFFFFFFFFFF ∨ x.toNat < 2 ^ 48 ∧ (s.core n).report.toNat ≤ x.toNat →
      exec (.wsr o) s = .next (s.setCore n ((srPut (s.core n) num x).setFiring sl (f.retire false o.h .l64 .none)))) ∧
    (f.enS o.h = true → num = 6 → x ≠ 0xFFFFFFFFFFFFFFFF → 2 ^ 48 ≤ x.toNat ∨ x.toNat < (s.core n).report.toNat →
      exec (.wsr o) s = .next (takeTrap s n sl (msgfmt x))) ∧
    (f.enS o.h = true → privileged (s.core n) sl = true → 0x100 ≤ num → num < 0x108 → zeroBits num x →
      (num = 0x101 → x.getLsbD 0 = true → (s.core n).wsLo ≤ x.toNat / 1024 * 1024 ∧
        x.toNat / 1024 * 1024 + 2048 ≤ (s.core n).wsHi ∧ ∀ e ∈ (s.core n).live, twsMeets x e.2 = false) →
      exec (.wsr o) s = .next (s.setCore n ((srPut (s.core n) num x).setFiring sl (f.retire false o.h .l64 .none)))) ∧
    (f.enS o.h = true → privileged (s.core n) sl = true → 0x100 ≤ num → num < 0x108 → ¬ zeroBits num x →
      exec (.wsr o) s = .next (takeTrap s n sl (cause 0x01))))

/-- R351 to R353: taking a trap below the trap handler: the record of Table 17-2, LAST, STOP, the place in the trap queue,
the discarded SFU entries; registers, predicates, queued stores, deposits in flight and memory stay. Where the firing's
operation in the matrix unit raises FPX, that is the trap taken, at its PC (R137, R186). -/
def Sys2Proof.Claims.TrapEntry : Prop :=
  (∀ (s u : State) (n sl : Nat) (f : Firing) (t : TrapCause) (fpc rpc word : W64) (m : MatOp), s.firing n sl = some f →
    sl ≠ trapSlot → (s.core n).mat = some m → m.slot = sl → fpxHits f m.flags = true →
    u = takeTrapAt s n sl t fpc rpc word → u.mem = s.mem ∧ (u.core n).mat = none ∧ ∃ g, u.firing n sl = some g ∧ g.stop = 1 ∧
      g.last = 0x0F ∧ g.trec.getD 1 0 = m.pc ∧ g.trec.getD 2 0 = m.pc ∧ g.trec.getD 4 0 = m.flags.setWidth 64 ∧ g.v = f.v) ∧
  ∀ (s u : State) (n sl : Nat) (f : Firing) (t : TrapCause) (fpc rpc word : W64), s.firing n sl = some f → sl ≠ trapSlot →
    (∀ m, (s.core n).mat = some m → m.slot ≠ sl) → (∀ L, t.lane = some L → L < 32) →
    u = takeTrapAt s n sl t fpc rpc word →
    u.mem = s.mem ∧ (∀ m, m ≠ n → u.core m = s.core m) ∧ (∀ sl', sl' ≠ sl → u.firing n sl' = s.firing n sl') ∧
    (∀ e, e ∈ (u.core n).sfuQ ↔ e ∈ (s.core n).sfuQ ∧ e.slot ≠ sl) ∧
    (u.core n).trapQ = (if sl ∈ (s.core n).trapQ then (s.core n).trapQ else (s.core n).trapQ ++ [sl]) ∧
    ∃ g, u.firing n sl = some g ∧ g.stop = 1 ∧ g.last = t.code ∧ g.skip = false ∧ g.s = f.s ∧ g.v = f.v ∧ g.k = f.k ∧
      g.q = f.q ∧ g.fpst = f.fpst ∧ g.paths = f.paths ∧ g.cur = f.cur ∧ g.sq = f.sq ∧ g.wbq = f.wbq ∧ g.deps = f.deps ∧
      (t.next = false → g.chain = f.chain ∧ g.ls = f.ls ∧ g.lv = f.lv) ∧ (t.next = true → g.chain = 0) ∧
      (t.code = 0x0D → g.loss = false ∧ g.laddr = 0 ∧ g.lcnt = 0) ∧
      (t.code ≠ 0x0D → g.loss = f.loss ∧ g.laddr = f.laddr ∧ g.lcnt = f.lcnt) ∧ ∃ w0 : W64, g.trec = [w0, fpc, rpc, t.addr.getD 0, t.value, t.aux, word, clkOf s (islandOf s n)] ∧
        w0.toNat % 256 = t.code.toNat ∧ (w0.getLsbD 8 = true ↔ t.code ≠ 0x0E) ∧ (w0.getLsbD 9 = true ↔ t.addr.isSome) ∧
        (w0.getLsbD 10 = true ↔ t.lane.isSome) ∧ (w0.getLsbD 11 = true ↔ t.next = false ∧ f.chain.getLsbD 7 = true) ∧
        w0.toNat / 2 ^ 12 % 16 = 0 ∧ w0.toNat / 2 ^ 16 % 256 = t.lane.getD 0 ∧ w0.toNat / 2 ^ 24 % 256 = t.kind.toNat ∧
        w0.toNat / 2 ^ 32 = t.count.toNat

/-- R355: a trap of the trap handler stops every firing of the core and leaves it halted, with the handler's own record
kept; no firing is created on it. -/
def Sys2Proof.Claims.DoubleTraps : Prop :=
  ∀ (s u : State) (n : Nat) (f : Firing) (t : TrapCause) (fpc rpc word : W64), s.firing n trapSlot = some f →
    (s.core n).fpxDue trapSlot = none → u = takeTrapAt s n trapSlot t fpc rpc word →
    (u.core n).cstate = 4 ∧ (∀ sl g, sl ≤ trapSlot → u.firing n sl = some g → g.stop ≠ 0) ∧
    (∃ g, u.firing n trapSlot = some g ∧ g.stop = 1 ∧ g.last = t.code ∧ g.trec.getD 1 0 = fpc ∧ g.trec.getD 2 0 = rpc) ∧
    exec (.firingCreation n) u = .next u

/-- R356, R60, R364: TRAP and BRK trap at their own PC and resume past it; TRET raises PRIV in a user firing and ILLEGAL outside
the trap handler, and else frees the trap handler and kills its subject where that is still trapped. That the subject's slot
is free at once is the model's choice (log entry 46). -/
def Obligations.TrapForms : Prop :=
  (∀ (o : TrapOps) (b : HOps) (s : State) (n sl : Nat) (f : Firing), Issues s n sl f → sl ≠ trapSlot →
    (s.core n).fpxDue sl = none →
    (f.enS o.h = true → ∃ t g, exec (.trap o) s = .next t ∧ t.mem = s.mem ∧ t.firing n sl = some g ∧ g.stop = 1 ∧
      g.last = 0x1A ∧ g.trec.getD 1 0 = f.pc ∧ g.trec.getD 2 0 = nextPc f.pc .l64 ∧ g.trec.getD 4 0 = o.code.setWidth 64) ∧
    (f.enS o.h = false → Gives (.trap o) s n sl (f.retire false o.h .l64 .none)) ∧
    (f.enS b.h = true → ∃ t g, exec (.brk b) s = .next t ∧ t.mem = s.mem ∧ t.firing n sl = some g ∧ g.stop = 1 ∧
      g.last = 0x17 ∧ g.trec.getD 1 0 = f.pc ∧ g.trec.getD 2 0 = nextPc f.pc .l64 ∧ g.trec.getD 4 0 = 0) ∧
    (f.enS b.h = false → Gives (.brk b) s n sl (f.retire false b.h .l64 .none))) ∧
  (∀ (o : HOps) (s : State) (n sl : Nat) (f : Firing), Issues s n sl f →
    (privileged (s.core n) sl = false → exec (.tret o) s = .next (takeTrap s n sl (cause 0x02))) ∧
    (privileged (s.core n) sl = true → f.enS o.h = true → sl ≠ trapSlot →
      exec (.tret o) s = .next (takeTrap s n sl (cause 0x01))) ∧
    (f.enS o.h = true → sl = trapSlot → endReady (s.core n) sl f = true → f.rel = none → (s.core n).placing f = false →
      releaseDone s n f f.seq false = true → f.owed = none → ∃ t, exec (.tret o) s = .next t ∧
        t.firing n trapSlot = none ∧ (t.core n).subject = none ∧
        (∀ m g, (s.core n).subject = some m → s.firing n m = some g → m < 64 →
          (g.stop = 1 → t.firing n m = none) ∧ (g.stop ≠ 1 → t.firing n m = some g))))

/-- R357 to R360, R368: FRESUME restarts a stopped firing at its record's resume PC, out of the trap queue, in the mode of its
form, with SKIP set where a breakpoint register or a WATCH had stopped it, and reissues its SFU entries; FKILL frees a slot;
HALT stops a running firing at its next instruction; FINSPECT reads and writes a word of a stopped firing's workspace. A free
slot gives STATE, another launch than the trap handler's gives LAUNCH. That HALT's record has code 0 and the PC of that
instruction twice (log entry 33), that FKILL frees its slot at once (log entry 46), and which SFU entries are reissued and when
FRESUME waits for their queue (log entry 86), is the model's reading. -/
def Sys2Proof.Claims.ActingOnFirings : Prop :=
  (∀ (o : DAOps) (i : Instr) (s : State) (n sl m : Nat) (f : Firing), Issues s n sl f → privileged (s.core n) sl = true →
    f.enS o.h = true → m = (f.srcS o.a).toNat % 64 → m ≠ sl →
    i = .fresume o ∨ i = .fresumeStep o ∨ i = .fresumeOut o ∨ i = .fkill o ∨ i = .halt o →
    (s.firing n m = none → DepositsNow i s n sl f o.h [(o.d.toNat, 1)]) ∧
    (∀ g, s.firing n m = some g → ¬ MayAct sl f g → DepositsNow i s n sl f o.h [(o.d.toNat, 2)])) ∧
  (∀ (o : DAOps) (i : Instr) (mode : BitVec 2) (s : State) (n sl m : Nat) (f g : Firing), Issues s n sl f →
    privileged (s.core n) sl = true → f.enS o.h = true → m = (f.srcS o.a).toNat % 64 → m ≠ sl → s.firing n m = some g →
    MayAct sl f g → g.cur < g.paths.length → (i, mode) ∈ [(.fresume o, 0), (.fresumeStep o, 1), (.fresumeOut o, 2)] →
    ((g.stop = 1 ∧ g.last ≠ 0x0E ∨ g.stop = 2) → g.tailOk = true →
        (reissues s n m g = [] ∨ (s.core n).sfuQ.length + (reissues s n m g).length ≤ 16) → ∃ (t : State) (r h : Firing) (d : Dep),
      exec i s = .next t ∧ t.mem = s.mem ∧ t.firing n m = some r ∧ r.stop = 0 ∧ r.mode = mode ∧
      r.pc = va56 (g.trec.getD 2 0) ∧ (mode = 2 → r.depth = 0) ∧ r.s = g.s ∧ r.v = g.v ∧ r.k = g.k ∧ r.q = g.q ∧
      r.chain = g.chain ∧ r.ls = g.ls ∧ r.lv = g.lv ∧ r.fpst = g.fpst ∧ r.last = g.last ∧ r.sfu0 = 0 ∧ r.sfu1 = 0 ∧
      r.sfum = 0 ∧ r.skip = (g.skip || g.rbrk) ∧ (t.core n).sfuQ = (s.core n).sfuQ ++ reissues s n m g ∧ (t.core n).trapQ = (s.core n).trapQ.filter (· != m) ∧
      t.firing n sl = some (h.retire false o.h .l64 .none) ∧ h = { f with deps := f.deps ++ [d] } ∧
      d.src = .val [(o.d.toNat, 0)] []) ∧
    (g.stop = 0 ∨ g.stop = 1 ∧ g.last = 0x0E ∨ g.tailOk = false → DepositsNow i s n sl f o.h [(o.d.toNat, 1)])) ∧
  (∀ (o : DAOps) (s : State) (n sl m : Nat) (f g : Firing), Issues s n sl f → privileged (s.core n) sl = true →
    f.enS o.h = true → m = (f.srcS o.a).toNat % 64 → m ≠ sl → sl ≤ trapSlot → s.firing n m = some g → MayAct sl f g →
    (∃ (t : State) (h : Firing) (d : Dep), exec (.fkill o) s = .next t ∧ t.mem = s.mem ∧ t.firing n m = none ∧
      t.firing n sl = some (h.retire false o.h .l64 .none) ∧ h = { f with deps := f.deps ++ [d] } ∧
      d.src = .val [(o.d.toNat, 0)] []) ∧
    (g.stop ≠ 0 → DepositsNow (.halt o) s n sl f o.h [(o.d.toNat, 1)]) ∧
    (g.stop = 0 → (∀ x, (s.core n).mat = some x → x.slot ≠ m) → ∃ (t : State) (r h : Firing) (d : Dep),
      exec (.halt o) s = .next t ∧ t.mem = s.mem ∧ t.firing n m = some r ∧ r.stop = 2 ∧ r.trec.getD 1 0 = g.pc ∧
      r.trec.getD 2 0 = g.pc ∧ (r.trec.getD 0 0).toNat % 256 = 0 ∧ r.s = g.s ∧ r.v = g.v ∧ r.sq = g.sq ∧ r.deps = g.deps ∧
      t.firing n sl = some (h.retire false o.h .l64 .none) ∧ h = { f with deps := f.deps ++ [d] } ∧
      d.src = .val [(o.d.toNat, 0)] [])) ∧
  (∀ (o : FinspectOps) (s : State) (n sl m off : Nat) (f : Firing), Issues s n sl f → privileged (s.core n) sl = true →
    f.enS o.h = true → m = (f.srcS o.a).toNat % 64 → m ≠ sl → off = (f.srcS o.b).toNat →
    (∀ g, s.firing n m = some g → MayAct sl f g → g.stop = 1 ∨ g.stop = 2 → off % 8 = 0 → off < wsBytes g.nv →
      Gives (.finspectRd o) s n sl (((f.setS o.d.toNat (g.wsRead off)).setK o.k.toNat true).retire false o.h .l64 .none) ∧
      exec (.finspectWr o) s = .next ((s.setFiring n m (g.wsWrite off (f.getS o.d.toNat))).setFiring n sl
        ((f.setK o.k.toNat true).retire false o.h .l64 .none))) ∧
    ((s.firing n m = none ∨ off % 8 ≠ 0 ∨ ∃ g, s.firing n m = some g ∧ (g.stop = 0 ∨ ¬ MayAct sl f g ∨ wsBytes g.nv ≤ off)) →
      Gives (.finspectRd o) s n sl ((f.setK o.k.toNat false).retire false o.h .l64 .none) ∧
      Gives (.finspectWr o) s n sl ((f.setK o.k.toNat false).retire false o.h .l64 .none)))

/-- R43, R44, Tables 2-10 and 17-3: a workspace as FINSPECT reads it: the scalar registers, the lane block, and in the tail
the PC, the trap record and the status; and as it writes it, reserved bits aside (R6). -/
def Sys2Proof.Claims.WorkspaceImage : Prop :=
  ∀ (g : Firing) (x : W64) (t : Nat), t = 512 + g.nv * 128 →
    (∀ r, r < 64 → g.wsRead (8 * r) = g.getS r ∧ ∀ r', (g.wsWrite (8 * r) x).getS r' =
      if r' = r ∧ r ≠ 0 then x else g.getS r') ∧
    (∀ r L, r < g.nv → L < 16 → g.wsRead (512 + 128 * r + 8 * L) = g.getV r (2 * L + 1) ++ g.getV r (2 * L) ∧
      ∀ r' L', L' < 32 → (g.wsWrite (512 + 128 * r + 8 * L) x).getV r' L' =
        if r' = r ∧ L' = 2 * L then x.extractLsb' 0 32 else if r' = r ∧ L' = 2 * L + 1 then x.extractLsb' 32 32
        else g.getV r' L') ∧
    g.wsRead t = g.pc ∧ g.wsRead (t + 0x18) = g.fpst ∧ g.wsRead (t + 0xC0) = g.chain ∧
    (∀ j, j < 8 → g.wsRead (t + 0x300 + 8 * j) = g.trec.getD j 0) ∧
    (∀ i, i < 4 → g.wsRead (t + 0x20 + 8 * i) = g.getQ (2 * i + 1) ++ g.getQ (2 * i)) ∧
    (g.cur < g.paths.length → (g.wsWrite t x).pc = x) ∧ (g.wsWrite (t + 0x18) x).fpst = x &&& 0x1F003F ∧
    (g.wsWrite (t + 0xC0) x).chain = x &&& 0xFFC7 ∧
    (∀ e, e < 8 → e < g.paths.length → (g.wsWrite (t + 0x48 + 16 * e) x).paths.getD e {} =
      { g.paths.getD e {} with mask := x.extractLsb' 0 32, pri := (x.extractLsb' 32 3).setWidth 8, st := x.extractLsb' 40 8 }) ∧
    (∀ j, 0x340 ≤ j → j < 0x400 → g.wsWrite (t + j) x = g)

/-- R365: once the instruction of a firing that FRESUME.STEP or .OUT set going has completed: after one instruction it stops
with STEP, whose faulting PC is the next instruction's (log entry 32: Table 17-2 names none); under OUT, DEPTH follows the
calls, and it stops after the return that leaves its frame. -/
def Sys2Proof.Claims.StepStops : Prop :=
  ∀ (t u : State) (n sl : Nat) (f g : Firing) (i : Instr) (m : BitVec 16), t.firing n sl = some g → sl ≠ trapSlot →
    (t.core n).fpxDue sl = none → g.uid = f.uid → g.stop = 0 → g.seq ≠ f.seq → g.hold ≠ .replay → g.badDep = none →
    u = afterIssue t n sl f i →
    m = (match i with
      | .call o => if f.enS o.h then 1 else 0
      | .brx o => if f.enS o.h = true ∧ o.d ≠ 0 then 1 else 0
      | .ret o => if f.enS o.h then -1 else 0
      | _ => 0) →
    (f.mode = 1 ∨ f.mode = 2 ∧ m = -1 ∧ f.depth = 0 → u.mem = t.mem ∧ ∃ h, u.firing n sl = some h ∧ h.stop = 1 ∧
      h.last = 0x19 ∧ h.trec.getD 1 0 = g.pc ∧ h.trec.getD 2 0 = g.pc ∧ h.s = g.s ∧ h.v = g.v) ∧
    (f.mode = 2 → ¬ (m = -1 ∧ f.depth = 0) → u = t.setFiring n sl { g with depth := f.depth + m }) ∧
    (f.mode = 0 → u = t)

/-- R369, R373: PREEMPT sends its mesh interrupt to a core of the package, where a REMAP of the core's die holds it back, and
waits for the status; REMAP is refused with
NOCORE, OK or BUSY at once, or begins. The order of those three is the model's choice (log entry 45); the status of a core of
another package is one this module does not determine (log entry 12). -/
def Obligations.PreemptForms : Prop :=
  (∀ (o : DABOps) (i : Instr) (mode : Nat) (s : State) (n sl g : Nat) (f : Firing), Issues s n sl f →
    privileged (s.core n) sl = true → f.enS o.h = true → g = (f.srcS o.a).toNat % 2 ^ 29 →
    (i, mode) ∈ [(.preemptDrain o, 0), (.preemptSwap o, 1), (.preemptRes o, 2)] →
    (coreExists s g = false → ∃ (h : Firing) (d : Dep), h = { f with deps := f.deps ++ [d] } ∧
      d.src = .val [(o.d.toNat, 5)] [] ∧ Gives i s n sl (h.retire false o.h .l96 .none)) ∧
    (coreExists s g = true → g / 4096 ≠ s.pkg.toNat → ∃ (t : State) (h : Firing) (d : Dep) (x : W64),
      exec i s = .next t ∧ t.mem = s.mem ∧ t.firing n sl = some (h.retire false o.h .l96 .none) ∧
      h = { f with deps := f.deps ++ [d] } ∧ d.src = .val [(o.d.toNat, x)] []) ∧
    (coreExists s g = true → g / 4096 = s.pkg.toNat → ∃ (h : Firing) (d : Dep) (q : MeshIrq),
      h = { f with deps := f.deps ++ [d] } ∧ d.src = .unit ∧ d.seq = f.seq ∧ q.mode = mode ∧ q.target = g % 4096 ∧
      q.arg = f.srcS o.b ∧ q.asid = (s.core n).asid ∧ q.core = n ∧ q.uid = f.uid ∧ q.seq = f.seq ∧ q.held = heldByRemap s g ∧
      exec i s = .next { s.setFiring n sl (h.retire false o.h .l96 .none) with meshIrqs := s.meshIrqs ++ [q] })) ∧
  (∀ (o : DABOps) (s : State) (n sl d site : Nat) (f : Firing), Issues s n sl f → privileged (s.core n) sl = true →
    f.enS o.h = true → d = (f.srcS o.a).toNat % 8 → site = (f.srcS o.b).toNat % 8 →
    (siteActive s (siteOfDie s d) = false ∨ siteActive s site = false → DepositsNow (.remap o) s n sl f o.h [(o.d.toNat, 5)]) ∧
    (siteActive s (siteOfDie s d) = true → siteActive s site = true →
      (siteOfDie s d = site → DepositsNow (.remap o) s n sl f o.h [(o.d.toNat, 0)]) ∧
      (siteOfDie s d ≠ site → (∃ c, c < 512 ∧ ((s.core (512 * d + c)).cstate ≠ 2 ∨ (s.core (512 * dieOfSite s site + c)).cstate ≠ 2)) →
        DepositsNow (.remap o) s n sl f o.h [(o.d.toNat, 3)]) ∧
      (siteOfDie s d ≠ site →
        (∀ c, c < 512 → (s.core (512 * d + c)).cstate = 2 ∧ (s.core (512 * dieOfSite s site + c)).cstate = 2) →
        ∃ t h p, exec (.remap o) s = .next t ∧ t.mem = s.mem ∧ t.dieMap = s.dieMap ∧
          t.remaps = s.remaps ++ [⟨d, site, n, f.uid, f.seq⟩] ∧ t.firing n sl = some (h.retire false o.h .l64 .none) ∧
          h = { f with deps := f.deps ++ [p] } ∧ p.src = .unit ∧ p.seq = f.seq)))

/-- R60, R347, Table 2-15: a decoded instruction marked (P) in a user firing raises PRIV, whatever its guard, unless the
chain or pipe makes it ILLEGAL first; in a privileged firing it does not. -/
def Obligations.Privilege : Prop :=
  ∀ (f : Firing) (chained : Bool) (i : Instr), isP i = true →
    decodeCheck false f chained i = some (if chainIllegal false f chained i (uses i) then cause 0x01 else cause 0x02) ∧
    decodeCheck true f chained i ≠ some (cause 0x02) ∧
    ∀ s n sl, Issues s n sl f → privileged (s.core n) sl = false → exec i s = .next (takeTrap s n sl (cause 0x02))

namespace Sys2Proof.Claims

/-- What a message, launch, ray, residency, engine or system form may write when it takes effect, beside queues and
deposits: s registers, v registers, k predicates, whether the flags, whether the scratchpad; and whether it may enter a
record in its core's spill queue. Forms that act on another firing are not among them. -/
def unitDest : Instr → Option (List Nat × List Nat × List Nat × Bool × Bool × Bool)
  | .send _ | .sendv _ | .recv _ | .gflush _ | .qflush _ | .htabGet _ | .launchWake _ | .launchOpen _ | .launchClose _
  | .cancel _ | .lvlread _ | .lvlreadReap _ | .vtset _ | .hzwait _ | .hzwaitSys _ | .rsend _ | .rhit _ | .rmiss _
  | .rloadRay _ | .rloadGeom _ | .rloadHit _ | .rstoreRay _ | .rstoreGeom _ | .rstoreHit _ | .cnlookDir _ | .cnsetDir _
  | .cnsetSlot _ | .thaw _ | .evict _ | .rpin _ | .rdone _ | .tlwait _ | .smp _ | .smpf _ | .sfence _ | .trap _ | .brk _
  | .preemptDrain _ | .preemptSwap _ | .preemptRes _ | .remap _ => some ([], [], [], false, false, false)
  | .gpost _ | .requeue _ => some ([], [], [], false, false, true)
  | .qpush _ | .rlog _ => some ([], [], [], false, true, false)
  | .htabSet _ => some ([], [], [], false, true, false)
  | .vtget o | .vtgetRep o | .hzread o | .hzreadSys o => some ([o.d.toNat], [], [], false, false, false)
  | .boxt o | .rreplay o => some ([o.d.toNat], [], [], false, false, false)
  | .trit o | .rreplayTri o =>
    some ([o.d.toNat, o.d.toNat + 1, o.ray.toNat + 4, o.ray.toNat + 8], [], [], false, false, false)
  | .rpush o | .rxform o => some ((List.range 14).map (o.d.toNat + ·), [], [], false, false, false)
  | .rpushBox o => some ((List.range 14).map (o.d.toNat + ·), [], [], false, false, false)
  | .rpop o => some (o.d.toNat :: (List.range 14).map (o.ray.toNat + ·), [], [], false, false, false)
  | .cnlookLoc o => some ([o.d.toNat, o.d.toNat + 1], [], [], false, false, false)
  | .bget o | .bput o => some ([o.d.toNat], [], [], false, false, false)
  | .bcopy o | .bfill o => some ([o.d.toNat], [], [], false, false, false)
  | .tlreadDone o | .tlreadIss o | .tlreadErr o => some ([o.d.toNat], [], [], false, false, false)
  | .rsr o => some (if o.num = 1 then [] else [o.d.toNat], if o.num = 1 then [o.d.toNat] else [], [], false, false, false)
  | .wsr _ => some ([], [], [], true, false, false)
  | .finspectRd o => some ([o.d.toNat], [], [o.k.toNat], false, false, false)
  | _ => none

end Sys2Proof.Claims

/-- R191, R194: a message, launch, ray, residency, engine or system form, where it takes no trap, changes no register,
predicate or flag but those it names, no byte of memory, no other core and no other firing of its own; so does one that
may spill a glade record (R260), where it spills none. -/
def Obligations.UnitFrame : Prop :=
  ∀ i sd vd kd fp sp hq s t n sl f g, unitDest i = some (sd, vd, kd, fp, sp, hq) → Issues s n sl f →
    exec i s = .next t → t.firing n sl = some g → g.stop = 0 →
    (hq = false ∨ (t.core n).spTail = (s.core n).spTail → (∀ a, t.getB a = s.getB a) ∧
      ∀ m, m ≠ n → t.core m = s.core m) ∧ (∀ sl', sl' ≠ sl → t.firing n sl' = s.firing n sl') ∧
    (sp = false → ∀ a, (t.core n).getB a = (s.core n).getB a) ∧
    (∀ r, r ∉ sd → g.getS r = f.getS r) ∧ (∀ r L, r ∉ vd → L < 32 → g.getV r L = f.getV r L) ∧
    (∀ k, k ∉ kd → k < 8 → g.getK k = f.getK k) ∧ g.q = f.q ∧ (fp = false → g.fpst = f.fpst) ∧ g.trec = f.trec ∧
    g.last = f.last ∧ g.stop = f.stop

/-! ## Events: messages -/

namespace Sys2Proof.Claims

/-- While the host has not enabled its queue, an entry of the device queue is held with its detail (R380, R381). -/
def Reports (s t : State) (kind site : Nat) (core : Option Nat) (detail : List Byte) : Prop :=
  capReady s 4 = false → s.host.held.length < 1024 → t.host.held = s.host.held ++ [hostEntry s kind site core detail]

/-- The detail of a DELIVERY entry (Table 18-4). -/
def deliveryDetail (header : List Byte) (reason extra : Nat) : List Byte := padTo 16 header ++ leN 8 reason ++ leN 8 extra

/-- A DELIVERY entry (Table 18-4) with its reason. -/
def Delivered (s t : State) (site : Nat) (core : Option Nat) (header : List Byte) (reason extra : Nat) : Prop :=
  Reports s t 4 site core (deliveryDetail header reason extra)

/-- Core c, with its image loaded and running, accepts message m for a handler that takes messages of its channel. -/
def Accepts (c : Core) (m : Msg) (e : HandlerEntry) : Prop :=
  c.placed = true ∧ c.loading = false ∧ c.cstate = 0 ∧ c.entry m.hid.toNat = some e ∧ e.glade = false ∧
  m.ch.toNat = e.src ∧ m.ord = e.ord

/-- A message of a channel lies in the core's spill queue. -/
def ChanSpilled (c : Core) (ch : BitVec 3) : Prop := ∃ q : Queued, Spilled.msg q ∈ c.spill ∧ q.msg.ch = ch

/-- An arriving message must go to the spill queue: its inbox is full, its channel has spilled, or the core is pre-empted
(R247, R372). -/
def MustSpill (c : Core) (m : Msg) : Prop :=
  (∃ e, Accepts c m e ∧ 32 < c.inboxFlits m.ch + flits m) ∨ c.cstate = 2 ∨ c.cstate = 3 ∨ ChanSpilled c m.ch

/-- Every valid but ill-formed entry that something is queued for has been reported (R249). -/
def EntriesMet (c : Core) : Prop := ∀ h ∈ c.busyHandlers, c.entryBad h = true → h ∈ c.metBad

/-- Core c runs handlers and forms firings. -/
def Forms (c : Core) : Prop := c.placed = true ∧ c.loading = false ∧ c.cstate = 0 ∧ c.swapping = false

/-- R253: the registers of a new firing hold one body: a scalar firing's from s1, a wave's two words a lane and register
pair. -/
def Holds (f : Firing) (e : HandlerEntry) (L : Nat) (body : List W64) : Prop :=
  (e.wave = false → ∀ w j, body[j]? = some w → f.getS (j + 1) = w) ∧
  (e.wave = true → ∀ w j, body[j]? = some w → 2 * j + 1 < e.nv →
    f.getV (2 * j) L = w.extractLsb' 0 32 ∧ f.getV (2 * j + 1) L = w.extractLsb' 32 32)

end Sys2Proof.Claims

/-- R246 to R248, R258, R260, R313, R372, R373, R386: a message leaves the send buffer oldest first, unless a REMAP holds it
or no link is up (log entry 5); it arrives after every earlier message of its sender and channel, into the inbox or its
glade's column, past a full inbox, behind a spilled message of its channel or at a pre-empted core into the spill queue, whose
bytes lie in its buffer (log entry 82), where that is full or absent it stays in the mesh and is reported, or, refused, it goes
into the host's queue; a spilled message returns oldest first. The entry for an ill-formed handler met first (no header, reason
3, apart from the message's own) is the model's choice (log entry 47). -/
def Obligations.MessageTransport : Prop :=
  (∀ (s : State) (n : Nat) (fl : Flight) (rest : List Flight), (s.core n).sendBuf = fl :: rest → (s.core n).sendvQ = [] →
    (s.remaps = [] → (fl.msg.dst.toNat / 4096 = s.pkg.toNat ∨ ∃ x ∈ s.host.lysState, x ≠ 0) →
      ∃ t, exec (.sendBufferDepart n) s = .next t ∧ (t.core n).sendBuf = rest ∧ t.mem = s.mem ∧
      (fl.msg.dst.toNat / 4096 = s.pkg.toNat → t.mesh = s.mesh ++ [fl] ∧ t.lyspor = s.lyspor) ∧
      (fl.msg.dst.toNat / 4096 ≠ s.pkg.toNat → t.mesh = s.mesh ∧ t.lyspor = s.lyspor ++ [fl])) ∧
    (∀ r ∈ s.remaps, fl.msg.dst.toNat / 4096 = s.pkg.toNat → dieOf (fl.msg.dst.toNat % 4096) = r.die ∨
      siteOfDie s (dieOf (fl.msg.dst.toNat % 4096)) = r.site → exec (.sendBufferDepart n) s = .next s) ∧
    (fl.msg.dst.toNat / 4096 ≠ s.pkg.toNat → (∀ x ∈ s.host.lysState, x = 0) → exec (.sendBufferDepart n) s = .next s)) ∧
  (∀ (s : State) (i n : Nat) (fl : Flight) (m : Msg) (c : Core), s.mesh[i]? = some fl → m = fl.msg →
    n = m.dst.toNat % 4096 → c = s.core n → m.ch ≠ 2 →
    ((∃ x ∈ s.mesh.take i, x.src = fl.src ∧ x.msg.dst = m.dst ∧ x.msg.ch = m.ch) →
      exec (.messageArrive (.mesh i)) s = .next s) ∧
    ((∀ x ∈ s.mesh.take i, ¬(x.src = fl.src ∧ x.msg.dst = m.dst ∧ x.msg.ch = m.ch)) →
      (∀ e, Accepts c m e → ¬ ChanSpilled c m.ch → c.inboxFlits m.ch + flits m ≤ 32 →
        ∃ t q, exec (.messageArrive (.mesh i)) s = .next t ∧
        (t.core n).inbox = c.inbox ++ [q] ∧ q.msg = m ∧ q.for_ = c.giveTo m ∧ t.mesh = listRemove s.mesh i ∧
        t.mem = s.mem) ∧
      (∀ e l, c.placed = true → c.loading = false → c.cstate = 0 → c.entry m.hid.toNat = some e → e.glade = true →
        refusal c m = none → ¬ ChanSpilled c m.ch → c.filterWait = [] → c.gladeSpilled e.src (some l) = false →
        l = (m.body.getD 0 0).toNat % 32 → l < (c.glade e.src).cols.length →
        ((c.glade e.src).col l).length < (c.glade e.src).depth → m.body.length = 6 →
        ∃ t r, exec (.messageArrive (.mesh i)) s = .next t ∧ (t.core n).inbox = c.inbox ∧
          ((t.core n).glade e.src).col l = (c.glade e.src).col l ++ [r] ∧ r.ltag = m.ltag ∧ r.body = m.body ∧
          t.mesh = listRemove s.mesh i ∧ t.mem = s.mem) ∧
      (MustSpill c m → c.spillRoom (64 * flits m) = true → ∃ t q, exec (.messageArrive (.mesh i)) s = .next t ∧
          (t.core n).inbox = c.inbox ∧ (t.core n).spill = c.spill ++ [.msg q] ∧ q.msg = m ∧ t.mesh = listRemove s.mesh i ∧
          ∀ j b, (msgFlits m)[j]? = some b → t.getB (spillKey s c (c.spTail + j)) = b) ∧
      (MustSpill c m → c.spillRoom (64 * flits m) = false →
        (c.spillSaid = true → exec (.messageArrive (.mesh i)) s = .next s) ∧
        (c.spillSaid = false → ∃ t, exec (.messageArrive (.mesh i)) s = .next t ∧ (t.core n).inbox = c.inbox ∧
          (t.core n).spill = c.spill ∧ t.mesh = s.mesh ∧ t.mem = s.mem ∧ (t.core n).spillSaid = true ∧
          Reports s t 5 (siteOf s n) (some n) [if c.spqsz = 0 then 0 else m.ch.setWidth 8])) ∧
      (∀ r, c.placed = true → c.loading = false → c.cstate = 0 → refusal c m = some r → ¬ ChanSpilled c m.ch →
        (c.entryBad m.hid.toNat = true → m.hid.toNat ∈ c.metBad) →
        ∃ t, exec (.messageArrive (.mesh i)) s = .next t ∧ (t.core n).inbox = c.inbox ∧ t.mesh = listRemove s.mesh i ∧
          Delivered s t (siteOf s n) (some n) (msgHeader m) r 0) ∧
      (c.loading = false → c.cstate = 0 → c.entryBad m.hid.toNat = true → m.hid.toNat ∉ c.metBad → ¬ ChanSpilled c m.ch →
        capReady s 4 = false → s.host.held.length + 1 < 1024 →
        ∃ t, exec (.messageArrive (.mesh i)) s = .next t ∧ (t.core n).inbox = c.inbox ∧ t.mesh = listRemove s.mesh i ∧
          m.hid.toNat ∈ (t.core n).metBad ∧ t.host.held = s.host.held ++
            [hostEntry s 4 (siteOf s n) (some n) (deliveryDetail [] 3 0),
             hostEntry s 4 (siteOf s n) (some n) (deliveryDetail (msgHeader m) 3 0)]))) ∧
  (∀ (s : State) (i : Nat) (fl : Flight), s.mesh[i]? = some fl → fl.msg.ch = 2 →
    (s.core (fl.msg.dst.toNat % 4096)).waitSaid = true → exec (.messageArrive (.mesh i)) s = .next s) ∧
  (∀ (s : State) (n : Nat) (m : Queued) (e : HandlerEntry) (rest : List Spilled), (s.core n).spill = .msg m :: rest →
    Accepts (s.core n) m.msg e → (s.core n).inboxFlits m.msg.ch + flits m.msg ≤ 32 →
    ∃ t q, exec (.spillReturn n (.chan m.msg.ch.toNat)) s = .next t ∧ (t.core n).inbox = (s.core n).inbox ++ [q] ∧
      q.arr = m.arr ∧ q.msg = m.msg ∧ q.for_ = (s.core n).giveTo m.msg ∧ (t.core n).spill = rest ∧ t.mem = s.mem) ∧
  (∀ (s : State) (n g l : Nat) (r : GRec) (x : Glade) (rest : List Spilled), (s.core n).spill = .grec g l r :: rest →
    (s.core n).cstate = 0 → x = (s.core n).glade g → g < (s.core n).glades.length → l < x.cols.length →
    (x.col l).length < x.depth → ∃ t, exec (.spillReturn n (.glade g l)) s = .next t ∧
      ((t.core n).glade g).col l = x.col l ++ [r] ∧ (t.core n).spill = rest ∧ t.mem = s.mem)

namespace Sys2Proof.Claims

/-- Nothing but its messages or records keeps handler h of core c, with entry e, from being a candidate (R251, R281). -/
def MayRun (c : Core) (h : Nat) (e : HandlerEntry) : Prop :=
  h < 256 ∧ c.entry h = some e ∧ c.filterWait = [] ∧
  (e.ser = true → ∀ x ∈ c.live, x.1 ≠ trapSlot → x.2.hid.toNat ≠ h)

/-- A queued message of an unordered handler is held for a firing blocked in RECV: it came to one, or it is among the oldest
that are left for those that none came to (R251, R259). -/
def Held (c : Core) (m : Queued) : Prop :=
  (∃ u, c.keptFor m = some u) ∨
  (c.inbox.filter fun x => decide (x.msg.hid = m.msg.hid ∧ x.msg.ltag = m.msg.ltag ∧ c.keptFor x = none ∧ x.arr < m.arr)).length <
    ((c.blockedRecv m.msg.hid m.msg.ltag).filter fun f => decide (∀ x ∈ c.inbox, c.keptFor x ≠ some f.uid)).length

/-- Head record r of column l of a glade. -/
def HeadAt (g : Glade) (l : Nat) (r : GRec) : Prop := l < 32 ∧ (g.col l).head? = some r

/-- The condition of R263. -/
def Formation (g : Glade) : Prop :=
  (∃ l r, HeadAt g l r) ∧ ((∀ l, l < 32 → g.col l ≠ []) ∨
    g.thr ≤ ((List.range 32).filter fun l => !(g.col l).isEmpty).length ∧ g.expired = true ∨ g.flush = true)

end Sys2Proof.Claims

/-- R251, R259, R263, R281, R284: when a handler is a candidate, and what it then takes: an unordered one k messages of the launch
of its oldest message that no blocked RECV holds; an ordered one the k lowest stamps, all at or below the horizon, with none
lower undelivered; a glade's wave, in R263's condition, the heads of the oldest record's launch; a glade's thread the oldest
record. A serial handler with a firing on the core is none, and neither is any while an entry waits at a full cancel filter. -/
def Sys2Proof.Claims.Candidates : Prop :=
  (∀ (c : Core) (h : Nat) (y : Cand), c.candOf h = some y → h < 256 → y.h = h ∧ MayRun c h y.e) ∧
  (∀ (c : Core) (h : Nat) (e : HandlerEntry), MayRun c h e → e.glade = false → e.ord = false →
    (c.inbox.map (·.arr)).Nodup → ((∃ y, c.candOf h = some y) ↔ ∃ m ∈ c.inbox, m.msg.hid.toNat = h ∧ ¬ Held c m ∧
      (∀ x ∈ c.inbox, x.msg.hid.toNat = h → x.arr < m.arr → Held c x) ∧ ∃ ms : List Queued, ms.Sublist c.inbox ∧ ms.length = e.k ∧
      ∀ x ∈ ms, x.msg.hid.toNat = h ∧ x.msg.ltag = m.msg.ltag ∧ ¬ Held c x) ∧
    ∀ y ms, c.candOf h = some y → y.take = .msgs ms → ms.length = e.k ∧ (∀ m ∈ ms, m ∈ c.inbox ∧ m.msg.hid.toNat = h ∧ ¬ Held c m) ∧
      ∀ m, ms.head? = some m → y.arr = m.arr ∧ (∀ x ∈ ms, x.msg.ltag = m.msg.ltag) ∧
        ∀ x ∈ c.inbox, x.msg.hid.toNat = h → x.arr < m.arr → Held c x) ∧
  (∀ (c : Core) (h : Nat) (e : HandlerEntry), MayRun c h e → e.glade = false → e.ord = true →
    (∀ y ms, c.candOf h = some y → y.take = .msgs ms → ms.length = e.k ∧ ∀ m ∈ ms, m ∈ c.inbox ∧ m.msg.hid.toNat = h ∧
      m.msg.stamp.toNat ≤ c.hz.toNat ∧ ∀ x ∈ c.undelivered (BitVec.ofNat 8 h), x.msg.stamp.toNat < m.msg.stamp.toNat → x ∈ ms) ∧
    (∀ (ms : List Queued) (tag : W32), 1 ≤ e.k → ms.length = e.k → (∀ tag', c.blockedRecv (BitVec.ofNat 8 h) tag' = []) →
      ((c.undelivered (BitVec.ofNat 8 h)).map (·.arr)).Nodup →
      (∀ m ∈ ms, m ∈ c.inbox ∧ m ∈ c.undelivered (BitVec.ofNat 8 h) ∧ m.msg.stamp.toNat ≤ c.hz.toNat ∧ m.msg.ltag = tag) →
      ms.Pairwise (fun m x => m.msg.stamp.toNat < x.msg.stamp.toNat ∨ m.msg.stamp = x.msg.stamp ∧ m.arr < x.arr) →
      (∀ x ∈ c.undelivered (BitVec.ofNat 8 h), x ∈ ms ∨ ∀ m ∈ ms, m.msg.stamp.toNat < x.msg.stamp.toNat ∨
        m.msg.stamp = x.msg.stamp ∧ m.arr < x.arr) →
      ∃ y, c.candOf h = some y ∧ y.take = .msgs ms)) ∧
  (∀ (c : Core) (h : Nat) (e : HandlerEntry) (g : Glade), MayRun c h e → e.glade = true → c.gladeOk e.src = true →
    g = c.glade e.src → g.cols.length = 32 →
    ((∃ y, c.candOf h = some y) ↔ if e.wave = true then Formation g else ∃ l r, HeadAt g l r) ∧
    ∀ y, c.candOf h = some y → ∃ rs l r, y.take = .recs e.src rs ∧ HeadAt g l r ∧
      (∀ l' r', HeadAt g l' r' → r.arr ≤ r'.arr) ∧
      (e.wave = false → rs = [(l, r)] ∧ y.arr = r.arr) ∧
      (e.wave = true → ∀ L x, (L, x) ∈ rs ↔ HeadAt g L x ∧ x.ltag = r.ltag))

/-- R249, R251 to R253, R255, R263, R281, R371: firing creation takes the first candidate in the order of R251, the lowest
free slot and the lowest free workspace that fits; its registers hold the bodies it consumes, messages of the inbox or the
heads of a glade's columns. An ill-formed entry met first is reported (log entry 47), all that cancelled launches have
queued is discarded and counted off at once (log entry 61), and a core that is not loaded, pre-empted or being swapped forms none. A glade's timer runs out;
a firing whose instruction could issue ages, and one that the scoreboard, a unit or its instruction holds does not. The arrival
of a glade wave without a record in column 0 is log entry 89's. -/
def Sys2Proof.Claims.FiringForms : Prop :=
  (∀ (c : Core) (x y : Cand) (h : Nat), c.firstCand = some x → h < 256 → c.candOf h = some y →
    y.e.pri < x.e.pri ∨ (y.e.pri = x.e.pri ∧ (x.arr < y.arr ∨ (x.arr = y.arr ∧ x.h ≤ y.h)))) ∧
  (∀ (c : Core) (len o : Nat), c.wsAlloc len = some o → o % 1024 = 0 ∧ c.wsLo ≤ o ∧ o + len ≤ c.wsHi ∧
    (∀ e ∈ c.live, e.2.wp + wsBytes e.2.nv ≤ o ∨ o + len ≤ e.2.wp) ∧
    ∀ p, p % 1024 = 0 → p < o → c.wsLo ≤ p → p + len ≤ c.wsHi → ∃ t ∈ c.wsTaken, p < t.2 ∧ t.1 < p + len) ∧
  (∀ (s : State) (n : Nat) (c : Core) (x : Cand) (sl wp : Nat), c = s.core n → Forms c → EntriesMet c →
    c.needsPurge = false → c.firstCand = some x → c.freeSlot = some sl → c.wsAlloc (wsBytes x.e.nv) = some wp →
    ∃ t f, exec (.firingCreation n) s = .next t ∧ t.mem = s.mem ∧ t.firing n sl = some f ∧ sl < 64 ∧ c.firing sl = none ∧
      (∀ sl', sl' < sl → c.firing sl' ≠ none) ∧
      f.pc = x.e.pc ∧ f.wp = wp ∧ f.hid = BitVec.ofNat 8 x.h ∧ f.wave = x.e.wave ∧ f.ns = x.e.ns ∧ f.nv = x.e.nv ∧
      f.pri = x.e.pri ∧ f.ltag = x.take.ltag ∧ f.stop = 0 ∧ f.fpst = 0 ∧ f.chain = 0 ∧ f.sq = [] ∧ f.deps = [] ∧
      (∀ ms, x.take = .msgs ms → f.taken = ms.length ∧
        (∀ q, q ∈ (t.core n).inbox ↔ q ∈ c.inbox ∧ ∀ m ∈ ms, m.arr ≠ q.arr) ∧
        (x.e.wave = true → ∀ L, L < 32 → f.path.mask.getLsbD L = decide (L < ms.length)) ∧
        ∀ m L, (x.e.wave = false → L = 0) → L < 32 → ms[L]? = some m → Holds f x.e L m.msg.body) ∧
      (∀ g rs, x.take = .recs g rs → (c.glade g).cols.length ≤ 32 → f.taken = rs.length ∧ (t.core n).inbox = c.inbox ∧
        (∀ L r, (L, r) ∈ rs → ((c.glade g).col L).head? = some r ∧ Holds f x.e L r.body) ∧
        (x.e.wave = true → ∀ L, L < 32 → (f.path.mask.getLsbD L = true ↔ ∃ r, (L, r) ∈ rs)) ∧
        ∀ L, ((t.core n).glade g).col L =
          if ∃ r ∈ rs, r.1 = L then ((c.glade g).col L).drop 1 else (c.glade g).col L)) ∧
  (∀ (s : State) (n : Nat), ¬ Forms (s.core n) → exec (.firingCreation n) s = .next s) ∧
  (∀ (s : State) (n h : Nat), Forms (s.core n) → h ∈ (s.core n).busyHandlers → (s.core n).entryBad h = true →
    h ∉ (s.core n).metBad →
    (∀ h' ∈ (s.core n).busyHandlers, (s.core n).entryBad h' = true → h' ∈ (s.core n).metBad ∨ h' = h) →
    ∃ t, exec (.firingCreation n) s = .next t ∧ h ∈ (t.core n).metBad ∧ t.mem = s.mem ∧
      (t.core n).firings = (s.core n).firings ∧ Delivered s t (siteOf s n) (some n) [] 3 0) ∧
  (∀ (s : State) (n : Nat) (c : Core), c = s.core n → Forms c → EntriesMet c → c.needsPurge = true →
    ∃ t, exec (.firingCreation n) s = .next t ∧ t.mem = s.mem ∧ (t.core n).firings = c.firings ∧
      (∀ q, q ∈ (t.core n).inbox ↔ q ∈ c.inbox ∧ c.filtered q.msg.ltag = false) ∧
      (∀ g L, ((t.core n).glade g).col L = ((c.glade g).col L).filter fun r => !c.filtered r.ltag) ∧
      (∀ m, c.inbox = [m] → c.filterWait = [] → c.glades = [] →
        t = countDiscard (s.setCore n { c with inbox := [] }) n m.msg.ltag)) ∧
  (∀ (s : State) (n g : Nat) (x : Glade), g < 16 → g < (s.core n).glades.length → x = (s.core n).glade g →
    x.running = true → x.expired = false → (∃ l, x.col l ≠ []) →
    exec (.gladeTimerExpiry n g) s = .next (s.setCore n ((s.core n).setGlade g { x with expired := true }))) ∧
  (∀ (s u : State) (n sl : Nat) (f : Firing) (i : Instr) (l : Len), s.firing n sl = some f →
    mayLook (s.core n) sl f = true → f.stop = 0 → f.rel = none → f.badDep = none → look s n sl f = .go u i l →
    (scoreReady (u.core n) sl f i = true → fpxReady (u.core n) sl f = true → unitReady u n f i = true → trial i = none →
      exec (.priorityAgeing n sl) s =
        .next (if f.pri + f.boost < 7 then s.setFiring n sl { f with boost := f.boost + 1 } else s)) ∧
    ((scoreReady (u.core n) sl f i = false ∨ fpxReady (u.core n) sl f = false ∨ unitReady u n f i = false ∨
      ∃ g t, trial i = some g ∧ g { u with who := some (n, sl) } = .next t ∧ issued t n sl f = false) →
      exec (.priorityAgeing n sl) s = .next s))

/-! ## Events: memory -/

namespace Sys2Proof.Claims

/-- Firing f has been stopped by DATAERR (R212): the record of Table 17-2 names deposit d's instruction, the resume PC is
the firing's, and the address is a; scalar registers and memory are as before. -/
def DataErr (s t : State) (n sl : Nat) (f : Firing) (d : Dep) (a : Nat) : Prop :=
  t.mem = s.mem ∧ ∃ g, t.firing n sl = some g ∧ g.stop = 1 ∧ g.last = 0x0E ∧ g.s = f.s ∧ (g.trec.getD 0 0).getLsbD 8 = false ∧
    g.trec.getD 1 0 = d.pc ∧ g.trec.getD 2 0 = f.pc ∧ g.trec.getD 3 0 = BitVec.ofNat 64 a

/-- Nothing but the trap at hand stops the firing of a slot that is not the trap handler's (R353, R355). -/
def Traps (s : State) (n sl : Nat) (f : Firing) : Prop := f.stop = 0 ∧ sl ≠ trapSlot ∧ (s.core n).fpxDue sl = none

/-- An access of another package has a link (R386). -/
def Reaches (s : State) (key : Nat) : Prop := keyPkg key = s.pkg.toNat ∨ linkUp s = true

/-- A core serves requests to its scratchpad now (R202, R281). -/
def Serves (c : Core) : Prop := c.cstate ≠ 2 ∧ c.cstate ≠ 3 ∧ c.filterWait = []

/-- A machine-check record (Table 18-4) of core n names a unit at a site and an address; its syndrome is free. -/
def MachineCheck (s t : State) (n site a unit : Nat) : Prop :=
  ∃ y : W64, Reports s t 10 site (some n) (leN 8 a ++ leN 8 unit ++ bytesLE 8 y)

/-- The bytes an access of core n sees with no store of its firing before it (R203, R216, R217): its L1 line, home where
its die is the home or the page is uncached, else its die's copy. -/
def Seen (s : State) (n : Nat) (a : Acc) (bs : List Byte) : Prop :=
  (a.unc = false ∧ ∃ ln, (s.core n).l1For a.va a.pa = some ln ∧ bs = (ln.data.drop (a.va % 128)).take a.size) ∨
  ((a.unc = true ∨ (s.core n).l1For a.va a.pa = none) ∧
    ((keyPkg a.pa = s.pkg.toNat ∧ paDev (keyPa a.pa) = false ∧ (a.unc = true ∨ homeSite s a.pa = siteOf s n) ∧
        bs = s.getBs a.pa a.size) ∨
     (a.unc = false ∧ homeSite s a.pa ≠ siteOf s n ∧ ∃ y, s.copy (a.pa / 128) (siteOf s n) = some y ∧
        y.has (a.pa % 128) a.size = true ∧ bs = (y.data.drop (a.pa % 128)).take a.size)))

/-- The bytes of an access with no store of its firing before it lie in L1, or in the copy of its die (R203, R216). -/
def InL1 (s : State) (n : Nat) (a : Acc) : Prop := a.unc = false ∧ (s.core n).l1For a.va a.pa ≠ none
def InCopy (s : State) (n : Nat) (a : Acc) : Prop :=
  a.unc = false ∧ homeSite s a.pa ≠ siteOf s n ∧ ∃ y, s.copy (a.pa / 128) (siteOf s n) = some y ∧ y.has (a.pa % 128) a.size = true

/-- An access is served now: it asks nothing of its home, or neither a port nor a link keeps it (R385, R386). -/
def Served (s : State) (n : Nat) (a : Acc) : Prop :=
  InL1 s n a ∨ InCopy s n a ∨ portDown s a.pa = false ∧ Reaches s a.pa

/-- The record of an error met at the home of a key: of its L2, or of the memory behind that, HBM or a CXL port; which of the two
is free, and the host window is no unit of the table. -/
def HomeCheck (s t : State) (n key : Nat) : Prop :=
  MachineCheck s t n (errSite s n key) (keyPa key) 2 ∨
  paHost (keyPa key) = false ∧ MachineCheck s t n (errSite s n key) (keyPa key) (if paCxl (keyPa key) then 6 else 3)

/-- A write-back of a line can go home now (R385, R386; log entry 78). -/
def Homeward (s : State) (line : Nat) : Prop := portDown s (line * 128) = false ∧ Reaches s (line * 128)

/-- The bytes of a copy's line at home once its dirty bytes are, and no other line's (R217). -/
def Home (s t : State) (line : Nat) (y : L2Copy) : Prop :=
  (∀ i, i < 128 → t.getB (line * 128 + i) = if y.dirty.getLsbD i then y.data.getD i 0 else s.getB (line * 128 + i)) ∧
  ∀ a, a / 128 ≠ line → t.getB a = s.getB a

/-- The status or value of the one register of a unit's deposit is there. -/
def Answers (s t : State) (n uid seq : Nat) (w : W64) : Prop :=
  ∀ sl f d r, (s.core n).slotOf uid = some sl → s.firing n sl = some f → f.deps.find? (fun d => d.seq == seq) = some d →
    d.sregs = [r] → t.firing n sl = some (f.answer seq [(r, w)] [])

/-- The table entry of a walk that names the next table (Table 10-5). -/
def IsTable (s : State) (w : W64) : Prop :=
  pteV w = true ∧ pteT w = true ∧ w.toNat / 2 ^ 12 % 16 = 0 ∧ ptePkg w = s.pkg.toNat

end Sys2Proof.Claims

/-- R194, R195, R202, R212, R237, R240, R296, R374, R385: deposits land in their registers with the bytes the load sees, its
firing's own stores over them, the youngest first; data in error, a request whose reply does not come and a link that is down
raise DATAERR, and MCHECK names the unit: 0 L1, 1 the scratchpad, 2 L2 or 3 and 6 the memory behind it; a stopped firing meets
it when it runs again. -/
def Sys2Proof.Claims.DepositEvents : Prop :=
  (∀ (s : State) (n sl i : Nat) (f : Firing) (d : Dep) (xs : List (Nat × W64)) (vs : List (Nat × W32)),
    s.firing n sl = some f → f.deps[i]? = some d → d.src = .val xs vs →
    (∀ e ∈ f.deps.take i, (∀ r ∈ d.sregs, r ∉ e.sregs) ∧ ∀ r ∈ d.vregs, r ∉ e.vregs) → (∀ e ∈ f.sq, e.seq ≠ d.seq) →
    exec (.depositLand n sl i) s =
      .next (s.setFiring n sl { (f.putS xs).putV vs with deps := listRemove f.deps i })) ∧
  (∀ (s : State) (n sl : Nat) (f : Firing) (d : Dep) (a : Acc) (bs : List Byte), s.firing n sl = some f → f.deps = [d] →
    f.sq = [] → d.src = .load [a] → a.got = none → 0 < a.size →
    (Served s n a → Seen s n a bs → ∃ t, exec (.depositLand n sl 0) s = .next t ∧ t.mem = s.mem ∧
      t.firing n sl = some { (f.putS (depWords d.dst a.lane bs).1).putV (depWords d.dst a.lane bs).2 with deps := [] }) ∧
    (portDown s a.pa = true → ¬ InL1 s n a → ¬ InCopy s n a → Traps s n sl f → ∃ t, exec (.depositLand n sl 0) s = .next t ∧
      DataErr s t n sl f d (keyPa a.pa)) ∧
    (portDown s a.pa = false → ¬ Served s n a → exec (.depositLand n sl 0) s = .next s) ∧
    (paDev (keyPa a.pa) = false → Served s n a → Traps s n sl f →
      ∃ t, exec (.dataerrDelivery n sl 0) s = .next t ∧ DataErr s t n sl f d (keyPa a.pa) ∧
        (InL1 s n a → MachineCheck s t n (siteOf s n) (keyPa a.pa) 0) ∧
        (¬ InL1 s n a → InCopy s n a → MachineCheck s t n (siteOf s n) (keyPa a.pa) 2) ∧
        (¬ InL1 s n a → ¬ InCopy s n a → HomeCheck s t n a.pa)) ∧
    (paHost (keyPa a.pa) = true → ¬ InL1 s n a → ¬ InCopy s n a → Traps s n sl f →
      ∃ t, exec (.hostPortCompletionTimeout n sl 0) s = .next t ∧ DataErr s t n sl f d (keyPa a.pa)) ∧
    (InL1 s n a ∨ InCopy s n a → exec (.hostPortCompletionTimeout n sl 0) s = .next s)) ∧
  (∀ (s : State) (n sl : Nat) (f : Firing) (d : Dep) (e : Ent) (a : Nat), s.firing n sl = some f → f.deps = [d] →
    f.sq = [e] → f.loss = false → sl < trapSlot → e.seq = d.seq → d.src = .unit → e.reads = true → e.homeAddr = some a →
    Reaches s a → Traps s n sl f →
    (∃ t, exec (.dataerrDelivery n sl 0) s = .next t ∧ DataErr s t n sl f d (keyPa a) ∧ HomeCheck s t n a) ∧
    (portDown s a = true → ∃ t, exec (.atomicAtHome n sl 0) s = .next t ∧ DataErr s t n sl f d (keyPa a)) ∧
    (paHost (keyPa a) = true → ∃ t, exec (.hostPortCompletionTimeout n sl 1) s = .next t ∧ DataErr s t n sl f d (keyPa a))) ∧
  (∀ (f : Firing) (q1 q2 : List Ent) (e : Ent) (g u : Bool) (cs : List Cell) (c : Cell) (seq : Nat), f.sq = q1 ++ e :: q2 →
    e.seq < seq → e.op = .store g u cs → c ∈ cs → (∀ x ∈ cs, x.va = c.va → x = c) →
    (∀ x ∈ q2, x.seq < seq → ∀ y ∈ x.cells, y.va ≠ c.va) → forwardByte f seq c.va = some c.b) ∧
  (∀ (s : State) (n sl i : Nat) (f : Firing) (d : Dep), s.firing n sl = some f → f.deps[i]? = some d → sl ≠ trapSlot →
    (s.core n).fpxDue sl = none →
    (∀ a, d.src = .bad a → (f.stop = 0 → ∃ t, exec (.dataerrDelivery n sl i) s = .next t ∧ DataErr s t n sl f d a) ∧
      (f.stop ≠ 0 → exec (.dataerrDelivery n sl i) s = .next s)) ∧
    (∀ off xs vs, d.src = .val xs vs → d.spad = some off → f.sq = [] → f.stop = 0 →
      ∃ t, exec (.dataerrDelivery n sl i) s = .next t ∧ DataErr s t n sl f d off ∧ MachineCheck s t n (siteOf s n) off 1) ∧
    (∀ m off size, d.src = .ldx (gcaOf s m) off size → m < 4096 →
      (f.stop = 0 → olderRemote f d.seq (gcaOf s m) = false → Serves (s.core m) →
        ∃ t, exec (.dataerrDelivery n sl i) s = .next t ∧ DataErr s t n sl f d off ∧ MachineCheck s t n (siteOf s m) off 1) ∧
      (olderRemote f d.seq (gcaOf s m) = true ∨ ¬ Serves (s.core m) → exec (.dataerrDelivery n sl i) s = .next s)) ∧
    (∀ g off size, d.src = .ldx g off size → f.stop = 0 → ∃ t, exec (.ldxReplyTimeout n sl i) s = .next t ∧
      DataErr s t n sl f d off))

/-- R204, R206, R207, R385: a page walk reads one entry a level from the ASID's table and ends in a leaf, or in XLATE with the
level; a miss enters the die's pool of walkers, where one walk serves every firing that waits for its page; its leaf serves the
held instruction and, unless it faults, the translation cache. Which misses are of one page is log entry 94. -/
def Sys2Proof.Claims.PageWalks : Prop :=
  (∀ (s : State) (asid : BitVec 16) (va : Nat) (e w3 w2 w1 w0 : W64),
    e = s.getW (memKey s.pkg.toNat (s.asidBase + 8 * asid.toNat)) →
    (portDown s (memKey s.pkg.toNat (s.asidBase + 8 * asid.toNat)) = true →
      walk s asid va = .down (memKey s.pkg.toNat (s.asidBase + 8 * asid.toNat))) ∧
    ((∀ k ∈ walkKeys s asid va, portDown s k = false) → e.getLsbD 0 = false → walk s asid va = .fault 3) ∧
    ((∀ k ∈ walkKeys s asid va, portDown s k = false) → e.getLsbD 0 = true → e.toNat / 2 % 2 ^ 15 = 0 →
    e.toNat / 2 ^ 47 = 0 → w3 = s.getW (memKey s.pkg.toNat (ptePa e + 8 * (va / 2 ^ 43 % 2 ^ 13))) →
    w2 = s.getW (memKey s.pkg.toNat (ptePa w3 + 8 * (va / 2 ^ 30 % 2 ^ 13))) →
    w1 = s.getW (memKey s.pkg.toNat (ptePa w2 + 8 * (va / 2 ^ 21 % 2 ^ 9))) →
    w0 = s.getW (memKey s.pkg.toNat (ptePa w1 + 8 * (va / 2 ^ 16 % 2 ^ 5))) →
    (pteV w3 = false → walk s asid va = .fault 3) ∧
    (IsTable s w3 → pteV w2 = false → walk s asid va = .fault 2) ∧
    (IsTable s w3 → pteV w2 = true → pteT w2 = false → leafOk s 2 w2 = true →
      walk s asid va = .leaf ⟨va / 2 ^ 30 * 2 ^ 30, 2, asid, w2⟩) ∧
    (IsTable s w3 → IsTable s w2 → pteV w1 = true → pteT w1 = false → leafOk s 1 w1 = true →
      walk s asid va = .leaf ⟨va / 2 ^ 21 * 2 ^ 21, 1, asid, w1⟩) ∧
    (IsTable s w3 → IsTable s w2 → IsTable s w1 → pteV w0 = true → pteT w0 = true → walk s asid va = .fault 0) ∧
    (IsTable s w3 → IsTable s w2 → IsTable s w1 → pteV w0 = true → pteT w0 = false → leafOk s 0 w0 = true →
      walk s asid va = .leaf ⟨va / 2 ^ 16 * 2 ^ 16, 0, asid, w0⟩ ∧
      (⟨va / 2 ^ 16 * 2 ^ 16, 0, asid, w0⟩ : Leaf).key va = ptePkg w0 * 2 ^ 47 + ptePa w0 + va % 2 ^ 16))) ∧
  (∀ (s : State) (n sl va : Nat) (f : Firing) (k : Access) (lane : Option Nat), s.firing n sl = some f →
    f.hold = .walk va k lane →
    (s.poolWalk (siteOf s n) (s.core n).asid va = none → ∃ t, exec (.pageWalkDone n sl) s = .next t ∧
      t.walks = s.walks ++ [{ site := siteOf s n, asid := (s.core n).asid, page := va / 2 ^ 16 }] ∧
      t.firing n sl = some f ∧ t.mem = s.mem) ∧
    (∀ w, s.poolWalk (siteOf s n) (s.core n).asid va = some w → w.res = none → s.walking w = false →
      exec (.pageWalkDone n sl) s = .next s) ∧
    (∀ w r, s.poolWalk (siteOf s n) (s.core n).asid va = some w →
      w.res = some r ∨ (w.res = none ∧ s.walking w = true ∧ r = walk s (s.core n).asid va) →
      (∀ lv, r = .fault lv → ∃ u, u = { s with walks := u.walks } ∧ exec (.pageWalkDone n sl) s =
        .next (takeTrap u n sl (causeAt 0x0A k (BitVec.ofNat 64 va) lane lv)).pruneWalks) ∧
      (∀ key, r = .down key → ∃ u, u = { s with walks := u.walks } ∧ exec (.pageWalkDone n sl) s =
        .next (takeTrap u n sl (dataerr (keyPa key))).pruneWalks) ∧
      (∀ l, r = .leaf l → ∃ t, exec (.pageWalkDone n sl) s = .next t ∧ t.mem = s.mem ∧
        t.firing n sl = some { f with hold := .none, xl := f.xl ++ [l] } ∧
        (permOk (privileged (s.core n) sl) k l.pte (keyPa (l.key va)) = true → l ∈ (t.core n).tlb) ∧
        (permOk (privileged (s.core n) sl) k l.pte (keyPa (l.key va)) = false → (t.core n).tlb = (s.core n).tlb)) ∧
      ∀ t w', exec (.pageWalkDone n sl) s = .next t → t.poolWalk (siteOf s n) (s.core n).asid va = some w' →
        w'.res = some r))

/-- R214, R215, R217 to R219, R226, R232, R237: the store queue's oldest entry at its point. A store reaches home, or the copy of
the issuing die, with exactly its bytes; an atomic acts at its home and its old value is deposited; a line written back by a
cross-die release or an L2WB entry, or evicted, puts its dirty bytes home, and no other line is written back; a lost entry is
recorded and not applied where the fabric did not, and what had not been sent by then stays. That a write-back waits for its
line's CXL port is log entry 78, and which entries count as sent is log entry 31: both are the model's choice. -/
def Sys2Proof.Claims.StoreEvents : Prop :=
  (∀ (s : State) (n sl : Nat) (f : Firing) (e : Ent) (g u : Bool) (cs : List Cell), s.firing n sl = some f → f.sq = [e] →
    f.wbq = [] → f.deps = [] → f.loss = false → sl ≤ trapSlot → e.op = .store g u cs →
    (∀ c ∈ cs, portDown s c.pa = false ∧ Reaches s c.pa ∧ ¬(keyPkg c.pa = s.pkg.toNat ∧ paDev (keyPa c.pa) = true)) →
    (∀ c ∈ cs, ∀ d ∈ cs, c.pa = d.pa → c.b = d.b) →
    ((g || u) = true → ∃ t, exec (.storeVisible n sl 0) s = .next t ∧ t.firing n sl = some { f with sq := [] } ∧
      (∀ c ∈ cs, t.getB c.pa = c.b) ∧ ∀ a, (∀ c ∈ cs, c.pa / 128 ≠ a / 128) → t.getB a = s.getB a) ∧
    ((g || u) = false → (∀ c ∈ cs, homeSite s c.pa = siteOf s n) →
      ∃ t, exec (.storeVisible n sl 0) s = .next t ∧ t.firing n sl = some { f with sq := [] } ∧ t.l2 = s.l2 ∧
      (∀ c ∈ cs, t.getB c.pa = c.b) ∧ ∀ a, (∀ c ∈ cs, c.pa ≠ a) → t.getB a = s.getB a) ∧
    ((g || u) = false → (∀ c ∈ cs, homeSite s c.pa ≠ siteOf s n ∧ hasRoom s (c.pa / 128) (siteOf s n) = true) →
      (∀ c ∈ cs, ∀ d ∈ cs, c.pa / 128 = d.pa / 128) →
      (∀ l y, s.copy l (siteOf s n) = some y → y.data.length = 128) →
      ∃ t, exec (.storeVisible n sl 0) s = .next t ∧ t.firing n sl = some { f with sq := [] } ∧ t.mem = s.mem ∧
      ∀ c ∈ cs, (∃ y, t.copy (c.pa / 128) (siteOf s n) = some y ∧ y.valid.getLsbD (c.pa % 128) = true ∧
        y.dirty.getLsbD (c.pa % 128) = true ∧ y.data.getD (c.pa % 128) 0 = c.b) ∧
        (c.pa / 128 ∈ (t.core n).dirty ∨ (t.core n).dirtyOvf = true))) ∧
  (∀ (s : State) (n sl r : Nat) (f : Firing) (e : Ent) (d : Dep) (a : AtomAcc), s.firing n sl = some f →
    f.sq = [e] → f.wbq = [] → f.deps = [d] → f.loss = false → sl ≤ trapSlot → e.op = .atom [a] none → d.seq = e.seq →
    d.src = .unit → d.sregs = [r] → d.vregs = [] → portDown s a.pa = false → Reaches s a.pa →
    s.copy (a.pa / 128) (siteOf s n) = none →
    ∃ (t : State) (old : List Byte), exec (.atomicAtHome n sl 0) s = .next t ∧
      (keyPkg a.pa = s.pkg.toNat → old = s.getBs a.pa a.size) ∧
      t.firing n sl = some { f with sq := [], deps := [{ d with src := .val [(r, w64OfLE old)] [] }] } ∧
      t.getBs a.pa (atomBytes a.size a.op a.u old a.b a.c).length = atomBytes a.size a.op a.u old a.b a.c ∧
      ∀ x, x < a.pa ∨ a.pa + a.size ≤ x ∧ a.pa + (atomBytes a.size a.op a.u old a.b a.c).length ≤ x → t.getB x = s.getB x) ∧
  (∀ (s : State) (site line : Nat) (y : L2Copy), site < 8 → s.copy line site = some y →
    (Homeward s line ∨ y.dirty = 0 →
      ∃ t, exec (.l2CopyEviction site line) s = .next t ∧ t.copy line site = none ∧ Home s t line y) ∧
    (¬ Homeward s line → y.dirty ≠ 0 → exec (.l2CopyEviction site line) s = .next s)) ∧
  (∀ (s : State) (n line : Nat) (y : L2Copy), (s.core n).crossing = true → line ∈ (s.core n).dirty ∨
      ((s.core n).dirtyOvf = true ∧ line ∈ dirtyLines s (siteOf s n)) →
    (∀ e ∈ (s.core n).firings, ∀ x ∈ e.2.sq, x.op ≠ .wb line) → s.copy line (siteOf s n) = some y → Homeward s line →
    ∃ t, exec (.writebackAck n line) s = .next t ∧ line ∉ (t.core n).dirty ∧ Home s t line y) ∧
  (∀ (s : State) (n sl line : Nat) (f : Firing) (e : Ent) (y : L2Copy), s.firing n sl = some f → f.sq = [e] → f.wbq = [] →
    f.loss = false → sl ≤ trapSlot → e.op = .wb line → s.copy line (siteOf s n) = some y → Homeward s line →
    ∃ t, exec (.writebackAck n line) s = .next t ∧ t.firing n sl = some { f with sq := [] } ∧ Home s t line y) ∧
  (∀ (s : State) (n line : Nat), ¬ Homeward s line ∨ (s.core n).crossing = false ∧
    (∀ e ∈ (s.core n).firings, ∀ x ∈ e.2.sq, x.op ≠ .wb line) → exec (.writebackAck n line) s = .next s) ∧
  (∀ (s : State) (n sl i : Nat) (f : Firing) (e : Ent) (u : Bool) (cs : List Cell), s.firing n sl = some f →
    f.sq[i]? = some e → e.op = .store true u cs → f.loss = true → e.sent = false → (s.core n).swapping = false →
    exec (.storeVisible n sl i) s = .next s) ∧
  (∀ (s : State) (n sl : Nat) (f : Firing) (e : Ent) (u : Bool) (c : Cell) (cs : List Cell), s.firing n sl = some f →
    f.sq = [e] → f.wbq = [] → f.deps = [] → f.loss = false → sl ≤ trapSlot → e.op = .store true u (c :: cs) →
    ∃ t, exec (.ackLossTimeout n sl 0 []) s = .next t ∧ t.mem = s.mem ∧ t.firing n sl =
      some { f with sq := [], loss := true, laddr := BitVec.ofNat 64 c.va, lcnt := f.lcnt + 1 })

/-- R201, R202, R240: a remote scratchpad request is served by a core that runs: a load deposits its bytes, a store writes
exactly its bytes, an atomic leaves its result and deposits the old value; inside the workspace region the target
refuses, the load and the atomic at once with DATAERR and a record of unit 1, the store at the next release. That the atomic does
so at once is the model's choice (log entry 54). A target that is pre-empted or whose cancel filter an entry waits for, and
another package while no link is up, lets the request wait. -/
def Sys2Proof.Claims.RemoteEvents : Prop :=
  (∀ (s : State) (n sl m off size : Nat) (f : Firing), s.firing n sl = some f → m < 4096 → sl ≤ trapSlot →
    Serves (s.core m) → f.wbq = [] → f.loss = false →
    (∀ d, f.deps = [d] → f.sq = [] → d.src = .ldx (gcaOf s m) off size →
      ((s.core m).inWs off size = false → exec (.remoteRequestServe n sl (.load 0)) s = .next (s.setFiring n sl
        { f with deps := [{ d with src := .val (depWords d.dst 0 ((s.core m).getBs off size)).1
                                               (depWords d.dst 0 ((s.core m).getBs off size)).2 }] })) ∧
      ((s.core m).inWs off size = true → Traps s n sl f →
        ∃ t, exec (.remoteRequestServe n sl (.load 0)) s = .next t ∧ DataErr s t n sl f d off ∧
          MachineCheck s t n (siteOf s m) off 1)) ∧
    (∀ (e : Ent) (bs : List Byte), f.deps = [] → f.sq = [e] → e.op = .stx (gcaOf s m) off bs →
      ((s.core m).inWs off bs.length = false → ∃ t, exec (.remoteRequestServe n sl (.store 0)) s = .next t ∧
        t.mem = s.mem ∧ t.firing n sl = some { f with sq := [] } ∧ (t.core m).getBs off bs.length = bs ∧
        ∀ a, a < off ∨ off + bs.length ≤ a → (t.core m).getB a = (s.core m).getB a) ∧
      ((s.core m).inWs off bs.length = true → f.bad = none → ∃ t, exec (.remoteRequestServe n sl (.store 0)) s = .next t ∧
        t.mem = s.mem ∧ t.firing n sl = some { f with sq := [], bad := some (BitVec.ofNat 64 off) } ∧
        ∀ a, (t.core m).getB a = (s.core m).getB a)) ∧
    (∀ (e : Ent) (d : Dep) (op : Nat) (u : Bool) (b : W64), f.deps = [d] → f.sq = [e] →
      e.op = .atoms (gcaOf s m) off size op u b → d.seq = e.seq → d.src = .unit →
      ((s.core m).inWs off size = true → Traps s n sl f → ∃ t, exec (.remoteRequestServe n sl (.store 0)) s = .next t ∧
        DataErr s t n sl f d off ∧ MachineCheck s t n (siteOf s m) off 1) ∧
      (∀ r old new, d.sregs = [r] → (s.core m).inWs off size = false → old = (s.core m).getBs off size → new = atomBytes size op u old b 0 →
        ∃ t, exec (.remoteRequestServe n sl (.store 0)) s = .next t ∧ t.mem = s.mem ∧
        t.firing n sl = some { f with sq := [], deps := [{ d with src := .val [(r, w64OfLE old)] [] }] } ∧
        (t.core m).getBs off new.length = new ∧
        ∀ a, a < off ∨ off + new.length ≤ a → (t.core m).getB a = (s.core m).getB a))) ∧
  (∀ (s : State) (n sl i g : Nat) (f : Firing), s.firing n sl = some f →
    (g / 4096 = s.pkg.toNat ∧ ¬ Serves (s.core (g % 4096))) ∨
      (g / 4096 ≠ s.pkg.toNat ∧ linkUp s = false) →
    (∀ d off size, f.deps[i]? = some d → d.src = .ldx g off size →
      exec (.remoteRequestServe n sl (.load i)) s = .next s) ∧
    (∀ e, f.sq[i]? = some e → e.target = some g → exec (.remoteRequestServe n sl (.store i)) s = .next s))

/-! ## Events: units -/

namespace Sys2Proof.Claims

/-- FP32 pattern x is the finite real number v. -/
def F32Is (x : W32) (v : ℝ) : Prop :=
  ∃ (n : Bool) (m : Nat) (e : ℤ), Fmt.f32.decode x.toNat = .fin n m e ∧ v = (if n = true then -1 else 1) * (m : ℝ) * (2 : ℝ) ^ e

/-- Pattern x is a normal number of value v. -/
def NormalIs (x : W32) (v : ℝ) : Prop := F32Is x v ∧ 1 ≤ x.toNat / 2 ^ 23 % 2 ^ 8

/-- y is within k units in the last place of v, where v is no nearer than one of them to the next binade and its result is not so
small that it may be delivered as zero; exact values are taken to a part in 2^100 (log entry 10). -/
def InUlps (k : ℝ) (v y : ℝ) : Prop :=
  ∀ b : ℤ, -125 ≤ b → b ≤ 127 → (2 : ℝ) ^ b ≤ |v| → |v| + (2 : ℝ) ^ (b - 23) ≤ (2 : ℝ) ^ (b + 1) →
    |y - v| ≤ k * (2 : ℝ) ^ (b - 23) * (1 + (2 : ℝ) ^ (-100 : ℤ))

end Sys2Proof.Claims

/-- R163 to R165, R184, R186, R137: the SFU's oldest entry reads its operands, then writes all its lanes at once; results
at zeros, infinities, negative numbers and NaN as Table 8-7 has them, those of the exact cases exact, those of RCP, RSQ and SQRT
within a unit in the last place, and none subnormal. The matrix unit writes
its accumulator, its flags first; where they meet an enable bit it raises FPX at its own PC and writes no accumulator. -/
def Sys2Proof.Claims.SfuAndMatrixEvents : Prop :=
  (∀ (s : State) (n : Nat) (e : SfuEnt) (rest : List SfuEnt) (f : Firing), (s.core n).sfuQ = e :: rest →
    s.firing n e.slot = some f →
    (e.vals = none → ∃ xs, exec (.sfuServiceStart n) s =
        .next (s.setCore n { s.core n with sfuQ := { e with vals := some xs } :: rest }) ∧
      ∀ L, L < 32 → (∀ r, e.sa = .reg r → (L, f.getV r.toNat L) ∈ xs) ∧
        (∀ r, e.sa = .sreg r → (L, (f.getS r.toNat).setWidth 32) ∈ xs)) ∧
    (e.vals = none → exec (.sfuResult n) s = .next s) ∧
    (∀ x : Nat → W32, e.vals = some (lanes.map fun L => (L, x L)) → ∃ t g, exec (.sfuResult n) s = .next t ∧
      (t.core n).sfuQ = rest ∧ t.mem = s.mem ∧ t.firing n e.slot = some g ∧ g.s = f.s ∧ g.fpst = f.fpst ∧
      ∀ r L, L < 32 → g.getV r L = if r = e.d ∧ e.mask.getLsbD L = true then sfuVal e.fn (x L) else f.getV r L)) ∧
  (∀ z : W32, z.toNat / 2 ^ 23 % 2 ^ 8 = 0 →
    sfuVal 0 z = (if z.getLsbD 31 then 0xFF800000 else 0x7F800000) ∧
    sfuVal 1 z = (if z.getLsbD 31 then 0xFF800000 else 0x7F800000) ∧
    sfuVal 2 z = (if z.getLsbD 31 then 0x80000000 else 0) ∧ sfuVal 3 z = 0x3F800000 ∧ sfuVal 4 z = 0xFF800000 ∧
    sfuVal 5 z = (if z.getLsbD 31 then 0x80000000 else 0) ∧ sfuVal 6 z = 0x3F800000) ∧
  (sfuVal 0 0x7F800000 = 0 ∧ sfuVal 0 0xFF800000 = 0x80000000 ∧ sfuVal 1 0x7F800000 = 0 ∧ sfuVal 1 0xFF800000 = 0x7FC00000 ∧
    sfuVal 2 0x7F800000 = 0x7F800000 ∧ sfuVal 2 0xFF800000 = 0x7FC00000 ∧ sfuVal 3 0x7F800000 = 0x7F800000 ∧
    sfuVal 3 0xFF800000 = 0 ∧ sfuVal 4 0x7F800000 = 0x7F800000 ∧ sfuVal 4 0xFF800000 = 0x7FC00000 ∧
    sfuVal 5 0x7F800000 = 0x7FC00000 ∧ sfuVal 5 0xFF800000 = 0x7FC00000 ∧ sfuVal 6 0x7F800000 = 0x7FC00000 ∧
    sfuVal 6 0xFF800000 = 0x7FC00000) ∧
  (∀ x : W32, x.getLsbD 31 = true → 1 ≤ x.toNat / 2 ^ 23 % 2 ^ 8 → x.toNat / 2 ^ 23 % 2 ^ 8 ≤ 254 →
    sfuVal 1 x = 0x7FC00000 ∧ sfuVal 2 x = 0x7FC00000 ∧ sfuVal 4 x = 0x7FC00000) ∧
  (∀ (x : W32) (k : ℤ), F32Is x k → -126 ≤ k → k ≤ 127 → sfuVal 3 x = BitVec.ofNat 32 ((k + 127).toNat * 2 ^ 23)) ∧
  (∀ e : Nat, 1 ≤ e → e ≤ 254 → F32Is (sfuVal 4 (BitVec.ofNat 32 (e * 2 ^ 23))) ((e : ℝ) - 127)) ∧
  (∀ (x : W32) (v : ℝ), NormalIs x v → (∃ y, F32Is (sfuVal 0 x) y ∧ InUlps 1 (1 / v) y) ∧
    (0 < v → (∃ y, F32Is (sfuVal 1 x) y ∧ InUlps 1 (1 / Real.sqrt v) y) ∧ ∃ y, F32Is (sfuVal 2 x) y ∧ InUlps 1 (Real.sqrt v) y)) ∧
  (∀ (fn : BitVec 3) (x : W32), x.toNat / 2 ^ 23 % 2 ^ 8 = 255 → x.toNat % 2 ^ 23 ≠ 0 → sfuVal fn x = 0x7FC00000) ∧
  (∀ (fn : BitVec 3) (x : W32), (sfuVal fn x).toNat / 2 ^ 23 % 2 ^ 8 = 0 → (sfuVal fn x).toNat % 2 ^ 23 = 0) ∧
  (∀ e : Nat, e % 2 = 1 → e < 254 → sfuVal 0 (BitVec.ofNat 32 (e * 2 ^ 23)) = BitVec.ofNat 32 ((254 - e) * 2 ^ 23) ∧
    sfuVal 1 (BitVec.ofNat 32 (e * 2 ^ 23)) = BitVec.ofNat 32 ((381 - e) / 2 * 2 ^ 23) ∧
    sfuVal 2 (BitVec.ofNat 32 (e * 2 ^ 23)) = BitVec.ofNat 32 ((e + 127) / 2 * 2 ^ 23)) ∧
  (∀ (s : State) (n : Nat) (m : MatOp) (f : Firing), (s.core n).mat = some m → s.firing n m.slot = some f →
    (fpxHits f m.flags = false → exec (.matrixUnitComplete n) s =
      .next (s.setCore n ({ s.core n with mat := none }.setFiring m.slot ((f.putV m.vals).orFlags m.flags)))) ∧
    (fpxHits f m.flags = true → m.slot ≠ trapSlot → ∃ t g, exec (.matrixUnitComplete n) s = .next t ∧
      (t.core n).mat = none ∧ t.mem = s.mem ∧ t.firing n m.slot = some g ∧ g.stop = 1 ∧ g.last = 0x0F ∧ g.v = f.v ∧
      g.fpst = f.fpst ||| m.flags.setWidth 64 ∧ g.trec.getD 1 0 = m.pc ∧ g.trec.getD 4 0 = m.flags.setWidth 64))

/-- R164, Table 8-6: the results of EX2, LG2, SIN and COS at a normal number are within the bounds of the table; exact values are
taken to a part in 2^100 (log entry 10), and the results of EX2 from 2^128 on and below 2^-126 are Table 8-7's and R164's. -/
def Obligations.SfuAccuracy : Prop :=
  ∀ (x : W32) (v : ℝ), NormalIs x v →
    (v < 128 → ∃ y, F32Is (sfuVal 3 x) y ∧ InUlps 2 ((2 : ℝ) ^ v) y) ∧
    (0 < v → ∃ y, F32Is (sfuVal 4 x) y ∧
      (1 / 2 ≤ v → v ≤ 2 → |y - Real.logb 2 v| ≤ (2 : ℝ) ^ (-22 : ℤ) * (1 + (2 : ℝ) ^ (-100 : ℤ))) ∧
      (v < 1 / 2 ∨ 2 < v → InUlps 2 (Real.logb 2 v) y)) ∧
    (∃ y, F32Is (sfuVal 5 x) y ∧
      |y - Real.sin v| ≤ ((2 : ℝ) ^ (-21 : ℤ) + (2 : ℝ) ^ (-24 : ℤ) * |v|) * (1 + (2 : ℝ) ^ (-100 : ℤ))) ∧
    ∃ y, F32Is (sfuVal 6 x) y ∧
      |y - Real.cos v| ≤ ((2 : ℝ) ^ (-21 : ℤ) + (2 : ℝ) ^ (-24 : ℤ) * |v|) * (1 + (2 : ℝ) ^ (-100 : ℤ))

namespace Sys2Proof.Claims

/-- A line of a sampler request has to be read at its home: it is uncached, or neither the sampler's cache nor the die's copy
holds it. -/
def SampFar (s : State) (n : Nat) (l : Nat × Nat × Bool) : Prop :=
  l.2.2 = true ∨ (∀ x ∈ (s.core n).samp, ¬(x.vline = l.1 ∧ x.asid = (s.core n).asid)) ∧
    ¬(homeSite s (l.2.1 * 128) ≠ siteOf s n ∧ ∃ y, s.copy l.2.1 (siteOf s n) = some y ∧ y.has 0 128 = true)

end Sys2Proof.Claims

/-- R342 to R346, R385, R386: the sampler serves its requests in order: each lane's four channels land in its deposit, NaN where a
coordinate is not finite; a fetch reads the texel of its integer coordinates alone; a cached line gives its bytes; a line
that its CXL port's link does not serve raises DATAERR, and one of another package waits for a link. -/
def Sys2Proof.Claims.SamplerEvents : Prop :=
  (∀ (s : State) (n : Nat) (q : SampReq) (rest : List SampReq) (f : Firing) (d : Dep), (s.core n).sampQ = q :: rest →
    s.firing n q.slot = some f → f.deps.find? (fun d => d.seq == q.seq) = some d →
    ((∀ l ∈ q.xl, SampFar s n l → portDown s (l.2.1 * 128) = false ∧ Reaches s (l.2.1 * 128)) →
      ∃ t vs, exec (.samplerService n) s = .next t ∧
      ((∀ l ∈ q.xl, keyPkg (l.2.1 * 128) = s.pkg.toNat ∧ (l.2.2 = true ∨ homeSite s (l.2.1 * 128) = siteOf s n ∨
          s.copy l.2.1 (siteOf s n) ≠ none)) → t.mem = s.mem) ∧
      (t.core n).sampQ = rest ∧ t.firing n q.slot = some (f.answer q.seq [] vs) ∧
      ∀ a ∈ q.args, ∀ j, j < 4 →
        (taps q.desc q.fetch a.2.1 a.2.2 = none → (32 * (q.d + j) + a.1, 0x7FC00000) ∈ vs) ∧
        ∃ y, (32 * (q.d + j) + a.1, y) ∈ vs) ∧
    ((∃ l ∈ q.xl, SampFar s n l ∧ ¬ Reaches s (l.2.1 * 128)) → exec (.samplerService n) s = .next s) ∧
    (∀ l xs, q.xl = l :: xs → SampFar s n l → portDown s (l.2.1 * 128) = true → (∀ x ∈ q.xl, Reaches s (x.2.1 * 128)) →
      Traps s n q.slot f →
      ∃ t, exec (.samplerService n) s = .next t ∧ DataErr s t n q.slot f d (keyPa (l.2.1 * 128)))) ∧
  (∀ (d : List Byte) (u v : W32), sdKind d = 0 → u.toNat < sdW d → v.toNat < sdH d → u.toNat < 2 ^ 31 → v.toNat < 2 ^ 31 →
    taps d true u v = some [((u.toNat, v.toNat), 65536)]) ∧
  (∀ (d : List Byte) (fetch : Bool) (u v : W32), fetch = false → u.toNat / 2 ^ 23 % 2 ^ 8 = 255 → taps d fetch u v = none) ∧
  (∀ (s : State) (n vline pline : Nat) (x : SampLine),
    (s.core n).samp.find? (fun y => y.vline == vline && y.asid == (s.core n).asid) = some x →
    sampLine s n vline pline false = (s, x.data))

/-- R329, R334 to R337: the copy engine serves its contexts in turn; it moves a granule from source to destination, a
scratchpad granule of a firing's workspace as that firing's registers or tail (R43, R44), counts the command when it is done,
sends its notification, and records an error with its code and address, a data error with a record of unit 5 as well. -/
def Sys2Proof.Claims.EngineEvents : Prop :=
  (∀ (s : State) (n i : Nat), nextCtx s n = some i → canMove s n i = true ∧ ∃ k, k < 4 ∧ i = ((s.core n).ectx + k) % 4 ∧
    ∀ k', k' < k → canMove s n (((s.core n).ectx + k') % 4) = false) ∧
  (∀ (s : State) (n i : Nat) (c : Core) (m : Cmd) (rest : List Cmd) (x : Ctx), c = s.core n → i < c.ctxs.length →
    x = c.ctx i → x.q = m :: rest →
    (∀ d v, m.ds = 1 → m.fill = true ∨ m.ss = 1 → m.len = 8 * (m.pos + 1) → nextCtx s n = some i →
      d = m.dst.toNat + 8 * m.pos → v = (if m.fill then m.src else c.granW (m.src.toNat + 8 * m.pos)) →
      ∃ t, exec (.engineCommandStart n i) s = .next t ∧
      t.mem = s.mem ∧ ((t.core n).ctx i).q = { m with pos := m.pos + 1 } :: rest ∧ ((t.core n).ctx i).c = x.c ∧
      (t.core n).ectx = (i + 1) % 4 ∧
      (c.wsOwner d = none → (t.core n).getW d = v ∧ ∀ a, a < d ∨ d + 8 ≤ a → (t.core n).getB a = c.getB a) ∧
      (∀ sl g, c.wsOwner d = some (sl, g) → t.firing n sl = some (g.wsWrite (d - g.wp) v) ∧
        ∀ a, (t.core n).getB a = c.getB a)) ∧
    (m.len ≤ 8 * m.pos → exec (.engineCommandStart n i) s = .next s ∧
      ∃ t, exec (.engineCommandComplete n i) s = .next t ∧ t.mem = s.mem ∧ ((t.core n).ctx i).c = m.n ∧
      ((t.core n).ctx i).q = rest ∧
      (m.nt = none ∨ m.supp = true → t.mesh = s.mesh ∧ t.lyspor = s.lyspor) ∧
      (∀ w cookie, m.nt = some (w, cookie) → m.supp = false → c.filter = [] → s.remaps = [] →
        w.toNat % 2 ^ 29 / 4096 = s.pkg.toNat → ∃ fl, t.mesh = s.mesh ++ [fl] ∧ fl.msg.dst.toNat = w.toNat % 2 ^ 29 ∧
          fl.msg.ch = 1 ∧ fl.msg.hid = w.extractLsb' 32 8 ∧ fl.msg.ltag = m.ltag ∧ fl.msg.body = [cookie, m.n, 0])) ∧
    (8 * m.pos < m.len → exec (.engineCommandComplete n i) s = .next s) ∧
    (∀ (code : BitVec 8) (va : Nat), 8 * m.pos < m.len → granSide s n m = .bad code.toNat va → m.nt = none →
      ∃ t, exec (.engineCommandError n i code) s = .next t ∧ t.mem = s.mem ∧ ((t.core n).ctx i).c = m.n ∧
      ((t.core n).ctx i).q = rest ∧ (code = 0x0E → ∃ pa, MachineCheck s t n (siteOf s n) pa 5) ∧
      (x.err = 0 → ((t.core n).ctx i).err.toNat = code.toNat * 2 ^ 56 + m.n.toNat % 2 ^ 48 ∧
        ((t.core n).ctx i).addr = BitVec.ofNat 64 va) ∧
      (x.err ≠ 0 → x.err.toNat / 2 ^ 48 % 256 < 255 → ((t.core n).ctx i).err.toNat = x.err.toNat + 2 ^ 48 ∧
        ((t.core n).ctx i).addr = x.addr)))

/-- R202, R265 to R267, R371, R380: the forwarding engine marks what waits when its timer runs out, forms a batch of pushed
entries where no swap of its core is in progress, holds it while the ring has no room or its target does not serve, writes each entry at
its ring position, and then adds to the tail counter and to SENT; a target that refuses stops its descriptor. The device queue
goes the same way. -/
def Sys2Proof.Claims.ForwardEvents : Prop :=
  (∀ (s : State) (n off : Nat) (p : Proxy) (q : QDesc), (s.core n).knownProxy off = some p → q = (s.core n).qdesc off →
    n < 4096 →
    (q.ftim ≠ 0 → q.sent < q.pushed → p.marked < q.pushed → ∃ t, exec (.forwardTimerExpiry n off) s = .next t ∧
      t.mem = s.mem ∧ (t.core n).proxy off = { p with marked := q.pushed }) ∧
    (q.ftim = 0 → exec (.forwardTimerExpiry n off) s = .next s) ∧
    (∀ b, p.batch = some b → b.wrote = false → p.stopped = false →
      exec (.forwardHeadReread n off) s = .next (tryBatch s n p b))) ∧
  (∀ (s : State) (n : Nat) (p : Proxy) (q : QDesc), (s.core n).nextProxy = some p → q = (s.core n).qdesc p.off → n < 4096 →
    ((s.core n).swapping = false → exec (.forwardBatch n) s = .next (tryBatch s n p ⟨q.sent, batchSize q p, false⟩)) ∧
    ((s.core n).swapping = true → exec (.forwardBatch n) s = .next s) ∧
    p.stopped = false ∧ p.batch = none ∧ batchSize q p ≤ q.pushed - q.sent ∧ batchSize q p ≤ 4096 / q.entryBytes ∧
    (batchSize q p = 4096 / q.entryBytes ∨ batchSize q p ≤ p.marked - q.sent)) ∧
  (∀ (s : State) (n m : Nat) (p : Proxy) (b : Batch) (q : QDesc) (head : Nat), n < 4096 → m < 4096 → m ≠ n →
    p.stopped = false → (s.core n).knownProxy p.off = some p → q = (s.core n).qdesc p.off → q.kind = 1 →
    q.head = BitVec.ofNat 64 (gcaOf s m + farOff q.head * 2 ^ 32) →
    q.tgt = BitVec.ofNat 64 (gcaOf s m + farOff q.tgt * 2 ^ 32) →
    q.tail = BitVec.ofNat 64 (gcaOf s m + farOff q.tail * 2 ^ 32) →
    (¬ Serves (s.core m) → (∃ t, tryBatch s n p b = t ∧ t.mem = s.mem ∧ t.core m = s.core m ∧
        (t.core n).proxy p.off = { p with batch := some { b with wrote := false } }) ∧
      (p.batch = some b → exec (.forwardBatchPublish n p.off) s = .next s)) ∧
    (Serves (s.core m) → farOff q.head + 8 ≤ 2 ^ 20 →
      (s.core m).inWs (farOff q.head) 8 = false → head = ((s.core m).getW (farOff q.head)).toNat →
      (q.ringEntries < q.sent - head + b.n → ∃ t, tryBatch s n p b = t ∧ t.mem = s.mem ∧
        (t.core n).proxy p.off = { p with batch := some { b with wrote := false } } ∧ t.core m = s.core m) ∧
      (q.sent - head + b.n ≤ q.ringEntries → b.n = 1 →
        farOff q.tgt + q.entryBytes * (b.first % q.ringEntries) + q.entryBytes ≤ 2 ^ 20 →
        (s.core m).inWs (farOff q.tgt + q.entryBytes * (b.first % q.ringEntries)) q.entryBytes = false →
        ∃ t, tryBatch s n p b = t ∧ t.mem = s.mem ∧
          (t.core n).proxy p.off = { p with batch := some { b with wrote := true } } ∧
          (t.core m).getBs (farOff q.tgt + q.entryBytes * (b.first % q.ringEntries)) q.entryBytes =
            (s.core n).getBs (q.shoff + q.entryBytes * (b.first % q.shadowEntries)) q.entryBytes)) ∧
    (Serves (s.core m) → p.batch = some b → b.wrote = true → farOff q.tail + 8 ≤ 2 ^ 20 →
      ((s.core m).inWs (farOff q.tail) 8 = false → ∃ t, exec (.forwardBatchPublish n p.off) s = .next t ∧
        t.mem = s.mem ∧ (t.core m).getW (farOff q.tail) = (s.core m).getW (farOff q.tail) + BitVec.ofNat 64 b.n ∧
        (t.core n).getW (p.off + 0x30) = BitVec.ofNat 64 (q.sent + b.n) ∧ ((t.core n).proxy p.off).batch = none) ∧
      ((s.core m).inWs (farOff q.tail) 8 = true → ∃ t, exec (.forwardBatchPublish n p.off) s = .next t ∧ t.mem = s.mem ∧
        t.core m = s.core m ∧ ((t.core n).proxy p.off).stopped = true ∧ Delivered s t (siteOf s n) (some n) [] 13 0))) ∧
  (∀ (s : State) (off : Nat) (h : HostSt), h = s.host →
    (devSent h < devPushed h → h.dqMarked < devPushed h → exec (.forwardTimerExpiry hostPort off) s =
      .next { s with host := { h with dqMarked := devPushed h } }) ∧
    (h.dqBatch = none → devBatchSize h ≠ 0 → 2 ^ (h.devq.getD 0x1C 0).toNat * 64 <
        devSent h - (s.getW (hostKey s (devField h 0x10))).toNat + devBatchSize h →
      exec (.forwardBatch hostPort) s = .next { s with host := { h with dqBatch := some ⟨devSent h, devBatchSize h, false⟩ } }) ∧
    (∀ b, h.dqBatch = some b → b.wrote = true → h.devq.length = 64 → devSent h + b.n < 2 ^ 64 →
      ∃ t, exec (.forwardBatchPublish hostPort off) s = .next t ∧
        t.getW (hostKey s (devField h 8)) = s.getW (hostKey s (devField h 8)) + BitVec.ofNat 64 b.n ∧
        t.host.queue = h.queue.drop b.n ∧ t.host.dqBatch = none ∧ devSent t.host = devSent h + b.n ∧
        ∀ v ∈ msixFor h (devField h 8), vecMasked h v = false → v ∈ t.host.msix))

/-! ## Events: launches, virtual time -/

/-- R271 to R274, R277, R280, R281: what happens at a completion record's home and in a core's launch cache and filter: the
tests of a launch and of its parent, a finish with its notifications, the marks and broadcasts of a cancel. That CLOSE and
CANCEL of a record that is not open answer NOTOPEN before their level is looked at (log entry 58), that a finish comes before
any other change of its record (log entry 59), that the second broadcast clears every core in one step (log entry 63), and how
a filter entry and its removal travel to another package (log entry 71) is the model's choice. -/
def Sys2Proof.Claims.LaunchEvents : Prop :=
  (∀ (s : State) (j n uid seq i : Nat) (d : List Byte), s.homeQ[j]? = some (.launch (some (n, uid, seq)) d) →
    i = tagIdx (ldTag d) → ldParent d = 0 →
    (recState s i ≠ 0 → recState s i ≠ 1 ∨ recCount s i ≠ 0 → ∃ t, exec (.launchHomeAction j) s = .next t ∧ t.mem = s.mem ∧
      t.homeQ = listRemove s.homeQ j ∧ Answers s t n uid seq 2) ∧
    (recState s i = 0 → ldLevel d ≠ 0 → ∃ t, exec (.launchHomeAction j) s = .next t ∧ recState t i = 1 ∧
      recCount t i = 1 ∧ recLevel t i = ldLevel d ∧ recParent t i = 0 ∧ t.mesh = s.mesh ∧ Answers s t n uid seq 0) ∧
    (recState s i = 0 → ldLevel d = 0 → ∀ ns, ns = wokenSet s d →
      (∀ m, m ∈ ns ↔ m < 4096 ∧ ldHolds d m = true ∧ coreHere s m = true ∧ s.diesReady.getLsbD (dieOf m) = true) ∧
      (ns ≠ [] → s.remaps = [] → ∃ t, exec (.launchHomeAction j) s = .next t ∧ recState t i = 1 ∧ recCount t i = BitVec.ofNat 64 ns.length ∧
        Answers s t n uid seq 0 ∧ ∃ fls : List Flight, t.mesh = s.mesh ++ fls ∧ fls.length = ns.length ∧
          ∀ k m fl, ns[k]? = some m → fls[k]? = some fl → fl.msg.dst.toNat = gcaOf s m ∧ fl.msg.ch = 5 ∧
            fl.msg.hid = ldHid d ∧ fl.msg.ltag = ldTag d ∧
            fl.msg.body = [ldWord d 0x28, ldWord d 0x30, BitVec.ofNat 64 k, BitVec.ofNat 64 ns.length]) ∧
      (ns = [] → capReady s 4 = false → ∃ t, exec (.launchHomeAction j) s = .next t ∧ recState t i = 4 ∧
        Answers s t n uid seq 1 ∧
        Reports s t 2 (recSite s i) (some n) (bytesLE 4 (ldTag d) ++ leN 1 1 ++ leN 1 0)))) ∧
  (∀ (s : State) (j n uid seq i p : Nat) (d : List Byte), s.homeQ[j]? = some (.launch (some (n, uid, seq)) d) →
    i = tagIdx (ldTag d) → ldParent d ≠ 0 → p = tagIdx (ldParent d) → p ≠ i → recState s i = 0 → recCount s p ≠ 0 →
    (recState s p ≠ 1 ∨ recLevel s p ≤ ldLevel d → ∃ t, exec (.launchHomeAction j) s = .next t ∧ t.mem = s.mem ∧
      Answers s t n uid seq 3) ∧
    (recState s p = 1 → ldLevel d < recLevel s p → ldLevel d ≠ 0 → ∃ t, exec (.launchHomeAction j) s = .next t ∧
      recState t i = 1 ∧ recCount t i = 1 ∧ recParent t i = ldParent d ∧ recCount t p = recCount s p + 1 ∧
      Answers s t n uid seq 0)) ∧
  (∀ (s : State) (j n uid seq i : Nat) (tag : W32), i = tagIdx tag → tagPkg tag = s.pkg.toNat →
    (s.homeQ[j]? = some (.close n uid seq tag) →
      (recState s i ≠ 1 → ∃ t, exec (.launchHomeAction j) s = .next t ∧ t.mem = s.mem ∧ Answers s t n uid seq 4) ∧
      (recState s i = 1 → recCount s i ≠ 0 → recLevel s i ≠ 0 → ∃ t, exec (.launchHomeAction j) s = .next t ∧
        recCount t i = recCount s i - 1 ∧ recState t i = 1 ∧ Answers s t n uid seq 0)) ∧
    (s.homeQ[j]? = some (.cancel (some (n, uid, seq)) tag) →
      (recState s i ≠ 1 → ∃ t, exec (.cancelHomeAction j) s = .next t ∧ t.mem = s.mem ∧ Answers s t n uid seq 4) ∧
      (recState s i = 1 → recCount s i ≠ 0 → recLevel s i = 0 → (recFlags s i).getLsbD 0 = false →
        ∃ t, exec (.cancelHomeAction j) s = .next t ∧ (recFlags t i).getLsbD 0 = true ∧ recCount t i = recCount s i ∧
        t.filterAdd = s.filterAdd ++ [⟨tag, []⟩] ∧ Answers s t n uid seq 0 ∧
        ∀ p, p < s.sysSize → p < 2 ^ 17 → p ≠ s.pkg.toNat → linkUp s = true →
          ∃ fl ∈ t.lyspor, fl.msg.dst.toNat / 4096 = p ∧ fl.msg.typ = 3 ∧ fl.msg.ltag = tag ∧ fl.msg.body = [])) ∧
    (∀ m, s.homeQ[j]? = some (.refill m tag false) → recState s i ≠ 1 ∨ recCount s i ≠ 0 →
      ∃ t, exec (.recordCountUpdate j) s = .next t ∧ recCount t i = recCount s i + 64 ∧
        t.homeQ = s.homeQ.set j (.refill m tag true)) ∧
    (∀ k disc, s.homeQ[j]? = some (.giveBack tag k disc) → ∃ t, exec (.recordCountUpdate j) s = .next t ∧
      recCount t i = recCount s i - BitVec.ofNat 64 k ∧ recW t i 0x10 = recW s i 0x10 + BitVec.ofNat 64 disc ∧
      t.homeQ = listRemove s.homeQ j)) ∧
  (∀ (s : State) (i dst : Nat) (p : W32) (fl : Byte) (ended : Nat), 1 ≤ i → i < 32768 → fl = recFlags s i →
    dst = (recW s i 0x20).toNat % 2 ^ 29 → ended = (if fl.getLsbD 0 || fl.getLsbD 3 then 3 else 2) →
    (recState s i ≠ 1 ∨ recCount s i ≠ 0 → exec (.recordFinish i) s = .next s) ∧
    (recState s i = 1 → recCount s i = 0 → p = recParent s i → tagIdx p ≠ i → s.sysSize ≤ 2 ^ 17 →
      ∃ t, exec (.recordFinish i) s = .next t ∧ recState t i = ended ∧
      (fl.getLsbD 0 = true → linkUp s = true → ∀ k, k < s.sysSize → k ≠ s.pkg.toNat →
        ∃ x ∈ t.lyspor, x.msg.dst.toNat / 4096 = k ∧ x.msg.typ = 3 ∧ x.msg.ltag = tagOf s i ∧ x.msg.body = [1]) ∧
      (p ≠ 0 → recCount t (tagIdx p) = recCount s (tagIdx p) - 1 ∧
        (recFlags t (tagIdx p)).getLsbD 3 = ((recFlags s (tagIdx p)).getLsbD 3 || fl.getLsbD 0 || fl.getLsbD 3)) ∧
      t.filterDel = (if fl.getLsbD 0 then s.filterDel ++ [⟨tagOf s i, []⟩] else s.filterDel) ∧
      (fl.getLsbD 2 = true → coreExists s dst = true → s.remaps = [] → dst / 4096 = s.pkg.toNat →
        ∃ m, t.mesh = s.mesh ++ [m] ∧ m.msg.dst.toNat = dst ∧ m.msg.ch = 1 ∧
          m.msg.hid = (recW s i 0x20).extractLsb' 32 8 ∧ m.msg.ltag = 0 ∧
          m.msg.body = [recW s i 0x28, (tagOf s i).setWidth 64]) ∧
      (fl.getLsbD 2 = false → t.mesh = s.mesh) ∧
      (fl.getLsbD 1 = true → fl.getLsbD 2 = false ∨ coreExists s dst = true →
        Reports s t 3 (recSite s i) none (bytesLE 4 (tagOf s i) ++ leN 4 ended ++ bytesLE 8 (recW s i 0x28))) ∧
      (fl.getLsbD 1 = false → fl.getLsbD 2 = true → coreExists s dst = false → Delivered s t (recSite s i) none
        (msgHeader (notifyMsg (recW s i 0x20) 0 [recW s i 0x28, (tagOf s i).setWidth 64])) 1 0))) ∧
  (∀ (s : State) (n : Nat) (tag : W32) (e : Credit), (s.core n).pool tag = some e → counted tag = true →
    (s.homeQ.contains (.refill n tag true) = true → e.pool ≤ 64 → (s.core n).sendvQ = [] →
      ∃ t, exec (.creditRefillReply n tag) s = .next t ∧ t.mem = s.mem ∧
      (t.core n).pool tag = some { e with pool := e.pool + 64 } ∧ t.homeQ = s.homeQ.erase (.refill n tag true) ∧
      ∀ sl f, s.firing n sl = some f → f.hold = .credit tag → t.firing n sl = some { f with hold := .none }) ∧
    ((s.core n).holdsTag tag = false → ∃ t, exec (.creditIdleReturn n tag) s = .next t ∧ (t.core n).pool tag = none ∧
      t.homeQ = s.homeQ ++ [.giveBack tag e.pool e.disc] ∧ t.mem = s.mem) ∧
    ((s.core n).holdsTag tag = true → exec (.creditIdleReturn n tag) s = .next s)) ∧
  (∀ (s : State) (n : Nat) (tag : W32) (b : Bcast), s.filterAdd.find? (fun b => b.key == tag && !b.got.contains n) = some b →
    coreHere s n = true → tag ∉ (s.core n).filter → tag ∉ (s.core n).filterWait →
    ((s.core n).filter.length < 64 → (s.core n).firings = [] → ∃ t, exec (.cancelFilterArrive n tag) s = .next t ∧
      (t.core n).filter = (s.core n).filter ++ [tag] ∧ (t.core n).pool tag = none ∧ t.mem = s.mem) ∧
    (∀ sl f, (s.core n).filter.length < 64 → (s.core n).firings = [(sl, f)] → sl < trapSlot → f.ltag = tag → f.stop = 0 →
      f.hold = .recv ∨ f.hold = .hzwait → (s.core n).fpxDue sl = none → ∃ t g, exec (.cancelFilterArrive n tag) s = .next t ∧ t.firing n sl = some g ∧
        g.stop = 1 ∧ g.last = 0x16) ∧
    (64 ≤ (s.core n).filter.length → ∃ t, exec (.cancelFilterArrive n tag) s = .next t ∧
      (t.core n).filter = (s.core n).filter ∧ (t.core n).filterWait = (s.core n).filterWait ++ [tag] ∧
      (t.core n).pool tag = none ∧
      Reports s t 7 (siteOf s n) (some n) (bytesLE 4 tag))) ∧
  (∀ (s : State) (n : Nat) (tag : W32), tagFar s tag = true → coreHere s n = true → tag ∉ (s.core n).filter →
    tag ∉ (s.core n).filterWait → (s.core n).filter.length < 64 → (s.core n).firings = [] →
    ∃ t, exec (.cancelFilterArrive n tag) s = .next t ∧ (t.core n).filter = (s.core n).filter ++ [tag] ∧ t.mem = s.mem) ∧
  (∀ (s : State) (tag : W32), tagFar s tag = false → (∃ b ∈ s.filterDel, b.key = tag) → (∀ e ∈ s.cores, e.2.filterWait = []) →
    ((∃ b ∈ s.filterAdd, b.key = tag) → exec (.cancelFilterRemove tag) s = .next s) ∧
    ((∀ b ∈ s.filterAdd, b.key ≠ tag) → ∃ t, exec (.cancelFilterRemove tag) s = .next t ∧
      (∀ n, tag ∉ (t.core n).filter) ∧ ∀ b ∈ t.filterDel, b.key ≠ tag))

/-- R282, R283, R285: a core's report is the least of its virtual time and the stamps it holds; the horizon is the least
report, and falls only after an image load's claim, which is the model's reading (log entry 60); every core receives it, and
the system horizon. -/
def Sys2Proof.Claims.VirtualTimeEvents : Prop :=
  (∀ (s : State) (n : Nat), coreHere s n = true → ∃ t r, exec (.solsticeReport n) s = .next t ∧ t.mem = s.mem ∧
    r = (t.core n).report ∧ r.toNat ≤ (s.core n).vt.toNat ∧ (∀ x ∈ (s.core n).stamps s n, r.toNat ≤ x.toNat) ∧
    (r = (s.core n).vt ∨ ∃ x ∈ (s.core n).stamps s n, r.toNat = x.toNat) ∧ (t.core n).vt = (s.core n).vt) ∧
  (∀ (s : State) (m : Nat), m ≤ 2 ^ 64 - 1 → (∀ e ∈ s.cores, coreHere s e.1 = true → m ≤ e.2.report.toNat) →
    (m = 2 ^ 64 - 1 ∨ ∃ e ∈ s.cores, coreHere s e.1 = true ∧ m = e.2.report.toNat) →
    ∃ t, exec .horizonPublish s = .next t ∧ t.mem = s.mem ∧ (∀ n, (t.core n).hz = t.hz) ∧
      ((∀ e ∈ s.cores, e.2.claim ≠ 2) → t.hz.toNat = max m s.hz.toNat) ∧
      ((∃ e ∈ s.cores, e.2.claim = 2) → t.hz.toNat = m)) ∧
  (∀ (s : State) (x : W64), ∃ t, exec (.systemHorizonPublish x) s = .next t ∧ t.mem = s.mem ∧
    (∀ n, (t.core n).hzSys = t.sysHz) ∧
    t.sysHz.toNat = (if s.sysSize ≤ 1 then s.hz.toNat else min s.hz.toNat x.toNat))

/-! ## Events: traps, pre-emption -/

/-- R350, R353 to R355, R367, R28, R59: the trap that stands before a firing's next instruction, in the order of its checks;
the handler's firing, with its subject in s1 to s4; without a valid handler every queued firing is killed and its record
goes to the host. That a PC whose low two bits are not zero raises FETCHALIGN is log entry 99's, and what R354 does not give of the handler's firing, its handler number among it, log entry 68's. -/
def Sys2Proof.Claims.TrapEvents : Prop :=
  (∀ (s u : State) (n sl : Nat) (t : TrapCause), issueTrap s n sl = some (u, t) →
    (sl ≠ trapSlot → exec (.trapTaken n sl t) s = .next (takeTrap u n sl t)) ∧
    (sl = trapSlot → exec (.doubleTrap n) s = .next (takeTrap u n sl t))) ∧
  (∀ (s : State) (n sl : Nat) (f : Firing) (b : L1IBlock), s.firing n sl = some f → mayLook (s.core n) sl f = true → f.badDep = none →
    (brkHit (s.core n) sl f = true → issueTrap s n sl = some (s, cause 0x17)) ∧
    (brkHit (s.core n) sl f = false → (s.core n).l1iFind f.pc.toNat = some b →
      (permOk (privileged (s.core n) sl) .fetch b.pte 0 = false →
        issueTrap s n sl = some (s, protAt .fetch f.pc.toNat none 15)) ∧
      (permOk (privileged (s.core n) sl) .fetch b.pte 0 = true →
        (f.pc.toNat % 4 ≠ 0 ∨ f.pc.toNat % 32 = 28 → issueTrap s n sl = some (s, cause 0x03)) ∧
        (∀ i l t, decodeAt b.data f.pc.toNat = .ok (i, l) →
          decodeCheck (privileged (s.core n) sl) f ((wordAt (b.data.drop (f.pc.toNat % 32)) 0).getLsbD 2) i = some t →
          issueTrap s n sl = some (s, t))))) ∧
  (∀ (s : State) (n sl : Nat) (f : Firing) (q : List Nat), (s.core n).firing trapSlot = none → (s.core n).cstate ≤ 1 →
    (s.core n).swapping = false → (s.core n).trapQ = sl :: q → s.firing n sl = some f →
    ((s.core n).tvec.getLsbD 0 = true → (s.core n).tws.getLsbD 0 = true → ∃ t g, exec (.trapHandlerCreate n) s = .next t ∧
      t.mem = s.mem ∧ t.firing n trapSlot = some g ∧ (t.core n).subject = some sl ∧
      g.pc = (s.core n).tvec &&& 0x00FFFFFFFFFFFFFC ∧ g.wp = (s.core n).tws.toNat / 1024 % 1024 * 1024 ∧ g.ns = 64 ∧
      g.wave = false ∧ g.stop = 0 ∧ g.getS 1 = BitVec.ofNat 64 sl ∧ g.getS 2 = f.last.setWidth 64 ∧
      g.getS 3 = f.ltag.setWidth 64 ∧ g.getS 4 = BitVec.ofNat 64 (512 + f.nv * 128) ∧ g.ltag = f.ltag) ∧
    ((s.core n).tvec.getLsbD 0 = false → q = [] → sl < trapSlot → ∃ t, exec (.trapHandlerCreate n) s = .next t ∧
      t.firing n sl = none ∧ Reports s t 8 (siteOf s n) (some n) (recBytes f.trec))) ∧
  (∀ (s : State) (n : Nat), ((s.core n).firing trapSlot).isSome = true ∨ (s.core n).trapQ = [] →
    exec (.trapHandlerCreate n) s = .next s)

namespace Sys2Proof.Claims

/-- The area of a mesh interrupt is aligned (R369) and lies in ordinary memory of the package, from a key on, in one page that
the core's translation cache holds and that can be written. -/
def AreaAt (s : State) (n : Nat) (q : MeshIrq) (key : Nat) : Prop :=
  (va56 q.arg).toNat % 2 ^ 21 = 0 ∧ ∃ l, ∀ o, o < 2 ^ 21 →
    (s.core n).tlb.find? (fun l => l.covers q.asid ((va56 q.arg).toNat + o)) = some l ∧
    l.key ((va56 q.arg).toNat + o) = key + o ∧ permOk true .write l.pte (keyPa (key + o)) = true ∧
    keyPkg (key + o) = s.pkg.toNat ∧ paDev (keyPa (key + o)) = false ∧ portDown s (key + o) = false

/-- A core's inboxes and glade columns are within their sizes (R247, R260). -/
def Bounded (c : Core) : Prop :=
  (∀ ch, c.inboxFlits ch ≤ 32) ∧ ∀ g l, g < 16 → l < 32 → ((c.glade g).col l).length ≤ 16

/-- R371, Table 17-7: what a save area holds of core n, granule by granule: the header, channel inboxes, and the scratchpad with
the live workspaces (R43) in it. -/
def AreaHolds (s : State) (n : Nat) : Prop :=
  ∀ (c : Core) (im : List (Nat × List Byte)), c = s.core n → im = saveImage s n →
    (0, [0x50, 0x5A, 0x53, 0x56] ++ leN 4 1) ∈ im ∧ (8, leN 8 (gcaOf s n)) ∈ im ∧ (0x10, bytesLE 8 c.vt) ∈ im ∧
    (0x18, bytesLE 8 c.spq) ∈ im ∧ (0x20, bytesLE 8 c.spqsz) ∈ im ∧
    (0x28, leN 8 (maskOf 64 fun sl => (c.firing sl).isSome)) ∈ im ∧ (0x30, leN 8 c.asid.toNat) ∈ im ∧
    (∀ sl f, sl < 64 → c.firing sl = some f → sl ∉ c.trapQ →
      (0x40 + 8 * sl, leN 8 (f.wp + f.stop.toNat * 2 ^ 20 + 255 * 2 ^ 24)) ∈ im) ∧
    (0x3C0, bytesLE 8 c.tvec) ∈ im ∧ (0x3C8, bytesLE 8 c.tws) ∈ im ∧
    (∀ i j bs, i < 5 → bs = (c.channelMsgs (i + 1)).flatMap msgFlits → 8 * j + 8 ≤ bs.length →
      (0x1000 + 0x800 * i + 8 * j, (bs.drop (8 * j)).take 8) ∈ im) ∧
    (∀ o, o % 8 = 0 → o < 2 ^ 20 → o < c.wsLo ∨ c.wsHi ≤ o → c.wsOwner o = none → (0x100000 + o, c.getBs o 8) ∈ im) ∧
    (∀ sl f r, r < 64 → c.wsOwner (f.wp + 8 * r) = some (sl, f) → f.wp % 8 = 0 → f.wp + 8 * r < 2 ^ 20 →
      (0x100000 + f.wp + 8 * r, bytesLE 8 (f.getS r)) ∈ im)

end Sys2Proof.Claims

/-- R353, R369 to R373: a mesh interrupt at its target: drain, and its end or its limit; swap, which stops every firing first,
with FPX where a matrix operation owes it, then drains, and then writes the area of Table 17-7, or at a fault leaves every
firing trapped by it; restore, which brings back the special registers of Table 17-7; the change of the die map. What a failed
swap leaves (log entry 43), what the record of a firing stopped for a swap says (log entry 32), where the area begins (log
entry 42), what the core keeps beside the area (log entry 19), and that L1 instruction and translation caches stay at their
sites under REMAP while L1 data and the clean bytes of copies go (log entry 97), is the model's choice. An interrupt that a REMAP
holds back does nothing yet, and one that no link brings to its area waits. -/
def Sys2Proof.Claims.PreemptEvents : Prop :=
  (∀ (s : State) (n : Nat) (q : MeshIrq) (rest : List MeshIrq), s.meshIrqs = q :: rest → q.target = n → q.held = false →
    (q.mode = 0 → (s.core n).cstate = 0 → (s.core n).swapping = false → ∃ t, exec (.meshInterruptDrain n) s = .next t ∧
      (t.core n).cstate = 1 ∧ (t.core n).drain = some ⟨q.core, q.uid, q.seq, q.arg.setWidth 32⟩ ∧ t.meshIrqs = rest ∧
      t.mem = s.mem) ∧
    (q.mode = 0 → (s.core n).cstate ≠ 0 ∨ (s.core n).swapping = true → ∃ t, exec (.meshInterruptDrain n) s = .next t ∧
      t.meshIrqs = rest ∧ Answers s t q.core q.uid q.seq 1) ∧
    (q.mode = 1 → (s.core n).swapping = false → (s.core n).cstate = 0 → ∃ t, exec (.meshInterruptSwap n) s = .next t ∧
      t.mem = s.mem ∧ (t.core n).swapping = true ∧ t.meshIrqs = s.meshIrqs ∧
      ∀ sl f, sl ≤ trapSlot → s.firing n sl = some f → ∃ g, t.firing n sl = some g ∧ g.s = f.s ∧
        ((s.core n).fpxDue sl = none → g.stop = (if f.stop = 0 then 3 else f.stop)) ∧
        (f.stop = 0 → (s.core n).fpxDue sl ≠ none → g.stop = 1 ∧ g.last = 0x0F)) ∧
    (q.mode = 1 → (s.core n).swapping = false → (s.core n).cstate ≠ 0 → ∃ t, exec (.meshInterruptSwap n) s = .next t ∧
      t.meshIrqs = rest ∧ Answers s t q.core q.uid q.seq 1) ∧
    (q.mode = 1 → (s.core n).swapping = true → swapReady s n q = false ∨ areaWaits s n q true = true → exec (.meshInterruptSwap n) s = .next s) ∧
    (∀ key, q.mode = 1 → (s.core n).swapping = true → swapReady s n q = true → AreaAt s n q key →
      Bounded (s.core n) → ∃ t, exec (.meshInterruptSwap n) s = .next t ∧ (t.core n).swapping = false ∧
      (t.core n).cstate = 2 ∧ t.meshIrqs = rest ∧ Answers s t q.core q.uid q.seq 0 ∧
      ∀ x ∈ saveImage s n, ∀ j b, x.2[j]? = some b → t.getB (key + x.1 + j) = b) ∧
    (∀ code, q.mode = 1 → (s.core n).swapping = true → swapReady s n q = true → areaWaits s n q true = false → q.core ≠ n →
      engXlate s n q.asid true .write (va56 q.arg).toNat = .error code → ∃ t, exec (.meshInterruptSwap n) s = .next t ∧
      t.mem = s.mem ∧ (t.core n).swapping = false ∧ (t.core n).cstate = 0 ∧ t.meshIrqs = rest ∧
      Answers s t q.core q.uid q.seq 1 ∧ ∀ sl f, sl ≤ trapSlot → s.firing n sl = some f →
        ∃ g, t.firing n sl = some g ∧ g.stop = 1 ∧ g.last = BitVec.ofNat 8 code ∧ g.s = f.s ∧ g.v = f.v) ∧
    (q.mode = 2 → (s.core n).cstate ≠ 2 → ∃ t, exec (.meshInterruptRes n) s = .next t ∧ t.meshIrqs = rest ∧
      Answers s t q.core q.uid q.seq 1) ∧
    (q.mode = 2 → (s.core n).cstate = 2 → areaWaits s n q false = true → exec (.meshInterruptRes n) s = .next s) ∧
    (∀ h r, q.mode = 2 → (s.core n).cstate = 2 → areaWaits s n q false = false → readArea n q ((List.range 256).map (8 * ·)) s = some h →
      areaW h.2 8 = BitVec.ofNat 64 (gcaOf s n) →
      readArea n q (restoreOffsets (h.1.core n) (baseFirings h.1 n q h.2) h.2) h.1 = some r →
      ∃ t, exec (.meshInterruptRes n) s = .next t ∧ t.mem = r.1.mem ∧ (t.core n).cstate = 0 ∧
        (t.core n).vt = areaW h.2 0x10 ∧ (t.core n).spq = areaW h.2 0x18 ∧ (t.core n).spqsz = areaW h.2 0x20 ∧
        (t.core n).asid = (areaW h.2 0x30).setWidth 16 ∧ (t.core n).tvec = areaW h.2 0x3C0 ∧
        (t.core n).tws = areaW h.2 0x3C8 ∧ (t.core n).brk0 = areaW h.2 0x3D0 ∧ (t.core n).brk1 = areaW h.2 0x3D8 ∧
        (t.core n).wch0 = areaW h.2 0x3E0 ∧ (t.core n).wch1 = areaW h.2 0x3E8 ∧
        (∀ i, i < 16 → ((t.core n).pinned.getD i {}).w0 = areaW h.2 (0x240 + 16 * i) &&& 0xFFFFFFFFFFFF8CFF ∧
          ((t.core n).pinned.getD i {}).w1 = areaW h.2 (0x248 + 16 * i) &&& 0xFFFFF) ∧
        ((s.core n).filter.length ≤ 64 → ∀ tag ∈ (s.core n).filter, tag ∈ (t.core n).filter))) ∧
  (∀ (s : State) (n : Nat) (q : MeshIrq), s.meshIrqs = [q] → q.held = true → exec (.meshInterruptDrain n) s = .next s ∧
    exec (.meshInterruptSwap n) s = .next s ∧ exec (.meshInterruptRes n) s = .next s) ∧
  (∀ (s : State) (n : Nat), AreaHolds s n) ∧
  (∀ (s : State) (n : Nat) (d : DrainSt), (s.core n).drain = some d →
    ((s.core n).cstate = 1 → (s.core n).live = [] → (s.core n).trapQ = [] → (∀ x ∈ (s.core n).ctxs, x.q = []) →
      ∃ t, exec (.drainComplete n) s = .next t ∧ (t.core n).cstate = 2 ∧ (t.core n).drain = none ∧ t.mem = s.mem ∧
        Answers s t d.core d.uid d.seq 0) ∧
    ((s.core n).cstate = 1 → (s.core n).live ≠ [] → exec (.drainComplete n) s = .next s) ∧
    ((s.core n).cstate = 1 → d.lim ≠ 0 → ∃ t, exec (.drainTimeout n) s = .next t ∧ (t.core n).cstate = 0 ∧
      (t.core n).drain = none ∧ Answers s t d.core d.uid d.seq 4) ∧
    ((s.core n).cstate = 1 → d.lim = 0 → exec (.drainTimeout n) s = .next s) ∧
    (∀ i, (s.core n).cstate ≠ 1 → i = .drainComplete n ∨ i = .drainTimeout n → ∃ t, exec i s = .next t ∧
      (t.core n).cstate = (s.core n).cstate ∧ (t.core n).drain = none ∧ Answers s t d.core d.uid d.seq 1)) ∧
  (∀ (s : State) (r : RemapSt) (rest : List RemapSt) (e : Nat), s.remaps = r :: rest → r.die < s.dieMap.length →
    e = dieOfSite s r.site →
    (enRoute s r.die = false → enRoute s e = false → ∃ t, exec .remapSwitch s = .next t ∧
      siteOfDie t r.die = r.site ∧ t.remaps = rest ∧ t.mem = s.mem ∧
      (∀ e', e' ≠ r.die → e' ≠ e → siteOfDie t e' = siteOfDie s e') ∧ Answers s t r.core r.uid r.seq 0 ∧
      (∀ i, i < 512 → (t.core (512 * r.die + i)).l1d = [] ∧ (t.core (512 * e + i)).l1d = [] ∧
        (t.core (512 * r.die + i)).tlb = (s.core (512 * e + i)).tlb) ∧
      (∀ line y, t.copy line r.site = some y → y.valid = y.dirty) ∧ (rest = [] → ∀ q ∈ t.meshIrqs, q.held = false) ∧
      (rest = [] → ∀ fl ∈ s.waitFl, fl.msg.dst.toNat / 4096 = s.pkg.toNat → fl ∈ t.mesh)) ∧
    (rest = [] → enRoute s r.die = true ∨ enRoute s e = true → exec .remapSwitch s = .next s))

/-! ## Events: the Canopy -/

/-- R312 to R316, Table 15-3: a ray at its home is forwarded to owner n mod m, n its ray number, held for an entry that is not resident, or
discarded; while the wait area is full it waits; a core's cached entry goes at an invalidation; the Thaw engine reserves,
copies and pins, or fails, and the home answers. That a held ray takes 128 bytes of the area (log entry 64), and that the copy
is of the image's bytes at its completion (log entry 66), is the model's choice. -/
def Obligations.CanopyEvents : Prop :=
  (∀ (s : State) (j n : Nat) (m : Queued) (h : BitVec 16), s.homeQ[j]? = some (.ray n m) → h = rayTop m.msg →
    (∀ q ∈ s.homeQ.take j, ∀ k, q ≠ .ray n k) →
    (∀ (os : List (BitVec 16)) (o : BitVec 16), dirState s h = 1 → os = ceOwners (dirWords s h) →
      os[(m.msg.body.getD 0 0).toNat % 2 ^ 48 % os.length]? = some o → o.toNat < 4096 → s.remaps = [] →
      ∃ t fl, exec (.rayServedAtHome j) s = .next t ∧ t.mem = s.mem ∧ t.mesh = s.mesh ++ [fl] ∧
      t.homeQ = listRemove s.homeQ j ∧ fl.msg = { m.msg with dst := BitVec.ofNat 29 (s.pkg.toNat * 4096 + o.toNat) }) ∧
    (dirState s h = 3 ∨ dirState s h = 4 → 128 * (s.heldRays.length + 1) ≤ s.waitSize →
      ∃ t, exec (.rayServedAtHome j) s = .next t ∧ t.heldRays = s.heldRays ++ [⟨h, m.msg⟩] ∧ t.mesh = s.mesh ∧
        t.homeQ = listRemove s.homeQ j) ∧
    (dirState s h = 2 → 128 * (s.heldRays.length + 1) ≤ s.waitSize →
      ∃ t, exec (.rayServedAtHome j) s = .next t ∧ t.heldRays = s.heldRays ++ [⟨h, m.msg⟩] ∧ dirState t h = 3 ∧
        (t.core (ceTarget (dirWords s h))).thawQ = (s.core (ceTarget (dirWords s h))).thawQ ++ [⟨h, none, none⟩]) ∧
    (dirState s h = 0 → ∃ t, exec (.rayServedAtHome j) s = .next t ∧ t.mesh = s.mesh ∧ t.heldRays = s.heldRays ∧
      Delivered s t (siteOf s n) (some n) (msgHeader m.msg) 7 0) ∧
    (2 ≤ dirState s h → dirState s h ≤ 4 → s.waitSize < 128 * (s.heldRays.length + 1) →
      ((s.core n).waitSaid = true → exec (.rayServedAtHome j) s = .next s) ∧
      ((s.core n).waitSaid = false → ∃ t, exec (.rayServedAtHome j) s = .next t ∧ t.homeQ = s.homeQ ∧
        Reports s t 6 (siteOf s n) (some n) (leN 2 h.toNat)))) ∧
  (∀ (s : State) (n : Nat) (h : BitVec 16) (b : Bcast), coreHere s n = true →
    s.canopyInv.find? (fun b => b.key == h.setWidth 32 && !b.got.contains n) = some b →
    ∃ t, exec (.canopyInvalidation n h) s = .next t ∧ t.mem = s.mem ∧
      ∀ e, e ∈ (t.core n).canopy ↔ e ∈ (s.core n).canopy ∧ e.h ≠ h) ∧
  (∀ (s : State) (n i : Nat) (r : ThawReq) (rest : List ThawReq) (w : List W64), (s.core n).thawJob = none →
    (s.core n).thawQ = r :: rest → r.slot = some i → i < (s.core n).pinned.length → w = dirWords s r.h →
    (pinState ((s.core n).pinned.getD i {}) = 1 → paHbm (ceImage w + 256 * ceNodes w - 1) = true → 1 ≤ ceNodes w →
      ceNodes w ≤ 256 → ∃ t p, exec (.thawRequest n) s = .next t ∧ t.mem = s.mem ∧ (t.core n).thawQ = rest ∧
      (t.core n).thawJob = some ⟨r, i, ceImage w, ceNodes w⟩ ∧ (t.core n).pinned.getD i {} = p ∧ pinState p = 2 ∧
      pinHandle p = r.h.toNat ∧ pinFrom p = ceVersion w ∧ pinOff p = pinOff ((s.core n).pinned.getD i {})) ∧
    (pinState ((s.core n).pinned.getD i {}) ≠ 1 → ∃ t, exec (.thawRequest n) s = .next t ∧ (t.core n).thawQ = rest ∧
      (t.core n).thawJob = none ∧ t.homeQ = s.homeQ ++ [.thawFailed n r] ∧
      Reports s t 11 (siteOf s n) (some n) (leN 2 r.h.toNat ++ leN 1 1))) ∧
  (∀ (s : State) (n : Nat) (j : ThawJob), (s.core n).thawJob = some j → j.slot < (s.core n).pinned.length →
    (∃ t, exec (.thawCopyDone n) s = .next t ∧ t.mem = s.mem ∧ (t.core n).thawJob = none ∧
      (t.core n).getBs (pinOff ((s.core n).pinned.getD j.slot {})) (256 * j.nodes) =
        s.getBs (s.pkg.toNat * 2 ^ 47 + j.image) (256 * j.nodes) ∧
      pinState ((t.core n).pinned.getD j.slot {}) = 3 ∧ t.homeQ = s.homeQ ++ [.thawDone n j.req]) ∧
    (∀ (a : Nat) (y : W64), j.image ≤ a → a < j.image + 256 * j.nodes → capReady s 4 = false →
      s.host.held.length < 1023 → ∃ t, exec (.thawCopyFailed n a y) s = .next t ∧ t.mem = s.mem ∧
      (t.core n).thawJob = none ∧ pinState ((t.core n).pinned.getD j.slot {}) = 1 ∧
      t.homeQ = s.homeQ ++ [.thawFailed n j.req] ∧ t.host.held = s.host.held ++
        [hostEntry s 10 (a / 0xC00000000) (some n) (leN 8 a ++ leN 8 4 ++ bytesLE 8 y),
         hostEntry s 11 (siteOf s n) (some n) (leN 2 j.req.h.toNat ++ leN 1 2)])) ∧
  (∀ (s : State) (j n : Nat) (r : ThawReq),
    (s.homeQ[j]? = some (.thawDone n r) → dirState s r.h = 1 → (ceOwners (dirWords s r.h)).length < 4 →
      ∃ t, exec (.thawDoneAtHome j) s = .next t ∧ t.homeQ = listRemove s.homeQ j ∧ dirState t r.h = 1 ∧
        ceOwners (dirWords t r.h) = ceOwners (dirWords s r.h) ++ [BitVec.ofNat 16 n] ∧
        ∀ uid seq, r.by_ = some (uid, seq) → Answers s t n uid seq 0) ∧
    (s.homeQ[j]? = some (.thawFailed n r) → dirState s r.h = 3 → ceOwners (dirWords s r.h) = [] →
      ∃ t, exec (.thawFailedAtHome j) s = .next t ∧ t.homeQ = listRemove s.homeQ j ∧ dirState t r.h = 2 ∧
        ∀ uid seq, r.by_ = some (uid, seq) → Answers s t n uid seq 4))

/-! ## Events: the host and the controllers -/

/-- R378, R379: mailbox entries and the BAR4 window. That an entry waits behind the FIFO's others, and that one which must wait
for its record or its core stays in the FIFO, is the model's order (log entry 36). -/
def Sys2Proof.Claims.MailboxEvents : Prop :=
  (∀ (s : State) (off : Nat) (bytes : List Byte), bytes.length = 64 → off % 64 = 0 → off < 2 ^ 16 →
    s.host.mailbox = [] →
    (∀ m, off < 2 ^ 14 → m = mailboxMsg bytes →
      (mailboxMsgOk s m = false → counted m.ltag = false → ∃ t, exec (.mailboxMessage off bytes) s = .next t ∧
        t.mesh = s.mesh ∧ Delivered s t 0 none (padTo 16 bytes) 10 off) ∧
      (mailboxMsgOk s m = true → s.remaps = [] → tagEnding s m.ltag = false →
        ∃ t fl, exec (.mailboxMessage off bytes) s = .next t ∧ t.mesh = s.mesh ++ [fl] ∧ fl.msg = m ∧
        (counted m.ltag = true → recCount t (tagIdx m.ltag) = recCount s (tagIdx m.ltag) + 1) ∧
        (counted m.ltag = false → t.mem = s.mem))) ∧
    (∀ i, off / 2 ^ 14 = 1 → i = tagIdx (ldTag bytes) → ldParent bytes = 0 →
      (ldBad s (ldLevel bytes == 0) bytes = true ∨ ldClearing bytes = true → ∃ t,
        exec (.mailboxLaunch off bytes) s = .next t ∧ Delivered s t 0 none (padTo 16 bytes) 11 off) ∧
      (ldBad s (ldLevel bytes == 0) bytes = false → ldClearing bytes = false → recState s i = 0 → capReady s 4 = false →
        (ldLevel bytes = 0 → wokenSet s bytes ≠ []) → ∃ t, exec (.mailboxLaunch off bytes) s = .next t ∧ recState t i = 1 ∧
        Reports s t 2 (recSite s i) none (bytesLE 4 (ldTag bytes) ++ leN 1 0 ++ leN 1 1))) ∧
    (∀ tag i, off / 2 ^ 14 = 2 → tag = w32OfLE (bytes.take 4) → i = tagIdx tag →
      (tagBad s tag = true → ∃ t, exec (.mailboxCancel off bytes) s = .next t ∧
        Delivered s t 0 none (padTo 16 bytes) 11 off) ∧
      (tagBad s tag = false → tagPkg tag = s.pkg.toNat → recState s i ≠ 1 → ∃ t,
        exec (.mailboxCancel off bytes) s = .next t ∧
        Reports s t 2 (recSite s i) none (bytesLE 4 tag ++ leN 1 4 ++ leN 1 2)) ∧
      (tagBad s tag = false → tagPkg tag = s.pkg.toNat → recState s i = 1 → recCount s i ≠ 0 → recLevel s i = 0 →
        (recFlags s i).getLsbD 0 = false → ∃ t, exec (.mailboxCancel off bytes) s = .next t ∧
        t.filterAdd = s.filterAdd ++ [⟨tag, []⟩] ∧
        Reports s t 2 (recSite s i) none (bytesLE 4 tag ++ leN 1 0 ++ leN 1 2))) ∧
    (off / 2 ^ 14 = 3 → ∃ t, exec (.mailboxInvalid off bytes) s = .next t ∧
      Delivered s t 0 none (padTo 16 bytes) 9 off)) ∧
  (∀ (s : State) (off : Nat) (bytes : List Byte) (e : Nat × List Byte) (r : List (Nat × List Byte)) (i : Instr),
    bytes.length = 64 → off % 64 = 0 → off < 2 ^ 16 → s.host.mailbox = e :: r → e ≠ (off, bytes) →
    (off / 2 ^ 14 = 0 ∧ i = .mailboxMessage off bytes) ∨ (off / 2 ^ 14 = 1 ∧ i = .mailboxLaunch off bytes) ∨
      (off / 2 ^ 14 = 2 ∧ i = .mailboxCancel off bytes) →
    exec i s = .next (if r.length < 255 then { s with host := { s.host with mailbox := e :: r ++ [(off, bytes)] } } else s)) ∧
  (∀ (s : State) (off : Nat) (bytes : List Byte), bytes.length ≠ 64 ∨ off % 64 ≠ 0 → ∃ t,
    exec (.mailboxInvalid off bytes) s = .next t ∧ Delivered s t 0 none (padTo 16 bytes) 8 off) ∧
  (∀ (s : State) (off key : Nat) (bytes : List Byte), off + bytes.length ≤ 2 ^ 36 →
    s.host.bar4Base + off + bytes.length ≤ 0x6000000000 → key = s.pkg.toNat * 2 ^ 47 + (s.host.bar4Base + off) →
    (∃ t, exec (.bar4Write off bytes) s = .next t ∧ t.getBs key bytes.length = bytes ∧
      ∀ a, a < key ∨ key + bytes.length ≤ a → t.getB a = s.getB a) ∧
    ∃ t, exec (.bar4Read off bytes.length) s = .next t ∧ t.mem = s.mem ∧
      t.host.bar4Reads = s.host.bar4Reads ++ [(off, s.getBs key bytes.length)]) ∧
  (∀ (s : State) (off : Nat) (bytes : List Byte), 2 ^ 36 < off + bytes.length → exec (.bar4Write off bytes) s = .next s)

/-- R374 to R376, R380, R381, R383, R385 to R387: register writes reach a function that is ready and no header; readiness
stays; the device queue's descriptor and what was held for it, attestation, power and thermal limits, link states and patrol
scrubbing. That capability k's header is the 16 bytes at (k − 1) × 0x1000 (log entry 18), when the manager raises a clock
again (log entry 87), and that the error counters stop at their greatest value (log entry 5), is the model's choice. -/
def Sys2Proof.Claims.ControllerEvents : Prop :=
  (∀ (s : State) (off k : Nat) (bs : List Byte), off < 0xF0000000 → k = off / 0x1000 + 1 →
    off % 0x1000 < 16 ∨ 9 < k ∨ capReady s k = false → exec (.registerWrite off bs) s = .next s) ∧
  (∀ (s : State) (o : Nat) (bs : List Byte), o + bs.length ≤ 512 → s.host.msixTable.length = 512 → ∃ t,
    exec (.registerWrite (0xF0000000 + o) bs) s = .next t ∧ t.mem = s.mem ∧ t.host.msixTable.length = 512 ∧
    ∀ i, t.host.msixTable[i]? = if o ≤ i ∧ i < o + bs.length then bs[i - o]? else s.host.msixTable[i]?) ∧
  (∀ (s : State) (id : BitVec 16), 1 ≤ id.toNat → id.toNat ≤ 9 → ∃ t, exec (.capabilityReady id) s = .next t ∧
    ∀ k, k < 16 → capReady t k = (capReady s k || decide (k = id.toNat))) ∧
  (∀ (s : State) (ws : List W64), ws.length = 8 →
    (capReady s 4 = false → exec (.deviceQueueEnable ws) s = .next s) ∧
    (capReady s 4 = true → s.host.held = [] → ∃ t, exec (.deviceQueueEnable ws) s = .next t ∧ t.mem = s.mem ∧
      t.host.devq = ws.flatMap (bytesLE 8)) ∧
    (capReady s 4 = true → s.host.held ≠ [] → ws.getD 0 0 ≠ 0 → ∃ t, exec (.deviceQueueEnable ws) s = .next t ∧
      t.mem = s.mem ∧ t.host.held = [] ∧ t.host.queue = s.host.queue ++ s.host.held)) ∧
  (∀ (s : State) (cmd : W32), capReady s 2 = true → ∃ t, exec (.attestCommand cmd) s = .next t ∧ t.mem = s.mem ∧
    t.host.attBusy = (s.host.attBusy || decide (cmd = 1))) ∧
  (∀ s : State, s.host.attBusy = false → exec .attestReportDone s = .next s) ∧
  (∀ (s : State) (key : Nat), s.host.attBusy = true → capReady s 4 = false →
    key = s.pkg.toNat * 2 ^ 47 + (s.host.bar4Base + s.host.attAddr.toNat % 2 ^ 36) → ∃ t,
    exec .attestReportDone s = .next t ∧ t.host.attBusy = false ∧ t.host.attStatus = 0 ∧
    t.getBs key (reportBody s).length = reportBody s ∧
    Reports s t 14 0 none (leN 8 0 ++ bytesLE 8 s.host.attAddr)) ∧
  (∀ (s : State) (w : BitVec 16), capReady s 9 = true → ∃ t, exec (.hostPowerLimit w) s = .next t ∧ t.mem = s.mem ∧
    t.host.limit = (if 1000 ≤ w.toNat ∧ w.toNat ≤ 3300 then w else s.host.limit) ∧
    (s.host.clocks.length = 40 → s.host.temps.length = 40 → ∀ i, i < 40 → t.host.clocks.getD i 36 =
      if s.host.limit.toNat < w.toNat ∧ 1000 ≤ w.toNat ∧ w.toNat ≤ 3300 ∧ (s.host.temps.getD i 0).toNat < 100 then 36
      else s.host.clocks.getD i 36)) ∧
  (∀ (s : State) (i k : Nat), i < 40 → s.host.clocks.length = 40 → k = s.host.clocks.getD i 36 → 18 < k →
    ∃ t, exec (.powerLimitThrottle i) s = .next t ∧ t.host.clocks.getD i 36 = k - 1 ∧ t.host.throttled = true ∧
      (s.host.throttled = false → Reports s t 12 0 none
        (leN 1 1 ++ leN 1 i ++ bytesLE 2 s.host.limit ++ bytesLE 2 (s.host.temps.getD i 0)))) ∧
  (∀ (s : State) (i : Nat) (d : BitVec 16), i < 40 → s.host.clocks.length = 40 → s.host.temps.length = 40 →
    (100 ≤ d.toNat → ∃ t, exec (.thermalThrottle i d) s = .next t ∧ t.host.temps.getD i 0 = d ∧
      t.host.clocks.getD i 36 = max 18 (s.host.clocks.getD i 36 - 1) ∧
      ((s.host.temps.getD i 0).toNat < 100 → Reports s t 12 (islandSite i) none
        (leN 1 2 ++ leN 1 i ++ bytesLE 2 s.host.limit ++ bytesLE 2 d))) ∧
    (d.toNat < 100 → ∃ t, exec (.thermalThrottle i d) s = .next t ∧ t.host.temps.getD i 0 = d ∧
      t.host.clocks.getD i 36 = min 36 (s.host.clocks.getD i 36 + 1) ∧ t.host.held = s.host.held) ∧
    (110 ≤ d.toNat → ∃ t, exec (.thermalHalt i d) s = .next t ∧ t.host.temps.getD i 0 = d ∧
      (∀ n, coreHere s n = true → (t.core n).cstate = 4 ∧ ∀ sl f, sl ≤ trapSlot → t.firing n sl = some f → f.stop ≠ 0) ∧
      Reports s t 12 (islandSite i) none (leN 1 3 ++ leN 1 i ++ bytesLE 2 s.host.limit ++ bytesLE 2 d))) ∧
  (∀ (s : State) (num : Nat) (old st : Byte), old ≠ st →
    (num < 4 → s.host.cxlState.length = 4 → old = s.host.cxlState.getD num 0 → ∃ t,
      exec (.linkStateChange false num st) s = .next t ∧ t.host.cxlState.getD num 0 = st ∧
      t.host.lysState = s.host.lysState ∧
      Reports s t 13 ([0, 3, 4, 7].getD num 0) none [0, BitVec.ofNat 8 num, old, st]) ∧
    (num < 8 → s.host.lysState.length = 8 → old = s.host.lysState.getD num 0 → ∃ t,
      exec (.linkStateChange true num st) s = .next t ∧ t.host.lysState.getD num 0 = st ∧
      t.host.cxlState = s.host.cxlState ∧
      (st ≠ 0 → ∀ fl ∈ s.waitFl, fl.msg.dst.toNat / 4096 ≠ s.pkg.toNat → fl ∈ t.lyspor) ∧
      Reports s t 13 ([1, 1, 2, 2, 5, 5, 6, 6].getD num 0) none [1, BitVec.ofNat 8 num, old, st])) ∧
  (∀ (s : State) (a site : Nat) (y : W64) (k : W32), a < 0x6000000000 → site = a / 0xC00000000 →
    (s.host.corrected.length = 8 → k = s.host.corrected.getD site 0 → k ≠ 0xFFFFFFFF → ∃ t,
      exec (.patrolScrubError a true y) s = .next t ∧ t.mem = s.mem ∧ t.host.corrected.getD site 0 = k + 1 ∧
      t.host.held = s.host.held ∧ t.host.queue = s.host.queue) ∧
    (s.host.uncorr.length = 8 → k = s.host.uncorr.getD site 0 → k ≠ 0xFFFFFFFF → ∃ t,
      exec (.patrolScrubError a false y) s = .next t ∧ t.host.uncorr.getD site 0 = k + 1 ∧
      Reports s t 10 site none (leN 8 a ++ leN 8 3 ++ bytesLE 8 y)))

/-- R11, R83, R84, R382, R384, R389: the loader's command, its refusals and its start; each core's copy along its edge, its
report, and the end of the load; the restart of a halted core; the module reset. That memory then reads zero everywhere (log
entry 3), and what the host's registers, links and counters then hold beyond the values the rules give (log entry 5), is the
model's choice. -/
def Obligations.ImageEvents : Prop :=
  (∀ (s : State) (cmd : W32) (b : List Byte), capReady s 3 = true →
    b = s.getBs (s.pkg.toNat * 2 ^ 47 + s.host.imgAddr.toNat % 2 ^ 47) s.host.imgLen.toNat →
    (cmd = 1 → s.load.isSome = true → ∃ t, exec (.imageLoadCommand cmd) s = .next t ∧ t.load = s.load ∧
      t.host.imgStatus = 8 ∧ Reports s t 1 0 none ([8] ++ leN 7 0 ++ leN 8 s.host.imgAddr.toNat)) ∧
    (cmd = 1 → s.load = none → s.host.imgAsid = 0 → ∃ t, exec (.imageLoadCommand cmd) s = .next t ∧ t.load = none ∧
      t.host.imgStatus = 2 ∧ Reports s t 1 0 none ([2] ++ leN 7 0 ++ leN 8 s.host.imgAddr.toNat)) ∧
    (cmd = 1 → s.load = none → s.host.imgAsid ≠ 0 → imgStatusOf s s.host.imgAsid b ≠ 0 →
      ∃ t, exec (.imageLoadCommand cmd) s = .next t ∧ t.load = none ∧
      t.host.imgStatus = imgStatusOf s s.host.imgAsid b ∧
      Reports s t 1 0 none ([imgStatusOf s s.host.imgAsid b] ++ leN 7 0 ++ leN 8 s.host.imgAddr.toNat)) ∧
    (cmd = 1 → s.load = none → s.host.imgAsid ≠ 0 → imgStatusOf s s.host.imgAsid b = 0 →
      ∃ t l, exec (.imageLoadCommand cmd) s = .next t ∧ t.load = some l ∧ l.addr = s.host.imgAddr.toNat ∧ l.bytes = b ∧
      l.asid = s.host.imgAsid ∧ l.arrived = [] ∧ l.ready = [] ∧ ∀ p ∈ placed s b, (t.core p.1).loading = true) ∧
    (cmd ≠ 1 → ∃ t, exec (.imageLoadCommand cmd) s = .next t ∧ t.load = s.load ∧ t.mem = s.mem)) ∧
  (∀ (s : State) (n : Nat) (l : LoadSt) (e : BootEdge), s.load = some l → l.tree.find? (fun e => e.child == n) = some e →
    (n ∉ l.arrived → (∀ p, e.parent = some p → p ∈ l.arrived) → ∃ t, exec (.bootTreeForward n) s = .next t ∧
      t.mem = s.mem ∧ t.load = some { l with arrived := l.arrived ++ [n] } ∧ (t.core n).asid = l.asid ∧
      (t.core n).placed = true ∧ (t.core n).vt = 0 ∧ (t.core n).tvec = 0 ∧ (t.core n).brk0 = 0 ∧ (t.core n).wch0 = 0 ∧
      (t.core n).htab = roleHtab l.bytes e.role) ∧
    (∀ p, e.parent = some p → p ∉ l.arrived → exec (.bootTreeForward n) s = .next s) ∧
    (n ∈ l.arrived → n ∉ l.ready → (∀ e ∈ l.tree, e.parent = some n → e.child ∈ l.arrived) →
      exec (.coreReadyReport n) s = .next { s with load := some { l with ready := l.ready ++ [n] } }) ∧
    (n ∉ l.arrived → exec (.coreReadyReport n) s = .next s)) ∧
  (∀ (s : State) (l : LoadSt), s.load = some l →
    ((∃ e ∈ l.tree, e.child ∉ l.ready) → exec .imageLoaded s = .next s) ∧
    ((∀ e ∈ l.tree, e.child ∈ l.ready) → (∀ n, (s.core n).inbox = []) → ∃ t, exec .imageLoaded s = .next t ∧
      t.load = none ∧ t.host.imgStatus = 0 ∧ (∀ e ∈ l.tree, (t.core e.child).loading = false) ∧
      Reports s t 1 0 none ([0] ++ leN 7 0 ++ leN 8 l.addr))) ∧
  (∀ (s : State) (gca : W64) (n : Nat), capReady s 1 = true → n = gca.toNat % 2 ^ 29 % 4096 →
    gca.toNat % 2 ^ 29 / 4096 = s.pkg.toNat → coreHere s n = true → (s.core n).cstate = 4 → ∃ t,
    exec (.coreRestart gca) s = .next t ∧ (t.core n).cstate = 0 ∧ (t.core n).trapQ = [] ∧
      ∀ sl, sl ≤ trapSlot → t.firing n sl = none) ∧
  (∀ s : State, ∃ t, exec .moduleReset s = .next t ∧ t.mem = [] ∧ t.l2 = [] ∧ t.mesh = [] ∧ t.homeQ = [] ∧ t.load = none ∧
    t.part = s.part ∧ t.host = State.reset.host ∧ t.dieMap = resetMap s.part ∧ (∀ n, (t.core n).cstate = 0) ∧
    (Config.sigVerifies Config.stageBytes Config.rootKeyIndex Config.stageSignature = false ∨
      keyUsable s Config.rootKeyIndex = false → ∀ n sl, t.firing n sl = none))

/-! ## Reset, invariant, decoding, the step -/

/-- R11, R84, R282, R376, R380, R387: what module reset leaves. The spec states the die map, the claims and reports of virtual
time, the spill queue's registers, the functions of the host and the power limit. The model's choice is the rest: that tvec,
tws, brk0, brk1, wch0 and wch1 read zero (log entry 7: R361 gives them a value at image load only), that no firing, message or
filter entry is there, and that memory and the scratchpads read zero (log entries 3 and 7). -/
def Obligations.ResetState : Prop :=
  (∀ d, d < 8 → siteOfDie State.reset d = d) ∧ (∀ k, capReady State.reset k = false) ∧ State.reset.host.limit = 3300 ∧
  State.reset.host.held = [] ∧ State.reset.load = none ∧
  (∀ n c, c = State.reset.core n → c.vt = 0xFFFFFFFFFFFFFFFF ∧ c.report = 0xFFFFFFFFFFFFFFFF ∧ c.placed = false ∧
    c.tvec = 0 ∧ c.tws = 0 ∧ c.brk0 = 0 ∧ c.brk1 = 0 ∧ c.wch0 = 0 ∧ c.wch1 = 0 ∧ c.spq = 0 ∧ c.spqsz = 0 ∧ c.cstate = 0 ∧
    c.filter = [] ∧ c.inbox = [] ∧ c.firings = [] ∧ (∀ o, c.getB o = 0) ∧ (∀ h, c.entry h = none)) ∧
  (∀ a, State.reset.getB a = 0) ∧ Memory.wf State.reset.mem = true

/-- R188, R189 over the model's own form of memory (log entry 3): every step of the module keeps the memory in its canonical
form, from every state, reachable or not. -/
def Obligations.MemoryInvariant : Prop :=
  ∀ s t : State, Memory.wf s.mem = true → step s = .next t → Memory.wf t.mem = true

/-- R188, R189 over the model's own form of memory (log entry 3): the canonical form is one: memories in it that read alike are the same data; and the reset state has it. -/
def Obligations.MemoryCanonical : Prop :=
  Memory.wf State.reset.mem = true ∧
  ∀ m m' : List Host.Cell, Memory.wf m = true → Memory.wf m' = true →
    (∀ a, spGet (0 : Byte) m a = spGet (0 : Byte) m' a) → m = m'

/-- R25 to R38 and each chapter's encoding tables: every well-formed instruction, with every operand at every value its
encoding admits, has an encoding, and the decoder reads the encoder's words back as that instruction and its length, whatever
bytes stand behind them. -/
def Obligations.DecodeEncode : Prop :=
  ∀ i : Instr, WellFormed i → ∃ bs l, encodeBytes i = some bs ∧ lenBytes l = bs.length ∧
    ∀ rest, decode (bs ++ rest) = .ok (i, l)

namespace Sys2Proof.Claims

/-- Words in address order decode to an instruction of their length. -/
def Reads (ws : List W32) (i : Instr) (l : Len) : Prop := decode (ws.flatMap (bytesLE 4)) = .ok (i, l)

/-- A head with no chain bit, NW = 0 and the guard that is always true. -/
def plainHead : Head := { c := false, nw := false, pa := 0, pb := 0, pc := 0, ntt := 0 }

/-- The examples of chapters 2 to 6: `(k5) ADD s5, s6, s7` and the others in their order. -/
def WordsScalar : Prop :=
  Reads [0x00000801, 0x00000000] (.nop { h := plainHead, len := .l64 }) .l64 ∧
  Reads [0x40000001, 0x00038181] (.add { h := plainHead, d := 5, a := .reg 6, b := .src (.reg 7), sat := .wrap, w := false }) .l64 ∧
  Reads [0x115A2D0D, 0x00028100] (.vfadd { h := { c := true, nw := true, pa := 1, pb := 2, pc := 3, ntt := 69 }, d := 0, a := .reg 4, b := .src (.reg 5), x := 0, ftz := false, rm := 0, t := 0 }) .l64 ∧
  Reads [0x80000D21, 0x0003C101] (.vfmul { h := plainHead, d := 6, a := .lv 0, b := .src (.reg 7), x := 0, ftz := false, rm := 0, t := 0 }) .l64 ∧
  Reads [0x00000D32, 0x00050242, 0x00000114] (.vffma { h := plainHead, d := 8, a := .reg 9, b := .reg 10, c := .const 4, x := 0, ftz := false, rm := 0, t := 0 }) .l96 ∧
  Reads [0x40000311, 0xFF6A0002] (.movi { h := plainHead, d := 9, imm := .i17 0x1fed4 }) .l64 ∧
  Reads [0x43C0A001, 0x00038181] (.add { h := { plainHead with pa := 5, ntt := 15 }, d := 5, a := .reg 6, b := .src (.reg 7), sat := .wrap, w := false }) .l64 ∧
  Reads [0xC0000002, 0x05000100, 0x00000064] (.add { h := plainHead, d := 3, a := .reg 4, b := .imm 100, sat := .ss, w := true }) .l96 ∧
  Reads [0xC0000223, 0x000401C1, 0x00000000, 0x0000140C] (.bfi { h := plainHead, d := 7, a := .reg 7, b := .reg 8, ctl := .imm 0x140c }) .l128 ∧
  Reads [0x43C04061, 0x00880181] (.divu { h := { plainHead with pa := 2, ntt := 15 }, d := 5, a := .reg 6, b := .src (.const 0), sat := .wrap, w := false }) .l64 ∧
  Reads [0x40000431, 0x08880104] (.vfcmp { h := plainHead, pt := 1, pf := 2, mode := 0, cond := 4, t := false, a := .reg 4, b := .src (.const 0) }) .l64 ∧
  Reads [0x40000432, 0x46000104, 0x41200000] (.vfcmp { h := plainHead, pt := 1, pf := 2, mode := 2, cond := 3, t := false, a := .reg 4, b := .imm 0x41200000 }) .l96 ∧
  Reads [0xC0000441, 0x801E0440] (.plop { h := plainHead, lane := true, d := 3, s1 := 1, s2 := 2, s3 := 0, table := 60 }) .l64 ∧
  Reads [0x03C02821, 0x00080000] (.bra { h := { plainHead with pa := 1, ntt := 15 }, off := .i17 16 }) .l64 ∧
  Reads [0x00000831, 0x00020000] (.bru { h := plainHead, off := .i17 4 }) .l64 ∧
  Reads [0x00000881, 0x00000000] (.join { h := plainHead }) .l64 ∧
  Reads [0x000008C1, 0x00000000] (.done { h := plainHead }) .l64

/-- The examples of chapters 7 to 14. -/
def WordsLane : Prop :=
  Reads [0x00000C32, 0x45030141, 0x00000007] (.ffma { h := plainHead, d := 4, a := .reg 5, b := .reg 6, c := .reg 7, x := 2, ftz := false, rm := 1 }) .l96 ∧
  Reads [0x03C034C2, 0x48000305, 0x00022A00] (.cvtEf { h := { plainHead with pa := 1, ntt := 15 }, d := 20, a := .reg 12, fmt := 4, seg := 2, form := .resid 21 }) .l96 ∧
  Reads [0xC0001211, 0x0E888100] (.shfl { h := plainHead, d := 3, a := .reg 4, b := .src (.const 1), wl := 3, mode := 2 }) .l64 ∧
  Reads [0x40001231, 0x28000202] (.wred { h := plainHead, d := 9, a := .reg 8, wl := 2, op := 8 }) .l64 ∧
  Reads [0x0000122E, 0x10000080, 0x0000FFFF] (.xchg { h := { plainHead with c := true, nw := true }, d := 0, a := .reg 2, b := .imm 0xffff, dl := 4 }) .l96 ∧
  Reads [0x80001222, 0x00004101, 0x55555555] (.xchg { h := plainHead, d := 6, a := .lv 0, b := .imm 0x55555555, dl := 0 }) .l96 ∧
  Reads [0x00001401, 0x121C0200] (.mma { h := plainHead, d := 0, a := 8, b := 56, i := false, ta := 2, tb := 2 }) .l64 ∧
  Reads [0x80001802, 0x03000101, 0x00000040] (.ld { h := plainHead, d := 6, a := .reg 4, idx := .disp 64, sx := false, g := false, size := 3 }) .l96 ∧
  Reads [0xC0001811, 0x32028101] (.st { h := plainHead, d := 7, a := .reg 4, idx := .idx (.reg 5) true, sx := false, g := true, size := 2 }) .l64 ∧
  Reads [0x00001981, 0x02000240] (.fenceRel { h := plainHead, a := .reg 9 }) .l64 ∧
  Reads [0x00001992, 0x418F8100, 0x0000000A] (.atomNz { h := plainHead, d := 0, a := .reg 4, b := .const 15, n := 10, op := 0, u := false, sz := true }) .l96 ∧
  Reads [0x40001C01, 0x19088500] (.send { h := plainHead, d := 1, dst := .reg 20, hid := .num 17, len := 3, ch := 1, stamp := none }) .l64 ∧
  Reads [0x80001C91, 0x00000101] (.launchWake { h := plainHead, d := 6, a := .reg 4 }) .l64 ∧
  Reads [0x00001CF1, 0x000001C0] (.hzwait { h := plainHead, a := .reg 7 }) .l64 ∧
  Reads [0x40001D01, 0x00060200] (.rsend { h := plainHead, d := 1, a := .reg 8, hid := .num 12 }) .l64

/-- The examples of chapters 14 to 17. -/
def WordsUnits : Prop :=
  Reads [0x00001D11, 0x00008405] (.boxt { h := plainHead, d := 20, a := .reg 16, ray := 1 }) .l64 ∧
  Reads [0x40001D32, 0x01078500, 0x00000010] (.rpushBox { h := plainHead, d := 1, a := .reg 20, g := .reg 15, n := .reg 16 }) .l96 ∧
  Reads [0x83C0BD52, 0x00008605, 0x00000910] (.rhit { h := { plainHead with pa := 5, ntt := 15 }, d := 22, core := .reg 24, ray := 1, user := .const 0, hid := 4 }) .l96 ∧
  Reads [0x80001DC1, 0x00048201] (.thaw { h := plainHead, d := 6, a := .reg 8, b := .reg 9 }) .l64 ∧
  Reads [0x40001E02, 0x01080780, 0x0000281F] (.rlog { h := plainHead, d := 1, q := .reg 30, node := .reg 16, stamp := .reg 31, event := 1, x := 20 }) .l96 ∧
  Reads [0x80001E22, 0x01028101, 0x00000007] (.bget { h := plainHead, d := 6, dst := .reg 4, src := .reg 5, len := .reg 7, ctx := 1, nt := none }) .l96 ∧
  Reads [0x00001E71, 0x01000200] (.tlwait { h := plainHead, a := .reg 8, ctx := 1 }) .l64 ∧
  Reads [0x00001E82, 0x0204820A, 0x00000003] (.smp { h := plainHead, d := 40, u := 8, v := 9, desc := .reg 3, qm := 2 }) .l96 ∧
  Reads [0x40001F01, 0x00040001] (.rsr { h := plainHead, d := 5, num := 8 }) .l64 ∧
  Reads [0x00001F21, 0x00028000] (.trap { h := plainHead, code := 5 }) .l64 ∧
  Reads [0x80001F41, 0x01000042] (.fresumeStep { h := plainHead, d := 10, a := .reg 1 }) .l64 ∧
  Reads [0x80001F92, 0x010A8501, 0x00000000] (.preemptSwap { h := plainHead, d := 6, a := .reg 20, b := .reg 21 }) .l96

end Sys2Proof.Claims

/-- Words written out from the encoding tables of the spec decode to the instructions they stand for; a length code
0b00, a reserved bit, a slot with no form and a cut instruction do not. -/
def Obligations.DecodeWords : Prop :=
  WordsScalar ∧ WordsLane ∧ WordsUnits ∧
  decode (bytesLE 8 (0x800 : W64)) = .error .noLength ∧ decode (bytesLE 8 (0x8000000000000801 : W64)) = .error .illegal ∧
  decode (bytesLE 8 (0x0003818140000FF1 : W64)) = .error .illegal ∧ decode (bytesLE 4 (0x40000001 : W32)) = .error .short

namespace Sys2Proof.Claims

/-- R99, R151, R308: the divider, the scalar and the lane divide units and the triangle tester: what engages one and for how
long, and that one engaged keeps the next instruction of its kind from issuing, a disabled one too. -/
def TimedUnits : Prop :=
  (∀ (c : Core) (f : Firing) (o : AluOps), ∀ i ∈ [Instr.div o, .divu o, .rem o, .remu o],
    needOf c f i = some ⟨0, if o.w then 20 else 36, f.enS o.h⟩) ∧
  (∀ (t : State) (n u v k : Nat), 0 < k → unitFree (engage t n (some ⟨u, k, true⟩)) n u = false ∧
    (v ≠ u → unitFree (engage t n (some ⟨u, k, true⟩)) n v = unitFree t n v)) ∧
  (∀ (t : State) (n u k : Nat), engage t n (some ⟨u, k, false⟩) = t) ∧
  ∀ (s u : State) (n sl : Nat) (f : Firing) (lane : Bool) (i : Instr) (l : Len) (x : Need), look s n sl f = .go u i l →
    needOf (u.core n) f i = some x → unitFree u n x.unit = false → issueNext s n sl f lane = none

end Sys2Proof.Claims

/-- R25 to R28, R55, R59, R99, R255, R256, R350, log entry 6: a step runs the agenda's first move: an event is executed; an
issue takes the first firing in the pipe's order, decodes the bytes at its program counter and executes the decoded instruction
as that firing's; unless the firing only began to wait, its effective priority returns to its handler's, and the round-robin
pointer moves past its slot, but not where a chain holds the pipe for it; with an empty agenda the default move runs. -/
def Obligations.StepRunsDecoded : Prop :=
  (∀ (s : State) (i : Instr) (rest : List Move), s.agenda = .event i :: rest →
    step s = exec i { s with tick := s.tick + 1, who := none, agenda := rest }) ∧
  (∀ s : State, s.agenda = [] → step s = runDefault { s with tick := s.tick + 1, who := none }) ∧
  (∀ (s u t : State) (n sl : Nat) (lane : Bool) (slots : List Nat) (rest : List Move) (f : Firing) (b : L1IBlock)
    (i : Instr) (l : Len), s.agenda = .issue n lane :: rest →
    u = { s with tick := s.tick + 1, who := none, agenda := rest } → issueOrder (s.core n) lane = sl :: slots →
    s.firing n sl = some f → mayLook (s.core n) sl f = true → f.badDep = none → f.rel = none →
    brkHit (s.core n) sl f = false →
    (s.core n).l1iFind f.pc.toNat = some b → permOk (privileged (s.core n) sl) .fetch b.pte 0 = true →
    b.data.length = 32 → f.pc.toNat % 4 = 0 → decode (b.data.drop (f.pc.toNat % 32)) = .ok (i, l) →
    f.pc.toNat % 32 + lenBytes l ≤ 32 → f.pc.toNat % 32 ≠ 28 →
    decodeCheck (privileged (s.core n) sl) f ((wordAt (b.data.drop (f.pc.toNat % 32)) 0).getLsbD 2) i = none →
    (uses i).lane = lane → scoreReady (s.core n) sl f i = true → fpxReady (s.core n) sl f = true →
    unitReady u n f i = true → exec i { u with who := some (n, sl) } = .next t →
    (∀ v, issued t n sl f = true → v = unboost (afterIssue (engage t n (needOf (s.core n) f i)) n sl f i) n sl f.uid →
      step s = .next (if (chainHolder (s.core n) lane).isSome then v else markChosen v n sl f.effPri lane)) ∧
    (issued t n sl f = false → t.firing n sl ≠ some f → step s = .next t)) ∧
  (∀ (t : State) (n sl : Nat) (f : Firing) (i : Instr), f.mode = 0 → afterIssue t n sl f i = t) ∧
  (∀ (t : State) (n sl : Nat) (f g : Firing) (i : Instr), t.firing n sl = some g → g.stop ≠ 0 ∨ g.hold = .replay →
    afterIssue t n sl f i = t) ∧
  (∀ (t : State) (n sl : Nat) (g : Firing), t.firing n sl = some g →
    unboost t n sl g.uid = t.setFiring n sl { g with boost := 0 } ∧ ∀ uid, uid ≠ g.uid → unboost t n sl uid = t) ∧
  (∀ (t : State) (n sl uid : Nat), t.firing n sl = none → unboost t n sl uid = t) ∧
  TimedUnits

/-! ## The parts together -/

/-- R89, R90: sums, differences, products, quotients, least and greatest of scalars, with their saturation. -/
def Obligations.ScalarArithmetic : Prop := Sys2Proof.Claims.AddSubMulAbs ∧ Sys2Proof.Claims.ProductsQuotients

/-- R51, R56, R36, R27: what a register write of a scalar or a lane form does to its firing. -/
def Obligations.RegisterWrites : Prop := Sys2Proof.Claims.WriteScalar ∧ Sys2Proof.Claims.WriteLane

/-- R91 to R94: logic, shifts, counts, reversals and bit fields. -/
def Obligations.ScalarBits : Prop := Sys2Proof.Claims.ScalarLogicShift ∧ Sys2Proof.Claims.ScalarCounts ∧ Sys2Proof.Claims.ScalarBitFields

/-- R87, R101, R113: what the scalar integer, predicate and control forms leave unchanged. -/
def Obligations.ScalarFrames : Prop := Sys2Proof.Claims.ScalarFrame ∧ Sys2Proof.Claims.PredicateFrame ∧ Sys2Proof.Claims.ControlFrame

/-- R104 to R106: floating compares and the conditions they test. -/
def Obligations.FloatCompares : Prop := Sys2Proof.Claims.FloatCompareForms ∧ Sys2Proof.Claims.FloatConditions

/-- R120, R122 to R126: branches of a wave's paths, the path instructions, the end of a firing. -/
def Obligations.LanePaths : Prop := Sys2Proof.Claims.LaneBranches ∧ Sys2Proof.Claims.PathInstructions ∧ Sys2Proof.Claims.PathMerge ∧ Sys2Proof.Claims.DoneEnds

/-- R139 to R142: the floating forms of both pipes. -/
def Obligations.FloatForms : Prop := Sys2Proof.Claims.FloatScalar ∧ Sys2Proof.Claims.FloatLane

/-- R130, R133, R134, R140 to R142: rounding once, the NaN rules, infinite operands, FRND, FMIN and FMAX, and the class mask. -/
def Obligations.FloatRounding : Prop := Sys2Proof.Claims.RoundOnce ∧ Sys2Proof.Claims.RoundExact ∧ Sys2Proof.Claims.NanRules ∧ Sys2Proof.Claims.FloatSpecials

/-- R144 to R150: the conversions and their values. -/
def Obligations.Conversions : Prop := Sys2Proof.Claims.Conversions ∧ Sys2Proof.Claims.ConversionValues

/-- R137, R139, R155 to R162: what the floating, conversion and lane forms leave unchanged. -/
def Obligations.FloatLaneFrame : Prop := Sys2Proof.Claims.FloatFrame ∧ Sys2Proof.Claims.LaneFrame

/-- R155, R156, R92: the lane integer forms. -/
def Obligations.LaneIntegers : Prop := Sys2Proof.Claims.LaneArithmetic ∧ Sys2Proof.Claims.LaneLogicShift

/-- R157 to R163: cross-lane forms and reductions. -/
def Obligations.CrossLaneForms : Prop := Sys2Proof.Claims.CrossLane ∧ Sys2Proof.Claims.ReductionUniform ∧ Sys2Proof.Claims.ReductionValues

/-- R165, R341 to R346: the forms that queue a request of the special function unit or the sampler. -/
def Obligations.QueuedLaneUnits : Prop := Sys2Proof.Claims.SfuIssue ∧ Sys2Proof.Claims.SamplerForms

/-- R171 to R184: the matrix forms. -/
def Obligations.MatrixForms : Prop := Sys2Proof.Claims.MatrixProducts ∧ Sys2Proof.Claims.MatrixValues ∧ Sys2Proof.Claims.MatrixMoves

/-- R193 to R197, R200, R350: the forms that access memory, and the accesses their lanes plan. -/
def Obligations.GlobalAccesses : Prop := Sys2Proof.Claims.GlobalAccess ∧ Sys2Proof.Claims.LanePlan

/-- R210, R211, R224 to R228: cache control and fences. -/
def Obligations.CacheAndFences : Prop := Sys2Proof.Claims.CacheControl ∧ Sys2Proof.Claims.Fences

/-- R237 to R241: atomics and the values they store. -/
def Obligations.AtomicForms : Prop := Sys2Proof.Claims.Atomics ∧ Sys2Proof.Claims.AtomicOperation

/-- R249, R251 to R253, R255, R259, R263, R281, R284, R371: candidates, and the firings they become; log entries 47, 61 and 89. -/
def Obligations.FiringCreation : Prop := Sys2Proof.Claims.Candidates ∧ Sys2Proof.Claims.FiringForms

/-- R259 to R268: RECV, the glade, queue and handler-table forms. -/
def Obligations.ReceiveAndGlades : Prop := Sys2Proof.Claims.MessageReceive ∧ Sys2Proof.Claims.GladeInstructions

/-- R274 to R285: launch and virtual-time forms. -/
def Obligations.LaunchAndTime : Prop := Sys2Proof.Claims.LaunchInstructions ∧ Sys2Proof.Claims.VirtualTime

/-- R294 to R296, R305 to R307: a ray's region, and the forms that send a ray on. -/
def Obligations.RayTransfers : Prop := Sys2Proof.Claims.RayMoves ∧ Sys2Proof.Claims.RaySends

/-- R322, R324 to R327: the traversal log and its replay. -/
def Obligations.LogAndReplay : Prop := Sys2Proof.Claims.LogForms ∧ Sys2Proof.Claims.ReplayReturns

/-- R351 to R355: taking a trap, in a firing and in the trap handler. -/
def Obligations.TakingTraps : Prop := Sys2Proof.Claims.TrapEntry ∧ Sys2Proof.Claims.DoubleTraps

/-- R357 to R360, R365, R368, R43, R44: acting on another firing, the stop after a step, and the workspace image FINSPECT sees; log entries 33 and 46. -/
def Obligations.ActingOnOthers : Prop := Sys2Proof.Claims.ActingOnFirings ∧ Sys2Proof.Claims.StepStops ∧ Sys2Proof.Claims.WorkspaceImage

/-- R194, R195, R202, R206, R207, R212, R385: deposits that complete, and page walks. -/
def Obligations.DepositsAndWalks : Prop := Sys2Proof.Claims.DepositEvents ∧ Sys2Proof.Claims.PageWalks

/-- R201, R202, R214 to R219, R226, R232, R237, R240: store-queue entries and requests of other cores that take effect. -/
def Obligations.StoresAndRemote : Prop := Sys2Proof.Claims.StoreEvents ∧ Sys2Proof.Claims.RemoteEvents

/-- R163 to R165, R184, R186, R342 to R346: the special function unit, the matrix unit and the sampler. -/
def Obligations.LaneUnitEvents : Prop := Sys2Proof.Claims.SfuAndMatrixEvents ∧ Sys2Proof.Claims.SamplerEvents

/-- R265 to R267, R329, R335 to R337: the copy engine and the forwarding engine. -/
def Obligations.EngineAndForwarding : Prop := Sys2Proof.Claims.EngineEvents ∧ Sys2Proof.Claims.ForwardEvents

/-- R271 to R285: launch records and virtual time. -/
def Obligations.LaunchTimeEvents : Prop := Sys2Proof.Claims.LaunchEvents ∧ Sys2Proof.Claims.VirtualTimeEvents

/-- R350, R353 to R355, R367 to R373: trap delivery, pre-emption and remap. -/
def Obligations.TrapPreemptEvents : Prop := Sys2Proof.Claims.TrapEvents ∧ Sys2Proof.Claims.PreemptEvents

/-- R374 to R387: the mailbox and the module controller. -/
def Obligations.HostEvents : Prop := Sys2Proof.Claims.MailboxEvents ∧ Sys2Proof.Claims.ControllerEvents
end

