-- ==== Sys2Proof/Laws/Sparse.lean ====
section
/-! SUPPORT. Sparse maps: what a read sees after a write, and that every write keeps the canonical form. -/

namespace Sys2Proof.Laws
open Sys2Proof Sys2Proof.Machine

variable {α : Type}

theorem spFind_spIns (l : Sparse α) (n m : Nat) (a : α) : spFind (spIns l n a) m = if m = n then some a else spFind l m := by
  induction l with
  | nil => rfl
  | cons e t ih =>
    obtain ⟨k, b⟩ := e
    unfold spIns
    by_cases h1 : n < k
    · simp only [if_pos h1, spFind]
    · by_cases h2 : n = k
      · subst h2; simp only [if_neg h1, if_true, spFind]; split <;> rfl
      · simp only [if_neg h1, if_neg h2, spFind, ih]
        by_cases h3 : m = k
        · simp [h3, Ne.symm h2]
        · simp [h3]

theorem spFind_spDel (l : Sparse α) (n m : Nat) : spFind (spDel l n) m = if m = n then none else spFind l m := by
  induction l with
  | nil => simp [spDel, spFind]
  | cons e t ih =>
    obtain ⟨k, b⟩ := e
    simp only [spDel] at ih
    by_cases h : k = n
    · subst h; simp only [spDel, List.filter_cons, bne_self_eq_false, Bool.false_eq_true, if_false, ih, spFind]
      split <;> rfl
    · have : (k != n) = true := by simpa using h
      simp only [spDel, List.filter_cons, this, if_true, spFind, ih]
      by_cases h3 : m = k
      · simp [h3, h]
      · simp [h3]

theorem spGet_spPut [DecidableEq α] (d : α) (l : Sparse α) (n m : Nat) (a : α) :
    spGet d (spPut d l n a) m = if m = n then a else spGet d l m := by
  unfold spGet spPut
  by_cases h : a = d
  · rw [if_pos h, spFind_spDel]; split <;> simp_all
  · rw [if_neg h, spFind_spIns]; split <;> rfl

@[simp] theorem spGet_spPut_same [DecidableEq α] (d : α) (l : Sparse α) (n : Nat) (a : α) : spGet d (spPut d l n a) n = a := by
  simp [spGet_spPut]

theorem spGet_spPut_other [DecidableEq α] {d : α} {l : Sparse α} {n m : Nat} {a : α} (h : m ≠ n) :
    spGet d (spPut d l n a) m = spGet d l m := by simp [spGet_spPut, h]

/-! ## The canonical form -/

theorem spRising_mono {l : Sparse α} {lo hi : Nat} (h : lo ≤ hi) (hr : spRising hi l = true) : spRising lo l = true := by
  cases l with
  | nil => rfl
  | cons e t =>
    obtain ⟨k, b⟩ := e
    simp only [spRising, Bool.and_eq_true, decide_eq_true_eq] at hr ⊢
    exact ⟨by omega, hr.2⟩

theorem spRising_spIns (l : Sparse α) (lo n : Nat) (a : α) (hlo : lo ≤ n) (h : spRising lo l = true) :
    spRising lo (spIns l n a) = true := by
  induction l generalizing lo with
  | nil => simp [spIns, spRising, hlo]
  | cons e t ih =>
    obtain ⟨k, b⟩ := e
    simp only [spRising, Bool.and_eq_true, decide_eq_true_eq] at h
    unfold spIns
    split
    · simp only [spRising, Bool.and_eq_true, decide_eq_true_eq]; exact ⟨hlo, by omega, h.2⟩
    · split
      · rename_i h2; subst h2; simp only [spRising, Bool.and_eq_true, decide_eq_true_eq]; exact ⟨hlo, h.2⟩
      · simp only [spRising, Bool.and_eq_true, decide_eq_true_eq]; exact ⟨h.1, ih _ (by omega) h.2⟩

theorem spRising_filter (p : Nat × α → Bool) (l : Sparse α) (lo : Nat) (h : spRising lo l = true) :
    spRising lo (l.filter p) = true := by
  induction l generalizing lo with
  | nil => rfl
  | cons e t ih =>
    obtain ⟨k, b⟩ := e
    simp only [spRising, Bool.and_eq_true, decide_eq_true_eq] at h
    rw [List.filter_cons]
    split
    · simp only [spRising, Bool.and_eq_true, decide_eq_true_eq]; exact ⟨h.1, ih _ h.2⟩
    · exact spRising_mono (by omega) (ih _ h.2)

theorem spIns_mem {l : Sparse α} {n : Nat} {a : α} {e : Nat × α} (h : e ∈ spIns l n a) : e = (n, a) ∨ e ∈ l := by
  induction l with
  | nil => exact .inl (by simpa [spIns] using h)
  | cons x t ih =>
    obtain ⟨k, b⟩ := x
    unfold spIns at h
    split at h
    · simpa using h
    · split at h
      · rcases List.mem_cons.mp h with h | h
        · exact .inl h
        · exact .inr (List.mem_cons_of_mem _ h)
      · rcases List.mem_cons.mp h with h | h
        · exact .inr (h ▸ List.mem_cons_self)
        · exact (ih h).imp id (List.mem_cons_of_mem _)

/-- A write keeps the canonical form. -/
theorem spWf_spPut [DecidableEq α] {d : α} {l : Sparse α} (n : Nat) (a : α) (h : spWf d l = true) :
    spWf d (spPut d l n a) = true := by
  simp only [spWf, Bool.and_eq_true, List.all_eq_true, decide_eq_true_eq] at h ⊢
  unfold spPut
  split
  · exact ⟨spRising_filter _ l 0 h.1, fun e he => h.2 e (List.mem_filter.mp he).1⟩
  · rename_i ha
    exact ⟨spRising_spIns l 0 n a (Nat.zero_le _) h.1,
      fun e he => (spIns_mem he).elim (fun e => by rw [e]; exact ha) (h.2 e)⟩

/-- Writes one after another keep it. -/
theorem spWf_foldl [DecidableEq α] {d : α} {β : Type} (key : β → Nat) (val : β → α) (xs : List β) (l : Sparse α)
    (h : spWf d l = true) : spWf d (xs.foldl (fun m e => spPut d m (key e) (val e)) l) = true := by
  induction xs generalizing l with
  | nil => exact h
  | cons x t ih => exact ih _ (spWf_spPut _ _ h)

/-- A read of a key that none of the writes has. -/
theorem spGet_foldl_other [DecidableEq α] {d : α} {β : Type} (key : β → Nat) (val : β → α) (xs : List β) (l : Sparse α)
    (m : Nat) (h : ∀ x ∈ xs, key x ≠ m) : spGet d (xs.foldl (fun m e => spPut d m (key e) (val e)) l) m = spGet d l m := by
  induction xs generalizing l with
  | nil => rfl
  | cons x t ih =>
    rw [List.foldl_cons, ih _ fun y hy => h y (List.mem_cons_of_mem _ hy)]
    exact spGet_spPut_other (Ne.symm (h x List.mem_cons_self))

/-- A read of the key of one write, where no later write has it. -/
theorem spGet_foldl_key [DecidableEq α] {d : α} {β : Type} (key : β → Nat) (val : β → α) (xs ys : List β) (x : β)
    (l : Sparse α) (h : ∀ y ∈ ys, key y ≠ key x) :
    spGet d ((xs ++ x :: ys).foldl (fun m e => spPut d m (key e) (val e)) l) (key x) = val x := by
  rw [List.foldl_append, List.foldl_cons, spGet_foldl_other key val ys _ _ h]
  exact spGet_spPut_same _ _ _ _

end Sys2Proof.Laws
end

