-- ==== Sys2Proof/Laws/State.lean ====
section
/-! SUPPORT. One lemma per field and update: what an update of the state, a core or a firing leaves as it was. -/

namespace Sys2Proof.Laws
open Sys2Proof Sys2Proof.Machine

/-! ## State -/

@[simp] theorem setCore_part (s : State) (n : Nat) (c : Core) : (s.setCore n c).part = s.part := rfl
@[simp] theorem setCore_pkg (s : State) (n : Nat) (c : Core) : (s.setCore n c).pkg = s.pkg := rfl
@[simp] theorem setCore_sysSize (s : State) (n : Nat) (c : Core) : (s.setCore n c).sysSize = s.sysSize := rfl
@[simp] theorem setCore_dieMap (s : State) (n : Nat) (c : Core) : (s.setCore n c).dieMap = s.dieMap := rfl
@[simp] theorem setCore_diesReady (s : State) (n : Nat) (c : Core) : (s.setCore n c).diesReady = s.diesReady := rfl
@[simp] theorem setCore_mem (s : State) (n : Nat) (c : Core) : (s.setCore n c).mem = s.mem := rfl
@[simp] theorem setCore_l2 (s : State) (n : Nat) (c : Core) : (s.setCore n c).l2 = s.l2 := rfl
@[simp] theorem setCore_asidBase (s : State) (n : Nat) (c : Core) : (s.setCore n c).asidBase = s.asidBase := rfl
@[simp] theorem setCore_launchBase (s : State) (n : Nat) (c : Core) : (s.setCore n c).launchBase = s.launchBase := rfl
@[simp] theorem setCore_canopyBase (s : State) (n : Nat) (c : Core) : (s.setCore n c).canopyBase = s.canopyBase := rfl
@[simp] theorem setCore_canopyAsid (s : State) (n : Nat) (c : Core) : (s.setCore n c).canopyAsid = s.canopyAsid := rfl
@[simp] theorem setCore_waitBase (s : State) (n : Nat) (c : Core) : (s.setCore n c).waitBase = s.waitBase := rfl
@[simp] theorem setCore_waitSize (s : State) (n : Nat) (c : Core) : (s.setCore n c).waitSize = s.waitSize := rfl
@[simp] theorem setCore_heldRays (s : State) (n : Nat) (c : Core) : (s.setCore n c).heldRays = s.heldRays := rfl
@[simp] theorem setCore_thawAcc (s : State) (n : Nat) (c : Core) : (s.setCore n c).thawAcc = s.thawAcc := rfl
@[simp] theorem setCore_hz (s : State) (n : Nat) (c : Core) : (s.setCore n c).hz = s.hz := rfl
@[simp] theorem setCore_sysHz (s : State) (n : Nat) (c : Core) : (s.setCore n c).sysHz = s.sysHz := rfl
@[simp] theorem setCore_mesh (s : State) (n : Nat) (c : Core) : (s.setCore n c).mesh = s.mesh := rfl
@[simp] theorem setCore_lyspor (s : State) (n : Nat) (c : Core) : (s.setCore n c).lyspor = s.lyspor := rfl
@[simp] theorem setCore_homeQ (s : State) (n : Nat) (c : Core) : (s.setCore n c).homeQ = s.homeQ := rfl
@[simp] theorem setCore_filterAdd (s : State) (n : Nat) (c : Core) : (s.setCore n c).filterAdd = s.filterAdd := rfl
@[simp] theorem setCore_filterDel (s : State) (n : Nat) (c : Core) : (s.setCore n c).filterDel = s.filterDel := rfl
@[simp] theorem setCore_canopyInv (s : State) (n : Nat) (c : Core) : (s.setCore n c).canopyInv = s.canopyInv := rfl
@[simp] theorem setCore_meshIrqs (s : State) (n : Nat) (c : Core) : (s.setCore n c).meshIrqs = s.meshIrqs := rfl
@[simp] theorem setCore_waitFl (s : State) (n : Nat) (c : Core) : (s.setCore n c).waitFl = s.waitFl := rfl
@[simp] theorem setCore_walks (s : State) (n : Nat) (c : Core) : (s.setCore n c).walks = s.walks := rfl
@[simp] theorem setCore_keysFused (s : State) (n : Nat) (c : Core) : (s.setCore n c).keysFused = s.keysFused := rfl
@[simp] theorem setCore_keysRevoked (s : State) (n : Nat) (c : Core) : (s.setCore n c).keysRevoked = s.keysRevoked := rfl
@[simp] theorem setCore_remaps (s : State) (n : Nat) (c : Core) : (s.setCore n c).remaps = s.remaps := rfl
@[simp] theorem setCore_load (s : State) (n : Nat) (c : Core) : (s.setCore n c).load = s.load := rfl
@[simp] theorem setCore_loaded (s : State) (n : Nat) (c : Core) : (s.setCore n c).loaded = s.loaded := rfl
@[simp] theorem setCore_host (s : State) (n : Nat) (c : Core) : (s.setCore n c).host = s.host := rfl
@[simp] theorem setCore_agenda (s : State) (n : Nat) (c : Core) : (s.setCore n c).agenda = s.agenda := rfl
@[simp] theorem setCore_focus (s : State) (n : Nat) (c : Core) : (s.setCore n c).focus = s.focus := rfl
@[simp] theorem setCore_who (s : State) (n : Nat) (c : Core) : (s.setCore n c).who = s.who := rfl
@[simp] theorem setCore_turn (s : State) (n : Nat) (c : Core) : (s.setCore n c).turn = s.turn := rfl
@[simp] theorem setCore_tick (s : State) (n : Nat) (c : Core) : (s.setCore n c).tick = s.tick := rfl
@[simp] theorem setCore_fresh (s : State) (n : Nat) (c : Core) : (s.setCore n c).fresh = s.fresh := rfl

@[simp] theorem setFiring_part (s : State) (n sl : Nat) (f : Firing) : (s.setFiring n sl f).part = s.part := rfl
@[simp] theorem setFiring_pkg (s : State) (n sl : Nat) (f : Firing) : (s.setFiring n sl f).pkg = s.pkg := rfl
@[simp] theorem setFiring_sysSize (s : State) (n sl : Nat) (f : Firing) : (s.setFiring n sl f).sysSize = s.sysSize := rfl
@[simp] theorem setFiring_dieMap (s : State) (n sl : Nat) (f : Firing) : (s.setFiring n sl f).dieMap = s.dieMap := rfl
@[simp] theorem setFiring_diesReady (s : State) (n sl : Nat) (f : Firing) : (s.setFiring n sl f).diesReady = s.diesReady := rfl
@[simp] theorem setFiring_mem (s : State) (n sl : Nat) (f : Firing) : (s.setFiring n sl f).mem = s.mem := rfl
@[simp] theorem setFiring_l2 (s : State) (n sl : Nat) (f : Firing) : (s.setFiring n sl f).l2 = s.l2 := rfl
@[simp] theorem setFiring_asidBase (s : State) (n sl : Nat) (f : Firing) : (s.setFiring n sl f).asidBase = s.asidBase := rfl
@[simp] theorem setFiring_launchBase (s : State) (n sl : Nat) (f : Firing) : (s.setFiring n sl f).launchBase = s.launchBase := rfl
@[simp] theorem setFiring_canopyBase (s : State) (n sl : Nat) (f : Firing) : (s.setFiring n sl f).canopyBase = s.canopyBase := rfl
@[simp] theorem setFiring_canopyAsid (s : State) (n sl : Nat) (f : Firing) : (s.setFiring n sl f).canopyAsid = s.canopyAsid := rfl
@[simp] theorem setFiring_waitBase (s : State) (n sl : Nat) (f : Firing) : (s.setFiring n sl f).waitBase = s.waitBase := rfl
@[simp] theorem setFiring_waitSize (s : State) (n sl : Nat) (f : Firing) : (s.setFiring n sl f).waitSize = s.waitSize := rfl
@[simp] theorem setFiring_heldRays (s : State) (n sl : Nat) (f : Firing) : (s.setFiring n sl f).heldRays = s.heldRays := rfl
@[simp] theorem setFiring_thawAcc (s : State) (n sl : Nat) (f : Firing) : (s.setFiring n sl f).thawAcc = s.thawAcc := rfl
@[simp] theorem setFiring_hz (s : State) (n sl : Nat) (f : Firing) : (s.setFiring n sl f).hz = s.hz := rfl
@[simp] theorem setFiring_sysHz (s : State) (n sl : Nat) (f : Firing) : (s.setFiring n sl f).sysHz = s.sysHz := rfl
@[simp] theorem setFiring_mesh (s : State) (n sl : Nat) (f : Firing) : (s.setFiring n sl f).mesh = s.mesh := rfl
@[simp] theorem setFiring_lyspor (s : State) (n sl : Nat) (f : Firing) : (s.setFiring n sl f).lyspor = s.lyspor := rfl
@[simp] theorem setFiring_homeQ (s : State) (n sl : Nat) (f : Firing) : (s.setFiring n sl f).homeQ = s.homeQ := rfl
@[simp] theorem setFiring_filterAdd (s : State) (n sl : Nat) (f : Firing) : (s.setFiring n sl f).filterAdd = s.filterAdd := rfl
@[simp] theorem setFiring_filterDel (s : State) (n sl : Nat) (f : Firing) : (s.setFiring n sl f).filterDel = s.filterDel := rfl
@[simp] theorem setFiring_canopyInv (s : State) (n sl : Nat) (f : Firing) : (s.setFiring n sl f).canopyInv = s.canopyInv := rfl
@[simp] theorem setFiring_meshIrqs (s : State) (n sl : Nat) (f : Firing) : (s.setFiring n sl f).meshIrqs = s.meshIrqs := rfl
@[simp] theorem setFiring_waitFl (s : State) (n sl : Nat) (f : Firing) : (s.setFiring n sl f).waitFl = s.waitFl := rfl
@[simp] theorem setFiring_walks (s : State) (n sl : Nat) (f : Firing) : (s.setFiring n sl f).walks = s.walks := rfl
@[simp] theorem setFiring_keysFused (s : State) (n sl : Nat) (f : Firing) : (s.setFiring n sl f).keysFused = s.keysFused := rfl
@[simp] theorem setFiring_keysRevoked (s : State) (n sl : Nat) (f : Firing) : (s.setFiring n sl f).keysRevoked = s.keysRevoked := rfl
@[simp] theorem setFiring_remaps (s : State) (n sl : Nat) (f : Firing) : (s.setFiring n sl f).remaps = s.remaps := rfl
@[simp] theorem setFiring_load (s : State) (n sl : Nat) (f : Firing) : (s.setFiring n sl f).load = s.load := rfl
@[simp] theorem setFiring_loaded (s : State) (n sl : Nat) (f : Firing) : (s.setFiring n sl f).loaded = s.loaded := rfl
@[simp] theorem setFiring_host (s : State) (n sl : Nat) (f : Firing) : (s.setFiring n sl f).host = s.host := rfl
@[simp] theorem setFiring_agenda (s : State) (n sl : Nat) (f : Firing) : (s.setFiring n sl f).agenda = s.agenda := rfl
@[simp] theorem setFiring_focus (s : State) (n sl : Nat) (f : Firing) : (s.setFiring n sl f).focus = s.focus := rfl
@[simp] theorem setFiring_who (s : State) (n sl : Nat) (f : Firing) : (s.setFiring n sl f).who = s.who := rfl
@[simp] theorem setFiring_turn (s : State) (n sl : Nat) (f : Firing) : (s.setFiring n sl f).turn = s.turn := rfl
@[simp] theorem setFiring_tick (s : State) (n sl : Nat) (f : Firing) : (s.setFiring n sl f).tick = s.tick := rfl
@[simp] theorem setFiring_fresh (s : State) (n sl : Nat) (f : Firing) : (s.setFiring n sl f).fresh = s.fresh := rfl

@[simp] theorem updCore_part (s : State) (n : Nat) (g : Core → Core) : (s.updCore n g).part = s.part := rfl
@[simp] theorem updCore_pkg (s : State) (n : Nat) (g : Core → Core) : (s.updCore n g).pkg = s.pkg := rfl
@[simp] theorem updCore_sysSize (s : State) (n : Nat) (g : Core → Core) : (s.updCore n g).sysSize = s.sysSize := rfl
@[simp] theorem updCore_dieMap (s : State) (n : Nat) (g : Core → Core) : (s.updCore n g).dieMap = s.dieMap := rfl
@[simp] theorem updCore_diesReady (s : State) (n : Nat) (g : Core → Core) : (s.updCore n g).diesReady = s.diesReady := rfl
@[simp] theorem updCore_mem (s : State) (n : Nat) (g : Core → Core) : (s.updCore n g).mem = s.mem := rfl
@[simp] theorem updCore_l2 (s : State) (n : Nat) (g : Core → Core) : (s.updCore n g).l2 = s.l2 := rfl
@[simp] theorem updCore_asidBase (s : State) (n : Nat) (g : Core → Core) : (s.updCore n g).asidBase = s.asidBase := rfl
@[simp] theorem updCore_launchBase (s : State) (n : Nat) (g : Core → Core) : (s.updCore n g).launchBase = s.launchBase := rfl
@[simp] theorem updCore_canopyBase (s : State) (n : Nat) (g : Core → Core) : (s.updCore n g).canopyBase = s.canopyBase := rfl
@[simp] theorem updCore_canopyAsid (s : State) (n : Nat) (g : Core → Core) : (s.updCore n g).canopyAsid = s.canopyAsid := rfl
@[simp] theorem updCore_waitBase (s : State) (n : Nat) (g : Core → Core) : (s.updCore n g).waitBase = s.waitBase := rfl
@[simp] theorem updCore_waitSize (s : State) (n : Nat) (g : Core → Core) : (s.updCore n g).waitSize = s.waitSize := rfl
@[simp] theorem updCore_heldRays (s : State) (n : Nat) (g : Core → Core) : (s.updCore n g).heldRays = s.heldRays := rfl
@[simp] theorem updCore_thawAcc (s : State) (n : Nat) (g : Core → Core) : (s.updCore n g).thawAcc = s.thawAcc := rfl
@[simp] theorem updCore_hz (s : State) (n : Nat) (g : Core → Core) : (s.updCore n g).hz = s.hz := rfl
@[simp] theorem updCore_sysHz (s : State) (n : Nat) (g : Core → Core) : (s.updCore n g).sysHz = s.sysHz := rfl
@[simp] theorem updCore_mesh (s : State) (n : Nat) (g : Core → Core) : (s.updCore n g).mesh = s.mesh := rfl
@[simp] theorem updCore_lyspor (s : State) (n : Nat) (g : Core → Core) : (s.updCore n g).lyspor = s.lyspor := rfl
@[simp] theorem updCore_homeQ (s : State) (n : Nat) (g : Core → Core) : (s.updCore n g).homeQ = s.homeQ := rfl
@[simp] theorem updCore_filterAdd (s : State) (n : Nat) (g : Core → Core) : (s.updCore n g).filterAdd = s.filterAdd := rfl
@[simp] theorem updCore_filterDel (s : State) (n : Nat) (g : Core → Core) : (s.updCore n g).filterDel = s.filterDel := rfl
@[simp] theorem updCore_canopyInv (s : State) (n : Nat) (g : Core → Core) : (s.updCore n g).canopyInv = s.canopyInv := rfl
@[simp] theorem updCore_meshIrqs (s : State) (n : Nat) (g : Core → Core) : (s.updCore n g).meshIrqs = s.meshIrqs := rfl
@[simp] theorem updCore_waitFl (s : State) (n : Nat) (g : Core → Core) : (s.updCore n g).waitFl = s.waitFl := rfl
@[simp] theorem updCore_walks (s : State) (n : Nat) (g : Core → Core) : (s.updCore n g).walks = s.walks := rfl
@[simp] theorem updCore_keysFused (s : State) (n : Nat) (g : Core → Core) : (s.updCore n g).keysFused = s.keysFused := rfl
@[simp] theorem updCore_keysRevoked (s : State) (n : Nat) (g : Core → Core) : (s.updCore n g).keysRevoked = s.keysRevoked := rfl
@[simp] theorem updCore_remaps (s : State) (n : Nat) (g : Core → Core) : (s.updCore n g).remaps = s.remaps := rfl
@[simp] theorem updCore_load (s : State) (n : Nat) (g : Core → Core) : (s.updCore n g).load = s.load := rfl
@[simp] theorem updCore_loaded (s : State) (n : Nat) (g : Core → Core) : (s.updCore n g).loaded = s.loaded := rfl
@[simp] theorem updCore_host (s : State) (n : Nat) (g : Core → Core) : (s.updCore n g).host = s.host := rfl
@[simp] theorem updCore_agenda (s : State) (n : Nat) (g : Core → Core) : (s.updCore n g).agenda = s.agenda := rfl
@[simp] theorem updCore_focus (s : State) (n : Nat) (g : Core → Core) : (s.updCore n g).focus = s.focus := rfl
@[simp] theorem updCore_who (s : State) (n : Nat) (g : Core → Core) : (s.updCore n g).who = s.who := rfl
@[simp] theorem updCore_turn (s : State) (n : Nat) (g : Core → Core) : (s.updCore n g).turn = s.turn := rfl
@[simp] theorem updCore_tick (s : State) (n : Nat) (g : Core → Core) : (s.updCore n g).tick = s.tick := rfl
@[simp] theorem updCore_fresh (s : State) (n : Nat) (g : Core → Core) : (s.updCore n g).fresh = s.fresh := rfl

@[simp] theorem putB_part (s : State) (k : Nat) (b : Byte) : (s.putB k b).part = s.part := rfl
@[simp] theorem putB_pkg (s : State) (k : Nat) (b : Byte) : (s.putB k b).pkg = s.pkg := rfl
@[simp] theorem putB_sysSize (s : State) (k : Nat) (b : Byte) : (s.putB k b).sysSize = s.sysSize := rfl
@[simp] theorem putB_dieMap (s : State) (k : Nat) (b : Byte) : (s.putB k b).dieMap = s.dieMap := rfl
@[simp] theorem putB_diesReady (s : State) (k : Nat) (b : Byte) : (s.putB k b).diesReady = s.diesReady := rfl
@[simp] theorem putB_l2 (s : State) (k : Nat) (b : Byte) : (s.putB k b).l2 = s.l2 := rfl
@[simp] theorem putB_asidBase (s : State) (k : Nat) (b : Byte) : (s.putB k b).asidBase = s.asidBase := rfl
@[simp] theorem putB_launchBase (s : State) (k : Nat) (b : Byte) : (s.putB k b).launchBase = s.launchBase := rfl
@[simp] theorem putB_canopyBase (s : State) (k : Nat) (b : Byte) : (s.putB k b).canopyBase = s.canopyBase := rfl
@[simp] theorem putB_canopyAsid (s : State) (k : Nat) (b : Byte) : (s.putB k b).canopyAsid = s.canopyAsid := rfl
@[simp] theorem putB_waitBase (s : State) (k : Nat) (b : Byte) : (s.putB k b).waitBase = s.waitBase := rfl
@[simp] theorem putB_waitSize (s : State) (k : Nat) (b : Byte) : (s.putB k b).waitSize = s.waitSize := rfl
@[simp] theorem putB_heldRays (s : State) (k : Nat) (b : Byte) : (s.putB k b).heldRays = s.heldRays := rfl
@[simp] theorem putB_thawAcc (s : State) (k : Nat) (b : Byte) : (s.putB k b).thawAcc = s.thawAcc := rfl
@[simp] theorem putB_hz (s : State) (k : Nat) (b : Byte) : (s.putB k b).hz = s.hz := rfl
@[simp] theorem putB_sysHz (s : State) (k : Nat) (b : Byte) : (s.putB k b).sysHz = s.sysHz := rfl
@[simp] theorem putB_mesh (s : State) (k : Nat) (b : Byte) : (s.putB k b).mesh = s.mesh := rfl
@[simp] theorem putB_lyspor (s : State) (k : Nat) (b : Byte) : (s.putB k b).lyspor = s.lyspor := rfl
@[simp] theorem putB_homeQ (s : State) (k : Nat) (b : Byte) : (s.putB k b).homeQ = s.homeQ := rfl
@[simp] theorem putB_filterAdd (s : State) (k : Nat) (b : Byte) : (s.putB k b).filterAdd = s.filterAdd := rfl
@[simp] theorem putB_filterDel (s : State) (k : Nat) (b : Byte) : (s.putB k b).filterDel = s.filterDel := rfl
@[simp] theorem putB_canopyInv (s : State) (k : Nat) (b : Byte) : (s.putB k b).canopyInv = s.canopyInv := rfl
@[simp] theorem putB_meshIrqs (s : State) (k : Nat) (b : Byte) : (s.putB k b).meshIrqs = s.meshIrqs := rfl
@[simp] theorem putB_waitFl (s : State) (k : Nat) (b : Byte) : (s.putB k b).waitFl = s.waitFl := rfl
@[simp] theorem putB_walks (s : State) (k : Nat) (b : Byte) : (s.putB k b).walks = s.walks := rfl
@[simp] theorem putB_keysFused (s : State) (k : Nat) (b : Byte) : (s.putB k b).keysFused = s.keysFused := rfl
@[simp] theorem putB_keysRevoked (s : State) (k : Nat) (b : Byte) : (s.putB k b).keysRevoked = s.keysRevoked := rfl
@[simp] theorem putB_remaps (s : State) (k : Nat) (b : Byte) : (s.putB k b).remaps = s.remaps := rfl
@[simp] theorem putB_load (s : State) (k : Nat) (b : Byte) : (s.putB k b).load = s.load := rfl
@[simp] theorem putB_loaded (s : State) (k : Nat) (b : Byte) : (s.putB k b).loaded = s.loaded := rfl
@[simp] theorem putB_cores (s : State) (k : Nat) (b : Byte) : (s.putB k b).cores = s.cores := rfl
@[simp] theorem putB_host (s : State) (k : Nat) (b : Byte) : (s.putB k b).host = s.host := rfl
@[simp] theorem putB_agenda (s : State) (k : Nat) (b : Byte) : (s.putB k b).agenda = s.agenda := rfl
@[simp] theorem putB_focus (s : State) (k : Nat) (b : Byte) : (s.putB k b).focus = s.focus := rfl
@[simp] theorem putB_who (s : State) (k : Nat) (b : Byte) : (s.putB k b).who = s.who := rfl
@[simp] theorem putB_turn (s : State) (k : Nat) (b : Byte) : (s.putB k b).turn = s.turn := rfl
@[simp] theorem putB_tick (s : State) (k : Nat) (b : Byte) : (s.putB k b).tick = s.tick := rfl
@[simp] theorem putB_fresh (s : State) (k : Nat) (b : Byte) : (s.putB k b).fresh = s.fresh := rfl

@[simp] theorem putBs_part (s : State) (k : Nat) (bs : List Byte) : (s.putBs k bs).part = s.part := rfl
@[simp] theorem putBs_pkg (s : State) (k : Nat) (bs : List Byte) : (s.putBs k bs).pkg = s.pkg := rfl
@[simp] theorem putBs_sysSize (s : State) (k : Nat) (bs : List Byte) : (s.putBs k bs).sysSize = s.sysSize := rfl
@[simp] theorem putBs_dieMap (s : State) (k : Nat) (bs : List Byte) : (s.putBs k bs).dieMap = s.dieMap := rfl
@[simp] theorem putBs_diesReady (s : State) (k : Nat) (bs : List Byte) : (s.putBs k bs).diesReady = s.diesReady := rfl
@[simp] theorem putBs_l2 (s : State) (k : Nat) (bs : List Byte) : (s.putBs k bs).l2 = s.l2 := rfl
@[simp] theorem putBs_asidBase (s : State) (k : Nat) (bs : List Byte) : (s.putBs k bs).asidBase = s.asidBase := rfl
@[simp] theorem putBs_launchBase (s : State) (k : Nat) (bs : List Byte) : (s.putBs k bs).launchBase = s.launchBase := rfl
@[simp] theorem putBs_canopyBase (s : State) (k : Nat) (bs : List Byte) : (s.putBs k bs).canopyBase = s.canopyBase := rfl
@[simp] theorem putBs_canopyAsid (s : State) (k : Nat) (bs : List Byte) : (s.putBs k bs).canopyAsid = s.canopyAsid := rfl
@[simp] theorem putBs_waitBase (s : State) (k : Nat) (bs : List Byte) : (s.putBs k bs).waitBase = s.waitBase := rfl
@[simp] theorem putBs_waitSize (s : State) (k : Nat) (bs : List Byte) : (s.putBs k bs).waitSize = s.waitSize := rfl
@[simp] theorem putBs_heldRays (s : State) (k : Nat) (bs : List Byte) : (s.putBs k bs).heldRays = s.heldRays := rfl
@[simp] theorem putBs_thawAcc (s : State) (k : Nat) (bs : List Byte) : (s.putBs k bs).thawAcc = s.thawAcc := rfl
@[simp] theorem putBs_hz (s : State) (k : Nat) (bs : List Byte) : (s.putBs k bs).hz = s.hz := rfl
@[simp] theorem putBs_sysHz (s : State) (k : Nat) (bs : List Byte) : (s.putBs k bs).sysHz = s.sysHz := rfl
@[simp] theorem putBs_mesh (s : State) (k : Nat) (bs : List Byte) : (s.putBs k bs).mesh = s.mesh := rfl
@[simp] theorem putBs_lyspor (s : State) (k : Nat) (bs : List Byte) : (s.putBs k bs).lyspor = s.lyspor := rfl
@[simp] theorem putBs_homeQ (s : State) (k : Nat) (bs : List Byte) : (s.putBs k bs).homeQ = s.homeQ := rfl
@[simp] theorem putBs_filterAdd (s : State) (k : Nat) (bs : List Byte) : (s.putBs k bs).filterAdd = s.filterAdd := rfl
@[simp] theorem putBs_filterDel (s : State) (k : Nat) (bs : List Byte) : (s.putBs k bs).filterDel = s.filterDel := rfl
@[simp] theorem putBs_canopyInv (s : State) (k : Nat) (bs : List Byte) : (s.putBs k bs).canopyInv = s.canopyInv := rfl
@[simp] theorem putBs_meshIrqs (s : State) (k : Nat) (bs : List Byte) : (s.putBs k bs).meshIrqs = s.meshIrqs := rfl
@[simp] theorem putBs_waitFl (s : State) (k : Nat) (bs : List Byte) : (s.putBs k bs).waitFl = s.waitFl := rfl
@[simp] theorem putBs_walks (s : State) (k : Nat) (bs : List Byte) : (s.putBs k bs).walks = s.walks := rfl
@[simp] theorem putBs_keysFused (s : State) (k : Nat) (bs : List Byte) : (s.putBs k bs).keysFused = s.keysFused := rfl
@[simp] theorem putBs_keysRevoked (s : State) (k : Nat) (bs : List Byte) : (s.putBs k bs).keysRevoked = s.keysRevoked := rfl
@[simp] theorem putBs_remaps (s : State) (k : Nat) (bs : List Byte) : (s.putBs k bs).remaps = s.remaps := rfl
@[simp] theorem putBs_load (s : State) (k : Nat) (bs : List Byte) : (s.putBs k bs).load = s.load := rfl
@[simp] theorem putBs_loaded (s : State) (k : Nat) (bs : List Byte) : (s.putBs k bs).loaded = s.loaded := rfl
@[simp] theorem putBs_cores (s : State) (k : Nat) (bs : List Byte) : (s.putBs k bs).cores = s.cores := rfl
@[simp] theorem putBs_host (s : State) (k : Nat) (bs : List Byte) : (s.putBs k bs).host = s.host := rfl
@[simp] theorem putBs_agenda (s : State) (k : Nat) (bs : List Byte) : (s.putBs k bs).agenda = s.agenda := rfl
@[simp] theorem putBs_focus (s : State) (k : Nat) (bs : List Byte) : (s.putBs k bs).focus = s.focus := rfl
@[simp] theorem putBs_who (s : State) (k : Nat) (bs : List Byte) : (s.putBs k bs).who = s.who := rfl
@[simp] theorem putBs_turn (s : State) (k : Nat) (bs : List Byte) : (s.putBs k bs).turn = s.turn := rfl
@[simp] theorem putBs_tick (s : State) (k : Nat) (bs : List Byte) : (s.putBs k bs).tick = s.tick := rfl
@[simp] theorem putBs_fresh (s : State) (k : Nat) (bs : List Byte) : (s.putBs k bs).fresh = s.fresh := rfl

@[simp] theorem putW_part (s : State) (k : Nat) (x : W64) : (s.putW k x).part = s.part := rfl
@[simp] theorem putW_pkg (s : State) (k : Nat) (x : W64) : (s.putW k x).pkg = s.pkg := rfl
@[simp] theorem putW_sysSize (s : State) (k : Nat) (x : W64) : (s.putW k x).sysSize = s.sysSize := rfl
@[simp] theorem putW_dieMap (s : State) (k : Nat) (x : W64) : (s.putW k x).dieMap = s.dieMap := rfl
@[simp] theorem putW_diesReady (s : State) (k : Nat) (x : W64) : (s.putW k x).diesReady = s.diesReady := rfl
@[simp] theorem putW_l2 (s : State) (k : Nat) (x : W64) : (s.putW k x).l2 = s.l2 := rfl
@[simp] theorem putW_asidBase (s : State) (k : Nat) (x : W64) : (s.putW k x).asidBase = s.asidBase := rfl
@[simp] theorem putW_launchBase (s : State) (k : Nat) (x : W64) : (s.putW k x).launchBase = s.launchBase := rfl
@[simp] theorem putW_canopyBase (s : State) (k : Nat) (x : W64) : (s.putW k x).canopyBase = s.canopyBase := rfl
@[simp] theorem putW_canopyAsid (s : State) (k : Nat) (x : W64) : (s.putW k x).canopyAsid = s.canopyAsid := rfl
@[simp] theorem putW_waitBase (s : State) (k : Nat) (x : W64) : (s.putW k x).waitBase = s.waitBase := rfl
@[simp] theorem putW_waitSize (s : State) (k : Nat) (x : W64) : (s.putW k x).waitSize = s.waitSize := rfl
@[simp] theorem putW_heldRays (s : State) (k : Nat) (x : W64) : (s.putW k x).heldRays = s.heldRays := rfl
@[simp] theorem putW_thawAcc (s : State) (k : Nat) (x : W64) : (s.putW k x).thawAcc = s.thawAcc := rfl
@[simp] theorem putW_hz (s : State) (k : Nat) (x : W64) : (s.putW k x).hz = s.hz := rfl
@[simp] theorem putW_sysHz (s : State) (k : Nat) (x : W64) : (s.putW k x).sysHz = s.sysHz := rfl
@[simp] theorem putW_mesh (s : State) (k : Nat) (x : W64) : (s.putW k x).mesh = s.mesh := rfl
@[simp] theorem putW_lyspor (s : State) (k : Nat) (x : W64) : (s.putW k x).lyspor = s.lyspor := rfl
@[simp] theorem putW_homeQ (s : State) (k : Nat) (x : W64) : (s.putW k x).homeQ = s.homeQ := rfl
@[simp] theorem putW_filterAdd (s : State) (k : Nat) (x : W64) : (s.putW k x).filterAdd = s.filterAdd := rfl
@[simp] theorem putW_filterDel (s : State) (k : Nat) (x : W64) : (s.putW k x).filterDel = s.filterDel := rfl
@[simp] theorem putW_canopyInv (s : State) (k : Nat) (x : W64) : (s.putW k x).canopyInv = s.canopyInv := rfl
@[simp] theorem putW_meshIrqs (s : State) (k : Nat) (x : W64) : (s.putW k x).meshIrqs = s.meshIrqs := rfl
@[simp] theorem putW_waitFl (s : State) (k : Nat) (x : W64) : (s.putW k x).waitFl = s.waitFl := rfl
@[simp] theorem putW_walks (s : State) (k : Nat) (x : W64) : (s.putW k x).walks = s.walks := rfl
@[simp] theorem putW_keysFused (s : State) (k : Nat) (x : W64) : (s.putW k x).keysFused = s.keysFused := rfl
@[simp] theorem putW_keysRevoked (s : State) (k : Nat) (x : W64) : (s.putW k x).keysRevoked = s.keysRevoked := rfl
@[simp] theorem putW_remaps (s : State) (k : Nat) (x : W64) : (s.putW k x).remaps = s.remaps := rfl
@[simp] theorem putW_load (s : State) (k : Nat) (x : W64) : (s.putW k x).load = s.load := rfl
@[simp] theorem putW_loaded (s : State) (k : Nat) (x : W64) : (s.putW k x).loaded = s.loaded := rfl
@[simp] theorem putW_cores (s : State) (k : Nat) (x : W64) : (s.putW k x).cores = s.cores := rfl
@[simp] theorem putW_host (s : State) (k : Nat) (x : W64) : (s.putW k x).host = s.host := rfl
@[simp] theorem putW_agenda (s : State) (k : Nat) (x : W64) : (s.putW k x).agenda = s.agenda := rfl
@[simp] theorem putW_focus (s : State) (k : Nat) (x : W64) : (s.putW k x).focus = s.focus := rfl
@[simp] theorem putW_who (s : State) (k : Nat) (x : W64) : (s.putW k x).who = s.who := rfl
@[simp] theorem putW_turn (s : State) (k : Nat) (x : W64) : (s.putW k x).turn = s.turn := rfl
@[simp] theorem putW_tick (s : State) (k : Nat) (x : W64) : (s.putW k x).tick = s.tick := rfl
@[simp] theorem putW_fresh (s : State) (k : Nat) (x : W64) : (s.putW k x).fresh = s.fresh := rfl

@[simp] theorem askHome_part (s : State) (q : HomeReq) : (s.askHome q).part = s.part := rfl
@[simp] theorem askHome_pkg (s : State) (q : HomeReq) : (s.askHome q).pkg = s.pkg := rfl
@[simp] theorem askHome_sysSize (s : State) (q : HomeReq) : (s.askHome q).sysSize = s.sysSize := rfl
@[simp] theorem askHome_dieMap (s : State) (q : HomeReq) : (s.askHome q).dieMap = s.dieMap := rfl
@[simp] theorem askHome_diesReady (s : State) (q : HomeReq) : (s.askHome q).diesReady = s.diesReady := rfl
@[simp] theorem askHome_mem (s : State) (q : HomeReq) : (s.askHome q).mem = s.mem := rfl
@[simp] theorem askHome_l2 (s : State) (q : HomeReq) : (s.askHome q).l2 = s.l2 := rfl
@[simp] theorem askHome_asidBase (s : State) (q : HomeReq) : (s.askHome q).asidBase = s.asidBase := rfl
@[simp] theorem askHome_launchBase (s : State) (q : HomeReq) : (s.askHome q).launchBase = s.launchBase := rfl
@[simp] theorem askHome_canopyBase (s : State) (q : HomeReq) : (s.askHome q).canopyBase = s.canopyBase := rfl
@[simp] theorem askHome_canopyAsid (s : State) (q : HomeReq) : (s.askHome q).canopyAsid = s.canopyAsid := rfl
@[simp] theorem askHome_waitBase (s : State) (q : HomeReq) : (s.askHome q).waitBase = s.waitBase := rfl
@[simp] theorem askHome_waitSize (s : State) (q : HomeReq) : (s.askHome q).waitSize = s.waitSize := rfl
@[simp] theorem askHome_heldRays (s : State) (q : HomeReq) : (s.askHome q).heldRays = s.heldRays := rfl
@[simp] theorem askHome_thawAcc (s : State) (q : HomeReq) : (s.askHome q).thawAcc = s.thawAcc := rfl
@[simp] theorem askHome_hz (s : State) (q : HomeReq) : (s.askHome q).hz = s.hz := rfl
@[simp] theorem askHome_sysHz (s : State) (q : HomeReq) : (s.askHome q).sysHz = s.sysHz := rfl
@[simp] theorem askHome_mesh (s : State) (q : HomeReq) : (s.askHome q).mesh = s.mesh := rfl
@[simp] theorem askHome_lyspor (s : State) (q : HomeReq) : (s.askHome q).lyspor = s.lyspor := rfl
@[simp] theorem askHome_filterAdd (s : State) (q : HomeReq) : (s.askHome q).filterAdd = s.filterAdd := rfl
@[simp] theorem askHome_filterDel (s : State) (q : HomeReq) : (s.askHome q).filterDel = s.filterDel := rfl
@[simp] theorem askHome_canopyInv (s : State) (q : HomeReq) : (s.askHome q).canopyInv = s.canopyInv := rfl
@[simp] theorem askHome_meshIrqs (s : State) (q : HomeReq) : (s.askHome q).meshIrqs = s.meshIrqs := rfl
@[simp] theorem askHome_waitFl (s : State) (q : HomeReq) : (s.askHome q).waitFl = s.waitFl := rfl
@[simp] theorem askHome_walks (s : State) (q : HomeReq) : (s.askHome q).walks = s.walks := rfl
@[simp] theorem askHome_keysFused (s : State) (q : HomeReq) : (s.askHome q).keysFused = s.keysFused := rfl
@[simp] theorem askHome_keysRevoked (s : State) (q : HomeReq) : (s.askHome q).keysRevoked = s.keysRevoked := rfl
@[simp] theorem askHome_remaps (s : State) (q : HomeReq) : (s.askHome q).remaps = s.remaps := rfl
@[simp] theorem askHome_load (s : State) (q : HomeReq) : (s.askHome q).load = s.load := rfl
@[simp] theorem askHome_loaded (s : State) (q : HomeReq) : (s.askHome q).loaded = s.loaded := rfl
@[simp] theorem askHome_cores (s : State) (q : HomeReq) : (s.askHome q).cores = s.cores := rfl
@[simp] theorem askHome_host (s : State) (q : HomeReq) : (s.askHome q).host = s.host := rfl
@[simp] theorem askHome_agenda (s : State) (q : HomeReq) : (s.askHome q).agenda = s.agenda := rfl
@[simp] theorem askHome_focus (s : State) (q : HomeReq) : (s.askHome q).focus = s.focus := rfl
@[simp] theorem askHome_who (s : State) (q : HomeReq) : (s.askHome q).who = s.who := rfl
@[simp] theorem askHome_turn (s : State) (q : HomeReq) : (s.askHome q).turn = s.turn := rfl
@[simp] theorem askHome_tick (s : State) (q : HomeReq) : (s.askHome q).tick = s.tick := rfl
@[simp] theorem askHome_fresh (s : State) (q : HomeReq) : (s.askHome q).fresh = s.fresh := rfl

@[simp] theorem setCopy_part (s : State) (line site : Nat) (c : L2Copy) : (s.setCopy line site c).part = s.part := rfl
@[simp] theorem setCopy_pkg (s : State) (line site : Nat) (c : L2Copy) : (s.setCopy line site c).pkg = s.pkg := rfl
@[simp] theorem setCopy_sysSize (s : State) (line site : Nat) (c : L2Copy) : (s.setCopy line site c).sysSize = s.sysSize := rfl
@[simp] theorem setCopy_dieMap (s : State) (line site : Nat) (c : L2Copy) : (s.setCopy line site c).dieMap = s.dieMap := rfl
@[simp] theorem setCopy_diesReady (s : State) (line site : Nat) (c : L2Copy) : (s.setCopy line site c).diesReady = s.diesReady := rfl
@[simp] theorem setCopy_mem (s : State) (line site : Nat) (c : L2Copy) : (s.setCopy line site c).mem = s.mem := rfl
@[simp] theorem setCopy_asidBase (s : State) (line site : Nat) (c : L2Copy) : (s.setCopy line site c).asidBase = s.asidBase := rfl
@[simp] theorem setCopy_launchBase (s : State) (line site : Nat) (c : L2Copy) : (s.setCopy line site c).launchBase = s.launchBase := rfl
@[simp] theorem setCopy_canopyBase (s : State) (line site : Nat) (c : L2Copy) : (s.setCopy line site c).canopyBase = s.canopyBase := rfl
@[simp] theorem setCopy_canopyAsid (s : State) (line site : Nat) (c : L2Copy) : (s.setCopy line site c).canopyAsid = s.canopyAsid := rfl
@[simp] theorem setCopy_waitBase (s : State) (line site : Nat) (c : L2Copy) : (s.setCopy line site c).waitBase = s.waitBase := rfl
@[simp] theorem setCopy_waitSize (s : State) (line site : Nat) (c : L2Copy) : (s.setCopy line site c).waitSize = s.waitSize := rfl
@[simp] theorem setCopy_heldRays (s : State) (line site : Nat) (c : L2Copy) : (s.setCopy line site c).heldRays = s.heldRays := rfl
@[simp] theorem setCopy_thawAcc (s : State) (line site : Nat) (c : L2Copy) : (s.setCopy line site c).thawAcc = s.thawAcc := rfl
@[simp] theorem setCopy_hz (s : State) (line site : Nat) (c : L2Copy) : (s.setCopy line site c).hz = s.hz := rfl
@[simp] theorem setCopy_sysHz (s : State) (line site : Nat) (c : L2Copy) : (s.setCopy line site c).sysHz = s.sysHz := rfl
@[simp] theorem setCopy_mesh (s : State) (line site : Nat) (c : L2Copy) : (s.setCopy line site c).mesh = s.mesh := rfl
@[simp] theorem setCopy_lyspor (s : State) (line site : Nat) (c : L2Copy) : (s.setCopy line site c).lyspor = s.lyspor := rfl
@[simp] theorem setCopy_homeQ (s : State) (line site : Nat) (c : L2Copy) : (s.setCopy line site c).homeQ = s.homeQ := rfl
@[simp] theorem setCopy_filterAdd (s : State) (line site : Nat) (c : L2Copy) : (s.setCopy line site c).filterAdd = s.filterAdd := rfl
@[simp] theorem setCopy_filterDel (s : State) (line site : Nat) (c : L2Copy) : (s.setCopy line site c).filterDel = s.filterDel := rfl
@[simp] theorem setCopy_canopyInv (s : State) (line site : Nat) (c : L2Copy) : (s.setCopy line site c).canopyInv = s.canopyInv := rfl
@[simp] theorem setCopy_meshIrqs (s : State) (line site : Nat) (c : L2Copy) : (s.setCopy line site c).meshIrqs = s.meshIrqs := rfl
@[simp] theorem setCopy_waitFl (s : State) (line site : Nat) (c : L2Copy) : (s.setCopy line site c).waitFl = s.waitFl := rfl
@[simp] theorem setCopy_walks (s : State) (line site : Nat) (c : L2Copy) : (s.setCopy line site c).walks = s.walks := rfl
@[simp] theorem setCopy_keysFused (s : State) (line site : Nat) (c : L2Copy) : (s.setCopy line site c).keysFused = s.keysFused := rfl
@[simp] theorem setCopy_keysRevoked (s : State) (line site : Nat) (c : L2Copy) : (s.setCopy line site c).keysRevoked = s.keysRevoked := rfl
@[simp] theorem setCopy_remaps (s : State) (line site : Nat) (c : L2Copy) : (s.setCopy line site c).remaps = s.remaps := rfl
@[simp] theorem setCopy_load (s : State) (line site : Nat) (c : L2Copy) : (s.setCopy line site c).load = s.load := rfl
@[simp] theorem setCopy_loaded (s : State) (line site : Nat) (c : L2Copy) : (s.setCopy line site c).loaded = s.loaded := rfl
@[simp] theorem setCopy_cores (s : State) (line site : Nat) (c : L2Copy) : (s.setCopy line site c).cores = s.cores := rfl
@[simp] theorem setCopy_host (s : State) (line site : Nat) (c : L2Copy) : (s.setCopy line site c).host = s.host := rfl
@[simp] theorem setCopy_agenda (s : State) (line site : Nat) (c : L2Copy) : (s.setCopy line site c).agenda = s.agenda := rfl
@[simp] theorem setCopy_focus (s : State) (line site : Nat) (c : L2Copy) : (s.setCopy line site c).focus = s.focus := rfl
@[simp] theorem setCopy_who (s : State) (line site : Nat) (c : L2Copy) : (s.setCopy line site c).who = s.who := rfl
@[simp] theorem setCopy_turn (s : State) (line site : Nat) (c : L2Copy) : (s.setCopy line site c).turn = s.turn := rfl
@[simp] theorem setCopy_tick (s : State) (line site : Nat) (c : L2Copy) : (s.setCopy line site c).tick = s.tick := rfl
@[simp] theorem setCopy_fresh (s : State) (line site : Nat) (c : L2Copy) : (s.setCopy line site c).fresh = s.fresh := rfl

/-! ## Core -/

@[simp] theorem coreSetFiring_asid (c : Core) (sl : Nat) (f : Firing) : (c.setFiring sl f).asid = c.asid := rfl
@[simp] theorem coreSetFiring_placed (c : Core) (sl : Nat) (f : Firing) : (c.setFiring sl f).placed = c.placed := rfl
@[simp] theorem coreSetFiring_loading (c : Core) (sl : Nat) (f : Firing) : (c.setFiring sl f).loading = c.loading := rfl
@[simp] theorem coreSetFiring_htab (c : Core) (sl : Nat) (f : Firing) : (c.setFiring sl f).htab = c.htab := rfl
@[simp] theorem coreSetFiring_wsLo (c : Core) (sl : Nat) (f : Firing) : (c.setFiring sl f).wsLo = c.wsLo := rfl
@[simp] theorem coreSetFiring_wsHi (c : Core) (sl : Nat) (f : Firing) : (c.setFiring sl f).wsHi = c.wsHi := rfl
@[simp] theorem coreSetFiring_spad (c : Core) (sl : Nat) (f : Firing) : (c.setFiring sl f).spad = c.spad := rfl
@[simp] theorem coreSetFiring_cstate (c : Core) (sl : Nat) (f : Firing) : (c.setFiring sl f).cstate = c.cstate := rfl
@[simp] theorem coreSetFiring_trapQ (c : Core) (sl : Nat) (f : Firing) : (c.setFiring sl f).trapQ = c.trapQ := rfl
@[simp] theorem coreSetFiring_subject (c : Core) (sl : Nat) (f : Firing) : (c.setFiring sl f).subject = c.subject := rfl
@[simp] theorem coreSetFiring_subjRec (c : Core) (sl : Nat) (f : Firing) : (c.setFiring sl f).subjRec = c.subjRec := rfl
@[simp] theorem coreSetFiring_vt (c : Core) (sl : Nat) (f : Firing) : (c.setFiring sl f).vt = c.vt := rfl
@[simp] theorem coreSetFiring_report (c : Core) (sl : Nat) (f : Firing) : (c.setFiring sl f).report = c.report := rfl
@[simp] theorem coreSetFiring_claim (c : Core) (sl : Nat) (f : Firing) : (c.setFiring sl f).claim = c.claim := rfl
@[simp] theorem coreSetFiring_hz (c : Core) (sl : Nat) (f : Firing) : (c.setFiring sl f).hz = c.hz := rfl
@[simp] theorem coreSetFiring_hzSys (c : Core) (sl : Nat) (f : Firing) : (c.setFiring sl f).hzSys = c.hzSys := rfl
@[simp] theorem coreSetFiring_tvec (c : Core) (sl : Nat) (f : Firing) : (c.setFiring sl f).tvec = c.tvec := rfl
@[simp] theorem coreSetFiring_tws (c : Core) (sl : Nat) (f : Firing) : (c.setFiring sl f).tws = c.tws := rfl
@[simp] theorem coreSetFiring_spq (c : Core) (sl : Nat) (f : Firing) : (c.setFiring sl f).spq = c.spq := rfl
@[simp] theorem coreSetFiring_spqsz (c : Core) (sl : Nat) (f : Firing) : (c.setFiring sl f).spqsz = c.spqsz := rfl
@[simp] theorem coreSetFiring_brk0 (c : Core) (sl : Nat) (f : Firing) : (c.setFiring sl f).brk0 = c.brk0 := rfl
@[simp] theorem coreSetFiring_brk1 (c : Core) (sl : Nat) (f : Firing) : (c.setFiring sl f).brk1 = c.brk1 := rfl
@[simp] theorem coreSetFiring_wch0 (c : Core) (sl : Nat) (f : Firing) : (c.setFiring sl f).wch0 = c.wch0 := rfl
@[simp] theorem coreSetFiring_wch1 (c : Core) (sl : Nat) (f : Firing) : (c.setFiring sl f).wch1 = c.wch1 := rfl
@[simp] theorem coreSetFiring_sendBuf (c : Core) (sl : Nat) (f : Firing) : (c.setFiring sl f).sendBuf = c.sendBuf := rfl
@[simp] theorem coreSetFiring_sendvQ (c : Core) (sl : Nat) (f : Firing) : (c.setFiring sl f).sendvQ = c.sendvQ := rfl
@[simp] theorem coreSetFiring_sendvWait (c : Core) (sl : Nat) (f : Firing) : (c.setFiring sl f).sendvWait = c.sendvWait := rfl
@[simp] theorem coreSetFiring_inbox (c : Core) (sl : Nat) (f : Firing) : (c.setFiring sl f).inbox = c.inbox := rfl
@[simp] theorem coreSetFiring_spill (c : Core) (sl : Nat) (f : Firing) : (c.setFiring sl f).spill = c.spill := rfl
@[simp] theorem coreSetFiring_spTail (c : Core) (sl : Nat) (f : Firing) : (c.setFiring sl f).spTail = c.spTail := rfl
@[simp] theorem coreSetFiring_metBad (c : Core) (sl : Nat) (f : Firing) : (c.setFiring sl f).metBad = c.metBad := rfl
@[simp] theorem coreSetFiring_spillSaid (c : Core) (sl : Nat) (f : Firing) : (c.setFiring sl f).spillSaid = c.spillSaid := rfl
@[simp] theorem coreSetFiring_glades (c : Core) (sl : Nat) (f : Firing) : (c.setFiring sl f).glades = c.glades := rfl
@[simp] theorem coreSetFiring_credits (c : Core) (sl : Nat) (f : Firing) : (c.setFiring sl f).credits = c.credits := rfl
@[simp] theorem coreSetFiring_filter (c : Core) (sl : Nat) (f : Firing) : (c.setFiring sl f).filter = c.filter := rfl
@[simp] theorem coreSetFiring_filterWait (c : Core) (sl : Nat) (f : Firing) : (c.setFiring sl f).filterWait = c.filterWait := rfl
@[simp] theorem coreSetFiring_pinned (c : Core) (sl : Nat) (f : Firing) : (c.setFiring sl f).pinned = c.pinned := rfl
@[simp] theorem coreSetFiring_canopy (c : Core) (sl : Nat) (f : Firing) : (c.setFiring sl f).canopy = c.canopy := rfl
@[simp] theorem coreSetFiring_waitSaid (c : Core) (sl : Nat) (f : Firing) : (c.setFiring sl f).waitSaid = c.waitSaid := rfl
@[simp] theorem coreSetFiring_thawQ (c : Core) (sl : Nat) (f : Firing) : (c.setFiring sl f).thawQ = c.thawQ := rfl
@[simp] theorem coreSetFiring_thawJob (c : Core) (sl : Nat) (f : Firing) : (c.setFiring sl f).thawJob = c.thawJob := rfl
@[simp] theorem coreSetFiring_ctxs (c : Core) (sl : Nat) (f : Firing) : (c.setFiring sl f).ctxs = c.ctxs := rfl
@[simp] theorem coreSetFiring_ectx (c : Core) (sl : Nat) (f : Firing) : (c.setFiring sl f).ectx = c.ectx := rfl
@[simp] theorem coreSetFiring_samp (c : Core) (sl : Nat) (f : Firing) : (c.setFiring sl f).samp = c.samp := rfl
@[simp] theorem coreSetFiring_sampQ (c : Core) (sl : Nat) (f : Firing) : (c.setFiring sl f).sampQ = c.sampQ := rfl
@[simp] theorem coreSetFiring_sfuQ (c : Core) (sl : Nat) (f : Firing) : (c.setFiring sl f).sfuQ = c.sfuQ := rfl
@[simp] theorem coreSetFiring_mat (c : Core) (sl : Nat) (f : Firing) : (c.setFiring sl f).mat = c.mat := rfl
@[simp] theorem coreSetFiring_busy (c : Core) (sl : Nat) (f : Firing) : (c.setFiring sl f).busy = c.busy := rfl
@[simp] theorem coreSetFiring_l1d (c : Core) (sl : Nat) (f : Firing) : (c.setFiring sl f).l1d = c.l1d := rfl
@[simp] theorem coreSetFiring_l1i (c : Core) (sl : Nat) (f : Firing) : (c.setFiring sl f).l1i = c.l1i := rfl
@[simp] theorem coreSetFiring_tlb (c : Core) (sl : Nat) (f : Firing) : (c.setFiring sl f).tlb = c.tlb := rfl
@[simp] theorem coreSetFiring_dirty (c : Core) (sl : Nat) (f : Firing) : (c.setFiring sl f).dirty = c.dirty := rfl
@[simp] theorem coreSetFiring_dirtyOvf (c : Core) (sl : Nat) (f : Firing) : (c.setFiring sl f).dirtyOvf = c.dirtyOvf := rfl
@[simp] theorem coreSetFiring_proxies (c : Core) (sl : Nat) (f : Firing) : (c.setFiring sl f).proxies = c.proxies := rfl
@[simp] theorem coreSetFiring_rr (c : Core) (sl : Nat) (f : Firing) : (c.setFiring sl f).rr = c.rr := rfl
@[simp] theorem coreSetFiring_drain (c : Core) (sl : Nat) (f : Firing) : (c.setFiring sl f).drain = c.drain := rfl
@[simp] theorem coreSetFiring_swapping (c : Core) (sl : Nat) (f : Firing) : (c.setFiring sl f).swapping = c.swapping := rfl
@[simp] theorem coreSetFiring_kept (c : Core) (sl : Nat) (f : Firing) : (c.setFiring sl f).kept = c.kept := rfl

@[simp] theorem corePutBs_asid (c : Core) (o : Nat) (bs : List Byte) : (c.putBs o bs).asid = c.asid := rfl
@[simp] theorem corePutBs_placed (c : Core) (o : Nat) (bs : List Byte) : (c.putBs o bs).placed = c.placed := rfl
@[simp] theorem corePutBs_loading (c : Core) (o : Nat) (bs : List Byte) : (c.putBs o bs).loading = c.loading := rfl
@[simp] theorem corePutBs_htab (c : Core) (o : Nat) (bs : List Byte) : (c.putBs o bs).htab = c.htab := rfl
@[simp] theorem corePutBs_wsLo (c : Core) (o : Nat) (bs : List Byte) : (c.putBs o bs).wsLo = c.wsLo := rfl
@[simp] theorem corePutBs_wsHi (c : Core) (o : Nat) (bs : List Byte) : (c.putBs o bs).wsHi = c.wsHi := rfl
@[simp] theorem corePutBs_cstate (c : Core) (o : Nat) (bs : List Byte) : (c.putBs o bs).cstate = c.cstate := rfl
@[simp] theorem corePutBs_firings (c : Core) (o : Nat) (bs : List Byte) : (c.putBs o bs).firings = c.firings := rfl
@[simp] theorem corePutBs_trapQ (c : Core) (o : Nat) (bs : List Byte) : (c.putBs o bs).trapQ = c.trapQ := rfl
@[simp] theorem corePutBs_subject (c : Core) (o : Nat) (bs : List Byte) : (c.putBs o bs).subject = c.subject := rfl
@[simp] theorem corePutBs_subjRec (c : Core) (o : Nat) (bs : List Byte) : (c.putBs o bs).subjRec = c.subjRec := rfl
@[simp] theorem corePutBs_vt (c : Core) (o : Nat) (bs : List Byte) : (c.putBs o bs).vt = c.vt := rfl
@[simp] theorem corePutBs_report (c : Core) (o : Nat) (bs : List Byte) : (c.putBs o bs).report = c.report := rfl
@[simp] theorem corePutBs_claim (c : Core) (o : Nat) (bs : List Byte) : (c.putBs o bs).claim = c.claim := rfl
@[simp] theorem corePutBs_hz (c : Core) (o : Nat) (bs : List Byte) : (c.putBs o bs).hz = c.hz := rfl
@[simp] theorem corePutBs_hzSys (c : Core) (o : Nat) (bs : List Byte) : (c.putBs o bs).hzSys = c.hzSys := rfl
@[simp] theorem corePutBs_tvec (c : Core) (o : Nat) (bs : List Byte) : (c.putBs o bs).tvec = c.tvec := rfl
@[simp] theorem corePutBs_tws (c : Core) (o : Nat) (bs : List Byte) : (c.putBs o bs).tws = c.tws := rfl
@[simp] theorem corePutBs_spq (c : Core) (o : Nat) (bs : List Byte) : (c.putBs o bs).spq = c.spq := rfl
@[simp] theorem corePutBs_spqsz (c : Core) (o : Nat) (bs : List Byte) : (c.putBs o bs).spqsz = c.spqsz := rfl
@[simp] theorem corePutBs_brk0 (c : Core) (o : Nat) (bs : List Byte) : (c.putBs o bs).brk0 = c.brk0 := rfl
@[simp] theorem corePutBs_brk1 (c : Core) (o : Nat) (bs : List Byte) : (c.putBs o bs).brk1 = c.brk1 := rfl
@[simp] theorem corePutBs_wch0 (c : Core) (o : Nat) (bs : List Byte) : (c.putBs o bs).wch0 = c.wch0 := rfl
@[simp] theorem corePutBs_wch1 (c : Core) (o : Nat) (bs : List Byte) : (c.putBs o bs).wch1 = c.wch1 := rfl
@[simp] theorem corePutBs_sendBuf (c : Core) (o : Nat) (bs : List Byte) : (c.putBs o bs).sendBuf = c.sendBuf := rfl
@[simp] theorem corePutBs_sendvQ (c : Core) (o : Nat) (bs : List Byte) : (c.putBs o bs).sendvQ = c.sendvQ := rfl
@[simp] theorem corePutBs_sendvWait (c : Core) (o : Nat) (bs : List Byte) : (c.putBs o bs).sendvWait = c.sendvWait := rfl
@[simp] theorem corePutBs_inbox (c : Core) (o : Nat) (bs : List Byte) : (c.putBs o bs).inbox = c.inbox := rfl
@[simp] theorem corePutBs_spill (c : Core) (o : Nat) (bs : List Byte) : (c.putBs o bs).spill = c.spill := rfl
@[simp] theorem corePutBs_spTail (c : Core) (o : Nat) (bs : List Byte) : (c.putBs o bs).spTail = c.spTail := rfl
@[simp] theorem corePutBs_metBad (c : Core) (o : Nat) (bs : List Byte) : (c.putBs o bs).metBad = c.metBad := rfl
@[simp] theorem corePutBs_spillSaid (c : Core) (o : Nat) (bs : List Byte) : (c.putBs o bs).spillSaid = c.spillSaid := rfl
@[simp] theorem corePutBs_glades (c : Core) (o : Nat) (bs : List Byte) : (c.putBs o bs).glades = c.glades := rfl
@[simp] theorem corePutBs_credits (c : Core) (o : Nat) (bs : List Byte) : (c.putBs o bs).credits = c.credits := rfl
@[simp] theorem corePutBs_filter (c : Core) (o : Nat) (bs : List Byte) : (c.putBs o bs).filter = c.filter := rfl
@[simp] theorem corePutBs_filterWait (c : Core) (o : Nat) (bs : List Byte) : (c.putBs o bs).filterWait = c.filterWait := rfl
@[simp] theorem corePutBs_pinned (c : Core) (o : Nat) (bs : List Byte) : (c.putBs o bs).pinned = c.pinned := rfl
@[simp] theorem corePutBs_canopy (c : Core) (o : Nat) (bs : List Byte) : (c.putBs o bs).canopy = c.canopy := rfl
@[simp] theorem corePutBs_waitSaid (c : Core) (o : Nat) (bs : List Byte) : (c.putBs o bs).waitSaid = c.waitSaid := rfl
@[simp] theorem corePutBs_thawQ (c : Core) (o : Nat) (bs : List Byte) : (c.putBs o bs).thawQ = c.thawQ := rfl
@[simp] theorem corePutBs_thawJob (c : Core) (o : Nat) (bs : List Byte) : (c.putBs o bs).thawJob = c.thawJob := rfl
@[simp] theorem corePutBs_ctxs (c : Core) (o : Nat) (bs : List Byte) : (c.putBs o bs).ctxs = c.ctxs := rfl
@[simp] theorem corePutBs_ectx (c : Core) (o : Nat) (bs : List Byte) : (c.putBs o bs).ectx = c.ectx := rfl
@[simp] theorem corePutBs_samp (c : Core) (o : Nat) (bs : List Byte) : (c.putBs o bs).samp = c.samp := rfl
@[simp] theorem corePutBs_sampQ (c : Core) (o : Nat) (bs : List Byte) : (c.putBs o bs).sampQ = c.sampQ := rfl
@[simp] theorem corePutBs_sfuQ (c : Core) (o : Nat) (bs : List Byte) : (c.putBs o bs).sfuQ = c.sfuQ := rfl
@[simp] theorem corePutBs_mat (c : Core) (o : Nat) (bs : List Byte) : (c.putBs o bs).mat = c.mat := rfl
@[simp] theorem corePutBs_busy (c : Core) (o : Nat) (bs : List Byte) : (c.putBs o bs).busy = c.busy := rfl
@[simp] theorem corePutBs_l1d (c : Core) (o : Nat) (bs : List Byte) : (c.putBs o bs).l1d = c.l1d := rfl
@[simp] theorem corePutBs_l1i (c : Core) (o : Nat) (bs : List Byte) : (c.putBs o bs).l1i = c.l1i := rfl
@[simp] theorem corePutBs_tlb (c : Core) (o : Nat) (bs : List Byte) : (c.putBs o bs).tlb = c.tlb := rfl
@[simp] theorem corePutBs_dirty (c : Core) (o : Nat) (bs : List Byte) : (c.putBs o bs).dirty = c.dirty := rfl
@[simp] theorem corePutBs_dirtyOvf (c : Core) (o : Nat) (bs : List Byte) : (c.putBs o bs).dirtyOvf = c.dirtyOvf := rfl
@[simp] theorem corePutBs_proxies (c : Core) (o : Nat) (bs : List Byte) : (c.putBs o bs).proxies = c.proxies := rfl
@[simp] theorem corePutBs_rr (c : Core) (o : Nat) (bs : List Byte) : (c.putBs o bs).rr = c.rr := rfl
@[simp] theorem corePutBs_drain (c : Core) (o : Nat) (bs : List Byte) : (c.putBs o bs).drain = c.drain := rfl
@[simp] theorem corePutBs_swapping (c : Core) (o : Nat) (bs : List Byte) : (c.putBs o bs).swapping = c.swapping := rfl
@[simp] theorem corePutBs_kept (c : Core) (o : Nat) (bs : List Byte) : (c.putBs o bs).kept = c.kept := rfl

@[simp] theorem coreBuffer_asid (c : Core) (fl : Flight) : (c.buffer fl).asid = c.asid := rfl
@[simp] theorem coreBuffer_placed (c : Core) (fl : Flight) : (c.buffer fl).placed = c.placed := rfl
@[simp] theorem coreBuffer_loading (c : Core) (fl : Flight) : (c.buffer fl).loading = c.loading := rfl
@[simp] theorem coreBuffer_htab (c : Core) (fl : Flight) : (c.buffer fl).htab = c.htab := rfl
@[simp] theorem coreBuffer_wsLo (c : Core) (fl : Flight) : (c.buffer fl).wsLo = c.wsLo := rfl
@[simp] theorem coreBuffer_wsHi (c : Core) (fl : Flight) : (c.buffer fl).wsHi = c.wsHi := rfl
@[simp] theorem coreBuffer_spad (c : Core) (fl : Flight) : (c.buffer fl).spad = c.spad := rfl
@[simp] theorem coreBuffer_cstate (c : Core) (fl : Flight) : (c.buffer fl).cstate = c.cstate := rfl
@[simp] theorem coreBuffer_firings (c : Core) (fl : Flight) : (c.buffer fl).firings = c.firings := rfl
@[simp] theorem coreBuffer_trapQ (c : Core) (fl : Flight) : (c.buffer fl).trapQ = c.trapQ := rfl
@[simp] theorem coreBuffer_subject (c : Core) (fl : Flight) : (c.buffer fl).subject = c.subject := rfl
@[simp] theorem coreBuffer_subjRec (c : Core) (fl : Flight) : (c.buffer fl).subjRec = c.subjRec := rfl
@[simp] theorem coreBuffer_vt (c : Core) (fl : Flight) : (c.buffer fl).vt = c.vt := rfl
@[simp] theorem coreBuffer_report (c : Core) (fl : Flight) : (c.buffer fl).report = c.report := rfl
@[simp] theorem coreBuffer_claim (c : Core) (fl : Flight) : (c.buffer fl).claim = c.claim := rfl
@[simp] theorem coreBuffer_hz (c : Core) (fl : Flight) : (c.buffer fl).hz = c.hz := rfl
@[simp] theorem coreBuffer_hzSys (c : Core) (fl : Flight) : (c.buffer fl).hzSys = c.hzSys := rfl
@[simp] theorem coreBuffer_tvec (c : Core) (fl : Flight) : (c.buffer fl).tvec = c.tvec := rfl
@[simp] theorem coreBuffer_tws (c : Core) (fl : Flight) : (c.buffer fl).tws = c.tws := rfl
@[simp] theorem coreBuffer_spq (c : Core) (fl : Flight) : (c.buffer fl).spq = c.spq := rfl
@[simp] theorem coreBuffer_spqsz (c : Core) (fl : Flight) : (c.buffer fl).spqsz = c.spqsz := rfl
@[simp] theorem coreBuffer_brk0 (c : Core) (fl : Flight) : (c.buffer fl).brk0 = c.brk0 := rfl
@[simp] theorem coreBuffer_brk1 (c : Core) (fl : Flight) : (c.buffer fl).brk1 = c.brk1 := rfl
@[simp] theorem coreBuffer_wch0 (c : Core) (fl : Flight) : (c.buffer fl).wch0 = c.wch0 := rfl
@[simp] theorem coreBuffer_wch1 (c : Core) (fl : Flight) : (c.buffer fl).wch1 = c.wch1 := rfl
@[simp] theorem coreBuffer_sendvQ (c : Core) (fl : Flight) : (c.buffer fl).sendvQ = c.sendvQ := rfl
@[simp] theorem coreBuffer_sendvWait (c : Core) (fl : Flight) : (c.buffer fl).sendvWait = c.sendvWait := rfl
@[simp] theorem coreBuffer_inbox (c : Core) (fl : Flight) : (c.buffer fl).inbox = c.inbox := rfl
@[simp] theorem coreBuffer_spill (c : Core) (fl : Flight) : (c.buffer fl).spill = c.spill := rfl
@[simp] theorem coreBuffer_spTail (c : Core) (fl : Flight) : (c.buffer fl).spTail = c.spTail := rfl
@[simp] theorem coreBuffer_metBad (c : Core) (fl : Flight) : (c.buffer fl).metBad = c.metBad := rfl
@[simp] theorem coreBuffer_spillSaid (c : Core) (fl : Flight) : (c.buffer fl).spillSaid = c.spillSaid := rfl
@[simp] theorem coreBuffer_glades (c : Core) (fl : Flight) : (c.buffer fl).glades = c.glades := rfl
@[simp] theorem coreBuffer_credits (c : Core) (fl : Flight) : (c.buffer fl).credits = c.credits := rfl
@[simp] theorem coreBuffer_filter (c : Core) (fl : Flight) : (c.buffer fl).filter = c.filter := rfl
@[simp] theorem coreBuffer_filterWait (c : Core) (fl : Flight) : (c.buffer fl).filterWait = c.filterWait := rfl
@[simp] theorem coreBuffer_pinned (c : Core) (fl : Flight) : (c.buffer fl).pinned = c.pinned := rfl
@[simp] theorem coreBuffer_canopy (c : Core) (fl : Flight) : (c.buffer fl).canopy = c.canopy := rfl
@[simp] theorem coreBuffer_waitSaid (c : Core) (fl : Flight) : (c.buffer fl).waitSaid = c.waitSaid := rfl
@[simp] theorem coreBuffer_thawQ (c : Core) (fl : Flight) : (c.buffer fl).thawQ = c.thawQ := rfl
@[simp] theorem coreBuffer_thawJob (c : Core) (fl : Flight) : (c.buffer fl).thawJob = c.thawJob := rfl
@[simp] theorem coreBuffer_ctxs (c : Core) (fl : Flight) : (c.buffer fl).ctxs = c.ctxs := rfl
@[simp] theorem coreBuffer_ectx (c : Core) (fl : Flight) : (c.buffer fl).ectx = c.ectx := rfl
@[simp] theorem coreBuffer_samp (c : Core) (fl : Flight) : (c.buffer fl).samp = c.samp := rfl
@[simp] theorem coreBuffer_sampQ (c : Core) (fl : Flight) : (c.buffer fl).sampQ = c.sampQ := rfl
@[simp] theorem coreBuffer_sfuQ (c : Core) (fl : Flight) : (c.buffer fl).sfuQ = c.sfuQ := rfl
@[simp] theorem coreBuffer_mat (c : Core) (fl : Flight) : (c.buffer fl).mat = c.mat := rfl
@[simp] theorem coreBuffer_busy (c : Core) (fl : Flight) : (c.buffer fl).busy = c.busy := rfl
@[simp] theorem coreBuffer_l1d (c : Core) (fl : Flight) : (c.buffer fl).l1d = c.l1d := rfl
@[simp] theorem coreBuffer_l1i (c : Core) (fl : Flight) : (c.buffer fl).l1i = c.l1i := rfl
@[simp] theorem coreBuffer_tlb (c : Core) (fl : Flight) : (c.buffer fl).tlb = c.tlb := rfl
@[simp] theorem coreBuffer_dirty (c : Core) (fl : Flight) : (c.buffer fl).dirty = c.dirty := rfl
@[simp] theorem coreBuffer_dirtyOvf (c : Core) (fl : Flight) : (c.buffer fl).dirtyOvf = c.dirtyOvf := rfl
@[simp] theorem coreBuffer_proxies (c : Core) (fl : Flight) : (c.buffer fl).proxies = c.proxies := rfl
@[simp] theorem coreBuffer_rr (c : Core) (fl : Flight) : (c.buffer fl).rr = c.rr := rfl
@[simp] theorem coreBuffer_drain (c : Core) (fl : Flight) : (c.buffer fl).drain = c.drain := rfl
@[simp] theorem coreBuffer_swapping (c : Core) (fl : Flight) : (c.buffer fl).swapping = c.swapping := rfl
@[simp] theorem coreBuffer_kept (c : Core) (fl : Flight) : (c.buffer fl).kept = c.kept := rfl

@[simp] theorem coreSetGlade_asid (c : Core) (g : Nat) (x : Glade) : (c.setGlade g x).asid = c.asid := rfl
@[simp] theorem coreSetGlade_placed (c : Core) (g : Nat) (x : Glade) : (c.setGlade g x).placed = c.placed := rfl
@[simp] theorem coreSetGlade_loading (c : Core) (g : Nat) (x : Glade) : (c.setGlade g x).loading = c.loading := rfl
@[simp] theorem coreSetGlade_htab (c : Core) (g : Nat) (x : Glade) : (c.setGlade g x).htab = c.htab := rfl
@[simp] theorem coreSetGlade_wsLo (c : Core) (g : Nat) (x : Glade) : (c.setGlade g x).wsLo = c.wsLo := rfl
@[simp] theorem coreSetGlade_wsHi (c : Core) (g : Nat) (x : Glade) : (c.setGlade g x).wsHi = c.wsHi := rfl
@[simp] theorem coreSetGlade_spad (c : Core) (g : Nat) (x : Glade) : (c.setGlade g x).spad = c.spad := rfl
@[simp] theorem coreSetGlade_cstate (c : Core) (g : Nat) (x : Glade) : (c.setGlade g x).cstate = c.cstate := rfl
@[simp] theorem coreSetGlade_firings (c : Core) (g : Nat) (x : Glade) : (c.setGlade g x).firings = c.firings := rfl
@[simp] theorem coreSetGlade_trapQ (c : Core) (g : Nat) (x : Glade) : (c.setGlade g x).trapQ = c.trapQ := rfl
@[simp] theorem coreSetGlade_subject (c : Core) (g : Nat) (x : Glade) : (c.setGlade g x).subject = c.subject := rfl
@[simp] theorem coreSetGlade_subjRec (c : Core) (g : Nat) (x : Glade) : (c.setGlade g x).subjRec = c.subjRec := rfl
@[simp] theorem coreSetGlade_vt (c : Core) (g : Nat) (x : Glade) : (c.setGlade g x).vt = c.vt := rfl
@[simp] theorem coreSetGlade_report (c : Core) (g : Nat) (x : Glade) : (c.setGlade g x).report = c.report := rfl
@[simp] theorem coreSetGlade_claim (c : Core) (g : Nat) (x : Glade) : (c.setGlade g x).claim = c.claim := rfl
@[simp] theorem coreSetGlade_hz (c : Core) (g : Nat) (x : Glade) : (c.setGlade g x).hz = c.hz := rfl
@[simp] theorem coreSetGlade_hzSys (c : Core) (g : Nat) (x : Glade) : (c.setGlade g x).hzSys = c.hzSys := rfl
@[simp] theorem coreSetGlade_tvec (c : Core) (g : Nat) (x : Glade) : (c.setGlade g x).tvec = c.tvec := rfl
@[simp] theorem coreSetGlade_tws (c : Core) (g : Nat) (x : Glade) : (c.setGlade g x).tws = c.tws := rfl
@[simp] theorem coreSetGlade_spq (c : Core) (g : Nat) (x : Glade) : (c.setGlade g x).spq = c.spq := rfl
@[simp] theorem coreSetGlade_spqsz (c : Core) (g : Nat) (x : Glade) : (c.setGlade g x).spqsz = c.spqsz := rfl
@[simp] theorem coreSetGlade_brk0 (c : Core) (g : Nat) (x : Glade) : (c.setGlade g x).brk0 = c.brk0 := rfl
@[simp] theorem coreSetGlade_brk1 (c : Core) (g : Nat) (x : Glade) : (c.setGlade g x).brk1 = c.brk1 := rfl
@[simp] theorem coreSetGlade_wch0 (c : Core) (g : Nat) (x : Glade) : (c.setGlade g x).wch0 = c.wch0 := rfl
@[simp] theorem coreSetGlade_wch1 (c : Core) (g : Nat) (x : Glade) : (c.setGlade g x).wch1 = c.wch1 := rfl
@[simp] theorem coreSetGlade_sendBuf (c : Core) (g : Nat) (x : Glade) : (c.setGlade g x).sendBuf = c.sendBuf := rfl
@[simp] theorem coreSetGlade_sendvQ (c : Core) (g : Nat) (x : Glade) : (c.setGlade g x).sendvQ = c.sendvQ := rfl
@[simp] theorem coreSetGlade_sendvWait (c : Core) (g : Nat) (x : Glade) : (c.setGlade g x).sendvWait = c.sendvWait := rfl
@[simp] theorem coreSetGlade_inbox (c : Core) (g : Nat) (x : Glade) : (c.setGlade g x).inbox = c.inbox := rfl
@[simp] theorem coreSetGlade_spill (c : Core) (g : Nat) (x : Glade) : (c.setGlade g x).spill = c.spill := rfl
@[simp] theorem coreSetGlade_spTail (c : Core) (g : Nat) (x : Glade) : (c.setGlade g x).spTail = c.spTail := rfl
@[simp] theorem coreSetGlade_metBad (c : Core) (g : Nat) (x : Glade) : (c.setGlade g x).metBad = c.metBad := rfl
@[simp] theorem coreSetGlade_spillSaid (c : Core) (g : Nat) (x : Glade) : (c.setGlade g x).spillSaid = c.spillSaid := rfl
@[simp] theorem coreSetGlade_credits (c : Core) (g : Nat) (x : Glade) : (c.setGlade g x).credits = c.credits := rfl
@[simp] theorem coreSetGlade_filter (c : Core) (g : Nat) (x : Glade) : (c.setGlade g x).filter = c.filter := rfl
@[simp] theorem coreSetGlade_filterWait (c : Core) (g : Nat) (x : Glade) : (c.setGlade g x).filterWait = c.filterWait := rfl
@[simp] theorem coreSetGlade_pinned (c : Core) (g : Nat) (x : Glade) : (c.setGlade g x).pinned = c.pinned := rfl
@[simp] theorem coreSetGlade_canopy (c : Core) (g : Nat) (x : Glade) : (c.setGlade g x).canopy = c.canopy := rfl
@[simp] theorem coreSetGlade_waitSaid (c : Core) (g : Nat) (x : Glade) : (c.setGlade g x).waitSaid = c.waitSaid := rfl
@[simp] theorem coreSetGlade_thawQ (c : Core) (g : Nat) (x : Glade) : (c.setGlade g x).thawQ = c.thawQ := rfl
@[simp] theorem coreSetGlade_thawJob (c : Core) (g : Nat) (x : Glade) : (c.setGlade g x).thawJob = c.thawJob := rfl
@[simp] theorem coreSetGlade_ctxs (c : Core) (g : Nat) (x : Glade) : (c.setGlade g x).ctxs = c.ctxs := rfl
@[simp] theorem coreSetGlade_ectx (c : Core) (g : Nat) (x : Glade) : (c.setGlade g x).ectx = c.ectx := rfl
@[simp] theorem coreSetGlade_samp (c : Core) (g : Nat) (x : Glade) : (c.setGlade g x).samp = c.samp := rfl
@[simp] theorem coreSetGlade_sampQ (c : Core) (g : Nat) (x : Glade) : (c.setGlade g x).sampQ = c.sampQ := rfl
@[simp] theorem coreSetGlade_sfuQ (c : Core) (g : Nat) (x : Glade) : (c.setGlade g x).sfuQ = c.sfuQ := rfl
@[simp] theorem coreSetGlade_mat (c : Core) (g : Nat) (x : Glade) : (c.setGlade g x).mat = c.mat := rfl
@[simp] theorem coreSetGlade_busy (c : Core) (g : Nat) (x : Glade) : (c.setGlade g x).busy = c.busy := rfl
@[simp] theorem coreSetGlade_l1d (c : Core) (g : Nat) (x : Glade) : (c.setGlade g x).l1d = c.l1d := rfl
@[simp] theorem coreSetGlade_l1i (c : Core) (g : Nat) (x : Glade) : (c.setGlade g x).l1i = c.l1i := rfl
@[simp] theorem coreSetGlade_tlb (c : Core) (g : Nat) (x : Glade) : (c.setGlade g x).tlb = c.tlb := rfl
@[simp] theorem coreSetGlade_dirty (c : Core) (g : Nat) (x : Glade) : (c.setGlade g x).dirty = c.dirty := rfl
@[simp] theorem coreSetGlade_dirtyOvf (c : Core) (g : Nat) (x : Glade) : (c.setGlade g x).dirtyOvf = c.dirtyOvf := rfl
@[simp] theorem coreSetGlade_proxies (c : Core) (g : Nat) (x : Glade) : (c.setGlade g x).proxies = c.proxies := rfl
@[simp] theorem coreSetGlade_rr (c : Core) (g : Nat) (x : Glade) : (c.setGlade g x).rr = c.rr := rfl
@[simp] theorem coreSetGlade_drain (c : Core) (g : Nat) (x : Glade) : (c.setGlade g x).drain = c.drain := rfl
@[simp] theorem coreSetGlade_swapping (c : Core) (g : Nat) (x : Glade) : (c.setGlade g x).swapping = c.swapping := rfl
@[simp] theorem coreSetGlade_kept (c : Core) (g : Nat) (x : Glade) : (c.setGlade g x).kept = c.kept := rfl

/-! ## Firing -/

@[simp] theorem setS_uid (f : Firing) (r : Nat) (x : W64) : (f.setS r x).uid = f.uid := by unfold Firing.setS; split <;> rfl
@[simp] theorem setS_hid (f : Firing) (r : Nat) (x : W64) : (f.setS r x).hid = f.hid := by unfold Firing.setS; split <;> rfl
@[simp] theorem setS_wave (f : Firing) (r : Nat) (x : W64) : (f.setS r x).wave = f.wave := by unfold Firing.setS; split <;> rfl
@[simp] theorem setS_ns (f : Firing) (r : Nat) (x : W64) : (f.setS r x).ns = f.ns := by unfold Firing.setS; split <;> rfl
@[simp] theorem setS_nv (f : Firing) (r : Nat) (x : W64) : (f.setS r x).nv = f.nv := by unfold Firing.setS; split <;> rfl
@[simp] theorem setS_plive (f : Firing) (r : Nat) (x : W64) : (f.setS r x).plive = f.plive := by unfold Firing.setS; split <;> rfl
@[simp] theorem setS_scope (f : Firing) (r : Nat) (x : W64) : (f.setS r x).scope = f.scope := by unfold Firing.setS; split <;> rfl
@[simp] theorem setS_pri (f : Firing) (r : Nat) (x : W64) : (f.setS r x).pri = f.pri := by unfold Firing.setS; split <;> rfl
@[simp] theorem setS_boost (f : Firing) (r : Nat) (x : W64) : (f.setS r x).boost = f.boost := by unfold Firing.setS; split <;> rfl
@[simp] theorem setS_ordered (f : Firing) (r : Nat) (x : W64) : (f.setS r x).ordered = f.ordered := by unfold Firing.setS; split <;> rfl
@[simp] theorem setS_gsrc (f : Firing) (r : Nat) (x : W64) : (f.setS r x).gsrc = f.gsrc := by unfold Firing.setS; split <;> rfl
@[simp] theorem setS_wp (f : Firing) (r : Nat) (x : W64) : (f.setS r x).wp = f.wp := by unfold Firing.setS; split <;> rfl
@[simp] theorem setS_ltag (f : Firing) (r : Nat) (x : W64) : (f.setS r x).ltag = f.ltag := by unfold Firing.setS; split <;> rfl
@[simp] theorem setS_stamp (f : Firing) (r : Nat) (x : W64) : (f.setS r x).stamp = f.stamp := by unfold Firing.setS; split <;> rfl
@[simp] theorem setS_taken (f : Firing) (r : Nat) (x : W64) : (f.setS r x).taken = f.taken := by unfold Firing.setS; split <;> rfl
@[simp] theorem setS_v (f : Firing) (r : Nat) (x : W64) : (f.setS r x).v = f.v := by unfold Firing.setS; split <;> rfl
@[simp] theorem setS_k (f : Firing) (r : Nat) (x : W64) : (f.setS r x).k = f.k := by unfold Firing.setS; split <;> rfl
@[simp] theorem setS_q (f : Firing) (r : Nat) (x : W64) : (f.setS r x).q = f.q := by unfold Firing.setS; split <;> rfl
@[simp] theorem setS_fpst (f : Firing) (r : Nat) (x : W64) : (f.setS r x).fpst = f.fpst := by unfold Firing.setS; split <;> rfl
@[simp] theorem setS_paths (f : Firing) (r : Nat) (x : W64) : (f.setS r x).paths = f.paths := by unfold Firing.setS; split <;> rfl
@[simp] theorem setS_cur (f : Firing) (r : Nat) (x : W64) : (f.setS r x).cur = f.cur := by unfold Firing.setS; split <;> rfl
@[simp] theorem setS_chain (f : Firing) (r : Nat) (x : W64) : (f.setS r x).chain = f.chain := by unfold Firing.setS; split <;> rfl
@[simp] theorem setS_ls (f : Firing) (r : Nat) (x : W64) : (f.setS r x).ls = f.ls := by unfold Firing.setS; split <;> rfl
@[simp] theorem setS_lv (f : Firing) (r : Nat) (x : W64) : (f.setS r x).lv = f.lv := by unfold Firing.setS; split <;> rfl
@[simp] theorem setS_trec (f : Firing) (r : Nat) (x : W64) : (f.setS r x).trec = f.trec := by unfold Firing.setS; split <;> rfl
@[simp] theorem setS_last (f : Firing) (r : Nat) (x : W64) : (f.setS r x).last = f.last := by unfold Firing.setS; split <;> rfl
@[simp] theorem setS_skip (f : Firing) (r : Nat) (x : W64) : (f.setS r x).skip = f.skip := by unfold Firing.setS; split <;> rfl
@[simp] theorem setS_rbrk (f : Firing) (r : Nat) (x : W64) : (f.setS r x).rbrk = f.rbrk := by unfold Firing.setS; split <;> rfl
@[simp] theorem setS_loss (f : Firing) (r : Nat) (x : W64) : (f.setS r x).loss = f.loss := by unfold Firing.setS; split <;> rfl
@[simp] theorem setS_bad (f : Firing) (r : Nat) (x : W64) : (f.setS r x).bad = f.bad := by unfold Firing.setS; split <;> rfl
@[simp] theorem setS_mode (f : Firing) (r : Nat) (x : W64) : (f.setS r x).mode = f.mode := by unfold Firing.setS; split <;> rfl
@[simp] theorem setS_sfu0 (f : Firing) (r : Nat) (x : W64) : (f.setS r x).sfu0 = f.sfu0 := by unfold Firing.setS; split <;> rfl
@[simp] theorem setS_sfu1 (f : Firing) (r : Nat) (x : W64) : (f.setS r x).sfu1 = f.sfu1 := by unfold Firing.setS; split <;> rfl
@[simp] theorem setS_sfum (f : Firing) (r : Nat) (x : W64) : (f.setS r x).sfum = f.sfum := by unfold Firing.setS; split <;> rfl
@[simp] theorem setS_sfuDisc (f : Firing) (r : Nat) (x : W64) : (f.setS r x).sfuDisc = f.sfuDisc := by unfold Firing.setS; split <;> rfl
@[simp] theorem setS_laddr (f : Firing) (r : Nat) (x : W64) : (f.setS r x).laddr = f.laddr := by unfold Firing.setS; split <;> rfl
@[simp] theorem setS_lcnt (f : Firing) (r : Nat) (x : W64) : (f.setS r x).lcnt = f.lcnt := by unfold Firing.setS; split <;> rfl
@[simp] theorem setS_depth (f : Firing) (r : Nat) (x : W64) : (f.setS r x).depth = f.depth := by unfold Firing.setS; split <;> rfl
@[simp] theorem setS_stop (f : Firing) (r : Nat) (x : W64) : (f.setS r x).stop = f.stop := by unfold Firing.setS; split <;> rfl
@[simp] theorem setS_deps (f : Firing) (r : Nat) (x : W64) : (f.setS r x).deps = f.deps := by unfold Firing.setS; split <;> rfl
@[simp] theorem setS_sq (f : Firing) (r : Nat) (x : W64) : (f.setS r x).sq = f.sq := by unfold Firing.setS; split <;> rfl
@[simp] theorem setS_wbq (f : Firing) (r : Nat) (x : W64) : (f.setS r x).wbq = f.wbq := by unfold Firing.setS; split <;> rfl
@[simp] theorem setS_xl (f : Firing) (r : Nat) (x : W64) : (f.setS r x).xl = f.xl := by unfold Firing.setS; split <;> rfl
@[simp] theorem setS_hold (f : Firing) (r : Nat) (x : W64) : (f.setS r x).hold = f.hold := by unfold Firing.setS; split <;> rfl
@[simp] theorem setS_rel (f : Firing) (r : Nat) (x : W64) : (f.setS r x).rel = f.rel := by unfold Firing.setS; split <;> rfl
@[simp] theorem setS_relMore (f : Firing) (r : Nat) (x : W64) : (f.setS r x).relMore = f.relMore := by unfold Firing.setS; split <;> rfl
@[simp] theorem setS_seq (f : Firing) (r : Nat) (x : W64) : (f.setS r x).seq = f.seq := by unfold Firing.setS; split <;> rfl

@[simp] theorem setV_uid (f : Firing) (r l : Nat) (x : W32) : (f.setV r l x).uid = f.uid := rfl
@[simp] theorem setV_hid (f : Firing) (r l : Nat) (x : W32) : (f.setV r l x).hid = f.hid := rfl
@[simp] theorem setV_wave (f : Firing) (r l : Nat) (x : W32) : (f.setV r l x).wave = f.wave := rfl
@[simp] theorem setV_ns (f : Firing) (r l : Nat) (x : W32) : (f.setV r l x).ns = f.ns := rfl
@[simp] theorem setV_nv (f : Firing) (r l : Nat) (x : W32) : (f.setV r l x).nv = f.nv := rfl
@[simp] theorem setV_plive (f : Firing) (r l : Nat) (x : W32) : (f.setV r l x).plive = f.plive := rfl
@[simp] theorem setV_scope (f : Firing) (r l : Nat) (x : W32) : (f.setV r l x).scope = f.scope := rfl
@[simp] theorem setV_pri (f : Firing) (r l : Nat) (x : W32) : (f.setV r l x).pri = f.pri := rfl
@[simp] theorem setV_boost (f : Firing) (r l : Nat) (x : W32) : (f.setV r l x).boost = f.boost := rfl
@[simp] theorem setV_ordered (f : Firing) (r l : Nat) (x : W32) : (f.setV r l x).ordered = f.ordered := rfl
@[simp] theorem setV_gsrc (f : Firing) (r l : Nat) (x : W32) : (f.setV r l x).gsrc = f.gsrc := rfl
@[simp] theorem setV_wp (f : Firing) (r l : Nat) (x : W32) : (f.setV r l x).wp = f.wp := rfl
@[simp] theorem setV_ltag (f : Firing) (r l : Nat) (x : W32) : (f.setV r l x).ltag = f.ltag := rfl
@[simp] theorem setV_stamp (f : Firing) (r l : Nat) (x : W32) : (f.setV r l x).stamp = f.stamp := rfl
@[simp] theorem setV_taken (f : Firing) (r l : Nat) (x : W32) : (f.setV r l x).taken = f.taken := rfl
@[simp] theorem setV_s (f : Firing) (r l : Nat) (x : W32) : (f.setV r l x).s = f.s := rfl
@[simp] theorem setV_k (f : Firing) (r l : Nat) (x : W32) : (f.setV r l x).k = f.k := rfl
@[simp] theorem setV_q (f : Firing) (r l : Nat) (x : W32) : (f.setV r l x).q = f.q := rfl
@[simp] theorem setV_fpst (f : Firing) (r l : Nat) (x : W32) : (f.setV r l x).fpst = f.fpst := rfl
@[simp] theorem setV_paths (f : Firing) (r l : Nat) (x : W32) : (f.setV r l x).paths = f.paths := rfl
@[simp] theorem setV_cur (f : Firing) (r l : Nat) (x : W32) : (f.setV r l x).cur = f.cur := rfl
@[simp] theorem setV_chain (f : Firing) (r l : Nat) (x : W32) : (f.setV r l x).chain = f.chain := rfl
@[simp] theorem setV_ls (f : Firing) (r l : Nat) (x : W32) : (f.setV r l x).ls = f.ls := rfl
@[simp] theorem setV_lv (f : Firing) (r l : Nat) (x : W32) : (f.setV r l x).lv = f.lv := rfl
@[simp] theorem setV_trec (f : Firing) (r l : Nat) (x : W32) : (f.setV r l x).trec = f.trec := rfl
@[simp] theorem setV_last (f : Firing) (r l : Nat) (x : W32) : (f.setV r l x).last = f.last := rfl
@[simp] theorem setV_skip (f : Firing) (r l : Nat) (x : W32) : (f.setV r l x).skip = f.skip := rfl
@[simp] theorem setV_rbrk (f : Firing) (r l : Nat) (x : W32) : (f.setV r l x).rbrk = f.rbrk := rfl
@[simp] theorem setV_loss (f : Firing) (r l : Nat) (x : W32) : (f.setV r l x).loss = f.loss := rfl
@[simp] theorem setV_bad (f : Firing) (r l : Nat) (x : W32) : (f.setV r l x).bad = f.bad := rfl
@[simp] theorem setV_mode (f : Firing) (r l : Nat) (x : W32) : (f.setV r l x).mode = f.mode := rfl
@[simp] theorem setV_sfu0 (f : Firing) (r l : Nat) (x : W32) : (f.setV r l x).sfu0 = f.sfu0 := rfl
@[simp] theorem setV_sfu1 (f : Firing) (r l : Nat) (x : W32) : (f.setV r l x).sfu1 = f.sfu1 := rfl
@[simp] theorem setV_sfum (f : Firing) (r l : Nat) (x : W32) : (f.setV r l x).sfum = f.sfum := rfl
@[simp] theorem setV_sfuDisc (f : Firing) (r l : Nat) (x : W32) : (f.setV r l x).sfuDisc = f.sfuDisc := rfl
@[simp] theorem setV_laddr (f : Firing) (r l : Nat) (x : W32) : (f.setV r l x).laddr = f.laddr := rfl
@[simp] theorem setV_lcnt (f : Firing) (r l : Nat) (x : W32) : (f.setV r l x).lcnt = f.lcnt := rfl
@[simp] theorem setV_depth (f : Firing) (r l : Nat) (x : W32) : (f.setV r l x).depth = f.depth := rfl
@[simp] theorem setV_stop (f : Firing) (r l : Nat) (x : W32) : (f.setV r l x).stop = f.stop := rfl
@[simp] theorem setV_deps (f : Firing) (r l : Nat) (x : W32) : (f.setV r l x).deps = f.deps := rfl
@[simp] theorem setV_sq (f : Firing) (r l : Nat) (x : W32) : (f.setV r l x).sq = f.sq := rfl
@[simp] theorem setV_wbq (f : Firing) (r l : Nat) (x : W32) : (f.setV r l x).wbq = f.wbq := rfl
@[simp] theorem setV_xl (f : Firing) (r l : Nat) (x : W32) : (f.setV r l x).xl = f.xl := rfl
@[simp] theorem setV_hold (f : Firing) (r l : Nat) (x : W32) : (f.setV r l x).hold = f.hold := rfl
@[simp] theorem setV_rel (f : Firing) (r l : Nat) (x : W32) : (f.setV r l x).rel = f.rel := rfl
@[simp] theorem setV_relMore (f : Firing) (r l : Nat) (x : W32) : (f.setV r l x).relMore = f.relMore := rfl
@[simp] theorem setV_seq (f : Firing) (r l : Nat) (x : W32) : (f.setV r l x).seq = f.seq := rfl

@[simp] theorem putV_uid (f : Firing) (xs : List (Nat × W32)) : (f.putV xs).uid = f.uid := rfl
@[simp] theorem putV_hid (f : Firing) (xs : List (Nat × W32)) : (f.putV xs).hid = f.hid := rfl
@[simp] theorem putV_wave (f : Firing) (xs : List (Nat × W32)) : (f.putV xs).wave = f.wave := rfl
@[simp] theorem putV_ns (f : Firing) (xs : List (Nat × W32)) : (f.putV xs).ns = f.ns := rfl
@[simp] theorem putV_nv (f : Firing) (xs : List (Nat × W32)) : (f.putV xs).nv = f.nv := rfl
@[simp] theorem putV_plive (f : Firing) (xs : List (Nat × W32)) : (f.putV xs).plive = f.plive := rfl
@[simp] theorem putV_scope (f : Firing) (xs : List (Nat × W32)) : (f.putV xs).scope = f.scope := rfl
@[simp] theorem putV_pri (f : Firing) (xs : List (Nat × W32)) : (f.putV xs).pri = f.pri := rfl
@[simp] theorem putV_boost (f : Firing) (xs : List (Nat × W32)) : (f.putV xs).boost = f.boost := rfl
@[simp] theorem putV_ordered (f : Firing) (xs : List (Nat × W32)) : (f.putV xs).ordered = f.ordered := rfl
@[simp] theorem putV_gsrc (f : Firing) (xs : List (Nat × W32)) : (f.putV xs).gsrc = f.gsrc := rfl
@[simp] theorem putV_wp (f : Firing) (xs : List (Nat × W32)) : (f.putV xs).wp = f.wp := rfl
@[simp] theorem putV_ltag (f : Firing) (xs : List (Nat × W32)) : (f.putV xs).ltag = f.ltag := rfl
@[simp] theorem putV_stamp (f : Firing) (xs : List (Nat × W32)) : (f.putV xs).stamp = f.stamp := rfl
@[simp] theorem putV_taken (f : Firing) (xs : List (Nat × W32)) : (f.putV xs).taken = f.taken := rfl
@[simp] theorem putV_s (f : Firing) (xs : List (Nat × W32)) : (f.putV xs).s = f.s := rfl
@[simp] theorem putV_k (f : Firing) (xs : List (Nat × W32)) : (f.putV xs).k = f.k := rfl
@[simp] theorem putV_q (f : Firing) (xs : List (Nat × W32)) : (f.putV xs).q = f.q := rfl
@[simp] theorem putV_fpst (f : Firing) (xs : List (Nat × W32)) : (f.putV xs).fpst = f.fpst := rfl
@[simp] theorem putV_paths (f : Firing) (xs : List (Nat × W32)) : (f.putV xs).paths = f.paths := rfl
@[simp] theorem putV_cur (f : Firing) (xs : List (Nat × W32)) : (f.putV xs).cur = f.cur := rfl
@[simp] theorem putV_chain (f : Firing) (xs : List (Nat × W32)) : (f.putV xs).chain = f.chain := rfl
@[simp] theorem putV_ls (f : Firing) (xs : List (Nat × W32)) : (f.putV xs).ls = f.ls := rfl
@[simp] theorem putV_lv (f : Firing) (xs : List (Nat × W32)) : (f.putV xs).lv = f.lv := rfl
@[simp] theorem putV_trec (f : Firing) (xs : List (Nat × W32)) : (f.putV xs).trec = f.trec := rfl
@[simp] theorem putV_last (f : Firing) (xs : List (Nat × W32)) : (f.putV xs).last = f.last := rfl
@[simp] theorem putV_skip (f : Firing) (xs : List (Nat × W32)) : (f.putV xs).skip = f.skip := rfl
@[simp] theorem putV_rbrk (f : Firing) (xs : List (Nat × W32)) : (f.putV xs).rbrk = f.rbrk := rfl
@[simp] theorem putV_loss (f : Firing) (xs : List (Nat × W32)) : (f.putV xs).loss = f.loss := rfl
@[simp] theorem putV_bad (f : Firing) (xs : List (Nat × W32)) : (f.putV xs).bad = f.bad := rfl
@[simp] theorem putV_mode (f : Firing) (xs : List (Nat × W32)) : (f.putV xs).mode = f.mode := rfl
@[simp] theorem putV_sfu0 (f : Firing) (xs : List (Nat × W32)) : (f.putV xs).sfu0 = f.sfu0 := rfl
@[simp] theorem putV_sfu1 (f : Firing) (xs : List (Nat × W32)) : (f.putV xs).sfu1 = f.sfu1 := rfl
@[simp] theorem putV_sfum (f : Firing) (xs : List (Nat × W32)) : (f.putV xs).sfum = f.sfum := rfl
@[simp] theorem putV_sfuDisc (f : Firing) (xs : List (Nat × W32)) : (f.putV xs).sfuDisc = f.sfuDisc := rfl
@[simp] theorem putV_laddr (f : Firing) (xs : List (Nat × W32)) : (f.putV xs).laddr = f.laddr := rfl
@[simp] theorem putV_lcnt (f : Firing) (xs : List (Nat × W32)) : (f.putV xs).lcnt = f.lcnt := rfl
@[simp] theorem putV_depth (f : Firing) (xs : List (Nat × W32)) : (f.putV xs).depth = f.depth := rfl
@[simp] theorem putV_stop (f : Firing) (xs : List (Nat × W32)) : (f.putV xs).stop = f.stop := rfl
@[simp] theorem putV_deps (f : Firing) (xs : List (Nat × W32)) : (f.putV xs).deps = f.deps := rfl
@[simp] theorem putV_sq (f : Firing) (xs : List (Nat × W32)) : (f.putV xs).sq = f.sq := rfl
@[simp] theorem putV_wbq (f : Firing) (xs : List (Nat × W32)) : (f.putV xs).wbq = f.wbq := rfl
@[simp] theorem putV_xl (f : Firing) (xs : List (Nat × W32)) : (f.putV xs).xl = f.xl := rfl
@[simp] theorem putV_hold (f : Firing) (xs : List (Nat × W32)) : (f.putV xs).hold = f.hold := rfl
@[simp] theorem putV_rel (f : Firing) (xs : List (Nat × W32)) : (f.putV xs).rel = f.rel := rfl
@[simp] theorem putV_relMore (f : Firing) (xs : List (Nat × W32)) : (f.putV xs).relMore = f.relMore := rfl
@[simp] theorem putV_seq (f : Firing) (xs : List (Nat × W32)) : (f.putV xs).seq = f.seq := rfl

@[simp] theorem setK_uid (f : Firing) (i : Nat) (b : Bool) : (f.setK i b).uid = f.uid := by unfold Firing.setK; split <;> rfl
@[simp] theorem setK_hid (f : Firing) (i : Nat) (b : Bool) : (f.setK i b).hid = f.hid := by unfold Firing.setK; split <;> rfl
@[simp] theorem setK_wave (f : Firing) (i : Nat) (b : Bool) : (f.setK i b).wave = f.wave := by unfold Firing.setK; split <;> rfl
@[simp] theorem setK_ns (f : Firing) (i : Nat) (b : Bool) : (f.setK i b).ns = f.ns := by unfold Firing.setK; split <;> rfl
@[simp] theorem setK_nv (f : Firing) (i : Nat) (b : Bool) : (f.setK i b).nv = f.nv := by unfold Firing.setK; split <;> rfl
@[simp] theorem setK_plive (f : Firing) (i : Nat) (b : Bool) : (f.setK i b).plive = f.plive := by unfold Firing.setK; split <;> rfl
@[simp] theorem setK_scope (f : Firing) (i : Nat) (b : Bool) : (f.setK i b).scope = f.scope := by unfold Firing.setK; split <;> rfl
@[simp] theorem setK_pri (f : Firing) (i : Nat) (b : Bool) : (f.setK i b).pri = f.pri := by unfold Firing.setK; split <;> rfl
@[simp] theorem setK_boost (f : Firing) (i : Nat) (b : Bool) : (f.setK i b).boost = f.boost := by unfold Firing.setK; split <;> rfl
@[simp] theorem setK_ordered (f : Firing) (i : Nat) (b : Bool) : (f.setK i b).ordered = f.ordered := by unfold Firing.setK; split <;> rfl
@[simp] theorem setK_gsrc (f : Firing) (i : Nat) (b : Bool) : (f.setK i b).gsrc = f.gsrc := by unfold Firing.setK; split <;> rfl
@[simp] theorem setK_wp (f : Firing) (i : Nat) (b : Bool) : (f.setK i b).wp = f.wp := by unfold Firing.setK; split <;> rfl
@[simp] theorem setK_ltag (f : Firing) (i : Nat) (b : Bool) : (f.setK i b).ltag = f.ltag := by unfold Firing.setK; split <;> rfl
@[simp] theorem setK_stamp (f : Firing) (i : Nat) (b : Bool) : (f.setK i b).stamp = f.stamp := by unfold Firing.setK; split <;> rfl
@[simp] theorem setK_taken (f : Firing) (i : Nat) (b : Bool) : (f.setK i b).taken = f.taken := by unfold Firing.setK; split <;> rfl
@[simp] theorem setK_s (f : Firing) (i : Nat) (b : Bool) : (f.setK i b).s = f.s := by unfold Firing.setK; split <;> rfl
@[simp] theorem setK_v (f : Firing) (i : Nat) (b : Bool) : (f.setK i b).v = f.v := by unfold Firing.setK; split <;> rfl
@[simp] theorem setK_q (f : Firing) (i : Nat) (b : Bool) : (f.setK i b).q = f.q := by unfold Firing.setK; split <;> rfl
@[simp] theorem setK_fpst (f : Firing) (i : Nat) (b : Bool) : (f.setK i b).fpst = f.fpst := by unfold Firing.setK; split <;> rfl
@[simp] theorem setK_paths (f : Firing) (i : Nat) (b : Bool) : (f.setK i b).paths = f.paths := by unfold Firing.setK; split <;> rfl
@[simp] theorem setK_cur (f : Firing) (i : Nat) (b : Bool) : (f.setK i b).cur = f.cur := by unfold Firing.setK; split <;> rfl
@[simp] theorem setK_chain (f : Firing) (i : Nat) (b : Bool) : (f.setK i b).chain = f.chain := by unfold Firing.setK; split <;> rfl
@[simp] theorem setK_ls (f : Firing) (i : Nat) (b : Bool) : (f.setK i b).ls = f.ls := by unfold Firing.setK; split <;> rfl
@[simp] theorem setK_lv (f : Firing) (i : Nat) (b : Bool) : (f.setK i b).lv = f.lv := by unfold Firing.setK; split <;> rfl
@[simp] theorem setK_trec (f : Firing) (i : Nat) (b : Bool) : (f.setK i b).trec = f.trec := by unfold Firing.setK; split <;> rfl
@[simp] theorem setK_last (f : Firing) (i : Nat) (b : Bool) : (f.setK i b).last = f.last := by unfold Firing.setK; split <;> rfl
@[simp] theorem setK_skip (f : Firing) (i : Nat) (b : Bool) : (f.setK i b).skip = f.skip := by unfold Firing.setK; split <;> rfl
@[simp] theorem setK_rbrk (f : Firing) (i : Nat) (b : Bool) : (f.setK i b).rbrk = f.rbrk := by unfold Firing.setK; split <;> rfl
@[simp] theorem setK_loss (f : Firing) (i : Nat) (b : Bool) : (f.setK i b).loss = f.loss := by unfold Firing.setK; split <;> rfl
@[simp] theorem setK_bad (f : Firing) (i : Nat) (b : Bool) : (f.setK i b).bad = f.bad := by unfold Firing.setK; split <;> rfl
@[simp] theorem setK_mode (f : Firing) (i : Nat) (b : Bool) : (f.setK i b).mode = f.mode := by unfold Firing.setK; split <;> rfl
@[simp] theorem setK_sfu0 (f : Firing) (i : Nat) (b : Bool) : (f.setK i b).sfu0 = f.sfu0 := by unfold Firing.setK; split <;> rfl
@[simp] theorem setK_sfu1 (f : Firing) (i : Nat) (b : Bool) : (f.setK i b).sfu1 = f.sfu1 := by unfold Firing.setK; split <;> rfl
@[simp] theorem setK_sfum (f : Firing) (i : Nat) (b : Bool) : (f.setK i b).sfum = f.sfum := by unfold Firing.setK; split <;> rfl
@[simp] theorem setK_sfuDisc (f : Firing) (i : Nat) (b : Bool) : (f.setK i b).sfuDisc = f.sfuDisc := by unfold Firing.setK; split <;> rfl
@[simp] theorem setK_laddr (f : Firing) (i : Nat) (b : Bool) : (f.setK i b).laddr = f.laddr := by unfold Firing.setK; split <;> rfl
@[simp] theorem setK_lcnt (f : Firing) (i : Nat) (b : Bool) : (f.setK i b).lcnt = f.lcnt := by unfold Firing.setK; split <;> rfl
@[simp] theorem setK_depth (f : Firing) (i : Nat) (b : Bool) : (f.setK i b).depth = f.depth := by unfold Firing.setK; split <;> rfl
@[simp] theorem setK_stop (f : Firing) (i : Nat) (b : Bool) : (f.setK i b).stop = f.stop := by unfold Firing.setK; split <;> rfl
@[simp] theorem setK_deps (f : Firing) (i : Nat) (b : Bool) : (f.setK i b).deps = f.deps := by unfold Firing.setK; split <;> rfl
@[simp] theorem setK_sq (f : Firing) (i : Nat) (b : Bool) : (f.setK i b).sq = f.sq := by unfold Firing.setK; split <;> rfl
@[simp] theorem setK_wbq (f : Firing) (i : Nat) (b : Bool) : (f.setK i b).wbq = f.wbq := by unfold Firing.setK; split <;> rfl
@[simp] theorem setK_xl (f : Firing) (i : Nat) (b : Bool) : (f.setK i b).xl = f.xl := by unfold Firing.setK; split <;> rfl
@[simp] theorem setK_hold (f : Firing) (i : Nat) (b : Bool) : (f.setK i b).hold = f.hold := by unfold Firing.setK; split <;> rfl
@[simp] theorem setK_rel (f : Firing) (i : Nat) (b : Bool) : (f.setK i b).rel = f.rel := by unfold Firing.setK; split <;> rfl
@[simp] theorem setK_relMore (f : Firing) (i : Nat) (b : Bool) : (f.setK i b).relMore = f.relMore := by unfold Firing.setK; split <;> rfl
@[simp] theorem setK_seq (f : Firing) (i : Nat) (b : Bool) : (f.setK i b).seq = f.seq := by unfold Firing.setK; split <;> rfl

@[simp] theorem setQ_uid (f : Firing) (i : Nat) (x : W32) : (f.setQ i x).uid = f.uid := by unfold Firing.setQ; split <;> rfl
@[simp] theorem setQ_hid (f : Firing) (i : Nat) (x : W32) : (f.setQ i x).hid = f.hid := by unfold Firing.setQ; split <;> rfl
@[simp] theorem setQ_wave (f : Firing) (i : Nat) (x : W32) : (f.setQ i x).wave = f.wave := by unfold Firing.setQ; split <;> rfl
@[simp] theorem setQ_ns (f : Firing) (i : Nat) (x : W32) : (f.setQ i x).ns = f.ns := by unfold Firing.setQ; split <;> rfl
@[simp] theorem setQ_nv (f : Firing) (i : Nat) (x : W32) : (f.setQ i x).nv = f.nv := by unfold Firing.setQ; split <;> rfl
@[simp] theorem setQ_plive (f : Firing) (i : Nat) (x : W32) : (f.setQ i x).plive = f.plive := by unfold Firing.setQ; split <;> rfl
@[simp] theorem setQ_scope (f : Firing) (i : Nat) (x : W32) : (f.setQ i x).scope = f.scope := by unfold Firing.setQ; split <;> rfl
@[simp] theorem setQ_pri (f : Firing) (i : Nat) (x : W32) : (f.setQ i x).pri = f.pri := by unfold Firing.setQ; split <;> rfl
@[simp] theorem setQ_boost (f : Firing) (i : Nat) (x : W32) : (f.setQ i x).boost = f.boost := by unfold Firing.setQ; split <;> rfl
@[simp] theorem setQ_ordered (f : Firing) (i : Nat) (x : W32) : (f.setQ i x).ordered = f.ordered := by unfold Firing.setQ; split <;> rfl
@[simp] theorem setQ_gsrc (f : Firing) (i : Nat) (x : W32) : (f.setQ i x).gsrc = f.gsrc := by unfold Firing.setQ; split <;> rfl
@[simp] theorem setQ_wp (f : Firing) (i : Nat) (x : W32) : (f.setQ i x).wp = f.wp := by unfold Firing.setQ; split <;> rfl
@[simp] theorem setQ_ltag (f : Firing) (i : Nat) (x : W32) : (f.setQ i x).ltag = f.ltag := by unfold Firing.setQ; split <;> rfl
@[simp] theorem setQ_stamp (f : Firing) (i : Nat) (x : W32) : (f.setQ i x).stamp = f.stamp := by unfold Firing.setQ; split <;> rfl
@[simp] theorem setQ_taken (f : Firing) (i : Nat) (x : W32) : (f.setQ i x).taken = f.taken := by unfold Firing.setQ; split <;> rfl
@[simp] theorem setQ_s (f : Firing) (i : Nat) (x : W32) : (f.setQ i x).s = f.s := by unfold Firing.setQ; split <;> rfl
@[simp] theorem setQ_v (f : Firing) (i : Nat) (x : W32) : (f.setQ i x).v = f.v := by unfold Firing.setQ; split <;> rfl
@[simp] theorem setQ_k (f : Firing) (i : Nat) (x : W32) : (f.setQ i x).k = f.k := by unfold Firing.setQ; split <;> rfl
@[simp] theorem setQ_fpst (f : Firing) (i : Nat) (x : W32) : (f.setQ i x).fpst = f.fpst := by unfold Firing.setQ; split <;> rfl
@[simp] theorem setQ_paths (f : Firing) (i : Nat) (x : W32) : (f.setQ i x).paths = f.paths := by unfold Firing.setQ; split <;> rfl
@[simp] theorem setQ_cur (f : Firing) (i : Nat) (x : W32) : (f.setQ i x).cur = f.cur := by unfold Firing.setQ; split <;> rfl
@[simp] theorem setQ_chain (f : Firing) (i : Nat) (x : W32) : (f.setQ i x).chain = f.chain := by unfold Firing.setQ; split <;> rfl
@[simp] theorem setQ_ls (f : Firing) (i : Nat) (x : W32) : (f.setQ i x).ls = f.ls := by unfold Firing.setQ; split <;> rfl
@[simp] theorem setQ_lv (f : Firing) (i : Nat) (x : W32) : (f.setQ i x).lv = f.lv := by unfold Firing.setQ; split <;> rfl
@[simp] theorem setQ_trec (f : Firing) (i : Nat) (x : W32) : (f.setQ i x).trec = f.trec := by unfold Firing.setQ; split <;> rfl
@[simp] theorem setQ_last (f : Firing) (i : Nat) (x : W32) : (f.setQ i x).last = f.last := by unfold Firing.setQ; split <;> rfl
@[simp] theorem setQ_skip (f : Firing) (i : Nat) (x : W32) : (f.setQ i x).skip = f.skip := by unfold Firing.setQ; split <;> rfl
@[simp] theorem setQ_rbrk (f : Firing) (i : Nat) (x : W32) : (f.setQ i x).rbrk = f.rbrk := by unfold Firing.setQ; split <;> rfl
@[simp] theorem setQ_loss (f : Firing) (i : Nat) (x : W32) : (f.setQ i x).loss = f.loss := by unfold Firing.setQ; split <;> rfl
@[simp] theorem setQ_bad (f : Firing) (i : Nat) (x : W32) : (f.setQ i x).bad = f.bad := by unfold Firing.setQ; split <;> rfl
@[simp] theorem setQ_mode (f : Firing) (i : Nat) (x : W32) : (f.setQ i x).mode = f.mode := by unfold Firing.setQ; split <;> rfl
@[simp] theorem setQ_sfu0 (f : Firing) (i : Nat) (x : W32) : (f.setQ i x).sfu0 = f.sfu0 := by unfold Firing.setQ; split <;> rfl
@[simp] theorem setQ_sfu1 (f : Firing) (i : Nat) (x : W32) : (f.setQ i x).sfu1 = f.sfu1 := by unfold Firing.setQ; split <;> rfl
@[simp] theorem setQ_sfum (f : Firing) (i : Nat) (x : W32) : (f.setQ i x).sfum = f.sfum := by unfold Firing.setQ; split <;> rfl
@[simp] theorem setQ_sfuDisc (f : Firing) (i : Nat) (x : W32) : (f.setQ i x).sfuDisc = f.sfuDisc := by unfold Firing.setQ; split <;> rfl
@[simp] theorem setQ_laddr (f : Firing) (i : Nat) (x : W32) : (f.setQ i x).laddr = f.laddr := by unfold Firing.setQ; split <;> rfl
@[simp] theorem setQ_lcnt (f : Firing) (i : Nat) (x : W32) : (f.setQ i x).lcnt = f.lcnt := by unfold Firing.setQ; split <;> rfl
@[simp] theorem setQ_depth (f : Firing) (i : Nat) (x : W32) : (f.setQ i x).depth = f.depth := by unfold Firing.setQ; split <;> rfl
@[simp] theorem setQ_stop (f : Firing) (i : Nat) (x : W32) : (f.setQ i x).stop = f.stop := by unfold Firing.setQ; split <;> rfl
@[simp] theorem setQ_deps (f : Firing) (i : Nat) (x : W32) : (f.setQ i x).deps = f.deps := by unfold Firing.setQ; split <;> rfl
@[simp] theorem setQ_sq (f : Firing) (i : Nat) (x : W32) : (f.setQ i x).sq = f.sq := by unfold Firing.setQ; split <;> rfl
@[simp] theorem setQ_wbq (f : Firing) (i : Nat) (x : W32) : (f.setQ i x).wbq = f.wbq := by unfold Firing.setQ; split <;> rfl
@[simp] theorem setQ_xl (f : Firing) (i : Nat) (x : W32) : (f.setQ i x).xl = f.xl := by unfold Firing.setQ; split <;> rfl
@[simp] theorem setQ_hold (f : Firing) (i : Nat) (x : W32) : (f.setQ i x).hold = f.hold := by unfold Firing.setQ; split <;> rfl
@[simp] theorem setQ_rel (f : Firing) (i : Nat) (x : W32) : (f.setQ i x).rel = f.rel := by unfold Firing.setQ; split <;> rfl
@[simp] theorem setQ_relMore (f : Firing) (i : Nat) (x : W32) : (f.setQ i x).relMore = f.relMore := by unfold Firing.setQ; split <;> rfl
@[simp] theorem setQ_seq (f : Firing) (i : Nat) (x : W32) : (f.setQ i x).seq = f.seq := by unfold Firing.setQ; split <;> rfl

@[simp] theorem setPath_uid (f : Firing) (i : Nat) (p : PathE) : (f.setPath i p).uid = f.uid := rfl
@[simp] theorem setPath_hid (f : Firing) (i : Nat) (p : PathE) : (f.setPath i p).hid = f.hid := rfl
@[simp] theorem setPath_wave (f : Firing) (i : Nat) (p : PathE) : (f.setPath i p).wave = f.wave := rfl
@[simp] theorem setPath_ns (f : Firing) (i : Nat) (p : PathE) : (f.setPath i p).ns = f.ns := rfl
@[simp] theorem setPath_nv (f : Firing) (i : Nat) (p : PathE) : (f.setPath i p).nv = f.nv := rfl
@[simp] theorem setPath_plive (f : Firing) (i : Nat) (p : PathE) : (f.setPath i p).plive = f.plive := rfl
@[simp] theorem setPath_scope (f : Firing) (i : Nat) (p : PathE) : (f.setPath i p).scope = f.scope := rfl
@[simp] theorem setPath_pri (f : Firing) (i : Nat) (p : PathE) : (f.setPath i p).pri = f.pri := rfl
@[simp] theorem setPath_boost (f : Firing) (i : Nat) (p : PathE) : (f.setPath i p).boost = f.boost := rfl
@[simp] theorem setPath_ordered (f : Firing) (i : Nat) (p : PathE) : (f.setPath i p).ordered = f.ordered := rfl
@[simp] theorem setPath_gsrc (f : Firing) (i : Nat) (p : PathE) : (f.setPath i p).gsrc = f.gsrc := rfl
@[simp] theorem setPath_wp (f : Firing) (i : Nat) (p : PathE) : (f.setPath i p).wp = f.wp := rfl
@[simp] theorem setPath_ltag (f : Firing) (i : Nat) (p : PathE) : (f.setPath i p).ltag = f.ltag := rfl
@[simp] theorem setPath_stamp (f : Firing) (i : Nat) (p : PathE) : (f.setPath i p).stamp = f.stamp := rfl
@[simp] theorem setPath_taken (f : Firing) (i : Nat) (p : PathE) : (f.setPath i p).taken = f.taken := rfl
@[simp] theorem setPath_s (f : Firing) (i : Nat) (p : PathE) : (f.setPath i p).s = f.s := rfl
@[simp] theorem setPath_v (f : Firing) (i : Nat) (p : PathE) : (f.setPath i p).v = f.v := rfl
@[simp] theorem setPath_k (f : Firing) (i : Nat) (p : PathE) : (f.setPath i p).k = f.k := rfl
@[simp] theorem setPath_q (f : Firing) (i : Nat) (p : PathE) : (f.setPath i p).q = f.q := rfl
@[simp] theorem setPath_fpst (f : Firing) (i : Nat) (p : PathE) : (f.setPath i p).fpst = f.fpst := rfl
@[simp] theorem setPath_cur (f : Firing) (i : Nat) (p : PathE) : (f.setPath i p).cur = f.cur := rfl
@[simp] theorem setPath_chain (f : Firing) (i : Nat) (p : PathE) : (f.setPath i p).chain = f.chain := rfl
@[simp] theorem setPath_ls (f : Firing) (i : Nat) (p : PathE) : (f.setPath i p).ls = f.ls := rfl
@[simp] theorem setPath_lv (f : Firing) (i : Nat) (p : PathE) : (f.setPath i p).lv = f.lv := rfl
@[simp] theorem setPath_trec (f : Firing) (i : Nat) (p : PathE) : (f.setPath i p).trec = f.trec := rfl
@[simp] theorem setPath_last (f : Firing) (i : Nat) (p : PathE) : (f.setPath i p).last = f.last := rfl
@[simp] theorem setPath_skip (f : Firing) (i : Nat) (p : PathE) : (f.setPath i p).skip = f.skip := rfl
@[simp] theorem setPath_rbrk (f : Firing) (i : Nat) (p : PathE) : (f.setPath i p).rbrk = f.rbrk := rfl
@[simp] theorem setPath_loss (f : Firing) (i : Nat) (p : PathE) : (f.setPath i p).loss = f.loss := rfl
@[simp] theorem setPath_bad (f : Firing) (i : Nat) (p : PathE) : (f.setPath i p).bad = f.bad := rfl
@[simp] theorem setPath_mode (f : Firing) (i : Nat) (p : PathE) : (f.setPath i p).mode = f.mode := rfl
@[simp] theorem setPath_sfu0 (f : Firing) (i : Nat) (p : PathE) : (f.setPath i p).sfu0 = f.sfu0 := rfl
@[simp] theorem setPath_sfu1 (f : Firing) (i : Nat) (p : PathE) : (f.setPath i p).sfu1 = f.sfu1 := rfl
@[simp] theorem setPath_sfum (f : Firing) (i : Nat) (p : PathE) : (f.setPath i p).sfum = f.sfum := rfl
@[simp] theorem setPath_sfuDisc (f : Firing) (i : Nat) (p : PathE) : (f.setPath i p).sfuDisc = f.sfuDisc := rfl
@[simp] theorem setPath_laddr (f : Firing) (i : Nat) (p : PathE) : (f.setPath i p).laddr = f.laddr := rfl
@[simp] theorem setPath_lcnt (f : Firing) (i : Nat) (p : PathE) : (f.setPath i p).lcnt = f.lcnt := rfl
@[simp] theorem setPath_depth (f : Firing) (i : Nat) (p : PathE) : (f.setPath i p).depth = f.depth := rfl
@[simp] theorem setPath_stop (f : Firing) (i : Nat) (p : PathE) : (f.setPath i p).stop = f.stop := rfl
@[simp] theorem setPath_deps (f : Firing) (i : Nat) (p : PathE) : (f.setPath i p).deps = f.deps := rfl
@[simp] theorem setPath_sq (f : Firing) (i : Nat) (p : PathE) : (f.setPath i p).sq = f.sq := rfl
@[simp] theorem setPath_wbq (f : Firing) (i : Nat) (p : PathE) : (f.setPath i p).wbq = f.wbq := rfl
@[simp] theorem setPath_xl (f : Firing) (i : Nat) (p : PathE) : (f.setPath i p).xl = f.xl := rfl
@[simp] theorem setPath_hold (f : Firing) (i : Nat) (p : PathE) : (f.setPath i p).hold = f.hold := rfl
@[simp] theorem setPath_rel (f : Firing) (i : Nat) (p : PathE) : (f.setPath i p).rel = f.rel := rfl
@[simp] theorem setPath_relMore (f : Firing) (i : Nat) (p : PathE) : (f.setPath i p).relMore = f.relMore := rfl
@[simp] theorem setPath_seq (f : Firing) (i : Nat) (p : PathE) : (f.setPath i p).seq = f.seq := rfl

@[simp] theorem setPc_uid (f : Firing) (x : W64) : (f.setPc x).uid = f.uid := rfl
@[simp] theorem setPc_hid (f : Firing) (x : W64) : (f.setPc x).hid = f.hid := rfl
@[simp] theorem setPc_wave (f : Firing) (x : W64) : (f.setPc x).wave = f.wave := rfl
@[simp] theorem setPc_ns (f : Firing) (x : W64) : (f.setPc x).ns = f.ns := rfl
@[simp] theorem setPc_nv (f : Firing) (x : W64) : (f.setPc x).nv = f.nv := rfl
@[simp] theorem setPc_plive (f : Firing) (x : W64) : (f.setPc x).plive = f.plive := rfl
@[simp] theorem setPc_scope (f : Firing) (x : W64) : (f.setPc x).scope = f.scope := rfl
@[simp] theorem setPc_pri (f : Firing) (x : W64) : (f.setPc x).pri = f.pri := rfl
@[simp] theorem setPc_boost (f : Firing) (x : W64) : (f.setPc x).boost = f.boost := rfl
@[simp] theorem setPc_ordered (f : Firing) (x : W64) : (f.setPc x).ordered = f.ordered := rfl
@[simp] theorem setPc_gsrc (f : Firing) (x : W64) : (f.setPc x).gsrc = f.gsrc := rfl
@[simp] theorem setPc_wp (f : Firing) (x : W64) : (f.setPc x).wp = f.wp := rfl
@[simp] theorem setPc_ltag (f : Firing) (x : W64) : (f.setPc x).ltag = f.ltag := rfl
@[simp] theorem setPc_stamp (f : Firing) (x : W64) : (f.setPc x).stamp = f.stamp := rfl
@[simp] theorem setPc_taken (f : Firing) (x : W64) : (f.setPc x).taken = f.taken := rfl
@[simp] theorem setPc_s (f : Firing) (x : W64) : (f.setPc x).s = f.s := rfl
@[simp] theorem setPc_v (f : Firing) (x : W64) : (f.setPc x).v = f.v := rfl
@[simp] theorem setPc_k (f : Firing) (x : W64) : (f.setPc x).k = f.k := rfl
@[simp] theorem setPc_q (f : Firing) (x : W64) : (f.setPc x).q = f.q := rfl
@[simp] theorem setPc_fpst (f : Firing) (x : W64) : (f.setPc x).fpst = f.fpst := rfl
@[simp] theorem setPc_cur (f : Firing) (x : W64) : (f.setPc x).cur = f.cur := rfl
@[simp] theorem setPc_chain (f : Firing) (x : W64) : (f.setPc x).chain = f.chain := rfl
@[simp] theorem setPc_ls (f : Firing) (x : W64) : (f.setPc x).ls = f.ls := rfl
@[simp] theorem setPc_lv (f : Firing) (x : W64) : (f.setPc x).lv = f.lv := rfl
@[simp] theorem setPc_trec (f : Firing) (x : W64) : (f.setPc x).trec = f.trec := rfl
@[simp] theorem setPc_last (f : Firing) (x : W64) : (f.setPc x).last = f.last := rfl
@[simp] theorem setPc_skip (f : Firing) (x : W64) : (f.setPc x).skip = f.skip := rfl
@[simp] theorem setPc_rbrk (f : Firing) (x : W64) : (f.setPc x).rbrk = f.rbrk := rfl
@[simp] theorem setPc_loss (f : Firing) (x : W64) : (f.setPc x).loss = f.loss := rfl
@[simp] theorem setPc_bad (f : Firing) (x : W64) : (f.setPc x).bad = f.bad := rfl
@[simp] theorem setPc_mode (f : Firing) (x : W64) : (f.setPc x).mode = f.mode := rfl
@[simp] theorem setPc_sfu0 (f : Firing) (x : W64) : (f.setPc x).sfu0 = f.sfu0 := rfl
@[simp] theorem setPc_sfu1 (f : Firing) (x : W64) : (f.setPc x).sfu1 = f.sfu1 := rfl
@[simp] theorem setPc_sfum (f : Firing) (x : W64) : (f.setPc x).sfum = f.sfum := rfl
@[simp] theorem setPc_sfuDisc (f : Firing) (x : W64) : (f.setPc x).sfuDisc = f.sfuDisc := rfl
@[simp] theorem setPc_laddr (f : Firing) (x : W64) : (f.setPc x).laddr = f.laddr := rfl
@[simp] theorem setPc_lcnt (f : Firing) (x : W64) : (f.setPc x).lcnt = f.lcnt := rfl
@[simp] theorem setPc_depth (f : Firing) (x : W64) : (f.setPc x).depth = f.depth := rfl
@[simp] theorem setPc_stop (f : Firing) (x : W64) : (f.setPc x).stop = f.stop := rfl
@[simp] theorem setPc_deps (f : Firing) (x : W64) : (f.setPc x).deps = f.deps := rfl
@[simp] theorem setPc_sq (f : Firing) (x : W64) : (f.setPc x).sq = f.sq := rfl
@[simp] theorem setPc_wbq (f : Firing) (x : W64) : (f.setPc x).wbq = f.wbq := rfl
@[simp] theorem setPc_xl (f : Firing) (x : W64) : (f.setPc x).xl = f.xl := rfl
@[simp] theorem setPc_hold (f : Firing) (x : W64) : (f.setPc x).hold = f.hold := rfl
@[simp] theorem setPc_rel (f : Firing) (x : W64) : (f.setPc x).rel = f.rel := rfl
@[simp] theorem setPc_relMore (f : Firing) (x : W64) : (f.setPc x).relMore = f.relMore := rfl
@[simp] theorem setPc_seq (f : Firing) (x : W64) : (f.setPc x).seq = f.seq := rfl

@[simp] theorem orFlags_uid (f : Firing) (fl : BitVec 6) : (f.orFlags fl).uid = f.uid := rfl
@[simp] theorem orFlags_hid (f : Firing) (fl : BitVec 6) : (f.orFlags fl).hid = f.hid := rfl
@[simp] theorem orFlags_wave (f : Firing) (fl : BitVec 6) : (f.orFlags fl).wave = f.wave := rfl
@[simp] theorem orFlags_ns (f : Firing) (fl : BitVec 6) : (f.orFlags fl).ns = f.ns := rfl
@[simp] theorem orFlags_nv (f : Firing) (fl : BitVec 6) : (f.orFlags fl).nv = f.nv := rfl
@[simp] theorem orFlags_plive (f : Firing) (fl : BitVec 6) : (f.orFlags fl).plive = f.plive := rfl
@[simp] theorem orFlags_scope (f : Firing) (fl : BitVec 6) : (f.orFlags fl).scope = f.scope := rfl
@[simp] theorem orFlags_pri (f : Firing) (fl : BitVec 6) : (f.orFlags fl).pri = f.pri := rfl
@[simp] theorem orFlags_boost (f : Firing) (fl : BitVec 6) : (f.orFlags fl).boost = f.boost := rfl
@[simp] theorem orFlags_ordered (f : Firing) (fl : BitVec 6) : (f.orFlags fl).ordered = f.ordered := rfl
@[simp] theorem orFlags_gsrc (f : Firing) (fl : BitVec 6) : (f.orFlags fl).gsrc = f.gsrc := rfl
@[simp] theorem orFlags_wp (f : Firing) (fl : BitVec 6) : (f.orFlags fl).wp = f.wp := rfl
@[simp] theorem orFlags_ltag (f : Firing) (fl : BitVec 6) : (f.orFlags fl).ltag = f.ltag := rfl
@[simp] theorem orFlags_stamp (f : Firing) (fl : BitVec 6) : (f.orFlags fl).stamp = f.stamp := rfl
@[simp] theorem orFlags_taken (f : Firing) (fl : BitVec 6) : (f.orFlags fl).taken = f.taken := rfl
@[simp] theorem orFlags_s (f : Firing) (fl : BitVec 6) : (f.orFlags fl).s = f.s := rfl
@[simp] theorem orFlags_v (f : Firing) (fl : BitVec 6) : (f.orFlags fl).v = f.v := rfl
@[simp] theorem orFlags_k (f : Firing) (fl : BitVec 6) : (f.orFlags fl).k = f.k := rfl
@[simp] theorem orFlags_q (f : Firing) (fl : BitVec 6) : (f.orFlags fl).q = f.q := rfl
@[simp] theorem orFlags_paths (f : Firing) (fl : BitVec 6) : (f.orFlags fl).paths = f.paths := rfl
@[simp] theorem orFlags_cur (f : Firing) (fl : BitVec 6) : (f.orFlags fl).cur = f.cur := rfl
@[simp] theorem orFlags_chain (f : Firing) (fl : BitVec 6) : (f.orFlags fl).chain = f.chain := rfl
@[simp] theorem orFlags_ls (f : Firing) (fl : BitVec 6) : (f.orFlags fl).ls = f.ls := rfl
@[simp] theorem orFlags_lv (f : Firing) (fl : BitVec 6) : (f.orFlags fl).lv = f.lv := rfl
@[simp] theorem orFlags_trec (f : Firing) (fl : BitVec 6) : (f.orFlags fl).trec = f.trec := rfl
@[simp] theorem orFlags_last (f : Firing) (fl : BitVec 6) : (f.orFlags fl).last = f.last := rfl
@[simp] theorem orFlags_skip (f : Firing) (fl : BitVec 6) : (f.orFlags fl).skip = f.skip := rfl
@[simp] theorem orFlags_rbrk (f : Firing) (fl : BitVec 6) : (f.orFlags fl).rbrk = f.rbrk := rfl
@[simp] theorem orFlags_loss (f : Firing) (fl : BitVec 6) : (f.orFlags fl).loss = f.loss := rfl
@[simp] theorem orFlags_bad (f : Firing) (fl : BitVec 6) : (f.orFlags fl).bad = f.bad := rfl
@[simp] theorem orFlags_mode (f : Firing) (fl : BitVec 6) : (f.orFlags fl).mode = f.mode := rfl
@[simp] theorem orFlags_sfu0 (f : Firing) (fl : BitVec 6) : (f.orFlags fl).sfu0 = f.sfu0 := rfl
@[simp] theorem orFlags_sfu1 (f : Firing) (fl : BitVec 6) : (f.orFlags fl).sfu1 = f.sfu1 := rfl
@[simp] theorem orFlags_sfum (f : Firing) (fl : BitVec 6) : (f.orFlags fl).sfum = f.sfum := rfl
@[simp] theorem orFlags_sfuDisc (f : Firing) (fl : BitVec 6) : (f.orFlags fl).sfuDisc = f.sfuDisc := rfl
@[simp] theorem orFlags_laddr (f : Firing) (fl : BitVec 6) : (f.orFlags fl).laddr = f.laddr := rfl
@[simp] theorem orFlags_lcnt (f : Firing) (fl : BitVec 6) : (f.orFlags fl).lcnt = f.lcnt := rfl
@[simp] theorem orFlags_depth (f : Firing) (fl : BitVec 6) : (f.orFlags fl).depth = f.depth := rfl
@[simp] theorem orFlags_stop (f : Firing) (fl : BitVec 6) : (f.orFlags fl).stop = f.stop := rfl
@[simp] theorem orFlags_deps (f : Firing) (fl : BitVec 6) : (f.orFlags fl).deps = f.deps := rfl
@[simp] theorem orFlags_sq (f : Firing) (fl : BitVec 6) : (f.orFlags fl).sq = f.sq := rfl
@[simp] theorem orFlags_wbq (f : Firing) (fl : BitVec 6) : (f.orFlags fl).wbq = f.wbq := rfl
@[simp] theorem orFlags_xl (f : Firing) (fl : BitVec 6) : (f.orFlags fl).xl = f.xl := rfl
@[simp] theorem orFlags_hold (f : Firing) (fl : BitVec 6) : (f.orFlags fl).hold = f.hold := rfl
@[simp] theorem orFlags_rel (f : Firing) (fl : BitVec 6) : (f.orFlags fl).rel = f.rel := rfl
@[simp] theorem orFlags_relMore (f : Firing) (fl : BitVec 6) : (f.orFlags fl).relMore = f.relMore := rfl
@[simp] theorem orFlags_seq (f : Firing) (fl : BitVec 6) : (f.orFlags fl).seq = f.seq := rfl

@[simp] theorem pushLatch_uid (f : Firing) (lane : Bool) (r : LatchRes) : (f.pushLatch lane r).uid = f.uid := rfl
@[simp] theorem pushLatch_hid (f : Firing) (lane : Bool) (r : LatchRes) : (f.pushLatch lane r).hid = f.hid := rfl
@[simp] theorem pushLatch_wave (f : Firing) (lane : Bool) (r : LatchRes) : (f.pushLatch lane r).wave = f.wave := rfl
@[simp] theorem pushLatch_ns (f : Firing) (lane : Bool) (r : LatchRes) : (f.pushLatch lane r).ns = f.ns := rfl
@[simp] theorem pushLatch_nv (f : Firing) (lane : Bool) (r : LatchRes) : (f.pushLatch lane r).nv = f.nv := rfl
@[simp] theorem pushLatch_plive (f : Firing) (lane : Bool) (r : LatchRes) : (f.pushLatch lane r).plive = f.plive := rfl
@[simp] theorem pushLatch_scope (f : Firing) (lane : Bool) (r : LatchRes) : (f.pushLatch lane r).scope = f.scope := rfl
@[simp] theorem pushLatch_pri (f : Firing) (lane : Bool) (r : LatchRes) : (f.pushLatch lane r).pri = f.pri := rfl
@[simp] theorem pushLatch_boost (f : Firing) (lane : Bool) (r : LatchRes) : (f.pushLatch lane r).boost = f.boost := rfl
@[simp] theorem pushLatch_ordered (f : Firing) (lane : Bool) (r : LatchRes) : (f.pushLatch lane r).ordered = f.ordered := rfl
@[simp] theorem pushLatch_gsrc (f : Firing) (lane : Bool) (r : LatchRes) : (f.pushLatch lane r).gsrc = f.gsrc := rfl
@[simp] theorem pushLatch_wp (f : Firing) (lane : Bool) (r : LatchRes) : (f.pushLatch lane r).wp = f.wp := rfl
@[simp] theorem pushLatch_ltag (f : Firing) (lane : Bool) (r : LatchRes) : (f.pushLatch lane r).ltag = f.ltag := rfl
@[simp] theorem pushLatch_stamp (f : Firing) (lane : Bool) (r : LatchRes) : (f.pushLatch lane r).stamp = f.stamp := rfl
@[simp] theorem pushLatch_taken (f : Firing) (lane : Bool) (r : LatchRes) : (f.pushLatch lane r).taken = f.taken := rfl
@[simp] theorem pushLatch_s (f : Firing) (lane : Bool) (r : LatchRes) : (f.pushLatch lane r).s = f.s := rfl
@[simp] theorem pushLatch_v (f : Firing) (lane : Bool) (r : LatchRes) : (f.pushLatch lane r).v = f.v := rfl
@[simp] theorem pushLatch_k (f : Firing) (lane : Bool) (r : LatchRes) : (f.pushLatch lane r).k = f.k := rfl
@[simp] theorem pushLatch_q (f : Firing) (lane : Bool) (r : LatchRes) : (f.pushLatch lane r).q = f.q := rfl
@[simp] theorem pushLatch_fpst (f : Firing) (lane : Bool) (r : LatchRes) : (f.pushLatch lane r).fpst = f.fpst := rfl
@[simp] theorem pushLatch_paths (f : Firing) (lane : Bool) (r : LatchRes) : (f.pushLatch lane r).paths = f.paths := rfl
@[simp] theorem pushLatch_cur (f : Firing) (lane : Bool) (r : LatchRes) : (f.pushLatch lane r).cur = f.cur := rfl
@[simp] theorem pushLatch_trec (f : Firing) (lane : Bool) (r : LatchRes) : (f.pushLatch lane r).trec = f.trec := rfl
@[simp] theorem pushLatch_last (f : Firing) (lane : Bool) (r : LatchRes) : (f.pushLatch lane r).last = f.last := rfl
@[simp] theorem pushLatch_skip (f : Firing) (lane : Bool) (r : LatchRes) : (f.pushLatch lane r).skip = f.skip := rfl
@[simp] theorem pushLatch_rbrk (f : Firing) (lane : Bool) (r : LatchRes) : (f.pushLatch lane r).rbrk = f.rbrk := rfl
@[simp] theorem pushLatch_loss (f : Firing) (lane : Bool) (r : LatchRes) : (f.pushLatch lane r).loss = f.loss := rfl
@[simp] theorem pushLatch_bad (f : Firing) (lane : Bool) (r : LatchRes) : (f.pushLatch lane r).bad = f.bad := rfl
@[simp] theorem pushLatch_mode (f : Firing) (lane : Bool) (r : LatchRes) : (f.pushLatch lane r).mode = f.mode := rfl
@[simp] theorem pushLatch_sfu0 (f : Firing) (lane : Bool) (r : LatchRes) : (f.pushLatch lane r).sfu0 = f.sfu0 := rfl
@[simp] theorem pushLatch_sfu1 (f : Firing) (lane : Bool) (r : LatchRes) : (f.pushLatch lane r).sfu1 = f.sfu1 := rfl
@[simp] theorem pushLatch_sfum (f : Firing) (lane : Bool) (r : LatchRes) : (f.pushLatch lane r).sfum = f.sfum := rfl
@[simp] theorem pushLatch_sfuDisc (f : Firing) (lane : Bool) (r : LatchRes) : (f.pushLatch lane r).sfuDisc = f.sfuDisc := rfl
@[simp] theorem pushLatch_laddr (f : Firing) (lane : Bool) (r : LatchRes) : (f.pushLatch lane r).laddr = f.laddr := rfl
@[simp] theorem pushLatch_lcnt (f : Firing) (lane : Bool) (r : LatchRes) : (f.pushLatch lane r).lcnt = f.lcnt := rfl
@[simp] theorem pushLatch_depth (f : Firing) (lane : Bool) (r : LatchRes) : (f.pushLatch lane r).depth = f.depth := rfl
@[simp] theorem pushLatch_stop (f : Firing) (lane : Bool) (r : LatchRes) : (f.pushLatch lane r).stop = f.stop := rfl
@[simp] theorem pushLatch_deps (f : Firing) (lane : Bool) (r : LatchRes) : (f.pushLatch lane r).deps = f.deps := rfl
@[simp] theorem pushLatch_sq (f : Firing) (lane : Bool) (r : LatchRes) : (f.pushLatch lane r).sq = f.sq := rfl
@[simp] theorem pushLatch_wbq (f : Firing) (lane : Bool) (r : LatchRes) : (f.pushLatch lane r).wbq = f.wbq := rfl
@[simp] theorem pushLatch_xl (f : Firing) (lane : Bool) (r : LatchRes) : (f.pushLatch lane r).xl = f.xl := rfl
@[simp] theorem pushLatch_hold (f : Firing) (lane : Bool) (r : LatchRes) : (f.pushLatch lane r).hold = f.hold := rfl
@[simp] theorem pushLatch_rel (f : Firing) (lane : Bool) (r : LatchRes) : (f.pushLatch lane r).rel = f.rel := rfl
@[simp] theorem pushLatch_relMore (f : Firing) (lane : Bool) (r : LatchRes) : (f.pushLatch lane r).relMore = f.relMore := rfl
@[simp] theorem pushLatch_seq (f : Firing) (lane : Bool) (r : LatchRes) : (f.pushLatch lane r).seq = f.seq := rfl

@[simp] theorem endIssue_uid (f : Firing) (lane c : Bool) (r : LatchRes) : (f.endIssue lane c r).uid = f.uid := by unfold Firing.endIssue; split <;> rfl
@[simp] theorem endIssue_hid (f : Firing) (lane c : Bool) (r : LatchRes) : (f.endIssue lane c r).hid = f.hid := by unfold Firing.endIssue; split <;> rfl
@[simp] theorem endIssue_wave (f : Firing) (lane c : Bool) (r : LatchRes) : (f.endIssue lane c r).wave = f.wave := by unfold Firing.endIssue; split <;> rfl
@[simp] theorem endIssue_ns (f : Firing) (lane c : Bool) (r : LatchRes) : (f.endIssue lane c r).ns = f.ns := by unfold Firing.endIssue; split <;> rfl
@[simp] theorem endIssue_nv (f : Firing) (lane c : Bool) (r : LatchRes) : (f.endIssue lane c r).nv = f.nv := by unfold Firing.endIssue; split <;> rfl
@[simp] theorem endIssue_plive (f : Firing) (lane c : Bool) (r : LatchRes) : (f.endIssue lane c r).plive = f.plive := by unfold Firing.endIssue; split <;> rfl
@[simp] theorem endIssue_scope (f : Firing) (lane c : Bool) (r : LatchRes) : (f.endIssue lane c r).scope = f.scope := by unfold Firing.endIssue; split <;> rfl
@[simp] theorem endIssue_pri (f : Firing) (lane c : Bool) (r : LatchRes) : (f.endIssue lane c r).pri = f.pri := by unfold Firing.endIssue; split <;> rfl
@[simp] theorem endIssue_boost (f : Firing) (lane c : Bool) (r : LatchRes) : (f.endIssue lane c r).boost = f.boost := by unfold Firing.endIssue; split <;> rfl
@[simp] theorem endIssue_ordered (f : Firing) (lane c : Bool) (r : LatchRes) : (f.endIssue lane c r).ordered = f.ordered := by unfold Firing.endIssue; split <;> rfl
@[simp] theorem endIssue_gsrc (f : Firing) (lane c : Bool) (r : LatchRes) : (f.endIssue lane c r).gsrc = f.gsrc := by unfold Firing.endIssue; split <;> rfl
@[simp] theorem endIssue_wp (f : Firing) (lane c : Bool) (r : LatchRes) : (f.endIssue lane c r).wp = f.wp := by unfold Firing.endIssue; split <;> rfl
@[simp] theorem endIssue_ltag (f : Firing) (lane c : Bool) (r : LatchRes) : (f.endIssue lane c r).ltag = f.ltag := by unfold Firing.endIssue; split <;> rfl
@[simp] theorem endIssue_stamp (f : Firing) (lane c : Bool) (r : LatchRes) : (f.endIssue lane c r).stamp = f.stamp := by unfold Firing.endIssue; split <;> rfl
@[simp] theorem endIssue_taken (f : Firing) (lane c : Bool) (r : LatchRes) : (f.endIssue lane c r).taken = f.taken := by unfold Firing.endIssue; split <;> rfl
@[simp] theorem endIssue_s (f : Firing) (lane c : Bool) (r : LatchRes) : (f.endIssue lane c r).s = f.s := by unfold Firing.endIssue; split <;> rfl
@[simp] theorem endIssue_v (f : Firing) (lane c : Bool) (r : LatchRes) : (f.endIssue lane c r).v = f.v := by unfold Firing.endIssue; split <;> rfl
@[simp] theorem endIssue_k (f : Firing) (lane c : Bool) (r : LatchRes) : (f.endIssue lane c r).k = f.k := by unfold Firing.endIssue; split <;> rfl
@[simp] theorem endIssue_q (f : Firing) (lane c : Bool) (r : LatchRes) : (f.endIssue lane c r).q = f.q := by unfold Firing.endIssue; split <;> rfl
@[simp] theorem endIssue_fpst (f : Firing) (lane c : Bool) (r : LatchRes) : (f.endIssue lane c r).fpst = f.fpst := by unfold Firing.endIssue; split <;> rfl
@[simp] theorem endIssue_paths (f : Firing) (lane c : Bool) (r : LatchRes) : (f.endIssue lane c r).paths = f.paths := by unfold Firing.endIssue; split <;> rfl
@[simp] theorem endIssue_cur (f : Firing) (lane c : Bool) (r : LatchRes) : (f.endIssue lane c r).cur = f.cur := by unfold Firing.endIssue; split <;> rfl
@[simp] theorem endIssue_trec (f : Firing) (lane c : Bool) (r : LatchRes) : (f.endIssue lane c r).trec = f.trec := by unfold Firing.endIssue; split <;> rfl
@[simp] theorem endIssue_last (f : Firing) (lane c : Bool) (r : LatchRes) : (f.endIssue lane c r).last = f.last := by unfold Firing.endIssue; split <;> rfl
@[simp] theorem endIssue_rbrk (f : Firing) (lane c : Bool) (r : LatchRes) : (f.endIssue lane c r).rbrk = f.rbrk := by unfold Firing.endIssue; split <;> rfl
@[simp] theorem endIssue_loss (f : Firing) (lane c : Bool) (r : LatchRes) : (f.endIssue lane c r).loss = f.loss := by unfold Firing.endIssue; split <;> rfl
@[simp] theorem endIssue_bad (f : Firing) (lane c : Bool) (r : LatchRes) : (f.endIssue lane c r).bad = f.bad := by unfold Firing.endIssue; split <;> rfl
@[simp] theorem endIssue_mode (f : Firing) (lane c : Bool) (r : LatchRes) : (f.endIssue lane c r).mode = f.mode := by unfold Firing.endIssue; split <;> rfl
@[simp] theorem endIssue_sfu0 (f : Firing) (lane c : Bool) (r : LatchRes) : (f.endIssue lane c r).sfu0 = f.sfu0 := by unfold Firing.endIssue; split <;> rfl
@[simp] theorem endIssue_sfu1 (f : Firing) (lane c : Bool) (r : LatchRes) : (f.endIssue lane c r).sfu1 = f.sfu1 := by unfold Firing.endIssue; split <;> rfl
@[simp] theorem endIssue_sfum (f : Firing) (lane c : Bool) (r : LatchRes) : (f.endIssue lane c r).sfum = f.sfum := by unfold Firing.endIssue; split <;> rfl
@[simp] theorem endIssue_sfuDisc (f : Firing) (lane c : Bool) (r : LatchRes) : (f.endIssue lane c r).sfuDisc = f.sfuDisc := by unfold Firing.endIssue; split <;> rfl
@[simp] theorem endIssue_laddr (f : Firing) (lane c : Bool) (r : LatchRes) : (f.endIssue lane c r).laddr = f.laddr := by unfold Firing.endIssue; split <;> rfl
@[simp] theorem endIssue_lcnt (f : Firing) (lane c : Bool) (r : LatchRes) : (f.endIssue lane c r).lcnt = f.lcnt := by unfold Firing.endIssue; split <;> rfl
@[simp] theorem endIssue_depth (f : Firing) (lane c : Bool) (r : LatchRes) : (f.endIssue lane c r).depth = f.depth := by unfold Firing.endIssue; split <;> rfl
@[simp] theorem endIssue_stop (f : Firing) (lane c : Bool) (r : LatchRes) : (f.endIssue lane c r).stop = f.stop := by unfold Firing.endIssue; split <;> rfl
@[simp] theorem endIssue_deps (f : Firing) (lane c : Bool) (r : LatchRes) : (f.endIssue lane c r).deps = f.deps := by unfold Firing.endIssue; split <;> rfl
@[simp] theorem endIssue_sq (f : Firing) (lane c : Bool) (r : LatchRes) : (f.endIssue lane c r).sq = f.sq := by unfold Firing.endIssue; split <;> rfl
@[simp] theorem endIssue_wbq (f : Firing) (lane c : Bool) (r : LatchRes) : (f.endIssue lane c r).wbq = f.wbq := by unfold Firing.endIssue; split <;> rfl
@[simp] theorem endIssue_rel (f : Firing) (lane c : Bool) (r : LatchRes) : (f.endIssue lane c r).rel = f.rel := by unfold Firing.endIssue; split <;> rfl
@[simp] theorem endIssue_relMore (f : Firing) (lane c : Bool) (r : LatchRes) : (f.endIssue lane c r).relMore = f.relMore := by unfold Firing.endIssue; split <;> rfl

@[simp] theorem retire_uid (f : Firing) (lane : Bool) (h : Head) (l : Len) (r : LatchRes) : (f.retire lane h l r).uid = f.uid := endIssue_uid f lane h.c r
@[simp] theorem retire_hid (f : Firing) (lane : Bool) (h : Head) (l : Len) (r : LatchRes) : (f.retire lane h l r).hid = f.hid := endIssue_hid f lane h.c r
@[simp] theorem retire_wave (f : Firing) (lane : Bool) (h : Head) (l : Len) (r : LatchRes) : (f.retire lane h l r).wave = f.wave := endIssue_wave f lane h.c r
@[simp] theorem retire_ns (f : Firing) (lane : Bool) (h : Head) (l : Len) (r : LatchRes) : (f.retire lane h l r).ns = f.ns := endIssue_ns f lane h.c r
@[simp] theorem retire_nv (f : Firing) (lane : Bool) (h : Head) (l : Len) (r : LatchRes) : (f.retire lane h l r).nv = f.nv := endIssue_nv f lane h.c r
@[simp] theorem retire_plive (f : Firing) (lane : Bool) (h : Head) (l : Len) (r : LatchRes) : (f.retire lane h l r).plive = f.plive := endIssue_plive f lane h.c r
@[simp] theorem retire_scope (f : Firing) (lane : Bool) (h : Head) (l : Len) (r : LatchRes) : (f.retire lane h l r).scope = f.scope := endIssue_scope f lane h.c r
@[simp] theorem retire_pri (f : Firing) (lane : Bool) (h : Head) (l : Len) (r : LatchRes) : (f.retire lane h l r).pri = f.pri := endIssue_pri f lane h.c r
@[simp] theorem retire_boost (f : Firing) (lane : Bool) (h : Head) (l : Len) (r : LatchRes) : (f.retire lane h l r).boost = f.boost := endIssue_boost f lane h.c r
@[simp] theorem retire_ordered (f : Firing) (lane : Bool) (h : Head) (l : Len) (r : LatchRes) : (f.retire lane h l r).ordered = f.ordered := endIssue_ordered f lane h.c r
@[simp] theorem retire_gsrc (f : Firing) (lane : Bool) (h : Head) (l : Len) (r : LatchRes) : (f.retire lane h l r).gsrc = f.gsrc := endIssue_gsrc f lane h.c r
@[simp] theorem retire_wp (f : Firing) (lane : Bool) (h : Head) (l : Len) (r : LatchRes) : (f.retire lane h l r).wp = f.wp := endIssue_wp f lane h.c r
@[simp] theorem retire_ltag (f : Firing) (lane : Bool) (h : Head) (l : Len) (r : LatchRes) : (f.retire lane h l r).ltag = f.ltag := endIssue_ltag f lane h.c r
@[simp] theorem retire_stamp (f : Firing) (lane : Bool) (h : Head) (l : Len) (r : LatchRes) : (f.retire lane h l r).stamp = f.stamp := endIssue_stamp f lane h.c r
@[simp] theorem retire_taken (f : Firing) (lane : Bool) (h : Head) (l : Len) (r : LatchRes) : (f.retire lane h l r).taken = f.taken := endIssue_taken f lane h.c r
@[simp] theorem retire_s (f : Firing) (lane : Bool) (h : Head) (l : Len) (r : LatchRes) : (f.retire lane h l r).s = f.s := endIssue_s f lane h.c r
@[simp] theorem retire_v (f : Firing) (lane : Bool) (h : Head) (l : Len) (r : LatchRes) : (f.retire lane h l r).v = f.v := endIssue_v f lane h.c r
@[simp] theorem retire_k (f : Firing) (lane : Bool) (h : Head) (l : Len) (r : LatchRes) : (f.retire lane h l r).k = f.k := endIssue_k f lane h.c r
@[simp] theorem retire_q (f : Firing) (lane : Bool) (h : Head) (l : Len) (r : LatchRes) : (f.retire lane h l r).q = f.q := endIssue_q f lane h.c r
@[simp] theorem retire_fpst (f : Firing) (lane : Bool) (h : Head) (l : Len) (r : LatchRes) : (f.retire lane h l r).fpst = f.fpst := endIssue_fpst f lane h.c r
@[simp] theorem retire_cur (f : Firing) (lane : Bool) (h : Head) (l : Len) (r : LatchRes) : (f.retire lane h l r).cur = f.cur := endIssue_cur f lane h.c r
@[simp] theorem retire_trec (f : Firing) (lane : Bool) (h : Head) (l : Len) (r : LatchRes) : (f.retire lane h l r).trec = f.trec := endIssue_trec f lane h.c r
@[simp] theorem retire_last (f : Firing) (lane : Bool) (h : Head) (l : Len) (r : LatchRes) : (f.retire lane h l r).last = f.last := endIssue_last f lane h.c r
@[simp] theorem retire_rbrk (f : Firing) (lane : Bool) (h : Head) (l : Len) (r : LatchRes) : (f.retire lane h l r).rbrk = f.rbrk := endIssue_rbrk f lane h.c r
@[simp] theorem retire_loss (f : Firing) (lane : Bool) (h : Head) (l : Len) (r : LatchRes) : (f.retire lane h l r).loss = f.loss := endIssue_loss f lane h.c r
@[simp] theorem retire_bad (f : Firing) (lane : Bool) (h : Head) (l : Len) (r : LatchRes) : (f.retire lane h l r).bad = f.bad := endIssue_bad f lane h.c r
@[simp] theorem retire_mode (f : Firing) (lane : Bool) (h : Head) (l : Len) (r : LatchRes) : (f.retire lane h l r).mode = f.mode := endIssue_mode f lane h.c r
@[simp] theorem retire_sfu0 (f : Firing) (lane : Bool) (h : Head) (l : Len) (r : LatchRes) : (f.retire lane h l r).sfu0 = f.sfu0 := endIssue_sfu0 f lane h.c r
@[simp] theorem retire_sfu1 (f : Firing) (lane : Bool) (h : Head) (l : Len) (r : LatchRes) : (f.retire lane h l r).sfu1 = f.sfu1 := endIssue_sfu1 f lane h.c r
@[simp] theorem retire_sfum (f : Firing) (lane : Bool) (h : Head) (l : Len) (r : LatchRes) : (f.retire lane h l r).sfum = f.sfum := endIssue_sfum f lane h.c r
@[simp] theorem retire_sfuDisc (f : Firing) (lane : Bool) (h : Head) (l : Len) (r : LatchRes) : (f.retire lane h l r).sfuDisc = f.sfuDisc := endIssue_sfuDisc f lane h.c r
@[simp] theorem retire_laddr (f : Firing) (lane : Bool) (h : Head) (l : Len) (r : LatchRes) : (f.retire lane h l r).laddr = f.laddr := endIssue_laddr f lane h.c r
@[simp] theorem retire_lcnt (f : Firing) (lane : Bool) (h : Head) (l : Len) (r : LatchRes) : (f.retire lane h l r).lcnt = f.lcnt := endIssue_lcnt f lane h.c r
@[simp] theorem retire_depth (f : Firing) (lane : Bool) (h : Head) (l : Len) (r : LatchRes) : (f.retire lane h l r).depth = f.depth := endIssue_depth f lane h.c r
@[simp] theorem retire_stop (f : Firing) (lane : Bool) (h : Head) (l : Len) (r : LatchRes) : (f.retire lane h l r).stop = f.stop := endIssue_stop f lane h.c r
@[simp] theorem retire_deps (f : Firing) (lane : Bool) (h : Head) (l : Len) (r : LatchRes) : (f.retire lane h l r).deps = f.deps := endIssue_deps f lane h.c r
@[simp] theorem retire_sq (f : Firing) (lane : Bool) (h : Head) (l : Len) (r : LatchRes) : (f.retire lane h l r).sq = f.sq := endIssue_sq f lane h.c r
@[simp] theorem retire_wbq (f : Firing) (lane : Bool) (h : Head) (l : Len) (r : LatchRes) : (f.retire lane h l r).wbq = f.wbq := endIssue_wbq f lane h.c r
@[simp] theorem retire_rel (f : Firing) (lane : Bool) (h : Head) (l : Len) (r : LatchRes) : (f.retire lane h l r).rel = f.rel := endIssue_rel f lane h.c r
@[simp] theorem retire_relMore (f : Firing) (lane : Bool) (h : Head) (l : Len) (r : LatchRes) : (f.retire lane h l r).relMore = f.relMore := endIssue_relMore f lane h.c r

@[simp] theorem enter_uid (f : Firing) (ops : List EntOp) : (f.enter ops).uid = f.uid := rfl
@[simp] theorem enter_hid (f : Firing) (ops : List EntOp) : (f.enter ops).hid = f.hid := rfl
@[simp] theorem enter_wave (f : Firing) (ops : List EntOp) : (f.enter ops).wave = f.wave := rfl
@[simp] theorem enter_ns (f : Firing) (ops : List EntOp) : (f.enter ops).ns = f.ns := rfl
@[simp] theorem enter_nv (f : Firing) (ops : List EntOp) : (f.enter ops).nv = f.nv := rfl
@[simp] theorem enter_plive (f : Firing) (ops : List EntOp) : (f.enter ops).plive = f.plive := rfl
@[simp] theorem enter_scope (f : Firing) (ops : List EntOp) : (f.enter ops).scope = f.scope := rfl
@[simp] theorem enter_pri (f : Firing) (ops : List EntOp) : (f.enter ops).pri = f.pri := rfl
@[simp] theorem enter_boost (f : Firing) (ops : List EntOp) : (f.enter ops).boost = f.boost := rfl
@[simp] theorem enter_ordered (f : Firing) (ops : List EntOp) : (f.enter ops).ordered = f.ordered := rfl
@[simp] theorem enter_gsrc (f : Firing) (ops : List EntOp) : (f.enter ops).gsrc = f.gsrc := rfl
@[simp] theorem enter_wp (f : Firing) (ops : List EntOp) : (f.enter ops).wp = f.wp := rfl
@[simp] theorem enter_ltag (f : Firing) (ops : List EntOp) : (f.enter ops).ltag = f.ltag := rfl
@[simp] theorem enter_stamp (f : Firing) (ops : List EntOp) : (f.enter ops).stamp = f.stamp := rfl
@[simp] theorem enter_taken (f : Firing) (ops : List EntOp) : (f.enter ops).taken = f.taken := rfl
@[simp] theorem enter_s (f : Firing) (ops : List EntOp) : (f.enter ops).s = f.s := rfl
@[simp] theorem enter_v (f : Firing) (ops : List EntOp) : (f.enter ops).v = f.v := rfl
@[simp] theorem enter_k (f : Firing) (ops : List EntOp) : (f.enter ops).k = f.k := rfl
@[simp] theorem enter_q (f : Firing) (ops : List EntOp) : (f.enter ops).q = f.q := rfl
@[simp] theorem enter_fpst (f : Firing) (ops : List EntOp) : (f.enter ops).fpst = f.fpst := rfl
@[simp] theorem enter_paths (f : Firing) (ops : List EntOp) : (f.enter ops).paths = f.paths := rfl
@[simp] theorem enter_cur (f : Firing) (ops : List EntOp) : (f.enter ops).cur = f.cur := rfl
@[simp] theorem enter_chain (f : Firing) (ops : List EntOp) : (f.enter ops).chain = f.chain := rfl
@[simp] theorem enter_ls (f : Firing) (ops : List EntOp) : (f.enter ops).ls = f.ls := rfl
@[simp] theorem enter_lv (f : Firing) (ops : List EntOp) : (f.enter ops).lv = f.lv := rfl
@[simp] theorem enter_trec (f : Firing) (ops : List EntOp) : (f.enter ops).trec = f.trec := rfl
@[simp] theorem enter_last (f : Firing) (ops : List EntOp) : (f.enter ops).last = f.last := rfl
@[simp] theorem enter_skip (f : Firing) (ops : List EntOp) : (f.enter ops).skip = f.skip := rfl
@[simp] theorem enter_rbrk (f : Firing) (ops : List EntOp) : (f.enter ops).rbrk = f.rbrk := rfl
@[simp] theorem enter_loss (f : Firing) (ops : List EntOp) : (f.enter ops).loss = f.loss := rfl
@[simp] theorem enter_bad (f : Firing) (ops : List EntOp) : (f.enter ops).bad = f.bad := rfl
@[simp] theorem enter_mode (f : Firing) (ops : List EntOp) : (f.enter ops).mode = f.mode := rfl
@[simp] theorem enter_sfu0 (f : Firing) (ops : List EntOp) : (f.enter ops).sfu0 = f.sfu0 := rfl
@[simp] theorem enter_sfu1 (f : Firing) (ops : List EntOp) : (f.enter ops).sfu1 = f.sfu1 := rfl
@[simp] theorem enter_sfum (f : Firing) (ops : List EntOp) : (f.enter ops).sfum = f.sfum := rfl
@[simp] theorem enter_sfuDisc (f : Firing) (ops : List EntOp) : (f.enter ops).sfuDisc = f.sfuDisc := rfl
@[simp] theorem enter_laddr (f : Firing) (ops : List EntOp) : (f.enter ops).laddr = f.laddr := rfl
@[simp] theorem enter_lcnt (f : Firing) (ops : List EntOp) : (f.enter ops).lcnt = f.lcnt := rfl
@[simp] theorem enter_depth (f : Firing) (ops : List EntOp) : (f.enter ops).depth = f.depth := rfl
@[simp] theorem enter_stop (f : Firing) (ops : List EntOp) : (f.enter ops).stop = f.stop := rfl
@[simp] theorem enter_deps (f : Firing) (ops : List EntOp) : (f.enter ops).deps = f.deps := rfl
@[simp] theorem enter_wbq (f : Firing) (ops : List EntOp) : (f.enter ops).wbq = f.wbq := rfl
@[simp] theorem enter_xl (f : Firing) (ops : List EntOp) : (f.enter ops).xl = f.xl := rfl
@[simp] theorem enter_hold (f : Firing) (ops : List EntOp) : (f.enter ops).hold = f.hold := rfl
@[simp] theorem enter_rel (f : Firing) (ops : List EntOp) : (f.enter ops).rel = f.rel := rfl
@[simp] theorem enter_relMore (f : Firing) (ops : List EntOp) : (f.enter ops).relMore = f.relMore := rfl
@[simp] theorem enter_seq (f : Firing) (ops : List EntOp) : (f.enter ops).seq = f.seq := rfl

/-! ## Writes of several registers -/

@[simp] theorem putS_uid (f : Firing) (xs : List (Nat × W64)) : (f.putS xs).uid = f.uid := by
  induction xs generalizing f with
  | nil => rfl
  | cons e t ih => exact (ih (f.setS e.1 e.2)).trans (setS_uid f e.1 e.2)
@[simp] theorem putS_hid (f : Firing) (xs : List (Nat × W64)) : (f.putS xs).hid = f.hid := by
  induction xs generalizing f with
  | nil => rfl
  | cons e t ih => exact (ih (f.setS e.1 e.2)).trans (setS_hid f e.1 e.2)
@[simp] theorem putS_wave (f : Firing) (xs : List (Nat × W64)) : (f.putS xs).wave = f.wave := by
  induction xs generalizing f with
  | nil => rfl
  | cons e t ih => exact (ih (f.setS e.1 e.2)).trans (setS_wave f e.1 e.2)
@[simp] theorem putS_ns (f : Firing) (xs : List (Nat × W64)) : (f.putS xs).ns = f.ns := by
  induction xs generalizing f with
  | nil => rfl
  | cons e t ih => exact (ih (f.setS e.1 e.2)).trans (setS_ns f e.1 e.2)
@[simp] theorem putS_nv (f : Firing) (xs : List (Nat × W64)) : (f.putS xs).nv = f.nv := by
  induction xs generalizing f with
  | nil => rfl
  | cons e t ih => exact (ih (f.setS e.1 e.2)).trans (setS_nv f e.1 e.2)
@[simp] theorem putS_plive (f : Firing) (xs : List (Nat × W64)) : (f.putS xs).plive = f.plive := by
  induction xs generalizing f with
  | nil => rfl
  | cons e t ih => exact (ih (f.setS e.1 e.2)).trans (setS_plive f e.1 e.2)
@[simp] theorem putS_scope (f : Firing) (xs : List (Nat × W64)) : (f.putS xs).scope = f.scope := by
  induction xs generalizing f with
  | nil => rfl
  | cons e t ih => exact (ih (f.setS e.1 e.2)).trans (setS_scope f e.1 e.2)
@[simp] theorem putS_pri (f : Firing) (xs : List (Nat × W64)) : (f.putS xs).pri = f.pri := by
  induction xs generalizing f with
  | nil => rfl
  | cons e t ih => exact (ih (f.setS e.1 e.2)).trans (setS_pri f e.1 e.2)
@[simp] theorem putS_boost (f : Firing) (xs : List (Nat × W64)) : (f.putS xs).boost = f.boost := by
  induction xs generalizing f with
  | nil => rfl
  | cons e t ih => exact (ih (f.setS e.1 e.2)).trans (setS_boost f e.1 e.2)
@[simp] theorem putS_ordered (f : Firing) (xs : List (Nat × W64)) : (f.putS xs).ordered = f.ordered := by
  induction xs generalizing f with
  | nil => rfl
  | cons e t ih => exact (ih (f.setS e.1 e.2)).trans (setS_ordered f e.1 e.2)
@[simp] theorem putS_gsrc (f : Firing) (xs : List (Nat × W64)) : (f.putS xs).gsrc = f.gsrc := by
  induction xs generalizing f with
  | nil => rfl
  | cons e t ih => exact (ih (f.setS e.1 e.2)).trans (setS_gsrc f e.1 e.2)
@[simp] theorem putS_wp (f : Firing) (xs : List (Nat × W64)) : (f.putS xs).wp = f.wp := by
  induction xs generalizing f with
  | nil => rfl
  | cons e t ih => exact (ih (f.setS e.1 e.2)).trans (setS_wp f e.1 e.2)
@[simp] theorem putS_ltag (f : Firing) (xs : List (Nat × W64)) : (f.putS xs).ltag = f.ltag := by
  induction xs generalizing f with
  | nil => rfl
  | cons e t ih => exact (ih (f.setS e.1 e.2)).trans (setS_ltag f e.1 e.2)
@[simp] theorem putS_stamp (f : Firing) (xs : List (Nat × W64)) : (f.putS xs).stamp = f.stamp := by
  induction xs generalizing f with
  | nil => rfl
  | cons e t ih => exact (ih (f.setS e.1 e.2)).trans (setS_stamp f e.1 e.2)
@[simp] theorem putS_taken (f : Firing) (xs : List (Nat × W64)) : (f.putS xs).taken = f.taken := by
  induction xs generalizing f with
  | nil => rfl
  | cons e t ih => exact (ih (f.setS e.1 e.2)).trans (setS_taken f e.1 e.2)
@[simp] theorem putS_v (f : Firing) (xs : List (Nat × W64)) : (f.putS xs).v = f.v := by
  induction xs generalizing f with
  | nil => rfl
  | cons e t ih => exact (ih (f.setS e.1 e.2)).trans (setS_v f e.1 e.2)
@[simp] theorem putS_k (f : Firing) (xs : List (Nat × W64)) : (f.putS xs).k = f.k := by
  induction xs generalizing f with
  | nil => rfl
  | cons e t ih => exact (ih (f.setS e.1 e.2)).trans (setS_k f e.1 e.2)
@[simp] theorem putS_q (f : Firing) (xs : List (Nat × W64)) : (f.putS xs).q = f.q := by
  induction xs generalizing f with
  | nil => rfl
  | cons e t ih => exact (ih (f.setS e.1 e.2)).trans (setS_q f e.1 e.2)
@[simp] theorem putS_fpst (f : Firing) (xs : List (Nat × W64)) : (f.putS xs).fpst = f.fpst := by
  induction xs generalizing f with
  | nil => rfl
  | cons e t ih => exact (ih (f.setS e.1 e.2)).trans (setS_fpst f e.1 e.2)
@[simp] theorem putS_paths (f : Firing) (xs : List (Nat × W64)) : (f.putS xs).paths = f.paths := by
  induction xs generalizing f with
  | nil => rfl
  | cons e t ih => exact (ih (f.setS e.1 e.2)).trans (setS_paths f e.1 e.2)
@[simp] theorem putS_cur (f : Firing) (xs : List (Nat × W64)) : (f.putS xs).cur = f.cur := by
  induction xs generalizing f with
  | nil => rfl
  | cons e t ih => exact (ih (f.setS e.1 e.2)).trans (setS_cur f e.1 e.2)
@[simp] theorem putS_chain (f : Firing) (xs : List (Nat × W64)) : (f.putS xs).chain = f.chain := by
  induction xs generalizing f with
  | nil => rfl
  | cons e t ih => exact (ih (f.setS e.1 e.2)).trans (setS_chain f e.1 e.2)
@[simp] theorem putS_ls (f : Firing) (xs : List (Nat × W64)) : (f.putS xs).ls = f.ls := by
  induction xs generalizing f with
  | nil => rfl
  | cons e t ih => exact (ih (f.setS e.1 e.2)).trans (setS_ls f e.1 e.2)
@[simp] theorem putS_lv (f : Firing) (xs : List (Nat × W64)) : (f.putS xs).lv = f.lv := by
  induction xs generalizing f with
  | nil => rfl
  | cons e t ih => exact (ih (f.setS e.1 e.2)).trans (setS_lv f e.1 e.2)
@[simp] theorem putS_trec (f : Firing) (xs : List (Nat × W64)) : (f.putS xs).trec = f.trec := by
  induction xs generalizing f with
  | nil => rfl
  | cons e t ih => exact (ih (f.setS e.1 e.2)).trans (setS_trec f e.1 e.2)
@[simp] theorem putS_last (f : Firing) (xs : List (Nat × W64)) : (f.putS xs).last = f.last := by
  induction xs generalizing f with
  | nil => rfl
  | cons e t ih => exact (ih (f.setS e.1 e.2)).trans (setS_last f e.1 e.2)
@[simp] theorem putS_skip (f : Firing) (xs : List (Nat × W64)) : (f.putS xs).skip = f.skip := by
  induction xs generalizing f with
  | nil => rfl
  | cons e t ih => exact (ih (f.setS e.1 e.2)).trans (setS_skip f e.1 e.2)
@[simp] theorem putS_rbrk (f : Firing) (xs : List (Nat × W64)) : (f.putS xs).rbrk = f.rbrk := by
  induction xs generalizing f with
  | nil => rfl
  | cons e t ih => exact (ih (f.setS e.1 e.2)).trans (setS_rbrk f e.1 e.2)
@[simp] theorem putS_loss (f : Firing) (xs : List (Nat × W64)) : (f.putS xs).loss = f.loss := by
  induction xs generalizing f with
  | nil => rfl
  | cons e t ih => exact (ih (f.setS e.1 e.2)).trans (setS_loss f e.1 e.2)
@[simp] theorem putS_bad (f : Firing) (xs : List (Nat × W64)) : (f.putS xs).bad = f.bad := by
  induction xs generalizing f with
  | nil => rfl
  | cons e t ih => exact (ih (f.setS e.1 e.2)).trans (setS_bad f e.1 e.2)
@[simp] theorem putS_mode (f : Firing) (xs : List (Nat × W64)) : (f.putS xs).mode = f.mode := by
  induction xs generalizing f with
  | nil => rfl
  | cons e t ih => exact (ih (f.setS e.1 e.2)).trans (setS_mode f e.1 e.2)
@[simp] theorem putS_sfu0 (f : Firing) (xs : List (Nat × W64)) : (f.putS xs).sfu0 = f.sfu0 := by
  induction xs generalizing f with
  | nil => rfl
  | cons e t ih => exact (ih (f.setS e.1 e.2)).trans (setS_sfu0 f e.1 e.2)
@[simp] theorem putS_sfu1 (f : Firing) (xs : List (Nat × W64)) : (f.putS xs).sfu1 = f.sfu1 := by
  induction xs generalizing f with
  | nil => rfl
  | cons e t ih => exact (ih (f.setS e.1 e.2)).trans (setS_sfu1 f e.1 e.2)
@[simp] theorem putS_sfum (f : Firing) (xs : List (Nat × W64)) : (f.putS xs).sfum = f.sfum := by
  induction xs generalizing f with
  | nil => rfl
  | cons e t ih => exact (ih (f.setS e.1 e.2)).trans (setS_sfum f e.1 e.2)
@[simp] theorem putS_sfuDisc (f : Firing) (xs : List (Nat × W64)) : (f.putS xs).sfuDisc = f.sfuDisc := by
  induction xs generalizing f with
  | nil => rfl
  | cons e t ih => exact (ih (f.setS e.1 e.2)).trans (setS_sfuDisc f e.1 e.2)
@[simp] theorem putS_laddr (f : Firing) (xs : List (Nat × W64)) : (f.putS xs).laddr = f.laddr := by
  induction xs generalizing f with
  | nil => rfl
  | cons e t ih => exact (ih (f.setS e.1 e.2)).trans (setS_laddr f e.1 e.2)
@[simp] theorem putS_lcnt (f : Firing) (xs : List (Nat × W64)) : (f.putS xs).lcnt = f.lcnt := by
  induction xs generalizing f with
  | nil => rfl
  | cons e t ih => exact (ih (f.setS e.1 e.2)).trans (setS_lcnt f e.1 e.2)
@[simp] theorem putS_depth (f : Firing) (xs : List (Nat × W64)) : (f.putS xs).depth = f.depth := by
  induction xs generalizing f with
  | nil => rfl
  | cons e t ih => exact (ih (f.setS e.1 e.2)).trans (setS_depth f e.1 e.2)
@[simp] theorem putS_stop (f : Firing) (xs : List (Nat × W64)) : (f.putS xs).stop = f.stop := by
  induction xs generalizing f with
  | nil => rfl
  | cons e t ih => exact (ih (f.setS e.1 e.2)).trans (setS_stop f e.1 e.2)
@[simp] theorem putS_deps (f : Firing) (xs : List (Nat × W64)) : (f.putS xs).deps = f.deps := by
  induction xs generalizing f with
  | nil => rfl
  | cons e t ih => exact (ih (f.setS e.1 e.2)).trans (setS_deps f e.1 e.2)
@[simp] theorem putS_sq (f : Firing) (xs : List (Nat × W64)) : (f.putS xs).sq = f.sq := by
  induction xs generalizing f with
  | nil => rfl
  | cons e t ih => exact (ih (f.setS e.1 e.2)).trans (setS_sq f e.1 e.2)
@[simp] theorem putS_wbq (f : Firing) (xs : List (Nat × W64)) : (f.putS xs).wbq = f.wbq := by
  induction xs generalizing f with
  | nil => rfl
  | cons e t ih => exact (ih (f.setS e.1 e.2)).trans (setS_wbq f e.1 e.2)
@[simp] theorem putS_xl (f : Firing) (xs : List (Nat × W64)) : (f.putS xs).xl = f.xl := by
  induction xs generalizing f with
  | nil => rfl
  | cons e t ih => exact (ih (f.setS e.1 e.2)).trans (setS_xl f e.1 e.2)
@[simp] theorem putS_hold (f : Firing) (xs : List (Nat × W64)) : (f.putS xs).hold = f.hold := by
  induction xs generalizing f with
  | nil => rfl
  | cons e t ih => exact (ih (f.setS e.1 e.2)).trans (setS_hold f e.1 e.2)
@[simp] theorem putS_rel (f : Firing) (xs : List (Nat × W64)) : (f.putS xs).rel = f.rel := by
  induction xs generalizing f with
  | nil => rfl
  | cons e t ih => exact (ih (f.setS e.1 e.2)).trans (setS_rel f e.1 e.2)
@[simp] theorem putS_relMore (f : Firing) (xs : List (Nat × W64)) : (f.putS xs).relMore = f.relMore := by
  induction xs generalizing f with
  | nil => rfl
  | cons e t ih => exact (ih (f.setS e.1 e.2)).trans (setS_relMore f e.1 e.2)
@[simp] theorem putS_seq (f : Firing) (xs : List (Nat × W64)) : (f.putS xs).seq = f.seq := by
  induction xs generalizing f with
  | nil => rfl
  | cons e t ih => exact (ih (f.setS e.1 e.2)).trans (setS_seq f e.1 e.2)

end Sys2Proof.Laws
end

