-- ==== Sys2Proof/Laws/Registers.lean ====
section
/-! SUPPORT. Cores, firings, registers, memory and the scratchpad: what a read sees after a write; what the issuing firing
of a meaning is; where an issue leaves the program counter. -/

namespace Sys2Proof.Laws
open Sys2Proof Sys2Proof.Machine

/-! ## Cores and firings -/

theorem core_setCore (s : State) (n m : Nat) (c : Core) : (s.setCore n c).core m = if m = n then c else s.core m := by
  simp only [State.core, State.setCore, spFind_spIns]; split <;> rfl

@[simp] theorem core_setCore_same (s : State) (n : Nat) (c : Core) : (s.setCore n c).core n = c := by simp [core_setCore]

theorem core_setCore_other {s : State} {n m : Nat} {c : Core} (h : m ≠ n) : (s.setCore n c).core m = s.core m := by
  simp [core_setCore, h]

theorem coreFiring_setFiring (c : Core) (sl m : Nat) (f : Firing) :
    (c.setFiring sl f).firing m = if m = sl then some f else c.firing m := spFind_spIns c.firings sl m f

@[simp] theorem firing_setFiring_same (s : State) (n sl : Nat) (f : Firing) : (s.setFiring n sl f).firing n sl = some f := by
  simp [State.firing, State.setFiring, coreFiring_setFiring]

theorem firing_setFiring (s : State) (n sl m r : Nat) (f : Firing) :
    (s.setFiring n sl f).firing m r = if m = n ∧ r = sl then some f else s.firing m r := by
  simp only [State.firing, State.setFiring, core_setCore]
  by_cases h : m = n
  · subst h; simp [coreFiring_setFiring]
  · simp [h]

theorem core_setFiring_other {s : State} {n sl m : Nat} {f : Firing} (h : m ≠ n) : (s.setFiring n sl f).core m = s.core m :=
  core_setCore_other h

/-- The scratchpad of a core is not its firings'. -/
@[simp] theorem coreGetB_setFiring (c : Core) (sl : Nat) (f : Firing) (o : Nat) : (c.setFiring sl f).getB o = c.getB o := rfl

/-- A meaning over the issuing firing. -/
theorem withF_issues {s : State} {n sl : Nat} {f : Firing} (hw : s.who = some (n, sl)) (hf : s.firing n sl = some f)
    (k : Nat → Nat → Firing → State) : withF s k = .next (k n sl f) := by simp [withF, hw, hf]

/-- A meaning over the issuing firing answers a next state only where a firing issues. -/
theorem withF_next {s t : State} {k : Nat → Nat → Firing → State} (h : withF s k = .next t) :
    ∃ n sl f, s.who = some (n, sl) ∧ s.firing n sl = some f ∧ t = k n sl f := by
  unfold withF at h
  split at h
  · cases h
  · rename_i n sl hw
    split at h
    · cases h
    · rename_i f hf
      cases h; exact ⟨n, sl, f, hw, hf, rfl⟩

theorem onF_issues {s : State} {n sl : Nat} {f : Firing} (hw : s.who = some (n, sl)) (hf : s.firing n sl = some f)
    (g : Firing → Firing) : onF s g = .next (s.setFiring n sl (g f)) := withF_issues hw hf _

/-- A privileged form: PRIV in a user firing, nothing where its guard is false, else its effect. -/
theorem privForm_issues {s : State} {n sl : Nat} {f : Firing} (hw : s.who = some (n, sl)) (hf : s.firing n sl = some f)
    (h : Head) (l : Len) (go : Nat → Nat → Firing → State) :
    privForm h l s go = .next (if privileged (s.core n) sl = false then takeTrap s n sl (cause 0x02)
      else if f.enS h = false then s.setFiring n sl (f.retire false h l .none) else go n sl f) := by
  unfold privForm
  rw [withF_issues hw hf]
  cases hp : privileged (s.core n) sl <;> cases he : f.enS h <;> simp

/-- A residency form: nothing where its guard is false, PROT outside the Canopy ASID, else its effect. -/
theorem canopyForm_issues {s : State} {n sl : Nat} {f : Firing} (hw : s.who = some (n, sl)) (hf : s.firing n sl = some f)
    (h : Head) (go : Nat → Nat → Firing → State) :
    canopyForm h s go = .next (if f.enS h = false then s.setFiring n sl (f.retire false h .l64 .none)
      else if canopyProt s n = true then takeTrap s n sl (cause 0x0B) else go n sl f) := by
  unfold canopyForm
  rw [withF_issues hw hf]
  cases hp : canopyProt s n <;> cases he : f.enS h <;> simp

/-! ## Scalar and lane registers, predicates -/

theorem getS_setS (f : Firing) (r q : Nat) (x : W64) :
    (f.setS r x).getS q = if q = r ∧ r ≠ 0 then x else f.getS q := by
  unfold Firing.setS Firing.getS
  by_cases hr : r = 0
  · simp [hr]
  · by_cases hq : q = 0
    · subst hq; simp [Ne.symm hr]
    · simp only [hr, hq, if_false, spGet_spPut]; simp [hr]

@[simp] theorem getS_setS_same (f : Firing) (r : Nat) (x : W64) (h : r ≠ 0) : (f.setS r x).getS r = x := by
  simp [getS_setS, h]

theorem getS_setS_other {f : Firing} {r q : Nat} {x : W64} (h : q ≠ r) : (f.setS r x).getS q = f.getS q := by
  simp [getS_setS, h]

theorem getS_putS_other (f : Firing) (xs : List (Nat × W64)) (q : Nat) (h : ∀ e ∈ xs, e.1 ≠ q) :
    (f.putS xs).getS q = f.getS q := by
  induction xs generalizing f with
  | nil => rfl
  | cons e t ih =>
    exact (ih (f.setS e.1 e.2) fun x hx => h x (List.mem_cons_of_mem _ hx)).trans
      (getS_setS_other (Ne.symm (h e List.mem_cons_self)))

theorem getV_setV (f : Firing) (r l q m : Nat) (x : W32) (hl : l < 32) (hm : m < 32) :
    (f.setV r l x).getV q m = if q = r ∧ m = l then x else f.getV q m := by
  unfold Firing.setV Firing.getV
  rw [spGet_spPut]
  by_cases h : 32 * q + m = 32 * r + l
  · rw [if_pos h, if_pos (by omega)]
  · rw [if_neg h, if_neg (by omega)]

/-- Lane words written under keys of one register. -/
theorem getV_putV_lanes (f : Firing) (d : Nat) (ls : List Nat) (g : Nat → W32) (hls : ls.Nodup) (hlt : ∀ l ∈ ls, l < 32)
    (q m : Nat) (hm : m < 32) :
    (f.putV (ls.map fun l => (32 * d + l, g l))).getV q m = if m ∈ ls ∧ q = d then g m else f.getV q m := by
  unfold Firing.putV Firing.getV
  by_cases h : m ∈ ls ∧ q = d
  · obtain ⟨hmem, rfl⟩ := h
    rw [if_pos ⟨hmem, rfl⟩]
    obtain ⟨a, b, rfl⟩ := List.append_of_mem hmem
    have hb : ∀ y ∈ b, y ≠ m := fun y hy e => by
      subst e; exact (List.nodup_cons.mp (List.nodup_append.mp hls).2.1).1 hy
    rw [List.map_append, List.map_cons]
    refine spGet_foldl_key (fun e : Nat × W32 => e.1) (fun e => e.2) _ _ (32 * q + m, g m) f.v ?_
    intro y hy
    obtain ⟨z, hz, rfl⟩ := List.mem_map.mp hy
    have := hb z hz
    show 32 * q + z ≠ 32 * q + m
    omega
  · rw [if_neg h]
    refine spGet_foldl_other (fun e : Nat × W32 => e.1) (fun e => e.2) _ _ _ ?_
    intro y hy e
    obtain ⟨z, hz, rfl⟩ := List.mem_map.mp hy
    have hz' := hlt z hz
    have e' : 32 * d + z = 32 * q + m := e
    have : z = m := by omega
    subst this
    exact h ⟨hz, by omega⟩

theorem getQ_setQ (f : Firing) (i j : Nat) (x : W32) : (f.setQ i x).getQ j = if j = i ∧ i ≠ 0 then x else f.getQ j := by
  unfold Firing.setQ Firing.getQ
  by_cases hr : i = 0
  · simp [hr]
  · by_cases hq : j = 0
    · subst hq; simp [Ne.symm hr]
    · simp only [hr, hq, if_false, spGet_spPut]; simp [hr]

theorem getK_setK (f : Firing) (i j : Nat) (b : Bool) (hi : i < 8) (hj : j < 8) :
    (f.setK i b).getK j = if j = i ∧ i ≠ 0 then b else f.getK j := by
  have key : ∀ i j : Fin 8, (BitVec.ofNat 8 (2 ^ i.val)).getLsbD j.val = decide (j = i) := by decide
  have key' : (if b then f.k ||| BitVec.ofNat 8 (2 ^ i) else f.k &&& ~~~ BitVec.ofNat 8 (2 ^ i)).getLsbD j =
      if j = i then b else f.k.getLsbD j := by
    have h1 : (BitVec.ofNat 8 (2 ^ i)).getLsbD j = decide (j = i) := by simpa using key ⟨i, hi⟩ ⟨j, hj⟩
    cases b
    · simp only [Bool.false_eq_true, if_false, BitVec.getLsbD_and, BitVec.getLsbD_not, h1, hj, decide_true, Bool.true_and]
      by_cases h : j = i <;> simp [h]
    · simp only [if_true, BitVec.getLsbD_or, h1]
      by_cases h : j = i <;> simp [h]
  unfold Firing.setK Firing.getK
  by_cases hr : i = 0
  · simp [hr]
  · by_cases hq : j = 0
    · subst hq; simp [Ne.symm hr]
    · simp only [hr, if_false, key', ne_eq, not_false_eq_true, and_true, beq_eq_false_iff_ne.mpr hq, Bool.false_or]

/-! ## Paths and the program counter -/

@[simp] theorem path_setPath {f : Firing} (p : PathE) (h : f.cur < f.paths.length) : (f.setPath f.cur p).path = p := by
  simp [Firing.path, Firing.setPath, List.getD, h]

@[simp] theorem pc_setPc {f : Firing} (x : W64) (h : f.cur < f.paths.length) : (f.setPc x).pc = x := by
  unfold Firing.setPc Firing.pc; rw [path_setPath _ h]

/-- Where an instruction that went on in sequence leaves the program counter (R27). -/
@[simp] theorem pc_retire {f : Firing} {lane : Bool} {h : Head} {l : Len} {r : LatchRes} (hc : f.cur < f.paths.length) :
    (f.retire lane h l r).pc = nextPc f.pc l := by
  have h1 : (f.endIssue lane h.c r).paths = f.paths := endIssue_paths f lane h.c r
  have h2 : (f.endIssue lane h.c r).cur = f.cur := endIssue_cur f lane h.c r
  exact pc_setPc _ (by rw [h1, h2]; exact hc)

@[simp] theorem getS_retire (f : Firing) (lane : Bool) (h : Head) (l : Len) (r : LatchRes) (q : Nat) :
    (f.retire lane h l r).getS q = f.getS q := by unfold Firing.getS; rw [retire_s]

@[simp] theorem getV_retire (f : Firing) (lane : Bool) (h : Head) (l : Len) (r : LatchRes) (q m : Nat) :
    (f.retire lane h l r).getV q m = f.getV q m := by unfold Firing.getV; rw [retire_v]

@[simp] theorem getK_retire (f : Firing) (lane : Bool) (h : Head) (l : Len) (r : LatchRes) (i : Nat) :
    (f.retire lane h l r).getK i = f.getK i := by unfold Firing.getK; rw [retire_k]

@[simp] theorem getQ_retire (f : Firing) (lane : Bool) (h : Head) (l : Len) (r : LatchRes) (i : Nat) :
    (f.retire lane h l r).getQ i = f.getQ i := by unfold Firing.getQ; rw [retire_q]

/-! ## Memory and the scratchpad -/

theorem getB_putB (s : State) (k a : Nat) (b : Byte) : (s.putB k b).getB a = if a = k then b else s.getB a :=
  spGet_spPut _ _ _ _ _

theorem wf_putB {s : State} (k : Nat) (b : Byte) (h : Memory.wf s.mem = true) : Memory.wf (s.putB k b).mem = true :=
  spWf_spPut k b h

theorem wf_putBs {s : State} (k : Nat) (bs : List Byte) (h : Memory.wf s.mem = true) : Memory.wf (s.putBs k bs).mem = true :=
  spWf_foldl (fun e : Byte × Nat => k + e.2) (fun e => e.1) bs.zipIdx s.mem h

theorem wf_putW {s : State} (k : Nat) (x : W64) (h : Memory.wf s.mem = true) : Memory.wf (s.putW k x).mem = true :=
  wf_putBs k _ h

theorem mem_zipIdx_bounds {bs : List Byte} {e : Byte × Nat} (h : e ∈ bs.zipIdx) : e.2 < bs.length := by
  have := List.mem_zipIdx h
  omega

/-- Bytes written leave every address outside them as it was. -/
theorem getB_putBs_other {s : State} {k a : Nat} {bs : List Byte} (h : a < k ∨ k + bs.length ≤ a) :
    (s.putBs k bs).getB a = s.getB a := by
  refine spGet_foldl_other (fun e : Byte × Nat => k + e.2) (fun e => e.1) bs.zipIdx s.mem a ?_
  intro e he
  have := mem_zipIdx_bounds he
  show k + e.2 ≠ a
  omega

/-- A byte written reads back. -/
theorem getB_putBs_same {s : State} {k i : Nat} {bs : List Byte} (h : i < bs.length) :
    (s.putBs k bs).getB (k + i) = bs[i] := by
  obtain ⟨a, b, e⟩ := List.append_of_mem (show (bs[i], i) ∈ bs.zipIdx by
    rw [List.mk_mem_zipIdx_iff_getElem?]; exact List.getElem?_eq_getElem h)
  have hb : ∀ y ∈ b, y.2 ≠ i := by
    intro y hy hyi
    have hp : (bs.zipIdx.map (·.2)).Nodup := by simp [List.zipIdx_map_snd, List.nodup_range']
    rw [e, List.map_append, List.map_cons] at hp
    exact (List.nodup_cons.mp (List.nodup_append.mp hp).2.1).1 (List.mem_map.mpr ⟨y, hy, hyi⟩)
  unfold State.getB State.putBs
  rw [e]
  refine spGet_foldl_key (fun x : Byte × Nat => k + x.2) (fun x => x.1) a b (bs[i], i) s.mem ?_
  intro y hy
  have := hb y hy
  show k + y.2 ≠ k + i
  omega

theorem coreGetB_putBs_other {c : Core} {k a : Nat} {bs : List Byte} (h : a < k ∨ k + bs.length ≤ a) :
    (c.putBs k bs).getB a = c.getB a := by
  refine spGet_foldl_other (fun e : Byte × Nat => k + e.2) (fun e => e.1) bs.zipIdx c.spad a ?_
  intro e he
  have := mem_zipIdx_bounds he
  show k + e.2 ≠ a
  omega

@[simp] theorem getB_setFiring (s : State) (n sl : Nat) (f : Firing) (a : Nat) : (s.setFiring n sl f).getB a = s.getB a := rfl
@[simp] theorem getB_setCore (s : State) (n : Nat) (c : Core) (a : Nat) : (s.setCore n c).getB a = s.getB a := rfl

end Sys2Proof.Laws
end

