-- ==== Sys2Proof/Laws/Bytes.lean ====
section
/-! SUPPORT. Little-endian bytes: a value from its bytes, and words in memory and scratchpad read back after a write. -/

namespace Sys2Proof.Laws
open Sys2Proof Sys2Proof.Machine

@[simp] theorem bytesLE_length {w : Nat} (n : Nat) (x : BitVec w) : (bytesLE n x).length = n := by simp [bytesLE]

theorem bytesLE_getElem {w n i : Nat} (x : BitVec w) (h : i < (bytesLE n x).length) : (bytesLE n x)[i] = byteOf x i := by
  simp [bytesLE]

/-- The bytes of a value in base 256. -/
theorem natOfLE_bytesLE {w : Nat} (n : Nat) (x : BitVec w) : natOfLE (bytesLE n x) = x.toNat % 2 ^ (8 * n) := by
  have key : ∀ n k, natOfLE ((List.range' k n).map (byteOf x)) = x.toNat / 2 ^ (8 * k) % 2 ^ (8 * n) := by
    intro n
    induction n with
    | zero => intro k; simp [natOfLE, Nat.mod_one]
    | succ n ih =>
      intro k
      rw [List.range'_succ, List.map_cons, natOfLE, ih (k + 1)]
      have e1 : (byteOf x k).toNat = x.toNat / 2 ^ (8 * k) % 256 := by
        simp [byteOf, Nat.shiftRight_eq_div_pow]
      have e2 : x.toNat / 2 ^ (8 * (k + 1)) = x.toNat / 2 ^ (8 * k) / 256 := by
        rw [Nat.div_div_eq_div_mul, ← show (2 : Nat) ^ 8 = 256 from rfl, ← Nat.pow_add]
        congr 1
      have e3 : (2 : Nat) ^ (8 * (n + 1)) = 256 * 2 ^ (8 * n) := by
        rw [show 8 * (n + 1) = 8 + 8 * n by omega, Nat.pow_add]
      rw [e1, e2, e3, Nat.mod_mul]
  have := key n 0
  rw [← List.range_eq_range'] at this
  simpa [bytesLE] using this

@[simp] theorem w64OfLE_bytesLE (x : W64) : w64OfLE (bytesLE 8 x) = x := by
  apply BitVec.eq_of_toNat_eq
  have := x.isLt
  simp only [w64OfLE, BitVec.toNat_ofNat, natOfLE_bytesLE]
  omega

@[simp] theorem w32OfLE_bytesLE (x : W32) : w32OfLE (bytesLE 4 x) = x := by
  apply BitVec.eq_of_toNat_eq
  have := x.isLt
  simp only [w32OfLE, BitVec.toNat_ofNat, natOfLE_bytesLE]
  omega

@[simp] theorem leN_length (n x : Nat) : (leN n x).length = n := by simp [leN]

theorem natOfLE_leN (n x : Nat) : natOfLE (leN n x) = x % 2 ^ (8 * n) := by
  unfold leN
  rw [natOfLE_bytesLE]
  simp

@[simp] theorem padTo_length (n : Nat) (bs : List Byte) : (padTo n bs).length = n := by simp [padTo]

/-! ## Bytes written read back -/

@[simp] theorem getBs_length (s : State) (k n : Nat) : (s.getBs k n).length = n := by simp [State.getBs]
@[simp] theorem coreGetBs_length (c : Core) (k n : Nat) : (c.getBs k n).length = n := by simp [Core.getBs]

theorem getBs_putBs_same (s : State) (k : Nat) (bs : List Byte) : (s.putBs k bs).getBs k bs.length = bs := by
  apply List.ext_getElem (by simp)
  intro i h1 h2
  simpa [State.getBs] using getB_putBs_same h2

theorem getBs_putBs_other {s : State} {k a n : Nat} {bs : List Byte} (h : a + n ≤ k ∨ k + bs.length ≤ a) :
    (s.putBs k bs).getBs a n = s.getBs a n := by
  refine List.map_congr_left fun i hi => ?_
  have := List.mem_range.mp hi
  exact getB_putBs_other (by omega)

@[simp] theorem getW_putW_same (s : State) (k : Nat) (x : W64) : (s.putW k x).getW k = x := by
  have := getBs_putBs_same s k (bytesLE 8 x)
  rw [bytesLE_length] at this
  simp [State.getW, State.putW, this]

theorem getW_putW_other {s : State} {k a : Nat} {x : W64} (h : a + 8 ≤ k ∨ k + 8 ≤ a) : (s.putW k x).getW a = s.getW a := by
  unfold State.getW State.putW
  rw [getBs_putBs_other (by simpa using h)]

/-- A scratchpad byte written reads back. -/
theorem coreGetB_putBs_same {c : Core} {k i : Nat} {bs : List Byte} (h : i < bs.length) :
    (c.putBs k bs).getB (k + i) = bs[i] :=
  getB_putBs_same (s := { State.reset with mem := c.spad }) h

theorem coreGetBs_putBs_same (c : Core) (k : Nat) (bs : List Byte) : (c.putBs k bs).getBs k bs.length = bs := by
  apply List.ext_getElem (by simp)
  intro i h1 h2
  simpa [Core.getBs] using coreGetB_putBs_same h2

theorem coreGetBs_putBs_other {c : Core} {k a n : Nat} {bs : List Byte} (h : a + n ≤ k ∨ k + bs.length ≤ a) :
    (c.putBs k bs).getBs a n = c.getBs a n := by
  refine List.map_congr_left fun i hi => ?_
  have := List.mem_range.mp hi
  exact coreGetB_putBs_other (by omega)

@[simp] theorem coreGetW_putW_same (c : Core) (k : Nat) (x : W64) : (c.putW k x).getW k = x := by
  have := coreGetBs_putBs_same c k (bytesLE 8 x)
  rw [bytesLE_length] at this
  simp [Core.getW, Core.putW, this]

theorem coreGetW_putW_other {c : Core} {k a : Nat} {x : W64} (h : a + 8 ≤ k ∨ k + 8 ≤ a) : (c.putW k x).getW a = c.getW a := by
  unfold Core.getW Core.putW
  rw [coreGetBs_putBs_other (by simpa using h)]

theorem coreGetW_putBs_other {c : Core} {k a : Nat} {bs : List Byte} (h : a + 8 ≤ k ∨ k + bs.length ≤ a) :
    (c.putBs k bs).getW a = c.getW a := by
  unfold Core.getW
  rw [coreGetBs_putBs_other h]

/-- Scratchpad writes keep the canonical form, and change nothing else of the core. -/
theorem wf_corePutBs {c : Core} (k : Nat) (bs : List Byte) (h : spWf (0 : Byte) c.spad = true) :
    spWf (0 : Byte) (c.putBs k bs).spad = true :=
  spWf_foldl (fun e : Byte × Nat => k + e.2) (fun e => e.1) bs.zipIdx c.spad h

theorem corePutBs_eq (c : Core) (k : Nat) (bs : List Byte) : ∃ m, c.putBs k bs = { c with spad := m } := ⟨_, rfl⟩

end Sys2Proof.Laws
end

