-- ==== Sys2Proof/Laws/Codec.lean ====
section
/-! SUPPORT. What the decoder's field readers give on the encoder's fields: one lemma a reader. -/

namespace Sys2Proof.Laws
open Sys2Proof Sys2Proof.Machine

/-! ## Bit fields -/

theorem extract_hi {a b : Nat} (x : BitVec a) (y : BitVec b) : (x ++ y).extractLsb' b a = x := by
  apply BitVec.eq_of_getLsbD_eq; intro i hi
  simp [BitVec.getLsbD_append, hi]

theorem extract_lo {a b : Nat} (x : BitVec a) (y : BitVec b) : (x ++ y).extractLsb' 0 b = y := by
  apply BitVec.eq_of_getLsbD_eq; intro i hi
  simp [BitVec.getLsbD_append, hi]

theorem i17_back (i : BitVec 17) : (mI17 i ++ sbI17 i : BitVec 17) = i := by
  apply BitVec.eq_of_getLsbD_eq; intro j hj
  show ((mI17 i ++ sbI17 i : BitVec (8 + 9))).getLsbD j = _
  rw [BitVec.getLsbD_append]
  simp only [mI17, sbI17]
  split
  · simp [*]
  · rw [BitVec.getLsbD_extractLsb', decide_eq_true (by omega), Bool.true_and]; congr 1; omega

/-- A value widened to 23 bits reads back, and nothing lies above it. -/
theorem wide_lo {n w : Nat} (x : BitVec n) (h : n ≤ w) : (x.setWidth w).extractLsb' 0 n = x := by
  apply BitVec.eq_of_getLsbD_eq; intro i hi
  simp [hi, show i < w by omega]

theorem wide_hi {n w l : Nat} (x : BitVec n) : (x.setWidth w).extractLsb' n l = 0 := by
  apply BitVec.eq_of_getLsbD_eq; intro i hi
  simp

/-! ## Operand codes -/

@[simp] theorem parseS_encS (a : SSrc) : parseS (encS a) = some a := by
  cases a with
  | reg r =>
    have h := r.isLt
    simp [encS, parseS, Nat.mod_eq_of_lt (show r.toNat < 512 by omega)]
    omega
  | ls i => revert i; decide
  | lv i => revert i; decide
  | const i => revert i; decide

theorem parseL_encL (a : LSrc) : parseL (selL a) (encL a) = some a := by
  cases a with
  | reg v =>
    have h := v.isLt
    simp [encL, selL, parseL, Nat.mod_eq_of_lt (show v.toNat < 512 by omega)]
    omega
  | ls i => revert i; decide
  | lv i => revert i; decide
  | const i => revert i; decide
  | sreg r =>
    have h := r.isLt
    simp [encL, selL, parseL, Nat.mod_eq_of_lt (show r.toNat < 512 by omega)]
    omega

theorem parseL_laneA {a : LSrc} (h : laneA a = true) : parseL false (encL a) = some a := by
  have := parseL_encL a
  cases a <;> simp_all [selL, laneA]

@[simp] theorem parseV_wide (v : BitVec 8) : parseV (v.setWidth 9) = some v := by
  have h := v.isLt
  simp [parseV]; omega

@[simp] theorem parseR_wide (v : BitVec 6) : parseR (v.setWidth 9) = some v := by
  have h := v.isLt
  simp [parseR]; omega

@[simp] theorem parseHid_encHid (x : HidOp) : parseHid (encHid x) = some x := by
  cases x with
  | num h => have := h.isLt; simp [encHid, parseHid]
  | reg r => revert r; decide

@[simp] theorem parseSat_encSat (x : Sat) : parseSat (encSat x) = some x := by cases x <;> rfl

theorem parse2_bit (w : Bool) : parse2 ((0 : BitVec 1) ++ b1 w) = some w := by cases w <;> rfl

/-! ## Readers of fields -/

variable (h : Head) (op : BitVec 9) (len : Len) (d : BitVec 8) (sa sb : BitVec 9) (m : BitVec 8) (w2 w3 : W32)

@[simp] theorem mkF_m : (mkF h op len d sa sb m w2 w3).m = m := rfl
@[simp] theorem mkF_d : (mkF h op len d sa sb m w2 w3).d = d := rfl
@[simp] theorem mkF_sa : (mkF h op len d sa sb m w2 w3).sa = sa := rfl
@[simp] theorem mkF_sb : (mkF h op len d sa sb m w2 w3).sb = sb := rfl
@[simp] theorem mkF_w2 : (mkF h op len d sa sb m w2 w3).w2 = w2 := rfl
@[simp] theorem mkF_w3 : (mkF h op len d sa sb m w2 w3).w3 = w3 := rfl
@[simp] theorem mkF_len : (mkF h op len d sa sb m w2 w3).len = len := rfl
@[simp] theorem mkF_op : (mkF h op len d sa sb m w2 w3).op = op := rfl
@[simp] theorem mkF_nw : (mkF h op len d sa sb m w2 w3).nw = h.nw := rfl
@[simp] theorem headOf_mkF : headOf (mkF h op len d sa sb m w2 w3) = h := rfl
@[simp] theorem chk_true : chk true = some () := rfl
@[simp] theorem isA64_mkF : isA64 (mkF h op .l64 d sa sb m w2 w3) = some () := rfl
@[simp] theorem isJ96_mkF : isJ96 (mkF h op .l96 d sa sb m w2 w3) = some () := rfl
@[simp] theorem i17Of_mkF (i : BitVec 17) : i17Of (mkF h op len d sa (sbI17 i) (mI17 i) w2 w3) = i := i17_back i

@[simp] theorem eOf_mkF (e : BitVec 23) (sc : BitVec 9) : eOf (mkF h op len d sa sb m (wSE e sc) w3) = e :=
  extract_hi e sc
@[simp] theorem scOf_mkF (e : BitVec 23) (sc : BitVec 9) : scOf (mkF h op len d sa sb m (wSE e sc) w3) = sc :=
  extract_lo e sc
@[simp] theorem eOf_zero : eOf (mkF h op len d sa sb m 0 w3) = 0 := by simp [eOf]
@[simp] theorem scOf_zero : scOf (mkF h op len d sa sb m 0 w3) = 0 := by simp [scOf]

theorem d6_back (x : BitVec 6) : (d6 x).toNat < 64 ∧ (d6 x).setWidth 6 = x := by
  have := x.isLt
  constructor
  · simp [d6]; omega
  · simp [d6]

theorem destS_mkF (x : BitVec 6) (hx : nwD h x = true) : destS (mkF h op len (d6 x) sa sb m w2 w3) = some x := by
  have := d6_back x
  unfold destS
  by_cases hn : h.nw = true
  · simp_all [nwD]
  · simp_all [nwD]

@[simp] theorem dReg_mkF (x : BitVec 6) : dReg (mkF h op len (d6 x) sa sb m w2 w3) = some x := by
  have := d6_back x
  simp_all [dReg]

theorem destV_mkF (hx : nwD h d = true) : destV (mkF h op len d sa sb m w2 w3) = d := by
  unfold destV
  by_cases hn : h.nw = true <;> simp_all [nwD]

@[simp] theorem srcBS_mkF (b : SSrcI) : srcBS (mkF h op (lenB b) d sa (sbB b) m (immB b) w3) = some b := by
  cases b <;> simp [srcBS, lenB, sbB, immB]

theorem srcBL_mkF (b : LSrcI) (hm : m.getLsbD 7 = (selBL b).getLsbD 0) :
    srcBL (mkF h op (lenBL b) d sa (sbBL b) m (immBL b) w3) = some b := by
  cases b with
  | imm i =>
    have h7 : m.getLsbD 7 = false := by simpa [selBL] using hm
    simp only [srcBL, lenBL, sbBL, immBL, mkF_len, mkF_sb, mkF_m, mkF_w2, h7]; rfl
  | src b =>
    have := parseL_encL b
    cases hs : selL b <;> simp_all [srcBL, lenBL, sbBL, selBL, b1]

@[simp] theorem parseDisp_mkF (i : Option W32) : parseDisp (mkF h op (lenDisp i) d sa sb m (i.getD 0) w3) = some i := by
  cases i <;> simp [parseDisp, lenDisp]

@[simp] theorem parseImm_fImm (i : Imm) : parseImm (fImm h op d sa i) = some i := by
  cases i <;> simp [parseImm, fImm]

end Sys2Proof.Laws
end

