-- ==== Sys2Proof/Laws/CodecRecords.lean ====
section
/-! SUPPORT. For each record of operands: the reader of its form gives it back from the fields the encoder makes of it. -/

namespace Sys2Proof.Laws
open Sys2Proof Sys2Proof.Machine

/-! ## Modifier bytes -/

theorem mAlu {m : BitVec 8} (s : Sat) (w : Bool) (hm : m = (0 : BitVec 4) ++ encSat s ++ (0 : BitVec 1) ++ b1 w) :
    m.extractLsb' 4 4 = 0 ∧ m.extractLsb' 2 2 = encSat s ∧ m.extractLsb' 0 2 = (0 : BitVec 1) ++ b1 w := by
  subst hm; cases s <;> cases w <;> decide

theorem mLea {m : BitVec 8} (k : BitVec 3) (p : BitVec 5) (hm : m = p ++ k) :
    m.extractLsb' 4 4 = p.extractLsb' 1 4 ∧ m.getLsbD 3 = p.getLsbD 0 ∧ m.extractLsb' 0 3 = k := by
  subst hm; revert k p; decide

theorem mSel {m : BitVec 8} (k : BitVec 3) (n : Bool) (hm : m = (0 : BitVec 4) ++ b1 n ++ k) :
    m.extractLsb' 4 4 = 0 ∧ m.getLsbD 3 = n ∧ m.extractLsb' 0 3 = k := by
  subst hm; revert k n; decide

theorem mCmp {m : BitVec 8} (x : BitVec 2) (c : BitVec 4) (t : Bool) (hm : m = (0 : BitVec 1) ++ x ++ c ++ b1 t) :
    m.getLsbD 7 = false ∧ m.extractLsb' 5 2 = x ∧ m.extractLsb' 1 4 = c ∧ m.getLsbD 0 = t := by
  subst hm; revert x c t; decide

theorem mVCmp {m : BitVec 8} (s : BitVec 1) (x : BitVec 2) (c : BitVec 4) (t : Bool) (hm : m = s ++ x ++ c ++ b1 t) :
    m.getLsbD 7 = s.getLsbD 0 ∧ m.extractLsb' 5 2 = x ∧ m.extractLsb' 1 4 = c ∧ m.getLsbD 0 = t := by
  subst hm; revert s x c t; decide

theorem mF {m : BitVec 8} (x rm : BitVec 2) (z : Bool) (hm : m = (0 : BitVec 1) ++ x ++ b1 z ++ rm ++ (1 : BitVec 2)) :
    m.extractLsb' 5 2 = x ∧ m.getLsbD 4 = z ∧ m.extractLsb' 2 2 = rm ∧ m.extractLsb' 0 2 = 1 ∧ m.getLsbD 7 = false := by
  subst hm; revert x rm z; decide

theorem mVF {m : BitVec 8} (s : BitVec 1) (x rm t : BitVec 2) (z : Bool) (hm : m = s ++ x ++ b1 z ++ rm ++ t) :
    m.extractLsb' 5 2 = x ∧ m.getLsbD 4 = z ∧ m.extractLsb' 2 2 = rm ∧ m.extractLsb' 0 2 = t ∧ m.getLsbD 7 = s.getLsbD 0 := by
  subst hm; revert s x rm t z; decide

theorem mCpys {m : BitVec 8} (x : BitVec 2) (hm : m = (0 : BitVec 1) ++ x ++ (1 : BitVec 5)) :
    m.extractLsb' 5 2 = x ∧ m.extractLsb' 0 5 = 1 ∧ m.getLsbD 7 = false := by
  subst hm; revert x; decide

theorem mCvt {m : BitVec 8} (l : BitVec 3) (z t : Bool) (rm : BitVec 2) (hm : m = l ++ b1 z ++ rm ++ b1 t ++ (0 : BitVec 1)) :
    m.extractLsb' 5 2 = l.extractLsb' 0 2 ∧ m.getLsbD 0 = false ∧ m.getLsbD 7 = l.getLsbD 2 ∧ m.getLsbD 4 = z ∧ m.extractLsb' 2 2 = rm ∧ m.getLsbD 1 = t := by
  subst hm; revert l z t rm; decide

theorem mPack {m : BitVec 8} (s : BitVec 1) (x : BitVec 3) (rm p : BitVec 2) (hm : m = s ++ x ++ rm ++ p) :
    m.getLsbD 7 = s.getLsbD 0 ∧ m.extractLsb' 4 3 = x ∧ m.extractLsb' 2 2 = rm ∧ m.extractLsb' 0 2 = p := by
  subst hm; revert s x rm p; decide

theorem mEf {m : BitVec 8} (x : BitVec 3) (g : BitVec 2) (hm : m = (0 : BitVec 1) ++ x ++ g ++ (0 : BitVec 2)) :
    m.getLsbD 7 = false ∧ m.extractLsb' 0 2 = 0 ∧ m.extractLsb' 4 3 = x ∧ m.extractLsb' 2 2 = g := by
  subst hm; revert x g; decide

theorem mVInt {m : BitVec 8} (s : BitVec 1) (t : Sat) (u p : Bool) (hm : m = s ++ encSat t ++ b1 u ++ (0 : BitVec 1) ++ b1 p ++ (0 : BitVec 2)) :
    m.extractLsb' 0 2 = 0 ∧ m.extractLsb' 5 2 = encSat t ∧ m.getLsbD 4 = u ∧ m.extractLsb' 2 2 = (0 : BitVec 1) ++ b1 p ∧ m.getLsbD 7 = s.getLsbD 0 := by
  subst hm; cases t <;> revert s u p <;> decide

theorem mSel7 {m : BitVec 8} (s : BitVec 1) (hm : m = s ++ (0 : BitVec 7)) :
    m.extractLsb' 0 7 = 0 ∧ m.getLsbD 7 = s.getLsbD 0 := by
  subst hm; revert s; decide

theorem mVSel {m : BitVec 8} (s : BitVec 1) (q : BitVec 3) (n : Bool) (hm : m = s ++ q ++ b1 n ++ (0 : BitVec 3)) :
    m.extractLsb' 0 3 = 0 ∧ m.extractLsb' 4 3 = q ∧ m.getLsbD 3 = n ∧ m.getLsbD 7 = s.getLsbD 0 := by
  subst hm; revert s q n; decide

theorem mIdx {m : BitVec 8} (l : BitVec 1) (x : Bool) (hm : m = l ++ (((0 : BitVec 2) ++ b1 x ++ (0 : BitVec 4) : BitVec 7))) :
    m.getLsbD 7 = l.getLsbD 0 ∧ m.extractLsb' 0 4 = 0 ∧ m.extractLsb' 5 2 = 0 ∧ m.getLsbD 4 = x := by
  subst hm; revert l x; decide

theorem mIdx0 {m : BitVec 8} (l : BitVec 1) (hm : m = l ++ (0 : BitVec 7)) :
    m.getLsbD 7 = l.getLsbD 0 ∧ m.extractLsb' 0 7 = 0 := by
  subst hm; revert l; decide

theorem mVotP {m : BitVec 8} (s : Bool) (k : BitVec 2) (hm : m = b1 s ++ (0 : BitVec 2) ++ (1 : BitVec 1) ++ (0 : BitVec 2) ++ k) :
    m.getLsbD 4 = true ∧ m.getLsbD 7 = s ∧ m.extractLsb' 5 2 = 0 ∧ m.extractLsb' 2 2 = 0 ∧ m.extractLsb' 0 2 = k := by
  subst hm; revert s k; decide

theorem mVotV {m : BitVec 8} (s : Bool) (k : BitVec 2) (hm : m = b1 s ++ (0 : BitVec 5) ++ k) :
    m.getLsbD 4 = false ∧ m.getLsbD 7 = s ∧ m.extractLsb' 5 2 = 0 ∧ m.extractLsb' 2 2 = 0 ∧ m.extractLsb' 0 2 = k := by
  subst hm; revert s k; decide

theorem mVotI {m : BitVec 8} (k : BitVec 2) (hm : m = (0 : BitVec 6) ++ k) :
    m.getLsbD 4 = false ∧ m.getLsbD 7 = false ∧ m.extractLsb' 5 2 = 0 ∧ m.extractLsb' 2 2 = 0 ∧ m.extractLsb' 0 2 = k := by
  subst hm; revert k; decide

theorem mShfl {m : BitVec 8} (s : BitVec 1) (w : BitVec 3) (x : BitVec 2) (hm : m = s ++ (0 : BitVec 2) ++ w ++ x) :
    m.extractLsb' 5 2 = 0 ∧ m.extractLsb' 2 3 = w ∧ m.extractLsb' 0 2 = x ∧ m.getLsbD 7 = s.getLsbD 0 := by
  subst hm; revert s w x; decide

theorem mWred {m : BitVec 8} (w : BitVec 3) (x : BitVec 4) (hm : m = (0 : BitVec 1) ++ w ++ x) :
    m.getLsbD 7 = false ∧ m.extractLsb' 4 3 = w ∧ m.extractLsb' 0 4 = x := by
  subst hm; revert w x; decide

theorem mLow3 {m : BitVec 8} (x : BitVec 3) (hm : m = (0 : BitVec 5) ++ x) :
    m.extractLsb' 3 5 = 0 ∧ m.extractLsb' 0 3 = x := by
  subst hm; revert x; decide

theorem mMma {m : BitVec 8} (i : Bool) (x y : BitVec 3) (hm : m = (0 : BitVec 1) ++ b1 i ++ x ++ y) :
    m.getLsbD 7 = false ∧ m.getLsbD 6 = i ∧ m.extractLsb' 3 3 = x ∧ m.extractLsb' 0 3 = y := by
  subst hm; revert i x y; decide

theorem mBit {m : BitVec 8} (i : Bool) (hm : m = (0 : BitVec 7) ++ b1 i) :
    m.extractLsb' 1 7 = 0 ∧ m.getLsbD 0 = i := by
  subst hm; revert i; decide

theorem mHi3 {m : BitVec 8} (x : BitVec 3) (hm : m = (0 : BitVec 1) ++ x ++ (0 : BitVec 4)) :
    m.getLsbD 7 = false ∧ m.extractLsb' 0 4 = 0 ∧ m.extractLsb' 4 3 = x := by
  subst hm; revert x; decide

theorem mLow2 {m : BitVec 8} (x : BitVec 2) (hm : m = (0 : BitVec 6) ++ x) :
    m.extractLsb' 2 6 = 0 ∧ m.extractLsb' 0 2 = x := by
  subst hm; revert x; decide

theorem mMemI {m : BitVec 8} (x g s : Bool) (z : BitVec 3) (hm : m = (0 : BitVec 1) ++ b1 s ++ b1 g ++ b1 x ++ (0 : BitVec 1) ++ z) :
    m.getLsbD 7 = false ∧ m.getLsbD 3 = false ∧ m.getLsbD 4 = x ∧ m.getLsbD 6 = s ∧ m.getLsbD 5 = g ∧ m.extractLsb' 0 3 = z := by
  subst hm; revert x g s z; decide

theorem mMemD {m : BitVec 8} (g s : Bool) (z : BitVec 3) (hm : m = (0 : BitVec 1) ++ b1 s ++ b1 g ++ (0 : BitVec 2) ++ z) :
    m.getLsbD 7 = false ∧ m.getLsbD 3 = false ∧ m.getLsbD 4 = false ∧ m.getLsbD 6 = s ∧ m.getLsbD 5 = g ∧ m.extractLsb' 0 3 = z := by
  subst hm; revert g s z; decide

theorem mXMem {m : BitVec 8} (x s : Bool) (z : BitVec 3) (hm : m = (0 : BitVec 1) ++ b1 s ++ (0 : BitVec 1) ++ b1 x ++ (0 : BitVec 1) ++ z) :
    m.getLsbD 7 = false ∧ m.getLsbD 3 = false ∧ m.getLsbD 5 = false ∧ m.getLsbD 4 = x ∧ m.getLsbD 6 = s ∧ m.extractLsb' 0 3 = z := by
  subst hm; revert x s z; decide

theorem mPrefI {m : BitVec 8} (x l : Bool) (hm : m = (0 : BitVec 3) ++ b1 x ++ b1 l ++ (0 : BitVec 3)) :
    m.extractLsb' 5 3 = 0 ∧ m.extractLsb' 0 3 = 0 ∧ m.getLsbD 4 = x ∧ m.getLsbD 3 = l := by
  subst hm; revert x l; decide

theorem mPrefD {m : BitVec 8} (l : Bool) (hm : m = (0 : BitVec 4) ++ b1 l ++ (0 : BitVec 3)) :
    m.extractLsb' 5 3 = 0 ∧ m.extractLsb' 0 3 = 0 ∧ m.getLsbD 4 = false ∧ m.getLsbD 3 = l := by
  subst hm; revert l; decide

theorem mVMem {m : BitVec 8} (b x g s : Bool) (z : BitVec 3) (hm : m = b1 b ++ b1 s ++ b1 g ++ b1 x ++ (0 : BitVec 1) ++ z) :
    m.getLsbD 7 = b ∧ m.getLsbD 3 = false ∧ m.getLsbD 4 = x ∧ m.getLsbD 6 = s ∧ m.getLsbD 5 = g ∧ m.extractLsb' 0 3 = z := by
  subst hm; revert b x g s z; decide

theorem mAtomic {m : BitVec 8} (nz u z : Bool) (p : BitVec 3) (hm : m = mAtom nz p u z) :
    m.extractLsb' 5 3 = (bif nz then 2 else 0) ∧ m.getLsbD 6 = nz ∧ m.extractLsb' 1 3 = p ∧ m.getLsbD 4 = u ∧ m.getLsbD 0 = z := by
  subst hm; revert nz u z p; decide

theorem mVatom {m : BitVec 8} (s l u : Bool) (p : BitVec 3) (hm : m = b1 s ++ (0 : BitVec 1) ++ b1 l ++ b1 u ++ p ++ (0 : BitVec 1)) :
    m.getLsbD 7 = s ∧ m.getLsbD 6 = false ∧ m.getLsbD 0 = false ∧ m.getLsbD 5 = l ∧ m.extractLsb' 1 3 = p ∧ m.getLsbD 4 = u := by
  subst hm; revert s l u p; decide

theorem mSend {m : BitVec 8} (s : BitVec 1) (n : BitVec 4) (c : BitVec 3) (hm : m = s ++ n ++ c) :
    m.getLsbD 7 = s.getLsbD 0 ∧ m.extractLsb' 3 4 = n ∧ m.extractLsb' 0 3 = c := by
  subst hm; revert s n c; decide

theorem mLow4 {m : BitVec 8} (g : BitVec 4) (hm : m = (0 : BitVec 4) ++ g) :
    m.extractLsb' 4 4 = 0 ∧ m.extractLsb' 0 4 = g := by
  subst hm; revert g; decide

theorem mReq {m : BitVec 8} (q : BitVec 3) (g : BitVec 4) (hm : m = (0 : BitVec 1) ++ q ++ g) :
    m.getLsbD 7 = false ∧ m.extractLsb' 0 4 = g ∧ m.extractLsb' 4 3 = q := by
  subst hm; revert q g; decide

theorem mBlk {m : BitVec 8} (n : Bool) (c : BitVec 2) (hm : m = (0 : BitVec 1) ++ b1 n ++ (0 : BitVec 4) ++ c) :
    m.getLsbD 7 = false ∧ m.getLsbD 6 = n ∧ m.extractLsb' 2 4 = 0 ∧ m.extractLsb' 0 2 = c := by
  subst hm; revert n c; decide

theorem mBcopy {m : BitVec 8} (n : Bool) (s d c : BitVec 2) (hm : m = (0 : BitVec 1) ++ b1 n ++ s ++ d ++ c) :
    m.getLsbD 7 = false ∧ m.getLsbD 6 = n ∧ m.extractLsb' 0 2 = c ∧ m.extractLsb' 2 2 = d ∧ m.extractLsb' 4 2 = s := by
  subst hm; revert n s d c; decide

theorem mTl {m : BitVec 8} (k c : BitVec 2) (hm : m = (0 : BitVec 4) ++ k ++ c) :
    m.extractLsb' 4 4 = 0 ∧ m.extractLsb' 2 2 = k ∧ m.extractLsb' 0 2 = c := by
  subst hm; revert k c; decide

theorem mFin {m : BitVec 8} (k : BitVec 3) (w : BitVec 4) (hm : m = (0 : BitVec 1) ++ k ++ w) :
    m.getLsbD 7 = false ∧ m.extractLsb' 1 3 = w.extractLsb' 1 3 ∧ m.getLsbD 0 = w.getLsbD 0 ∧ m.extractLsb' 4 3 = k := by
  subst hm; revert k w; decide

theorem mQ {m : BitVec 8} (q : BitVec 3) (k : BitVec 2) (hm : m = (0 : BitVec 3) ++ q ++ k) :
    m.extractLsb' 5 3 = 0 ∧ m.extractLsb' 2 3 = q ∧ m.extractLsb' 0 2 = k := by
  subst hm; revert q k; decide

/-! ## Records -/

theorem dPair6 (x y : BitVec 3) : ((0 : BitVec 2) ++ x ++ y : BitVec 8).extractLsb' 6 2 = 0 := by revert x y; decide
theorem dPair0 (x y : BitVec 3) : ((0 : BitVec 2) ++ x ++ y : BitVec 8).extractLsb' 0 3 = y := by revert x y; decide
theorem dPair3 (x y : BitVec 3) : ((0 : BitVec 2) ++ x ++ y : BitVec 8).extractLsb' 3 3 = x := by revert x y; decide
theorem saTri (x y z : BitVec 3) : (x ++ y ++ z : BitVec 9).extractLsb' 0 3 = z ∧ (x ++ y ++ z : BitVec 9).extractLsb' 3 3 = y ∧
    (x ++ y ++ z : BitVec 9).extractLsb' 6 3 = x := by revert x y z; decide
theorem sbCvt (s d : BitVec 4) : ((0 : BitVec 1) ++ s ++ d : BitVec 9).getLsbD 8 = false ∧
    ((0 : BitVec 1) ++ s ++ d : BitVec 9).extractLsb' 0 4 = d ∧ ((0 : BitVec 1) ++ s ++ d : BitVec 9).extractLsb' 4 4 = s := by
  revert s d; decide
theorem eSel0 (c : LSrc) : (eSel c).extractLsb' 0 22 = 0 := by
  unfold eSel; cases selL c <;> decide
theorem eSel22 (c : LSrc) : (eSel c).getLsbD 22 = selL c := by
  unfold eSel; cases selL c <;> decide
theorem extract_mid {a b c : Nat} (x : BitVec a) (y : BitVec b) (z : BitVec c) : (x ++ y ++ z).extractLsb' c b = y := by
  apply BitVec.eq_of_getLsbD_eq; intro i hi
  simp [BitVec.getLsbD_append, hi]
theorem i17Pset (l : Bool) (v m : BitVec 8) : (b1 l ++ v ++ m : BitVec 17).getLsbD 16 = l ∧
    (b1 l ++ v ++ m : BitVec 17).extractLsb' 0 8 = m ∧ (b1 l ++ v ++ m : BitVec 17).extractLsb' 8 8 = v := by
  refine ⟨?_, extract_lo (b1 l ++ v) m, extract_mid (b1 l) v m⟩
  show (b1 l ++ v ++ m : BitVec (1 + 8 + 8)).getLsbD 16 = l
  simp only [BitVec.getLsbD_append]; simp [b1]
theorem i17Plop (l : Bool) (t : BitVec 8) :
    ((b1 l ++ (0 : BitVec 7) : BitVec 8) ++ t.setWidth 9 : BitVec 17).getLsbD 16 = l ∧
    ((b1 l ++ (0 : BitVec 7) : BitVec 8) ++ t.setWidth 9 : BitVec 17).extractLsb' 8 8 = 0 ∧
    ((b1 l ++ (0 : BitVec 7) : BitVec 8) ++ t.setWidth 9 : BitVec 17).extractLsb' 0 8 = t := by
  revert l t; decide
theorem i17Code (t : BitVec 8) : ((0 : BitVec 8) ++ t.setWidth 9 : BitVec 17).extractLsb' 8 9 = 0 ∧
    ((0 : BitVec 8) ++ t.setWidth 9 : BitVec 17).extractLsb' 0 8 = t := by revert t; decide
theorem fImm_d (h : Head) (op : BitVec 9) (d : BitVec 8) (sa : BitVec 9) (i : Imm) : (fImm h op d sa i).d = d := by cases i <;> rfl
theorem fImm_sa (h : Head) (op : BitVec 9) (d : BitVec 8) (sa : BitVec 9) (i : Imm) : (fImm h op d sa i).sa = sa := by cases i <;> rfl
theorem fImm_op (h : Head) (op : BitVec 9) (d : BitVec 8) (sa : BitVec 9) (i : Imm) : (fImm h op d sa i).op = op := by cases i <;> rfl
theorem headOf_fImm (h : Head) (op : BitVec 9) (d : BitVec 8) (sa : BitVec 9) (i : Imm) : headOf (fImm h op d sa i) = h := by
  cases i <;> rfl
theorem dReg_fImm (h : Head) (op : BitVec 9) (d : BitVec 6) (sa : BitVec 9) (i : Imm) : dReg (fImm h op (d6 d) sa i) = some d := by
  cases i <;> simp [fImm]
theorem dLow3 (x : BitVec 3) : (x.setWidth 8).extractLsb' 3 5 = 0 ∧ (x.setWidth 8).extractLsb' 0 3 = x := by revert x; decide
theorem mQtov {m : BitVec 8} (s : Bool) (hm : m = b1 s ++ (0 : BitVec 7)) :
    m.extractLsb' 1 6 = 0 ∧ m.getLsbD 0 = false ∧ m.getLsbD 7 = s := by subst hm; revert s; decide
theorem mVtoq {m : BitVec 8} (s : BitVec 1) (hm : m = s ++ (1 : BitVec 7)) :
    m.extractLsb' 1 6 = 0 ∧ m.getLsbD 0 = true ∧ m.getLsbD 7 = s.getLsbD 0 := by subst hm; revert s; decide
theorem b1_bit (b : Bool) : (b1 b).getLsbD 0 = b := by cases b <;> rfl
theorem eResid (v : BitVec 8) : ((0 : BitVec 14) ++ (1 : BitVec 1) ++ v : BitVec 23).extractLsb' 9 14 = 0 ∧
    ((0 : BitVec 14) ++ (1 : BitVec 1) ++ v : BitVec 23).getLsbD 8 = true ∧
    ((0 : BitVec 14) ++ (1 : BitVec 1) ++ v : BitVec 23).extractLsb' 0 8 = v := by revert v; decide
theorem i17Pri (x : BitVec 3) : ((0 : BitVec 8) ++ x.setWidth 9 : BitVec 17).extractLsb' 3 14 = 0 ∧
    ((0 : BitVec 8) ++ x.setWidth 9 : BitVec 17).extractLsb' 0 3 = x := by revert x; decide
theorem mVMad {m : BitVec 8} (s : BitVec 1) (t : Sat) (p : Bool)
    (hm : m = s ++ encSat t ++ (0 : BitVec 2) ++ b1 p ++ (0 : BitVec 2)) :
    m.getLsbD 7 = s.getLsbD 0 ∧ m.extractLsb' 5 2 = encSat t ∧ m.getLsbD 4 = false ∧ m.extractLsb' 0 2 = 0 ∧
    m.extractLsb' 2 2 = (0 : BitVec 1) ++ b1 p := by
  subst hm; cases t <;> revert s p <;> decide
theorem wide_lo5 (x : BitVec 5) : (x.setWidth 32).extractLsb' 0 5 = x := by revert x; decide
theorem wide_hi5 (x : BitVec 5) : (x.setWidth 32).extractLsb' 5 27 = 0 := by revert x; decide
theorem saLow3 (x : BitVec 3) : (x.setWidth 9).extractLsb' 3 6 = 0 ∧ (x.setWidth 9).extractLsb' 0 3 = x := by revert x; decide
theorem eMmaq (z : BitVec 2) (b : BitVec 8) : ((0 : BitVec 13) ++ z ++ b : BitVec 23).extractLsb' 10 13 = 0 ∧
    ((0 : BitVec 13) ++ z ++ b : BitVec 23).extractLsb' 0 8 = b ∧ ((0 : BitVec 13) ++ z ++ b : BitVec 23).extractLsb' 8 2 = z := by
  revert z b; decide
theorem fAtom_m (op : BitVec 9) (o : AtomOps) : (fAtom op o).m = mAtom false o.op o.u o.sz := rfl
theorem selBL_src (b : LSrc) : selBL (.src b) = b1 (selL b) := rfl

theorem decAlu_fAlu (mk : AluOps → Instr) (op : BitVec 9) (o : AluOps) (hd : nwD o.h o.d = true) :
    decAlu mk (fAlu op o) = some (mk o) := by
  obtain ⟨h0, h1, h2⟩ := mAlu o.sat o.w rfl
  simp only [decAlu, fAlu, mkF_m, mkF_sa, h0, h1, h2, parse2_bit]
  simp [destS_mkF, hd]

theorem decUn_fUn (mk : UnOps → Instr) (op : BitVec 9) (o : UnOps) (hd : nwD o.h o.d = true) :
    decUn mk (fUn op o) = some (mk o) := by
  obtain ⟨h0, h1, h2⟩ := mAlu o.sat o.w rfl
  simp only [decUn, fUn, mkF_m, mkF_sa, mkF_sb, h0, h1, h2, parse2_bit]
  simp [destS_mkF, hd]

theorem decBfi_fBfi (o : BfiOps) (hd : nwD o.h o.d = true) : decBfi (fBfi o) = some (.bfi o) := by
  obtain ⟨h, d, a, b, c⟩ := o
  have hd' : nwD h d = true := hd
  cases c <;> simp [decBfi, fBfi, destS_mkF, hd']

theorem decMovi_fImm (o : MoviOps) (hd : nwD o.h o.d = true) :
    decMovi (fImm o.h 0x031 (d6 o.d) 0 o.imm) = some (.movi o) := by
  obtain ⟨h, d, i⟩ := o
  have hd' : nwD h d = true := hd
  cases i <;> simp [decMovi, fImm, destS_mkF, hd']

theorem decMovi_hi (o : MoviXOps) :
    decMovi (mkF o.h 0x031 .l96 (d6 o.d) 0 0 1 o.imm) = some (.moviHi o) := by
  simp only [decMovi, mkF_m, mkF_sa, mkF_sb, mkF_len, mkF_w2]
  simp

theorem decMovi_zx (o : MoviXOps) (hd : nwD o.h o.d = true) :
    decMovi (mkF o.h 0x031 .l96 (d6 o.d) 0 0 2 o.imm) = some (.moviZx o) := by
  simp only [decMovi, mkF_m, mkF_sa, mkF_sb, mkF_len, mkF_w2]
  simp [destS_mkF, hd]

theorem decLea_lea (o : LeaOps) (hd : nwD o.h o.d = true) :
    decLea (mkF o.h 0x032 (lenDisp o.disp) (d6 o.d) (encS o.a) (encS o.b) ((0 : BitVec 5) ++ o.scale) (o.disp.getD 0)) = some (.lea o) := by
  obtain ⟨h0, h1, h2⟩ := mLea o.scale 0 rfl
  simp only [decLea, mkF_m, mkF_sa, mkF_sb, h0, h1, h2, parseDisp_mkF]
  simp [destS_mkF, hd]

theorem decLea_pc (o : LeaPcOps) (hd : nwD o.h o.d = true) :
    decLea (mkF o.h 0x032 (lenDisp o.disp) (d6 o.d) 0 (encS o.b) ((1 : BitVec 5) ++ o.scale) (o.disp.getD 0)) = some (.leaPc o) := by
  obtain ⟨h0, h1, h2⟩ := mLea o.scale 1 rfl
  simp only [decLea, mkF_m, mkF_sa, mkF_sb, h0, h1, h2, parseDisp_mkF]
  simp [destS_mkF, hd]

theorem decSel_sel (o : SelOps) (hd : nwD o.h o.d = true) :
    decSel (mkF o.h 0x033 (lenB o.b) (d6 o.d) (encS o.a) (sbB o.b) ((0 : BitVec 4) ++ b1 o.neg ++ o.k) (immB o.b)) = some (.sel o) := by
  obtain ⟨h0, h1, h2⟩ := mSel o.k o.neg rfl
  simp only [decSel, mkF_m, mkF_sa, h0, h1, h2]
  simp [destS_mkF, hd]

theorem decCmp_fCmp (mk : CmpOps → Instr) (op : BitVec 9) (o : CmpOps) :
    decCmp mk (fCmp op o) = some (mk o) := by
  obtain ⟨h0, h1, h2, h3⟩ := mCmp o.mode o.cond o.t rfl
  simp only [decCmp, fCmp, mkF_m, mkF_d, mkF_sa, h0, h1, h2, h3, dPair6, dPair0, dPair3]
  simp

theorem decVCmp_fVCmp (mk : VCmpOps → Instr) (op : BitVec 9) (o : VCmpOps) (ha : laneA o.a = true) :
    decVCmp mk (fVCmp op o) = some (mk o) := by
  obtain ⟨h0, h1, h2, h3⟩ := mVCmp (selBL o.b) o.mode o.cond o.t rfl
  simp only [decVCmp, fVCmp, mkF_m, mkF_d, mkF_sa, h1, h2, h3, dPair6, dPair0, dPair3, srcBL_mkF _ _ _ _ _ _ _ h0]
  simp [parseL_laneA, ha]

/-! ## Predicates and control -/

theorem decPlop_plop (o : PlopOps) :
    decPlop (mkF o.h 0x044 .l64 (o.d.setWidth 8) (o.s3 ++ o.s2 ++ o.s1) (o.table.setWidth 9) (b1 o.lane ++ (0 : BitVec 7))) = some (.plop o) := by
  simp only [decPlop, mkF_m, mkF_d, mkF_sa, mkF_sb, isA64_mkF, i17Of, (i17Plop o.lane o.table).1, (i17Plop o.lane o.table).2.1, (i17Plop o.lane o.table).2.2, dLow3, (saTri o.s3 o.s2 o.s1).1, (saTri o.s3 o.s2 o.s1).2.1, (saTri o.s3 o.s2 o.s1).2.2]
  simp

theorem decPset_pset (o : PsetOps) :
    decPset (mkF o.h 0x047 .l64 0 0 (sbI17 (b1 o.lane ++ o.vals ++ o.mask)) (mI17 (b1 o.lane ++ o.vals ++ o.mask))) = some (.pset o) := by
  simp only [decPset, mkF_d, mkF_sa, i17Of_mkF, (i17Pset o.lane o.vals o.mask).1, (i17Pset o.lane o.vals o.mask).2.1, (i17Pset o.lane o.vals o.mask).2.2]
  simp

theorem decPmov_ktos (o : DOps) (hd : nwD o.h o.d = true) :
    decPmov (fD 0x045 0 o) = some (.pmovKtos o) := by
  obtain ⟨h0, h1, h2⟩ := mQ 0 0 rfl
  simp only [decPmov, fD, mkF_m, mkF_d, mkF_sa, mkF_sb, mkF_len]
  simp [destS_mkF, hd]

theorem decPmov_stok (o : StokOps) :
    decPmov (mkF o.h 0x045 (lenB o.mask) 0 (encS o.a) (sbB o.mask) 1 (immB o.mask)) = some (.pmovStok o) := by
  simp only [decPmov, mkF_m, mkF_d, mkF_sa, mkF_sb, mkF_len, mkF_w2]
  simp

theorem decPmov_qtos (o : QtosOps) (hd : nwD o.h o.d = true) :
    decPmov (mkF o.h 0x045 .l64 (d6 o.d) 0 0 ((0 : BitVec 3) ++ o.q ++ (2 : BitVec 2))) = some (.pmovQtos o) := by
  obtain ⟨h0, h1, h2⟩ := mQ o.q 2 rfl
  simp only [decPmov, mkF_m, mkF_d, mkF_sa, mkF_sb, mkF_len, h0, h1, h2]
  simp [destS_mkF, hd]

theorem decPmov_stoq (o : StoqOps) : decPmov (fStoq o) = some (.pmovStoq o) := by
  obtain ⟨h0, h1, h2⟩ := mQ o.q 3 rfl
  obtain ⟨h, q, a⟩ := o
  cases a <;> simp only [decPmov, fStoq, mkF_m, h0, h1, h2] <;> simp

theorem decVpmov_qtov (o : QtovOps) (hd : nwD o.h o.d = true) :
    decVpmov (mkF o.h 0x046 .l64 o.d 0 0 (b1 o.s ++ (0 : BitVec 7))) = some (.vpmovQtov o) := by
  obtain ⟨h0, h1, h2⟩ := mQtov o.s rfl
  simp only [decVpmov, mkF_m, mkF_d, mkF_sa, mkF_sb, h0, h1, h2]
  simp [destV_mkF, hd]

theorem decVpmov_vtoq (o : VtoqOps) (ha : laneA o.a = true) :
    decVpmov (mkF o.h 0x046 (lenBL o.mask) 0 (encL o.a) (sbBL o.mask) (selBL o.mask ++ (1 : BitVec 7)) (immBL o.mask)) = some (.vpmovVtoq o) := by
  obtain ⟨h0, h1, h2⟩ := mVtoq (selBL o.mask) rfl
  simp only [decVpmov, mkF_m, mkF_d, mkF_sa, mkF_sb, h0, h1, h2, srcBL_mkF _ _ _ _ _ _ _ h2]
  simp [parseL_laneA, ha]

theorem decBr_fImm (mk : BrOps → Instr) (op : BitVec 9) (o : BrOps) :
    decBr mk (fImm o.h op 0 0 o.off) = some (mk o) := by
  simp only [decBr, parseImm_fImm]
  simp [fImm_d, fImm_sa, headOf_fImm]

theorem decDBr_fImm (mk : DBrOps → Instr) (op : BitVec 9) (o : DBrOps) :
    decDBr mk (fImm o.h op (d6 o.d) 0 o.off) = some (mk o) := by
  simp only [decDBr, parseImm_fImm]
  simp [dReg_fImm, fImm_sa, headOf_fImm]

theorem decBrx_fImm (o : BrxOps) :
    decBrx (fImm o.h 0x084 (d6 o.d) (encS o.a) o.off) = some (.brx o) := by
  simp only [decBrx, parseImm_fImm]
  simp [dReg_fImm, fImm_sa, headOf_fImm]

theorem decH_fH (mk : HOps → Instr) (op : BitVec 9) (o : HOps) :
    decH mk (fH op o) = some (mk o) := by
  simp only [decH, fH, mkF_m, mkF_d, mkF_sa, mkF_sb]
  simp

theorem decA_fA (m : BitVec 8) (mk : AOps → Instr) (op : BitVec 9) (o : AOps) :
    decA m mk (fA op m o) = some (mk o) := by
  simp only [decA, fA, mkF_m, mkF_d, mkF_sa, mkF_sb]
  simp

theorem decD_fD (m : BitVec 8) (mk : DOps → Instr) (op : BitVec 9) (o : DOps) :
    decD mk (fD op m o) = some (mk o) := by
  simp only [decD, fD, mkF_sa, mkF_sb]
  simp

theorem decDA_fDA (m : BitVec 8) (mk : DAOps → Instr) (op : BitVec 9) (o : DAOps) :
    decDA mk (fDA op m o) = some (mk o) := by
  simp only [decDA, fDA, mkF_sa, mkF_sb]
  simp

theorem decDAB_fDAB (m : BitVec 8) (mk : DABOps → Instr) (op : BitVec 9) (o : DABOps) :
    decDAB mk (fDAB op m o) = some (mk o) := by
  simp only [decDAB, fDAB, mkF_sa, mkF_sb]
  simp

theorem decRay_fRay (m : BitVec 8) (mk : RayOps → Instr) (op : BitVec 9) (o : RayOps) :
    decRay mk (fRay op m o) = some (mk o) := by
  simp only [decRay, fRay, mkF_sa, mkF_sb]
  simp

theorem decNop_nop (o : NopOps) :
    decNop (mkF o.h 0x080 o.len 0 0 0 0) = some (.nop o) := by
  simp only [decNop, mkF_m, mkF_d, mkF_sa, mkF_sb, mkF_len, mkF_w2, mkF_w3]
  simp

theorem decSetpri_setpri (o : SetPriOps) :
    decSetpri (mkF o.h 0x08A .l64 0 0 (o.p.setWidth 9) 0) = some (.setpri o) := by
  simp only [decSetpri, mkF_m, mkF_d, mkF_sa, mkF_sb, i17Of, (i17Pri o.p).1, (i17Pri o.p).2]
  simp

theorem decGetpri_getpri (o : VDOps) :
    decGetpri (mkF o.h 0x08B .l64 o.d 0 0 0) = some (.getpri o) := by
  simp only [decGetpri, mkF_m, mkF_d, mkF_sa, mkF_sb]
  simp

/-! ## Floating point and conversions -/

theorem decF_fF (mk : FOps → Instr) (op : BitVec 9) (o : FOps) (hd : nwD o.h o.d = true) :
    decF mk (fF op o) = some (mk o) := by
  obtain ⟨h0, h1, h2, h3, h4⟩ := mF o.x o.rm o.ftz rfl
  simp only [decF, fF, mkF_m, mkF_sa, h0, h1, h2, h3, h4]
  simp [destS_mkF, hd]

theorem decFUn_fFUn (mk : FUnOps → Instr) (op : BitVec 9) (o : FUnOps) (hd : nwD o.h o.d = true) :
    decFUn mk (fFUn op o) = some (mk o) := by
  obtain ⟨h0, h1, h2, h3, h4⟩ := mF o.x o.rm o.ftz rfl
  simp only [decFUn, fFUn, mkF_m, mkF_sa, mkF_sb, h0, h1, h2, h3, h4]
  simp [destS_mkF, hd]

theorem decFfma_ffma (o : FmaOps) (hd : nwD o.h o.d = true) :
    decFfma (mkF o.h 0x0C3 .l96 (d6 o.d) (encS o.a) (encS o.b) ((0 : BitVec 1) ++ o.x ++ b1 o.ftz ++ o.rm ++ (1 : BitVec 2)) (wSE 0 (encS o.c))) = some (.ffma o) := by
  obtain ⟨h0, h1, h2, h3, h4⟩ := mF o.x o.rm o.ftz rfl
  simp only [decFfma, mkF_m, mkF_sa, mkF_sb, eOf_mkF, scOf_mkF, h0, h1, h2, h3, h4]
  simp [destS_mkF, hd]

theorem decFcpys_fcpys (o : CpysOps) (hd : nwD o.h o.d = true) :
    decFcpys (mkF o.h 0x0CA .l64 (d6 o.d) (encS o.a) (encS o.b) ((0 : BitVec 1) ++ o.x ++ (1 : BitVec 5))) = some (.fcpys o) := by
  obtain ⟨h0, h1, h2⟩ := mCpys o.x rfl
  simp only [decFcpys, mkF_m, mkF_sa, mkF_sb, h0, h1, h2]
  simp [destS_mkF, hd]

theorem decVF_fVF (mk : VFOps → Instr) (op : BitVec 9) (o : VFOps) (hd : nwD o.h o.d = true) (ha : laneA o.a = true) :
    decVF mk (fVF op o) = some (mk o) := by
  obtain ⟨h0, h1, h2, h3, h4⟩ := mVF (selBL o.b) o.x o.rm o.t o.ftz rfl
  simp only [decVF, fVF, mkF_m, mkF_sa, h0, h1, h2, h3, srcBL_mkF _ _ _ _ _ _ _ h4]
  simp [destV_mkF, hd, parseL_laneA, ha]

theorem decVFUn_fVFUn (mk : VFUnOps → Instr) (op : BitVec 9) (o : VFUnOps) (hd : nwD o.h o.d = true) (ha : laneA o.a = true) :
    decVFUn mk (fVFUn op o) = some (mk o) := by
  obtain ⟨h0, h1, h2, h3, h4⟩ := mVF 0 o.x o.rm o.t o.ftz rfl
  simp only [decVFUn, fVFUn, mkF_m, mkF_sa, mkF_sb, h0, h1, h2, h3, h4]
  simp [destV_mkF, hd, parseL_laneA, ha]

theorem decVffma_vffma (o : VFmaOps) (hd : nwD o.h o.d = true) (ha : laneA o.a = true) :
    decVffma (mkF o.h 0x0D3 .l96 o.d (encL o.a) (encL o.b) (b1 (selL o.b) ++ o.x ++ b1 o.ftz ++ o.rm ++ o.t) (wSE (eSel o.c) (encL o.c))) = some (.vffma o) := by
  obtain ⟨h0, h1, h2, h3, h4⟩ := mVF (b1 (selL o.b)) o.x o.rm o.t o.ftz rfl
  simp only [decVffma, mkF_m, mkF_sa, mkF_sb, eOf_mkF, scOf_mkF, h0, h1, h2, h3, h4, eSel0, eSel22, b1_bit, parseL_encL]
  simp [destV_mkF, hd, parseL_laneA, ha]

theorem decCvt_fCvt (mk : CvtOps → Instr) (op : BitVec 9) (o : CvtOps)
    (hd : (match o.opd with | .scalar d _ => nwD o.h d | .lane d a => nwD o.h d && laneA a) = true) :
    decCvt mk (fCvt op o) = some (mk o) := by
  obtain ⟨h, opd, dst, src, z, rm, t⟩ := o
  obtain ⟨s0, s1, s2⟩ := sbCvt src dst
  cases opd with
  | scalar d a =>
    obtain ⟨h0, h1, h2, h3, h4, h5⟩ := mCvt 0 z t rm rfl
    have hd' : nwD h d = true := hd
    simp only [decCvt, fCvt, mkF_m, mkF_sb, h0, h1, h2, h3, h4, h5, s0, s1, s2]
    simp [destS_mkF, hd']
  | lane d a =>
    obtain ⟨h0, h1, h2, h3, h4, h5⟩ := mCvt 4 z t rm rfl
    obtain ⟨hd1, hd2⟩ := (Bool.and_eq_true _ _).mp hd
    simp only [decCvt, fCvt, mkF_m, mkF_sb, h0, h1, h2, h3, h4, h5, s0, s1, s2]
    simp [destV_mkF, hd1, parseL_laneA hd2]

theorem decPack_pack (o : PackOps) (hd : o.fmt.toNat ≤ 1 → nwD o.h o.d = true) (ha : laneA o.a = true) :
    decPack (mkF o.h 0x14B .l64 o.d (encL o.a) (encL o.b) (b1 (selL o.b) ++ o.fmt ++ o.rm ++ o.pos)) = some (.cvtPack o) := by
  obtain ⟨h0, h1, h2, h3⟩ := mPack (b1 (selL o.b)) o.fmt o.rm o.pos rfl
  simp only [decPack, mkF_m, mkF_d, mkF_sa, mkF_sb, h0, h1, h2, h3, b1_bit, parseL_encL]
  by_cases h : o.fmt.toNat ≤ 1
  · simp [h, destV_mkF, hd h, parseL_laneA ha]
  · simp [h, parseL_laneA ha]

theorem parseEf_w2Ef (h : Head) (op : BitVec 9) (d : BitVec 8) (sa sb : BitVec 9) (m : BitVec 8) (e : EfForm) :
    parseEf (mkF h op (lenEf e) d sa sb m (w2Ef e)) = some e := by
  cases e with
  | short => rfl
  | long => simp only [parseEf, lenEf, w2Ef, mkF_len, scOf_zero, eOf_zero]; simp
  | resid v =>
    obtain ⟨h0, h1, h2⟩ := eResid v
    simp only [parseEf, lenEf, w2Ef, mkF_len, scOf_mkF, eOf_mkF, h0, h1, h2]
    simp

theorem decEf_ef (o : EfOps) (hd : nwD o.h o.d = true) (ha : laneA o.a = true) :
    decEf (mkF o.h 0x14C (lenEf o.form) o.d (encL o.a) 0 ((0 : BitVec 1) ++ o.fmt ++ o.seg ++ (0 : BitVec 2)) (w2Ef o.form)) = some (.cvtEf o) := by
  obtain ⟨h0, h1, h2, h3⟩ := mEf o.fmt o.seg rfl
  simp only [decEf, mkF_m, mkF_sa, mkF_sb, h0, h1, h2, h3, parseEf_w2Ef]
  simp [destV_mkF, hd, parseL_laneA, ha]

/-! ## Lane forms -/

theorem decVInt_fVInt (mk : VIntOps → Instr) (x y z : Bool) (op : BitVec 9) (o : VIntOps) (hl : legalVInt x y z o = true) :
    decVInt mk x y z (fVInt op o) = some (mk o) := by
  simp only [legalVInt, Bool.and_eq_true, Bool.or_eq_true, beq_iff_eq, Bool.not_eq_true'] at hl
  obtain ⟨⟨⟨⟨hd, ha⟩, hs⟩, hu⟩, hp⟩ := hl
  obtain ⟨h0, h1, h2, h3, h4⟩ := mVInt (selBL o.b) o.sat o.u o.p16 rfl
  simp only [decVInt, fVInt, mkF_m, mkF_sa, h0, h1, h2, h3, parse2_bit, srcBL_mkF _ _ _ _ _ _ _ h4, parseSat_encSat]
  have c1 : (x || encSat o.sat == 0) = true := by rcases hs with h | h <;> simp [h, encSat]
  have c2 : (y || !o.u) = true := by rcases hu with h | h <;> simp [h]
  have c3 : (z || ((0 : BitVec 1) ++ b1 o.p16 : BitVec 2) == 0) = true := by rcases hp with h | h <;> simp [h, b1]
  rw [c1, c2, c3]
  simp [destV_mkF, hd, parseL_laneA, ha]

theorem decVMad_vmad (o : VMadOps) (hd : nwD o.h o.d = true) (ha : laneA o.a = true) :
    decVMad (mkF o.h 0x104 .l96 o.d (encL o.a) (encL o.b) (b1 (selL o.b) ++ encSat o.sat ++ (0 : BitVec 2) ++ b1 o.p16 ++ (0 : BitVec 2)) (wSE (eSel o.c) (encL o.c))) = some (.vmad o) := by
  obtain ⟨h0, h1, h2, h3, h4⟩ := mVMad (b1 (selL o.b)) o.sat o.p16 rfl
  simp only [decVMad, mkF_m, mkF_sa, mkF_sb, eOf_mkF, scOf_mkF, h0, h1, h2, h3, h4, parse2_bit, eSel0, eSel22, b1_bit, parseL_encL, parseSat_encSat]
  simp [destV_mkF, hd, parseL_laneA, ha]

theorem decVBfi_fVBfi (o : VBfiOps) (hd : nwD o.h o.d = true) (ha : laneA o.a = true) :
    decVBfi (fVBfi o) = some (.vbfi o) := by
  obtain ⟨h, d, a, b, c⟩ := o
  obtain ⟨h0, h1⟩ := mSel7 (b1 (selL b)) rfl
  have hd' : nwD h d = true := hd
  have ha' : parseL false (encL a) = some a := parseL_laneA ha
  cases c with
  | src c =>
    simp only [decVBfi, fVBfi, mkF_m, mkF_sa, mkF_sb, mkF_len, eOf_mkF, scOf_mkF, h0, h1, b1_bit, eSel0, eSel22, parseL_encL, ha']
    simp [destV_mkF, hd']
  | imm i =>
    simp only [decVBfi, fVBfi, mkF_m, mkF_sa, mkF_sb, mkF_len, mkF_w2, mkF_w3, h0, h1, b1_bit, parseL_encL, ha']
    simp [destV_mkF, hd']

theorem decVUn_fVUn (mk : VUnOps → Instr) (op : BitVec 9) (o : VUnOps) (hd : nwD o.h o.d = true) (ha : laneA o.a = true) :
    decVUn mk (fVUn op o) = some (mk o) := by
  simp only [decVUn, fVUn, mkF_m, mkF_sa, mkF_sb]
  simp [destV_mkF, hd, parseL_laneA, ha]

theorem decVMov_vmov (o : VMovOps) (hd : nwD o.h o.d = true) :
    decVMov (mkF o.h 0x118 (lenBL o.b) o.d 0 (sbBL o.b) (selBL o.b ++ (0 : BitVec 7)) (immBL o.b)) = some (.vmov o) := by
  obtain ⟨h0, h1⟩ := mSel7 (selBL o.b) rfl
  simp only [decVMov, mkF_m, mkF_sa, h0, srcBL_mkF _ _ _ _ _ _ _ h1]
  simp [destV_mkF, hd]

theorem decVSel_vsel (o : VSelOps) (hd : nwD o.h o.d = true) (ha : laneA o.a = true) :
    decVSel (mkF o.h 0x119 (lenBL o.b) o.d (encL o.a) (sbBL o.b) (selBL o.b ++ o.q ++ b1 o.neg ++ (0 : BitVec 3)) (immBL o.b)) = some (.vsel o) := by
  obtain ⟨h0, h1, h2, h3⟩ := mVSel (selBL o.b) o.q o.neg rfl
  simp only [decVSel, mkF_m, mkF_sa, h0, h1, h2, srcBL_mkF _ _ _ _ _ _ _ h3]
  simp [destV_mkF, hd, parseL_laneA, ha]

theorem decVbcast_fIdx (o : VBcastOps) (hd : nwD o.h o.d = true) (ha : laneA o.a = true) :
    decVbcast (fIdx o.h 0x11A o.d (encL o.a) 0 o.idx) = some (.vbcast o) := by
  obtain ⟨h, d, a, i⟩ := o
  have hd' : nwD h d = true := hd
  have ha' : parseL false (encL a) = some a := parseL_laneA ha
  cases i with
  | sreg r =>
    obtain ⟨h0, h1⟩ := mIdx0 1 rfl
    simp only [decVbcast, fIdx, parseIdx, mkF_m, mkF_sa, mkF_sb, mkF_len, h0, h1, ha']
    simp [destV_mkF, hd']
  | imm j =>
    obtain ⟨h0, h1⟩ := mIdx0 0 rfl
    simp only [decVbcast, fIdx, parseIdx, mkF_m, mkF_sa, mkF_sb, mkF_len, mkF_w2, h0, h1, ha', wide_lo5, wide_hi5]
    simp [destV_mkF, hd']

theorem decVext_fIdx (o : VExtOps) (ha : laneA o.a = true) :
    decVext (fIdx o.h 0x11B (d6 o.d) (encL o.a) ((0 : BitVec 2) ++ b1 o.sx ++ (0 : BitVec 4)) o.idx) = some (.vext o) := by
  obtain ⟨h, d, a, i, x⟩ := o
  have ha' : parseL false (encL a) = some a := parseL_laneA ha
  cases i with
  | sreg r =>
    obtain ⟨h0, h1, h2, h3⟩ := mIdx 1 x rfl
    simp only [decVext, fIdx, parseIdx, mkF_m, mkF_sa, mkF_sb, mkF_len, h0, h1, h2, h3, ha']
    simp
  | imm j =>
    obtain ⟨h0, h1, h2, h3⟩ := mIdx 0 x rfl
    simp only [decVext, fIdx, parseIdx, mkF_m, mkF_sa, mkF_sb, mkF_len, mkF_w2, h0, h1, h2, h3, ha', wide_lo5, wide_hi5]
    simp

/-- The lane operand of a vote names no scalar register. -/
def voteLane : VoteSrc → Bool
  | .pred _ _ => true
  | .val a _ => laneA a
  | .valImm a _ => laneA a

theorem fVote_reads (h : Head) (d : BitVec 8) (k : BitVec 2) (s : VoteSrc) (hs : voteLane s = true) :
    (fVote h d k s).m.extractLsb' 5 2 = 0 ∧ (fVote h d k s).m.extractLsb' 2 2 = 0 ∧
    (fVote h d k s).m.extractLsb' 0 2 = k ∧ parseVote (fVote h d k s) = some s ∧ (fVote h d k s).d = d ∧
    headOf (fVote h d k s) = h ∧ (nwD h d = true → destV (fVote h d k s) = d) := by
  cases s with
  | pred q t =>
    obtain ⟨h0, h1, h2, h3, h4⟩ := mVotP t k rfl
    refine ⟨h2, h3, h4, ?_, rfl, rfl, fun hd => destV_mkF _ _ _ _ _ _ _ _ _ hd⟩
    simp only [parseVote, fVote, mkF_m, h0, h1, mkF_sa, mkF_sb, (saLow3 q).1, (saLow3 q).2]
    simp
  | val a b =>
    obtain ⟨h0, h1, h2, h3, h4⟩ := mVotV (selL b) k rfl
    refine ⟨h2, h3, h4, ?_, rfl, rfl, fun hd => destV_mkF _ _ _ _ _ _ _ _ _ hd⟩
    simp only [parseVote, fVote, mkF_m, h0, h1, mkF_sa, mkF_sb, mkF_len, parseL_encL, parseL_laneA (show laneA a = true from hs)]
    simp
  | valImm a j =>
    obtain ⟨h0, h1, h2, h3, h4⟩ := mVotI k rfl
    refine ⟨h2, h3, h4, ?_, rfl, rfl, fun hd => destV_mkF _ _ _ _ _ _ _ _ _ hd⟩
    simp only [parseVote, fVote, mkF_m, h0, h1, mkF_sa, mkF_sb, mkF_len, mkF_w2, wide_lo5, wide_hi5,
      parseL_laneA (show laneA a = true from hs)]
    simp

theorem decVote_bal (o : VoteBalOps) (hd : nwD o.h o.d = true) (hs : voteLane o.src = true) :
    decVote (fVote o.h o.d 2 o.src) = some (.voteBal o) := by
  obtain ⟨h0, h1, h2, h3, h4, h5, h6⟩ := fVote_reads o.h o.d 2 o.src hs
  simp only [decVote, h0, h1, h2, h3, h5, h6 hd]
  simp

theorem decVote_any (o : VoteQOps) (hs : voteLane o.src = true) :
    decVote (fVote o.h (o.q.setWidth 8) 0 o.src) = some (.voteAny o) := by
  obtain ⟨h0, h1, h2, h3, h4, h5, _⟩ := fVote_reads o.h (o.q.setWidth 8) 0 o.src hs
  simp only [decVote, h0, h1, h2, h3, h4, h5, (dLow3 o.q).1, (dLow3 o.q).2]
  simp

theorem decVote_all (o : VoteQOps) (hs : voteLane o.src = true) :
    decVote (fVote o.h (o.q.setWidth 8) 1 o.src) = some (.voteAll o) := by
  obtain ⟨h0, h1, h2, h3, h4, h5, _⟩ := fVote_reads o.h (o.q.setWidth 8) 1 o.src hs
  simp only [decVote, h0, h1, h2, h3, h4, h5, (dLow3 o.q).1, (dLow3 o.q).2]
  simp

theorem decShfl_shfl (o : ShflOps) (hd : nwD o.h o.d = true) (ha : laneA o.a = true) :
    decShfl (mkF o.h 0x121 (lenBL o.b) o.d (encL o.a) (sbBL o.b) (selBL o.b ++ (0 : BitVec 2) ++ o.wl ++ o.mode) (immBL o.b)) = some (.shfl o) := by
  obtain ⟨h0, h1, h2, h3⟩ := mShfl (selBL o.b) o.wl o.mode rfl
  simp only [decShfl, mkF_m, mkF_sa, h0, h1, h2, srcBL_mkF _ _ _ _ _ _ _ h3]
  simp [destV_mkF, hd, parseL_laneA, ha]

theorem decXchg_xchg (o : XchgOps) (hd : nwD o.h o.d = true) (ha : laneA o.a = true) :
    decXchg (mkF o.h 0x122 (lenBL o.b) o.d (encL o.a) (sbBL o.b) (selBL o.b ++ (0 : BitVec 2) ++ o.dl ++ (0 : BitVec 2)) (immBL o.b)) = some (.xchg o) := by
  obtain ⟨h0, h1, h2, h3⟩ := mShfl (selBL o.b) o.dl 0 rfl
  simp only [decXchg, mkF_m, mkF_sa, h0, h1, h2, srcBL_mkF _ _ _ _ _ _ _ h3]
  simp [destV_mkF, hd, parseL_laneA, ha]

theorem decWred_wred (o : WredOps) (hd : nwD o.h o.d = true) (ha : laneA o.a = true) :
    decWred (mkF o.h 0x123 .l64 o.d (encL o.a) 0 ((0 : BitVec 1) ++ o.wl ++ o.op)) = some (.wred o) := by
  obtain ⟨h0, h1, h2⟩ := mWred o.wl o.op rfl
  simp only [decWred, mkF_m, mkF_sa, mkF_sb, h0, h1, h2]
  simp [destV_mkF, hd, parseL_laneA, ha]

theorem decSfu_sfu (o : SfuOps) (ha : laneA o.a = true) :
    decSfu (mkF o.h 0x128 .l64 o.d (encL o.a) 0 ((0 : BitVec 5) ++ o.fn)) = some (.sfu o) := by
  obtain ⟨h0, h1⟩ := mLow3 o.fn rfl
  simp only [decSfu, mkF_m, mkF_d, mkF_sa, mkF_sb, h0, h1]
  simp [parseL_laneA, ha]

/-! ## Matrix forms -/

theorem decMma_mma (o : MmaOps) :
    decMma (mkF o.h 0x140 .l64 o.d (o.a.setWidth 9) (o.b.setWidth 9) ((0 : BitVec 1) ++ b1 o.i ++ o.ta ++ o.tb)) = some (.mma o) := by
  obtain ⟨h0, h1, h2, h3⟩ := mMma o.i o.ta o.tb rfl
  simp only [decMma, mkF_m, mkF_d, mkF_sa, mkF_sb, h0, h1, h2, h3]
  simp

theorem decMmas_mmas (o : MmasOps) :
    decMmas (mkF o.h 0x141 .l96 o.d (o.a.setWidth 9) (o.b.setWidth 9) ((0 : BitVec 1) ++ b1 o.i ++ o.ta ++ o.tb) (wSE 0 (o.sc.setWidth 9))) = some (.mmas o) := by
  obtain ⟨h0, h1, h2, h3⟩ := mMma o.i o.ta o.tb rfl
  simp only [decMmas, mkF_m, mkF_d, mkF_sa, mkF_sb, eOf_mkF, scOf_mkF, h0, h1, h2, h3]
  simp

theorem decMmaq_mmaq (o : MmaqOps) :
    decMmaq (mkF o.h 0x142 .l96 o.d (o.a.setWidth 9) (o.b.setWidth 9) ((0 : BitVec 1) ++ b1 o.i ++ o.ta ++ o.tb) (wSE ((0 : BitVec 13) ++ o.sz ++ o.pb) (o.pa.setWidth 9))) = some (.mmaq o) := by
  obtain ⟨h0, h1, h2, h3⟩ := mMma o.i o.ta o.tb rfl
  simp only [decMmaq, mkF_m, mkF_d, mkF_sa, mkF_sb, eOf_mkF, scOf_mkF, h0, h1, h2, h3, (eMmaq o.sz o.pb).1, (eMmaq o.sz o.pb).2.1, (eMmaq o.sz o.pb).2.2]
  simp

theorem decMzero_mzero (o : MZeroOps) :
    decMzero (mkF o.h 0x143 .l64 o.d 0 0 ((0 : BitVec 7) ++ b1 o.f64)) = some (.mzero o) := by
  obtain ⟨h0, h1⟩ := mBit o.f64 rfl
  simp only [decMzero, mkF_m, mkF_d, mkF_sa, mkF_sb, h0, h1]
  simp

theorem decMcvt_mcvt (o : McvtOps) :
    decMcvt (mkF o.h 0x144 (lenEf o.form) o.d (o.a.setWidth 9) 0 ((0 : BitVec 1) ++ o.fmt ++ (0 : BitVec 4)) (w2Ef o.form)) = some (.mcvt o) := by
  obtain ⟨h0, h1, h2⟩ := mHi3 o.fmt rfl
  simp only [decMcvt, mkF_m, mkF_d, mkF_sa, mkF_sb, h0, h1, h2, parseEf_w2Ef]
  simp

theorem decMldf_mldf (mk : MldfOps → Instr) (op : BitVec 9) (o : MldfOps) :
    decMldf mk (mkF o.h op .l96 o.d (encS o.base) (encS o.stride) ((0 : BitVec 6) ++ o.kind) o.disp) = some (mk o) := by
  obtain ⟨h0, h1⟩ := mLow2 o.kind rfl
  simp only [decMldf, mkF_m, mkF_d, mkF_sa, mkF_sb, mkF_w2, h0, h1]
  simp

/-! ## Memory and ordering -/

theorem decMem_fMem (mk : MemOps → Instr) (op : BitVec 9) (o : MemOps) : decMem mk (fMem op o) = some (mk o) := by
  obtain ⟨h, d, a, i, sx, g, z⟩ := o
  cases i with
  | idx b x =>
    obtain ⟨h0, h1, h2, h3, h4, h5⟩ := mMemI x g sx z rfl
    simp only [decMem, fMem, parseMemIdx, mkF_m, mkF_len, h0, h1, h2, h3, h4, h5]
    simp
  | disp i =>
    obtain ⟨h0, h1, h2, h3, h4, h5⟩ := mMemD g sx z rfl
    simp only [decMem, fMem, parseMemIdx, mkF_m, mkF_len, h0, h1, h2, h3, h4, h5]
    simp

theorem decXMem_fXMem (mk : XMemOps → Instr) (op : BitVec 9) (o : XMemOps) :
    decXMem mk (fXMem op o) = some (mk o) := by
  obtain ⟨h0, h1, h2, h3, h4, h5⟩ := mXMem o.x o.sx o.size rfl
  simp only [decXMem, fXMem, mkF_m, mkF_sa, mkF_sb, h0, h1, h2, h3, h4, h5, parseDisp_mkF]
  simp

theorem decPref_fPref (o : PrefOps) : decPref (fPref o) = some (.pref o) := by
  obtain ⟨h, a, i, l⟩ := o
  cases i with
  | idx b x =>
    obtain ⟨h0, h1, h2, h3⟩ := mPrefI x l rfl
    simp only [decPref, fPref, parseMemIdx, mkF_m, mkF_len, h0, h1, h2, h3]
    simp
  | disp i =>
    obtain ⟨h0, h1, h2, h3⟩ := mPrefD l rfl
    simp only [decPref, fPref, parseMemIdx, mkF_m, mkF_len, h0, h1, h2, h3]
    simp

theorem decVMem_fVMem (mk : VMemOps → Instr) (op : BitVec 9) (o : VMemOps) :
    decVMem mk (fVMem op o) = some (mk o) := by
  obtain ⟨h0, h1, h2, h3, h4, h5⟩ := mVMem (selL o.b) o.x o.g o.sx o.size rfl
  simp only [decVMem, fVMem, mkF_m, mkF_d, mkF_sa, mkF_sb, h0, h1, h2, h3, h4, h5, parseDisp_mkF, parseL_encL]
  simp

theorem decL1inv_line (o : LineOps) :
    decL1inv (fLine 0x190 o) = some (.l1invLine o) := by
  simp only [decL1inv, fLine, mkF_m, mkF_d, mkF_sa, mkF_sb]
  simp

theorem decL1inv_all (o : AllOps) :
    decL1inv (fAll 0x190 o) = some (.l1invAll o) := by
  simp only [decL1inv, fAll, parseOpt, mkF_m, mkF_d, mkF_sa, mkF_sb, parseDisp_mkF]
  simp

theorem decL1inv_xl (o : XlOps) :
    decL1inv (mkF o.h 0x190 (lenDisp o.imm) 0 (encS o.a) 0 2 (o.imm.getD 0)) = some (.l1invXl o) := by
  simp only [decL1inv, parseOpt, mkF_m, mkF_d, mkF_sa, mkF_sb, parseDisp_mkF]
  simp

theorem decL2wb_line (o : LineOps) :
    decL2wb (fLine 0x191 o) = some (.l2wbLine o) := by
  simp only [decL2wb, fLine, mkF_m, mkF_d, mkF_sa, mkF_sb]
  simp

theorem decL2wb_all (o : AllOps) :
    decL2wb (fAll 0x191 o) = some (.l2wbAll o) := by
  simp only [decL2wb, fAll, parseOpt, mkF_m, mkF_d, mkF_sa, mkF_sb, parseDisp_mkF]
  simp

theorem decAtomA_fAtom (mk : AtomOps → Instr) (op : BitVec 9) (o : AtomOps) :
    decAtomA mk (fAtom op o) = some (mk o) := by
  obtain ⟨h0, h1, h2, h3, h4⟩ := mAtomic false o.u o.sz o.op rfl
  simp only [decAtomA, fAtom, mkF_m, mkF_sa, mkF_sb, h0, h2, h3, h4]
  simp

theorem decAtom_atom (o : AtomOps) :
    decAtom (fAtom 0x199 o) = some (.atom o) := by
  obtain ⟨h0, h1, h2, h3, h4⟩ := mAtomic false o.u o.sz o.op rfl
  simp only [decAtom, h1, decAtomA_fAtom, fAtom_m]
  rfl

theorem decAtom_nz (o : AtomNzOps) :
    decAtom (mkF o.h 0x199 .l96 (d6 o.d) (encS o.a) (encS o.b) (mAtom true o.op o.u o.sz) (wSE 0 (o.n.setWidth 9))) = some (.atomNz o) := by
  obtain ⟨h0, h1, h2, h3, h4⟩ := mAtomic true o.u o.sz o.op rfl
  simp only [decAtom, decAtomNz, mkF_m, mkF_sa, mkF_sb, eOf_mkF, scOf_mkF, h0, h1, h2, h3, h4]
  simp

theorem decCas_cas (o : CasOps) :
    decCas (mkF o.h 0x19A .l96 (d6 o.d) (encS o.a) (encS o.b) ((0 : BitVec 7) ++ b1 o.sz) (wSE 0 (encS o.c))) = some (.cas o) := by
  obtain ⟨h0, h1⟩ := mBit o.sz rfl
  simp only [decCas, mkF_m, mkF_sa, mkF_sb, eOf_mkF, scOf_mkF, h0, h1]
  simp

theorem decAtoms_local (o : AtomOps) :
    decAtoms (fAtom 0x19B o) = some (.atomsLocal o) := by
  simp only [decAtoms]
  exact decAtomA_fAtom .atomsLocal 0x19B o

theorem decAtoms_remote (o : AtomsXOps) :
    decAtoms (mkF o.h 0x19B .l96 (d6 o.d) (encS o.core) (encS o.off) (mAtom false o.op o.u o.sz) (wSE 0 (encS o.b))) = some (.atomsRemote o) := by
  obtain ⟨h0, h1, h2, h3, h4⟩ := mAtomic false o.u o.sz o.op rfl
  simp only [decAtoms, decAtomsX, mkF_m, mkF_sa, mkF_sb, mkF_len, eOf_mkF, scOf_mkF, h0, h2, h3, h4]
  simp

theorem decVatom_vatom (o : VatomOps) :
    decVatom (mkF o.h 0x19C .l96 o.d (encS o.a) (encL o.b) (b1 (selL o.b) ++ (0 : BitVec 1) ++ b1 o.l ++ b1 o.u ++ o.op ++ (0 : BitVec 1)) (wSE (eSel o.c) (encL o.c))) = some (.vatom o) := by
  obtain ⟨h0, h1, h2, h3, h4, h5⟩ := mVatom (selL o.b) o.l o.u o.op rfl
  simp only [decVatom, mkF_m, mkF_d, mkF_sa, mkF_sb, eOf_mkF, scOf_mkF, h0, h1, h2, h3, h4, h5, eSel0, eSel22, parseL_encL]
  simp

/-! ## Messages, launches and rays -/

theorem decSend_fSend (o : SendOps) : decSend (fSend o) = some (.send o) := by
  obtain ⟨h, d, a, i, n, c, t⟩ := o
  cases t with
  | none =>
    obtain ⟨h0, h1, h2⟩ := mSend 0 n c rfl
    simp only [decSend, fSend, mkF_m, mkF_sb, mkF_len, h0, h1, h2]
    simp
  | some t =>
    obtain ⟨h0, h1, h2⟩ := mSend 1 n c rfl
    simp only [decSend, fSend, mkF_m, mkF_sb, mkF_len, h0, h1, h2, eOf_mkF, scOf_mkF]
    simp

theorem decSendv_sendv (o : SendvOps) :
    decSendv (mkF o.h 0x1C1 .l96 o.d (o.dst.setWidth 9) (encHid o.hid) (b1 o.ord ++ o.len ++ o.ch) (wSE (o.qm.setWidth 23) (o.stamp.setWidth 9))) = some (.sendv o) := by
  obtain ⟨h0, h1, h2⟩ := mSend (b1 o.ord) o.len o.ch rfl
  simp only [decSendv, mkF_m, mkF_d, mkF_sa, mkF_sb, eOf_mkF, scOf_mkF, h0, h1, h2, b1_bit, wide_hi o.qm, wide_lo o.qm (show 3 ≤ 23 by decide)]
  simp

theorem decRecv_recv (o : RecvOps) :
    decRecv (mkF o.h 0x1C2 .l64 (d6 o.d) 0 0 ((0 : BitVec 7) ++ b1 o.nb)) = some (.recv o) := by
  obtain ⟨h0, h1⟩ := mBit o.nb rfl
  simp only [decRecv, mkF_m, mkF_sa, mkF_sb, h0, h1]
  simp

theorem decGpost_gpost (o : GpostOps) :
    decGpost (mkF o.h 0x1C3 .l64 (d6 o.d) 0 0 ((0 : BitVec 4) ++ o.g)) = some (.gpost o) := by
  obtain ⟨h0, h1⟩ := mLow4 o.g rfl
  simp only [decGpost, mkF_m, mkF_sa, mkF_sb, h0, h1]
  simp

theorem decGflush_gflush (o : GflushOps) :
    decGflush (mkF o.h 0x1C4 .l64 0 0 0 ((0 : BitVec 4) ++ o.g)) = some (.gflush o) := by
  obtain ⟨h0, h1⟩ := mLow4 o.g rfl
  simp only [decGflush, mkF_m, mkF_d, mkF_sa, mkF_sb, h0, h1]
  simp

theorem decRequeue_requeue (o : RequeueOps) :
    decRequeue (mkF o.h 0x1C5 .l64 o.d 0 0 ((0 : BitVec 1) ++ o.qm ++ o.g)) = some (.requeue o) := by
  obtain ⟨h0, h1, h2⟩ := mReq o.qm o.g rfl
  simp only [decRequeue, mkF_m, mkF_d, mkF_sa, mkF_sb, h0, h1, h2]
  simp

theorem decRsend_rsend (o : RsendOps) :
    decRsend (mkF o.h 0x1D0 .l64 (d6 o.d) (encS o.a) (encHid o.hid) 0) = some (.rsend o) := by
  simp only [decRsend, mkF_m, mkF_sa, mkF_sb]
  simp

theorem decRpush_rpush (o : DABOps) :
    decRpush (fDAB 0x1D3 0 o) = some (.rpush o) := by
  simp only [decRpush]
  exact decDAB_fDAB 0 .rpush 0x1D3 o

theorem decRpush_box (o : RpushBoxOps) :
    decRpush (mkF o.h 0x1D3 .l96 (d6 o.d) (encS o.a) (encS o.g) 1 (wSE 0 (encS o.n))) = some (.rpushBox o) := by
  simp only [decRpush, decRpushBox, mkF_m, mkF_sa, mkF_sb, eOf_mkF, scOf_mkF]
  simp

theorem decRpop_rpop (o : RpopOps) :
    decRpop (mkF o.h 0x1D4 .l64 (d6 o.d) (o.ray.setWidth 9) (encS o.g) 0) = some (.rpop o) := by
  simp only [decRpop, mkF_m, mkF_sa, mkF_sb]
  simp

theorem decRhit_rhit (o : RhitOps) :
    decRhit (mkF o.h 0x1D5 .l96 (d6 o.d) (encS o.core) (o.ray.setWidth 9) 0 (wSE (o.hid.setWidth 23) (encS o.user))) = some (.rhit o) := by
  simp only [decRhit, mkF_m, mkF_sa, mkF_sb, eOf_mkF, scOf_mkF, wide_hi o.hid, wide_lo o.hid (show 8 ≤ 23 by decide)]
  simp

theorem decRmiss_rmiss (o : RmissOps) :
    decRmiss (mkF o.h 0x1D6 .l96 0 (encS o.core) (o.ray.setWidth 9) 0 (wSE (o.hid.setWidth 23) (encS o.user))) = some (.rmiss o) := by
  simp only [decRmiss, mkF_m, mkF_d, mkF_sa, mkF_sb, eOf_mkF, scOf_mkF, wide_hi o.hid, wide_lo o.hid (show 8 ≤ 23 by decide)]
  simp

theorem decRpin_rpin (o : RpinOps) :
    decRpin (mkF o.h 0x1DE .l96 (d6 o.d) (encS o.a) (encS o.b) 0 (wSE 0 (encS o.c))) = some (.rpin o) := by
  simp only [decRpin, mkF_m, mkF_sa, mkF_sb, eOf_mkF, scOf_mkF]
  simp

theorem decRdone_rdone (o : RdoneOps) :
    decRdone (mkF o.h 0x1DF .l96 (d6 o.d) (encS o.a) (encS o.b) 0 (wSE (o.n.setWidth 23) (o.p.setWidth 9))) = some (.rdone o) := by
  simp only [decRdone, mkF_m, mkF_sa, mkF_sb, eOf_mkF, scOf_mkF, wide_hi o.n, wide_lo o.n (show 16 ≤ 23 by decide)]
  simp

theorem decRlog_rlog (o : RlogOps) :
    decRlog (mkF o.h 0x1E0 .l96 (d6 o.d) (encS o.q) (encS o.node) ((0 : BitVec 4) ++ o.event) (wSE (o.x.setWidth 23) (encS o.stamp))) = some (.rlog o) := by
  obtain ⟨h0, h1⟩ := mLow4 o.event rfl
  simp only [decRlog, mkF_m, mkF_sa, mkF_sb, eOf_mkF, scOf_mkF, h0, h1, wide_hi o.x, wide_lo o.x (show 6 ≤ 23 by decide)]
  simp

/-! ## Engines, the sampler and the system forms -/

theorem parseNt_ntE (h : Head) (op : BitVec 9) (len : Len) (d : BitVec 8) (sa sb : BitVec 9) (m : BitVec 8) (sc : BitVec 9)
    (nt : Option (BitVec 6)) (hm : m.getLsbD 6 = nt.isSome) : parseNt (mkF h op len d sa sb m (wSE (ntE nt) sc)) = some nt := by
  cases nt with
  | none => simp only [parseNt, eOf_mkF, ntE, mkF_m, hm]; simp
  | some r =>
    simp only [parseNt, eOf_mkF, ntE, mkF_m, hm, wide_hi r, wide_lo r (show 6 ≤ 23 by decide)]
    simp

theorem decBlk_fBlk (mk : BlkOps → Instr) (op : BitVec 9) (o : BlkOps) :
    decBlk mk (fBlk op o) = some (mk o) := by
  obtain ⟨h0, h1, h2, h3⟩ := mBlk o.nt.isSome o.ctx rfl
  simp only [decBlk, fBlk, mkF_m, mkF_sa, mkF_sb, scOf_mkF, h0, h2, h3, parseNt_ntE _ _ _ _ _ _ _ _ _ h1]
  simp

theorem decBcopy_fBcopy (mk : BcopyOps → Instr) (op : BitVec 9) (o : BcopyOps) :
    decBcopy mk (fBcopy op o) = some (mk o) := by
  obtain ⟨h0, h1, h2, h3, h4⟩ := mBcopy o.nt.isSome o.ss o.ds o.ctx rfl
  simp only [decBcopy, fBcopy, mkF_m, mkF_sa, mkF_sb, scOf_mkF, h0, h2, h3, h4, parseNt_ntE _ _ _ _ _ _ _ _ _ h1]
  simp

theorem decTlread_done (o : TlreadOps) :
    decTlread (fTl 0 o) = some (.tlreadDone o) := by
  obtain ⟨h0, h1, h2⟩ := mTl 0 o.ctx rfl
  simp only [decTlread, fTl, mkF_m, mkF_sa, mkF_sb, h0, h1, h2]
  simp

theorem decTlread_iss (o : TlreadOps) :
    decTlread (fTl 1 o) = some (.tlreadIss o) := by
  obtain ⟨h0, h1, h2⟩ := mTl 1 o.ctx rfl
  simp only [decTlread, fTl, mkF_m, mkF_sa, mkF_sb, h0, h1, h2]
  simp

theorem decTlread_err (o : TlreadOps) :
    decTlread (fTl 2 o) = some (.tlreadErr o) := by
  obtain ⟨h0, h1, h2⟩ := mTl 2 o.ctx rfl
  simp only [decTlread, fTl, mkF_m, mkF_sa, mkF_sb, h0, h1, h2]
  simp

theorem decTlwait_tlwait (o : TlwaitOps) :
    decTlwait (mkF o.h 0x1E7 .l64 0 (encS o.a) 0 ((0 : BitVec 6) ++ o.ctx)) = some (.tlwait o) := by
  obtain ⟨h0, h1⟩ := mLow2 o.ctx rfl
  simp only [decTlwait, mkF_m, mkF_d, mkF_sa, mkF_sb, h0, h1]
  simp

theorem decSmp_fSmp (mk : SmpOps → Instr) (op : BitVec 9) (o : SmpOps) :
    decSmp mk (fSmp op o) = some (mk o) := by
  obtain ⟨h0, h1⟩ := mLow3 o.qm rfl
  simp only [decSmp, fSmp, mkF_m, mkF_d, mkF_sa, mkF_sb, eOf_mkF, scOf_mkF, h0, h1]
  simp

theorem decRsr_rsr (o : RsrOps) (hd : nwD o.h o.d = true) :
    decRsr (mkF o.h 0x1F0 .l64 o.d 0 (sbI17 (o.num.setWidth 17)) (mI17 (o.num.setWidth 17))) = some (.rsr o) := by
  simp only [decRsr, mkF_sa, i17Of_mkF, wide_hi o.num, wide_lo o.num (show 12 ≤ 17 by decide)]
  simp [destV_mkF, hd]

theorem decWsr_wsr (o : WsrOps) :
    decWsr (mkF o.h 0x1F1 .l64 0 (encS o.a) (sbI17 (o.num.setWidth 17)) (mI17 (o.num.setWidth 17))) = some (.wsr o) := by
  simp only [decWsr, mkF_d, mkF_sa, i17Of_mkF, wide_hi o.num, wide_lo o.num (show 12 ≤ 17 by decide)]
  simp

theorem decTrap_trap (o : TrapOps) :
    decTrap (mkF o.h 0x1F2 .l64 0 0 (o.code.setWidth 9) 0) = some (.trap o) := by
  simp only [decTrap, mkF_m, mkF_d, mkF_sa, mkF_sb, i17Of, (i17Code o.code).1, (i17Code o.code).2]
  simp

theorem decFinspect_rd (o : FinspectOps) :
    decFinspect (mkF o.h 0x1F6 .l64 (d6 o.d) (encS o.a) (encS o.b) ((0 : BitVec 1) ++ o.k ++ (0 : BitVec 4))) = some (.finspectRd o) := by
  obtain ⟨h0, h1, h2, h3⟩ := mFin o.k 0 rfl
  simp only [decFinspect, mkF_m, mkF_sa, mkF_sb, h0, h1, h2, h3]
  simp

theorem decFinspect_wr (o : FinspectOps) :
    decFinspect (mkF o.h 0x1F6 .l64 (d6 o.d) (encS o.a) (encS o.b) ((0 : BitVec 1) ++ o.k ++ (1 : BitVec 4))) = some (.finspectWr o) := by
  obtain ⟨h0, h1, h2, h3⟩ := mFin o.k 1 rfl
  simp only [decFinspect, mkF_m, mkF_sa, mkF_sb, h0, h1, h2, h3]
  simp

theorem decPreempt_drain (o : DABOps) :
    decPreempt (mkF o.h 0x1F9 .l96 (d6 o.d) (encS o.a) 0 0 (wSE 0 (encS o.b))) = some (.preemptDrain o) := by
  simp only [decPreempt, mkF_m, mkF_sa, mkF_sb, eOf_mkF, scOf_mkF]
  simp

theorem decPreempt_swap (o : DABOps) :
    decPreempt (mkF o.h 0x1F9 .l96 (d6 o.d) (encS o.a) (encS o.b) 1) = some (.preemptSwap o) := by
  simp only [decPreempt, mkF_m, mkF_sa, mkF_sb, eOf_zero, scOf_zero]
  simp

theorem decPreempt_res (o : DABOps) :
    decPreempt (mkF o.h 0x1F9 .l96 (d6 o.d) (encS o.a) (encS o.b) 2) = some (.preemptRes o) := by
  simp only [decPreempt, mkF_m, mkF_sa, mkF_sb, eOf_zero, scOf_zero]
  simp

end Sys2Proof.Laws
end

