-- ==== Sys2Proof/Laws/Ops.lean ====
section
/-! SUPPORT. The shared operations, each said once: what an update over an update is, what stopping a firing and taking a
trap do, what an entry of the host's queue, a pool of credits and a write at home change. -/

namespace Sys2Proof.Laws
open Sys2Proof Sys2Proof.Machine

/-! ## Updates over updates -/

theorem spIns_spIns {α : Type} (l : Sparse α) (n : Nat) (a b : α) : spIns (spIns l n a) n b = spIns l n b := by
  induction l with
  | nil => simp [spIns]
  | cons e t ih =>
    obtain ⟨k, c⟩ := e
    by_cases h1 : n < k
    · simp [spIns, h1]
    · by_cases h2 : n = k
      · simp [spIns, h2]
      · simp [spIns, h1, h2, ih]

@[simp] theorem setCore_setCore (s : State) (n : Nat) (c d : Core) : (s.setCore n c).setCore n d = s.setCore n d := by
  simp [State.setCore, spIns_spIns]

@[simp] theorem coreSetFiring_setFiring (c : Core) (sl : Nat) (f g : Firing) :
    (c.setFiring sl f).setFiring sl g = c.setFiring sl g := by simp [Core.setFiring, spIns_spIns]

@[simp] theorem core_setFiring_same (s : State) (n sl : Nat) (f : Firing) :
    (s.setFiring n sl f).core n = (s.core n).setFiring sl f := by simp [State.setFiring]

@[simp] theorem setFiring_setFiring (s : State) (n sl : Nat) (f g : Firing) :
    (s.setFiring n sl f).setFiring n sl g = s.setFiring n sl g := by
  simp only [State.setFiring, core_setCore_same, setCore_setCore, coreSetFiring_setFiring]

@[simp] theorem firing_setCore_same (s : State) (n sl : Nat) (c : Core) : (s.setCore n c).firing n sl = c.firing sl := by
  simp [State.firing]

@[simp] theorem coreFiring_setFiring_same (c : Core) (sl : Nat) (f : Firing) : (c.setFiring sl f).firing sl = some f := by
  simp [coreFiring_setFiring]

/-- The core of a state is read from its cores and horizons alone. -/
theorem core_congr {s t : State} (h : t.cores = s.cores) (h1 : t.hz = s.hz) (h2 : t.sysHz = s.sysHz) (n : Nat) :
    t.core n = s.core n := by simp [State.core, h, h1, h2]

theorem firing_congr {s t : State} (h : t.cores = s.cores) (h1 : t.hz = s.hz) (h2 : t.sysHz = s.sysHz) (n sl : Nat) :
    t.firing n sl = s.firing n sl := by simp [State.firing, core_congr h h1 h2]

/-! ## Field numbers -/

theorem fld_eq {w : Nat} (x : BitVec w) (lo n : Nat) : fld x lo n = x.toNat / 2 ^ lo % 2 ^ n := by
  simp [fld, Nat.shiftRight_eq_div_pow]

/-! ## Stopping and trapping (R353) -/

/-- What a stop leaves of a firing: its registers but the lane registers its matrix operation writes, its queues, its
chain and its place. -/
structure Stops (f g : Firing) : Prop where
  s     : g.s = f.s
  k     : g.k = f.k
  q     : g.q = f.q
  paths : g.paths = f.paths
  cur   : g.cur = f.cur
  chain : g.chain = f.chain
  ls    : g.ls = f.ls
  lv    : g.lv = f.lv
  sq    : g.sq = f.sq
  wbq   : g.wbq = f.wbq
  deps  : g.deps = f.deps
  loss  : g.loss = f.loss
  laddr : g.laddr = f.laddr
  lcnt  : g.lcnt = f.lcnt
  last  : g.last = f.last
  skip  : g.skip = f.skip
  rbrk  : g.rbrk = f.rbrk
  seq   : g.seq = f.seq
  nv    : g.nv = f.nv
  wp    : g.wp = f.wp
  uid   : g.uid = f.uid
  ltag  : g.ltag = f.ltag

theorem stops_matDone (f : Firing) (m : MatOp) : Stops f (f.matDone m) := by
  unfold Firing.matDone
  split <;> constructor <;> rfl

@[simp] theorem matDone_rel (f : Firing) (m : MatOp) : (f.matDone m).rel = f.rel := by
  unfold Firing.matDone; split <;> rfl

/-- The release a stopped firing goes on with: one that its next instruction had begun is begun anew. -/
def relKept (f : Firing) : Option Rel := match f.rel with | some r => if r.seq = f.seq then none else some r | none => none

/-- Discarding a firing's SFU entries changes the record of them in its firing and its queue, nothing else. -/
theorem discardSfu_eq {c : Core} {sl : Nat} {f : Firing} (hf : c.firing sl = some f) :
    (c.discardSfu sl = { c with sfuQ := c.sfuQ.filter fun e => e.slot != sl }) ∨
    ∃ a b m x, c.discardSfu sl = { c with sfuQ := c.sfuQ.filter fun e => e.slot != sl }.setFiring sl
      { f with sfu0 := a, sfu1 := b, sfum := m, sfuDisc := x } := by
  unfold Core.discardSfu
  rw [hf]
  dsimp only
  split
  · exact .inl rfl
  · exact .inr ⟨_, _, _, _, rfl⟩
  · exact .inr ⟨_, _, _, _, rfl⟩

/-- Stopping a firing changes that firing, the SFU queue and the matrix unit of its core. -/
theorem stopWith_eq {c : Core} {sl : Nat} {f : Firing} (hf : c.firing sl = some f) (k : BitVec 4) (r : List W64) :
    ∃ g m, c.stopWith sl k r = { c with sfuQ := c.sfuQ.filter fun e => e.slot != sl, mat := m }.setFiring sl g ∧
      Stops f g ∧ g.stop = k ∧ g.trec = r ∧ g.rel = relKept f ∧
      ((∀ x, c.mat = some x → x.slot ≠ sl) → m = c.mat ∧ g.v = f.v ∧ g.fpst = f.fpst) := by
  have key : ∀ d f', d.firing sl = some f' → Stops f f' → f'.rel = f.rel → f'.v = f.v → f'.fpst = f.fpst →
      (d = { c with sfuQ := c.sfuQ.filter fun e => e.slot != sl } ∨
        d = { c with sfuQ := c.sfuQ.filter fun e => e.slot != sl }.setFiring sl f') →
      ∃ g m, (match (d.finishMat sl).firing sl with
          | none => d.finishMat sl
          | some f => (d.finishMat sl).setFiring sl { f with stop := k, hold := .none, xl := [], trec := r, rel := relKept f }) =
        { c with sfuQ := c.sfuQ.filter fun e => e.slot != sl, mat := m }.setFiring sl g ∧
        Stops f g ∧ g.stop = k ∧ g.trec = r ∧ g.rel = relKept f ∧
        ((∀ x, c.mat = some x → x.slot ≠ sl) → m = c.mat ∧ g.v = f.v ∧ g.fpst = f.fpst) := by
    intro d f' hd hs hr hv hp hc
    have hm : d.mat = c.mat := by rcases hc with h | h <;> subst h <;> rfl
    have hk : ∀ x : Firing, x.rel = f.rel → x.seq = f.seq → relKept x = relKept f := by
      intro x h1 h2; simp [relKept, h1, h2]
    have plain : d.finishMat sl = d → ∃ g m, (match (d.finishMat sl).firing sl with
          | none => d.finishMat sl
          | some f => (d.finishMat sl).setFiring sl { f with stop := k, hold := .none, xl := [], trec := r, rel := relKept f }) =
        { c with sfuQ := c.sfuQ.filter fun e => e.slot != sl, mat := m }.setFiring sl g ∧
        Stops f g ∧ g.stop = k ∧ g.trec = r ∧ g.rel = relKept f ∧
        ((∀ x, c.mat = some x → x.slot ≠ sl) → m = c.mat ∧ g.v = f.v ∧ g.fpst = f.fpst) := by
      intro he
      rw [he, hd]
      refine ⟨{ f' with stop := k, hold := .none, xl := [], trec := r, rel := relKept f' }, c.mat, ?_, ?_, rfl, rfl,
        hk f' hr hs.seq, fun _ => ⟨rfl, hv, hp⟩⟩
      · rcases hc with h | h <;> rw [h] <;> simp
      · obtain ⟨⟩ := hs; constructor <;> assumption
    cases hx : d.mat with
    | none => exact plain (by unfold Core.finishMat; rw [hx])
    | some x =>
      by_cases hs' : x.slot = sl
      · have he : d.finishMat sl = { d.setFiring sl (f'.matDone x) with mat := none } := by
          unfold Core.finishMat; rw [hx, hd]; simp [hs']
        have hg : ({ d.setFiring sl (f'.matDone x) with mat := none } : Core).firing sl = some (f'.matDone x) :=
          coreFiring_setFiring_same d sl _
        rw [he, hg]
        have hq : (f'.matDone x).seq = f.seq := (stops_matDone f' x).seq.trans hs.seq
        refine ⟨{ f'.matDone x with stop := k, hold := .none, xl := [], trec := r, rel := relKept (f'.matDone x) }, none, ?_, ?_, rfl,
          rfl, hk _ (by simp [hr]) hq, fun h => absurd hs' (h x (hm ▸ hx))⟩
        · rcases hc with h | h <;> rw [h] <;> simp [Core.setFiring, spIns_spIns]
        · have := stops_matDone f' x
          obtain ⟨⟩ := hs; obtain ⟨⟩ := this; constructor <;> simp_all
      · exact plain (by unfold Core.finishMat; rw [hx, hd]; simp [hs'])
  have hu : c.stopWith sl k r = match ((c.discardSfu sl).finishMat sl).firing sl with
      | none => (c.discardSfu sl).finishMat sl
      | some f => ((c.discardSfu sl).finishMat sl).setFiring sl
        { f with stop := k, hold := .none, xl := [], trec := r, rel := relKept f } := rfl
  rw [hu]
  rcases discardSfu_eq hf with h | ⟨a, b, m, x, h⟩
  · rw [h]; exact key _ f hf (by constructor <;> rfl) rfl rfl rfl (.inl rfl)
  · rw [h]; exact key _ _ (coreFiring_setFiring_same _ _ _) (by constructor <;> rfl) rfl rfl rfl (.inr rfl)

/-- A firing as its trap record reads it: a trap that resumes past its instruction has ended the chain (R351). -/
def recorded (f : Firing) (t : TrapCause) : Firing := if t.next then { f with chain := 0 } else f

/-- A stop at a trap: the firing has the record of Table 17-2; of its core only the SFU queue and the matrix unit change
besides, as at any stop. -/
theorem trapStop_eq {s : State} {n sl : Nat} {f : Firing} (hf : s.firing n sl = some f) (t : TrapCause) (fpc rpc word : W64) :
    ∃ g m, trapStop s n sl t fpc rpc word = s.setCore n ({ s.core n with
        sfuQ := (s.core n).sfuQ.filter fun e => e.slot != sl, mat := m }.setFiring sl g) ∧
      Stops (f.trapped t) g ∧ g.stop = 1 ∧ g.trec = trapRecord s n (recorded f t) t fpc rpc word ∧
      ((∀ x, (s.core n).mat = some x → x.slot ≠ sl) → m = (s.core n).mat ∧ g.v = f.v ∧ g.fpst = f.fpst) := by
  have hv : (f.trapped t).v = f.v ∧ (f.trapped t).fpst = f.fpst := by
    unfold Firing.trapped; constructor <;> (dsimp only; split <;> split <;> rfl)
  obtain ⟨g, m, he, hs, hst, htr, -, hm⟩ := stopWith_eq (c := (s.core n).setFiring sl (f.trapped t))
    (coreFiring_setFiring_same _ _ _) 1 (trapRecord s n (recorded f t) t fpc rpc word)
  refine ⟨g, m, ?_, hs, hst, htr, fun h => ?_⟩
  · unfold trapStop
    rw [hf]
    refine (congrArg (s.setCore n) he).trans ?_
    simp [Core.setFiring, spIns_spIns]
  · obtain ⟨h1, h2, h3⟩ := hm h
    exact ⟨h1, h2.trans hv.1, h3.trans hv.2⟩

/-- TAKING A TRAP below the trap handler, where no matrix operation of the firing is to raise FPX first: the firing stops
with the record of Table 17-2 and joins the trap queue of its core. -/
theorem takeTrapAt_eq {s : State} {n sl : Nat} {f : Firing} (hf : s.firing n sl = some f) (hsl : sl ≠ trapSlot)
    (hx : (s.core n).fpxDue sl = none) (t : TrapCause) (fpc rpc word : W64) :
    ∃ g m, takeTrapAt s n sl t fpc rpc word = s.setCore n (({ s.core n with
        sfuQ := (s.core n).sfuQ.filter fun e => e.slot != sl, mat := m }.setFiring sl g).queueTrap sl) ∧
      Stops (f.trapped t) g ∧ g.stop = 1 ∧ g.trec = trapRecord s n (recorded f t) t fpc rpc word ∧
      ((∀ x, (s.core n).mat = some x → x.slot ≠ sl) → m = (s.core n).mat ∧ g.v = f.v ∧ g.fpst = f.fpst) := by
  obtain ⟨g, m, he, hs⟩ := trapStop_eq hf t fpc rpc word
  refine ⟨g, m, ?_, hs⟩
  unfold takeTrapAt trapOrFpx
  rw [hf, hx]
  simp only [hsl, if_false, he, State.updCore, core_setCore_same, setCore_setCore]

/-- Where the firing's matrix operation is to raise FPX, that trap is taken instead, at the operation (R137, R186). -/
theorem takeTrapAt_fpx {s : State} {n sl : Nat} {f : Firing} (hf : s.firing n sl = some f) (hsl : sl ≠ trapSlot) {m : MatOp}
    (hx : (s.core n).fpxDue sl = some m) (t : TrapCause) (fpc rpc word : W64) :
    takeTrapAt s n sl t fpc rpc word =
      (trapStop s n sl (fpxCause m.flags) m.pc m.pc m.word).updCore n fun c => c.queueTrap sl := by
  unfold takeTrapAt trapOrFpx
  rw [hf, hx]
  simp only [hsl, if_false]

/-- A trap changes no memory and no other core, and of its core no other firing. -/
theorem takeTrapAt_frame {s : State} {n sl : Nat} {f : Firing} (hf : s.firing n sl = some f) (hsl : sl ≠ trapSlot)
    (t : TrapCause) (fpc rpc word : W64) (u : State) (hu : u = takeTrapAt s n sl t fpc rpc word) :
    u.mem = s.mem ∧ u.l2 = s.l2 ∧ u.host = s.host ∧ (∀ m, m ≠ n → u.core m = s.core m) ∧
      (∀ r, r ≠ sl → u.firing n r = s.firing n r) ∧ ∀ a, (u.core n).getB a = (s.core n).getB a := by
  have he : ∃ g m, u = s.setCore n (({ s.core n with
      sfuQ := (s.core n).sfuQ.filter fun e => e.slot != sl, mat := m }.setFiring sl g).queueTrap sl) := by
    cases hx : (s.core n).fpxDue sl with
    | none =>
      obtain ⟨g, m, he, -⟩ := takeTrapAt_eq hf hsl hx t fpc rpc word
      exact ⟨g, m, hu.trans he⟩
    | some x =>
      obtain ⟨g, m, he, -⟩ := trapStop_eq hf (fpxCause x.flags) x.pc x.pc x.word
      refine ⟨g, m, ?_⟩
      rw [hu, takeTrapAt_fpx hf hsl hx, he]
      simp only [State.updCore, core_setCore_same, setCore_setCore]
  obtain ⟨g, m, rfl⟩ := he
  refine ⟨rfl, rfl, rfl, fun m hm => core_setCore_other hm, fun r hr => ?_, fun a => ?_⟩
  · rw [firing_setCore_same]
    show spFind (spIns (s.core n).firings sl g) r = spFind (s.core n).firings r
    rw [spFind_spIns, if_neg hr]
  · rw [core_setCore_same]; rfl

/-- A trap at the current instruction is a trap at its PC. -/
theorem takeTrap_eq {s : State} {n sl : Nat} {f : Firing} (hf : s.firing n sl = some f) (t : TrapCause) (l : Len) :
    takeTrap s n sl t l = takeTrapAt s n sl t f.pc (if t.next then nextPc f.pc l else f.pc) (codeWord s n sl f.pc) := by
  unfold takeTrap; rw [hf]

/-! ## The host's queue (R380) -/

/-- An entry of the host's queue changes the host's registers alone: memory is written when a batch is forwarded. -/
theorem pushHost_eq (s : State) (e : List Byte) :
    ∃ x, pushHost s e = { s with host := x } ∧ x.rdy = s.host.rdy ∧ x.mailbox = s.host.mailbox := by
  unfold pushHost
  dsimp only
  split
  · exact ⟨_, rfl, rfl, rfl⟩
  · split <;> exact ⟨_, rfl, rfl, rfl⟩

/-- While the host has not enabled its queue the entry is held. -/
theorem pushHost_held {s : State} (e : List Byte) (h : capReady s 4 = false) (hl : s.host.held.length < Config.heldCap) :
    pushHost s e = { s with host := { s.host with held := s.host.held ++ [e] } } := by
  unfold pushHost; simp [h, hl]

@[simp] theorem pushHost_mem (s : State) (e : List Byte) : (pushHost s e).mem = s.mem := by
  obtain ⟨x, he, -⟩ := pushHost_eq s e
  rw [he]

@[simp] theorem core_pushHost (s : State) (e : List Byte) (n : Nat) : (pushHost s e).core n = s.core n := by
  obtain ⟨x, he, -⟩ := pushHost_eq s e
  rw [he]; rfl

@[simp] theorem firing_pushHost (s : State) (e : List Byte) (n sl : Nat) : (pushHost s e).firing n sl = s.firing n sl := by
  simp [State.firing]

end Sys2Proof.Laws
end

