-- ==== Sys2Proof/Laws/Units.lean ====
section
/-! SUPPORT. Pools of credits, children counted or suppressed, answers of units, writes at home and 8-byte words: what
each of these shared operations changes. -/

namespace Sys2Proof.Laws
open Sys2Proof Sys2Proof.Machine

/-! ## Pools (R273, R274, R281) -/

theorem pool_tag {c : Core} {tag : W32} {e : Credit} (h : c.pool tag = some e) : e.tag = tag := by
  simpa using List.find?_some h

/-- Setting a pool changes the credits alone. -/
theorem setPool_eq (c : Core) (e : Credit) : c.setPool e = { c with credits := (c.setPool e).credits } := by
  unfold Core.setPool; split <;> rfl

/-- A pool that is set reads back. -/
theorem pool_setPool {c : Core} {tag : W32} {e d : Credit} (h : c.pool tag = some e) (ht : d.tag = tag) :
    (c.setPool d).pool tag = some d := by
  unfold Core.setPool
  rw [ht, h]
  simp only [Option.isSome_some, if_true]
  unfold Core.pool at h ⊢
  show List.find? _ (List.map _ c.credits) = _
  revert h
  generalize c.credits = l
  intro h
  induction l with
  | nil => simp at h
  | cons a t ih =>
    simp only [List.map_cons, List.find?_cons] at h ⊢
    by_cases ha : a.tag = tag
    · simp [ha, ht]
    · have hb : (a.tag == tag) = false := by simpa using ha
      rw [hb] at h
      simp only [hb] at h ⊢
      simpa [hb] using ih h

/-- A state whose core n differs in its credits alone, and whose home queue has grown. -/
def PoolMoved (s t : State) (n : Nat) : Prop :=
  t = s ∨ ∃ cr q, t = { s.setCore n { s.core n with credits := cr } with homeQ := s.homeQ ++ q }

theorem poolMoved_trans {s t u : State} {n : Nat} (h : PoolMoved s t n) (k : PoolMoved t u n) : PoolMoved s u n := by
  rcases h with rfl | ⟨cr, q, rfl⟩
  · exact k
  · rcases k with rfl | ⟨cr', q', rfl⟩
    · exact .inr ⟨cr, q, rfl⟩
    · refine .inr ⟨cr', q ++ q', ?_⟩
      simp [State.setCore, State.core, spIns_spIns, spFind_spIns]

/-- What a pool's move leaves: memory, the host, the other cores and every firing. -/
theorem poolMoved_frame {s t : State} {n : Nat} (h : PoolMoved s t n) :
    t.mem = s.mem ∧ t.l2 = s.l2 ∧ t.host = s.host ∧ t.mesh = s.mesh ∧ (∀ m, m ≠ n → t.core m = s.core m) ∧
      ∀ m sl, t.firing m sl = s.firing m sl := by
  rcases h with rfl | ⟨cr, q, rfl⟩
  · exact ⟨rfl, rfl, rfl, rfl, fun _ _ => rfl, fun _ _ => rfl⟩
  · have hc : ∀ m, State.core { s.setCore n { s.core n with credits := cr } with homeQ := s.homeQ ++ q } m =
        (s.setCore n { s.core n with credits := cr }).core m := fun _ => rfl
    refine ⟨rfl, rfl, rfl, rfl, fun m hm => by rw [hc, core_setCore_other hm], fun m sl => ?_⟩
    unfold State.firing
    rw [hc]
    by_cases hm : m = n
    · subst hm; rw [core_setCore_same]; rfl
    · rw [core_setCore_other hm]

theorem returnPool_moves (s : State) (n : Nat) (tag : W32) : PoolMoved s (returnPool s n tag) n := by
  unfold returnPool
  split
  · exact .inl rfl
  · exact .inr ⟨_, _, rfl⟩

theorem roomForPool_moves (s : State) (n : Nat) (tag : W32) : PoolMoved s (roomForPool s n tag) n := by
  unfold roomForPool
  dsimp only
  split
  · exact .inl rfl
  · split
    · exact .inl rfl
    · exact returnPool_moves _ _ _

theorem setPool_moves (s : State) (n : Nat) (e : Credit) : PoolMoved s (s.setCore n ((s.core n).setPool e)) n := by
  refine .inr ⟨((s.core n).setPool e).credits, [], ?_⟩
  rw [← setPool_eq]
  simp [State.setCore]

/-- Adding credits and discards to a pool moves pools alone. -/
theorem poolAdd_moves (s : State) (n : Nat) (tag : W32) (k d : Nat) : PoolMoved s (poolAdd s n tag k d) n := by
  unfold poolAdd
  split
  · dsimp only
    have h := poolMoved_trans (roomForPool_moves s n tag) (setPool_moves (roomForPool s n tag) n
      { ((roomForPool s n tag).core n).pool tag |>.getD ⟨tag, 0, 0⟩ with
        pool := (((roomForPool s n tag).core n).pool tag |>.getD ⟨tag, 0, 0⟩).pool + k,
        disc := (((roomForPool s n tag).core n).pool tag |>.getD ⟨tag, 0, 0⟩).disc + d })
    split
    · exact poolMoved_trans h (returnPool_moves _ _ _)
    · exact h
  · exact .inl rfl

theorem countDiscard_moves (s : State) (n : Nat) (tag : W32) : PoolMoved s (countDiscard s n tag) n := poolAdd_moves _ _ _ _ _

theorem countOff_moves (s : State) (n : Nat) (tag : W32) (k : Nat) : PoolMoved s (countOff s n tag k) n := by
  unfold countOff
  split
  · exact .inl rfl
  · exact poolAdd_moves _ _ _ _ _

/-- Asking for credits changes the home queue alone. -/
theorem askRefill_eq (s : State) (n : Nat) (tag : W32) : ∃ q, askRefill s n tag = { s with homeQ := s.homeQ ++ q } := by
  unfold askRefill
  split
  · exact ⟨[], by simp⟩
  · exact ⟨_, rfl⟩

/-- COUNTING CHILDREN (R273, R274, R281): the filter suppresses the send; else the credits are spent and the send goes, or
the firing waits and the home is asked. -/
theorem countChildren_eq (s : State) (n sl : Nat) (f : Firing) (k : Nat) (send quiet : State → State) :
    ((s.core n).filtered f.ltag = true ∧ countChildren s n sl f k send quiet = quiet (suppress s n f.ltag k)) ∨
    ((s.core n).filtered f.ltag = false ∧ (counted f.ltag = false ∨ k = 0) ∧ countChildren s n sl f k send quiet = send s) ∨
    ((s.core n).filtered f.ltag = false ∧ ∃ e, e = ((s.core n).pool f.ltag).getD ⟨f.ltag, 0, 0⟩ ∧ k ≤ e.pool ∧
      countChildren s n sl f k send quiet = send (s.setCore n ((s.core n).setPool { e with pool := e.pool - k }))) ∨
    ((s.core n).filtered f.ltag = false ∧ (((s.core n).pool f.ltag).getD ⟨f.ltag, 0, 0⟩).pool < k ∧
      countChildren s n sl f k send quiet = askRefill (s.setFiring n sl { f with hold := .credit f.ltag }) n f.ltag) := by
  unfold countChildren withCredits
  cases hf : (s.core n).filtered f.ltag
  · right
    by_cases hc : counted f.ltag = false ∨ k = 0
    · left
      refine ⟨rfl, hc, ?_⟩
      have : (!counted f.ltag || decide (k = 0)) = true := by simpa using hc
      simp [this]
    · right
      have : (!counted f.ltag || decide (k = 0)) = false := by simpa using hc
      by_cases hk : k ≤ (((s.core n).pool f.ltag).getD ⟨f.ltag, 0, 0⟩).pool
      · left; exact ⟨rfl, _, rfl, hk, by simp [this, hk]⟩
      · right; exact ⟨rfl, by omega, by simp [this, hk]⟩
  · left; simp

/-! ## Writes at home (R217) -/

@[simp] theorem getB_l1Invalidate (s : State) (l : Nat) (k : Option (Nat × Nat)) (a : Nat) : (l1Invalidate s l k).getB a = s.getB a := rfl

/-- A change of the L1 lines alone in every listed core. -/
theorem mapCores_l1d (s : State) (p : Nat → Core → Core) (hp : ∀ n c, p n c = { c with l1d := (p n c).l1d }) :
    ∃ g : Nat → Core → List L1Line, s.mapCores p =
      { s with cores := s.cores.map (fun e => (e.1, { e.2 with l1d := g e.1 e.2 })) } :=
  ⟨fun n c => (p n c).l1d, congrArg (fun x => ({ s with cores := x } : State))
    (List.map_congr_left fun e _ => congrArg (Prod.mk e.1) (hp e.1 e.2))⟩

/-- A write at home changes memory, and of the cores the L1 lines alone. -/
theorem homeWrite_eq (s : State) (cells : List (Nat × Byte)) (iss : Option (Nat × Nat)) :
    ∃ g : Nat → Core → List L1Line, ∃ m, homeWrite s cells iss =
      { s with cores := s.cores.map (fun e => (e.1, { e.2 with l1d := g e.1 e.2 })), mem := m } ∧
      (Memory.wf s.mem = true → Memory.wf m = true) ∧ ∀ a, (∀ c ∈ cells, c.1 ≠ a) → spGet (0 : Byte) m a = s.getB a := by
  induction cells generalizing s with
  | nil => exact ⟨fun _ c => c.l1d, s.mem, by simp [homeWrite], id, fun _ _ => rfl⟩
  | cons c t ih =>
    have step : ∃ g : Nat → Core → List L1Line, l1Invalidate (s.putB c.1 c.2) (c.1 / 128) iss =
        { s.putB c.1 c.2 with cores := s.cores.map (fun e => (e.1, { e.2 with l1d := g e.1 e.2 })) } := by
      unfold l1Invalidate
      exact mapCores_l1d _ _ fun n c => by split <;> rfl
    obtain ⟨g, hg⟩ := step
    obtain ⟨g', m, he, hw, ho⟩ := ih (l1Invalidate (s.putB c.1 c.2) (c.1 / 128) iss)
    refine ⟨fun n x => g' n { x with l1d := g n x }, m, ?_, fun h => hw ?_, fun a ha => ?_⟩
    · show homeWrite (l1Invalidate (s.putB c.1 c.2) (c.1 / 128) iss) t iss = _
      rw [he, hg]
      simp [State.putB, Function.comp_def]
    · rw [hg]; exact wf_putB _ _ h
    · rw [ho a (fun x hx => ha x (List.mem_cons_of_mem _ hx)), getB_l1Invalidate, getB_putB,
        if_neg (fun h => ha c (List.mem_cons_self ..) h.symm)]

theorem wf_homeWrite {s : State} (cells : List (Nat × Byte)) (iss : Option (Nat × Nat)) (h : Memory.wf s.mem = true) :
    Memory.wf (homeWrite s cells iss).mem = true := by
  obtain ⟨g, m, he, hw, -⟩ := homeWrite_eq s cells iss
  rw [he]; exact hw h

theorem getB_homeWrite_other {s : State} {cells : List (Nat × Byte)} {iss : Option (Nat × Nat)} {a : Nat}
    (h : ∀ c ∈ cells, c.1 ≠ a) : (homeWrite s cells iss).getB a = s.getB a := by
  obtain ⟨g, m, he, -, ho⟩ := homeWrite_eq s cells iss
  rw [he]; exact ho a h

/-- The last byte written to an address reads back. -/
theorem getB_homeWrite_last (s : State) (xs ys : List (Nat × Byte)) (c : Nat × Byte) (iss : Option (Nat × Nat))
    (h : ∀ y ∈ ys, y.1 ≠ c.1) : (homeWrite s (xs ++ c :: ys) iss).getB c.1 = c.2 := by
  have e : homeWrite s (xs ++ c :: ys) iss =
      homeWrite (l1Invalidate ((homeWrite s xs iss).putB c.1 c.2) (c.1 / 128) iss) ys iss := by
    simp [homeWrite]
  rw [e, getB_homeWrite_other h, getB_l1Invalidate, getB_putB, if_pos rfl]

/-- A write at home leaves every core but for its L1 lines. -/
theorem core_homeWrite (s : State) (cells : List (Nat × Byte)) (iss : Option (Nat × Nat)) (n : Nat) :
    ∃ l, (homeWrite s cells iss).core n = { s.core n with l1d := l } := by
  obtain ⟨g, m, he, -⟩ := homeWrite_eq s cells iss
  have hfind : ∀ l : Sparse Core, spFind (l.map fun e => (e.1, { e.2 with l1d := g e.1 e.2 })) n =
      (spFind l n).map fun c => { c with l1d := g n c } := by
    intro l
    induction l with
    | nil => rfl
    | cons e t ih =>
      obtain ⟨k, c⟩ := e
      by_cases hk : n = k
      · subst hk; simp [spFind]
      · simp [spFind, hk, ih]
  rw [he]
  unfold State.core
  dsimp only
  rw [hfind]
  cases spFind s.cores n with
  | none => exact ⟨_, rfl⟩
  | some c => exact ⟨g n c, rfl⟩

/-- A write at home leaves every firing. -/
@[simp] theorem firing_homeWrite (s : State) (cells : List (Nat × Byte)) (iss : Option (Nat × Nat)) (n sl : Nat) :
    (homeWrite s cells iss).firing n sl = s.firing n sl := by
  obtain ⟨l, h⟩ := core_homeWrite s cells iss n
  unfold State.firing
  rw [h]; rfl

/-! ## Answers of units -/

/-- An answer changes the deposits of one firing, or nothing. -/
theorem answerFiring_eq (s : State) (n uid seq : Nat) (ws : List W64) :
    answerFiring s n uid seq ws = s ∨ ∃ sl f ds, s.firing n sl = some f ∧ (s.core n).slotOf uid = some sl ∧
      answerFiring s n uid seq ws = s.setFiring n sl { f with deps := ds } := by
  unfold answerFiring
  split
  · exact .inl rfl
  · rename_i sl hs
    split
    · exact .inl rfl
    · rename_i f hf
      right
      unfold Firing.answerWords
      split
      · exact ⟨sl, f, f.deps, hf, hs, rfl⟩
      · exact ⟨sl, f, _, hf, hs, rfl⟩

/-- The answer of a unit lands in the one register of its deposit. -/
theorem answerFiring_one {s : State} {n uid seq sl : Nat} {f : Firing} {d : Dep} {r : Nat} {w : W64}
    (hs : (s.core n).slotOf uid = some sl) (hf : s.firing n sl = some f)
    (hd : f.deps.find? (fun d => d.seq == seq) = some d) (hr : d.sregs = [r]) :
    answerFiring s n uid seq [w] = s.setFiring n sl (f.answer seq [(r, w)] []) := by
  simp [answerFiring, hs, hf, Firing.answerWords, hd, hr]

end Sys2Proof.Laws
end

