-- ==== Sys2Proof/Laws/Home.lean ====
section
/-! SUPPORT. The memory's canonical form through the operations at home: write-backs, stores at their points, atomics,
records, the package's number. -/

namespace Sys2Proof.Laws
open Sys2Proof Sys2Proof.Machine

@[simp] theorem mem_mapCores (s : State) (g : Nat → Core → Core) : (s.mapCores g).mem = s.mem := rfl
@[simp] theorem mem_setCopy (s : State) (l t : Nat) (c : L2Copy) : (s.setCopy l t c).mem = s.mem := rfl
@[simp] theorem mem_updCore (s : State) (n : Nat) (g : Core → Core) : (s.updCore n g).mem = s.mem := rfl

theorem wf_homePut {s : State} (k : Nat) (bs : List Byte) (h : Memory.wf s.mem = true) : Memory.wf (homePut s k bs).mem = true :=
  wf_homeWrite _ _ h

theorem wf_writeBack {s : State} (site line : Nat) (h : Memory.wf s.mem = true) : Memory.wf (writeBack s site line).mem = true := by
  unfold writeBack
  split
  · exact h
  · exact wf_homeWrite _ _ h

/-- The bytes that a read of another package finds stored there keep the canonical form. -/
theorem wf_farSync {s : State} (key n : Nat) (h : Memory.wf s.mem = true) : Memory.wf (farSync s key n).mem = true := by
  unfold farSync
  split
  · exact h
  · refine List.foldlRecOn (motive := fun m => Memory.wf m = true) (List.range n) _ h fun m hm i _ => ?_
    split
    · exact spWf_spPut _ _ hm
    · exact hm

/-- A read at home in the own package changes nothing. -/
theorem farSync_own {s : State} {key n : Nat} (h : keyPkg key = s.pkg.toNat) : farSync s key n = s := by simp [farSync, h]

theorem wf_evictCopy {s : State} (site line : Nat) (h : Memory.wf s.mem = true) : Memory.wf (evictCopy s site line).mem = true :=
  wf_writeBack site line h

/-- Updating the die's clean copy writes no memory. -/
@[simp] theorem mem_copyUpdate (s : State) (site key : Nat) (b : Byte) : (copyUpdate s site key b).mem = s.mem := by
  unfold copyUpdate
  dsimp only
  split
  · rfl
  · split <;> rfl

/-- Room for a line's copy in a full set is made by an eviction, which may write its dirty bytes home (R219). -/
theorem wf_makeRoom {s : State} (line site : Nat) (h : Memory.wf s.mem = true) : Memory.wf (makeRoom s line site).mem = true := by
  unfold makeRoom
  split
  · exact h
  · dsimp only
    split
    · exact wf_evictCopy _ _ h
    · exact h

theorem makeRoom_eq {s : State} {line site : Nat} (h : hasRoom s line site = true) : makeRoom s line site = s := by
  simp [makeRoom, h]

theorem wf_copyWrite {s : State} (site key : Nat) (b : Byte) (h : Memory.wf s.mem = true) :
    Memory.wf (copyWrite s site key b).mem = true := by
  unfold copyWrite
  dsimp only
  rw [mem_setCopy]
  exact wf_makeRoom _ _ h

theorem mem_copyWrite {s : State} {site key : Nat} (b : Byte) (h : hasRoom s (key / 128) site = true) :
    (copyWrite s site key b).mem = s.mem := by
  unfold copyWrite
  dsimp only
  rw [mem_setCopy, makeRoom_eq h]

@[simp] theorem mem_l1Update (s : State) (n va : Nat) (b : Byte) : (l1Update s n va b).mem = s.mem := rfl

theorem wf_storeG {s : State} (n : Nat) (c : Cell) (h : Memory.wf s.mem = true) : Memory.wf (storeG s n c).mem = true := by
  unfold storeG
  dsimp only
  rw [mem_copyUpdate, mem_l1Update]
  exact wf_homeWrite _ _ (wf_writeBack _ _ h)

theorem wf_storeE {s : State} (n : Nat) (c : Cell) (h : Memory.wf s.mem = true) : Memory.wf (storeE s n c).mem = true := by
  unfold storeE
  dsimp only
  rw [mem_l1Update]
  split
  · exact wf_homeWrite _ _ h
  · exact wf_copyWrite _ _ c.b h

theorem wf_storeR {s : State} (n : Nat) (c : Cell) (h : Memory.wf s.mem = true) : Memory.wf (storeR s n c).mem = true := by
  unfold storeR
  dsimp only
  rw [mem_copyUpdate, mem_updCore]
  exact wf_homeWrite _ _ (wf_writeBack _ _ h)

theorem wf_recAdd {s : State} (i : Nat) (x : W64) (h : Memory.wf s.mem = true) : Memory.wf (recAdd s i x).mem = true :=
  wf_homePut _ _ h

/-- An .E store away from its home writes no memory while the die's L2 has room for the line (R214, R217). -/
theorem mem_storeE_away {s : State} {n : Nat} {c : Cell} (h : homeSite s c.pa ≠ siteOf s n)
    (hr : hasRoom s (c.pa / 128) (siteOf s n) = true) : (storeE s n c).mem = s.mem := by
  simp [storeE, h, mem_copyWrite, hr]

/-- A package's new number keeps the memory's form. -/
theorem wf_rekey (s : State) (p : BitVec 17) : Memory.wf (rekey s p).mem = true := by
  unfold rekey
  exact spWf_foldl (d := (0 : Byte)) (fun e : Nat × Byte => if keyPkg e.1 = s.pkg.toNat then memKey p.toNat (keyPa e.1)
    else if keyPkg e.1 = p.toNat then memKey s.pkg.toNat (keyPa e.1) else e.1) (fun e => e.2) s.mem [] rfl

/-- A line written back changes no byte of another line. -/
theorem getB_writeBack_other {s : State} {site line a : Nat} (h : a / 128 ≠ line) : (writeBack s site line).getB a = s.getB a := by
  unfold writeBack
  split
  · rfl
  · refine getB_homeWrite_other fun c hc => ?_
    obtain ⟨i, hi, he⟩ := List.mem_filterMap.mp hc
    have := List.mem_range.mp hi
    split at he
    · cases he; show line * 128 + i ≠ a; omega
    · cases he

end Sys2Proof.Laws
end

