-- ==== Sys2Proof/Laws/PerInstr.lean ====
section
/-! SUPPORT. One family over every instruction: the field readers give an instruction back from the fields the encoder
makes of it (`RoundTrip`), which with the packing of fields into words gives decode and encode. -/

namespace Sys2Proof.Laws
open Sys2Proof Sys2Proof.Machine

theorem and_l {a b : Bool} (h : (a && b) = true) : a = true := ((Bool.and_eq_true _ _).mp h).1
theorem and_r {a b : Bool} (h : (a && b) = true) : b = true := ((Bool.and_eq_true _ _).mp h).2

/-! ## What well-formedness says of a destination and of source A -/

theorem legalAlu_nw {x y : Bool} {o : AluOps} (h : legalAlu x y o = true) : nwD o.h o.d = true := and_l (and_l h)
theorem legalUn_nw {x y : Bool} {o : UnOps} (h : legalUn x y o = true) : nwD o.h o.d = true := and_l (and_l h)
theorem legalF_nw {x : Bool} {o : FOps} (h : legalF x o = true) : nwD o.h o.d = true := and_l (and_l h)
theorem legalVF_nw {x : Bool} {o : VFOps} (h : legalVF x o = true) : nwD o.h o.d = true ∧ laneA o.a = true :=
  ⟨and_l (and_l (and_l (and_l h))), and_r (and_l h)⟩
theorem legalVFUn_nw {x : Nat} {o : VFUnOps} (h : legalVFUn x o = true) : nwD o.h o.d = true ∧ laneA o.a = true :=
  ⟨and_l (and_l (and_l h)), and_r (and_l h)⟩
theorem legalCvt_nw {p q : Nat → Bool} {o : CvtOps} (h : legalCvt p q o = true) :
    (match o.opd with | .scalar d _ => nwD o.h d | .lane d a => nwD o.h d && laneA a) = true := by
  obtain ⟨hd, opd, dst, src, z, rm, t⟩ := o
  have h2 := and_r h
  cases opd with
  | scalar d a => exact h2
  | lane d a => exact and_l (and_l (and_l (and_l (and_l (and_l h2)))))
theorem legalPack_nw {o : PackOps} (h : legalPack o = true) :
    (o.fmt.toNat ≤ 1 → nwD o.h o.d = true) ∧ laneA o.a = true := by
  refine ⟨fun hf => ?_, and_r (and_l (and_l h))⟩
  have h2 := and_r h
  rcases (show o.fmt.toNat = 0 ∨ o.fmt.toNat = 1 by omega) with h0 | h0 <;> simp only [h0] at h2 <;> exact and_r h2
theorem legalEf_nw {o : EfOps} (h : legalEf o = true) : nwD o.h o.d = true ∧ laneA o.a = true :=
  ⟨and_r (and_l (and_l (and_l (and_l h)))), and_r (and_l (and_l (and_l h)))⟩
theorem voteLane_of {s : VoteSrc}
    (h : (match s with | .pred _ _ => true | .val a _ => laneA a | .valImm a _ => laneA a) = true) : voteLane s = true := by
  cases s <;> exact h

/-! ## Opcodes of the forms with more than one layout -/

theorem fBfi_op (o : BfiOps) : (fBfi o).op = 0x022 := by unfold fBfi; split <;> rfl
theorem fVBfi_op (o : VBfiOps) : (fVBfi o).op = 0x111 := by unfold fVBfi; split <;> rfl
theorem fStoq_op (o : StoqOps) : (fStoq o).op = 0x045 := by unfold fStoq; split <;> rfl
theorem fSend_op (o : SendOps) : (fSend o).op = 0x1C0 := by unfold fSend; split <;> rfl
theorem fPref_op (o : PrefOps) : (fPref o).op = 0x186 := by unfold fPref; split <;> rfl
theorem fMem_op (op : BitVec 9) (o : MemOps) : (fMem op o).op = op := by unfold fMem; split <;> rfl
theorem fCvt_op (op : BitVec 9) (o : CvtOps) : (fCvt op o).op = op := by simp only [fCvt]; split <;> rfl
theorem fIdx_op (h : Head) (op : BitVec 9) (d : BitVec 8) (sa : BitVec 9) (m : BitVec 7) (i : LaneIdx) :
    (fIdx h op d sa m i).op = op := by cases i <;> rfl
theorem fVote_op (h : Head) (d : BitVec 8) (k : BitVec 2) (s : VoteSrc) : (fVote h d k s).op = 0x120 := by cases s <;> rfl

/-! ## The opcode map -/

theorem group0 {f : Fields} {op : BitVec 9} {i : Instr} (hop : f.op = op) (hk : (op.extractLsb' 6 3).toNat = 0)
    (h : decGroup0 f = some i) : parseFields f = some i := by
  simp only [parseFields, hop, hk]; exact h

theorem group1 {f : Fields} {op : BitVec 9} {i : Instr} (hop : f.op = op) (hk : (op.extractLsb' 6 3).toNat = 1)
    (h : decGroup1 f = some i) : parseFields f = some i := by
  simp only [parseFields, hop, hk]; exact h

theorem group2 {f : Fields} {op : BitVec 9} {i : Instr} (hop : f.op = op) (hk : (op.extractLsb' 6 3).toNat = 2)
    (h : decGroup2 f = some i) : parseFields f = some i := by
  simp only [parseFields, hop, hk]; exact h

theorem group3 {f : Fields} {op : BitVec 9} {i : Instr} (hop : f.op = op) (hk : (op.extractLsb' 6 3).toNat = 3)
    (h : decGroup3 f = some i) : parseFields f = some i := by
  simp only [parseFields, hop, hk]; exact h

theorem group4 {f : Fields} {op : BitVec 9} {i : Instr} (hop : f.op = op) (hk : (op.extractLsb' 6 3).toNat = 4)
    (h : decGroup4 f = some i) : parseFields f = some i := by
  simp only [parseFields, hop, hk]; exact h

theorem group5 {f : Fields} {op : BitVec 9} {i : Instr} (hop : f.op = op) (hk : (op.extractLsb' 6 3).toNat = 5)
    (h : decGroup5 f = some i) : parseFields f = some i := by
  simp only [parseFields, hop, hk]; exact h

theorem group6 {f : Fields} {op : BitVec 9} {i : Instr} (hop : f.op = op) (hk : (op.extractLsb' 6 3).toNat = 6)
    (h : decGroup6 f = some i) : parseFields f = some i := by
  simp only [parseFields, hop, hk]; exact h

theorem group7 {f : Fields} {op : BitVec 9} {i : Instr} (hop : f.op = op) (hk : (op.extractLsb' 6 3).toNat = 7)
    (h : decGroup7 f = some i) : parseFields f = some i := by
  simp only [parseFields, hop, hk]; exact h

/-! ## The family -/

/-- A well-formed instruction is what the field readers give from its fields. -/
def RoundTrip.Statement (i : Instr) : Prop := ∀ f, toFields i = some f → WellFormed i → parseFields f = some i

theorem RoundTrip.add (o : AluOps) : RoundTrip.Statement (.add o) := by
  intro f hf hl; cases hf; exact group0 (op := 0x000) (rfl) (by decide) (decAlu_fAlu _ _ o (legalAlu_nw hl))

theorem RoundTrip.sub (o : AluOps) : RoundTrip.Statement (.sub o) := by
  intro f hf hl; cases hf; exact group0 (op := 0x001) (rfl) (by decide) (decAlu_fAlu _ _ o (legalAlu_nw hl))

theorem RoundTrip.mul (o : AluOps) : RoundTrip.Statement (.mul o) := by
  intro f hf hl; cases hf; exact group0 (op := 0x002) (rfl) (by decide) (decAlu_fAlu _ _ o (legalAlu_nw hl))

theorem RoundTrip.mulh (o : AluOps) : RoundTrip.Statement (.mulh o) := by
  intro f hf hl; cases hf; exact group0 (op := 0x003) (rfl) (by decide) (decAlu_fAlu _ _ o (legalAlu_nw hl))

theorem RoundTrip.mulhu (o : AluOps) : RoundTrip.Statement (.mulhu o) := by
  intro f hf hl; cases hf; exact group0 (op := 0x004) (rfl) (by decide) (decAlu_fAlu _ _ o (legalAlu_nw hl))

theorem RoundTrip.div (o : AluOps) : RoundTrip.Statement (.div o) := by
  intro f hf hl; cases hf; exact group0 (op := 0x005) (rfl) (by decide) (decAlu_fAlu _ _ o (legalAlu_nw hl))

theorem RoundTrip.divu (o : AluOps) : RoundTrip.Statement (.divu o) := by
  intro f hf hl; cases hf; exact group0 (op := 0x006) (rfl) (by decide) (decAlu_fAlu _ _ o (legalAlu_nw hl))

theorem RoundTrip.rem (o : AluOps) : RoundTrip.Statement (.rem o) := by
  intro f hf hl; cases hf; exact group0 (op := 0x007) (rfl) (by decide) (decAlu_fAlu _ _ o (legalAlu_nw hl))

theorem RoundTrip.remu (o : AluOps) : RoundTrip.Statement (.remu o) := by
  intro f hf hl; cases hf; exact group0 (op := 0x008) (rfl) (by decide) (decAlu_fAlu _ _ o (legalAlu_nw hl))

theorem RoundTrip.min (o : AluOps) : RoundTrip.Statement (.min o) := by
  intro f hf hl; cases hf; exact group0 (op := 0x009) (rfl) (by decide) (decAlu_fAlu _ _ o (legalAlu_nw hl))

theorem RoundTrip.max (o : AluOps) : RoundTrip.Statement (.max o) := by
  intro f hf hl; cases hf; exact group0 (op := 0x00A) (rfl) (by decide) (decAlu_fAlu _ _ o (legalAlu_nw hl))

theorem RoundTrip.minu (o : AluOps) : RoundTrip.Statement (.minu o) := by
  intro f hf hl; cases hf; exact group0 (op := 0x00B) (rfl) (by decide) (decAlu_fAlu _ _ o (legalAlu_nw hl))

theorem RoundTrip.maxu (o : AluOps) : RoundTrip.Statement (.maxu o) := by
  intro f hf hl; cases hf; exact group0 (op := 0x00C) (rfl) (by decide) (decAlu_fAlu _ _ o (legalAlu_nw hl))

theorem RoundTrip.abs (o : UnOps) : RoundTrip.Statement (.abs o) := by
  intro f hf hl; cases hf; exact group0 (op := 0x00D) (rfl) (by decide) (decUn_fUn _ _ o (legalUn_nw (and_l hl)))

theorem RoundTrip.and (o : AluOps) : RoundTrip.Statement (.and o) := by
  intro f hf hl; cases hf; exact group0 (op := 0x010) (rfl) (by decide) (decAlu_fAlu _ _ o (legalAlu_nw hl))

theorem RoundTrip.or (o : AluOps) : RoundTrip.Statement (.or o) := by
  intro f hf hl; cases hf; exact group0 (op := 0x011) (rfl) (by decide) (decAlu_fAlu _ _ o (legalAlu_nw hl))

theorem RoundTrip.xor (o : AluOps) : RoundTrip.Statement (.xor o) := by
  intro f hf hl; cases hf; exact group0 (op := 0x012) (rfl) (by decide) (decAlu_fAlu _ _ o (legalAlu_nw hl))

theorem RoundTrip.andn (o : AluOps) : RoundTrip.Statement (.andn o) := by
  intro f hf hl; cases hf; exact group0 (op := 0x013) (rfl) (by decide) (decAlu_fAlu _ _ o (legalAlu_nw hl))

theorem RoundTrip.orn (o : AluOps) : RoundTrip.Statement (.orn o) := by
  intro f hf hl; cases hf; exact group0 (op := 0x014) (rfl) (by decide) (decAlu_fAlu _ _ o (legalAlu_nw hl))

theorem RoundTrip.shl (o : AluOps) : RoundTrip.Statement (.shl o) := by
  intro f hf hl; cases hf; exact group0 (op := 0x018) (rfl) (by decide) (decAlu_fAlu _ _ o (legalAlu_nw hl))

theorem RoundTrip.shr (o : AluOps) : RoundTrip.Statement (.shr o) := by
  intro f hf hl; cases hf; exact group0 (op := 0x019) (rfl) (by decide) (decAlu_fAlu _ _ o (legalAlu_nw hl))

theorem RoundTrip.sar (o : AluOps) : RoundTrip.Statement (.sar o) := by
  intro f hf hl; cases hf; exact group0 (op := 0x01A) (rfl) (by decide) (decAlu_fAlu _ _ o (legalAlu_nw hl))

theorem RoundTrip.rol (o : AluOps) : RoundTrip.Statement (.rol o) := by
  intro f hf hl; cases hf; exact group0 (op := 0x01B) (rfl) (by decide) (decAlu_fAlu _ _ o (legalAlu_nw hl))

theorem RoundTrip.bfx (o : AluOps) : RoundTrip.Statement (.bfx o) := by
  intro f hf hl; cases hf; exact group0 (op := 0x020) (rfl) (by decide) (decAlu_fAlu _ _ o (legalAlu_nw (and_l hl)))

theorem RoundTrip.bfxu (o : AluOps) : RoundTrip.Statement (.bfxu o) := by
  intro f hf hl; cases hf; exact group0 (op := 0x021) (rfl) (by decide) (decAlu_fAlu _ _ o (legalAlu_nw (and_l hl)))

theorem RoundTrip.bfi (o : BfiOps) : RoundTrip.Statement (.bfi o) := by
  intro f hf hl; cases hf; exact group0 (op := 0x022) (fBfi_op o) (by decide) (by
    simp only [decGroup0, fBfi_op o]; exact decBfi_fBfi o (and_l hl))

theorem RoundTrip.popc (o : UnOps) : RoundTrip.Statement (.popc o) := by
  intro f hf hl; cases hf; exact group0 (op := 0x024) (rfl) (by decide) (decUn_fUn _ _ o (legalUn_nw hl))

theorem RoundTrip.clz (o : UnOps) : RoundTrip.Statement (.clz o) := by
  intro f hf hl; cases hf; exact group0 (op := 0x025) (rfl) (by decide) (decUn_fUn _ _ o (legalUn_nw hl))

theorem RoundTrip.ctz (o : UnOps) : RoundTrip.Statement (.ctz o) := by
  intro f hf hl; cases hf; exact group0 (op := 0x026) (rfl) (by decide) (decUn_fUn _ _ o (legalUn_nw hl))

theorem RoundTrip.brev (o : UnOps) : RoundTrip.Statement (.brev o) := by
  intro f hf hl; cases hf; exact group0 (op := 0x027) (rfl) (by decide) (decUn_fUn _ _ o (legalUn_nw hl))

theorem RoundTrip.bswap (o : UnOps) : RoundTrip.Statement (.bswap o) := by
  intro f hf hl; cases hf; exact group0 (op := 0x028) (rfl) (by decide) (decUn_fUn _ _ o (legalUn_nw hl))

theorem RoundTrip.mov (o : UnOps) : RoundTrip.Statement (.mov o) := by
  intro f hf hl; cases hf; exact group0 (op := 0x030) (rfl) (by decide) (decUn_fUn _ _ o (legalUn_nw hl))

theorem RoundTrip.movi (o : MoviOps) : RoundTrip.Statement (.movi o) := by
  intro f hf hl; cases hf; exact group0 (op := 0x031) (fImm_op _ _ _ _ _) (by decide) (by
    simp only [decGroup0, fImm_op _ _ _ _ _]; exact decMovi_fImm o hl)

theorem RoundTrip.moviZx (o : MoviXOps) : RoundTrip.Statement (.moviZx o) := by
  intro f hf hl; cases hf; exact group0 (op := 0x031) (rfl) (by decide) (decMovi_zx o hl)

theorem RoundTrip.moviHi (o : MoviXOps) : RoundTrip.Statement (.moviHi o) := by
  intro f hf hl; cases hf; exact group0 (op := 0x031) (rfl) (by decide) (decMovi_hi o)

theorem RoundTrip.lea (o : LeaOps) : RoundTrip.Statement (.lea o) := by
  intro f hf hl; cases hf; exact group0 (op := 0x032) (rfl) (by decide) (decLea_lea o hl)

theorem RoundTrip.leaPc (o : LeaPcOps) : RoundTrip.Statement (.leaPc o) := by
  intro f hf hl; cases hf; exact group0 (op := 0x032) (rfl) (by decide) (decLea_pc o hl)

theorem RoundTrip.sel (o : SelOps) : RoundTrip.Statement (.sel o) := by
  intro f hf hl; cases hf; exact group0 (op := 0x033) (rfl) (by decide) (decSel_sel o hl)

theorem RoundTrip.cmp (o : CmpOps) : RoundTrip.Statement (.cmp o) := by
  intro f hf hl; cases hf; exact group1 (op := 0x040) (rfl) (by decide) (decCmp_fCmp _ _ o)

theorem RoundTrip.fcmp (o : CmpOps) : RoundTrip.Statement (.fcmp o) := by
  intro f hf hl; cases hf; exact group1 (op := 0x041) (rfl) (by decide) (decCmp_fCmp _ _ o)

theorem RoundTrip.vcmp (o : VCmpOps) : RoundTrip.Statement (.vcmp o) := by
  intro f hf hl; cases hf; exact group1 (op := 0x042) (rfl) (by decide) (decVCmp_fVCmp _ _ o (and_r hl))

theorem RoundTrip.vfcmp (o : VCmpOps) : RoundTrip.Statement (.vfcmp o) := by
  intro f hf hl; cases hf; exact group1 (op := 0x043) (rfl) (by decide) (decVCmp_fVCmp _ _ o (and_r (and_l hl)))

theorem RoundTrip.plop (o : PlopOps) : RoundTrip.Statement (.plop o) := by
  intro f hf hl; cases hf; exact group1 (op := 0x044) (rfl) (by decide) (decPlop_plop o)

theorem RoundTrip.pset (o : PsetOps) : RoundTrip.Statement (.pset o) := by
  intro f hf hl; cases hf; exact group1 (op := 0x047) (rfl) (by decide) (decPset_pset o)

theorem RoundTrip.pmovKtos (o : DOps) : RoundTrip.Statement (.pmovKtos o) := by
  intro f hf hl; cases hf; exact group1 (op := 0x045) (rfl) (by decide) (decPmov_ktos o hl)

theorem RoundTrip.pmovStok (o : StokOps) : RoundTrip.Statement (.pmovStok o) := by
  intro f hf hl; cases hf; exact group1 (op := 0x045) (rfl) (by decide) (decPmov_stok o)

theorem RoundTrip.pmovQtos (o : QtosOps) : RoundTrip.Statement (.pmovQtos o) := by
  intro f hf hl; cases hf; exact group1 (op := 0x045) (rfl) (by decide) (decPmov_qtos o hl)

theorem RoundTrip.pmovStoq (o : StoqOps) : RoundTrip.Statement (.pmovStoq o) := by
  intro f hf hl; cases hf; exact group1 (op := 0x045) (fStoq_op o) (by decide) (by
    simp only [decGroup1, fStoq_op o]; exact decPmov_stoq o)

theorem RoundTrip.vpmovQtov (o : QtovOps) : RoundTrip.Statement (.vpmovQtov o) := by
  intro f hf hl; cases hf; exact group1 (op := 0x046) (rfl) (by decide) (decVpmov_qtov o hl)

theorem RoundTrip.vpmovVtoq (o : VtoqOps) : RoundTrip.Statement (.vpmovVtoq o) := by
  intro f hf hl; cases hf; exact group1 (op := 0x046) (rfl) (by decide) (decVpmov_vtoq o hl)

theorem RoundTrip.nop (o : NopOps) : RoundTrip.Statement (.nop o) := by
  intro f hf hl; cases hf; exact group2 (op := 0x080) (rfl) (by decide) (decNop_nop o)

theorem RoundTrip.br (o : BrOps) : RoundTrip.Statement (.br o) := by
  intro f hf hl; cases hf; exact group2 (op := 0x081) (fImm_op _ _ _ _ _) (by decide) (by
    simp only [decGroup2, fImm_op _ _ _ _ _]; exact decBr_fImm _ _ o)

theorem RoundTrip.bra (o : BrOps) : RoundTrip.Statement (.bra o) := by
  intro f hf hl; cases hf; exact group2 (op := 0x082) (fImm_op _ _ _ _ _) (by decide) (by
    simp only [decGroup2, fImm_op _ _ _ _ _]; exact decBr_fImm _ _ o)

theorem RoundTrip.bru (o : BrOps) : RoundTrip.Statement (.bru o) := by
  intro f hf hl; cases hf; exact group2 (op := 0x083) (fImm_op _ _ _ _ _) (by decide) (by
    simp only [decGroup2, fImm_op _ _ _ _ _]; exact decBr_fImm _ _ o)

theorem RoundTrip.brx (o : BrxOps) : RoundTrip.Statement (.brx o) := by
  intro f hf hl; cases hf; exact group2 (op := 0x084) (fImm_op _ _ _ _ _) (by decide) (by
    simp only [decGroup2, fImm_op _ _ _ _ _]; exact decBrx_fImm o)

theorem RoundTrip.call (o : DBrOps) : RoundTrip.Statement (.call o) := by
  intro f hf hl; cases hf; exact group2 (op := 0x085) (fImm_op _ _ _ _ _) (by decide) (by
    simp only [decGroup2, fImm_op _ _ _ _ _]; exact decDBr_fImm _ _ o)

theorem RoundTrip.ret (o : AOps) : RoundTrip.Statement (.ret o) := by
  intro f hf hl; cases hf; exact group2 (op := 0x086) (rfl) (by decide) (decA_fA 0 _ _ o)

theorem RoundTrip.loop (o : DBrOps) : RoundTrip.Statement (.loop o) := by
  intro f hf hl; cases hf; exact group2 (op := 0x087) (fImm_op _ _ _ _ _) (by decide) (by
    simp only [decGroup2, fImm_op _ _ _ _ _]; exact decDBr_fImm _ _ o)

theorem RoundTrip.join (o : HOps) : RoundTrip.Statement (.join o) := by
  intro f hf hl; cases hf; exact group2 (op := 0x088) (rfl) (by decide) (decH_fH _ _ o)

theorem RoundTrip.yield (o : HOps) : RoundTrip.Statement (.yield o) := by
  intro f hf hl; cases hf; exact group2 (op := 0x089) (rfl) (by decide) (decH_fH _ _ o)

theorem RoundTrip.setpri (o : SetPriOps) : RoundTrip.Statement (.setpri o) := by
  intro f hf hl; cases hf; exact group2 (op := 0x08A) (rfl) (by decide) (decSetpri_setpri o)

theorem RoundTrip.getpri (o : VDOps) : RoundTrip.Statement (.getpri o) := by
  intro f hf hl; cases hf; exact group2 (op := 0x08B) (rfl) (by decide) (decGetpri_getpri o)

theorem RoundTrip.done (o : HOps) : RoundTrip.Statement (.done o) := by
  intro f hf hl; cases hf; exact group2 (op := 0x08C) (rfl) (by decide) (decH_fH _ _ o)

theorem RoundTrip.fadd (o : FOps) : RoundTrip.Statement (.fadd o) := by
  intro f hf hl; cases hf; exact group3 (op := 0x0C0) (rfl) (by decide) (decF_fF _ _ o (legalF_nw hl))

theorem RoundTrip.fsub (o : FOps) : RoundTrip.Statement (.fsub o) := by
  intro f hf hl; cases hf; exact group3 (op := 0x0C1) (rfl) (by decide) (decF_fF _ _ o (legalF_nw hl))

theorem RoundTrip.fmul (o : FOps) : RoundTrip.Statement (.fmul o) := by
  intro f hf hl; cases hf; exact group3 (op := 0x0C2) (rfl) (by decide) (decF_fF _ _ o (legalF_nw hl))

theorem RoundTrip.ffma (o : FmaOps) : RoundTrip.Statement (.ffma o) := by
  intro f hf hl; cases hf; exact group3 (op := 0x0C3) (rfl) (by decide) (decFfma_ffma o hl)

theorem RoundTrip.fmin (o : FOps) : RoundTrip.Statement (.fmin o) := by
  intro f hf hl; cases hf; exact group3 (op := 0x0C4) (rfl) (by decide) (decF_fF _ _ o (legalF_nw hl))

theorem RoundTrip.fmax (o : FOps) : RoundTrip.Statement (.fmax o) := by
  intro f hf hl; cases hf; exact group3 (op := 0x0C5) (rfl) (by decide) (decF_fF _ _ o (legalF_nw hl))

theorem RoundTrip.fdiv (o : FOps) : RoundTrip.Statement (.fdiv o) := by
  intro f hf hl; cases hf; exact group3 (op := 0x0C6) (rfl) (by decide) (decF_fF _ _ o (legalF_nw hl))

theorem RoundTrip.fsqrt (o : FUnOps) : RoundTrip.Statement (.fsqrt o) := by
  intro f hf hl; cases hf; exact group3 (op := 0x0C7) (rfl) (by decide) (decFUn_fFUn _ _ o (and_l hl))

theorem RoundTrip.frnd (o : FUnOps) : RoundTrip.Statement (.frnd o) := by
  intro f hf hl; cases hf; exact group3 (op := 0x0C8) (rfl) (by decide) (decFUn_fFUn _ _ o (and_l hl))

theorem RoundTrip.fclass (o : FUnOps) : RoundTrip.Statement (.fclass o) := by
  intro f hf hl; cases hf; exact group3 (op := 0x0C9) (rfl) (by decide) (decFUn_fFUn _ _ o (and_l (and_l (and_l hl))))

theorem RoundTrip.fcpys (o : CpysOps) : RoundTrip.Statement (.fcpys o) := by
  intro f hf hl; cases hf; exact group3 (op := 0x0CA) (rfl) (by decide) (decFcpys_fcpys o (and_l hl))

theorem RoundTrip.vfadd (o : VFOps) : RoundTrip.Statement (.vfadd o) := by
  intro f hf hl; cases hf; exact group3 (op := 0x0D0) (rfl) (by decide) (decVF_fVF _ _ o (legalVF_nw hl).1 (legalVF_nw hl).2)

theorem RoundTrip.vfsub (o : VFOps) : RoundTrip.Statement (.vfsub o) := by
  intro f hf hl; cases hf; exact group3 (op := 0x0D1) (rfl) (by decide) (decVF_fVF _ _ o (legalVF_nw hl).1 (legalVF_nw hl).2)

theorem RoundTrip.vfmul (o : VFOps) : RoundTrip.Statement (.vfmul o) := by
  intro f hf hl; cases hf; exact group3 (op := 0x0D2) (rfl) (by decide) (decVF_fVF _ _ o (legalVF_nw hl).1 (legalVF_nw hl).2)

theorem RoundTrip.vffma (o : VFmaOps) : RoundTrip.Statement (.vffma o) := by
  intro f hf hl; cases hf; exact group3 (op := 0x0D3) (rfl) (by decide) (decVffma_vffma o (and_l (and_l hl)) (and_r (and_l hl)))

theorem RoundTrip.vfmin (o : VFOps) : RoundTrip.Statement (.vfmin o) := by
  intro f hf hl; cases hf; exact group3 (op := 0x0D4) (rfl) (by decide) (decVF_fVF _ _ o (legalVF_nw hl).1 (legalVF_nw hl).2)

theorem RoundTrip.vfmax (o : VFOps) : RoundTrip.Statement (.vfmax o) := by
  intro f hf hl; cases hf; exact group3 (op := 0x0D5) (rfl) (by decide) (decVF_fVF _ _ o (legalVF_nw hl).1 (legalVF_nw hl).2)

theorem RoundTrip.vfdiv (o : VFOps) : RoundTrip.Statement (.vfdiv o) := by
  intro f hf hl; cases hf; exact group3 (op := 0x0D6) (rfl) (by decide) (decVF_fVF _ _ o (legalVF_nw hl).1 (legalVF_nw hl).2)

theorem RoundTrip.vfsqrt (o : VFUnOps) : RoundTrip.Statement (.vfsqrt o) := by
  intro f hf hl; cases hf; exact group3 (op := 0x0D7) (rfl) (by decide) (decVFUn_fVFUn _ _ o (legalVFUn_nw hl).1 (legalVFUn_nw hl).2)

theorem RoundTrip.vfrnd (o : VFUnOps) : RoundTrip.Statement (.vfrnd o) := by
  intro f hf hl; cases hf; exact group3 (op := 0x0D8) (rfl) (by decide) (decVFUn_fVFUn _ _ o (legalVFUn_nw hl).1 (legalVFUn_nw hl).2)

theorem RoundTrip.vfclass (o : VFUnOps) : RoundTrip.Statement (.vfclass o) := by
  intro f hf hl; cases hf; exact group3 (op := 0x0D9) (rfl) (by decide) (decVFUn_fVFUn _ _ o (and_l (and_l (and_l (and_l (and_l hl))))) (and_r (and_l hl)))

theorem RoundTrip.cvtFf (o : CvtOps) : RoundTrip.Statement (.cvtFf o) := by
  intro f hf hl; cases hf; exact group5 (op := 0x148) (fCvt_op _ o) (by decide) (by
    simp only [decGroup5, fCvt_op _ o]; exact decCvt_fCvt _ _ o (legalCvt_nw hl))

theorem RoundTrip.cvtFi (o : CvtOps) : RoundTrip.Statement (.cvtFi o) := by
  intro f hf hl; cases hf; exact group5 (op := 0x149) (fCvt_op _ o) (by decide) (by
    simp only [decGroup5, fCvt_op _ o]; exact decCvt_fCvt _ _ o (legalCvt_nw (and_l hl)))

theorem RoundTrip.cvtIf (o : CvtOps) : RoundTrip.Statement (.cvtIf o) := by
  intro f hf hl; cases hf; exact group5 (op := 0x14A) (fCvt_op _ o) (by decide) (by
    simp only [decGroup5, fCvt_op _ o]; exact decCvt_fCvt _ _ o (legalCvt_nw hl))

theorem RoundTrip.cvtPack (o : PackOps) : RoundTrip.Statement (.cvtPack o) := by
  intro f hf hl; cases hf; exact group5 (op := 0x14B) (rfl) (by decide) (decPack_pack o (legalPack_nw hl).1 (legalPack_nw hl).2)

theorem RoundTrip.cvtEf (o : EfOps) : RoundTrip.Statement (.cvtEf o) := by
  intro f hf hl; cases hf; exact group5 (op := 0x14C) (rfl) (by decide) (decEf_ef o (legalEf_nw hl).1 (legalEf_nw hl).2)

theorem RoundTrip.vadd (o : VIntOps) : RoundTrip.Statement (.vadd o) := by
  intro f hf hl; cases hf; exact group4 (op := 0x100) (rfl) (by decide) (decVInt_fVInt _ _ _ _ _ o hl)

theorem RoundTrip.vsub (o : VIntOps) : RoundTrip.Statement (.vsub o) := by
  intro f hf hl; cases hf; exact group4 (op := 0x101) (rfl) (by decide) (decVInt_fVInt _ _ _ _ _ o hl)

theorem RoundTrip.vmul (o : VIntOps) : RoundTrip.Statement (.vmul o) := by
  intro f hf hl; cases hf; exact group4 (op := 0x102) (rfl) (by decide) (decVInt_fVInt _ _ _ _ _ o hl)

theorem RoundTrip.vmulh (o : VIntOps) : RoundTrip.Statement (.vmulh o) := by
  intro f hf hl; cases hf; exact group4 (op := 0x103) (rfl) (by decide) (decVInt_fVInt _ _ _ _ _ o hl)

theorem RoundTrip.vmad (o : VMadOps) : RoundTrip.Statement (.vmad o) := by
  intro f hf hl; cases hf; exact group4 (op := 0x104) (rfl) (by decide) (decVMad_vmad o (and_l hl) (and_r hl))

theorem RoundTrip.vmin (o : VIntOps) : RoundTrip.Statement (.vmin o) := by
  intro f hf hl; cases hf; exact group4 (op := 0x105) (rfl) (by decide) (decVInt_fVInt _ _ _ _ _ o hl)

theorem RoundTrip.vmax (o : VIntOps) : RoundTrip.Statement (.vmax o) := by
  intro f hf hl; cases hf; exact group4 (op := 0x106) (rfl) (by decide) (decVInt_fVInt _ _ _ _ _ o hl)

theorem RoundTrip.vand (o : VIntOps) : RoundTrip.Statement (.vand o) := by
  intro f hf hl; cases hf; exact group4 (op := 0x108) (rfl) (by decide) (decVInt_fVInt _ _ _ _ _ o hl)

theorem RoundTrip.vor (o : VIntOps) : RoundTrip.Statement (.vor o) := by
  intro f hf hl; cases hf; exact group4 (op := 0x109) (rfl) (by decide) (decVInt_fVInt _ _ _ _ _ o hl)

theorem RoundTrip.vxor (o : VIntOps) : RoundTrip.Statement (.vxor o) := by
  intro f hf hl; cases hf; exact group4 (op := 0x10A) (rfl) (by decide) (decVInt_fVInt _ _ _ _ _ o hl)

theorem RoundTrip.vshl (o : VIntOps) : RoundTrip.Statement (.vshl o) := by
  intro f hf hl; cases hf; exact group4 (op := 0x10C) (rfl) (by decide) (decVInt_fVInt _ _ _ _ _ o hl)

theorem RoundTrip.vshr (o : VIntOps) : RoundTrip.Statement (.vshr o) := by
  intro f hf hl; cases hf; exact group4 (op := 0x10D) (rfl) (by decide) (decVInt_fVInt _ _ _ _ _ o hl)

theorem RoundTrip.vsar (o : VIntOps) : RoundTrip.Statement (.vsar o) := by
  intro f hf hl; cases hf; exact group4 (op := 0x10E) (rfl) (by decide) (decVInt_fVInt _ _ _ _ _ o hl)

theorem RoundTrip.vbfx (o : VIntOps) : RoundTrip.Statement (.vbfx o) := by
  intro f hf hl; cases hf; exact group4 (op := 0x110) (rfl) (by decide) (decVInt_fVInt _ _ _ _ _ o (and_l hl))

theorem RoundTrip.vbfi (o : VBfiOps) : RoundTrip.Statement (.vbfi o) := by
  intro f hf hl; cases hf; exact group4 (op := 0x111) (fVBfi_op o) (by decide) (by
    simp only [decGroup4, fVBfi_op o]; exact decVBfi_fVBfi o (and_l (and_l hl)) (and_r (and_l hl)))

theorem RoundTrip.vpopc (o : VUnOps) : RoundTrip.Statement (.vpopc o) := by
  intro f hf hl; cases hf; exact group4 (op := 0x112) (rfl) (by decide) (decVUn_fVUn _ _ o (and_l hl) (and_r hl))

theorem RoundTrip.vclz (o : VUnOps) : RoundTrip.Statement (.vclz o) := by
  intro f hf hl; cases hf; exact group4 (op := 0x113) (rfl) (by decide) (decVUn_fVUn _ _ o (and_l hl) (and_r hl))

theorem RoundTrip.vbrev (o : VUnOps) : RoundTrip.Statement (.vbrev o) := by
  intro f hf hl; cases hf; exact group4 (op := 0x114) (rfl) (by decide) (decVUn_fVUn _ _ o (and_l hl) (and_r hl))

theorem RoundTrip.vmov (o : VMovOps) : RoundTrip.Statement (.vmov o) := by
  intro f hf hl; cases hf; exact group4 (op := 0x118) (rfl) (by decide) (decVMov_vmov o hl)

theorem RoundTrip.vsel (o : VSelOps) : RoundTrip.Statement (.vsel o) := by
  intro f hf hl; cases hf; exact group4 (op := 0x119) (rfl) (by decide) (decVSel_vsel o (and_l hl) (and_r hl))

theorem RoundTrip.vbcast (o : VBcastOps) : RoundTrip.Statement (.vbcast o) := by
  intro f hf hl; cases hf; exact group4 (op := 0x11A) (fIdx_op _ _ _ _ _ _) (by decide) (by
    simp only [decGroup4, fIdx_op _ _ _ _ _ _]; exact decVbcast_fIdx o (and_l hl) (and_r hl))

theorem RoundTrip.vext (o : VExtOps) : RoundTrip.Statement (.vext o) := by
  intro f hf hl; cases hf; exact group4 (op := 0x11B) (fIdx_op _ _ _ _ _ _) (by decide) (by
    simp only [decGroup4, fIdx_op _ _ _ _ _ _]; exact decVext_fIdx o (and_r hl))

theorem RoundTrip.voteBal (o : VoteBalOps) : RoundTrip.Statement (.voteBal o) := by
  intro f hf hl; cases hf; exact group4 (op := 0x120) (fVote_op _ _ _ _) (by decide) (by
    simp only [decGroup4, fVote_op _ _ _ _]; exact decVote_bal o (and_l hl) (voteLane_of (and_r hl)))

theorem RoundTrip.voteAny (o : VoteQOps) : RoundTrip.Statement (.voteAny o) := by
  intro f hf hl; cases hf; exact group4 (op := 0x120) (fVote_op _ _ _ _) (by decide) (by
    simp only [decGroup4, fVote_op _ _ _ _]; exact decVote_any o (voteLane_of (and_r hl)))

theorem RoundTrip.voteAll (o : VoteQOps) : RoundTrip.Statement (.voteAll o) := by
  intro f hf hl; cases hf; exact group4 (op := 0x120) (fVote_op _ _ _ _) (by decide) (by
    simp only [decGroup4, fVote_op _ _ _ _]; exact decVote_all o (voteLane_of (and_r hl)))

theorem RoundTrip.shfl (o : ShflOps) : RoundTrip.Statement (.shfl o) := by
  intro f hf hl; cases hf; exact group4 (op := 0x121) (rfl) (by decide) (decShfl_shfl o (and_l (and_l (and_l hl))) (and_r (and_l (and_l hl))))

theorem RoundTrip.xchg (o : XchgOps) : RoundTrip.Statement (.xchg o) := by
  intro f hf hl; cases hf; exact group4 (op := 0x122) (rfl) (by decide) (decXchg_xchg o (and_l (and_l hl)) (and_r (and_l hl)))

theorem RoundTrip.wred (o : WredOps) : RoundTrip.Statement (.wred o) := by
  intro f hf hl; cases hf; exact group4 (op := 0x123) (rfl) (by decide) (decWred_wred o (and_l (and_l (and_l (and_l hl)))) (and_r (and_l (and_l (and_l hl)))))

theorem RoundTrip.sfu (o : SfuOps) : RoundTrip.Statement (.sfu o) := by
  intro f hf hl; cases hf; exact group4 (op := 0x128) (rfl) (by decide) (decSfu_sfu o (and_r (and_l (and_l hl))))

theorem RoundTrip.mma (o : MmaOps) : RoundTrip.Statement (.mma o) := by
  intro f hf hl; cases hf; exact group5 (op := 0x140) (rfl) (by decide) (decMma_mma o)

theorem RoundTrip.mmas (o : MmasOps) : RoundTrip.Statement (.mmas o) := by
  intro f hf hl; cases hf; exact group5 (op := 0x141) (rfl) (by decide) (decMmas_mmas o)

theorem RoundTrip.mmaq (o : MmaqOps) : RoundTrip.Statement (.mmaq o) := by
  intro f hf hl; cases hf; exact group5 (op := 0x142) (rfl) (by decide) (decMmaq_mmaq o)

theorem RoundTrip.mzero (o : MZeroOps) : RoundTrip.Statement (.mzero o) := by
  intro f hf hl; cases hf; exact group5 (op := 0x143) (rfl) (by decide) (decMzero_mzero o)

theorem RoundTrip.mcvt (o : McvtOps) : RoundTrip.Statement (.mcvt o) := by
  intro f hf hl; cases hf; exact group5 (op := 0x144) (rfl) (by decide) (decMcvt_mcvt o)

theorem RoundTrip.mldf (o : MldfOps) : RoundTrip.Statement (.mldf o) := by
  intro f hf hl; cases hf; exact group5 (op := 0x145) (rfl) (by decide) (decMldf_mldf _ _ o)

theorem RoundTrip.mstf (o : MldfOps) : RoundTrip.Statement (.mstf o) := by
  intro f hf hl; cases hf; exact group5 (op := 0x146) (rfl) (by decide) (decMldf_mldf _ _ o)

theorem RoundTrip.ld (o : MemOps) : RoundTrip.Statement (.ld o) := by
  intro f hf hl; cases hf; exact group6 (op := 0x180) (fMem_op _ o) (by decide) (by
    simp only [decGroup6, fMem_op _ o]; exact decMem_fMem _ _ o)

theorem RoundTrip.st (o : MemOps) : RoundTrip.Statement (.st o) := by
  intro f hf hl; cases hf; exact group6 (op := 0x181) (fMem_op _ o) (by decide) (by
    simp only [decGroup6, fMem_op _ o]; exact decMem_fMem _ _ o)

theorem RoundTrip.lds (o : MemOps) : RoundTrip.Statement (.lds o) := by
  intro f hf hl; cases hf; exact group6 (op := 0x182) (fMem_op _ o) (by decide) (by
    simp only [decGroup6, fMem_op _ o]; exact decMem_fMem _ _ o)

theorem RoundTrip.sts (o : MemOps) : RoundTrip.Statement (.sts o) := by
  intro f hf hl; cases hf; exact group6 (op := 0x183) (fMem_op _ o) (by decide) (by
    simp only [decGroup6, fMem_op _ o]; exact decMem_fMem _ _ o)

theorem RoundTrip.ldx (o : XMemOps) : RoundTrip.Statement (.ldx o) := by
  intro f hf hl; cases hf; exact group6 (op := 0x184) (rfl) (by decide) (decXMem_fXMem _ _ o)

theorem RoundTrip.stx (o : XMemOps) : RoundTrip.Statement (.stx o) := by
  intro f hf hl; cases hf; exact group6 (op := 0x185) (rfl) (by decide) (decXMem_fXMem _ _ o)

theorem RoundTrip.pref (o : PrefOps) : RoundTrip.Statement (.pref o) := by
  intro f hf hl; cases hf; exact group6 (op := 0x186) (fPref_op o) (by decide) (by
    simp only [decGroup6, fPref_op o]; exact decPref_fPref o)

theorem RoundTrip.vld (o : VMemOps) : RoundTrip.Statement (.vld o) := by
  intro f hf hl; cases hf; exact group6 (op := 0x188) (rfl) (by decide) (decVMem_fVMem _ _ o)

theorem RoundTrip.vst (o : VMemOps) : RoundTrip.Statement (.vst o) := by
  intro f hf hl; cases hf; exact group6 (op := 0x189) (rfl) (by decide) (decVMem_fVMem _ _ o)

theorem RoundTrip.vlds (o : VMemOps) : RoundTrip.Statement (.vlds o) := by
  intro f hf hl; cases hf; exact group6 (op := 0x18A) (rfl) (by decide) (decVMem_fVMem _ _ o)

theorem RoundTrip.vsts (o : VMemOps) : RoundTrip.Statement (.vsts o) := by
  intro f hf hl; cases hf; exact group6 (op := 0x18B) (rfl) (by decide) (decVMem_fVMem _ _ o)

theorem RoundTrip.l1invLine (o : LineOps) : RoundTrip.Statement (.l1invLine o) := by
  intro f hf hl; cases hf; exact group6 (op := 0x190) (rfl) (by decide) (decL1inv_line o)

theorem RoundTrip.l1invAll (o : AllOps) : RoundTrip.Statement (.l1invAll o) := by
  intro f hf hl; cases hf; exact group6 (op := 0x190) (rfl) (by decide) (decL1inv_all o)

theorem RoundTrip.l1invXl (o : XlOps) : RoundTrip.Statement (.l1invXl o) := by
  intro f hf hl; cases hf; exact group6 (op := 0x190) (rfl) (by decide) (decL1inv_xl o)

theorem RoundTrip.l2wbLine (o : LineOps) : RoundTrip.Statement (.l2wbLine o) := by
  intro f hf hl; cases hf; exact group6 (op := 0x191) (rfl) (by decide) (decL2wb_line o)

theorem RoundTrip.l2wbAll (o : AllOps) : RoundTrip.Statement (.l2wbAll o) := by
  intro f hf hl; cases hf; exact group6 (op := 0x191) (rfl) (by decide) (decL2wb_all o)

theorem RoundTrip.fenceAcq (o : AOps) : RoundTrip.Statement (.fenceAcq o) := by
  intro f hf hl; cases hf; exact group6 (op := 0x198) (rfl) (by decide) (decA_fA 1 _ _ o)

theorem RoundTrip.fenceRel (o : AOps) : RoundTrip.Statement (.fenceRel o) := by
  intro f hf hl; cases hf; exact group6 (op := 0x198) (rfl) (by decide) (decA_fA 2 _ _ o)

theorem RoundTrip.fenceAr (o : AOps) : RoundTrip.Statement (.fenceAr o) := by
  intro f hf hl; cases hf; exact group6 (op := 0x198) (rfl) (by decide) (decA_fA 3 _ _ o)

theorem RoundTrip.atom (o : AtomOps) : RoundTrip.Statement (.atom o) := by
  intro f hf hl; cases hf; exact group6 (op := 0x199) (rfl) (by decide) (decAtom_atom o)

theorem RoundTrip.atomNz (o : AtomNzOps) : RoundTrip.Statement (.atomNz o) := by
  intro f hf hl; cases hf; exact group6 (op := 0x199) (rfl) (by decide) (decAtom_nz o)

theorem RoundTrip.cas (o : CasOps) : RoundTrip.Statement (.cas o) := by
  intro f hf hl; cases hf; exact group6 (op := 0x19A) (rfl) (by decide) (decCas_cas o)

theorem RoundTrip.atomsLocal (o : AtomOps) : RoundTrip.Statement (.atomsLocal o) := by
  intro f hf hl; cases hf; exact group6 (op := 0x19B) (rfl) (by decide) (decAtoms_local o)

theorem RoundTrip.atomsRemote (o : AtomsXOps) : RoundTrip.Statement (.atomsRemote o) := by
  intro f hf hl; cases hf; exact group6 (op := 0x19B) (rfl) (by decide) (decAtoms_remote o)

theorem RoundTrip.vatom (o : VatomOps) : RoundTrip.Statement (.vatom o) := by
  intro f hf hl; cases hf; exact group6 (op := 0x19C) (rfl) (by decide) (decVatom_vatom o)

theorem RoundTrip.send (o : SendOps) : RoundTrip.Statement (.send o) := by
  intro f hf hl; cases hf; exact group7 (op := 0x1C0) (fSend_op o) (by decide) (by
    simp only [decGroup7, fSend_op o]; exact decSend_fSend o)

theorem RoundTrip.sendv (o : SendvOps) : RoundTrip.Statement (.sendv o) := by
  intro f hf hl; cases hf; exact group7 (op := 0x1C1) (rfl) (by decide) (decSendv_sendv o)

theorem RoundTrip.recv (o : RecvOps) : RoundTrip.Statement (.recv o) := by
  intro f hf hl; cases hf; exact group7 (op := 0x1C2) (rfl) (by decide) (decRecv_recv o)

theorem RoundTrip.gpost (o : GpostOps) : RoundTrip.Statement (.gpost o) := by
  intro f hf hl; cases hf; exact group7 (op := 0x1C3) (rfl) (by decide) (decGpost_gpost o)

theorem RoundTrip.gflush (o : GflushOps) : RoundTrip.Statement (.gflush o) := by
  intro f hf hl; cases hf; exact group7 (op := 0x1C4) (rfl) (by decide) (decGflush_gflush o)

theorem RoundTrip.requeue (o : RequeueOps) : RoundTrip.Statement (.requeue o) := by
  intro f hf hl; cases hf; exact group7 (op := 0x1C5) (rfl) (by decide) (decRequeue_requeue o)

theorem RoundTrip.qpush (o : DAOps) : RoundTrip.Statement (.qpush o) := by
  intro f hf hl; cases hf; exact group7 (op := 0x1C6) (rfl) (by decide) (decDA_fDA 0 _ _ o)

theorem RoundTrip.qflush (o : AOps) : RoundTrip.Statement (.qflush o) := by
  intro f hf hl; cases hf; exact group7 (op := 0x1C7) (rfl) (by decide) (decA_fA 0 _ _ o)

theorem RoundTrip.htabGet (o : DAOps) : RoundTrip.Statement (.htabGet o) := by
  intro f hf hl; cases hf; exact group7 (op := 0x1C8) (rfl) (by decide) (decDA_fDA 0 _ _ o)

theorem RoundTrip.htabSet (o : DAOps) : RoundTrip.Statement (.htabSet o) := by
  intro f hf hl; cases hf; exact group7 (op := 0x1C8) (rfl) (by decide) (decDA_fDA 1 _ _ o)

theorem RoundTrip.launchWake (o : DAOps) : RoundTrip.Statement (.launchWake o) := by
  intro f hf hl; cases hf; exact group7 (op := 0x1C9) (rfl) (by decide) (decDA_fDA 0 _ _ o)

theorem RoundTrip.launchOpen (o : DAOps) : RoundTrip.Statement (.launchOpen o) := by
  intro f hf hl; cases hf; exact group7 (op := 0x1C9) (rfl) (by decide) (decDA_fDA 1 _ _ o)

theorem RoundTrip.launchClose (o : DAOps) : RoundTrip.Statement (.launchClose o) := by
  intro f hf hl; cases hf; exact group7 (op := 0x1C9) (rfl) (by decide) (decDA_fDA 2 _ _ o)

theorem RoundTrip.cancel (o : DAOps) : RoundTrip.Statement (.cancel o) := by
  intro f hf hl; cases hf; exact group7 (op := 0x1CA) (rfl) (by decide) (decDA_fDA 0 _ _ o)

theorem RoundTrip.lvlread (o : DAOps) : RoundTrip.Statement (.lvlread o) := by
  intro f hf hl; cases hf; exact group7 (op := 0x1CB) (rfl) (by decide) (decDA_fDA 0 _ _ o)

theorem RoundTrip.lvlreadReap (o : DAOps) : RoundTrip.Statement (.lvlreadReap o) := by
  intro f hf hl; cases hf; exact group7 (op := 0x1CB) (rfl) (by decide) (decDA_fDA 1 _ _ o)

theorem RoundTrip.vtget (o : DOps) : RoundTrip.Statement (.vtget o) := by
  intro f hf hl; cases hf; exact group7 (op := 0x1CC) (rfl) (by decide) (decD_fD 0 _ _ o)

theorem RoundTrip.vtgetRep (o : DOps) : RoundTrip.Statement (.vtgetRep o) := by
  intro f hf hl; cases hf; exact group7 (op := 0x1CC) (rfl) (by decide) (decD_fD 1 _ _ o)

theorem RoundTrip.vtset (o : AOps) : RoundTrip.Statement (.vtset o) := by
  intro f hf hl; cases hf; exact group7 (op := 0x1CD) (rfl) (by decide) (decA_fA 0 _ _ o)

theorem RoundTrip.hzread (o : DOps) : RoundTrip.Statement (.hzread o) := by
  intro f hf hl; cases hf; exact group7 (op := 0x1CE) (rfl) (by decide) (decD_fD 0 _ _ o)

theorem RoundTrip.hzreadSys (o : DOps) : RoundTrip.Statement (.hzreadSys o) := by
  intro f hf hl; cases hf; exact group7 (op := 0x1CE) (rfl) (by decide) (decD_fD 1 _ _ o)

theorem RoundTrip.hzwait (o : AOps) : RoundTrip.Statement (.hzwait o) := by
  intro f hf hl; cases hf; exact group7 (op := 0x1CF) (rfl) (by decide) (decA_fA 0 _ _ o)

theorem RoundTrip.hzwaitSys (o : AOps) : RoundTrip.Statement (.hzwaitSys o) := by
  intro f hf hl; cases hf; exact group7 (op := 0x1CF) (rfl) (by decide) (decA_fA 1 _ _ o)

theorem RoundTrip.rsend (o : RsendOps) : RoundTrip.Statement (.rsend o) := by
  intro f hf hl; cases hf; exact group7 (op := 0x1D0) (rfl) (by decide) (decRsend_rsend o)

theorem RoundTrip.boxt (o : RayOps) : RoundTrip.Statement (.boxt o) := by
  intro f hf hl; cases hf; exact group7 (op := 0x1D1) (rfl) (by decide) (decRay_fRay 0 _ _ o)

theorem RoundTrip.trit (o : RayOps) : RoundTrip.Statement (.trit o) := by
  intro f hf hl; cases hf; exact group7 (op := 0x1D2) (rfl) (by decide) (decRay_fRay 0 _ _ o)

theorem RoundTrip.rpush (o : DABOps) : RoundTrip.Statement (.rpush o) := by
  intro f hf hl; cases hf; exact group7 (op := 0x1D3) (rfl) (by decide) (decRpush_rpush o)

theorem RoundTrip.rpushBox (o : RpushBoxOps) : RoundTrip.Statement (.rpushBox o) := by
  intro f hf hl; cases hf; exact group7 (op := 0x1D3) (rfl) (by decide) (decRpush_box o)

theorem RoundTrip.rpop (o : RpopOps) : RoundTrip.Statement (.rpop o) := by
  intro f hf hl; cases hf; exact group7 (op := 0x1D4) (rfl) (by decide) (decRpop_rpop o)

theorem RoundTrip.rhit (o : RhitOps) : RoundTrip.Statement (.rhit o) := by
  intro f hf hl; cases hf; exact group7 (op := 0x1D5) (rfl) (by decide) (decRhit_rhit o)

theorem RoundTrip.rmiss (o : RmissOps) : RoundTrip.Statement (.rmiss o) := by
  intro f hf hl; cases hf; exact group7 (op := 0x1D6) (rfl) (by decide) (decRmiss_rmiss o)

theorem RoundTrip.rxform (o : DABOps) : RoundTrip.Statement (.rxform o) := by
  intro f hf hl; cases hf; exact group7 (op := 0x1D7) (rfl) (by decide) (decDAB_fDAB 0 _ _ o)

theorem RoundTrip.rloadRay (o : DABOps) : RoundTrip.Statement (.rloadRay o) := by
  intro f hf hl; cases hf; exact group7 (op := 0x1D8) (rfl) (by decide) (decDAB_fDAB 0 _ _ o)

theorem RoundTrip.rloadGeom (o : DABOps) : RoundTrip.Statement (.rloadGeom o) := by
  intro f hf hl; cases hf; exact group7 (op := 0x1D8) (rfl) (by decide) (decDAB_fDAB 1 _ _ o)

theorem RoundTrip.rloadHit (o : DABOps) : RoundTrip.Statement (.rloadHit o) := by
  intro f hf hl; cases hf; exact group7 (op := 0x1D8) (rfl) (by decide) (decDAB_fDAB 2 _ _ o)

theorem RoundTrip.rstoreRay (o : DABOps) : RoundTrip.Statement (.rstoreRay o) := by
  intro f hf hl; cases hf; exact group7 (op := 0x1D9) (rfl) (by decide) (decDAB_fDAB 0 _ _ o)

theorem RoundTrip.rstoreGeom (o : DABOps) : RoundTrip.Statement (.rstoreGeom o) := by
  intro f hf hl; cases hf; exact group7 (op := 0x1D9) (rfl) (by decide) (decDAB_fDAB 1 _ _ o)

theorem RoundTrip.rstoreHit (o : DABOps) : RoundTrip.Statement (.rstoreHit o) := by
  intro f hf hl; cases hf; exact group7 (op := 0x1D9) (rfl) (by decide) (decDAB_fDAB 2 _ _ o)

theorem RoundTrip.cnlookDir (o : DAOps) : RoundTrip.Statement (.cnlookDir o) := by
  intro f hf hl; cases hf; exact group7 (op := 0x1DA) (rfl) (by decide) (decDA_fDA 0 _ _ o)

theorem RoundTrip.cnlookLoc (o : DABOps) : RoundTrip.Statement (.cnlookLoc o) := by
  intro f hf hl; cases hf; exact group7 (op := 0x1DA) (rfl) (by decide) (decDAB_fDAB 1 _ _ o)

theorem RoundTrip.cnsetDir (o : DAOps) : RoundTrip.Statement (.cnsetDir o) := by
  intro f hf hl; cases hf; exact group7 (op := 0x1DB) (rfl) (by decide) (decDA_fDA 0 _ _ o)

theorem RoundTrip.cnsetSlot (o : DAOps) : RoundTrip.Statement (.cnsetSlot o) := by
  intro f hf hl; cases hf; exact group7 (op := 0x1DB) (rfl) (by decide) (decDA_fDA 1 _ _ o)

theorem RoundTrip.thaw (o : DABOps) : RoundTrip.Statement (.thaw o) := by
  intro f hf hl; cases hf; exact group7 (op := 0x1DC) (rfl) (by decide) (decDAB_fDAB 0 _ _ o)

theorem RoundTrip.evict (o : DAOps) : RoundTrip.Statement (.evict o) := by
  intro f hf hl; cases hf; exact group7 (op := 0x1DD) (rfl) (by decide) (decDA_fDA 0 _ _ o)

theorem RoundTrip.rpin (o : RpinOps) : RoundTrip.Statement (.rpin o) := by
  intro f hf hl; cases hf; exact group7 (op := 0x1DE) (rfl) (by decide) (decRpin_rpin o)

theorem RoundTrip.rdone (o : RdoneOps) : RoundTrip.Statement (.rdone o) := by
  intro f hf hl; cases hf; exact group7 (op := 0x1DF) (rfl) (by decide) (decRdone_rdone o)

theorem RoundTrip.rlog (o : RlogOps) : RoundTrip.Statement (.rlog o) := by
  intro f hf hl; cases hf; exact group7 (op := 0x1E0) (rfl) (by decide) (decRlog_rlog o)

theorem RoundTrip.rreplay (o : RayOps) : RoundTrip.Statement (.rreplay o) := by
  intro f hf hl; cases hf; exact group7 (op := 0x1E1) (rfl) (by decide) (decRay_fRay 0 _ _ o)

theorem RoundTrip.rreplayTri (o : RayOps) : RoundTrip.Statement (.rreplayTri o) := by
  intro f hf hl; cases hf; exact group7 (op := 0x1E1) (rfl) (by decide) (decRay_fRay 1 _ _ o)

theorem RoundTrip.bget (o : BlkOps) : RoundTrip.Statement (.bget o) := by
  intro f hf hl; cases hf; exact group7 (op := 0x1E2) (rfl) (by decide) (decBlk_fBlk _ _ o)

theorem RoundTrip.bput (o : BlkOps) : RoundTrip.Statement (.bput o) := by
  intro f hf hl; cases hf; exact group7 (op := 0x1E3) (rfl) (by decide) (decBlk_fBlk _ _ o)

theorem RoundTrip.bcopy (o : BcopyOps) : RoundTrip.Statement (.bcopy o) := by
  intro f hf hl; cases hf; exact group7 (op := 0x1E4) (rfl) (by decide) (decBcopy_fBcopy _ _ o)

theorem RoundTrip.bfill (o : BcopyOps) : RoundTrip.Statement (.bfill o) := by
  intro f hf hl; cases hf; exact group7 (op := 0x1E5) (rfl) (by decide) (decBcopy_fBcopy _ _ o)

theorem RoundTrip.tlreadDone (o : TlreadOps) : RoundTrip.Statement (.tlreadDone o) := by
  intro f hf hl; cases hf; exact group7 (op := 0x1E6) (rfl) (by decide) (decTlread_done o)

theorem RoundTrip.tlreadIss (o : TlreadOps) : RoundTrip.Statement (.tlreadIss o) := by
  intro f hf hl; cases hf; exact group7 (op := 0x1E6) (rfl) (by decide) (decTlread_iss o)

theorem RoundTrip.tlreadErr (o : TlreadOps) : RoundTrip.Statement (.tlreadErr o) := by
  intro f hf hl; cases hf; exact group7 (op := 0x1E6) (rfl) (by decide) (decTlread_err o)

theorem RoundTrip.tlwait (o : TlwaitOps) : RoundTrip.Statement (.tlwait o) := by
  intro f hf hl; cases hf; exact group7 (op := 0x1E7) (rfl) (by decide) (decTlwait_tlwait o)

theorem RoundTrip.smp (o : SmpOps) : RoundTrip.Statement (.smp o) := by
  intro f hf hl; cases hf; exact group7 (op := 0x1E8) (rfl) (by decide) (decSmp_fSmp _ _ o)

theorem RoundTrip.smpf (o : SmpOps) : RoundTrip.Statement (.smpf o) := by
  intro f hf hl; cases hf; exact group7 (op := 0x1E9) (rfl) (by decide) (decSmp_fSmp _ _ o)

theorem RoundTrip.sfence (o : HOps) : RoundTrip.Statement (.sfence o) := by
  intro f hf hl; cases hf; exact group7 (op := 0x1EA) (rfl) (by decide) (decH_fH _ _ o)

theorem RoundTrip.rsr (o : RsrOps) : RoundTrip.Statement (.rsr o) := by
  intro f hf hl; cases hf; exact group7 (op := 0x1F0) (rfl) (by decide) (decRsr_rsr o (and_r (and_l hl)))

theorem RoundTrip.wsr (o : WsrOps) : RoundTrip.Statement (.wsr o) := by
  intro f hf hl; cases hf; exact group7 (op := 0x1F1) (rfl) (by decide) (decWsr_wsr o)

theorem RoundTrip.trap (o : TrapOps) : RoundTrip.Statement (.trap o) := by
  intro f hf hl; cases hf; exact group7 (op := 0x1F2) (rfl) (by decide) (decTrap_trap o)

theorem RoundTrip.brk (o : HOps) : RoundTrip.Statement (.brk o) := by
  intro f hf hl; cases hf; exact group7 (op := 0x1F8) (rfl) (by decide) (decH_fH _ _ o)

theorem RoundTrip.tret (o : HOps) : RoundTrip.Statement (.tret o) := by
  intro f hf hl; cases hf; exact group7 (op := 0x1F3) (rfl) (by decide) (decH_fH _ _ o)

theorem RoundTrip.fresume (o : DAOps) : RoundTrip.Statement (.fresume o) := by
  intro f hf hl; cases hf; exact group7 (op := 0x1F4) (rfl) (by decide) (decDA_fDA 0 _ _ o)

theorem RoundTrip.fresumeStep (o : DAOps) : RoundTrip.Statement (.fresumeStep o) := by
  intro f hf hl; cases hf; exact group7 (op := 0x1F4) (rfl) (by decide) (decDA_fDA 1 _ _ o)

theorem RoundTrip.fresumeOut (o : DAOps) : RoundTrip.Statement (.fresumeOut o) := by
  intro f hf hl; cases hf; exact group7 (op := 0x1F4) (rfl) (by decide) (decDA_fDA 2 _ _ o)

theorem RoundTrip.fkill (o : DAOps) : RoundTrip.Statement (.fkill o) := by
  intro f hf hl; cases hf; exact group7 (op := 0x1F5) (rfl) (by decide) (decDA_fDA 0 _ _ o)

theorem RoundTrip.finspectRd (o : FinspectOps) : RoundTrip.Statement (.finspectRd o) := by
  intro f hf hl; cases hf; exact group7 (op := 0x1F6) (rfl) (by decide) (decFinspect_rd o)

theorem RoundTrip.finspectWr (o : FinspectOps) : RoundTrip.Statement (.finspectWr o) := by
  intro f hf hl; cases hf; exact group7 (op := 0x1F6) (rfl) (by decide) (decFinspect_wr o)

theorem RoundTrip.halt (o : DAOps) : RoundTrip.Statement (.halt o) := by
  intro f hf hl; cases hf; exact group7 (op := 0x1F7) (rfl) (by decide) (decDA_fDA 0 _ _ o)

theorem RoundTrip.preemptDrain (o : DABOps) : RoundTrip.Statement (.preemptDrain o) := by
  intro f hf hl; cases hf; exact group7 (op := 0x1F9) (rfl) (by decide) (decPreempt_drain o)

theorem RoundTrip.preemptSwap (o : DABOps) : RoundTrip.Statement (.preemptSwap o) := by
  intro f hf hl; cases hf; exact group7 (op := 0x1F9) (rfl) (by decide) (decPreempt_swap o)

theorem RoundTrip.preemptRes (o : DABOps) : RoundTrip.Statement (.preemptRes o) := by
  intro f hf hl; cases hf; exact group7 (op := 0x1F9) (rfl) (by decide) (decPreempt_res o)

theorem RoundTrip.remap (o : DABOps) : RoundTrip.Statement (.remap o) := by
  intro f hf hl; cases hf; exact group7 (op := 0x1FA) (rfl) (by decide) (decDAB_fDAB 0 _ _ o)

theorem RoundTrip.sendBufferDepart (core : Nat) : RoundTrip.Statement (.sendBufferDepart core) := by
  intro f hf; cases hf

theorem RoundTrip.messageArrive (src : ArriveFrom) : RoundTrip.Statement (.messageArrive src) := by
  intro f hf; cases hf

theorem RoundTrip.spillReturn (core : Nat) (sel : SpillSel) : RoundTrip.Statement (.spillReturn core sel) := by
  intro f hf; cases hf

theorem RoundTrip.firingCreation (core : Nat) : RoundTrip.Statement (.firingCreation core) := by
  intro f hf; cases hf

theorem RoundTrip.gladeTimerExpiry (core : Nat) (g : Nat) : RoundTrip.Statement (.gladeTimerExpiry core g) := by
  intro f hf; cases hf

theorem RoundTrip.priorityAgeing (core : Nat) (slot : Nat) : RoundTrip.Statement (.priorityAgeing core slot) := by
  intro f hf; cases hf

theorem RoundTrip.depositLand (core : Nat) (slot : Nat) (i : Nat) : RoundTrip.Statement (.depositLand core slot i) := by
  intro f hf; cases hf

theorem RoundTrip.dataerrDelivery (core : Nat) (slot : Nat) (i : Nat) : RoundTrip.Statement (.dataerrDelivery core slot i) := by
  intro f hf; cases hf

theorem RoundTrip.pageWalkDone (core : Nat) (slot : Nat) : RoundTrip.Statement (.pageWalkDone core slot) := by
  intro f hf; cases hf

theorem RoundTrip.storeVisible (core : Nat) (slot : Nat) (i : Nat) : RoundTrip.Statement (.storeVisible core slot i) := by
  intro f hf; cases hf

theorem RoundTrip.remoteRequestServe (core : Nat) (slot : Nat) (sel : RemoteSel) : RoundTrip.Statement (.remoteRequestServe core slot sel) := by
  intro f hf; cases hf

theorem RoundTrip.atomicAtHome (core : Nat) (slot : Nat) (i : Nat) : RoundTrip.Statement (.atomicAtHome core slot i) := by
  intro f hf; cases hf

theorem RoundTrip.l2CopyEviction (site : Nat) (line : Nat) : RoundTrip.Statement (.l2CopyEviction site line) := by
  intro f hf; cases hf

theorem RoundTrip.writebackAck (core : Nat) (line : Nat) : RoundTrip.Statement (.writebackAck core line) := by
  intro f hf; cases hf

theorem RoundTrip.ackLossTimeout (core : Nat) (slot : Nat) (i : Nat) (applied : List Bool) : RoundTrip.Statement (.ackLossTimeout core slot i applied) := by
  intro f hf; cases hf

theorem RoundTrip.ldxReplyTimeout (core : Nat) (slot : Nat) (i : Nat) : RoundTrip.Statement (.ldxReplyTimeout core slot i) := by
  intro f hf; cases hf

theorem RoundTrip.launchHomeAction (i : Nat) : RoundTrip.Statement (.launchHomeAction i) := by
  intro f hf; cases hf

theorem RoundTrip.cancelHomeAction (i : Nat) : RoundTrip.Statement (.cancelHomeAction i) := by
  intro f hf; cases hf

theorem RoundTrip.recordCountUpdate (i : Nat) : RoundTrip.Statement (.recordCountUpdate i) := by
  intro f hf; cases hf

theorem RoundTrip.recordFinish (idx : Nat) : RoundTrip.Statement (.recordFinish idx) := by
  intro f hf; cases hf

theorem RoundTrip.creditRefillReply (core : Nat) (tag : W32) : RoundTrip.Statement (.creditRefillReply core tag) := by
  intro f hf; cases hf

theorem RoundTrip.creditIdleReturn (core : Nat) (tag : W32) : RoundTrip.Statement (.creditIdleReturn core tag) := by
  intro f hf; cases hf

theorem RoundTrip.cancelFilterArrive (core : Nat) (tag : W32) : RoundTrip.Statement (.cancelFilterArrive core tag) := by
  intro f hf; cases hf

theorem RoundTrip.cancelFilterRemove (tag : W32) : RoundTrip.Statement (.cancelFilterRemove tag) := by
  intro f hf; cases hf

theorem RoundTrip.solsticeReport (core : Nat) : RoundTrip.Statement (.solsticeReport core) := by
  intro f hf; cases hf

theorem RoundTrip.horizonPublish : RoundTrip.Statement (.horizonPublish ) := by
  intro f hf; cases hf

theorem RoundTrip.systemHorizonPublish (others : W64) : RoundTrip.Statement (.systemHorizonPublish others) := by
  intro f hf; cases hf

theorem RoundTrip.sfuServiceStart (core : Nat) : RoundTrip.Statement (.sfuServiceStart core) := by
  intro f hf; cases hf

theorem RoundTrip.sfuResult (core : Nat) : RoundTrip.Statement (.sfuResult core) := by
  intro f hf; cases hf

theorem RoundTrip.matrixUnitComplete (core : Nat) : RoundTrip.Statement (.matrixUnitComplete core) := by
  intro f hf; cases hf

theorem RoundTrip.trapTaken (core : Nat) (slot : Nat) (t : TrapCause) : RoundTrip.Statement (.trapTaken core slot t) := by
  intro f hf; cases hf

theorem RoundTrip.trapHandlerCreate (core : Nat) : RoundTrip.Statement (.trapHandlerCreate core) := by
  intro f hf; cases hf

theorem RoundTrip.doubleTrap (core : Nat) : RoundTrip.Statement (.doubleTrap core) := by
  intro f hf; cases hf

theorem RoundTrip.engineCommandStart (core : Nat) (ctx : Nat) : RoundTrip.Statement (.engineCommandStart core ctx) := by
  intro f hf; cases hf

theorem RoundTrip.engineCommandComplete (core : Nat) (ctx : Nat) : RoundTrip.Statement (.engineCommandComplete core ctx) := by
  intro f hf; cases hf

theorem RoundTrip.engineCommandError (core : Nat) (ctx : Nat) (code : BitVec 8) : RoundTrip.Statement (.engineCommandError core ctx code) := by
  intro f hf; cases hf

theorem RoundTrip.samplerService (core : Nat) : RoundTrip.Statement (.samplerService core) := by
  intro f hf; cases hf

theorem RoundTrip.forwardTimerExpiry (core : Nat) (desc : Nat) : RoundTrip.Statement (.forwardTimerExpiry core desc) := by
  intro f hf; cases hf

theorem RoundTrip.forwardBatch (core : Nat) : RoundTrip.Statement (.forwardBatch core) := by
  intro f hf; cases hf

theorem RoundTrip.forwardHeadReread (core : Nat) (desc : Nat) : RoundTrip.Statement (.forwardHeadReread core desc) := by
  intro f hf; cases hf

theorem RoundTrip.forwardBatchPublish (core : Nat) (desc : Nat) : RoundTrip.Statement (.forwardBatchPublish core desc) := by
  intro f hf; cases hf

theorem RoundTrip.rayServedAtHome (i : Nat) : RoundTrip.Statement (.rayServedAtHome i) := by
  intro f hf; cases hf

theorem RoundTrip.canopyInvalidation (core : Nat) (handle : BitVec 16) : RoundTrip.Statement (.canopyInvalidation core handle) := by
  intro f hf; cases hf

theorem RoundTrip.thawRequest (core : Nat) : RoundTrip.Statement (.thawRequest core) := by
  intro f hf; cases hf

theorem RoundTrip.thawCopyDone (core : Nat) : RoundTrip.Statement (.thawCopyDone core) := by
  intro f hf; cases hf

theorem RoundTrip.thawDoneAtHome (i : Nat) : RoundTrip.Statement (.thawDoneAtHome i) := by
  intro f hf; cases hf

theorem RoundTrip.thawFailedAtHome (i : Nat) : RoundTrip.Statement (.thawFailedAtHome i) := by
  intro f hf; cases hf

theorem RoundTrip.meshInterruptDrain (core : Nat) : RoundTrip.Statement (.meshInterruptDrain core) := by
  intro f hf; cases hf

theorem RoundTrip.drainComplete (core : Nat) : RoundTrip.Statement (.drainComplete core) := by
  intro f hf; cases hf

theorem RoundTrip.drainTimeout (core : Nat) : RoundTrip.Statement (.drainTimeout core) := by
  intro f hf; cases hf

theorem RoundTrip.meshInterruptSwap (core : Nat) : RoundTrip.Statement (.meshInterruptSwap core) := by
  intro f hf; cases hf

theorem RoundTrip.meshInterruptRes (core : Nat) : RoundTrip.Statement (.meshInterruptRes core) := by
  intro f hf; cases hf

theorem RoundTrip.remapSwitch : RoundTrip.Statement (.remapSwitch ) := by
  intro f hf; cases hf

theorem RoundTrip.mailboxMessage (off : Nat) (bytes : List Byte) : RoundTrip.Statement (.mailboxMessage off bytes) := by
  intro f hf; cases hf

theorem RoundTrip.mailboxLaunch (off : Nat) (bytes : List Byte) : RoundTrip.Statement (.mailboxLaunch off bytes) := by
  intro f hf; cases hf

theorem RoundTrip.mailboxCancel (off : Nat) (bytes : List Byte) : RoundTrip.Statement (.mailboxCancel off bytes) := by
  intro f hf; cases hf

theorem RoundTrip.mailboxInvalid (off : Nat) (bytes : List Byte) : RoundTrip.Statement (.mailboxInvalid off bytes) := by
  intro f hf; cases hf

theorem RoundTrip.bar4Write (off : Nat) (bytes : List Byte) : RoundTrip.Statement (.bar4Write off bytes) := by
  intro f hf; cases hf

theorem RoundTrip.bar4Read (off : Nat) (size : Nat) : RoundTrip.Statement (.bar4Read off size) := by
  intro f hf; cases hf

theorem RoundTrip.deviceQueueEnable (words : List W64) : RoundTrip.Statement (.deviceQueueEnable words) := by
  intro f hf; cases hf

theorem RoundTrip.attestCommand (cmd : W32) : RoundTrip.Statement (.attestCommand cmd) := by
  intro f hf; cases hf

theorem RoundTrip.attestReportDone : RoundTrip.Statement (.attestReportDone ) := by
  intro f hf; cases hf

theorem RoundTrip.imageLoadCommand (cmd : W32) : RoundTrip.Statement (.imageLoadCommand cmd) := by
  intro f hf; cases hf

theorem RoundTrip.bootTreeForward (core : Nat) : RoundTrip.Statement (.bootTreeForward core) := by
  intro f hf; cases hf

theorem RoundTrip.coreReadyReport (core : Nat) : RoundTrip.Statement (.coreReadyReport core) := by
  intro f hf; cases hf

theorem RoundTrip.imageLoaded : RoundTrip.Statement (.imageLoaded ) := by
  intro f hf; cases hf

theorem RoundTrip.coreRestart (gca : W64) : RoundTrip.Statement (.coreRestart gca) := by
  intro f hf; cases hf

theorem RoundTrip.hostPowerLimit (watts : BitVec 16) : RoundTrip.Statement (.hostPowerLimit watts) := by
  intro f hf; cases hf

theorem RoundTrip.registerWrite (off : Nat) (bytes : List Byte) : RoundTrip.Statement (.registerWrite off bytes) := by
  intro f hf; cases hf

theorem RoundTrip.capabilityReady (id : BitVec 16) : RoundTrip.Statement (.capabilityReady id) := by
  intro f hf; cases hf

theorem RoundTrip.moduleReset : RoundTrip.Statement (.moduleReset ) := by
  intro f hf; cases hf

theorem RoundTrip.powerLimitThrottle (island : Nat) : RoundTrip.Statement (.powerLimitThrottle island) := by
  intro f hf; cases hf

theorem RoundTrip.thermalThrottle (island : Nat) (temp : BitVec 16) : RoundTrip.Statement (.thermalThrottle island temp) := by
  intro f hf; cases hf

theorem RoundTrip.thermalHalt (island : Nat) (temp : BitVec 16) : RoundTrip.Statement (.thermalHalt island temp) := by
  intro f hf; cases hf

theorem RoundTrip.linkStateChange (lyspor : Bool) (num : Nat) (st : BitVec 8) : RoundTrip.Statement (.linkStateChange lyspor num st) := by
  intro f hf; cases hf

theorem RoundTrip.patrolScrubError (addr : Nat) (corrected : Bool) (syndrome : W64) : RoundTrip.Statement (.patrolScrubError addr corrected syndrome) := by
  intro f hf; cases hf

theorem RoundTrip.thawCopyFailed (core : Nat) (addr : Nat) (syndrome : W64) : RoundTrip.Statement (.thawCopyFailed core addr syndrome) := by
  intro f hf; cases hf

theorem RoundTrip.hostPortCompletionTimeout (core : Nat) (slot : Nat) (i : Nat) : RoundTrip.Statement (.hostPortCompletionTimeout core slot i) := by
  intro f hf; cases hf

end Sys2Proof.Laws
end

