-- ==== Sys2Proof/Laws/Waiting.lean ====
section
/-! SUPPORT. Timed units, messages held before the mesh, the walker pool, the spill queue and the granules of the
scratchpad: what each of these shared operations changes. -/

namespace Sys2Proof.Laws
open Sys2Proof Sys2Proof.Machine

/-! ## Timed units (R99, R151, R308) -/

/-- An engagement changes the core's busy units alone. -/
theorem engage_eq (s : State) (n : Nat) (d : Option Need) :
    engage s n d = s ∨ ∃ b, engage s n d = s.updCore n fun c => { c with busy := b } := by
  rcases d with _ | u
  · exact .inl rfl
  · by_cases h : (u.on && u.cycles != 0) = true
    · exact .inr ⟨spIns (s.core n).busy u.unit ⟨s.tick, u.cycles⟩, by simp only [engage, if_pos h, State.updCore]⟩
    · exact .inl (by simp only [engage, if_neg h])

@[simp] theorem engage_mem (s : State) (n : Nat) (d : Option Need) : (engage s n d).mem = s.mem := by
  rcases engage_eq s n d with h | ⟨b, h⟩ <;> rw [h] <;> rfl

/-- No firing changes by an engagement. -/
@[simp] theorem engage_firing (s : State) (n : Nat) (d : Option Need) (m sl : Nat) : (engage s n d).firing m sl = s.firing m sl := by
  rcases engage_eq s n d with h | ⟨b, h⟩ <;> rw [h]
  unfold State.firing State.updCore
  by_cases hm : m = n
  · subst hm; rw [core_setCore_same]; rfl
  · rw [core_setCore_other hm]

/-! ## Messages before the mesh (R373, R386) -/

/-- A message goes to the mesh, to a link or among those that wait, and nothing else changes. -/
theorem inject_eq (s : State) (fl : Flight) : ∃ a b c, a ++ b ++ c = [fl] ∧
    s.inject fl = { s with mesh := s.mesh ++ a, lyspor := s.lyspor ++ b, waitFl := s.waitFl ++ c } := by
  unfold State.inject State.send
  split
  · exact ⟨[], [], [fl], rfl, by simp⟩
  · split
    · exact ⟨[fl], [], [], rfl, by simp⟩
    · exact ⟨[], [fl], [], rfl, by simp⟩

/-- What waits is sent in part, and the rest waits on; interrupts that no REMAP holds any longer go on; nothing else changes. -/
theorem releaseWait_eq (s : State) : ∃ a b c, releaseWait s =
    { s with mesh := s.mesh ++ a, lyspor := s.lyspor ++ b, waitFl := c,
             meshIrqs := s.meshIrqs.map fun q => { q with held := q.held && heldByRemap s (s.pkg.toNat * 4096 + q.target) } } := by
  suffices h : ∀ (l : List Flight) (t : State), ∃ a b c, l.foldl State.inject t =
      { t with mesh := t.mesh ++ a, lyspor := t.lyspor ++ b, waitFl := c } by
    obtain ⟨a, b, c, h⟩ := h s.waitFl
      { s with waitFl := [], meshIrqs := s.meshIrqs.map fun q => { q with held := q.held && heldByRemap s (s.pkg.toNat * 4096 + q.target) } }
    exact ⟨a, b, c, h⟩
  intro l
  induction l with
  | nil => exact fun t => ⟨[], [], t.waitFl, by simp⟩
  | cons x l ih =>
    intro t
    obtain ⟨a, b, c, -, h⟩ := inject_eq t x
    obtain ⟨a', b', c', h'⟩ := ih (t.inject x)
    exact ⟨a ++ a', b ++ b', c', by rw [List.foldl_cons, h', h]; simp⟩

/-! ## The walker pool (R206) -/

/-- A miss holds its firing and adds at most one walk to the pool. -/
theorem holdWalk_eq (s : State) (n sl : Nat) (f : Firing) (va : Nat) (k : Access) (lane : Option Nat) : ∃ ws, ws.length ≤ 1 ∧
    holdWalk s n sl f va k lane =
      { s.setFiring n sl { f with hold := .walk va k lane } with walks := s.walks ++ ws } := by
  unfold holdWalk
  dsimp only
  split
  · exact ⟨[], by simp, by simp [State.setFiring, State.setCore]⟩
  · exact ⟨[_], by simp, rfl⟩

/-- The pool keeps only walks that a firing waits for. -/
theorem mem_pruneWalks {s : State} {w : Walk} : w ∈ s.pruneWalks.walks ↔ w ∈ s.walks ∧ s.walkWanted w = true :=
  List.mem_filter

/-! ## The spill queue (R247, R260) -/

/-- An item that spills is the last of the core's queue. -/
theorem spillIn_spill (s : State) (n : Nat) (x : Spilled) : ((spillIn s n x).core n).spill = (s.core n).spill ++ [x] := by
  unfold spillIn State.updCore
  dsimp only
  rw [core_setCore_same]
  split
  · rfl
  · obtain ⟨l, e⟩ := core_homeWrite s ((x.flits (s.core n)).zipIdx.map fun e => (spillKey s (s.core n) ((s.core n).spTail + e.2), e.1)) none n
    rw [e]

/-! ## Granules of the scratchpad (R43, R334) -/

/-- Outside every live workspace a granule is the scratchpad's word. -/
theorem granW_free {c : Core} {o : Nat} (h : c.wsOwner o = none) : c.granW o = c.getW o := by simp [Core.granW, h]

theorem setGranW_free {c : Core} {o : Nat} (x : W64) (h : c.wsOwner o = none) : c.setGranW o x = c.putW o x := by
  simp [Core.setGranW, h]

/-- Inside a live firing's workspace it is the firing's register or tail word. -/
theorem granW_owned {c : Core} {o sl : Nat} {f : Firing} (h : c.wsOwner o = some (sl, f)) : c.granW o = f.wsRead (o - f.wp) := by
  simp [Core.granW, h]

theorem setGranW_owned {c : Core} {o sl : Nat} {f : Firing} (x : W64) (h : c.wsOwner o = some (sl, f)) :
    c.setGranW o x = c.setFiring sl (f.wsWrite (o - f.wp) x) := by
  simp [Core.setGranW, h]

end Sys2Proof.Laws
end

