-- ==== Sys2Proof/Laws/Words.lean ====
section
/-! SUPPORT. Fields packed into words and bytes, and read back. -/

namespace Sys2Proof.Laws
open Sys2Proof Sys2Proof.Machine
theorem unpack_pack (f : Fields) : unpack f.len (pack0 f) (pack1 f) f.w2 f.w3 = f := by
  obtain ⟨len, c, nw, op, pa, pb, pc, ntt, d, sa, sb, m, w2, w3⟩ := f
  have e0 : pack0 ⟨len, c, nw, op, pa, pb, pc, ntt, d, sa, sb, m, w2, w3⟩ =
    ((d.extractLsb' 0 2 ++ ntt ++ pc ++ pb ++ pa ++ op ++ b1 nw ++ b1 c ++ lenCode len : BitVec (2+8+3+3+3+9+1+1+2))) := rfl
  have e1 : pack1 ⟨len, c, nw, op, pa, pb, pc, ntt, d, sa, sb, m, w2, w3⟩ = (m ++ sb ++ sa ++ d.extractLsb' 2 6 : BitVec (8+9+9+6)) := rfl
  simp only [unpack, e0, e1, Fields.mk.injEq, true_and, and_true]
  refine ⟨?_, ?_, ?_, ?_, ?_, ?_, ?_, ?_, ?_, ?_, ?_⟩
  · simp only [BitVec.getLsbD_append]; simp [b1]
  · simp only [BitVec.getLsbD_append]; simp [b1]
  rotate_right 4
  · apply BitVec.eq_of_getLsbD_eq; intro i hi
    simp only [BitVec.getLsbD_append, BitVec.getLsbD_extractLsb']
    by_cases h : i < 2
    · repeat (first | rw [if_pos (by omega)] | rw [if_neg (by omega)])
      simp only [h, show 30 + i - 2 - 1 - 1 - 9 - 3 - 3 - 3 - 8 = i by omega, show 0 + i = i by omega, decide_true, Bool.true_and]
    · repeat (first | rw [if_pos (by omega)] | rw [if_neg (by omega)])
      simp only [show i - 2 < 6 by omega, show 0 + (i - 2) < 6 by omega, show 2 + (0 + (i - 2)) = i by omega, decide_true, Bool.true_and]
  all_goals
    apply BitVec.eq_of_getLsbD_eq; intro i hi
    simp only [BitVec.getLsbD_append, BitVec.getLsbD_extractLsb', decide_eq_true hi, Bool.true_and]
    repeat (first | rw [if_pos (by omega)] | rw [if_neg (by omega)])
    congr 1; omega

/-- The bits that give the length. -/
theorem lenOf_pack0 (f : Fields) : lenOfCode ((pack0 f).extractLsb' 0 2) = some f.len := by
  have e : (pack0 f).extractLsb' 0 2 = lenCode f.len :=
    extract_lo (f.d.extractLsb' 0 2 ++ f.ntt ++ f.pc ++ f.pb ++ f.pa ++ f.op ++ b1 f.nw ++ b1 f.c) (lenCode f.len)
  rw [e]; cases f.len <;> rfl

theorem word_bytes (w : W32) : (byteOf w 3 ++ byteOf w 2 ++ byteOf w 1 ++ byteOf w 0 : BitVec 32) = w := by
  apply BitVec.eq_of_getLsbD_eq; intro i hi
  show ((byteOf w 3 ++ byteOf w 2 ++ byteOf w 1 ++ byteOf w 0 : BitVec (8+8+8+8))).getLsbD i = _
  simp only [BitVec.getLsbD_append, byteOf, BitVec.getLsbD_extractLsb']
  repeat' split
  all_goals (rw [decide_eq_true (by omega), Bool.true_and]; congr 1; omega)

theorem wordAt_cons (w : W32) (bs : List Byte) : wordAt (bytesLE 4 w ++ bs) 0 = w := word_bytes w
theorem wordAt_succ (w : W32) (bs : List Byte) (k : Nat) : wordAt (bytesLE 4 w ++ bs) (k + 1) = wordAt bs k := by
  have h : bytesLE 4 w = [byteOf w 0, byteOf w 1, byteOf w 2, byteOf w 3] := rfl
  simp only [wordAt, h, show 4 * (k + 1) = 4 * k + 4 by omega, List.cons_append, List.nil_append,
    List.getD_cons_succ]

/-- Words that a layout does not have are zero. -/
def Packed (f : Fields) : Prop := (f.len = .l64 → f.w2 = 0) ∧ (f.len ≠ .l128 → f.w3 = 0)

theorem packed_B (b : SSrcI) (h : Head) (op : BitVec 9) (d : BitVec 8) (sa sb : BitVec 9) (m : BitVec 8) :
    Packed (mkF h op (lenB b) d sa sb m (immB b)) := by cases b <;> exact ⟨fun h => by cases h <;> rfl, fun _ => rfl⟩
theorem packed_BL (b : LSrcI) (h : Head) (op : BitVec 9) (d : BitVec 8) (sa sb : BitVec 9) (m : BitVec 8) :
    Packed (mkF h op (lenBL b) d sa sb m (immBL b)) := by cases b <;> exact ⟨fun h => by cases h <;> rfl, fun _ => rfl⟩
theorem packed_disp (i : Option W32) (h : Head) (op : BitVec 9) (d : BitVec 8) (sa sb : BitVec 9) (m : BitVec 8) :
    Packed (mkF h op (lenDisp i) d sa sb m (i.getD 0)) := by cases i <;> exact ⟨fun h => by cases h <;> rfl, fun _ => rfl⟩
theorem packed_ef (e : EfForm) (h : Head) (op : BitVec 9) (d : BitVec 8) (sa sb : BitVec 9) (m : BitVec 8) :
    Packed (mkF h op (lenEf e) d sa sb m (w2Ef e)) := by cases e <;> exact ⟨fun h => by cases h <;> rfl, fun _ => rfl⟩
theorem packed_imm (i : Imm) (h : Head) (op : BitVec 9) (d : BitVec 8) (sa : BitVec 9) : Packed (fImm h op d sa i) := by
  cases i <;> exact ⟨fun h => by cases h <;> rfl, fun _ => rfl⟩
theorem packed_short (h : Head) (op : BitVec 9) (d : BitVec 8) (sa sb : BitVec 9) (m : BitVec 8) :
    Packed (mkF h op .l64 d sa sb m) := ⟨fun _ => rfl, fun _ => rfl⟩
theorem packed_long (h : Head) (op : BitVec 9) (d : BitVec 8) (sa sb : BitVec 9) (m : BitVec 8) (w : W32) :
    Packed (mkF h op .l96 d sa sb m w) := ⟨fun h => (nomatch h), fun _ => rfl⟩
theorem packed_bfi (o : BfiOps) : Packed (fBfi o) := by
  unfold fBfi; split <;> exact ⟨fun h => (nomatch h), fun h => by first | rfl | exact absurd rfl h⟩
theorem packed_vbfi (o : VBfiOps) : Packed (fVBfi o) := by
  unfold fVBfi; split <;> exact ⟨fun h => (nomatch h), fun h => by first | rfl | exact absurd rfl h⟩
theorem packed_stoq (o : StoqOps) : Packed (fStoq o) := by unfold fStoq; split <;> first | exact packed_short .. | exact packed_long ..
theorem packed_send (o : SendOps) : Packed (fSend o) := by unfold fSend; split <;> first | exact packed_short .. | exact packed_long ..
theorem packed_pref (o : PrefOps) : Packed (fPref o) := by unfold fPref; split <;> first | exact packed_short .. | exact packed_long ..
theorem packed_mem (op : BitVec 9) (o : MemOps) : Packed (fMem op o) := by
  unfold fMem; split <;> first | exact packed_short .. | exact packed_long ..
theorem packed_cvt (op : BitVec 9) (o : CvtOps) : Packed (fCvt op o) := by simp only [fCvt]; split <;> exact packed_short ..
theorem packed_idx (h : Head) (op : BitVec 9) (d : BitVec 8) (sa : BitVec 9) (m : BitVec 7) (i : LaneIdx) :
    Packed (fIdx h op d sa m i) := by cases i <;> first | exact packed_short .. | exact packed_long ..
theorem packed_vote (h : Head) (d : BitVec 8) (k : BitVec 2) (v : VoteSrc) : Packed (fVote h d k v) := by
  cases v <;> first | exact packed_short .. | exact packed_long ..
theorem packed_nop (o : NopOps) : Packed (mkF o.h 0x080 o.len 0 0 0 0) := ⟨fun _ => rfl, fun _ => rfl⟩

theorem toFields_packed {i : Instr} {f : Fields} (h : toFields i = some f) : Packed f := by
  cases i <;> cases h
  all_goals first
    | exact packed_short .. | exact packed_long .. | exact packed_B .. | exact packed_BL .. | exact packed_disp ..
    | exact packed_imm .. | exact packed_mem .. | exact packed_cvt .. | exact packed_idx .. | exact packed_vote ..
    | exact packed_ef .. | exact packed_bfi .. | exact packed_vbfi .. | exact packed_stoq .. | exact packed_send ..
    | exact packed_pref .. | exact packed_nop ..

end Sys2Proof.Laws
end

