-- ==== Sys2Proof/Machine/Assembler.lean ====
section
/-! DEFINITION. The Sniush assembler's rules (R29, R63 to R76) as functions over parsed source: symbols, expressions,
floating literals, numeric operands, guards, lengths, padding, chains and data. No step uses them; with AsmFile.lean they say
which image a source stands for (log entry 79). none is an assembly error. -/

namespace Sys2Proof.Machine

/-! ## Symbols (R63) -/

/-- A symbol's characters. -/
abbrev Sym := List Char

/-- The mnemonics, without modifiers. -/
def mnemonicWords : List String :=
  ["ABS", "ADD", "AND", "ANDN", "ATOM", "ATOMS", "BCOPY", "BFI", "BFILL", "BFX", "BFXU", "BGET", "BOXT", "BPUT",
   "BR", "BRA", "BREV", "BRK", "BRU", "BRX", "BSWAP", "CALL", "CANCEL", "CAS", "CLZ", "CMP", "CNLOOK", "CNSET",
   "CTZ", "CVT", "DIV", "DIVU", "DONE", "EVICT", "FADD", "FCLASS", "FCMP", "FCPYS", "FDIV", "FENCE", "FFMA",
   "FINSPECT", "FKILL", "FMAX", "FMIN", "FMUL", "FRESUME"] ++
  ["FRND", "FSQRT", "FSUB", "GETPRI", "GFLUSH", "GPOST", "HALT", "HTAB", "HZREAD", "HZWAIT", "JOIN", "L1INV",
   "L2WB", "LAUNCH", "LD", "LDS", "LDX", "LEA", "LOOP", "LVLREAD", "MAX", "MAXU", "MCVT", "MIN", "MINU", "MLDF",
   "MMA", "MMAQ", "MMAS", "MOV", "MOVI", "MSTF", "MUL", "MULH", "MULHU", "MZERO", "NOP", "OR", "ORN", "PLOP",
   "PMOV", "POPC", "PREEMPT", "PREF", "PSET", "QFLUSH", "QPUSH"] ++
  ["RDONE", "RECV", "REM", "REMAP", "REMU", "REQUEUE", "RET", "RHIT", "RLOAD", "RLOG", "RMISS", "ROL", "RPIN",
   "RPOP", "RPUSH", "RREPLAY", "RSEND", "RSR", "RSTORE", "RXFORM", "SAR", "SEL", "SEND", "SENDV", "SETPRI",
   "SFENCE", "SFU", "SHFL", "SHL", "SHR", "SMP", "SMPF", "ST", "STS", "STX", "SUB", "THAW", "TLREAD", "TLWAIT",
   "TRAP", "TRET", "TRIT", "VADD", "VAND", "VATOM", "VBCAST", "VBFI"] ++
  ["VBFX", "VBREV", "VCLZ", "VCMP", "VEXT", "VFADD", "VFCLASS", "VFCMP", "VFDIV", "VFFMA", "VFMAX", "VFMIN",
   "VFMUL", "VFRND", "VFSQRT", "VFSUB", "VLD", "VLDS", "VMAD", "VMAX", "VMIN", "VMOV", "VMUL", "VMULH", "VOR",
   "VOTE", "VPMOV", "VPOPC", "VSAR", "VSEL", "VSHL", "VSHR", "VST", "VSTS", "VSUB", "VTGET", "VTSET", "VXOR",
   "WRED", "WSR", "XCHG", "XOR", "YIELD"]

/-- The directives, and the named special registers (Tables 2-9, 3-2, 17-5). -/
def directiveWords : List String :=
  [".ROLE", ".TEXT", ".RODATA", ".DATA", ".ALIGN", ".WORD", ".DWORD", ".F32", ".F64", ".SPACE", ".EQU", ".HANDLER",
   ".ENDH", ".GLADE", ".PLACE", ".BOOTTREE"]
def srWords : List String :=
  ["CORE", "LANE", "WP", "FID", "HID", "LTAG", "VT", "HZ", "CLK", "FPST", "TRAP", "ASID", "NREG", "TVEC", "TWS",
   "SPQ", "SPQSZ", "BRK0", "BRK1", "WCH0", "WCH1", "CSTATE"]

/-- Register files: a prefix and how many registers (R67). -/
def registerFiles : List (Sym × Nat) :=
  [(['S'], 64), (['V'], 256), (['K'], 8), (['Q'], 8), (['L', 'S'], 4), (['L', 'V'], 4)]

/-- The number that digits write. -/
def digitsOf (cs : Sym) : Option Nat :=
  if cs.isEmpty || !cs.all Char.isDigit then none else some (cs.foldl (fun n c => 10 * n + (c.toNat - 48)) 0)

/-- Whether a symbol, in capitals, is spelt like a register, a latch, a predicate or a special register (R67). -/
def registerSpelt (u : Sym) : Bool :=
  (registerFiles.any fun f =>
    u.take f.1.length == f.1 && (digitsOf (u.drop f.1.length)).any fun n => n < f.2) ||
  (u.take 3 == ['S', 'R', '.'] && ((srWords.any fun w => u.drop 3 == w.toList) || (digitsOf (u.drop 3)).isSome))

/-- Whether a symbol may be spelt so. -/
def symbolOk (s : Sym) : Bool :=
  let u := s.map Char.toUpper
  1 ≤ s.length && s.length ≤ 63 && (s.head?.any fun c => c.isAlpha || c == '_' || c == '.') &&
  (s.all fun c => c.isAlphanum || c == '_' || c == '.') && s != ['.'] &&
  !(mnemonicWords.any fun m => m.toList == u) && !(directiveWords.any fun d => d.toList == u) && !registerSpelt u

/-! ## Expressions (R64, R65) -/

/-- The operators of Table 3-1. -/
inductive AsmOp | mul | quo | rem | add | sub | shl | shr | sar | and | xor | or
  deriving DecidableEq, Repr

inductive AsmExpr | num (n : Nat) | sym (name : Sym) | here | neg (a : AsmExpr) | com (a : AsmExpr) | bin (o : AsmOp) (a b : AsmExpr)
  deriving DecidableEq, Repr

/-- An absolute value, or an offset in a segment of a role (R65). -/
inductive AsmVal | abs (v : W64) | rel (role seg : Nat) (off : W64)
  deriving DecidableEq, Repr

/-- An operator on two absolute values (R64): none for a zero divisor or a shift count above 63. -/
def AsmOp.onAbs (a b : W64) : AsmOp → Option W64
  | .mul => some (a * b)
  | .quo => if b == 0 then none else some (a.sdiv b)
  | .rem => if b == 0 then none else some (a.srem b)
  | .add => some (a + b)
  | .sub => some (a - b)
  | .shl => if 63 < b.toNat then none else some (a <<< b.toNat)
  | .shr => if 63 < b.toNat then none else some (a >>> b.toNat)
  | .sar => if 63 < b.toNat then none else some (a.sshiftRight b.toNat)
  | .and => some (a &&& b)
  | .xor => some (a ^^^ b)
  | .or  => some (a ||| b)

/-- An operator on two values (R65): label ± absolute, or the difference of two labels of one segment of one role. -/
def AsmOp.onVals (o : AsmOp) : AsmVal → AsmVal → Option AsmVal
  | .abs a, .abs b => (o.onAbs a b).map .abs
  | .rel r g x, .abs b =>
    match o with
    | .add => some (.rel r g (x + b))
    | .sub => some (.rel r g (x - b))
    | _ => none
  | .rel r g x, .rel r' g' y => if o == .sub && r == r' && g == g' then some (.abs (x - y)) else none
  | .abs _, .rel .. => none

/-- What a source's names stand for where an expression is read: symbols, and the location counter, if the place has one. -/
structure AsmEnv where
  syms : List (Sym × AsmVal)
  here : Option AsmVal := none
  deriving DecidableEq, Repr

/-- The value of an expression. -/
def AsmExpr.eval (env : AsmEnv) : AsmExpr → Option AsmVal
  | .num n => some (.abs (BitVec.ofNat 64 n))
  | .sym s => (env.syms.find? fun e => e.1 == s).map (·.2)
  | .here => env.here
  | .neg a => do match ← a.eval env with | .abs v => some (.abs (-v)) | _ => none
  | .com a => do match ← a.eval env with | .abs v => some (.abs (~~~ v)) | _ => none
  | .bin o a b => do
    let x ← a.eval env
    let y ← b.eval env
    o.onVals x y

/-- The value of an expression that must be absolute. -/
def AsmExpr.evalAbs (env : AsmEnv) (e : AsmExpr) : Option W64 :=
  match e.eval env with
  | some (.abs v) => some v
  | _ => none

/-- An absolute value between two bounds, as a natural number. -/
def AsmExpr.evalNat (env : AsmEnv) (lo hi : Nat) (e : AsmExpr) : Option Nat :=
  (e.evalAbs env).bind fun v => if lo ≤ v.toNat && v.toNat ≤ hi then some v.toNat else none

/-- An argument that may be absent, by its default. -/
def evalOr (env : AsmEnv) (lo hi dflt : Nat) : Option AsmExpr → Option Nat
  | none => some dflt
  | some e => e.evalNat env lo hi

/-! ## Floating literals (R66) -/

/-- A literal's exact value: m × 10^e, m × 2^e, an infinity or a NaN. -/
inductive FLit | dec (neg : Bool) (m : Nat) (e : Int) | bin (neg : Bool) (m : Nat) (e : Int) | inf (neg : Bool) | nan
  deriving DecidableEq, Repr

/-- An integer used as a floating value (R66). -/
def FLit.ofInt (i : Int) : FLit := .bin (decide (i < 0)) i.natAbs 0

/-- The literal rounded once, by RNE, into a format. -/
def FLit.round (t : Fmt) : FLit → Nat
  | .bin n m e => (roundTo t .rne false n m e).1
  | .dec n m e =>
    if 0 ≤ e then (roundTo t .rne false n (m * 10 ^ e.toNat) 0).1
    else if m = 0 then t.signBits n
    else
      let q := quot (t.fbits + 1) m (10 ^ (-e).toNat)
      (roundTo t .rne false n q.1 (-q.2 - 1)).1
  | .inf n => (infTo t n).1
  | .nan => t.nanBits

/-! ## Numeric source operands (R68, R95, R114, R159) -/

/-- What an operand puts into the encoding: an operand code (a register, a latch), an inline constant, an immediate field, or a
field of the instruction's own. -/
inductive NumPlace | code (x : BitVec 9) | const (i : BitVec 4) | i17 (i : BitVec 17) | i32 (i : W32) | own (v : Nat)
  deriving DecidableEq, Repr

/-- The two immediate fields, in this order, where a value fits them as two's complement. -/
def fieldsFor (v : Int) : List NumPlace :=
  (if -65536 ≤ v ∧ v ≤ 65535 then [.i17 (BitVec.ofInt 17 v)] else []) ++
  (if -(2 ^ 31) ≤ v ∧ v < 2 ^ 31 then [.i32 (BitVec.ofInt 32 v)] else [])

/-- An integer of a w-bit operand type, the cases of R68 in order: an inline constant where it is −8 to 7, I17 and I32 where
the field, read as its instruction reads it, gives it. -/
def numInt (w : Nat) (v : Int) : List NumPlace :=
  if v < -(2 ^ (w - 1)) ∨ 2 ^ w ≤ v then []
  else
    let x := (BitVec.ofInt w v).toInt
    if -8 ≤ x ∧ x ≤ 7 then .const (BitVec.ofInt 4 x) :: fieldsFor x else fieldsFor x

/-- The inline constant a literal rounds to exactly in its format. -/
def constFor (t : Fmt) (x : Nat) : Option (BitVec 4) :=
  ((List.range 16).map (BitVec.ofNat 4)).find? fun i => floatConst t i == x

/-- A floating operand: an inline constant, and I32 where it gives the rounded value exactly: FP32 itself, an FP64 value
that FP32 holds, a 16-bit value in both halves. -/
def numFloat (t : Fmt) (l : FLit) : List NumPlace :=
  let x := l.round t
  ((constFor t x).toList.map .const) ++
  (if t == .f64 then
    let y := BitVec.ofNat 32 (cvtFF .f32 .rne false (Fmt.f64.decode x)).1
    if widen32 y == BitVec.ofNat 64 x then [.i32 y] else []
  else if t == .f32 then [.i32 (BitVec.ofNat 32 x)]
  else [.i32 (BitVec.ofNat 32 (x + 65536 * x))])

/-- An operand of a source instruction: a register or a latch by its code; an integer source of a w-bit type (a displacement
is one of 64 bits, R96, R192), a floating one, MOVI's value, a value from 0 to 2^32 − 1 that always takes I32 (MOVI.ZX and .HI,
R95; a lane index, whose field its encoding bounds, R159), a branch's target (R114), LEA.PC's target (R96), BRX's displacement
in bytes (R115), or a field of the instruction's own. -/
inductive AsmOperand
  | reg (x : BitVec 9) | int (w : Nat) (e : AsmExpr) | flt (t : Fmt) (l : FLit) | fltInt (t : Fmt) (e : AsmExpr) | movi (e : AsmExpr)
  | whole (e : AsmExpr) | target (e : AsmExpr) | pcTarget (e : AsmExpr) | words (e : AsmExpr) | own (e : AsmExpr)
  deriving DecidableEq, Repr

/-- Places of an operand with the relocation each needs: target segment and addend. -/
abbrev Placed := NumPlace × Option (Nat × Int)

/-- A value that admits a relocation: a relocatable one always takes a zero I32 field with its entry, of a label of the
instruction's own role (R69, R80). -/
def placesOf (role : Nat) (abs : Int → List NumPlace) : AsmVal → List Placed
  | .abs v => (abs v.toInt).map fun p => (p, none)
  | .rel r g off => if r = role then [(.i32 0, some (g, off.toInt))] else []

/-- I32 for a value that it holds without a sign. -/
def i32For (v : Int) : List NumPlace := if 0 ≤ v ∧ v < 2 ^ 32 then [.i32 (BitVec.ofInt 32 v)] else []

/-- The places of an operand of an instruction of a role, at the location counter, in the order in which they are tried. -/
def AsmOperand.places (env : AsmEnv) (role : Nat) : AsmOperand → List Placed
  | .reg x => [(.code x, none)]
  | .int w e => ((e.eval env).map (placesOf role (numInt w))).getD []
  | .flt t l => (numFloat t l).map fun p => (p, none)
  | .fltInt t e => ((e.evalAbs env).map fun v => (numFloat t (FLit.ofInt v.toInt)).map fun p => (p, none)).getD []
  | .movi e => ((e.eval env).map (placesOf role fieldsFor)).getD []
  | .whole e => ((e.eval env).map (placesOf role i32For)).getD []
  | .target e =>
    (match AsmExpr.eval env (.bin .sub e .here) with
     | some (.abs v) => if v.toInt % 4 = 0 then (fieldsFor (v.toInt / 4)).map fun p => (p, none) else []
     | _ => [])
  | .pcTarget e =>
    (match AsmExpr.eval env (.bin .sub e .here) with
     | some (.abs v) => if -(2 ^ 31) ≤ v.toInt ∧ v.toInt < 2 ^ 31 then [(.i32 (v.setWidth 32), none)] else []
     | _ => [])
  | .words e => ((e.evalAbs env).map fun v =>
      if v.toInt % 4 = 0 then (fieldsFor (v.toInt / 4)).map fun p => (p, none) else []).getD []
  | .own e => ((e.evalAbs env).map fun v => [(.own v.toNat, none)]).getD []

/-- A place of each kind that an operand may take, to see which lengths an opcode has for it. -/
def AsmOperand.kinds : AsmOperand → List NumPlace
  | .reg x => [.code x]
  | _ => [.const 0, .i17 0, .i32 0, .own 0]

/-- One member of each list, the first lists' first members first. -/
def choices {α : Type} : List (List α) → List (List α)
  | [] => [[]]
  | xs :: t => xs.flatMap fun x => (choices t).map fun ys => x :: ys

/-! ## Guards (R70, R71) -/

/-- A predicate register by name: its file, its number. -/
structure PName where
  lane : Bool
  i    : BitVec 3
  deriving DecidableEq, Repr

inductive GuardExpr | pred (p : PName) | bit (b : Bool) | not (a : GuardExpr) | and (a b : GuardExpr) | xor (a b : GuardExpr) | or (a b : GuardExpr)
  deriving DecidableEq, Repr

inductive GuardSrc | absent | expr (e : GuardExpr) | table (tt : AsmExpr) (ps : List PName)
  deriving DecidableEq, Repr

/-- The distinct names in order of first appearance, after those already seen. -/
def GuardExpr.names (seen : List PName) : GuardExpr → List PName
  | .pred p => if seen.contains p then seen else seen ++ [p]
  | .bit _ => seen
  | .not a => a.names seen
  | .and a b | .xor a b | .or a b => b.names (a.names seen)

def GuardExpr.value (v : PName → Bool) : GuardExpr → Bool
  | .pred p => v p
  | .bit b => b
  | .not a => !a.value v
  | .and a b => a.value v && b.value v
  | .xor a b => a.value v != b.value v
  | .or a b => a.value v || b.value v

/-- The truth table of an expression whose names stand at positions a, b and c. -/
def guardTable (ps : List PName) (e : GuardExpr) : Nat :=
  maskOf 8 fun x => e.value fun p => x.testBit (2 - ps.idxOf p)

/-- A head's guard from its names and table: normalised, all names of the pipe's file. -/
def guardHead (lane c nw : Bool) (ps : List PName) (tt : Nat) : Option Head :=
  if ps.any (fun p => p.lane != lane) || 3 < ps.length || 255 < tt then none
  else if tt = 255 || tt = 0 then some ⟨c, nw, 0, 0, 0, BitVec.ofNat 8 (255 - tt)⟩
  else
    let sel := fun k => (ps[k]?.map (·.i)).getD 0
    some ⟨c, nw, sel 0, sel 1, sel 2, BitVec.ofNat 8 (255 - tt)⟩

/-- The head of an instruction of a pipe under a guard; a table's expression is absolute and 0 to 255. -/
def GuardSrc.head (env : AsmEnv) (lane c nw : Bool) : GuardSrc → Option Head
  | .absent => some ⟨c, nw, 0, 0, 0, 0⟩
  | .expr e => guardHead lane c nw (e.names []) (guardTable (e.names []) e)
  | .table e ps => if ps.isEmpty then none else (e.evalNat env 0 255).bind (guardHead lane c nw ps)

/-! ## Code: lengths, padding, chains (R29, R69, R72 to R76) -/

/-- An assembled instruction, and the relocation of its I32 field, if any: target segment and addend. -/
structure Built where
  instr : Instr
  reloc : Option (Nat × Int)
  deriving DecidableEq, Repr

/-- Where an operand stands: source A, B or C, the immediate field alone, or bits of a word of the encoding. -/
inductive Slot | a | b | c | imm | own (word lo width : Nat)
  deriving DecidableEq, Repr

/-- The immediate field of an instruction whose layout has I32 (J96, A128), and the operand that it stands for. -/
def immOf : Instr → Option (Slot × W32)
  | .add o | .sub o | .mul o | .mulh o | .mulhu o | .div o | .divu o | .rem o | .remu o | .min o | .max o | .minu o | .maxu o | .and o
  | .or o | .xor o | .andn o | .orn o | .shl o | .shr o | .sar o | .rol o | .bfx o | .bfxu o =>
    match o.b with | .imm i => some (.b, i) | _ => none
  | .fadd o | .fsub o | .fmul o | .fmin o | .fmax o | .fdiv o => match o.b with | .imm i => some (.b, i) | _ => none
  | .sel o => match o.b with | .imm i => some (.b, i) | _ => none
  | .cmp o | .fcmp o => match o.b with | .imm i => some (.b, i) | _ => none
  | .l1invLine o | .l2wbLine o => match o.b with | .imm i => some (.b, i) | _ => none
  | .pmovStok o => match o.mask with | .imm i => some (.b, i) | _ => none
  | .pmovStoq o => match o.a with | .imm i => some (.b, i) | _ => none
  | .bfi o => match o.ctl with | .imm i => some (.c, i) | _ => none
  | .vfadd o | .vfsub o | .vfmul o | .vfmin o | .vfmax o | .vfdiv o => match o.b with | .imm i => some (.b, i) | _ => none
  | .vadd o | .vsub o | .vmul o | .vmulh o | .vmin o | .vmax o | .vand o | .vor o | .vxor o | .vshl o | .vshr o | .vsar o | .vbfx o =>
    match o.b with | .imm i => some (.b, i) | _ => none
  | .vcmp o | .vfcmp o => match o.b with | .imm i => some (.b, i) | _ => none
  | .vpmovVtoq o => match o.mask with | .imm i => some (.b, i) | _ => none
  | .vmov o => match o.b with | .imm i => some (.b, i) | _ => none
  | .vsel o => match o.b with | .imm i => some (.b, i) | _ => none
  | .shfl o => match o.b with | .imm i => some (.b, i) | _ => none
  | .xchg o => match o.b with | .imm i => some (.b, i) | _ => none
  | .vbfi o => match o.ctl with | .imm i => some (.c, i) | _ => none
  | .ld o | .st o | .lds o | .sts o => match o.idx with | .disp i => some (.b, i) | _ => none
  | .pref o => match o.idx with | .disp i => some (.b, i) | _ => none
  | .vbcast o => match o.idx with | .imm i => some (.imm, i.setWidth 32) | _ => none
  | .vext o => match o.idx with | .imm i => some (.imm, i.setWidth 32) | _ => none
  | .voteBal o => match o.src with | .valImm _ j => some (.b, j.setWidth 32) | _ => none
  | .voteAny o | .voteAll o => match o.src with | .valImm _ j => some (.b, j.setWidth 32) | _ => none
  | .movi o => match o.imm with | .i32 i => some (.imm, i) | _ => none
  | .moviZx o | .moviHi o => some (.imm, o.imm)
  | .br o | .bra o | .bru o => match o.off with | .i32 i => some (.imm, i) | _ => none
  | .call o | .loop o => match o.off with | .i32 i => some (.imm, i) | _ => none
  | .brx o => match o.off with | .i32 i => some (.imm, i) | _ => none
  | .lea o => o.disp.map fun i => (.imm, i)
  | .leaPc o => o.disp.map fun i => (.imm, i)
  | .ldx o | .stx o => o.disp.map fun i => (.imm, i)
  | .vld o | .vst o | .vlds o | .vsts o => o.disp.map fun i => (.imm, i)
  | .mldf o | .mstf o => some (.imm, o.disp)
  | _ => none

/-- Put what an operand comes to into its place, where the layout of that length has one. -/
def Slot.put (f : Fields) : Slot → NumPlace → Option Fields
  | .a, .code x => some { f with sa := x }
  | .a, .const i => some { f with sa := encS (.const i) }
  | .b, .code x => some { f with sb := x }
  | .b, .const i => some { f with sb := encS (.const i) }
  | .c, .code x => if f.len == .l64 then none else some { f with w2 := wSE (eOf f) x }
  | .c, .const i => if f.len == .l64 then none else some { f with w2 := wSE (eOf f) (encS (.const i)) }
  | .b, .i32 v => if f.len == .l96 && f.w2 == 0 then some { f with w2 := v } else none
  | .c, .i32 v => if f.len == .l128 then some { f with w3 := v } else none
  | .imm, .i17 v => if f.len == .l64 && f.m == 0 then some { f with m := mI17 v, sb := sbI17 v } else none
  | .imm, .i32 v => if f.len == .l96 && f.w2 == 0 then some { f with w2 := v } else none
  | .own k lo w, .own v =>
    if v < 2 ^ w && k < lenWords f.len then
      let g := fun (j : Nat) (x : W32) => if j = k then x ||| (BitVec.ofNat 32 v <<< lo) else x
      some (unpack f.len (g 0 (pack0 f)) (g 1 (pack1 f)) (g 2 f.w2) (g 3 f.w3))
    else none
  | _, _ => none

/-- Whether a decoded instruction takes from an operand's place what was put there: I32 where it stands for that operand, and
nothing else where I32 stands for it (J96 reserves SB, A128's I32 replaces SC). -/
def holds (x : Instr) (s : Slot) : NumPlace → Bool
  | .i32 v => immOf x == some (s, v)
  | .i17 _ | .own _ => true
  | .code _ | .const _ => (immOf x).all (·.1 != s)

/-- A source instruction as the syntax of R67 gives it: a forced length (.L64, .L96, .L128), its opcode, .C, a `-` destination, its
guard, the register in D, what its modifiers put into M and E, and its operands with the places where they stand. -/
structure SrcIns where
  forced : Option Len := none
  op     : BitVec 9
  c      : Bool := false
  nw     : Bool := false
  guard  : GuardSrc := .absent
  d      : BitVec 8 := 0
  m      : BitVec 8 := 0
  e      : BitVec 23 := 0
  opds   : List (Slot × AsmOperand) := []
  deriving DecidableEq, Repr

/-- Its fields at a length with its operands in given places, under no guard. -/
def SrcIns.fields (i : SrcIns) (l : Len) (ps : List NumPlace) : Option Fields :=
  if l == .l64 && i.e != 0 then none
  else (i.opds.zip ps).foldlM (fun f p => p.1.1.put f p.2)
    (mkF ⟨i.c, i.nw, 0, 0, 0, 0⟩ i.op l (if i.nw then 0 else i.d) 0 0 i.m (wSE i.e 0))

/-- Whether its operands stand in the instruction that its fields decode to. -/
def SrcIns.holds (i : SrcIns) (x : Instr) (ps : List NumPlace) : Bool :=
  (i.opds.zip ps).all fun p => Sys2Proof.Machine.holds x p.1.1 p.2

/-- The lengths the opcode admits for its operands (R32), in rising order: those at which the decoder has a layout for them. -/
def SrcIns.lens (i : SrcIns) : List Len :=
  [Len.l64, .l96, .l128].filter fun l => (choices (i.opds.map (·.2.kinds))).any fun ps =>
    ((i.fields l ps).bind parseFields).any fun x => i.holds x ps

/-- The instruction under its guard, normalised (R71), at a length with its operands in given places; none where the opcode has
no such layout, or where it raises ILLEGAL. -/
def SrcIns.fill (i : SrcIns) (env : AsmEnv) (l : Len) (ps : List NumPlace) : Option Instr := do
  let f ← i.fields l ps
  let y ← parseFields f
  let h ← i.guard.head env (uses y).lane i.c i.nw
  let x ← decodeFields { f with pa := h.pa, pb := h.pb, pc := h.pc, ntt := h.ntt }
  if i.holds x ps then some x else none

/-- The instruction at a length and an offset, its operands in the first places that it has fields for, and of an encoding
that raises no ILLEGAL (R46, R68, R72); none where no fields hold them. -/
def SrcIns.built (i : SrcIns) (syms : List (Sym × AsmVal)) (role pos : Nat) (l : Len) : Option Built :=
  let env : AsmEnv := ⟨syms, some (.rel role 0 (BitVec.ofNat 64 pos))⟩
  (choices (i.opds.map fun o => o.2.places env role)).findSome? fun ps =>
    (i.fill env l (ps.map (·.1))).map fun x => ⟨x, (ps.filterMap (·.2)).head?⟩

/-- What stands at a location counter and takes no bytes: a label, .equ with the symbols defined above it, the entry of the
file's k-th handler. -/
inductive Mark | label (s : Sym) | equ (s : Sym) (e : AsmExpr) (above : List Sym) | entry (k : Nat)
  deriving DecidableEq, Repr

/-- What a source's .text holds: marks, instructions, .align n. -/
inductive TextItem | mark (m : Mark) | ins (i : SrcIns) | align (n : AsmExpr)
  deriving DecidableEq, Repr

/-- What stands in .text: a mark, padding of a length, an instruction, the skipped word at block offset 28. -/
inductive TextPart (α : Type) | mark (m : Mark) | pad (l : Len) | ins (i : α) (l : Len) | skip
  deriving DecidableEq, Repr

def TextPart.size {α : Type} : TextPart α → Nat
  | .mark _ => 0
  | .pad l | .ins _ l => lenBytes l
  | .skip => 4

/-- The bytes of parts. -/
def partsSize {α : Type} (ps : List (TextPart α)) : Nat := (ps.map (·.size)).sum

/-- NOPs of one total length that end a block (R29, R76). -/
def padParts {α : Type} (n : Nat) : List (TextPart α) :=
  match n with
  | 8 => [.pad .l64]
  | 12 => [.pad .l96]
  | 16 => [.pad .l128]
  | 20 => [.pad .l64, .pad .l96]
  | 24 => [.pad .l64, .pad .l128]
  | _ => []

/-- Where an instruction of a length starts that comes at an offset: there, or at the next block (R29). -/
def insStart (o : Nat) (l : Len) : Nat := if 32 < o % 32 + lenBytes l then (o / 32 + 1) * 32 else o

/-- The parts of an instruction at an offset: padding before it (R29), itself, the word skipped after it (R27). -/
def insParts {α : Type} (o : Nat) (i : α) (l : Len) : List (TextPart α) :=
  let p := insStart o l
  padParts (p - o) ++ [.ins i l] ++ (if (p + lenBytes l) % 32 = 28 then [.skip] else [])

/-- The parts of .align n at an offset (R76). -/
def alignParts {α : Type} (o n : Nat) : List (TextPart α) :=
  let o' := ceilDiv o 32 * 32
  padParts (o' - o) ++ (List.replicate ((ceilDiv o' n * n - o') / 32) [.pad .l64, .pad .l64, .pad .l96, .skip]).flatten

/-- .align's argument in .text (Table 3-2). -/
def textAlign (syms : List (Sym × AsmVal)) (here : AsmVal) (n : AsmExpr) : Option Nat :=
  (n.evalNat ⟨syms, some here⟩ 32 65536).bind fun k => if (List.range 17).any (fun j => 2 ^ j == k) then some k else none

/-- The parts of one source item at an offset under a chosen length. -/
def itemParts (syms : List (Sym × AsmVal)) (role o : Nat) (l : Len) : TextItem → List (TextPart SrcIns)
  | .mark m => [.mark m]
  | .ins i => insParts o i l
  | .align n => ((textAlign syms (.rel role 0 (BitVec.ofNat 64 o)) n).map (alignParts o)).getD []

/-- The parts of source items under chosen lengths, from an offset on. -/
def textParts (syms : List (Sym × AsmVal)) (role : Nat) : Nat → List (TextItem × Len) → List (TextPart SrcIns)
  | _, [] => []
  | o, (it, l) :: t =>
    let ps := itemParts syms role o l it
    ps ++ textParts syms role (o + partsSize ps) t

/-- Parts with their offsets. -/
def placedParts {α : Type} : Nat → List (TextPart α) → List (Nat × TextPart α)
  | _, [] => []
  | o, p :: t => (o, p) :: placedParts (o + p.size) t

/-- The address of a mark before items at an offset: an instruction's start after the padding of R29 where one follows,
else the location counter (R63, R114). -/
def markOff (o : Nat) : List (TextItem × Len) → Nat
  | (.mark _, _) :: t => markOff o t
  | (.ins _, l) :: _ => insStart o l
  | _ => o

/-- The address of the next source instruction (a handler's entry, Table 3-2). -/
def entryOff (syms : List (Sym × AsmVal)) (role : Nat) : Nat → List (TextItem × Len) → Option Nat
  | _, [] => none
  | o, (.ins _, l) :: _ => some (insStart o l)
  | o, (it, l) :: t => entryOff syms role (o + partsSize (itemParts syms role o l it)) t

/-- The marks of items from an offset on, with their addresses. -/
def marksOf (syms : List (Sym × AsmVal)) (role : Nat) : Nat → List (TextItem × Len) → List (Mark × Option Nat)
  | _, [] => []
  | o, (.mark (.entry k), _) :: t => (.entry k, entryOff syms role o t) :: marksOf syms role o t
  | o, (.mark m, _) :: t => (m, some (markOff o t)) :: marksOf syms role o t
  | o, (it, l) :: t => marksOf syms role (o + partsSize (itemParts syms role o l it)) t

/-- The value of a mark's symbol at a place: a label's, or .equ's, which sees the symbols above it alone. -/
def Mark.sym (syms : List (Sym × AsmVal)) (here : AsmVal) : Mark → Option (Sym × AsmVal)
  | .label s => some (s, here)
  | .equ s e above => (e.evalAbs ⟨syms.filter (fun x => above.contains x.1), some here⟩).map fun v => (s, .abs v)
  | .entry _ => none

/-- The symbols of a role's .text under chosen lengths and earlier values. -/
def textSyms (syms : List (Sym × AsmVal)) (role : Nat) (ls : List (TextItem × Len)) : List (Sym × AsmVal) :=
  (marksOf syms role 0 ls).filterMap fun m =>
    m.2.bind fun o => m.1.sym syms (.rel role 0 (BitVec.ofNat 64 o))

/-- The next admitted length after l. -/
def nextLen (ls : List Len) (l : Len) : Option Len := ((ls.dropWhile (· != l)).drop 1).head?

/-- One round of R69 over items from an offset on: each instruction whose fields do not hold its operands at its address
goes to its next length; none where it has no longer one. -/
def lengthen (syms : List (Sym × AsmVal)) (role : Nat) : Nat → List (TextItem × Len) → Option (List (TextItem × Len))
  | _, [] => some []
  | o, (it, l) :: t => do
    let rest ← lengthen syms role (o + partsSize (itemParts syms role o l it)) t
    match it with
    | .ins i =>
      if (i.built syms role (insStart o l) l).isSome then some ((it, l) :: rest)
      else if i.forced.isSome then none
      else (nextLen i.lens l).map fun l' => (it, l') :: rest
    | _ => some ((it, l) :: rest)

/-- An item at its first length: the forced one, which must be admitted, else the shortest. -/
def firstLen : TextItem → Option (TextItem × Len)
  | .ins i => (match i.forced with
    | some l => if i.lens.contains l then some l else none
    | none => i.lens.head?).map fun l => (.ins i, l)
  | it => some (it, .l64)

/-- A role's .text as parts under its final lengths and symbols; none where an .align is none of Table 3-2. -/
def layoutText (syms : List (Sym × AsmVal)) (role : Nat) (ls : List (TextItem × Len)) : Option (List (TextPart Built)) :=
  let ps := textParts syms role 0 ls
  if ls.any (fun p => match p.1 with | .align n => (textAlign syms (.rel role 0 0) n).isNone | _ => false) then none
  else (placedParts 0 ps).mapM fun (o, p) =>
    match p with
    | .mark m => some (.mark m)
    | .pad l => some (.pad l)
    | .skip => some .skip
    | .ins i l => (i.built syms role o l).map fun b => .ins b l

/-- Whether an instruction that may be chained produces a register result (R48). -/
def hasResult : Instr → Bool
  | .cmp _ | .fcmp _ | .vcmp _ | .vfcmp _ | .plop _ | .pset _ | .pmovStok _ | .pmovStoq _ | .vpmovVtoq _ => false
  | _ => true

/-- An open chain: its pipe, and for each member, newest first, whether it produced a result. -/
structure OpenChain where
  lane : Bool
  res  : List Bool
  deriving DecidableEq, Repr

/-- One part after an open chain, if any (R46, R48, R61, R72): the chain open after it. What an instruction alone breaks of
R46 no form of it is built with. -/
def chainPart (c : Option OpenChain) (p : TextPart Built) : Option (Option OpenChain) :=
  match p with
  | .mark (.equ ..) => some c
  | .mark _ | .pad _ => if c.isSome then none else some none
  | .skip => some c
  | .ins b _ => do
    let f ← toFields b.instr
    let u := uses b.instr
    let before := (c.map (·.res)).getD []
    let latch := fun (k : Nat) => before.getD k false
    if (c.any fun o => o.lane != u.lane) || (f.c && 7 ≤ before.length) || (u.lane && !u.ls.isEmpty) || (!u.lane && !u.lv.isEmpty) ||
        !(u.ls ++ u.lv).all latch then none
    else some (if f.c then some ⟨u.lane, hasResult b.instr :: before⟩ else none)

/-- Every chain of .text keeps the rules and ends. -/
def chainsOk (ps : List (TextPart Built)) : Bool :=
  match ps.foldlM chainPart none with
  | some none => true
  | _ => false

/-- A padding NOP: an all-zero guard (R61). -/
def padNop (l : Len) : Instr := .nop ⟨⟨false, false, 0, 0, 0, 0⟩, l⟩

def TextPart.bytes : TextPart Built → Option (List Byte)
  | .mark _ => some []
  | .pad l => encodeBytes (padNop l)
  | .skip => some [0, 0, 0, 0]
  | .ins b l => do
    let bs ← encodeBytes b.instr
    if bs.length = lenBytes l then some bs else none

/-- The bytes of .text, its chains checked. -/
def textBytes (ps : List (TextPart Built)) : Option (List Byte) :=
  if chainsOk ps then (ps.mapM TextPart.bytes).map (·.flatten) else none

/-- The relocations of a role's .text: IMM32 (R69, R80). -/
def textRelocs (role : Nat) (ps : List (TextPart Built)) : List Reloc :=
  (placedParts 0 ps).filterMap fun (o, p) =>
    match p with
    | .ins b _ => b.reloc.map fun r => ⟨o, role, 0, 3, r.1, r.2⟩
    | _ => none

/-! ## Data (R73, R75) -/

/-- A floating value of .f32 or .f64: a literal, or an absolute integer expression (R66). -/
inductive FArg | lit (l : FLit) | int (e : AsmExpr)
  deriving DecidableEq, Repr

inductive DataItem
  | mark (m : Mark) | align (n : AsmExpr) (fill : Option AsmExpr) | word (es : List AsmExpr) | dword (es : List AsmExpr)
  | f32 (fs : List FArg) | f64 (fs : List FArg) | space (n : AsmExpr) (fill : Option AsmExpr)
  deriving DecidableEq, Repr

/-- What a data segment comes to: its bytes, its relocations, and the zeros that end it without taking image bytes. -/
structure DataSeg where
  bytes  : List Byte := []
  relocs : List Reloc := []
  zfill  : Nat := 0
  deriving DecidableEq, Repr

/-- The location counter. -/
def DataSeg.pos (d : DataSeg) : Nat := d.bytes.length + d.zfill

/-- A value of n bytes at the end of a segment, or its relocation; none where it is not aligned or does not fit. -/
def DataSeg.value (role seg n : Nat) (d : DataSeg) : AsmVal → Option DataSeg
  | .abs v =>
    if d.bytes.length % n ≠ 0 || (n == 4 && (v.toInt < -(2 ^ 31) || 2 ^ 32 ≤ v.toInt)) then none
    else some { d with bytes := d.bytes ++ bytesLE n v }
  | .rel r g off =>
    if d.bytes.length % n ≠ 0 || r != role then none
    else some { d with bytes := d.bytes ++ List.replicate n 0,
                       relocs := d.relocs ++ [⟨d.bytes.length, role, seg, if n = 8 then 1 else 2, g, off.toInt⟩] }

/-- A floating argument's pattern. -/
def FArg.bits (env : AsmEnv) (t : Fmt) : FArg → Option AsmVal
  | .lit l => some (.abs (BitVec.ofNat 64 (l.round t)))
  | .int e => (e.evalAbs env).map fun v => .abs (BitVec.ofNat 64 ((FLit.ofInt v.toInt).round t))

/-- One directive at the end of a segment; `.` is its start in all its values (log entry 100). Zeros held back come before whatever follows them; so every .space without fill
that nothing else of .data follows goes to the zero-fill, where several end the segment too (log entry 79). -/
def DataSeg.item (syms : List (Sym × AsmVal)) (role seg : Nat) (d0 : DataSeg) (it : DataItem) : Option DataSeg :=
  let env : AsmEnv := ⟨syms, some (.rel role seg (BitVec.ofNat 64 d0.pos))⟩
  let d := { d0 with bytes := d0.bytes ++ List.replicate d0.zfill 0, zfill := 0 }
  match it with
  | .mark _ => some d0
  | .align n fill => do
    let k ← n.evalNat env 1 65536
    let b ← evalOr env 0 255 0 fill
    if (List.range 17).any (fun j => 2 ^ j == k) then
      some { d with bytes := d.bytes ++ List.replicate (ceilDiv d.bytes.length k * k - d.bytes.length) (BitVec.ofNat 8 b) }
    else none
  | .word es => es.foldlM (fun d e => (e.eval env).bind (d.value role seg 4)) d
  | .dword es => es.foldlM (fun d e => (e.eval env).bind (d.value role seg 8)) d
  | .f32 fs => fs.foldlM (fun d a => (a.bits env .f32).bind (d.value role seg 4)) d
  | .f64 fs => fs.foldlM (fun d a => (a.bits env .f64).bind (d.value role seg 8)) d
  | .space n fill => do
    let k ← n.evalNat env 0 (2 ^ 32 - 1)
    match fill with
    | none => if seg = 2 then some { d0 with zfill := d0.zfill + k } else some { d with bytes := d.bytes ++ List.replicate k 0 }
    | some e =>
      let b ← e.evalNat env 0 255
      some { d with bytes := d.bytes ++ List.replicate k (BitVec.ofNat 8 b) }

/-- A data segment, or none where one of its directives is in error. -/
def dataSeg (syms : List (Sym × AsmVal)) (role seg : Nat) (its : List DataItem) : Option DataSeg :=
  its.foldlM (DataSeg.item syms role seg) {}

/-- The symbols of a data segment from what stands there on, under earlier values; a directive that these do not let
stand yet takes no bytes. -/
def dataSyms (syms : List (Sym × AsmVal)) (role seg : Nat) : DataSeg → List DataItem → List (Sym × AsmVal)
  | _, [] => []
  | d, it :: t =>
    (match it with
     | .mark m => (m.sym syms (.rel role seg (BitVec.ofNat 64 d.pos))).toList
     | _ => []) ++ dataSyms syms role seg ((d.item syms role seg it).getD d) t

end Sys2Proof.Machine
end

