-- ==== Sys2Proof/Machine/AsmFile.lean ====
section
/-! DEFINITION. From a source file to its image (R73 to R82): the directives in order, the symbols and lengths that settle,
the roles, the boot trees and the image's bytes (log entry 79). none is an assembly error. -/

namespace Sys2Proof.Machine

/-! ## Roles and the image (R75, R77 to R82) -/

/-- A glade's declaration. -/
structure GladeDecl where
  g     : Nat
  depth : Nat
  thr   : Nat
  timer : Nat
  deriving DecidableEq, Repr

/-- An assembled role. A handler's pc is its offset in .text. -/
structure AsmRole where
  name     : List Byte
  base     : Nat
  dataAt   : Nat := 0
  htab     : Nat := 0xFE000
  text     : List Byte
  rodata   : DataSeg := {}
  data     : DataSeg := {}
  relocs   : List Reloc := []
  handlers : List (Nat × HandlerEntry) := []
  glades   : List GladeDecl := []
  tree     : Option (List BootEdge) := none
  deriving DecidableEq, Repr

structure AsmFile where
  roles  : List AsmRole
  places : List Place
  deriving DecidableEq, Repr

/-- The default text base of a role (Table 3-2). -/
def defaultBase (i : Nat) : Nat := 0x400000000 + 0x10000000 * i

/-- The base of .rodata (R73). -/
def AsmRole.rodataBase (r : AsmRole) : Nat := ceilDiv (r.base + r.text.length) 65536 * 65536

/-- The four words of a handler's entry (Table 12-3). -/
def HandlerEntry.words (base : Nat) (e : HandlerEntry) : List W64 :=
  [BitVec.ofNat 64 (base + e.pc.toNat),
   w64OfLE [BitVec.ofNat 8 (1 + 2 * e.wave.toNat + 4 * e.ord.toNat + 8 * e.ser.toNat), BitVec.ofNat 8 (e.src + 16 * e.glade.toNat),
     BitVec.ofNat 8 e.k, BitVec.ofNat 8 e.pri, BitVec.ofNat 8 e.ns, BitVec.ofNat 8 (e.nv / 8), e.plive, 0],
   e.scope, 0]

/-- A handler's limits; an entry that R249 calls ill-formed is an assembly error too (log entry 101). -/
def handlerOk (base : Nat) (e : HandlerEntry) : Bool :=
  match e.words base with
  | [w0, w1, w2, w3] =>
    entryFormed w0 w1 w2 w3 && e.nv % 8 == 0 && e.nv < 2048 && e.k < 256 && e.pri < 256 && e.ns < 256 && e.src < 16
  | _ => false

def noDups (l : List Nat) : Bool := l.length == l.eraseDups.length

/-- The limits of Table 3-2 on a role: no handler or glade twice, no handler of an undeclared glade. A name longer than the
16 bytes of its directory field (R79), which a symbol of R63 may be, is an error by log entry 79. -/
def AsmRole.ok (r : AsmRole) : Bool :=
  r.base % 65536 == 0 && r.dataAt % 128 == 0 && r.htab % 8192 == 0 && r.name.length ≤ 16 && r.text.length % 4 == 0 &&
  noDups (r.handlers.map (·.1)) && noDups (r.glades.map (·.g)) &&
  (r.handlers.all fun h => h.1 < 256 && handlerOk r.base h.2 && (!h.2.glade || r.glades.any fun g => g.g == h.2.src)) &&
  (r.glades.all fun g => g.g < 16 && 2 ≤ g.depth && g.depth ≤ 16 && 1 ≤ g.thr && g.thr ≤ 32 && 1 ≤ g.timer && g.timer < 2 ^ 32)

/-- The tree generated for a rectangle (R77). -/
def rectTree (p : Place) : List BootEdge :=
  [⟨none, coreAt p.x0 p.y0, p.role⟩] ++
  ((List.range (p.x1 - p.x0)).map fun i => ⟨some (coreAt (p.x0 + i) p.y0), coreAt (p.x0 + i + 1) p.y0, p.role⟩) ++
  ((List.range (p.x1 + 1 - p.x0)).flatMap fun i => (List.range (p.y1 - p.y0)).map fun j =>
    ⟨some (coreAt (p.x0 + i) (p.y0 + j)), coreAt (p.x0 + i) (p.y0 + j + 1), p.role⟩)

/-- The boot tree of a file: each role's own, or one generated for each of its rectangles. -/
def AsmFile.tree (f : AsmFile) : List BootEdge :=
  (f.roles.zipIdx).flatMap fun (r, i) =>
    match r.tree with
    | some t => t
    | none => (f.places.filter fun p => p.role == i).flatMap rectTree

/-- A placement's limits, and no core under two placements (R75, R77). -/
def AsmFile.placesOk (f : AsmFile) : Bool :=
  (f.places.all fun p => p.role < f.roles.length && p.x0 ≤ p.x1 && p.x1 ≤ 127 && p.y0 ≤ p.y1 && p.y1 ≤ 31) &&
  ((f.places.zipIdx).all fun (p, i) => (f.places.drop (i + 1)).all fun q =>
    p.x1 < q.x0 || q.x1 < p.x0 || p.y1 < q.y0 || q.y1 < p.y0)

def placeBytes (p : Place) : List Byte :=
  leN 1 p.x0 ++ leN 1 p.y0 ++ leN 1 p.x1 ++ leN 1 p.y1 ++ leN 2 p.role ++ leN 2 p.opt.toNat ++ leN 8 0

def edgeBytes (e : BootEdge) : List Byte := leN 2 (e.parent.getD 0xFFFF) ++ leN 2 e.child ++ leN 2 e.role ++ leN 2 0

def relocBytes (r : Reloc) : List Byte :=
  leN 4 r.off ++ leN 1 r.role ++ leN 1 r.seg ++ leN 1 r.typ ++ leN 1 r.target ++ bytesLE 8 (BitVec.ofInt 64 r.addend)

/-- A role's block of the handler section (R81). -/
def AsmRole.block (i : Nat) (r : AsmRole) : List Byte :=
  leN 2 i ++ leN 2 r.handlers.length ++ leN 2 r.glades.length ++ leN 6 0 ++ leN 4 r.htab ++
  ((List.range 256).flatMap fun h =>
    match r.handlers.find? (fun e => e.1 == h) with
    | some e => (e.2.words r.base).flatMap (bytesLE 8)
    | none => List.replicate 32 0) ++
  ((List.range 16).flatMap fun g =>
    match r.glades.find? (fun d => d.g == g) with
    | some d => leN 1 1 ++ leN 1 d.depth ++ leN 1 d.thr ++ leN 1 0 ++ leN 4 d.timer ++ leN 8 0
    | none => List.replicate 16 0)

/-- A list filled with zeros to a multiple of n bytes. -/
def fillTo (n : Nat) (bs : List Byte) : List Byte := bs ++ List.replicate (ceilDiv bs.length n * n - bs.length) 0

/-- Segments laid out one after another from an offset: each segment's offset, and the bytes. -/
def laySegs : Nat → List (Nat × List Byte) → List Nat × List Byte
  | _, [] => ([], [])
  | o, (al, bs) :: t =>
    let p := ceilDiv o al * al
    let r := laySegs (p + bs.length) t
    (p :: r.1, List.replicate (p - o) 0 ++ bs ++ r.2)

/-- A role directory entry (Table 3-4) from its segments' offsets. -/
def AsmRole.entry (r : AsmRole) (offs : List Nat) : List Byte :=
  padTo 16 r.name ++ leN 4 (offs.getD 0 0) ++ leN 4 r.text.length ++ leN 8 r.base ++
  leN 4 (offs.getD 1 0) ++ leN 4 r.rodata.bytes.length ++ leN 8 r.rodataBase ++
  leN 4 (offs.getD 2 0) ++ leN 4 r.data.bytes.length ++ leN 4 r.dataAt ++ leN 4 r.data.zfill

/-- The dies byte (Table 3-3): the virtual dies that hold a core of a placement without optional. -/
def AsmFile.dies (f : AsmFile) : Nat :=
  maskOf 8 fun d => f.places.any fun p => !p.opt && p.cores.any fun n => n / 512 == d

def AsmFile.relocs (f : AsmFile) : List Reloc := f.roles.flatMap fun r => r.relocs ++ r.rodata.relocs ++ r.data.relocs

/-- The signed bytes of the image (R78 to R81). -/
def AsmFile.body (f : AsmFile) : List Byte :=
  let nr := f.roles.length
  let tree := f.tree
  let oPlace := 128 + 64 * nr
  let oTree := oPlace + 16 * f.places.length
  let oHand := oTree + 8 * tree.length
  let oReloc := oHand + handLen * nr
  let oSeg := oReloc + 16 * f.relocs.length
  let lay := laySegs oSeg (f.roles.flatMap fun r => [(32, r.text), (8, r.rodata.bytes), (8, r.data.bytes)])
  let segs := fillTo 8 lay.2
  [0x53, 0x4E, 0x49, 0x55, 0x53, 0x48, 0, 0] ++ leN 2 1 ++ leN 2 128 ++ leN 2 nr ++ leN 2 f.places.length ++
  leN 4 tree.length ++ leN 4 f.relocs.length ++ leN 4 128 ++ leN 4 oPlace ++ leN 4 oTree ++ leN 4 oHand ++ leN 4 oReloc ++
  leN 4 (oSeg + segs.length) ++ leN 1 f.dies ++ List.replicate 79 0 ++
  ((f.roles.zipIdx).flatMap fun (r, i) => r.entry (lay.1.drop (3 * i))) ++
  f.places.flatMap placeBytes ++ tree.flatMap edgeBytes ++ ((f.roles.zipIdx).flatMap fun (r, i) => r.block i) ++
  f.relocs.flatMap relocBytes ++ segs

/-- The signature block (R82) of a key index and a signature. -/
def sigBlock (key : Nat) (sig : List Byte) : List Byte :=
  [0x53, 0x49, 0x47, 0] ++ leN 2 1 ++ leN 2 0 ++ leN 8 key ++ leN 4 29792 ++ List.replicate 12 0 ++ padTo 29792 sig

/-- The image of a file, or none where it does not assemble: limits, overlaps, trees, values that do not fit. -/
def AsmFile.image (f : AsmFile) (key : Nat) (sig : List Byte) : Option (List Byte) :=
  let b := f.body ++ sigBlock key sig
  let pl := f.places.flatMap fun p => p.cores.map fun n => (n, p.role)
  if f.roles.isEmpty || 64 < f.roles.length || !f.roles.all (·.ok) || !f.placesOk ||
      !treeOk pl [] (f.tree.map fun e => (e, false)) || 2 ^ 32 ≤ b.length || !(Sys2Proof.Machine.relocs b).all (relocOk b) then none
  else some b

/-! ## Source lines (R62, R75) -/

/-- .role's arguments. -/
structure RoleArgs where
  base   : Option AsmExpr := none
  dataAt : Option AsmExpr := none
  htab   : Option AsmExpr := none
  deriving DecidableEq, Repr

/-- .handler's arguments; scope=self is no scope argument. -/
structure HandlerSrc where
  h     : AsmExpr
  wave  : Bool
  glade : Bool
  src   : Nat
  k     : Option AsmExpr := none
  pri   : Option AsmExpr := none
  ns    : Option AsmExpr := none
  nv    : Option AsmExpr := none
  plive : Option AsmExpr := none
  scope : Option AsmExpr := none
  ord   : Bool := false
  ser   : Bool := false
  deriving DecidableEq, Repr

structure GladeSrc where
  g     : AsmExpr
  depth : AsmExpr
  thr   : AsmExpr
  timer : AsmExpr
  deriving DecidableEq, Repr

structure PlaceSrc where
  role : Sym
  x0   : AsmExpr
  y0   : AsmExpr
  x1   : AsmExpr
  y1   : AsmExpr
  opt  : Bool
  deriving DecidableEq, Repr

/-- What stands on a source line; a label before an instruction or a directive is a line of its own. -/
inductive SrcLine
  | label (s : Sym) | ins (i : SrcIns) | data (d : DataItem) | align (n : AsmExpr) (fill : Option AsmExpr) | equ (s : Sym) (e : AsmExpr)
  | role (name : Sym) (a : RoleArgs) | seg (g : Nat) | handler (h : HandlerSrc) | endh | glade (g : GladeSrc) | place (p : PlaceSrc)
  | boottree (role : Sym) (es : List (Option AsmExpr × AsmExpr))
  deriving DecidableEq, Repr

/-- A role as its lines give it, in the order of its first opening. -/
structure RoleSrc where
  name   : Sym
  args   : RoleArgs := {}
  text   : List TextItem := []
  rodata : List DataItem := []
  data   : List DataItem := []
  glades : List GladeSrc := []
  deriving DecidableEq, Repr

/-- What the lines so far come to: the roles, the current role and segment, the symbols defined, .equ lines before any role,
the handlers with their roles and whether one is open, the placements and boot trees. -/
structure AsmPass where
  roles    : List RoleSrc := []
  cur      : Option (Nat × Nat) := none
  defs     : List Sym := []
  equs     : List Mark := []
  handlers : List (Nat × HandlerSrc) := []
  opened   : Bool := false
  places   : List PlaceSrc := []
  trees    : List (Sym × List (Option AsmExpr × AsmExpr)) := []
  deriving DecidableEq, Repr

/-- A role's index by its name. -/
def AsmPass.roleIdx (p : AsmPass) (name : Sym) : Option Nat := p.roles.findIdx? fun r => r.name == name

/-- Open a role, or reopen it without arguments; its .text is selected (Table 3-2). -/
def AsmPass.openRole (p : AsmPass) (name : Sym) (a : RoleArgs) : Option AsmPass :=
  match p.roleIdx name with
  | some i => if a = {} then some { p with cur := some (i, 0) } else none
  | none =>
    if symbolOk name && p.roles.length < 64 then
      some { p with roles := p.roles ++ [{ name := name, args := a }], cur := some (p.roles.length, 0) }
    else none

/-- The current role and segment; before any .role, the implicit role main's .text. -/
def AsmPass.here (p : AsmPass) : Option (AsmPass × Nat × Nat) :=
  match p.cur with
  | some c => some (p, c)
  | none => do
    let p ← p.openRole ['m', 'a', 'i', 'n'] {}
    let c ← p.cur
    some (p, c)

/-- Change the current role. -/
def AsmPass.updRole (p : AsmPass) (i : Nat) (g : RoleSrc → RoleSrc) : AsmPass := { p with roles := p.roles.modify i g }

def RoleSrc.addText (r : RoleSrc) (x : TextItem) : RoleSrc := { r with text := r.text ++ [x] }
def RoleSrc.addData (seg : Nat) (r : RoleSrc) (x : DataItem) : RoleSrc :=
  if seg = 1 then { r with rodata := r.rodata ++ [x] } else { r with data := r.data ++ [x] }

/-- A mark in the current segment. -/
def AsmPass.addMark (p : AsmPass) (m : Mark) : Option AsmPass := do
  let (p, i, seg) ← p.here
  some (p.updRole i fun r => if seg = 0 then r.addText (.mark m) else r.addData seg (.mark m))

/-- Define a symbol: once in a file, and not spelt like a reserved word (R63). -/
def AsmPass.define (p : AsmPass) (s : Sym) : Option AsmPass :=
  if symbolOk s && !p.defs.contains s then some { p with defs := p.defs ++ [s] } else none

/-- One line after those before it. -/
def AsmPass.line (p : AsmPass) : SrcLine → Option AsmPass
  | .label s => (p.define s).bind (·.addMark (.label s))
  | .equ s e => do
    let m := Mark.equ s e p.defs
    let q ← p.define s
    if q.cur.isNone then some { q with equs := q.equs ++ [m] } else q.addMark m
  | .ins i => do
    let (p, r, seg) ← p.here
    if seg = 0 then some (p.updRole r (·.addText (.ins i))) else none
  | .data d => do
    let (p, r, seg) ← p.here
    if seg = 0 then none else some (p.updRole r (RoleSrc.addData seg · d))
  | .align n fill => do
    let (p, r, seg) ← p.here
    if seg = 0 then (if fill.isSome then none else some (p.updRole r (·.addText (.align n))))
    else some (p.updRole r (RoleSrc.addData seg · (.align n fill)))
  | .role name a => p.openRole name a
  | .seg g => do
    let (p, r, _) ← p.here
    some { p with cur := some (r, g) }
  | .handler h => do
    if p.opened then none
    let (p, r, _) ← p.here
    some { p.updRole r (·.addText (.mark (.entry p.handlers.length))) with handlers := p.handlers ++ [(r, h)], opened := true }
  | .endh => if p.opened then some { p with opened := false } else none
  | .glade g => do
    let (p, r, _) ← p.here
    some (p.updRole r fun x => { x with glades := x.glades ++ [g] })
  | .place x => some { p with places := p.places ++ [x] }
  | .boottree r es => some { p with trees := p.trees ++ [(r, es)] }

/-! ## Symbols and lengths that settle (R63, R69) -/

/-- A role's text items with their lengths so far. -/
abbrev TextLens := List (TextItem × Len)

/-- Every symbol's value under given lengths and earlier values; in an .equ line before any role `.` is the absolute value 0 (log
entry 100). -/
def AsmPass.sweep (p : AsmPass) (ls : List TextLens) (syms : List (Sym × AsmVal)) : List (Sym × AsmVal) :=
  p.equs.filterMap (Mark.sym syms (.abs 0)) ++
  ((p.roles.zip ls).zipIdx).flatMap fun ((r, l), i) =>
    textSyms syms i l ++ dataSyms syms i 1 {} r.rodata ++ dataSyms syms i 2 {} r.data

/-- Sweeps until no value changes. -/
def AsmPass.settle (p : AsmPass) (ls : List TextLens) : Nat → List (Sym × AsmVal) → Option (List (Sym × AsmVal))
  | 0, _ => none
  | k + 1, syms =>
    let next := p.sweep ls syms
    if next == syms then some syms else p.settle ls k next

/-- Rounds of R69 until no length changes. -/
def AsmPass.relax (p : AsmPass) : Nat → List TextLens → Option (List TextLens × List (Sym × AsmVal))
  | 0, _ => none
  | k + 1, ls => do
    let syms ← p.settle ls (p.defs.length + 3) []
    let next ← (ls.zipIdx).mapM fun (l, i) => lengthen syms i 0 l
    if next.map (·.map (·.2)) == ls.map (·.map (·.2)) then some (ls, syms) else p.relax k next

/-- The lengths and the symbols of a file; every symbol has a value. -/
def AsmPass.layout (p : AsmPass) : Option (List TextLens × List (Sym × AsmVal)) := do
  let ls ← p.roles.mapM fun r => r.text.mapM firstLen
  let r ← p.relax (2 * (ls.map (·.length)).sum + 1) ls
  if p.defs.all fun s => r.2.any fun x => x.1 == s then some r else none

/-! ## Roles (R75) -/

/-- A handler's entry: Table 3-2's defaults; k = 1 for threads. -/
def HandlerSrc.entry (env : AsmEnv) (off : Nat) (h : HandlerSrc) : Option (Nat × HandlerEntry) := do
  let n ← h.h.evalNat env 0 255
  let k ← evalOr env 1 (if h.wave then 32 else 1) 1 h.k
  let pri ← evalOr env 0 7 0 h.pri
  let ns ← evalOr env 8 64 64 h.ns
  let nv ← evalOr env 0 256 (if h.wave then 256 else 0) h.nv
  let plive ← evalOr env 0 255 255 h.plive
  let scope ← match h.scope with | none => some 0 | some e => e.evalAbs env
  some (n, { pc := BitVec.ofNat 64 off, wave := h.wave, ord := h.ord, ser := h.ser, glade := h.glade, src := h.src, k := k, pri := pri,
             ns := ns, nv := nv, plive := BitVec.ofNat 8 plive, scope := scope })

def GladeSrc.decl (env : AsmEnv) (g : GladeSrc) : Option GladeDecl := do
  let n ← g.g.evalNat env 0 15
  let d ← g.depth.evalNat env 2 16
  let t ← g.thr.evalNat env 1 32
  let c ← g.timer.evalNat env 1 (2 ^ 32 - 1)
  some ⟨n, d, t, c⟩

/-- An edge of .boottree; the parent loader is none. -/
def edgeOf (env : AsmEnv) (role : Nat) (e : Option AsmExpr × AsmExpr) : Option BootEdge := do
  let c ← e.2.evalNat env 0 4095
  match e.1 with
  | none => some ⟨none, c, role⟩
  | some x => (x.evalNat env 0 4095).map fun v => ⟨some v, c, role⟩

/-- A role's own boot tree: the edges of its .boottree lines. -/
def AsmPass.treeOf (p : AsmPass) (env : AsmEnv) (i : Nat) (name : Sym) : Option (Option (List BootEdge)) :=
  let ts := p.trees.filter fun t => t.1 == name
  if ts.isEmpty then some none else ((ts.flatMap (·.2)).mapM (edgeOf env i)).map some

/-- A role with its lengths, assembled. -/
def AsmPass.role (p : AsmPass) (syms : List (Sym × AsmVal)) (i : Nat) (r : RoleSrc) (ls : TextLens) : Option AsmRole := do
  let env : AsmEnv := { syms := syms }
  let base ← evalOr env 0 (2 ^ 64 - 1) (defaultBase i) r.args.base
  let dataAt ← evalOr env 0 0xFFFFF 0 r.args.dataAt
  let htab ← evalOr env 0 0xFFFFF 0xFE000 r.args.htab
  let parts ← layoutText syms i ls
  let text ← textBytes parts
  let rodata ← dataSeg syms i 1 r.rodata
  let data ← dataSeg syms i 2 r.data
  let marks := marksOf syms i 0 ls
  let handlers ← ((p.handlers.zipIdx).filter fun h => h.1.1 == i).mapM fun h => do
    let m ← marks.find? fun m => m.1 == .entry h.2
    let off ← m.2
    h.1.2.entry env off
  let glades ← r.glades.mapM (GladeSrc.decl env)
  let tree ← p.treeOf env i r.name
  some { name := r.name.map fun c => BitVec.ofNat 8 c.toNat, base := base, dataAt := dataAt, htab := htab, text := text, rodata := rodata,
         data := data, relocs := textRelocs i parts, handlers := handlers, glades := glades, tree := tree }

/-- A placement of a role that the file opens. -/
def AsmPass.placeOf (p : AsmPass) (env : AsmEnv) (x : PlaceSrc) : Option Place := do
  let r ← p.roleIdx x.role
  let x0 ← x.x0.evalNat env 0 127
  let y0 ← x.y0.evalNat env 0 31
  let x1 ← x.x1.evalNat env 0 127
  let y1 ← x.y1.evalNat env 0 31
  some ⟨x0, y0, x1, y1, r, x.opt⟩

/-- The lines of a file, assembled into roles: no handler is open at its end, and every boot tree names a role of it. -/
def asmFile (lines : List SrcLine) : Option AsmFile := do
  let p ← lines.foldlM AsmPass.line {}
  if p.opened || p.trees.any (fun t => (p.roleIdx t.1).isNone) then none
  let (ls, syms) ← p.layout
  let roles ← ((p.roles.zip ls).zipIdx).mapM fun ((r, l), i) => p.role syms i r l
  let places ← p.places.mapM (p.placeOf { syms := syms })
  some ⟨roles, places⟩

/-- The image that a source file stands for under a key index and a signature. -/
def assemble (lines : List SrcLine) (key : Nat) (sig : List Byte) : Option (List Byte) := (asmFile lines).bind fun f => f.image key sig

end Sys2Proof.Machine
end

