-- ==== Sys2Proof/Tests/Slice0.lean ====
section
/-! SUPPORT. Own tests: ill-formed terms that WellFormed refuses, words from the encoding tables, single steps, and a
witness for the hypotheses of every statement. -/

namespace Sys2Proof.Tests

open Sys2Proof Sys2Proof.Machine

-- One theorem after the other: elaborated side by side, the many small ones would each hold a thread's stack.
set_option Elab.async false

/-- Heads: plain, with C, with NW. -/
def h0 : Head := ⟨false, false, 0, 0, 0, 0⟩
def hC : Head := ⟨true, false, 0, 0, 0, 0⟩
def hN : Head := ⟨false, true, 0, 0, 0, 0⟩

/-! ## Each check of WellFormed refuses an ill-formed term, and one well-formed term passes -/

theorem test_wf_passes : WellFormed (.add ⟨h0, 5, .reg 6, .src (.reg 7), .ss, true⟩) ∧
    WellFormed (.rpop ⟨h0, 15, 1, .reg 60⟩) := by decide
theorem test_wf_noDestination : ¬ WellFormed (.add ⟨hN, 5, .reg 6, .src (.reg 7), .wrap, false⟩) := by decide
theorem test_wf_saturation : ¬ WellFormed (.mulh ⟨h0, 5, .reg 6, .src (.reg 7), .ss, false⟩) := by decide
theorem test_wf_width : ¬ WellFormed (.and ⟨h0, 5, .reg 6, .src (.reg 7), .wrap, true⟩) := by decide
theorem test_wf_absUnsigned : ¬ WellFormed (.abs ⟨h0, 5, .reg 6, .us, false⟩) := by decide
theorem test_wf_fieldControl : ¬ WellFormed (.bfx ⟨h0, 5, .reg 6, .imm 0x8000, .wrap, false⟩) ∧
    ¬ WellFormed (.bfi ⟨h0, 5, .reg 6, .reg 7, .imm 0x40⟩) ∧
    ¬ WellFormed (.vbfx ⟨h0, 5, .reg 6, .imm 0x4000, .wrap, false, false⟩) ∧
    ¬ WellFormed (.vbfi ⟨h0, 5, .reg 6, .reg 7, .imm 0x20⟩) := by decide
theorem test_wf_comparePair : ¬ WellFormed (.cmp ⟨h0, 3, 3, 0, 0, false, .reg 6, .src (.reg 7)⟩) := by decide
theorem test_wf_condition : ¬ WellFormed (.cmp ⟨h0, 1, 2, 0, 12, false, .reg 6, .src (.reg 7)⟩) ∧
    ¬ WellFormed (.fcmp ⟨h0, 1, 2, 0, 15, false, .reg 6, .src (.reg 7)⟩) ∧
    ¬ WellFormed (.vcmp ⟨h0, 1, 2, 0, 0, true, .reg 6, .src (.reg 7)⟩) := by decide
theorem test_wf_scalarSelect : ¬ WellFormed (.vsel ⟨h0, 5, .sreg 6, .src (.reg 7), 1, false⟩) := by decide
theorem test_wf_psetZero : ¬ WellFormed (.pset ⟨h0, false, 1, 0⟩) ∧ ¬ WellFormed (.pset ⟨h0, false, 2, 1⟩) := by decide
theorem test_wf_chainBit : ¬ WellFormed (.br ⟨hC, .i17 1⟩) ∧ ¬ WellFormed (.ld ⟨hC, 5, .reg 6, .disp 0, false, false, 3⟩) := by
  decide
theorem test_wf_floatModifiers : ¬ WellFormed (.fadd ⟨h0, 5, .reg 6, .src (.reg 7), 1, false, 0⟩) ∧
    ¬ WellFormed (.fmin ⟨h0, 5, .reg 6, .src (.reg 7), 0, false, 1⟩) ∧ ¬ WellFormed (.frnd ⟨h0, 5, .reg 6, 2, false, 0⟩) ∧
    ¬ WellFormed (.fclass ⟨h0, 5, .reg 6, 0, true, 0⟩) ∧ ¬ WellFormed (.fcpys ⟨h0, 5, .reg 6, .reg 7, 3⟩) := by decide
theorem test_wf_widePairs : ¬ WellFormed (.vfadd ⟨h0, 5, .reg 6, .src (.reg 8), 0, false, 0, 1⟩) ∧
    ¬ WellFormed (.vfadd ⟨h0, 4, .reg 7, .src (.reg 8), 0, false, 0, 1⟩) ∧
    ¬ WellFormed (.vfadd ⟨hC, 4, .reg 6, .src (.reg 8), 0, false, 0, 1⟩) := by decide
theorem test_wf_conversionCodes : ¬ WellFormed (.cvtFf ⟨h0, .scalar 5 (.reg 6), 7, 0, false, 0, false⟩) ∧
    ¬ WellFormed (.cvtFi ⟨h0, .scalar 5 (.reg 6), 3, 0, false, 0, false⟩) ∧
    ¬ WellFormed (.cvtIf ⟨h0, .lane 5 (.reg 6), 1, 8, false, 0, false⟩) := by decide
theorem test_wf_pack : ¬ WellFormed (.cvtPack ⟨h0, 5, .reg 6, .reg 7, 5, 0, 0⟩) ∧
    ¬ WellFormed (.cvtPack ⟨h0, 5, .reg 6, .reg 7, 2, 0, 2⟩) ∧ ¬ WellFormed (.cvtPack ⟨h0, 5, .reg 6, .reg 7, 0, 0, 1⟩) := by
  decide
theorem test_wf_errorFeedback : ¬ WellFormed (.cvtEf ⟨h0, 5, .reg 6, 1, 3, .short⟩) ∧
    ¬ WellFormed (.cvtEf ⟨h0, 5, .reg 6, 1, 0, .resid 5⟩) := by decide
theorem test_wf_laneModifiers : ¬ WellFormed (.vadd ⟨h0, 5, .reg 6, .src (.reg 7), .wrap, true, false⟩) ∧
    ¬ WellFormed (.vmin ⟨h0, 5, .reg 6, .src (.reg 7), .ss, false, false⟩) ∧
    ¬ WellFormed (.vand ⟨h0, 5, .reg 6, .src (.reg 7), .wrap, false, true⟩) := by decide
theorem test_wf_segments : ¬ WellFormed (.shfl ⟨h0, 5, .reg 6, .src (.reg 7), 0, 0⟩) ∧
    ¬ WellFormed (.xchg ⟨h0, 5, .reg 6, .src (.reg 7), 5⟩) ∧ ¬ WellFormed (.wred ⟨h0, 5, .reg 6, 6, 0⟩) ∧
    ¬ WellFormed (.wred ⟨h0, 5, .reg 6, 5, 11⟩) := by decide
theorem test_wf_sfu : ¬ WellFormed (.sfu ⟨h0, 5, .reg 6, 7⟩) ∧ ¬ WellFormed (.sfu ⟨h0, 5, .lv 0, 0⟩) := by decide
theorem test_wf_matrixTypes : ¬ WellFormed (.mma ⟨h0, 0, 8, 56, false, 6, 6⟩) ∧ ¬ WellFormed (.mma ⟨h0, 0, 8, 56, false, 1, 3⟩) ∧
    ¬ WellFormed (.mmas ⟨h0, 0, 8, 56, false, 2, 2, 104⟩) ∧ ¬ WellFormed (.mmaq ⟨h0, 0, 8, 56, true, 0, 0, 104, 112, 3⟩) := by
  decide
theorem test_wf_matrixGroups : ¬ WellFormed (.mma ⟨h0, 1, 8, 56, false, 2, 2⟩) ∧ ¬ WellFormed (.mma ⟨h0, 8, 8, 56, false, 2, 2⟩) ∧
    ¬ WellFormed (.mzero ⟨h0, 4, false⟩) ∧ ¬ WellFormed (.mcvt ⟨h0, 4, 8, 0, .resid 7⟩) ∧
    ¬ WellFormed (.mldf ⟨h0, 0, 3, .reg 1, .reg 2, 0⟩) ∧ ¬ WellFormed (.mldf ⟨h0, 0, 0, .ls 1, .reg 2, 0⟩) := by decide
theorem test_wf_memory : ¬ WellFormed (.ld ⟨h0, 5, .reg 6, .disp 0, false, false, 5⟩) ∧
    ¬ WellFormed (.ld ⟨h0, 5, .reg 6, .disp 0, true, false, 3⟩) ∧ ¬ WellFormed (.ld ⟨h0, 4, .reg 6, .disp 0, false, true, 3⟩) ∧
    ¬ WellFormed (.ld ⟨h0, 5, .reg 6, .disp 0, false, false, 4⟩) ∧ ¬ WellFormed (.ld ⟨h0, 5, .lv 0, .disp 0, false, false, 3⟩) := by
  decide
theorem test_wf_laneMemory : ¬ WellFormed (.vld ⟨h0, 5, .reg 6, .reg 7, false, none, false, false, 3⟩) ∧
    ¬ WellFormed (.vld ⟨h0, 6, .reg 6, .reg 7, false, none, false, false, 4⟩) ∧
    ¬ WellFormed (.vst ⟨h0, 6, .reg 6, .reg 7, true, some 0, false, false, 2⟩) ∧
    ¬ WellFormed (.ldx ⟨h0, 5, .reg 6, .reg 7, true, some 0, false, 3⟩) := by decide
theorem test_wf_atomicOp : ¬ WellFormed (.atom ⟨h0, 5, .reg 6, .reg 7, 7, false, true⟩) ∧
    ¬ WellFormed (.atom ⟨h0, 5, .reg 6, .reg 7, 0, true, true⟩) ∧
    ¬ WellFormed (.atomNz ⟨h0, 5, .reg 6, .reg 7, 9, 0, false, true⟩) := by decide
theorem test_wf_send : ¬ WellFormed (.send ⟨h0, 1, .reg 6, .num 0, 3, 0, none⟩) ∧
    ¬ WellFormed (.send ⟨h0, 1, .reg 6, .num 0, 15, 1, none⟩) ∧ ¬ WellFormed (.send ⟨h0, 1, .reg 6, .num 0, 0, 1, none⟩) ∧
    ¬ WellFormed (.send ⟨h0, 62, .reg 6, .num 0, 3, 1, none⟩) ∧
    ¬ WellFormed (.sendv ⟨h0, 2, 4, .num 0, 1, 1, true, 3, 0⟩) ∧ ¬ WellFormed (.sendv ⟨h0, 2, 4, .num 0, 1, 1, false, 2, 0⟩) := by
  decide
theorem test_wf_groups : ¬ WellFormed (.gpost ⟨h0, 59, 0⟩) ∧ ¬ WellFormed (.qpush ⟨h0, 0, .reg 1⟩) ∧
    ¬ WellFormed (.htabGet ⟨h0, 6, .reg 1⟩) ∧ ¬ WellFormed (.cnlookLoc ⟨h0, 63, .reg 1, .reg 2⟩) ∧
    ¬ WellFormed (.rpush ⟨h0, 51, .reg 1, .reg 2⟩) ∧ ¬ WellFormed (.trit ⟨h0, 14, .reg 30, 1⟩) ∧
    ¬ WellFormed (.rpop ⟨h0, 1, 1, .reg 60⟩) ∧ ¬ WellFormed (.rreplayTri ⟨h0, 63, .reg 30, 1⟩) := by decide
theorem test_wf_records : ¬ WellFormed (.rdone ⟨h0, 5, .reg 1, .reg 2, 4, 0⟩) ∧ ¬ WellFormed (.rdone ⟨h0, 5, .reg 1, .reg 2, 5, 1⟩) ∧
    ¬ WellFormed (.rlog ⟨h0, 1, .reg 30, .reg 16, .reg 31, 7, 20⟩) := by decide
theorem test_wf_engine : ¬ WellFormed (.bget ⟨h0, 5, .reg 1, .reg 2, .reg 3, 0, some 0⟩) ∧
    ¬ WellFormed (.bcopy ⟨h0, 5, .reg 1, .reg 2, .reg 3, 0, 3, 0, none⟩) ∧
    ¬ WellFormed (.bfill ⟨h0, 5, .reg 1, .reg 2, .reg 3, 0, 0, 1, none⟩) := by decide
theorem test_wf_specialRegisters : ¬ WellFormed (.rsr ⟨h0, 5, 0xD⟩) ∧ ¬ WellFormed (.rsr ⟨h0, 64, 0⟩) ∧
    ¬ WellFormed (.wsr ⟨h0, 0x109, .reg 1⟩) := by decide

/-! ## Decoding -/

/-- What two words decode to. -/
def dec2 (w0 w1 : W32) : Except DecodeError (Instr × Len) := decode (bytesLE 4 w0 ++ bytesLE 4 w1)
def dec3 (w0 w1 w2 : W32) : Except DecodeError (Instr × Len) := decode (bytesLE 4 w0 ++ bytesLE 4 w1 ++ bytesLE 4 w2)

/- The words are put together from the spec's tables: length code, C, NW, opcode at bit 4, guard fields 0, D, SA, SB, M. -/

/-- Table 4-1: SUB, opcode 0x001, D = 9, SA = 10, SB = 11, M = 0 (group 000). -/
theorem test_decode_sub : dec2 0x40000011 0x00058282 = .ok (.sub ⟨h0, 9, .reg 10, .src (.reg 11), .wrap, false⟩, .l64) := rfl
/-- Table 5-1 and 5-2: CMP, opcode 0x040, pt = 2, pf = 0, MODE = 0, COND = 1 (group 001). -/
theorem test_decode_cmp : dec2 0x80000401 0x02028100 = .ok (.cmp ⟨h0, 2, 0, 0, 1, false, .reg 4, .src (.reg 5)⟩, .l64) := rfl
/-- Table 6-1: CALL, opcode 0x085, D = 3, I17 = 8 (group 010). -/
theorem test_decode_call : dec2 0xC0000851 0x00040000 = .ok (.call ⟨h0, 3, .i17 8⟩, .l64) := rfl
/-- Table 7-5: FADD, opcode 0x0C0, D = 4, SA = 5, SB = 6, T = 0b01 (group 011). -/
theorem test_decode_fadd : dec2 0x00000C01 0x01030141 = .ok (.fadd ⟨h0, 4, .reg 5, .src (.reg 6), 0, false, 0⟩, .l64) := rfl
/-- Table 8-1: VADD, opcode 0x100, D = 4, SA = 5, SB = 6 (group 100). -/
theorem test_decode_vadd : dec2 0x00001001 0x00030141 = .ok (.vadd ⟨h0, 4, .reg 5, .src (.reg 6), .wrap, false, false⟩, .l64) :=
  rfl
/-- Table 9-1: MZERO.F64, opcode 0x143, D = 16 (group 101). -/
theorem test_decode_mzero : dec2 0x00001431 0x01000004 = .ok (.mzero ⟨h0, 16, true⟩, .l64) := rfl
/-- Tables 10-2 and 10-3: LDS.W.SX, opcode 0x182, D = 5, SA = 6, SB = 7 (group 110). -/
theorem test_decode_lds : dec2 0x40001821 0x42038181 = .ok (.lds ⟨h0, 5, .reg 6, .idx (.reg 7) false, true, false, 2⟩, .l64) :=
  rfl
/-- Tables 10-2 and 10-3: STS.D, opcode 0x183 in J96, D = 8, SA = 6, I32 = 16. -/
theorem test_decode_sts : dec3 0x00001832 0x03000182 0x00000010 =
    .ok (.sts ⟨h0, 8, .reg 6, .disp 16, false, false, 3⟩, .l96) := rfl
/-- Tables 11-11 and 11-12: CAS.D, opcode 0x19A in A96, D = 4, SA = 5, SB = 6, SC = 7. -/
theorem test_decode_cas : dec3 0x000019A2 0x01030141 0x00000007 = .ok (.cas ⟨h0, 4, .reg 5, .reg 6, .reg 7, true⟩, .l96) := rfl
/-- Table 12-4: RECV.NB, opcode 0x1C2, D = 8; GFLUSH, opcode 0x1C4, glade 3 (group 111). -/
theorem test_decode_recv : dec2 0x00001C21 0x01000002 = .ok (.recv ⟨h0, 8, true⟩, .l64) ∧
    dec2 0x00001C41 0x03000000 = .ok (.gflush ⟨h0, 3⟩, .l64) := ⟨rfl, rfl⟩
/-- Table 15-4: EVICT, opcode 0x1DD, D = 6, SA = 8. -/
theorem test_decode_evict : dec2 0x80001DD1 0x00000201 = .ok (.evict ⟨h0, 6, .reg 8⟩, .l64) := rfl
/-- Table 16-1: TLREAD.ERR, opcode 0x1E6, D = 5, context 2. -/
theorem test_decode_tlread : dec2 0x40001E61 0x0A000001 = .ok (.tlreadErr ⟨h0, 5, 2⟩, .l64) := rfl
/-- Table 17-6: FKILL, opcode 0x1F5, D = 6, SA = 8. -/
theorem test_decode_fkill : dec2 0x80001F51 0x00000201 = .ok (.fkill ⟨h0, 6, .reg 8⟩, .l64) := rfl
/-- R32, R33: a layout CALL does not admit; a reserved bit of RECV. -/
theorem test_decode_reserved : dec3 0xC0000853 0x00040000 0 = .error .short ∧ dec2 0x00001C21 0x02000002 = .error .illegal :=
  ⟨rfl, rfl⟩
/-- The host's numbering of a word's bits gives the same instruction. -/
theorem test_decodeTableWord : decodeTableWord 64 0x0005828240000011 =
    some (.sub ⟨h0, 9, .reg 10, .src (.reg 11), .wrap, false⟩) := by decide

/-! ## Single steps -/

/-- A firing with scalar registers, at a PC. -/
def fireAt (pc : W64) (regs : List (Nat × W64)) : Firing :=
  { uid := 1, ns := 64, s := regs, paths := [{ pc := pc, mask := 1, pri := 4, st := 1 }] }

def wave (v : List (Nat × W32)) (mask : W32) : Firing :=
  { uid := 1, wave := true, ns := 64, nv := 256, v := v, paths := [{ pc := 0x1000, mask := mask, pri := 4, st := 1 }, {}, {}] }

/-- Core 0 with a firing in slot 0, whose instruction executes; core c beside it. -/
def stateOf (c : Core) (f : Firing) : State :=
  { State.reset with cores := [(0, { c with firings := [(0, f)] })], who := some (0, 0) }

def goesTo (o : Out) : State := match o with | .next t => t | _ => State.reset
def outS (i : Instr) (f : Firing) (r : Nat) : Option W64 := ((goesTo (exec i (stateOf {} f))).firing 0 0).map (·.getS r)
def outPc (i : Instr) (f : Firing) : Option W64 := ((goesTo (exec i (stateOf {} f))).firing 0 0).map (·.pc)
def outV (i : Instr) (f : Firing) (r l : Nat) : Option W32 := ((goesTo (exec i (stateOf {} f))).firing 0 0).map (·.getV r l)
def outLast (i : Instr) (f : Firing) : Option (BitVec 4 × Byte) :=
  ((goesTo (exec i (stateOf {} f))).firing 0 0).map fun g => (g.stop, g.last)

def ab (a b : W64) : Firing := fireAt 0x1000 [(6, a), (7, b)]
def alu (sat : Sat) (w : Bool) : AluOps := ⟨h0, 5, .reg 6, .src (.reg 7), sat, w⟩

/-- Table 4-4. -/
theorem test_add : outS (.add (alu .wrap false)) (ab 0x7FFFFFFFFFFFFFFF 1) 5 = some 0x8000000000000000 ∧
    outS (.add (alu .ss false)) (ab 0x7FFFFFFFFFFFFFFF 1) 5 = some 0x7FFFFFFFFFFFFFFF := ⟨rfl, rfl⟩
theorem test_add_w : outS (.add (alu .wrap true)) (ab 0x7FFFFFFF 1) 5 = some 0xFFFFFFFF80000000 ∧
    outS (.add (alu .us true)) (ab 0xFFFFFFFF 1) 5 = some 0x00000000FFFFFFFF := ⟨rfl, rfl⟩
theorem test_sub_us : outS (.sub (alu .us false)) (ab 3 5) 5 = some 0 := rfl
theorem test_mul_ss : outS (.mul (alu .ss false)) (ab 0xFFFFFFFE00000000 0x80000000) 5 = some 0x8000000000000000 := rfl
theorem test_mulhu : outS (.mulhu (alu .wrap false)) (ab 0xFFFFFFFFFFFFFFFF 0xFFFFFFFFFFFFFFFF) 5 = some 0xFFFFFFFFFFFFFFFE :=
  rfl
theorem test_abs : outS (.abs ⟨h0, 5, .reg 6, .ss, false⟩) (ab 0x8000000000000000 0) 5 = some 0x7FFFFFFFFFFFFFFF := rfl
/-- Table 4-5. -/
theorem test_div : outS (.div (alu .wrap false)) (ab 0xFFFFFFFFFFFFFFF9 2) 5 = some 0xFFFFFFFFFFFFFFFD ∧
    outS (.div (alu .wrap false)) (ab 7 0) 5 = some 0xFFFFFFFFFFFFFFFF := ⟨rfl, rfl⟩
theorem test_rem : outS (.rem (alu .wrap false)) (ab 0xFFFFFFFFFFFFFFF9 2) 5 = some 0xFFFFFFFFFFFFFFFF ∧
    outS (.rem (alu .wrap false)) (ab 0x8000000000000000 0xFFFFFFFFFFFFFFFF) 5 = some 0 := ⟨rfl, rfl⟩
/-- Table 4-6. -/
theorem test_shifts : outS (.shl (alu .wrap false)) (ab 1 64) 5 = some 0 ∧
    outS (.sar (alu .wrap false)) (ab 0x8000000000000000 200) 5 = some 0xFFFFFFFFFFFFFFFF := ⟨rfl, rfl⟩
theorem test_rol_w : outS (.rol (alu .wrap true)) (ab 0x80000001 33) 5 = some 3 := rfl
/-- R92's example. -/
theorem test_counts : outS (.clz ⟨h0, 5, .reg 6, .wrap, false⟩) (ab 0x18000 0) 5 = some 47 ∧
    outS (.bswap ⟨h0, 5, .reg 6, .wrap, true⟩) (ab 0x18000 0) 5 = some 0x800100 := ⟨rfl, rfl⟩
/-- Table 6-2. -/
theorem test_call : outS (.call ⟨h0, 3, .i17 8⟩) (fireAt 0x400001014 []) 3 = some 0x400001020 := rfl
theorem test_ret : outPc (.ret ⟨h0, .reg 9⟩) (fireAt 0x1000 [(9, 0xFF00000400001040)]) = some 0x400001040 := rfl
theorem test_brx_align : outLast (.brx ⟨h0, 0, .reg 5, .i17 0⟩) (fireAt 0x1000 [(5, 0x400001022)]) = some (1, 9) := rfl
theorem test_loop : outS (.loop ⟨h0, 5, .i17 (-4)⟩) (fireAt 0x1000 [(5, 5)]) 5 = some 4 ∧
    outPc (.loop ⟨h0, 5, .i17 (-4)⟩) (fireAt 0x1000 [(5, 1)]) = some 0x1008 := ⟨rfl, rfl⟩
/-- R161's example: SHFL.UP.W8 by one; lane 8 keeps its own word. -/
theorem test_shfl : outV (.shfl ⟨h0, 3, .reg 4, .src (.const 1), 3, 2⟩) (wave [(128, 7), (136, 9)] 0xFFFFFFFF) 3 8 = some 9 ∧
    outV (.shfl ⟨h0, 3, .reg 4, .src (.const 1), 3, 2⟩) (wave [(128, 7), (136, 9)] 0xFFFFFFFF) 3 1 = some 7 := ⟨rfl, rfl⟩
/-- R162's example: XCHG.D16. -/
theorem test_xchg : outV (.xchg ⟨h0, 1, .reg 1, .imm 0xFFFF, 4⟩) (wave [(32, 0x11112222), (48, 0x33334444)] 0xFFFFFFFF) 1 0 =
    some 0x44442222 := rfl
/-- R57: a disabled lane keeps its word. -/
theorem test_disabledLane : outV (.vmov ⟨h0, 1, .imm 5⟩) (wave [(33, 7)] 1) 1 1 = some 7 ∧
    outV (.vmov ⟨h0, 1, .imm 5⟩) (wave [(33, 7)] 1) 1 0 = some 5 := ⟨rfl, rfl⟩
/-- R59: a privileged form in a user firing raises PRIV. -/
theorem test_priv : ((goesTo (exec (.fkill ⟨h0, 6, .reg 8⟩) (stateOf { asid := 1 } (fireAt 0x1000 [])))).firing 0 0).map
    (·.last) = some 2 := rfl
/-- R364: TRAP raises USER (0x1A). -/
theorem test_trap : outLast (.trap ⟨h0, 5⟩) (fireAt 0x1000 []) = some (1, 0x1A) := rfl
/-- The instruction placed by withFetchWord runs in the very next step: MOVI s9, −300 (R95's example word). -/
theorem test_withFetchWord : ((goesTo (step (State.reset.withFetchWord 64 0xFF6A000240000311))).firing 0 0).map (·.getS 9) =
    some 0xFFFFFFFFFFFFFED4 := rfl

/-! ## Witnesses: states and operands that meet the hypotheses of each statement -/

open Sys2Proof.Claims

/-- A thread with nothing in its registers and nothing pending, one whose guard is false (pa = 0 reads k0 = 1; ntt = 0xFF
inverts the table), a wave of two lanes with a free path entry, and one with none. -/
def thread : Firing := fireAt 0x1000 []
def hOff : Head := ⟨false, false, 0, 0, 0, 0xFF⟩
def wave2 : Firing := wave [] 3
def waveFull : Firing := { wave2 with paths := [{ pc := 0x1000, mask := 3, pri := 4, st := 1 }] }
/-- A guard that lane 0 alone meets: q1 is 1 in lane 0, and the table is true where q1 is. -/
def hQ1 : Head := ⟨false, false, 1, 0, 0, 0x0F⟩
def waveQ : Firing := { wave2 with q := [(1, 1)] }

theorem issues (c : Core) (f : Firing) : Issues (stateOf c f) 0 0 f := ⟨rfl, rfl⟩

/-- ProductsQuotients, ScalarBits, ScalarMoves, FloatForms, LaneIntegers and every other statement whose one hypothesis is
that firing f issues. -/
theorem wit_issues : Issues (stateOf {} thread) 0 0 thread := issues {} thread

theorem wit_RegisterWrites : thread.cur < thread.paths.length ∧ hC.c = true ∧ h0.c = false ∧ chainPos thread.chain < 7 := by
  decide
theorem wit_ScalarArithmetic : Issues (stateOf {} thread) 0 0 thread ∧ (⟨h0, 5, .reg 6, .ss, true⟩ : UnOps).sat ≠ .us :=
  ⟨issues _ _, by decide⟩
theorem wit_ScalarMoves : Issues (stateOf {} thread) 0 0 thread ∧ thread.enS hOff = false ∧
    (⟨h0, 5, .reg 6, .src (.reg 7), true, 0⟩ : SelOps).k = 0 := ⟨issues _ _, by decide⟩
theorem wit_ScalarFrames : scalarDest (.add (alu .wrap false)) = some 5 ∧
    predDest (.cmp ⟨h0, 1, 2, 0, 0, false, .reg 6, .src (.reg 7)⟩) = some ([], [], [1, 2], []) ∧
    controlDest (.call ⟨h0, 3, .i17 8⟩) = some [3] ∧ Issues (stateOf {} thread) 0 0 thread ∧
    (∃ t, exec (.add (alu .wrap false)) (stateOf {} thread) = .next t) ∧
    (∃ t, exec (.cmp ⟨h0, 1, 2, 0, 0, false, .reg 6, .src (.reg 7)⟩) (stateOf {} thread) = .next t) ∧
    ∃ t g, exec (.call ⟨h0, 3, .i17 8⟩) (stateOf {} thread) = .next t ∧ t.firing 0 0 = some g ∧ g.stopped = false :=
  ⟨rfl, rfl, rfl, issues _ _, ⟨_, rfl⟩, ⟨_, rfl⟩, ⟨_, _, rfl, rfl, rfl⟩⟩
def cmpOps (t : Bool) : CmpOps := ⟨h0, 1, 2, 0, 0, t, .reg 6, .src (.reg 7)⟩
def vcmpOps (t : Bool) : VCmpOps := ⟨h0, 1, 2, 0, 0, t, .reg 6, .src (.reg 7)⟩
theorem wit_IntegerCompares : Issues (stateOf {} thread) 0 0 thread ∧ ((cmpOps true).pt = (cmpOps true).pf → (cmpOps true).pt = 0) ∧
    ((vcmpOps false).pt = (vcmpOps false).pf → (vcmpOps false).pt = 0) := ⟨issues _ _, by decide, by decide⟩
/-- A signalling NaN under FCMP, Invalid enabled. -/
def nanThread : Firing := { ab 0x7FF0000000000001 0 with fpst := 0x100000 }
theorem wit_FloatCompares : Issues (stateOf {} nanThread) 0 0 nanThread ∧
    (floatCond (cmpFmt true) 0 (nanThread.fsrcS (cmpFmt true) (.reg 6)) (nanThread.fsrcSI (cmpFmt true) (.src (.reg 7)))).2 = true ∧
    nanThread.fpst.getLsbD 20 = true ∧ thread.fpst.getLsbD 20 = false ∧ (13 : BitVec 4).toNat < 14 ∧
    (Fmt.f32.decode 0x7FC00000).isNan = true ∧ (Fmt.f32.decode 0).isNan = false := ⟨issues _ _, by decide⟩
/-- A wave with a signalling NaN in lane 1 under VFCMP, Invalid enabled. -/
def nanWave : Firing := { wave2 with fpst := 0x100000, v := [(32 * 6 + 1, 0x7F800001)] }
theorem wit_FloatCompares_lanes : Issues (stateOf {} nanWave) 0 0 nanWave ∧
    (∃ L, L < 32 ∧ nanWave.enL h0 L = true ∧ (floatCond (cmpFmt false) 0 ((nanWave.fsrcV 0 L (.reg 6)).headD 0)
      ((nanWave.fsrcVI 0 L (.src (.reg 7))).headD 0)).2 = true) ∧
    ¬ (∃ L, L < 32 ∧ wave2.enL h0 L = true ∧ (floatCond (cmpFmt false) 0 ((wave2.fsrcV 0 L (.reg 6)).headD 0)
      ((wave2.fsrcVI 0 L (.src (.reg 7))).headD 0)).2 = true) := ⟨issues _ _, ⟨1, by decide⟩, by decide⟩
theorem wit_PredicateMoves : Issues (stateOf {} wave2) 0 0 wave2 ∧ (⟨h0, true, 1, 2, 3, 4, 0x3C⟩ : PlopOps).lane = true ∧
    (⟨h0, false, 2, 0⟩ : PsetOps).lane = false := ⟨issues _ _, rfl, rfl⟩
theorem wit_ScalarTransfers : Issues (stateOf {} thread) 0 0 thread ∧ thread.cur < thread.paths.length ∧
    thread.enS h0 = true ∧ thread.enS hOff = false ∧ (target (thread.srcS (.const 0)) (.i17 1)).toNat % 4 = 0 ∧
    (target (thread.srcS (.const 1)) (.i17 0)).toNat % 4 ≠ 0 ∧ (thread.srcS (.const 0)).toNat % 4 = 0 ∧
    (thread.srcS (.const 1)).toNat % 4 ≠ 0 := ⟨issues _ _, by decide⟩
/-- Two ready paths, the second of the higher priority, and two of one priority. -/
def twoPaths (p : Byte) : Firing :=
  { wave2 with paths := [{ pc := 0x1000, mask := 1, pri := 4, st := 1 }, { pc := 0x2000, mask := 2, pri := p, st := 1 }] }
theorem wit_PathSelection : (∃ e, ready (twoPaths 5) e) ∧ ((twoPaths 5).selectPath false).cur ≠ (twoPaths 5).cur ∧
    ready (twoPaths 4) (twoPaths 4).cur ∧ (∀ e, e < 2 → (twoPaths 4).priOf e ≤ (twoPaths 4).priOf (twoPaths 4).cur) ∧
    ready (twoPaths 4) 1 ∧ (1 : Nat) ≠ (twoPaths 4).cur ∧ (∀ e, e < 2 → (twoPaths 4).priOf e ≤ (twoPaths 4).priOf 1) := by
  unfold ready; exact ⟨⟨0, by decide⟩, by decide⟩
/-- Two paths blocked at one address, and none ready. -/
def blockedPaths : Firing :=
  { wave2 with paths := [{ pc := 0x2000, mask := 1, pri := 4, st := 2 }, { pc := 0x2000, mask := 2, pri := 5, st := 2 }] }
theorem wit_LanePaths_merge : (∀ e, ¬ ready blockedPaths e) ∧ blocked blockedPaths 0 ∧ blocked blockedPaths 1 := by
  unfold ready blocked
  exact ⟨fun e ⟨h, k⟩ => (by decide : ∀ e, e < blockedPaths.paths.length → (blockedPaths.paths.getD e {}).st ≠ 1) e h k, by decide⟩
theorem wit_LanePaths : Issues (stateOf {} waveQ) 0 0 waveQ ∧ waveQ.cur < waveQ.paths.length ∧ allLanes waveQ h0 ∧
    noLane waveQ hOff ∧ ¬ allLanes waveQ hOff ∧ ¬ noLane waveQ hQ1 ∧ ¬ allLanes waveQ hQ1 ∧ waveQ.freeEntry = some 1 ∧
    waveFull.freeEntry = none ∧ waveQ.cur < 8 ∧ waveQ.path.pri.toNat < 8 := by
  unfold allLanes noLane; exact ⟨issues _ _, by decide⟩
theorem wit_LanePaths_done : Issues (stateOf {} thread) 0 0 thread ∧ (0 : Nat) ≤ 64 ∧ thread.enS hOff = false ∧
    thread.enS h0 = true ∧ endReady ((stateOf {} thread).core 0) 0 thread = true ∧ thread.wave = false ∧
    endOpen (stateOf {} thread) 0 thread = true ∧ endReleased (stateOf {} thread) 0 thread = true ∧ thread.owed = none ∧
    (twoPaths 4).wave = true ∧ counted 1 = true ∧ (({ credits := [⟨1, 3, 0⟩] } : Core).pool 1).getD ⟨1, 0, 0⟩ = ⟨1, 3, 0⟩ ∧
    (({ credits := [⟨1, 128, 0⟩] } : Core).pool 1).getD ⟨1, 0, 0⟩ = ⟨1, 128, 0⟩ ∧
    ∃ e, e ≠ (twoPaths 4).cur ∧ e < (twoPaths 4).paths.length ∧
      (((twoPaths 4).paths.getD e {}).st = 1 ∨ ((twoPaths 4).paths.getD e {}).st = 2) :=
  ⟨issues _ _, by decide, by decide, by decide, rfl, rfl, rfl, rfl, rfl, rfl, rfl, rfl, rfl, 1, by decide⟩
theorem wit_FloatForms : thread.enS h0 = true ∧ thread.enS hOff = false ∧ fpxHits thread fNV = false ∧
    fpxHits nanThread fNV = true := by decide
theorem wit_Conversions : Issues (stateOf {} thread) 0 0 thread ∧
    (⟨h0, .scalar 5 (.reg 6), 0, 8, false, 0, false⟩ : CvtOps).opd = .scalar 5 (.reg 6) ∧
    (⟨h0, .lane 5 (.reg 6), 1, 10, false, 0, false⟩ : CvtOps).opd = .lane 5 (.reg 6) ∧
    ((3 : BitVec 2).toNat + 1) * (2 * (packFmt 4).width) ≤ 32 := ⟨issues _ _, rfl, rfl, by decide⟩
theorem wit_Conversions_values : efRat {} + ratOf false 3 0 ≠ 0 ∧ efRat {} + ratOf false 0 0 = 0 ∧ (-5 : Int) ≠ 0 ∧ 0 < 8 := by
  norm_num [ratOf, efRat]
theorem wit_FloatRounding : 0x3FF0000000000000 < 2 ^ Fmt.f64.width ∧
    Fmt.f64.decode 0x3FF0000000000000 = .fin false (2 ^ 52) (-52) ∧ (FVal.nan true).isNan = true ∧
    zeroInf (.nan true) (.inf false) = false := by decide
/-- FloatSpecials: an infinity of either sign times a number, a zero; two numbers either way round, two zeros; each class. -/
theorem wit_FloatRounding_specials : Below (Fmt.f32.decode 0x3F800000) (Fmt.f32.decode 0x40000000) ∧
    Same (Fmt.f32.decode 0) (Fmt.f32.decode 0x80000000) ∧ Fmt.f32.decode 0x7F800000 = .inf false ∧
    Fmt.f32.decode 0x7F800001 = .nan true ∧ Fmt.f32.decode 0 = .fin false 0 (-149) ∧ ratOf false 0 (-149) = 0 ∧
    (∃ m e, Fmt.f32.decode 1 = .fin false m e ∧ ratOf false m e ≠ 0 ∧ |ratOf false m e| < (2 : ℚ) ^ (Fmt.f32.emin + Fmt.f32.fbits)) ∧
    (∃ m e, Fmt.f32.decode 0x3F800000 = .fin false m e ∧ ¬ |ratOf false m e| < (2 : ℚ) ^ (Fmt.f32.emin + Fmt.f32.fbits)) ∧
    ∃ (b : FVal) (k : Bool), b = .inf k ∨ ∃ (m : Nat) (e : Int), b = .fin k (m + 1) e := by
  have h1 : Fmt.f32.decode 0x3F800000 = .fin false (2 ^ 23) (-23) := by decide
  have h2 : Fmt.f32.decode 0x40000000 = .fin false (2 ^ 23) (-22) := by decide
  have h3 : Fmt.f32.decode 0 = .fin false 0 (-149) := by decide
  have h4 : Fmt.f32.decode 0x80000000 = .fin true 0 (-149) := by decide
  have h5 : Fmt.f32.decode 1 = .fin false 1 (-149) := by decide
  refine ⟨?_, ?_, by decide, by decide, h3, by norm_num [ratOf], ⟨_, _, h5, ?_, ?_⟩, ⟨_, _, h1, ?_⟩, .inf true, true, .inl rfl⟩
  · rw [h1, h2]; norm_num [Below, ratOf]
  · rw [h3, h4]; norm_num [Same, ratOf]
  · norm_num [ratOf]
  · norm_num [ratOf, Fmt.emin, Fmt.fbits, show Fmt.f32.bias = 127 from rfl]
  · norm_num [ratOf, Fmt.emin, Fmt.fbits, show Fmt.f32.bias = 127 from rfl]
/-- Nonzero and zero results of the exact operations, a value of either sign, and one that is no double. -/
theorem wit_FloatRounding_exact : ratOf false 1 0 + ratOf false 1 1 ≠ 0 ∧ ratOf true 1 0 + ratOf false 1 0 = 0 ∧
    ratOf false 3 0 * ratOf true 1 0 ≠ 0 ∧ ratOf false 0 0 * ratOf true 1 0 = 0 ∧ ratOf false 1 0 / ratOf false 3 0 ≠ 0 ∧
    ratOf false 1 0 * ratOf false 1 0 + ratOf true 1 0 = 0 ∧ 0 < ratOf false 2 0 := by norm_num [ratOf]
theorem wit_FloatLaneFrame : floatDest (.fadd ⟨h0, 4, .reg 5, .src (.reg 6), 0, false, 0⟩) = some ([4], []) ∧
    laneDest (.vmov ⟨h0, 1, .imm 5⟩) = some ([], [1], []) ∧ Issues (stateOf {} thread) 0 0 thread ∧
    (∃ t g, exec (.fadd ⟨h0, 4, .reg 5, .src (.reg 6), 0, false, 0⟩) (stateOf {} thread) = .next t ∧
      t.firing 0 0 = some g ∧ g.stopped = false) ∧ (∃ t, exec (.vmov ⟨h0, 1, .imm 5⟩) (stateOf {} thread) = .next t) ∧
    ∃ t g, exec (.mldf ⟨h0, 0, 1, .const 0, .const 0, 0⟩) (stateOf { wsLo := 0x100000 } thread) = .next t ∧
      t.firing 0 0 = some g ∧ g.stopped = false :=
  ⟨rfl, rfl, issues _ _, ⟨_, _, rfl, rfl, rfl⟩, ⟨_, rfl⟩, ⟨_, _, rfl, rfl, rfl⟩⟩
theorem wit_LaneIntegers : (⟨h0, 5, .reg 6, .src (.reg 7), .wrap, false, false⟩ : VIntOps).p16 = false := rfl
theorem wit_CrossLaneForms : Issues (stateOf {} wave2) 0 0 wave2 ∧ (⟨h0, 5, .reg 6, 5, 7⟩ : WredOps).op.toNat < 8 ∧
    8 ≤ (⟨h0, 5, .reg 6, 5, 8⟩ : WredOps).op.toNat ∧ (5 : Nat) ≤ 5 ∧ 31 < 32 ∧ 0 / 2 ^ 5 = 31 / 2 ^ 5 := ⟨issues _ _, by decide⟩
/-- ReductionValues: segments of one lane and of all, a lane that contributes, a NaN among the values and one alone. -/
theorem wit_CrossLaneForms_values : (0 : Nat) ≤ 5 ∧ Member 5 (fun _ => true) 0 31 ∧ Member 0 (fun _ => true) 31 31 ∧
    (∀ M, Member 5 (fun _ => false) 0 M → False) ∧ (Fmt.f32.decode (0x7FC00000 : W32).toNat).isNan = true ∧
    (Fmt.f32.decode (0 : W32).toNat).isNan = false :=
  ⟨by decide, ⟨by decide, by decide, rfl⟩, ⟨by decide, by decide, rfl⟩, fun _ h => Bool.false_ne_true h.2.2, by decide, by decide⟩
/-- A wave of every lane. -/
def waveAll : Firing := wave [] 0xFFFFFFFF
theorem wit_QueuedLaneUnits : Issues (stateOf {} waveAll) 0 0 waveAll ∧ ¬ noLane waveAll h0 ∧ noLane waveAll hOff ∧
    ((stateOf {} waveAll).core 0).sfuQ.length < 16 ∧
    (((stateOf {} waveAll).core 0).sfuQ.filter fun e => e.slot == 0).length < 2 := by
  unfold noLane; exact ⟨issues _ _, by decide⟩
theorem wit_MatrixForms : Issues (stateOf {} waveAll) 0 0 waveAll ∧ everyLane waveAll h0 ∧ noLane waveAll hOff ∧
    ¬ noLane waveQ h0 ∧ ¬ everyLane waveQ h0 ∧ ((stateOf {} waveAll).core 0).mat = none ∧
    ({ mat := some ⟨1, 0x1000, 0, 1, 1, [], 0⟩ } : Core).mat ≠ none ∧
    mmaWidth false 0 = some 64 ∧ mmaWidth false 2 = some 16 ∧ mmaWidth true 2 = some 4 := by
  unfold everyLane noLane; exact ⟨issues _ _, by decide⟩
/-- MatrixValues: each width, the last element of an operand, a valid scale and one that is not, and the products of a group
with and without a NaN, an infinity and a zero. -/
theorem wit_MatrixForms_values : (64 : Nat) ∈ [4, 8, 16, 64] ∧ 47 < 3072 / 64 ∧ (15 : Nat) < 16 ∧ mmaWidth false 0 = some 64 ∧
    mmaWidth false 4 = some 8 ∧ (0x80 : Nat) ≥ 0x7F ∧ (0x38 : Nat) < 0x7F ∧ hasNan [.nan true, .fin false 0 0] ∧
    hasZero [.fin false 0 0, .inf true] ∧ hasInf [.fin false 0 0, .inf true] ∧ ¬ hasNan [.fin false 0 0, .inf true] ∧
    negative [.fin true 1 0, .fin false 1 0] ∧ ¬ negative [.fin true 1 0, .fin true 1 0] := by
  refine ⟨by decide, by decide, by decide, by decide, by decide, by decide, by decide, ⟨true, by simp⟩, ⟨false, 0, by simp⟩,
    ⟨true, by simp⟩, ?_, by unfold negative; decide, by unfold negative; decide⟩
  rintro ⟨q, h⟩; simp at h
def mldf0 (k : BitVec 2) (disp : W32) : MldfOps := ⟨h0, 0, k, .const 0, .const 0, disp⟩
theorem wit_MatrixForms_moves : Issues (stateOf { wsLo := 0x100000 } wave2) 0 0 wave2 ∧
    mldfCheck ((stateOf { wsLo := 0x100000 } wave2).core 0) wave2 (mldf0 1 0) .scratch = none ∧
    (∃ tc, mldfCheck ((stateOf {} wave2).core 0) wave2 (mldf0 1 0) .scratch = some tc) ∧
    wave2.enL h0 1 = true ∧ ∀ L', 1 < L' → L' < 32 → wave2.enL h0 L' = true →
      mldfOff wave2 (mldf0 1 0) 1 + (4 * mldfRegs 1 : Nat) ≤ mldfOff wave2 (mldf0 1 0) L' ∨
        mldfOff wave2 (mldf0 1 0) L' + (4 * mldfRegs 1 : Nat) ≤ mldfOff wave2 (mldf0 1 0) 1 :=
  ⟨issues _ _, by decide, ⟨_, rfl⟩, by decide, by
    intro L' h h2 h3
    have : ∀ L' : Fin 32, 1 < L'.val → wave2.enL h0 L'.val = false := by decide
    rw [this ⟨L', h2⟩ h] at h3; exact absurd h3 (by decide)⟩

/-- A core whose workspace region is the upper half of its scratchpad, with the first gigabyte mapped read, write and
execute; registers 6 and 7 of its firing are 0x100 and 1. -/
def coreM : Core := { wsLo := 0x80000, tlb := [⟨0, 2, 0, 0x3D⟩] }
def fireM : Firing := ab 0x100 1
def sM : State := stateOf coreM fireM
def waveM : Firing := { wave2 with s := [(6, 0x100)], v := [(225, 0x80)] }
def memOps (size : BitVec 3) : MemOps := ⟨h0, 8, .reg 6, .disp 0, false, false, size⟩
def vmemOps (size : BitVec 3) : VMemOps := ⟨h0, 8, .reg 6, .reg 7, false, none, false, false, size⟩

theorem wit_ScratchpadAccess : Issues sM 0 0 fireM ∧ fireM.enS h0 = true ∧ (4 : BitVec 3).toNat ≤ 4 ∧
    SpadOk (sM.core 0) (fireM.eaS (.reg 6) (.disp 0) 16) 16 ∧ SpadOk (sM.core 0) 0x7FFF8 8 ∧
    fireM.rel = none ∧ Issues (stateOf coreM waveM) 0 0 waveM ∧ ¬ noLane waveM h0 ∧ waveM.rel = none ∧
    (∀ L, L < 32 → waveM.enL h0 L = true → SpadOk (sM.core 0) (waveM.eaV (.reg 6) (.reg 7) false none 16 L) 16) ∧
    (∀ M, 1 < M → M < 32 → waveM.enL h0 M = true →
      waveM.eaV (.reg 6) (.reg 7) false none 16 M ≠ waveM.eaV (.reg 6) (.reg 7) false none 16 1) := by
  unfold SpadOk noLane; exact ⟨issues _ _, by decide, by decide, by decide, by decide, rfl, issues _ _, by decide, rfl, by decide,
    fun M a b c => ((by decide : ∀ M, M < 32 → 1 < M → waveM.enL h0 M = true → False) M b a c).elim⟩
theorem wit_GlobalAccesses : Passes sM 0 0 fireM .read 8 0x100 0x100 false ∧ Passes sM 0 0 fireM .write 8 0x100 0x100 false ∧
    Passes sM 0 0 fireM .atomic 8 0x100 0x100 false ∧ fireM.sqRoom 1 = true ∧ fireM.enS hOff = false ∧
    planLanes coreM 0 waveM .write 4 (laneAddrs waveM (vmemOps 2)) =
      .ok [⟨0, 0x100, 0x100, 4, false, some ⟨0, 2, 0, 0x3D⟩, none⟩, ⟨1, 0x180, 0x180, 4, false, some ⟨0, 2, 0, 0x3D⟩, none⟩] ∧ waveM.sqRoom 2 = true :=
  ⟨⟨rfl, rfl, rfl⟩, ⟨rfl, rfl, rfl⟩, ⟨rfl, rfl, rfl⟩, rfl, rfl, rfl, rfl⟩
/-- Leaves that a user may not read, in the translation cache, with the instruction, and with a line of L1; a watchpoint. -/
def coreNo : Core := { coreM with tlb := [⟨0, 2, 0, 0x21⟩] }
def coreLn : Core := { coreM with l1d := [⟨2, 0, 0x21, 2, List.replicate 128 0⟩] }
def coreWt : Core := { coreM with asid := 1, tlb := [⟨0, 2, 1, 0x3D⟩], wch0 := 0x103 }
theorem wit_AccessTraps : Fails coreM 0 fireM .read 2 none 0x101 (causeAt 0x09 .read 0x101) ∧
    Fails coreWt 0 fireM .read 8 none 0x100 (causeAt 0x18 .read 0x100) ∧
    Denied coreLn [] false .read 0x100 15 ∧ Denied coreM [⟨0, 2, 0, 0x21⟩] false .read 0x100 2 ∧
    Denied coreNo [] false .read 0x100 15 ∧ FailsLocal coreM 2 none 0x101 (causeAt 0x09 .scratch 0x101) ∧
    FailsLocal coreM 2 none 0x80000 (causeAt 0x0B .scratch 0x80000) := by
  unfold Fails Denied FailsLocal SpadOk
  exact ⟨.inl (by decide), .inr (.inl (by decide)), .inl ⟨_, rfl, by decide⟩, .inr (.inl ⟨rfl, _, rfl, by decide⟩),
    .inr (.inr ⟨rfl, rfl, _, rfl, by decide⟩), .inl (by decide), .inr (by decide)⟩
/-- Atomics: the four reasons of a global one, and the reasons of one in the scratchpad. -/
theorem wit_AccessTraps_atomics : Fails coreM 0 fireM .atomic 4 none 0x102 (causeAt 0x09 .atomic 0x102) ∧
    Fails coreWt 0 fireM .atomic 8 none 0x100 (causeAt 0x18 .atomic 0x100) ∧ Denied coreNo [] false .atomic 0x100 15 ∧
    FailsLocal coreM 4 none 0x102 (causeAt 0x09 .scratch 0x102) ∧ FailsLocal coreM 4 none 0x80000 (causeAt 0x0B .scratch 0x80000) := by
  unfold Fails Denied FailsLocal SpadOk
  exact ⟨.inl (by decide), .inr (.inl (by decide)), .inr (.inr ⟨rfl, rfl, _, rfl, by decide⟩), .inl (by decide), .inr (by decide)⟩
/-- A wave whose lane 1 misses its alignment, and one whose lane 1 is outside the scratchpad. -/
def waveOdd : Firing := { waveM with v := [(225, 0x81)] }
def waveFar : Firing := { waveM with v := [(225, 0x100000)] }
theorem wit_AccessTraps_lanes : FirstLane waveOdd h0 (fun M => ∃ key unc,
      Passes (stateOf coreM waveOdd) 0 0 waveOdd .read 4 ((waveOdd.eaV (.reg 6) (.reg 7) false none 4 M).toNat % 2 ^ 56) key unc) 1 ∧
    FirstLane waveFar h0 (fun M => SpadOk coreM (waveFar.eaV (.reg 6) (.reg 7) false none 4 M) 4) 1 := by
  have only : ∀ M, M < 1 → M = 0 := by omega
  refine ⟨⟨by decide, by decide, ?_, ?_⟩, ?_⟩
  · rintro ⟨_, _, h, _⟩; exact absurd h (by decide)
  · intro M h _; obtain rfl := only M h; exact ⟨0x100, false, rfl, rfl, rfl⟩
  · unfold FirstLane SpadOk; decide
theorem wit_AccessTraps_laneAtomics : FirstLane waveOdd h0 (fun M => ∃ key unc, Passes (stateOf coreM waveOdd) 0 0 waveOdd .atomic 4
      ((waveOdd.srcS (.reg 6) + waveOdd.laneIdx (.reg 7) M).toNat % 2 ^ 56) key unc) 1 ∧
    FirstLane waveFar h0 (fun M => SpadOk coreM (waveFar.srcS (.reg 6) + waveFar.laneIdx (.reg 7) M) 4) 1 := by
  have only : ∀ M, M < 1 → M = 0 := by omega
  refine ⟨⟨by decide, by decide, ?_, ?_⟩, ?_⟩
  · rintro ⟨_, _, h, _⟩; exact absurd h (by decide)
  · intro M h _; obtain rfl := only M h; exact ⟨0x100, false, rfl, rfl, rfl⟩
  · unfold FirstLane SpadOk; decide
theorem wit_AccessTraps_remote : (0x101 : W64).toNat % 8 ≠ 0 ∧ 2 ^ 20 < (0x100000 : W64).toNat + 8 ∧
    coreExists sM 0x1000 = false ∧ (0xFFFF8 : W64).toNat % 8 = 0 ∧ (0xFFFF8 : W64).toNat + 8 ≤ 2 ^ 20 ∧
    watchHit coreM 0 fireM .read 0x40000000 8 = false ∧
    xlate coreM fireM.xl (privileged coreM 0) .read 0x40000000 none = .miss := by decide
theorem wit_RemoteAccess : coreExists sM 4095 = true ∧ coreExists sM 0 = true ∧ (0xFFFF8 : Nat) + 8 ≤ 2 ^ 20 ∧ fireM.sqRoom 1 = true :=
  by decide
/-- A firing with a line of its own in L1, and a core of another die with a dirty copy. -/
def sDirty : State := { sM with l2 := [(8 * 2, ⟨-1, 1, List.replicate 128 1⟩)] }
theorem wit_CacheAndFences : Issues sM 0 0 fireM ∧ fireM.enS h0 = true ∧ privileged (sM.core 0) 0 = true ∧
    privileged ((stateOf { asid := 1 } fireM).core 0) 0 = false ∧
    ((sM.copy 2 (siteOf sM 0)).map L2Copy.isDirty).getD false = false ∧
    ((sDirty.copy 2 (siteOf sDirty 0)).map L2Copy.isDirty).getD false = true ∧ fireM.sqFree 1 = true ∧ fireM.sq.length < 16 ∧
    fireM.wbq = [] ∧ portDown sM 0x100 = false ∧
    (sM.core 0).l1Find 0x100 = none ∧ heldLeaf (sM.core 0) [] 0x100 = some ⟨0, 2, 0, 0x3D⟩ ∧
    permOk true .read 0x3D 0x100 = true ∧ pteUnc 0x3D = false ∧ homeSite sM 0x100 = siteOf sM 0 :=
  ⟨issues _ _, by decide⟩
theorem wit_CacheAndFences_room : ∀ line, hasRoom sM line (siteOf sM 0) = true := fun _ => rfl
theorem wit_CacheAndFences_clearings : ClearingForm 0 ∧ ClearingForm 0xC000000000000000 ∧ ¬ ClearingForm 1 ∧
    ¬ ClearingForm 0x8000000000000001 ∧ thread.rel = none ∧ ((stateOf {} thread).core 0).placing thread = false ∧
    thread.wbq = [] ∧ acquireReady thread thread.seq = true ∧
    releaseDone (stateOf {} { thread with sq := [⟨0, 0, .wb 2, false⟩], seq := 1 }) 0
      { thread with sq := [⟨0, 0, .wb 2, false⟩], seq := 1 } 1 true = false ∧ releaseDone (stateOf {} thread) 0 thread thread.seq true = true ∧
    thread.owed = none ∧ clearingCross 0 0xC000000000000000 = true ∧ clearingCross 0 0 = false := by
  unfold ClearingForm; decide
/-- A firing whose earlier release is in progress, and one whose FENCE.AR is. -/
theorem wit_CacheAndFences_again : ({ thread with rel := some ⟨0, 0x1000, true, 0⟩, seq := 1 } : Firing).rel.isSome = true ∧
    (∃ r, ({ thread with rel := some ⟨1, 0x1000, true, 0⟩, seq := 1 } : Firing).rel = some r ∧ r.seq = 1) ∧
    coreM.placing { thread with rel := some ⟨0, 0x1000, true, 0⟩, seq := 1 } = false := ⟨rfl, ⟨_, rfl, rfl⟩, rfl⟩
theorem wit_AtomicForms : SpadOk coreM 0x100 8 ∧ fireM.sqRoom 1 = true ∧ fireM.rel = none ∧ waveM.rel = none ∧ ¬ noLane waveM h0 ∧
    (0x0000009F00000000 : W64).toNat / 2 ^ 29 % 8 = 0 ∧ (0xFF1FFFFFFF : W64).toNat / 2 ^ 40 = 0 ∧
    (0x20000000 : W64).toNat / 2 ^ 29 % 8 ≠ 0 ∧ (0x10000000000 : W64).toNat / 2 ^ 40 ≠ 0 ∧
    planLanes coreM 0 waveM .atomic 4 (vatomAddrs waveM ⟨h0, 8, .reg 6, .reg 7, .reg 9, false, 0, false⟩) =
      .ok [⟨0, 0x100, 0x100, 4, false, some ⟨0, 2, 0, 0x3D⟩, none⟩, ⟨1, 0x180, 0x180, 4, false, some ⟨0, 2, 0, 0x3D⟩, none⟩] ∧
    (∀ M, M < 32 → waveM.enL h0 M = true → SpadOk coreM (waveM.srcS (.reg 6) + waveM.laneIdx (.reg 7) M) 4) ∧
    (∀ M, M < 32 → M ≠ 1 → waveM.enL h0 M = true → waveM.srcS (.reg 6) + waveM.laneIdx (.reg 7) M ≠
      waveM.srcS (.reg 6) + waveM.laneIdx (.reg 7) 1) := by
  unfold SpadOk noLane; exact ⟨by decide, rfl, rfl, rfl, by decide, by decide, by decide, by decide, by decide, rfl, by decide,
    by decide⟩
/-- Two lanes of a local lane atomic at one address. -/
def waveSame : Firing := { waveM with v := [] }
theorem wit_AtomicForms_sameAddress : ∀ M, M < 32 → waveSame.enL h0 M = true →
    SpadOk coreM (waveSame.srcS (.reg 6) + waveSame.laneIdx (.reg 7) M) 4 ∧
    waveSame.srcS (.reg 6) + waveSame.laneIdx (.reg 7) M = waveSame.srcS (.reg 6) + waveSame.laneIdx (.reg 7) 0 := by
  unfold SpadOk; decide
theorem wit_MemoryFrame : queuedForm (.ld (memOps 3)) = true ∧ localForm (.sts (memOps 3)) = true ∧ Issues sM 0 0 fireM ∧
    (∃ t g, exec (.ld (memOps 3)) sM = .next t ∧ t.firing 0 0 = some g ∧ g.stopped = false) ∧
    ∃ t g, exec (.sts (memOps 3)) sM = .next t ∧ t.firing 0 0 = some g ∧ g.stopped = false :=
  ⟨rfl, rfl, issues _ _, ⟨_, _, rfl, rfl, rfl⟩, ⟨_, _, rfl, rfl, rfl⟩⟩

/-! Messages, glades, launches, time. -/

/-- A handler entry at the reset table's place for handler 17: valid, channel 1, one message, 8 scalars; and a glade. -/
def putWords (c : Core) (a : Nat) (ws : List W64) : Core := (ws.zipIdx).foldl (fun c e => c.putBs (a + 8 * e.2) (bytesLE 8 e.1)) c
/-- Handler 17 at PC 0x1000 for channel 1, one message, eight scalars; handler 18 for glade 2; glade 2 of two columns. -/
def hw1 : W64 := 0x0000000800010101
def hw1g : W64 := 0x0000000800011201
def coreH : Core :=
  { putWords (putWords { coreM with placed := true, htab := 0x2000 } (0x2000 + 32 * 17) [0x1000, hw1]) (0x2000 + 32 * 18) [0x1000, hw1g]
    with glades := [{}, {}, { decl := true, depth := 1, cols := List.replicate 32 [] }] }
def msg0 : Msg := { dst := 0, ch := 1, hid := 17, len := 1, ord := false, typ := 0, ltag := 0, stamp := 0, body := [5] }

theorem wit_MessageSend : Issues sM 0 0 fireM ∧ fireM.enS h0 = true ∧ coreExists sM (0x1000 : Nat) = false ∧
    coreExists sM 1 = true ∧ (1 : Nat) / 4096 = sM.pkg.toNat ∧ (fireM.rel = none ∧ (sM.core 0).placing fireM = false) ∧
    (sM.core 0).filtered fireM.ltag = false ∧ counted fireM.ltag = false ∧ (sM.core 0).sendBuf.length < 16 ∧
    (sM.core 0).sendvQ = [] ∧ (sM.core 0).sendvWait = none ∧ actLanes waveM h0 0 = [0, 1] ∧
    (1 : BitVec 29).toNat < 2 ^ 29 ∧ stampFloor { coreM with vt := 5 } fireM ≤ (5 : W64).toNat % 2 ^ 48 ∧
    (4 : W64).toNat % 2 ^ 48 < stampFloor { coreM with vt := 5 } fireM ∧ 0x1001 / 4096 ≠ sM.pkg.toNat := by
  refine ⟨issues _ _, ?_⟩; decide
theorem wit_MessageSend_far : coreExists { sM with sysSize := 2 } 0x1001 = true := by
  have h : dieOf (0x1001 % 4096) < 7 := by decide
  simp only [coreExists, h, decide_true, Bool.or_true, Bool.and_true]; decide
/-- SENDV with lane 0's destination good and lane 1's none; its stamps are zero, below the floor of core 0 at time 5. -/
def waveDst : Firing := { wave2 with v := [(32 * 8, 1), (32 * 8 + 1, 0x20000000)] }
theorem wit_MessageSend_lanes : 1 ∈ actLanes waveDst h0 0 ∧ (∀ M ∈ actLanes waveDst h0 0, M < 1 →
      (waveDst.getV 8 M).toNat < 2 ^ 29 ∧ coreExists sM (waveDst.getV 8 M).toNat = true) ∧
    2 ^ 29 ≤ (waveDst.getV 8 1).toNat ∧ coreExists sM (waveDst.getV 8 0).toNat = true ∧
    (waveDst.getV 8 0).toNat / 4096 = sM.pkg.toNat ∧
    (waveDst.getV64 10 0).toNat % 2 ^ 48 < stampFloor { coreM with vt := 5 } waveDst := by decide
theorem wit_ReceiveAndGlades_glades : Issues (stateOf coreH thread) 0 0 thread ∧ thread.enS h0 = true ∧ coreH.gladeOk 1 = false ∧
    coreH.gladeOk 2 = true ∧ 2 < coreH.glades.length ∧ 31 < (coreH.glade 2).cols.length ∧
    ((coreH.glade 2).col 31).length < (coreH.glade 2).depth ∧ coreH.gladeSpilled 2 (some 31) = false ∧
    actLanes { waveM with q := [(1, 2)] } h0 1 = [1] ∧
    (∃ M, M < 32 ∧ M ≠ 1 ∧ waveM.path.mask.getLsbD M = true) ∧
    ({ depth := 0, cols := [[]] } : Glade).depth ≤ (({ depth := 0, cols := [[]] } : Glade).col 0).length ∧
    waveM.cur < waveM.paths.length := by
  refine ⟨issues _ _, rfl, ?_⟩; decide +kernel
/-- A thread of handler 17 with a message queued. -/
def coreR : Core := { coreM with inbox := [⟨1, msg0, none⟩] }
def threadR : Firing := { ab 0x1000 0 with hid := 17, s := [(4, 0x1000), (5, hw1), (9, 0x800)] }
theorem wit_ReceiveAndGlades : Issues (stateOf coreR threadR) 0 0 threadR ∧ threadR.enS h0 = true ∧ (0 : Nat) ≠ trapSlot ∧
    threadR.gsrc = false ∧ coreR.filterWait = [] ∧ coreR.loading = false ∧ coreR.filtered threadR.ltag = false ∧
    (∀ x ∈ ((stateOf coreR threadR).core 0).blockedRecv threadR.hid threadR.ltag, threadR.uid ≤ x.uid) ∧
    (∀ m ∈ coreR.inbox, coreR.keptFor m = none) ∧ coreR.recvPick threadR = some ⟨1, msg0, none⟩ ∧
    coreM.recvPick threadR = none ∧ threadR.ordered = false := by
  refine ⟨issues _ _, ?_⟩; decide +kernel
/-- The same firing blocked, its message given to it. -/
def coreG : Core := { coreM with inbox := [⟨1, msg0, some 1⟩], firings := [(0, { threadR with hold := .recv })] }
theorem wit_ReceiveAndGlades_given : ∃ m ∈ coreG.recvQueue threadR, coreG.keptFor m = some threadR.uid :=
  ⟨⟨1, msg0, some 1⟩, by decide +kernel⟩
theorem wit_ReceiveAndGlades_queues : qcheck sM 0 0x1000 (some 8) = none ∧ qcheck sM 0 0x1000 none = none ∧
    (∃ tc, qcheck sM 0 0x1001 (some 8) = some tc) ∧
    ((sM.core 0).qdesc 0x1000).pushed - ((sM.core 0).qdesc 0x1000).sent < ((sM.core 0).qdesc 0x1000).shadowEntries ∧
    threadR.rel = none ∧ (sM.core 0).placing threadR = false ∧ 0 < 2 ^ ((sM.core 0).qdesc 0x1000).esz ∧
    0x10 + 8 ≤ 0x1000 + 0x28 ∧ hw1.getLsbD 0 = true ∧ entryFormed 0x1000 hw1 0 0 = true ∧
    entryFormed 0x1001 hw1 0 0 = false ∧ (threadR.getS 4).getLsbD 0 = false := by
  refine ⟨rfl, rfl, ⟨_, rfl⟩, ?_⟩; decide
/-- HTAB.SET of a glade's entry: handler 18 alone names glade 2, and handler 17 would be a second. -/
theorem wit_ReceiveAndGlades_lone : hw1g.getLsbD 12 = true ∧ entryFormed 0x1000 hw1g 0 0 = true ∧
    (∀ h', h' < 256 → h' ≠ 18 → coreH.namesGlade h' (hw1g.toNat / 2 ^ 8 % 16) = false) ∧
    ¬ ∀ h', h' < 256 → h' ≠ 17 → coreH.namesGlade h' (hw1g.toNat / 2 ^ 8 % 16) = false := by decide +kernel
/-- A launch descriptor of tag 1, level and kind given, rectangle given. -/
def ldOf (level kind : Byte) (rect : W64) : List Byte :=
  [1, 0, 0, 0, 0, 0, 0, 0, level, kind, 17, 0xFF, 0, 0, 0, 0] ++ bytesLE 8 rect ++ List.replicate 40 0
def coreL (d : List Byte) : Core := coreM.putBs 0x100 d
theorem wit_LaunchAndTime : Issues (stateOf (coreL (ldOf 0 1 0)) fireM) 0 0 fireM ∧ fireM.enS h0 = true ∧
    (0x101 : W64).toNat % 8 ≠ 0 ∧ (fireM.srcS (.reg 6)).toNat = 0x100 ∧ 0x100 + 64 ≤ 2 ^ 20 ∧ coreM.inWs 0x100 64 = false ∧
    fireM.rel = none ∧ coreM.placing fireM = false ∧ ldBad sM true (ldOf 0 1 0) = false ∧ ldClearing (ldOf 0 1 0) = false ∧
    ldBad sM true (ldOf 0 0 0) = false ∧ ldClearing (ldOf 0 0 0) = true ∧ ldBad sM false (ldOf 1 1 0) = false ∧
    ldClearing (ldOf 1 1 0) = false ∧ ldBad sM false (ldOf 1 0 0) = false ∧ ldClearing (ldOf 1 0 0) = true ∧
    ldBad sM false (ldOf 3 1 0) = true ∧ (0 : W64).toNat % 2 ^ 15 = 0 ∧ sM.sysSize ≤ (0x8001 : W64).toNat / 2 ^ 15 % 2 ^ 17 ∧
    (1 : W64).toNat % 2 ^ 15 ≠ 0 ∧ (1 : W64).toNat / 2 ^ 15 % 2 ^ 17 < sM.sysSize ∧ fireM.sqRoom 1 = true :=
  ⟨issues _ _, by decide⟩
theorem wit_LaunchAndTime_stamps : (5 : W64).toNat < 2 ^ 48 ∧ ({ report := 5 } : Core).report.toNat ≤ (5 : W64).toNat ∧
    2 ^ 48 ≤ (0x1000000000000 : W64).toNat ∧ (4 : W64).toNat < ({ report := 5 } : Core).report.toNat ∧
    (4 : W64).toNat % 2 ^ 48 < ({ hz := 5, hzSys := 5 } : Core).hz.toNat ∧
    (4 : W64).toNat % 2 ^ 48 < ({ hz := 5, hzSys := 5 } : Core).hzSys.toNat ∧
    ({ hz := 5 } : Core).hz.toNat ≤ (5 : W64).toNat % 2 ^ 48 ∧ ({ hz := 5, filter := [1] } : Core).filtered 1 = true ∧
    ({ hz := 5 } : Core).filtered 1 = false ∧ ({ hz := 9, hzSys := 5 } : Core).hzSys.toNat ≤ (5 : W64).toNat % 2 ^ 48 := by decide

/-! Rays, residency, the log. -/

/-- A ray body at s1: all zero, with the FP32 form, depth and spill count in word 13. -/
def rayFire (w13 : W64) (regs : List (Nat × W64)) : Firing := fireAt 0x1000 ((14, w13) :: regs)
/-- Slot 3 pinned with handle 0 from epoch 0, at offset 0x10000; its scratchpad is zero, so node 0 is an inner node
without children. -/
def coreP : Core := { coreM with pinned := List.replicate 16 ({} : Pin) |>.set 3 ⟨0xC00, 0x10000⟩ }
/-- The same, with a leaf of one triangle, of zeros, as node 0. -/
def coreLeaf : Core := coreP.putBs 0x10000 [1, 0, 1]
def ray0 : Firing := rayFire 0 []
theorem wit_RayTests : Issues (stateOf coreP ray0) 0 0 ray0 ∧ ray0.enS h0 = true ∧ bodyOk (ray0.rayBody 1) = true ∧
    bodyOk ((rayFire 0x9000000000000 []).rayBody 1) = false ∧ nodeAt coreM 0 0 = none ∧
    (∃ nd, resolveNode coreP (ray0.rayBody 1) 0 [0] = .ok nd) ∧
    ∃ nd, resolveNode coreLeaf (ray0.rayBody 1) 0x100 [1, 2] = .ok nd :=
  ⟨issues _ _, rfl, by decide, by decide, by decide, ⟨_, rfl⟩, ⟨_, rfl⟩⟩
/-- A ray from (0, 0, −1) along z up to 10, and a leaf whose triangle it meets at 1. -/
def rayHit : Firing :=
  rayFire 0 [(4, 0xBFF0000000000000), (7, 0x3FF0000000000000), (9, 0x4024000000000000)]
def leafHit : List Byte :=
  [1, 0, 1] ++ List.replicate 29 0 ++ ([0xBF800000, 0xBF800000, 0, 0x3F800000, 0xBF800000, 0, 0, 0x3F800000, 0] : List W32).flatMap
    (bytesLE 4) ++ List.replicate 188 0
def nodeBox : List Byte :=
  [0, 1] ++ List.replicate 30 0 ++ ([0xBF800000, 0xBF800000, 0xBF800000, 0x3F800000, 0x3F800000, 0x3F800000] : List W32).flatMap
    (bytesLE 4) ++ List.replicate 200 0
def hitAt (nd : List Byte) (kind : Nat) (ws : List W64) (j : Nat) : Option TriHit :=
  (rayUnits ws).bind fun u => (triVertex nd kind j 0).bind fun p0 => (triVertex nd kind j 1).bind fun p1 =>
    (triVertex nd kind j 2).bind fun p2 => (triLine (v3of u.1) (v3of u.2.1) p0 p1 p2).bind fun h =>
      if triAccept ((bodyW ws 13).getLsbD 52) h u.2.2.1 u.2.2.2 then some h else none
theorem triHits_iff (nd : List Byte) (kind : Nat) (ws : List W64) (j : Nat) (h : TriHit) :
    TriHits nd kind ws j h ↔ j < nByte nd 2 ∧ hitAt nd kind ws j = some h := by
  simp only [TriHits, hitAt, Option.bind_eq_some_iff, Option.ite_none_right_eq_some, Option.some.injEq]
  constructor
  · rintro ⟨a, u, p0, p1, p2, b, c, d, e, f, g⟩; exact ⟨a, u, b, p0, c, p1, d, p2, e, h, f, g, rfl⟩
  · rintro ⟨a, u, b, p0, c, p1, d, p2, e, _, f, g, rfl⟩; exact ⟨a, u, p0, p1, p2, b, c, d, e, f, g⟩
theorem wit_RayTests_hit : (∃ h, TriHits leafHit 1 (rayHit.rayBody 1) 0 h ∧
      ∀ j' h', TriHits leafHit 1 (rayHit.rayBody 1) j' h' → h.num * h'.den < h'.num * h.den ∨
        h.num * h'.den = h'.num * h.den ∧ 0 ≤ j') ∧
    (∀ j h, ¬ TriHits ([1, 0, 1] ++ List.replicate 253 0) 1 (rayHit.rayBody 1) j h) ∧
    ∃ u x, rayUnits (rayHit.rayBody 1) = some u ∧ boxEnter nodeBox (rayHit.rayBody 1) u 0 = some x := by
  refine ⟨?_, ?_, ?_⟩
  · obtain ⟨h, hh⟩ := Option.isSome_iff_exists.mp
      (by decide +kernel : (hitAt leafHit 1 (rayHit.rayBody 1) 0).isSome = true)
    refine ⟨h, (triHits_iff _ _ _ _ _).2 ⟨by decide, hh⟩, fun j' h' ht => ?_⟩
    obtain ⟨hj, h2⟩ := (triHits_iff _ _ _ _ _).1 ht
    obtain rfl : j' = 0 := by have : nByte leafHit 2 = 1 := by decide
                              omega
    cases hh.symm.trans h2; exact .inr ⟨rfl, Nat.le_refl _⟩
  · intro j h ht
    obtain ⟨hj, h2⟩ := (triHits_iff _ _ _ _ _).1 ht
    obtain rfl : j = 0 := by have : nByte ([1, 0, 1] ++ List.replicate 253 0) 2 = 1 := by decide
                             omega
    have hn : (hitAt ([1, 0, 1] ++ List.replicate 253 0) 1 (rayHit.rayBody 1) 0).isNone = true := by decide +kernel
    rw [h2] at hn; exact absurd hn Bool.false_ne_true
  · obtain ⟨x, hx⟩ := Option.isSome_iff_exists.mp
      (by decide +kernel : ((rayUnits (rayHit.rayBody 1)).bind fun u => boxEnter nodeBox (rayHit.rayBody 1) u 0).isSome = true)
    obtain ⟨u, hu, hb⟩ := Option.bind_eq_some_iff.1 hx
    exact ⟨u, x, hu, hb⟩

/-- A ray with one entry, one with eight entries (full), one with none and one spilled. -/
def rayOne : Firing := rayFire 0x0000100000000000 []
def rayFull : Firing := rayFire 0x0000800000000000 []
def raySpilt : Firing := rayFire 0x0001000000000000 []
def raySpent : Firing := rayFire 0x0008800000000000 []
/-- coreP with node 0 a transform. -/
def coreX : Core := coreP.putBs 0x10000 [4]
theorem wit_RayStack : Issues (stateOf coreP ray0) 0 0 ray0 ∧ ray0.enS h0 = true ∧ 1 ≤ (1 : Nat) ∧
    bodyOk (ray0.rayBody 1) = true ∧ bodyDepth (ray0.rayBody 1) < bodyCap (ray0.rayBody 1) ∧
    (ray0.srcS (.const 0)).toNat % 256 = 0 ∧ bodyOk (rayFull.rayBody 1) = true ∧
    bodyDepth (rayFull.rayBody 1) = bodyCap (rayFull.rayBody 1) ∧ bodySpill (rayFull.rayBody 1) < 8 ∧
    bodyOk (raySpent.rayBody 1) = true ∧ bodyDepth (raySpent.rayBody 1) = bodyCap (raySpent.rayBody 1) ∧
    bodySpill (raySpent.rayBody 1) = 8 ∧ rayFull.sqRoom 1 = true ∧ (15 : Nat) + 14 ≤ 29 ∧
    bodyStack (rayOne.rayBody 1) = [] ++ [0] ∧ bodyOk (rayOne.rayBody 1) = true ∧ bodySpill (ray0.rayBody 1) = 0 ∧
    bodyDepth (raySpilt.rayBody 1) = 0 ∧ 0 < bodySpill (raySpilt.rayBody 1) ∧ bodyOk (raySpilt.rayBody 1) = true := by
  refine ⟨issues _ _, ?_⟩; decide
/-- A region whose accesses all hit cached translations. -/
theorem region (c : Core) (f : Firing) (w : Bool) (base : W64) (num va : Nat) (os : List Nat) (h0 : base.toNat % 256 = 0)
    (h1 : va = (base.toNat + 256 * num) % 2 ^ 56)
    (h2 : ∀ o ∈ os, xlate ((stateOf c f).core 0) f.xl (privileged ((stateOf c f).core 0) 0) (if w then .regionW else .region) (va + o)
      none = .hit (va + o) false) : Region (stateOf c f) 0 0 f w base num va va os :=
  ⟨h0, h1, fun o h => ⟨false, h2 o h⟩⟩
/-- The stack after k pushes on a body's, as the statements have it. -/
def after (f : Firing) (k : Nat) : List W32 × Nat × List (Nat × List W32) :=
  pushSpec (bodyCap (f.rayBody 1)) (List.replicate k 0) (bodyStack (f.rayBody 1)) (bodySpill (f.rayBody 1))
theorem wit_RayStack_pushes : (after ray0 8).2 = (0, []) ∧ (after rayFull 2).2.1 = 1 ∧ (after rayFull 2).2.2 ≠ [] ∧
    rayFull.sqRoom (1 + (after rayFull 2).2.2.length) = true ∧ 8 < (after raySpent 1).2.1 ∧
    (∃ nd, resolveNode coreP (ray0.rayBody 1) 0 [0] = .ok nd) ∧ (∃ nd, resolveNode coreP (rayFull.rayBody 1) 0 [0] = .ok nd) ∧
    Region (stateOf coreP rayFull) 0 0 rayFull true 0x100 (rayNum (rayFull.rayBody 1)) 0x100 0x100
      (8 :: 0x80 :: (after rayFull 2).2.2.map (·.1)) ∧
    Region (stateOf coreP raySpilt) 0 0 raySpilt false 0x100 (rayNum (raySpilt.rayBody 1)) 0x100 0x100 [0x80] ∧
    ∃ nd, resolveNode coreX (rayFull.rayBody 1) 0x400 [4] = .ok nd :=
  ⟨by decide, by decide, by decide, by decide, by decide, ⟨_, rfl⟩, ⟨_, rfl⟩,
    region _ _ _ _ _ _ _ (by decide +kernel) (by decide +kernel) (by decide +kernel),
    region _ _ _ _ _ _ _ (by decide +kernel) (by decide +kernel) (by decide +kernel), ⟨_, rfl⟩⟩
theorem wit_RayTransfers : (∀ o ∈ [0, 8, 0x70], Region (stateOf coreP ray0) 0 0 ray0 false 0x100 0 0x100 0x100 [o] ∧
      Region (stateOf coreP ray0) 0 0 ray0 true 0x100 3 0x400 0x400 [o]) ∧ ray0.sqRoom 1 = true ∧
    (∀ e, e ∈ ray0.sq → ∀ cs, e.op ≠ .rwrite cs) ∧ MaySend (stateOf coreP ray0) 0 ray0 1 ∧ coreP.sendBuf.length < 16 ∧
    (∀ e ∈ coreP.canopy, e.h = 5 → e.owners = []) ∧
    (∃ e, ({ canopy := [⟨5, [7]⟩] } : Core).canopy.find? (fun e => e.h == 5) = some e ∧ e.owners ≠ []) ∧
    coreExists sM 0x1000 = false ∧ coreExists sM 1 = true := by
  unfold MaySend
  have hr : ∀ o ∈ [0, 8, 0x70], ∀ o' ∈ [o],
      xlate ((stateOf coreP ray0).core 0) ray0.xl (privileged ((stateOf coreP ray0).core 0) 0) .region (0x100 + o') none =
        .hit (0x100 + o') false ∧
      xlate ((stateOf coreP ray0).core 0) ray0.xl (privileged ((stateOf coreP ray0).core 0) 0) .regionW (0x400 + o') none =
        .hit (0x400 + o') false := by decide +kernel
  exact ⟨fun o h => ⟨region _ _ false _ _ _ _ (by decide) (by decide) fun o' h' => (hr o h o' h').1,
      region _ _ true _ _ _ _ (by decide) (by decide) fun o' h' => (hr o h o' h').2⟩, rfl, fun _ h => (List.not_mem_nil h).elim, ⟨rfl, rfl, rfl, by decide⟩,
    by decide, by decide, ⟨_, rfl, by decide⟩,
    by decide⟩

/-- The core's ASID is the Canopy ASID; slot 1 being loaded with state 1, slot 3 resident. -/
def coreC : Core :=
  { coreP with pinned := coreP.pinned.set 1 ⟨0x400, 0⟩ }
def dir0 : List W64 := [0, 0, 0, 1]
theorem wit_Residency : Issues (stateOf coreC fireM) 0 0 fireM ∧ fireM.enS h0 = true ∧
    ((stateOf coreC fireM).core 0).asid = (stateOf coreC fireM).canopyAsid ∧
    ((stateOf { coreC with asid := 1 } fireM).core 0).asid ≠ (stateOf { coreC with asid := 1 } fireM).canopyAsid ∧
    Resolves (coreC.pinned.getD 3 {}) 0 0 ∧ (∀ k, k < 3 → ¬ Resolves (coreC.pinned.getD k {}) 0 0) ∧
    (∀ k, k < 16 → ¬ Resolves (coreC.pinned.getD k {}) 9 0) ∧ (coreC.pinned.getD 2 {}).w0.toNat / 2 ^ 10 % 4 ≠ 1 ∧
    (coreC.pinned.getD 1 {}).w0.toNat / 2 ^ 10 % 4 = 1 ∧ fireM.sqRoom 1 = true ∧ pinState (coreC.pinned.getD 3 {}) = 3 ∧
    pinState (coreC.pinned.getD 0 {}) ≠ 3 ∧ (15 : Nat) < (0x100 : W64).toNat ∧
    slotChange coreC 2 {} ⟨0x400, 0x20000⟩ = some ⟨0x400, 0x20000⟩ ∧ slotChange coreC 2 {} {} = none ∧
    ceFormed (stateOf coreC fireM) 0 dir0 = true ∧ ceFormed (stateOf coreC fireM) 0 [0xFFFFFFFFFFFFFFFF, 0, 0, 0] = false := by
  unfold Resolves
  refine ⟨issues _ _, ?_⟩; decide
/-- Table 15-1's other changes: a reserved slot freed, a pinned one superseded, a pinned one reserved again. -/
theorem wit_Residency_changes : slotChange coreC 1 ⟨0x400, 0⟩ {} = some {} ∧
    (slotChange coreC 3 ⟨0xC00, 0x10000⟩ ⟨0x18C00, 0x10000⟩).isSome = true ∧
    (slotChange coreC 3 ⟨0xC00, 0x10000⟩ ⟨0x400, 0x10000⟩).isSome = true := by decide
/-- A ray with LOG and REPLAY set, and two records of ray 0: a box result and a triangle result. -/
def rayLog : Firing := rayFire 0x00C0000000000000 []
def recBox : List Byte := leN 8 0x0001000000000000 ++ List.replicate 24 0
def recTri : List Byte := leN 8 0x0002000000000000 ++ List.replicate 24 0
theorem wit_LogAndReplay : (0x101 : W64).toNat % 8 ≠ 0 ∧ (0x100 : W64).toNat % 8 = 0 ∧
    Passes sM 0 0 fireM .atomic 8 0x100 0x100 false ∧ fireM.sqRoom 1 = true ∧ nzBad 0 = false ∧ nzBad 0xFFFFFFFFFFFFFFFF = true ∧
    Issues (stateOf coreP rayLog) 0 0 rayLog ∧ rayLog.enS h0 = true ∧ bodyOk (rayLog.rayBody 1) = true ∧
    (bodyW (rayLog.rayBody 1) 13).getLsbD 55 = true ∧ (bodyW (rayLog.rayBody 1) 13).getLsbD 54 = true ∧
    bodyOk (ray0.rayBody 1) = true ∧ (bodyW (ray0.rayBody 1) 13).getLsbD 55 = false ∧
    bodyOk ((rayFire 0x9000000000000 []).rayBody 1) = false ∧
    qcheck (stateOf (coreP.putBs 0x1000 (leN 8 0x0200000000000000)) rayLog) 0 0x1000 none = none ∧
    rayLog.rel = none ∧ coreP.placing rayLog = false ∧ (0x100 : W64).toNat % 32 = 0 ∧ rayLog.hold = .none ∧
    xlate coreP rayLog.xl (privileged coreP 0) .region 0x100 none = .hit 0x100 false ∧
    recordOk (rayLog.rayBody 1) false recBox = true ∧ recordOk (rayLog.rayBody 1) true recTri = true ∧
    recordOk (rayLog.rayBody 1) false recTri = false ∧ recordOk (rayLog.rayBody 1) true recBox = false := by
  refine ⟨by decide, by decide, ⟨rfl, rfl, rfl⟩, rfl, by decide, by decide, issues _ _, ?_⟩; decide
theorem wit_LogAndReplay_returns : (0 : W64).toNat / 2 ^ 12 % 16 = 0 ∧ (0 : W64).toNat / 2 ^ 16 % 2 ^ 16 = (0 : W32).toNat / 2 ^ 16 ∧
    (0 : W64).toNat % 256 = (0 : W32).toNat % 256 ∧ (5 : BitVec 6) ≠ 0 ∧ (5 : BitVec 6).toNat < (6 : BitVec 6).toNat ∧
    (0x800 : W64).getLsbD 11 = true ∧ (4 : BitVec 6).toNat + 2 ≤ (6 : BitVec 6).toNat ∧
    isF32 (rayLog.rayBody 1) = false ∧ isF32 ((rayFire 0x20000000000000 []).rayBody 1) = true ∧
    (∀ b, Fmt.f32.decode (bodyHalf ((rayFire 0x20000000000000 []).rayBody 1) 4 true).toNat ≠ .nan b) := by decide
/-- A context with two commands issued and one complete, and one whose first command failed. -/
def coreE (err : W64) : Core := { coreM with ctxs := [{ i := 2, c := 1, err := err }, {}, {}, {}] }
theorem wit_EngineCommands : Issues (stateOf (coreE 0) fireM) 0 0 fireM ∧ fireM.enS h0 = true ∧
    engCheck (stateOf (coreE 0) fireM) 0 0 1 0 0x100 0x200 64 false none = none ∧
    engCheck (stateOf (coreE 0) fireM) 0 0 0 1 0x100 0x200 64 false none = none ∧
    engCheck (stateOf (coreE 0) fireM) 0 0 1 0 0x100 0 64 true none = none ∧
    (∃ tc, engCheck (stateOf (coreE 0) fireM) 0 0 1 0 0x101 0x200 64 false none = some tc) ∧
    CtxFree (stateOf (coreE 0) fireM) 0 fireM 0 (some 2) ∧ (0 : Nat) < (coreE 0).ctxs.length ∧
    ((coreE 0).ctx 0).i.toNat < 3 ∧ 2 ≤ ((coreE 0).ctx 0).i.toNat ∧ ((coreE 0).ctx 0).c.toNat < 2 ∧
    1 ≤ ((coreE 0).ctx 0).c.toNat ∧ ((coreE 0).ctx 0).err = 0 ∧ ((coreE 1).ctx 0).err ≠ 0 ∧
    ((coreE 1).ctx 0).err.toNat % 2 ^ 48 ≤ 1 := by
  unfold CtxFree MaySend
  exact ⟨issues _ _, by decide, by decide, by decide, by decide, ⟨_, rfl⟩, ⟨by decide, by decide, rfl, fun _ => ⟨rfl, rfl, rfl, by decide⟩⟩,
    by decide⟩
/-- A sampler descriptor of zeros: base 0, pitch 0, one texel. -/
def sdOne : List Byte := List.replicate 32 0
theorem wit_QueuedLaneUnits_sampler : Issues (stateOf coreM waveM) 0 0 waveM ∧ waveM.enS h0 = true ∧
    (0x101 : W64).toNat % 32 ≠ 0 ∧ SpadOk coreM 0x100 32 ∧ sdFormed sdOne = true ∧
    sdFormed (List.replicate 31 0 ++ [1]) = false ∧ actLanes waveM h0 0 ≠ [] ∧ coreM.sampQ.length < 8 ∧
    (∃ xs, planTexels coreM 0 waveM ((actLanes waveM h0 0).flatMap fun L =>
      ((taps sdOne true (waveM.getV 1 L) (waveM.getV 2 L)).getD []).map fun t => (L, texelVa sdOne t.1.1 t.1.2)) = .ok xs) ∧
    ∀ q ∈ coreM.sampQ, q.slot ≠ 0 := by
  unfold SpadOk
  refine ⟨issues _ _, by decide, by decide, by decide, by decide, ?_⟩
  exact ⟨by decide, by decide, by decide, ⟨_, rfl⟩, by decide⟩

/-! System instructions. -/

/-- A privileged firing, its core running the package's ASID 0 as kernel, and a user core (ASID 1). -/
def coreU : Core := { coreM with asid := 1 }
theorem wit_SpecialRegisters : privileged coreM 0 = true ∧ privileged coreU 0 = false ∧ (0 : Nat) ≤ trapSlot ∧
    (∀ m, coreM.mat = some m → m.slot ≠ 0) ∧ srValue (stateOf coreM fireM) 0 0 fireM 0x100 coreM.tvec ∧ fireM.enS h0 = true ∧
    (5 : W64).toNat < 2 ^ 48 ∧ ({ coreM with report := 5 } : Core).report.toNat ≤ (5 : W64).toNat ∧ (4 : W64) ≠ 0xFFFFFFFFFFFFFFFF ∧
    (4 : W64).toNat < ({ coreM with report := 5 } : Core).report.toNat ∧ (0x81001 : W64).getLsbD 0 = true ∧
    coreM.wsLo ≤ (0x81001 : W64).toNat / 1024 * 1024 ∧ (0x81001 : W64).toNat / 1024 * 1024 + 2048 ≤ coreM.wsHi ∧
    (∀ e ∈ coreM.live, twsMeets 0x81001 e.2 = false) := by
  refine ⟨rfl, rfl, by decide, by simp [coreM], rfl, ?_⟩; decide
/-- A value with zero-bits and one without, of each register that has them. -/
theorem wit_SpecialRegisters_zeroBits :
    (∀ x ∈ ([(0x100, 0x1001), (0x101, 0x81001), (0x102, 0x1000), (0x103, 0x100000), (0x104, 5), (0x106, 5)] : List (Nat × W64)),
      zeroBits x.1 x.2) ∧
    ∀ x ∈ ([(0x100, 0x1003), (0x101, 0x81002), (0x102, 1), (0x103, 0x100001), (0x105, 2), (0x107, 0x100000000000000)] :
      List (Nat × W64)), ¬ zeroBits x.1 x.2 := by
  unfold zeroBits; decide
/-- A next state of which a check holds. -/
theorem nextSuch {o : Out} {P : State → Bool} (h : (match o with | .next t => P t | _ => false) = true) :
    ∃ t, o = .next t ∧ P t = true := by
  cases o with
  | next t => exact ⟨t, rfl, h⟩
  | _ => exact absurd h Bool.false_ne_true
theorem noMat {m : Option MatOp} {sl : Nat} (h : m = none) : ∀ x, m = some x → x.slot ≠ sl := fun x hx => by rw [h] at hx; cases hx
theorem wit_TakingTraps : sM.firing 0 0 = some fireM ∧ (0 : Nat) ≠ trapSlot ∧ (∀ m, (sM.core 0).mat = some m → m.slot ≠ 0) ∧
    (∀ L, (causeAt 0x09 .read 5 (some 31)).lane = some L → L < 32) ∧ (cause 0x0D).code = 0x0D ∧
    ({ code := 0x1A, next := true } : TrapCause).next = true ∧ (cause 0x0B).next = false := by
  refine ⟨rfl, by decide, noMat rfl, ?_, rfl, rfl, rfl⟩
  intro L h; cases h; decide
/-- A firing whose matrix operation meets an enabled exception. -/
def fMat : Firing := { fireM with fpst := 0x10000 }
def mat0 (fl : BitVec 6) : MatOp := ⟨0, 0x1000, 0, 1, 1, [], fl⟩
theorem wit_TakingTraps_fpx : (stateOf { coreM with mat := some (mat0 1) } fMat).firing 0 0 = some fMat ∧ (0 : Nat) ≠ trapSlot ∧
    ((stateOf { coreM with mat := some (mat0 1) } fMat).core 0).mat = some (mat0 1) ∧ (mat0 1).slot = 0 ∧
    fpxHits fMat (mat0 1).flags = true := ⟨rfl, by decide, rfl, rfl, by decide⟩
/-- A core whose trap handler runs for slot 0, and the same with a user firing in slot 0 stopped by a trap. -/
def stopped (stop : BitVec 4) (last : Byte) : Firing := { fireM with stop := stop, last := last, trec := List.replicate 8 0x1000 }
def handler : Firing := { fireAt 0x3000 [] with wp := 0x81000, pri := 7 }
def twoFirings (g : Firing) : State := { State.reset with cores := [(0, { coreM with firings := [(0, g), (64, handler)], subject := some 0 })], who := some (0, 64) }
theorem wit_TakingTraps_double : (twoFirings (stopped 1 0x0B)).firing 0 trapSlot = some handler ∧
    ((twoFirings (stopped 1 0x0B)).core 0).fpxDue trapSlot = none := ⟨rfl, rfl⟩
theorem wit_TrapForms : Issues sM 0 0 fireM ∧ (0 : Nat) ≠ trapSlot ∧ (sM.core 0).fpxDue 0 = none ∧ fireM.enS h0 = true ∧ fireM.enS hOff = false ∧
    privileged coreU 0 = false ∧ privileged coreM 0 = true ∧ Issues (twoFirings (stopped 1 0x0B)) 0 64 handler ∧
    handler.enS h0 = true ∧ (64 : Nat) = trapSlot ∧ endReady ((twoFirings (stopped 1 0x0B)).core 0) 64 handler = true ∧
    handler.rel = none ∧ ((twoFirings (stopped 1 0x0B)).core 0).placing handler = false ∧
    releaseDone (twoFirings (stopped 1 0x0B)) 0 handler handler.seq false = true ∧ handler.owed = none ∧
    ((twoFirings (stopped 1 0x0B)).core 0).subject = some 0 ∧
    (twoFirings (stopped 1 0x0B)).firing 0 0 = some (stopped 1 0x0B) ∧ (stopped 1 0x0B).stop = 1 ∧
    (twoFirings fireM).firing 0 0 = some fireM ∧ fireM.stop ≠ 1 :=
  ⟨issues _ _, by decide, rfl, by decide, by decide, rfl, rfl, ⟨rfl, rfl⟩, by decide⟩
theorem wit_ActingOnOthers : Issues (twoFirings (stopped 1 0x0B)) 0 64 handler ∧
    privileged ((twoFirings (stopped 1 0x0B)).core 0) 64 = true ∧ handler.enS h0 = true ∧ (64 : Nat) ≤ trapSlot ∧
    reissues (twoFirings (stopped 1 0x0B)) 0 0 (stopped 1 0x0B) = [] ∧ (handler.srcS (.const 0)).toNat % 64 = 0 ∧ (0 : Nat) ≠ 64 ∧ (twoFirings fireM).firing 0 5 = none ∧
    (twoFirings (stopped 1 0x0B)).firing 0 0 = some (stopped 1 0x0B) ∧ MayAct 64 handler (stopped 1 0x0B) ∧
    ¬ MayAct 64 handler { fireM with ltag := 9 } ∧ (stopped 1 0x0B).cur < (stopped 1 0x0B).paths.length ∧
    (stopped 1 0x0B).tailOk = true ∧ (stopped 2 0).stop = 2 ∧ fireM.stop = 0 ∧ (stopped 1 0x0E).last = 0x0E ∧
    (∀ x, ((twoFirings fireM).core 0).mat = some x → x.slot ≠ 0) ∧ 8 % 8 = 0 ∧ 8 < wsBytes (stopped 1 0x0B).nv ∧
    wsBytes (stopped 1 0x0B).nv ≤ 0x100000 := by
  unfold MayAct
  refine ⟨⟨rfl, rfl⟩, rfl, by decide, by decide, rfl, by decide, by decide, rfl, rfl, fun _ => rfl, by decide, by decide, ?_⟩
  exact ⟨by decide, rfl, rfl, rfl, noMat rfl, by decide⟩
/-- A firing set going by FRESUME.STEP, and by FRESUME.OUT in its own frame and one deeper, after one instruction. -/
theorem wit_ActingOnOthers_step : sM.firing 0 0 = some fireM ∧ (sM.core 0).fpxDue 0 = none ∧ fireM.stop = 0 ∧
    fireM.seq ≠ ({ fireM with seq := 7, mode := 1 } : Firing).seq ∧ fireM.hold ≠ .replay ∧ fireM.badDep = none ∧
    ({ fireM with mode := 2 } : Firing).depth = 0 ∧ ({ fireM with mode := 2, depth := 1 } : Firing).depth ≠ 0 ∧
    fireM.enS h0 = true := by decide
/-- Every core of the package swapped out. -/
def sSwapped : State :=
  { State.reset with cores := (List.range 1024).map fun n => (n, { cstate := 2 }) }
theorem spFind_const {α : Type} (x : α) (l : List Nat) (n : Nat) (h : n ∈ l) : spFind (l.map fun n => (n, x)) n = some x := by
  induction l with
  | nil => cases h
  | cons a l ih =>
    by_cases e : n = a
    · simp [spFind, e]
    · simp [spFind, e, ih (by simpa [e] using h)]
theorem sSwapped_core (n : Nat) (h : n < 1024) : (sSwapped.core n).cstate = 2 := by
  unfold State.core sSwapped; rw [spFind_const _ _ _ (List.mem_range.2 h)]; rfl
theorem wit_PreemptForms : Issues sM 0 0 fireM ∧ privileged (sM.core 0) 0 = true ∧ fireM.enS h0 = true ∧
    coreExists sM 0x1000 = false ∧ coreExists sM 1 = true ∧ 1 / 4096 = sM.pkg.toNat ∧ 0x1001 / 4096 ≠ sM.pkg.toNat ∧ siteActive sM (siteOfDie sM 0) = true ∧
    siteActive sM 1 = true ∧ siteOfDie sM 0 ≠ 1 ∧ (sM.core (512 * 0 + 0)).cstate ≠ 2 ∧
    siteActive { sM with part := .pz47 7 } 7 = false ∧ sSwapped.remaps = [] ∧
    ∀ c, c < 512 → (sSwapped.core (512 * 0 + c)).cstate = 2 ∧ (sSwapped.core (512 * dieOfSite sSwapped 1 + c)).cstate = 2 :=
  ⟨issues _ _, rfl, by decide, by decide, by decide, by decide, by decide, by decide, by decide, by decide, by decide,
    by decide, rfl, fun c h => ⟨sSwapped_core _ (by omega), by
      have e : dieOfSite sSwapped 1 = 1 := by decide +kernel
      rw [e]; exact sSwapped_core _ (by omega)⟩⟩
theorem wit_Privilege : isP (.tret ⟨h0⟩) = true ∧ Issues (stateOf coreU fireM) 0 0 fireM ∧
    privileged ((stateOf coreU fireM).core 0) 0 = false := ⟨rfl, issues _ _, rfl⟩
theorem wit_UnitFrame : unitDest (.vtget ⟨h0, 5⟩) = some ([5], [], [], false, false, false) ∧ Issues sM 0 0 fireM ∧
    (∃ t g, exec (.vtget ⟨h0, 5⟩) sM = .next t ∧ t.firing 0 0 = some g ∧ g.stop = 0) ∧
    unitDest (.gpost ⟨h0, 8, 2⟩) = some ([], [], [], false, false, true) ∧
    ∃ t, exec (.gpost ⟨h0, 8, 2⟩) (stateOf coreH thread) = .next t ∧
      ((t.firing 0 0).any fun g => g.stop == 0 && (t.core 0).spTail == ((stateOf coreH thread).core 0).spTail) = true :=
  ⟨rfl, issues _ _, ⟨_, _, rfl, rfl, rfl⟩, rfl, nextSuch (by decide +kernel)⟩

/-! Events. -/

/-- A message in flight to core 0; one to core 0x1000, of package 1; one for glade 2; one for the ill-formed entry 19. -/
def fl0 : Flight := ⟨1, msg0, none⟩
def msgFar : Msg := { msg0 with dst := 0x1000 }
def msgGl : Msg := { msg0 with ch := 3, hid := 18, len := 6, body := [3, 0, 0, 0, 0, 0] }
def msgBad : Msg := { msg0 with hid := 19 }
/-- Handler 19 is valid and not well formed. -/
def coreBad : Core := putWords coreH (0x2000 + 32 * 19) [0x1001, hw1]
theorem wit_MessageTransport_departs : ({ sendBuf := [fl0] } : Core).sendBuf = fl0 :: [] ∧ ({} : Core).sendvQ = [] ∧
    State.reset.remaps = [] ∧ msg0.dst.toNat / 4096 = State.reset.pkg.toNat ∧ msgFar.dst.toNat / 4096 ≠ State.reset.pkg.toNat ∧
    (∃ x ∈ ({ State.reset.host with lysState := [1] } : HostSt).lysState, x ≠ 0) ∧ (∀ x ∈ State.reset.host.lysState, x = 0) ∧
    dieOf (msg0.dst.toNat % 4096) = (⟨0, 1, 0, 0, 0⟩ : RemapSt).die := by decide
theorem wit_MessageTransport : [fl0, fl0][1]? = some fl0 ∧ msg0.ch ≠ 2 ∧
    (∃ x ∈ [fl0, fl0].take 1, x.src = fl0.src ∧ x.msg.dst = msg0.dst ∧ x.msg.ch = msg0.ch) ∧
    (∀ x ∈ [fl0].take 0, ¬(x.src = fl0.src ∧ x.msg.dst = msg0.dst ∧ x.msg.ch = msg0.ch)) ∧
    (∃ e, Accepts coreH msg0 e) ∧ coreH.inboxFlits msg0.ch + flits msg0 ≤ 32 ∧
    32 < ({ coreH with inbox := List.replicate 32 ⟨1, msg0, none⟩ } : Core).inboxFlits 1 + flits msg0 ∧
    64 * flits msg0 ≤ (1 : W64).toNat * 4096 ∧ ({ cstate := 2 } : Core).cstate = 2 ∧ ({ waitSaid := true } : Core).waitSaid = true := by
  refine ⟨rfl, by decide, ⟨fl0, List.mem_cons_self, rfl, rfl, rfl⟩, by simp, ?_, by decide⟩
  obtain ⟨e, he⟩ := Option.isSome_iff_exists.mp (by decide +kernel : ((coreH.entry msg0.hid.toNat).filter fun e =>
    !e.glade && msg0.ch.toNat == e.src && msg0.ord == e.ord).isSome = true)
  obtain ⟨h1, h2⟩ := Option.filter_eq_some_iff.mp he
  simp only [Bool.and_eq_true, Bool.not_eq_true', beq_iff_eq] at h2
  exact ⟨e, rfl, rfl, rfl, h1, h2.1.1, h2.1.2, h2.2⟩
/-- A message behind a spilled one of its channel, one past a full inbox, one at a pre-empted core; and a queue with room, one
without, one that has said so. -/
def coreSp : Core := { coreH with spill := [.msg ⟨1, msg0, none⟩], spqsz := 1 }
theorem wit_MessageTransport_spills : MustSpill coreSp msg0 ∧ MustSpill { coreH with inbox := List.replicate 32 ⟨1, msg0, none⟩ } msg0 ∧
    MustSpill { cstate := 2 } msg0 ∧ ¬ ChanSpilled coreH msg0.ch ∧ coreSp.spillRoom (64 * flits msg0) = true ∧
    coreH.spillRoom (64 * flits msg0) = false ∧ coreH.spillSaid = false ∧ ({ coreH with spillSaid := true } : Core).spillSaid = true := by
  have ha : ∃ e, Accepts { coreH with inbox := List.replicate 32 ⟨1, msg0, none⟩ } msg0 e := by
    obtain ⟨e, he⟩ := Option.isSome_iff_exists.mp (by decide +kernel : ((coreH.entry msg0.hid.toNat).filter fun e =>
      !e.glade && msg0.ch.toNat == e.src && msg0.ord == e.ord).isSome = true)
    obtain ⟨h1, h2⟩ := Option.filter_eq_some_iff.mp he
    simp only [Bool.and_eq_true, Bool.not_eq_true', beq_iff_eq] at h2
    exact ⟨e, rfl, rfl, rfl, h1, h2.1.1, h2.1.2, h2.2⟩
  obtain ⟨e, he⟩ := ha
  refine ⟨.inr (.inr (.inr ⟨⟨1, msg0, none⟩, List.mem_cons_self, rfl⟩)), .inl ⟨e, he, by decide⟩, .inr (.inl rfl), ?_, by decide,
    by decide, rfl, rfl⟩
  rintro ⟨q, h, _⟩; exact (List.not_mem_nil h).elim
theorem wit_MessageTransport_glade : ((coreH.entry msgGl.hid.toNat).map fun e => (e.glade, e.src)) = some (true, 2) ∧
    refusal coreH msgGl = none ∧ (msgGl.body.getD 0 0).toNat % 32 = 3 ∧ 3 < (coreH.glade 2).cols.length ∧
    ((coreH.glade 2).col 3).length < (coreH.glade 2).depth ∧ msgGl.body.length = 6 ∧ 2 < coreH.glades.length := by decide +kernel
theorem wit_MessageTransport_refused : refusal coreH { msg0 with hid := 9 } = some 3 ∧ coreH.entryBad 9 = false ∧
    coreBad.loading = false ∧ coreBad.cstate = 0 ∧ coreBad.entryBad msgBad.hid.toNat = true ∧ msgBad.hid.toNat ∉ coreBad.metBad ∧
    capReady State.reset 4 = false ∧ State.reset.host.held.length + 1 < 1024 := by decide +kernel
/-- One message queued for handler 17. -/
def coreF : Core := { coreH with inbox := [⟨1, msg0, none⟩] }
theorem wit_FiringCreation : (∃ x sl wp, coreF.firstCand = some x ∧ coreF.freeSlot = some sl ∧
      coreF.wsAlloc (wsBytes x.e.nv) = some wp ∧ coreF.candOf 17 = some x ∧ x.take = .msgs [⟨1, msg0, none⟩] ∧ x.e.wave = false) ∧
    Forms coreF ∧ EntriesMet coreF ∧ coreF.needsPurge = false ∧ ¬ Forms {} ∧ ¬ Forms { coreF with swapping := true } := by
  have hx : (coreF.firstCand.filter fun x => (coreF.wsAlloc (wsBytes x.e.nv)).isSome && (coreF.candOf 17 == some x) &&
    (x.take == .msgs [⟨1, msg0, none⟩]) && !x.e.wave).isSome = true := by decide +kernel
  refine ⟨?_, ⟨rfl, rfl, rfl, rfl⟩, by unfold EntriesMet; decide +kernel, by decide +kernel, by unfold Forms; decide, by unfold Forms; decide⟩
  obtain ⟨x, hx⟩ := Option.isSome_iff_exists.mp hx
  obtain ⟨h1, h2⟩ := Option.filter_eq_some_iff.mp hx
  simp only [Bool.and_eq_true, Bool.not_eq_true', beq_iff_eq] at h2
  obtain ⟨wp, hw⟩ := Option.isSome_iff_exists.mp h2.1.1.1
  obtain ⟨sl, hs⟩ := Option.isSome_iff_exists.mp (by decide : coreF.freeSlot.isSome = true)
  exact ⟨x, sl, wp, h1, hs, hw, h2.1.1.2, h2.1.2, h2.2⟩
theorem entryOf_of {c : Core} {h : Nat} {p : HandlerEntry → Bool} (hp : ((c.entry h).filter p).isSome = true) :
    ∃ e, c.entry h = some e ∧ p e = true := by
  obtain ⟨e, he⟩ := Option.isSome_iff_exists.mp hp
  obtain ⟨h1, h2⟩ := Option.filter_eq_some_iff.mp he
  exact ⟨e, h1, h2⟩
/-- Candidates: handler 17, unordered, and with its ord bit (bit 2 of word 1); a message that no blocked RECV holds, one that came
to a blocked firing, one left for such a firing. -/
def coreOrd : Core := { putWords coreH (0x2000 + 32 * 17) [0x1000, hw1 ||| 4] with inbox := [⟨1, { msg0 with ord := true }, none⟩] }
def coreHeld : Core := { coreF with firings := [(0, { threadR with hold := .recv })] }
theorem wit_FiringCreation_candidates : (∃ e, MayRun coreF 17 e ∧ e.glade = false ∧ e.ord = false) ∧
    (∃ e, MayRun coreOrd 17 e ∧ e.glade = false ∧ e.ord = true ∧ 1 ≤ e.k ∧ [(⟨1, { msg0 with ord := true }, none⟩ : Queued)].length = e.k) ∧
    (∀ tag, coreOrd.blockedRecv (BitVec.ofNat 8 17) tag = []) ∧ ((coreOrd.undelivered (BitVec.ofNat 8 17)).map (·.arr)).Nodup ∧
    ⟨1, { msg0 with ord := true }, none⟩ ∈ coreOrd.undelivered (BitVec.ofNat 8 17) ∧ msg0.stamp.toNat ≤ coreOrd.hz.toNat ∧
    (coreF.inbox.map (·.arr)).Nodup ∧ (∃ y, coreF.candOf 17 = some y) ∧ (∃ y, coreOrd.candOf 17 = some y) ∧
    ¬ Held coreF ⟨1, msg0, none⟩ ∧ Held coreHeld ⟨1, msg0, none⟩ ∧ Held coreG ⟨1, msg0, some 1⟩ := by
  obtain ⟨e, h1, h2⟩ := entryOf_of (by decide +kernel : ((coreF.entry 17).filter fun e => !e.glade && !e.ord && !e.ser).isSome = true)
  obtain ⟨e', h3, h4⟩ := entryOf_of (by decide +kernel : ((coreOrd.entry 17).filter fun e => !e.glade && e.ord && !e.ser && e.k == 1).isSome = true)
  simp only [Bool.and_eq_true, Bool.not_eq_true', beq_iff_eq] at h2 h4
  have nser : ∀ x : HandlerEntry, x.ser = false → ∀ P, x.ser = true → P := fun x h P k => absurd (h.symm.trans k) Bool.false_ne_true
  refine ⟨⟨e, ⟨by decide, h1, rfl, nser e h2.2 _⟩, h2.1.1, h2.1.2⟩,
    ⟨e', ⟨by decide, h3, rfl, nser e' h4.1.2 _⟩, h4.1.1.1, h4.1.1.2, h4.2.ge, h4.2.symm⟩, fun _ => rfl, ?_, by decide +kernel, by decide +kernel, by decide, ?_, ?_,
    ?_, .inr (by decide +kernel), .inl ⟨1, by decide +kernel⟩⟩
  · decide +kernel
  · exact Option.isSome_iff_exists.mp (by decide +kernel)
  · exact Option.isSome_iff_exists.mp (by decide +kernel)
  · rintro (⟨u, h⟩ | h)
    · rw [show coreF.keptFor ⟨1, msg0, none⟩ = none by decide +kernel] at h; cases h
    · exact absurd h (by decide +kernel)
/-- A wave handler of four messages and sixteen registers. -/
def coreW : Core := { putWords coreH (0x2000 + 32 * 17) [0x1000, 0x0000020800040103] with inbox := (List.range 4).map fun k => ⟨k + 1, msg0, none⟩ }
theorem wit_FiringCreation_wave : (coreW.firstCand.map fun x => (x.e.wave, x.take == .msgs coreW.inbox)) = some (true, true) := by
  decide +kernel
/-- Core coreH with one record in column 3 of its glade, and that glade with its timer running. -/
def rec3 : GRec := ⟨1, 0, [3, 0, 0, 0, 0, 0]⟩
def coreGl : Core := { coreH with glades := [{}, {}, { decl := true, depth := 1, cols := (List.replicate 32 []).set 3 [rec3], running := true }] }
theorem wit_FiringCreation_glade : (coreGl.firstCand.map fun x => (x.h, x.take)) = some (18, .recs 2 [(3, rec3)]) ∧
    (coreGl.glade 2).cols.length ≤ 32 ∧ (coreGl.glade 2).running = true ∧ (coreGl.glade 2).expired = false ∧
    (∃ l, (coreGl.glade 2).col l ≠ []) := ⟨by decide +kernel, by decide, rfl, rfl, 3, by decide⟩
/-- Glade 2's handler over a record in one column, whose timer has run out, and over none. -/
theorem wit_FiringCreation_formation : (∃ e, MayRun coreGl 18 e ∧ e.glade = true ∧ coreGl.gladeOk e.src = true ∧
      (coreGl.glade e.src).cols.length = 32) ∧ HeadAt (coreGl.glade 2) 3 rec3 ∧ ¬ Formation (coreH.glade 2) ∧
    Formation { coreGl.glade 2 with thr := 1, expired := true } ∧ Formation { coreGl.glade 2 with flush := true } ∧
    Formation { cols := List.replicate 32 [rec3] } := by
  obtain ⟨e, h1, h2⟩ := entryOf_of (by decide +kernel : ((coreGl.entry 18).filter fun e => e.glade && !e.ser && e.src == 2).isSome = true)
  simp only [Bool.and_eq_true, Bool.not_eq_true', beq_iff_eq] at h2
  have hd : HeadAt (coreGl.glade 2) 3 rec3 := ⟨by decide, rfl⟩
  refine ⟨⟨e, ⟨by decide, h1, rfl, fun k => absurd (h2.1.2.symm.trans k) Bool.false_ne_true⟩, h2.1.1, by rw [h2.2]; decide +kernel,
      by rw [h2.2]; decide⟩, hd, ?_, ⟨⟨3, rec3, hd⟩, .inr (.inl ⟨by decide, rfl⟩)⟩, ⟨⟨3, rec3, hd⟩, .inr (.inr rfl)⟩,
    ⟨⟨0, rec3, by decide, rfl⟩, .inl (by decide)⟩⟩
  rintro ⟨⟨l, r, hl, h⟩, _⟩
  have : ∀ l < 32, (coreH.glade 2).col l = [] := by decide
  rw [this l hl] at h; cases h
/-- A message for the ill-formed entry; and one of a cancelled launch. -/
def coreMet : Core := { coreBad with inbox := [⟨1, msgBad, none⟩] }
def corePurge : Core := { coreF with inbox := [⟨1, { msg0 with ltag := 5 }, none⟩], filter := [5], glades := [] }
theorem wit_FiringCreation_met : Forms coreMet ∧ 19 ∈ coreMet.busyHandlers ∧ coreMet.entryBad 19 = true ∧ 19 ∉ coreMet.metBad ∧
    ∀ h' ∈ coreMet.busyHandlers, coreMet.entryBad h' = true → h' ∈ coreMet.metBad ∨ h' = 19 :=
  ⟨⟨rfl, rfl, rfl, rfl⟩, by decide +kernel⟩
theorem wit_FiringCreation_purge : Forms corePurge ∧ EntriesMet corePurge ∧ corePurge.needsPurge = true ∧
    corePurge.filterWait = [] ∧ corePurge.glades = [] :=
  ⟨⟨rfl, rfl, rfl, rfl⟩, by unfold EntriesMet; decide +kernel, by decide +kernel, rfl, rfl⟩
/-- A block of NOPs at 0x1000 in the instruction cache. -/
def nops : List Byte := (List.replicate 4 (bytesLE 8 (0x801 : W64))).flatten
def coreI : Core := { coreM with l1i := [⟨0x80, 0, 0x3D, nops⟩] }
theorem wit_FiringCreation_ageing : (stateOf coreI thread).firing 0 0 = some thread ∧
    mayLook ((stateOf coreI thread).core 0) 0 thread = true ∧ thread.stop = 0 ∧ thread.rel = none ∧ thread.badDep = none ∧
    look (stateOf coreI thread) 0 0 thread = .go (stateOf coreI thread) (.nop ⟨h0, .l64⟩) .l64 ∧
    scoreReady ((stateOf coreI thread).core 0) 0 thread (.nop ⟨h0, .l64⟩) = true ∧
    fpxReady ((stateOf coreI thread).core 0) 0 thread = true ∧ unitReady (stateOf coreI thread) 0 thread (.nop ⟨h0, .l64⟩) = true ∧
    (trial (.nop ⟨h0, .l64⟩)).isNone = true := by
  exact ⟨rfl, by decide, rfl, rfl, rfl, rfl, by decide, by decide, by decide, rfl⟩
/-- A DIV before a divider that a divide still holds; a store before a full store queue, which issues nothing. -/
def fireFull : Firing := { fireM with seq := 9, sq := (List.range 16).map fun k => ⟨k, 0x1000, .wb k, false⟩ }
theorem wit_FiringCreation_held : (trial (.st (memOps 3))).isSome = true ∧ ∃ t, execSt (memOps 3) (stateOf coreM fireFull) = .next t ∧
      issued t 0 0 fireFull = false := ⟨rfl, ⟨_, rfl, by decide⟩⟩
theorem wit_FiringCreation_busy :
    unitReady (stateOf { busy := [(0, ⟨0, 36⟩)] } thread) 0 thread (.div (alu .wrap false)) = false := by
  show decide (36 ≤ (clkOf (stateOf { busy := [(0, ⟨0, 36⟩)] } thread) _ - Config.cyclesOf _ 0).toNat) = false
  rw [clkOf, show (stateOf { busy := [(0, ⟨0, 36⟩)] } thread).tick = 0 from rfl, BitVec.sub_self]; rfl


/-! Deposits, walks, stores. -/

/-- A firing with one deposit in flight, of a load of eight bytes at 0x100. -/
def acc8 : Acc := ⟨0, 0x100, 0x100, 8, false, none, none⟩
def depOf (x : DepSrc) : Dep := ⟨0, 0x1000, 0, [5], [], .s 5 3 false, x, none⟩
def fDep (x : DepSrc) : Firing := { fireM with deps := [depOf x] }
def eSt : Ent := ⟨0, 0x1000, .store false false [⟨0x100, 0x100, 7⟩], false⟩
def at8 (pa : Nat) : AtomAcc := ⟨0, 0x100, pa, 8, 0, false, 1, 0⟩
def eAt (pa : Nat) : Ent := ⟨0, 0x1000, .atom [at8 pa] none, false⟩
theorem wit_DepositsAndWalks : (stateOf coreM (fDep (.val [(5, 9)] []))).firing 0 0 = some (fDep (.val [(5, 9)] [])) ∧
    (fDep (.val [(5, 9)] [])).deps[0]? = some (depOf (.val [(5, 9)] [])) ∧
    (∀ e ∈ (fDep (.val [(5, 9)] [])).deps.take 0, (∀ r ∈ [5], r ∉ e.sregs) ∧ ∀ r ∈ ([] : List Nat), r ∉ e.vregs) ∧
    (∀ e ∈ fireM.sq, e.seq ≠ 0) ∧ acc8.got = none ∧ portDown sM 0x100 = false ∧ Reaches sM 0x100 ∧ Traps sM 0 0 fireM ∧
    acc8.size = 8 ∧ Served sM 0 acc8 ∧ Seen sM 0 acc8 (List.replicate 8 0) ∧ portDown sM 0x80000000000 = true ∧ fireM.stop = 0 ∧
    paHost (keyPa 0x100) = false ∧ paDev (keyPa 0x100) = false ∧ capReady sM 4 = false ∧
    paHost (keyPa 0x100000000000) = true ∧ [eSt] = [] ++ eSt :: [] ∧ eSt.seq < 1 ∧
    (∀ x ∈ [(⟨0x100, 0x100, 7⟩ : Cell)], x.va = 0x100 → x = ⟨0x100, 0x100, 7⟩) ∧ (stopped 1 0).stop ≠ 0 := by
  refine ⟨rfl, rfl, by simp, by decide, rfl, by decide +kernel, .inl (by decide), ⟨rfl, by decide, rfl⟩, rfl,
    .inr (.inr ⟨by decide, .inl (by decide)⟩), ?_, by decide +kernel, ?_⟩
  · exact .inr ⟨.inr rfl, .inl ⟨by decide, by decide, .inr (by decide), by decide +kernel⟩⟩
  · decide
theorem wit_DepositsAndWalks_errors : (eAt 0x100).reads = true ∧ (eAt 0x100).homeAddr = some 0x100 ∧ (eAt 0x100).seq = (depOf .unit).seq ∧
    portDown sM 0x80000000000 = true ∧ (eAt 0x80000000000).homeAddr = some 0x80000000000 ∧ coreLn.l1Find 0x100 ≠ none ∧
    coreM.l1Find 0x100 = none ∧ (depOf (.bad 5)).src = .bad 5 ∧ ({ depOf (.val [] []) with spad := some 16 } : Dep).spad = some 16 ∧
    fireM.sq = [] ∧ (sM.core 0).fpxDue 0 = none ∧ (0 : Nat) < trapSlot := by decide +kernel
/-- An access whose line L1 holds, one whose bytes the die's copy of another home has, one that neither has, one of another
package. -/
def accAt (pa : Nat) : Acc := ⟨0, pa, pa, 8, false, none, none⟩
def sCopy : State := { sM with l2 := [(8 * 0x20000000, ⟨-1, 0, List.replicate 128 1⟩)] }
theorem wit_DepositsAndWalks_served : InL1 (stateOf coreLn fireM) 0 acc8 ∧ InCopy sCopy 0 (accAt 0x1000000000) ∧
    ¬ InL1 sM 0 acc8 ∧ ¬ InCopy sM 0 acc8 ∧ ¬ InL1 sCopy 0 (accAt 0x1000000000) ∧
    portDown sM (accAt (2 ^ 47)).pa = false ∧ ¬ Served sM 0 (accAt (2 ^ 47)) ∧
    ¬ InL1 sM 0 (accAt 0x80000000000) ∧ ¬ InCopy sM 0 (accAt 0x80000000000) ∧
    olderRemote fireM 0 (gcaOf sM 0) = false ∧ olderRemote { fireM with sq := [⟨0, 0, .stx 0 0 [], false⟩], seq := 1 } 1 (gcaOf sM 0) = true ∧
    Serves (sM.core 0) ∧ ¬ Serves { cstate := 2 } ∧ ¬ Serves { filterWait := [1] } := by
  have nc : ∀ a, ¬ InCopy sM 0 a := fun a ⟨_, _, y, h, _⟩ => by
    rw [show sM.copy (a.pa / 128) (siteOf sM 0) = none by rfl] at h; cases h
  have nl : ∀ a, ¬ InL1 sM 0 a := fun a ⟨_, h⟩ => h (by rfl)
  refine ⟨⟨rfl, by decide⟩, ⟨rfl, by decide, ⟨_, rfl, by decide⟩⟩, nl _, nc _, fun ⟨_, h⟩ => h (by rfl), by decide, ?_, nl _, nc _,
    by decide, by decide, by unfold Serves; decide, by unfold Serves; decide, by unfold Serves; decide⟩
  rintro (h | h | ⟨_, h | h⟩)
  · exact nl _ h
  · exact nc _ h
  · exact absurd h (by decide)
  · exact absurd h (by decide)
/-- Memory with ASID 0's root table at 0x10000, and tables at 0x20000 … 0x40000 for virtual address 0; the leaf page at
0x50000. -/
def sWalk (w3 w2 w1 w0 : W64) : State :=
  { stateOf coreU { fireM with hold := .walk 0 .read none } with mem := [] }
    |> fun s => [(0 + 8, 0x10001), (0x10000, w3), (0x20000, w2), (0x30000, w1), (0x40000, w0)].foldl (fun s e =>
      s.putBs e.1 (bytesLE 8 (e.2 : W64))) s
theorem wit_DepositsAndWalks_walk : IsTable (sWalk 0 0 0 0) 0x20003 ∧ IsTable (sWalk 0 0 0 0) 0x30003 ∧
    IsTable (sWalk 0 0 0 0) 0x40003 ∧ leafOk (sWalk 0 0 0 0) 0 0x5000D = true ∧ leafOk (sWalk 0 0 0 0) 1 0x20000D = true ∧
    leafOk (sWalk 0 0 0 0) 2 0xD = true ∧ pteV 0 = false ∧ pteT 0x5000D = false ∧ pteV 0x5000D = true ∧
    (0x10001 : W64).getLsbD 0 = true ∧ (0x10001 : W64).toNat / 2 % 2 ^ 15 = 0 ∧ (0x10001 : W64).toNat / 2 ^ 47 = 0 := by
  unfold IsTable; decide +kernel
theorem wit_DepositsAndWalks_ends : walk (sWalk 0x20003 0x30003 0x40003 0x5003D) 1 0 = .leaf ⟨0, 0, 1, 0x5003D⟩ ∧
    walk (sWalk 0 0 0 0) 1 0 = .fault 3 ∧ permOk false .read 0x5003D 0x50000 = true := by decide +kernel
/-- A firing that waits for a walk of page 0: not in its die's pool, there with no result yet, and with one. -/
def fWalk : Firing := { fireM with hold := .walk 0 .read none }
def sPool (w : List Walk) : State := { sWalk 0 0 0 0 with walks := w }
theorem wit_DepositsAndWalks_pool : (sWalk 0 0 0 0).firing 0 0 = some fWalk ∧ fWalk.hold = .walk 0 .read none ∧
    (sPool []).poolWalk (siteOf (sPool []) 0) 1 0 = none ∧
    (sPool [⟨0, 1, 0, none⟩]).poolWalk (siteOf (sPool []) 0) 1 0 = some ⟨0, 1, 0, none⟩ ∧
    (sPool [⟨0, 1, 0, none⟩]).walking ⟨0, 1, 0, none⟩ = true ∧ (sPool [⟨0, 1, 9, none⟩]).walking ⟨0, 1, 9, none⟩ = false ∧
    (sPool [⟨0, 1, 0, some (.fault 3)⟩]).poolWalk (siteOf (sPool []) 0) 1 0 = some ⟨0, 1, 0, some (.fault 3)⟩ ∧
    (∀ k ∈ walkKeys (sWalk 0 0 0 0) 1 0, portDown (sWalk 0 0 0 0) k = false) ∧
    portDown (sWalk 0 0 0 0) (memKey 0 0x80000000000) = true := by decide +kernel
/-- One store of a byte; one of an uncached byte; one at the home of another die; an atomic. -/
def fSq (op : EntOp) : Firing := { fireM with sq := [⟨0, 0x1000, op, false⟩] }
theorem wit_StoresAndRemote : (fSq (.store false false [⟨0x100, 0x100, 7⟩])).sq = [⟨0, 0x1000, .store false false [⟨0x100, 0x100, 7⟩], false⟩] ∧
    fireM.wbq = [] ∧ fireM.deps = [] ∧ fireM.loss = false ∧ (0 : Nat) ≤ trapSlot ∧ portDown sM 0x100 = false ∧ Reaches sM 0x100 ∧
    ¬(keyPkg 0x100 = sM.pkg.toNat ∧ paDev (keyPa 0x100) = true) ∧ homeSite sM 0x100 = siteOf sM 0 ∧
    homeSite sM 0x1000000000 ≠ siteOf sM 0 ∧ hasRoom sM (0x1000000000 / 128) (siteOf sM 0) = true ∧ sM.copy 2 (siteOf sM 0) = none ∧
    (∀ e ∈ (sM.core 0).firings, ∀ x ∈ e.2.sq, x.op ≠ .wb 2) ∧ (sM.core 0).crossing = false ∧
    (∀ l y, sM.copy l (siteOf sM 0) = some y → y.data.length = 128) := by
  refine ⟨rfl, rfl, rfl, rfl, by decide, by decide, .inl (by decide), ?_⟩
  refine ⟨by decide, by decide, by decide, rfl, rfl, ?_, rfl, fun l y h => ?_⟩
  · rw [show (sM.core 0).firings = [(0, fireM)] from rfl]; decide
  · rw [show sM.copy l (siteOf sM 0) = none by rfl] at h; cases h
/-- A dirty copy at site 0, of a line in the dirty list of core 0, whose firing waits in a cross-die FENCE.REL. -/
def fCross : Firing := { fireM with rel := some ⟨0, 0x1000, true, 0⟩ }
def sCross : State := { stateOf { coreM with dirty := [2] } fCross with l2 := [(8 * 2, ⟨-1, 1, List.replicate 128 1⟩)] }
theorem wit_StoresAndRemote_lines : (sCross.core 0).crossing = true ∧ 2 ∈ (sCross.core 0).dirty ∧
    (∀ e ∈ (sCross.core 0).firings, ∀ x ∈ e.2.sq, x.op ≠ .wb 2) ∧
    sCross.copy 2 (siteOf sCross 0) = some ⟨-1, 1, List.replicate 128 1⟩ ∧ Reaches sCross (2 * 128) ∧
    2 ∈ dirtyLines sCross (siteOf sCross 0) ∧ (fSq (.wb 2)).sq = [⟨0, 0x1000, .wb 2, false⟩] :=
  ⟨rfl, by decide, by decide, rfl, .inl (by decide), by decide, rfl⟩
/-- A dirty copy of a line behind a port whose link is down stays where it is. -/
theorem wit_StoresAndRemote_homeward : Homeward sCross 2 ∧ ¬ Homeward sM (0x80000000000 / 128) ∧
    (⟨-1, 1, List.replicate 128 1⟩ : L2Copy).dirty ≠ 0 ∧ (⟨-1, 0, []⟩ : L2Copy).dirty = 0 := by
  unfold Homeward Reaches; decide
theorem wit_StoresAndRemote_loss : (⟨0, 0x1000, .store true false [⟨0x100, 0x100, 7⟩], false⟩ : Ent).sent = false ∧
    ({ fSq (.store true false [⟨0x100, 0x100, 7⟩]) with loss := true } : Firing).loss = true ∧ (sM.core 0).swapping = false := by decide
theorem wit_StoresAndRemote_remote : Serves (sM.core 0) ∧ (0 : Nat) < 4096 ∧
    (fDep (.ldx (gcaOf sM 0) 0x100 8)).deps = [depOf (.ldx (gcaOf sM 0) 0x100 8)] ∧
    (sM.core 0).inWs 0x80000 8 = true ∧ (sM.core 0).inWs 0x100 8 = false ∧ fireM.bad = none ∧
    (fSq (.stx (gcaOf sM 0) 0x100 [1])).sq = [⟨0, 0x1000, .stx (gcaOf sM 0) 0x100 [1], false⟩] ∧
    (depOf .unit).src = .unit ∧ (depOf .unit).sregs = [5] ∧ 0x1001 / 4096 ≠ sM.pkg.toNat ∧ linkUp sM = false ∧
    (⟨0, 0, .stx 0x1001 0 [], false⟩ : Ent).target = some 0x1001 ∧ ({ cstate := 2 } : Core).cstate = 2 := by
  unfold Serves; decide


/-! Units, engines, launches. -/

def sfuE (v : Option (List (Nat × W32))) : SfuEnt := ⟨0, 0x1000, 1, 0, .reg 5, 4, v⟩
def coreS (v : Option (List (Nat × W32))) : Core := { coreM with sfuQ := [sfuE v] }
def matE (fl : BitVec 6) : MatOp := ⟨0, 0x1000, 0, 1, 1, [], fl⟩
def coreMat (fl : BitVec 6) : Core := { coreM with mat := some (matE fl) }
def sampQ0 (xl : List (Nat × Nat × Bool)) : SampReq := ⟨0, 0, true, sdOne, [(0, 0, 0)], xl, 40⟩
def depV : Dep := ⟨0, 0x1000, 0, [], [40, 41, 42, 43], .none, .unit, none⟩
theorem wit_LaneUnitEvents : ((stateOf (coreS none) fireM).core 0).sfuQ = sfuE none :: [] ∧
    (stateOf (coreS none) fireM).firing 0 (sfuE none).slot = some fireM ∧ (sfuE none).vals = none ∧
    (sfuE (some (lanes.map fun L => (L, (0 : W32))))).vals = some (lanes.map fun L => (L, (fun _ => 0 : Nat → W32) L)) ∧
    (0x80000000 : W32).toNat / 2 ^ 23 % 2 ^ 8 = 0 ∧ (0x7F800001 : W32).toNat / 2 ^ 23 % 2 ^ 8 = 255 ∧
    (0x7F800001 : W32).toNat % 2 ^ 23 ≠ 0 ∧ ((stateOf (coreMat 1) fireM).core 0).mat = some (matE 1) ∧
    fpxHits fireM 1 = false ∧ fpxHits { fireM with fpst := 0x10000 } 1 = true ∧ (matE 1).slot ≠ trapSlot ∧ 127 % 2 = 1 ∧ 127 < 254 := by
  refine ⟨rfl, rfl, rfl, rfl, by decide, by decide, by decide, rfl, by decide⟩
/-- 1 and -1 as normal numbers, and a binade that holds 1 and the next number. -/
theorem wit_LaneUnitEvents_normal : NormalIs 0x3F800000 1 ∧ NormalIs 0xBF800000 (-1) ∧ F32Is 0 (0 : ℤ) ∧
    (-125 : ℤ) ≤ 0 ∧ (2 : ℝ) ^ (0 : ℤ) ≤ |(1 : ℝ)| ∧ |(1 : ℝ)| + (2 : ℝ) ^ ((0 : ℤ) - 23) ≤ (2 : ℝ) ^ ((0 : ℤ) + 1) ∧
    (0xBF800000 : W32).getLsbD 31 = true ∧ (0xBF800000 : W32).toNat / 2 ^ 23 % 2 ^ 8 ≤ 254 ∧ (1 : ℝ) < 128 ∧ (0 : ℝ) < 1 := by
  have h1 : Fmt.f32.decode (0x3F800000 : W32).toNat = .fin false (2 ^ 23) (-23) := by decide
  have h2 : Fmt.f32.decode (0xBF800000 : W32).toNat = .fin true (2 ^ 23) (-23) := by decide
  have h3 : Fmt.f32.decode (0 : W32).toNat = .fin false 0 (-149) := by decide
  refine ⟨⟨⟨_, _, _, h1, ?_⟩, by decide⟩, ⟨⟨_, _, _, h2, ?_⟩, by decide⟩, ⟨_, _, _, h3, ?_⟩, by decide, ?_, ?_, by decide, by decide, ?_, ?_⟩ <;>
    norm_num
theorem wit_LaneUnitEvents_sampler : ({ coreM with sampQ := [sampQ0 [(0, 0, false)]] } : Core).sampQ = sampQ0 [(0, 0, false)] :: [] ∧
    ({ fireM with deps := [depV] } : Firing).deps.find? (fun d => d.seq == (sampQ0 []).seq) = some depV ∧
    (∀ l ∈ (sampQ0 [(0, 0, false)]).xl, keyPkg (l.2.1 * 128) = sM.pkg.toNat) ∧
    (∀ l ∈ (sampQ0 [(0, 0, false)]).xl, portDown sM (l.2.1 * 128) = false ∧ Reaches sM (l.2.1 * 128)) ∧ Traps sM 0 0 fireM ∧
    homeSite sM 0 = siteOf sM 0 ∧ portDown sM (0x80000000000 / 128 * 128) = true ∧
    fireM.stop = 0 ∧ sdKind sdOne = 0 ∧ (0 : W32).toNat < sdW sdOne ∧ (0 : W32).toNat < sdH sdOne ∧
    [(⟨3, 0, []⟩ : SampLine)].find? (fun y => y.vline == 3 && y.asid == 0) = some ⟨3, 0, []⟩ :=
  ⟨rfl, rfl, by decide, by unfold Reaches; decide, ⟨rfl, by decide, rfl⟩, by decide, by decide, rfl, by decide, by decide, by decide, rfl⟩
/-- Lines that have to be read at home: a missing one, an uncached one; one behind a port whose link is down, one of another
package; and one that the die's copy has. -/
theorem wit_LaneUnitEvents_far : SampFar sM 0 (0, 0, false) ∧ SampFar sM 0 (0, 0, true) ∧
    SampFar sM 0 (0, 0x80000000000 / 128, false) ∧ SampFar sM 0 (0, 2 ^ 40, false) ∧ ¬ Reaches sM (2 ^ 40 * 128) ∧
    ¬ SampFar sCopy 0 (0, 0x20000000, false) ∧ Reaches sM (0x80000000000 / 128 * 128) := by
  have nc : ∀ l, sM.copy l (siteOf sM 0) = none := fun _ => rfl
  have far : ∀ a b, SampFar sM 0 (a, b, false) := fun a b =>
    .inr ⟨fun x h => (List.not_mem_nil h).elim, fun ⟨_, y, h, _⟩ => by rw [nc] at h; cases h⟩
  refine ⟨far _ _, .inl rfl, far _ _, far _ _, ?_, ?_, .inl (by decide)⟩
  · rintro (h | h)
    · exact absurd h (by decide)
    · exact absurd h (by decide)
  · rintro (h | ⟨_, h⟩)
    · cases h
    · exact h ⟨by decide, ⟨_, rfl, by decide⟩⟩
/-- A copy of 8 bytes within the scratchpad, before and after its granule; one from unmapped memory; one with a
notification. -/
def cmdE (ds ss : BitVec 2) (src : W64) (pos : Nat) (nt : Option (W64 × W64)) : Cmd :=
  ⟨1, false, ds, ss, 0x200, src, 8, 0, false, nt, 0, pos, false⟩
def coreQ (m : Cmd) (err : W64) : Core := { coreM with ctxs := [{ i := 1, c := 0, err := err, q := [m] }, {}, {}, {}] }
theorem wit_EngineAndForwarding : (0 : Nat) < (coreQ (cmdE 1 1 0x100 0 none) 0).ctxs.length ∧
    ((coreQ (cmdE 1 1 0x100 0 none) 0).ctx 0).q = cmdE 1 1 0x100 0 none :: [] ∧ (cmdE 1 1 0x100 0 none).len = 8 * (0 + 1) ∧
    (cmdE 1 1 0x100 1 none).len ≤ 8 * 1 ∧ (cmdE 1 1 0x100 1 (some (0, 5))).nt = some (0, 5) ∧
    (cmdE 1 1 0x100 1 none).supp = false ∧ coreM.filter = [] ∧ (0 : W64).toNat % 2 ^ 29 / 4096 = sM.pkg.toNat ∧
    8 * 0 < (cmdE 1 0 0x40000000 0 none).len ∧
    granSide (stateOf (coreQ (cmdE 1 0 0x40000000 0 none) 0) fireM) 0 (cmdE 1 0 0x40000000 0 none) = .bad (0x0A : Byte).toNat 0x40000000 ∧
    (0x0A : Byte) ≠ 0x0E ∧ ((coreQ (cmdE 1 0 0x40000000 0 none) 0).ctx 0).err = 0 ∧
    ((coreQ (cmdE 1 0 0x40000000 0 none) 0x0A00000000000001).ctx 0).err ≠ 0 ∧
    (0x0A00000000000001 : W64).toNat / 2 ^ 48 % 256 < 255 :=
  ⟨by decide, rfl, by decide, by decide, rfl, rfl, rfl, by decide, by decide, by decide +kernel, by decide⟩
/-- Context 0 can move, into plain scratchpad and into the registers of slot 0's firing, whose workspace is at 0. -/
theorem wit_EngineAndForwarding_turn : nextCtx (stateOf (coreQ (cmdE 1 1 0x100 0 none) 0) { fireM with wp := 0x80000 }) 0 = some 0 ∧
    ((stateOf (coreQ (cmdE 1 1 0x100 0 none) 0) { fireM with wp := 0x80000 }).core 0).wsOwner 0x200 = none ∧
    ((stateOf (coreQ (cmdE 1 1 0x100 0 none) 0) fireM).core 0).wsOwner 0x200 = some (0, fireM) ∧
    nextCtx (stateOf (coreQ (cmdE 1 1 0x100 0 none) 0) fireM) 0 = some 0 := by decide +kernel
/-- A descriptor at 0x400 of core 0 whose ring is in core 1 at 0x4000, with its head and tail counters at 0x3000 and
0x3008: eight-byte entries, two pushed, none sent. -/
def qWords : List W64 := [gcaW 0x4000, gcaW 0x3008, gcaW 0x3000, 0x01000000, 0x0000000500001000, 2, 0]
where gcaW (o : Nat) : W64 := BitVec.ofNat 64 (1 + o * 2 ^ 32)
def coreFw (b : Option Batch) : Core :=
  { putWords coreM 0x400 qWords with proxies := [⟨0x400, 1, [], b, false⟩] }
def sFw (b : Option Batch) : State :=
  { State.reset with cores := [(0, coreFw b), (1, coreM)] }
theorem wit_EngineAndForwarding_ring : ((sFw none).core 0).knownProxy 0x400 = some ⟨0x400, 1, [], none, false⟩ ∧
    (coreFw none).nextProxy = some ⟨0x400, 1, [], none, false⟩ ∧ ((coreFw none).qdesc 0x400).kind = 1 ∧
    ((coreFw none).qdesc 0x400).ftim ≠ 0 ∧ ((coreFw none).qdesc 0x400).sent < ((coreFw none).qdesc 0x400).pushed ∧
    1 < ((coreFw none).qdesc 0x400).pushed ∧
    (((sFw none).core 1).cstate ≠ 2 ∧ ((sFw none).core 1).cstate ≠ 3 ∧ ((sFw none).core 1).filterWait = []) ∧
    ((coreFw none).qdesc 0x400).head = BitVec.ofNat 64 (gcaOf (sFw none) 1 + farOff ((coreFw none).qdesc 0x400).head * 2 ^ 32) ∧
    ((coreFw none).qdesc 0x400).tgt = BitVec.ofNat 64 (gcaOf (sFw none) 1 + farOff ((coreFw none).qdesc 0x400).tgt * 2 ^ 32) ∧
    ((coreFw none).qdesc 0x400).tail = BitVec.ofNat 64 (gcaOf (sFw none) 1 + farOff ((coreFw none).qdesc 0x400).tail * 2 ^ 32) ∧
    ((sFw none).core 1).inWs (farOff ((coreFw none).qdesc 0x400).head) 8 = false ∧
    ((sFw none).core 1).inWs (farOff ((coreFw none).qdesc 0x400).tail) 8 = false ∧
    ((sFw none).core 1).inWs (farOff ((coreFw none).qdesc 0x400).tgt + 8 * 0) 8 = false ∧
    ((coreFw none).qdesc 0x400).sent - 0 + 1 ≤ ((coreFw none).qdesc 0x400).ringEntries ∧
    ((coreFw none).qdesc 0x400).ringEntries < ((coreFw none).qdesc 0x400).sent - 0 + 513 := by decide +kernel
theorem wit_EngineAndForwarding_batch : ((sFw (some ⟨0, 1, false⟩)).core 0).knownProxy 0x400 = some ⟨0x400, 1, [], some ⟨0, 1, false⟩, false⟩ ∧
    (⟨0, 1, false⟩ : Batch).wrote = false ∧ (⟨0, 1, true⟩ : Batch).wrote = true ∧
    ((sFw none).core 0).swapping = false ∧ farOff ((coreFw none).qdesc 0x400).head + 8 ≤ 2 ^ 20 ∧
    farOff ((coreFw none).qdesc 0x400).tgt + 8 * 0 + 8 ≤ 2 ^ 20 := by decide +kernel
/-- The device queue with one entry pushed, its descriptor all zero but for that; and with a batch written. -/
def hostQ (b : Option Batch) : HostSt :=
  { State.reset.host with devq := List.replicate 0x28 0 ++ leN 8 1 ++ List.replicate 16 0, queue := [List.replicate 64 0], dqBatch := b }
theorem wit_EngineAndForwarding_device : devSent (hostQ none) < devPushed (hostQ none) ∧ (hostQ none).dqMarked < devPushed (hostQ none) ∧
    devBatchSize { hostQ none with dqMarked := 1 } = 1 ∧ (hostQ none).dqBatch = none ∧
    2 ^ ((hostQ none).devq.getD 0x1C 0).toNat * 64 < devSent (hostQ none) - 0 + 65 ∧
    (hostQ (some ⟨0, 1, true⟩)).devq.length = 64 ∧ devSent (hostQ (some ⟨0, 1, true⟩)) + 1 < 2 ^ 64 := by decide +kernel
/-- A package whose completion record 1 holds count, state, level, flags and parent. -/
def recAt (count : W64) (state level flags : Byte) (parent : W32) : List Byte :=
  bytesLE 8 count ++ [state, level, flags, 0] ++ bytesLE 4 parent ++ List.replicate 48 0
def sRec (q : List HomeReq) (count : W64) (state level flags : Byte) (parent : W32) : State :=
  { sM.putBs 64 (recAt count state level flags parent) with homeQ := q }
def ldFree (level : Byte) : List Byte := ldOf level 1 0
/-- The same with parent 2, whose record the state also holds; a record with a notification to core 0's handler 17. -/
def ldChild (level : Byte) : List Byte := (ldFree level).set 4 2
def sPar (state level : Byte) : State := (sRec [] 0 0 0 0 0).putBs 128 (recAt 3 state level 0 0)
def sNote (dst : W64) : State := (sRec [] 0 1 0 6 2).putBs (64 + 0x20) (bytesLE 8 dst)
theorem wit_LaunchTimeEvents : (sRec [.launch (some (0, 0, 0)) (ldFree 1)] 0 0 0 0 0).homeQ[0]? = some (.launch (some (0, 0, 0)) (ldFree 1)) ∧
    1 = tagIdx (ldTag (ldFree 1)) ∧ ldParent (ldFree 1) = 0 ∧ recState (sRec [] 0 0 0 0 0) 1 = 0 ∧
    recState (sRec [] 0 2 0 0 0) 1 ≠ 0 ∧ recState (sRec [] 0 2 0 0 0) 1 ≠ 1 ∧ ldLevel (ldFree 1) ≠ 0 ∧ ldLevel (ldFree 0) = 0 ∧
    capReady sM 4 = false ∧ tagPkg 1 = sM.pkg.toNat ∧ recState (sRec [] 5 1 1 0 0) 1 = 1 ∧ recCount (sRec [] 5 1 1 0 0) 1 ≠ 0 ∧
    recLevel (sRec [] 5 1 1 0 0) 1 ≠ 0 ∧ recLevel (sRec [] 5 1 0 0 0) 1 = 0 ∧ (recFlags (sRec [] 5 1 0 0 0) 1).getLsbD 0 = false ∧
    recCount (sRec [] 0 1 0 0 2) 1 = 0 ∧ (recFlags (sRec [] 0 1 0 0 2) 1).getLsbD 1 = false ∧
    (recFlags (sRec [] 0 1 0 0 2) 1).getLsbD 2 = false ∧ tagIdx (recParent (sRec [] 0 1 0 0 2) 1) ≠ 1 ∧
    recParent (sRec [] 0 1 0 0 2) 1 ≠ 0 := by decide +kernel
theorem wit_LaunchTimeEvents_parent : ldParent (ldChild 1) = 2 ∧ tagIdx (ldParent (ldChild 1)) ≠ tagIdx (ldTag (ldChild 1)) ∧
    recState (sPar 1 2) 1 = 0 ∧ recCount (sPar 1 2) 2 ≠ 0 ∧ recState (sPar 1 2) 2 = 1 ∧ ldLevel (ldChild 1) < recLevel (sPar 1 2) 2 ∧
    recLevel (sPar 1 1) 2 ≤ ldLevel (ldChild 1) ∧ recState (sPar 2 2) 2 ≠ 1 := by decide +kernel
theorem wit_LaunchTimeEvents_note : (recFlags (sNote 0) 1).getLsbD 2 = true ∧ (recFlags (sNote 0) 1).getLsbD 1 = true ∧
    coreExists (sNote 0) ((recW (sNote 0) 1 0x20).toNat % 2 ^ 29) = true ∧ (recW (sNote 0) 1 0x20).toNat % 2 ^ 29 / 4096 = sM.pkg.toNat ∧
    coreExists (sNote 0x1000) ((recW (sNote 0x1000) 1 0x20).toNat % 2 ^ 29) = false ∧ recState (sNote 0) 1 = 1 ∧
    recCount (sNote 0) 1 = 0 ∧ (recFlags (sRec [] 0 1 0 4 2) 1).getLsbD 1 = false := by decide +kernel
/-- A launch of package 1 of two, and a link that is up. -/
def sTwo : State := { sM with sysSize := 2, host := { sM.host with lysState := [1] } }
theorem wit_LaunchTimeEvents_far : tagFar sTwo 0x8001 = true ∧ tagFar sTwo 1 = false ∧ (1 : Nat) < sTwo.sysSize ∧
    1 ≠ sTwo.pkg.toNat ∧ linkUp sTwo = true ∧ sTwo.sysSize ≤ 2 ^ 17 ∧
    (recFlags { sRec [] 0 1 0 1 0 with sysSize := 2, host := sTwo.host } 1).getLsbD 0 = true ∧ tagPkg 1 = sTwo.pkg.toNat := by decide
theorem wit_LaunchTimeEvents_woken : wokenSet { sM with diesReady := 0xFF } (ldFree 0) ≠ [] ∧
    wokenSet sM (ldFree 0) = [] := by decide +kernel
/-- A core with a credit for tag 1, a filter entry to add and one to remove, and a firing blocked in RECV. -/
def coreCr : Core := { ({ } : Core) with credits := [⟨1, 3, 0⟩] }
def fRecv : Firing := { thread with ltag := 1, hold := .recv }
theorem wit_LaunchTimeEvents_credit : coreCr.pool 1 = some ⟨1, 3, 0⟩ ∧ counted 1 = true ∧
    ({ sM with homeQ := [.refill 0 1 true] } : State).homeQ.contains (.refill 0 1 true) = true ∧ coreCr.sendvQ = [] ∧
    coreCr.holdsTag 1 = false ∧ ({ coreCr with firings := [(0, fRecv)] } : Core).holdsTag 1 = true ∧
    [(⟨1, []⟩ : Bcast)].find? (fun b => b.key == 1 && !b.got.contains 0) = some ⟨1, []⟩ ∧ coreHere sM 0 = true ∧
    (1 : W32) ∉ coreCr.filter ∧ (1 : W32) ∉ coreCr.filterWait ∧ coreCr.fpxDue 0 = none ∧ coreCr.filter.length < 64 ∧ coreCr.firings = [] ∧ (0 : Nat) < trapSlot ∧ fRecv.stop = 0 ∧
    64 ≤ ({ filter := (List.range 64).map (BitVec.ofNat 32 · + 5) } : Core).filter.length ∧
    (∃ b ∈ [(⟨1, []⟩ : Bcast)], b.key = 1) ∧ (∀ b ∈ ([] : List Bcast), b.key ≠ 1) ∧
    (∀ e ∈ sM.cores, e.2.filterWait = []) :=
  ⟨rfl, rfl, by decide, rfl, by decide, by decide, rfl, by decide, by decide, by decide, rfl, by decide, rfl, by decide,
    rfl, by decide, ⟨_, List.mem_cons_self, rfl⟩,
    by simp, by simp [sM, stateOf, coreM]⟩
theorem wit_LaunchTimeEvents_time : coreHere sM 0 = true ∧ 2 ^ 64 - 1 ≤ 2 ^ 64 - 1 ∧
    (∀ e ∈ (stateOf { report := 5 } fireM).cores, coreHere sM e.1 = true → 5 ≤ e.2.report.toNat) ∧
    (∃ e ∈ (stateOf { report := 5 } fireM).cores, coreHere sM e.1 = true ∧ 5 = e.2.report.toNat) ∧
    (∀ e ∈ (stateOf { report := 5 } fireM).cores, e.2.claim ≠ 2) ∧
    (∃ e ∈ (stateOf { claim := 2 } fireM).cores, e.2.claim = 2) := by
  simp [stateOf]; decide

/-! Traps, pre-emption, the Canopy. -/

/-- A thread before a trap instruction it may not run, in the trap handler's slot and below. -/
def tretBytes : List Byte := (List.replicate 4 (((encodeBytes (.tret ⟨h0⟩)).getD []))).flatten
theorem wit_TrapPreemptEvents : (stateOf { coreI with brk0 := 0x1001, asid := 1 } thread).firing 0 0 = some thread ∧
    mayLook { coreI with brk0 := 0x1001, asid := 1 } 0 thread = true ∧ brkHit { coreI with brk0 := 0x1001, asid := 1 } 0 thread = true ∧
    thread.badDep = none ∧ brkHit coreI 0 thread = false ∧ coreI.l1iFind thread.pc.toNat = some ⟨0x80, 0, 0x3D, nops⟩ ∧
    permOk (privileged coreI 0) .fetch 0x3D 0 = true ∧ permOk (privileged coreI 0) .fetch 0x1 0 = false ∧
    (0x101C : W64).toNat % 32 = 28 ∧ (∃ i l, decodeAt nops thread.pc.toNat = .ok (i, l)) ∧
    (∃ u t, issueTrap (stateOf { coreI with brk0 := 0x1001, asid := 1 } thread) 0 0 = some (u, t)) ∧ (0 : Nat) ≠ trapSlot ∧
    (∃ i l t, decodeAt tretBytes thread.pc.toNat = .ok (i, l) ∧ decodeCheck (privileged coreU 0) thread false i = some t) :=
  ⟨rfl, by decide, by decide, rfl, by decide, rfl, by decide, by decide, by decide, ⟨_, _, rfl⟩, ⟨_, _, rfl⟩, by decide, ⟨_, _, _, rfl, rfl⟩⟩
/-- A core with a trapped firing queued, a handler's address and workspace. -/
def coreT (tvec tws : W64) : Core := { coreM with firings := [(0, stopped 1 0x0B)], trapQ := [0], tvec := tvec, tws := tws }
theorem wit_TrapPreemptEvents_handler : (coreT 0x3001 0x80001).firing trapSlot = none ∧ (coreT 0x3001 0x80001).cstate ≤ 1 ∧
    (coreT 0x3001 0x80001).swapping = false ∧ (coreT 0x3001 0x80001).trapQ = 0 :: [] ∧
    (coreT 0x3001 0x80001).firing 0 = some (stopped 1 0x0B) ∧ (coreT 0x3001 0x80001).tvec.getLsbD 0 = true ∧
    (coreT 0x3001 0x80001).tws.getLsbD 0 = true ∧ (coreT 0 0).tvec.getLsbD 0 = false ∧ (0 : Nat) < trapSlot ∧
    coreM.trapQ = [] ∧ ((twoFirings fireM).firing 0 trapSlot).isSome = true := by decide
def irq (mode : Nat) : MeshIrq := ⟨mode, 0, 0, 0, 1, 0, 0, false⟩
theorem wit_TrapPreemptEvents_irq : (irq 1).target = 0 ∧ (irq 0).mode = 0 ∧ (irq 1).mode = 1 ∧ (irq 2).mode = 2 ∧ coreM.cstate = 0 ∧
    coreM.swapping = false ∧ ({ cstate := 1 } : Core).cstate ≠ 0 ∧ ({ cstate := 1 } : Core).cstate ≠ 2 ∧
    swapReady { State.reset with cores := [(0, { swapping := true })], meshIrqs := [irq 1] } 0 (irq 1) = true ∧
    ({ coreM with drain := some ⟨1, 0, 0, 7⟩ } : Core).live = [] ∧ coreM.trapQ = [] ∧ (∀ x ∈ coreM.ctxs, x.q = []) ∧
    (7 : W32) ≠ 0 ∧ (sM.core 0).live ≠ [] ∧ ({ swapping := true, firings := [(0, fDep .unit)] } : Core).swapping = true ∧
    swapReady { State.reset with cores := [(0, { swapping := true, firings := [(0, fDep .unit)] })], meshIrqs := [irq 1] } 0 (irq 1) = false ∧
    (irq 1).core ≠ 0 := by decide
/-- An interrupt that a REMAP holds, and a firing that swaps its own core: its status alone keeps nothing waiting. -/
theorem wit_TrapPreemptEvents_held : (irq 1).held = false ∧ ({ irq 1 with held := true } : MeshIrq).held = true ∧
    areaWaits State.reset 0 (irq 1) true = false ∧ areaWaits State.reset 0 (irq 2) false = false ∧
    swapReady (stateOf { swapping := true } (fDep .unit)) 0 { irq 1 with core := 0, uid := (fDep .unit).uid, seq := (depOf .unit).seq } = true ∧
    areaWaits { sTwo with host := State.reset.host, walks := [], cores := [(0, { tlb := [⟨0, 2, 0, 0x3D + 0x800000000000⟩] })] } 0
      (irq 1) true = true := by decide +kernel
/-- A swap whose area has no page: reset memory holds no table. -/
theorem wit_TrapPreemptEvents_failing : engXlate sM 0 1 true .write 0 = .error 0x0A := by decide +kernel
/-- An area in the page that coreM's translation cache holds. -/
theorem wit_TrapPreemptEvents_area : AreaAt sM 0 (irq 1) 0 ∧ Bounded coreM := by
  refine ⟨⟨by decide, ⟨0, 2, 0, 0x3D⟩, fun o h => ?_⟩, fun ch => Nat.zero_le _, fun g l hg hl =>
    (by decide +kernel : ∀ g, g < 16 → ∀ l, l < 32 → (((coreM.glade g).col l).length ≤ 16)) g hg l hl⟩
  have hp : (va56 (irq 1).arg).toNat + o = o := by rw [show (va56 (irq 1).arg).toNat = 0 from rfl]; omega
  have hc : (⟨0, 2, 0, 0x3D⟩ : Leaf).covers 0 o = true := by
    simp [Leaf.covers, pageBits, show o / 1073741824 = 0 by omega]
  have hd : paDev o = false := by simp only [paDev]; rw [Bool.and_eq_false_iff]; left; simp; omega
  have hx : paCxl o = false := by simp only [paCxl]; rw [Bool.and_eq_false_iff]; left; simp; omega
  have ha : keyPa o = o := Nat.mod_eq_of_lt (by omega)
  rw [hp, Nat.zero_add, ha]
  refine ⟨?_, ?_, ?_, Nat.div_eq_of_lt (by omega), hd, ?_⟩
  · show List.find? (fun l : Leaf => l.covers 0 o) [⟨0, 2, 0, 0x3D⟩] = _
    rw [List.find?_cons_of_pos (by exact hc)]
  · show memKey (ptePkg 0x3D) (ptePa 0x3D + o % 2 ^ 30) = o
    rw [Nat.mod_eq_of_lt (by omega), show ptePkg 0x3D = 0 by decide, show ptePa 0x3D = 0 by decide, memKey]; omega
  · simp only [permOk, hd]; decide
  · simp only [portDown, ha, hx]; simp
theorem wit_TrapPreemptEvents_remap : (0 : Nat) < State.reset.dieMap.length ∧ enRoute State.reset 0 = false ∧
    enRoute State.reset (dieOfSite State.reset 1) = false ∧ enRoute { State.reset with mesh := [fl0] } 0 = true ∧
    ({ State.reset with remaps := [⟨0, 1, 0, 1, 0⟩] } : State).remaps = ⟨0, 1, 0, 1, 0⟩ :: [] := by decide

/-- A ray for handle 0 at its home, core 0, with the entry's state, owners and target as given. -/
def rayMsg : Msg := { msg0 with ch := 2, hid := 0, len := 14, body := List.replicate 13 0 ++ [0x0000100000000000] }
def sDir (w0 w1 : W64) (q : List HomeReq) : State :=
  { ((sM.putBs 0 (bytesLE 8 w0)).putBs 8 (bytesLE 8 w1)).putBs 16 (bytesLE 8 (0x10000 : W64) ++ bytesLE 8 (1 : W64)) with homeQ := q }
theorem wit_CanopyEvents : (sDir 0x0000010100000000 7 [.ray 0 ⟨1, rayMsg, none⟩]).homeQ[0]? = some (.ray 0 ⟨1, rayMsg, none⟩) ∧ (0 : BitVec 16) = rayTop rayMsg ∧
    (∀ q ∈ (sDir 0 0 [.ray 0 ⟨1, rayMsg, none⟩]).homeQ.take 0, ∀ k, q ≠ .ray 0 k) ∧ dirState (sDir 0x0000010100000000 7 []) 0 = 1 ∧
    ceOwners (dirWords (sDir 0x0000010100000000 7 []) 0) = [7] ∧
    [(7 : BitVec 16)][(rayMsg.body.getD 0 0).toNat % 2 ^ 48 % 1]? = some 7 ∧ (7 : BitVec 16).toNat < 4096 ∧ (sDir 0x0000010100000000 7 []).remaps = [] ∧ dirState (sDir 0x0000000300000000 0 []) 0 = 3 ∧
    dirState (sDir 0x0000000400000000 0 []) 0 = 4 ∧ dirState (sDir 0x0001000200000000 0 []) 0 = 2 ∧
    ceTarget (dirWords (sDir 0x0001000200000000 0 []) 0) = 1 ∧ ceTarget (dirWords (sDir 0x0000000200000000 0 []) 0) = 0 ∧ dirState (sDir 0 0 []) 0 = 0 ∧
    128 * (sM.heldRays.length + 1) ≤ ({ sM with waitSize := 0x1000 } : State).waitSize ∧
    ({ sM with waitSize := 0 } : State).waitSize < 128 * (sM.heldRays.length + 1) ∧ coreHere sM 0 = true ∧
    [(⟨5, []⟩ : Bcast)].find? (fun b => b.key == (5 : BitVec 16).setWidth 32 && !b.got.contains 0) = some ⟨5, []⟩ := by
  refine ⟨rfl, by decide +kernel, ?_, ?_⟩
  · intro q h; exact absurd h (by simp)
  · decide +kernel
def req0 : ThawReq := ⟨0, some 1, some (0, 0)⟩
theorem wit_CanopyEvents_thaw : coreC.thawJob = none ∧ ({ coreC with thawQ := [req0] } : Core).thawQ = req0 :: [] ∧ req0.slot = some 1 ∧
    1 < coreC.pinned.length ∧ pinState (coreC.pinned.getD 1 {}) = 1 ∧ pinState (coreC.pinned.getD 0 {}) ≠ 1 ∧
    (let w := dirWords (sDir 0x0001000200000000 0 []) 0; paHbm (ceImage w + 256 * ceNodes w - 1) = true ∧ 1 ≤ ceNodes w ∧ ceNodes w ≤ 256) ∧
    ({ coreC with thawJob := some ⟨req0, 1, 0x10000, 1⟩ } : Core).thawJob = some ⟨req0, 1, 0x10000, 1⟩ ∧
    (0x10000 : Nat) ≤ 0x10080 ∧ (0x10080 : Nat) < 0x10000 + 256 * 1 ∧ capReady sM 4 = false ∧ sM.host.held.length < 1023 ∧
    (sDir 0x0000010100000000 7 [.thawDone 0 req0]).homeQ[0]? = some (.thawDone 0 req0) ∧
    (ceOwners (dirWords (sDir 0x0000010100000000 7 []) 0)).length < 4 ∧
    ceOwners (dirWords (sDir 0x0000000300000000 0 []) 0) = [] := by decide +kernel

/-! The host and the controllers, images. -/

/-- Mailbox entries: a message to core 0 for handler 17 of channel 1; to package 1; a launch record's cancel. -/
def mboxAt (a b : W64) : List Byte := bytesLE 8 a ++ bytesLE 8 b ++ List.replicate 48 0
def mboxOk : List Byte := mboxAt 0x0000011120000000 0
def mboxBad : List Byte := mboxAt 0x0000011100000000 0
def mboxTag : List Byte := mboxAt 0x0001011120000000 0
theorem wit_HostEvents_mailbox : sM.host.mailbox = [] ∧ mboxOk.length = 64 ∧ 0x40 % 64 = 0 ∧ 0x40 < 2 ^ 14 ∧ mailboxMsgOk sM (mailboxMsg mboxBad) = false ∧
    counted (mailboxMsg mboxBad).ltag = false ∧ mailboxMsgOk sM (mailboxMsg mboxOk) = true ∧ sM.remaps = [] ∧
    tagEnding sM (mailboxMsg mboxOk).ltag = false ∧ counted (mailboxMsg mboxOk).ltag = false ∧
    mailboxMsgOk (sRec [] 5 1 0 0 0) (mailboxMsg mboxTag) = true ∧ counted (mailboxMsg mboxTag).ltag = true ∧
    tagEnding (sRec [] 5 1 0 0 0) (mailboxMsg mboxTag).ltag = false ∧ 0x4000 / 2 ^ 14 = 1 ∧
    ldBad sM (ldLevel (ldFree 0) == 0) (ldFree 0) = false ∧ ldClearing (ldFree 0) = false ∧ (ldFree 0).length = 64 ∧
    ldBad sM (ldLevel (ldFree 3) == 0) (ldFree 3) = true ∧ 0x8000 / 2 ^ 14 = 2 ∧ tagBad sM 0 = true ∧ tagBad sM 1 = false ∧
    0xC000 / 2 ^ 14 = 3 ∧ ([0] : List Byte).length ≠ 64 ∧ 2 ^ 36 < (2 ^ 36 - 1) + ([0, 0] : List Byte).length ∧
    0x100 + ([5] : List Byte).length ≤ 2 ^ 36 ∧ sM.host.bar4Base + 0x100 + 1 ≤ 0x6000000000 := by decide +kernel
theorem wit_HostEvents_mailboxQueue : (setMailbox sM [(0x80, mboxTag)]).host.mailbox = (0x80, mboxTag) :: [] ∧
    ((0x80, mboxTag) : Nat × List Byte) ≠ (0x40, mboxOk) ∧ 0x40 / 2 ^ 14 = 0 ∧ ([] : List (Nat × List Byte)).length < 255 := by
  decide +kernel
/-- The package with every function of the host ready. -/
def sReady : State := { sM with host := { sM.host with rdy := 0xFFFF } }
theorem wit_HostEvents : (0x1004 : Nat) < 0xF0000000 ∧ 0x1004 % 0x1000 < 16 ∧ capReady sM 2 = false ∧ 0 + ([1, 2] : List Byte).length ≤ 512 ∧
    sM.host.msixTable.length = 512 ∧ 1 ≤ (9 : BitVec 16).toNat ∧ (9 : BitVec 16).toNat ≤ 9 ∧
    (List.replicate 8 (0 : W64)).length = 8 ∧ capReady sM 4 = false ∧ capReady sReady 4 = true ∧ sReady.host.held = [] ∧
    capReady sReady 2 = true ∧ sM.host.attBusy = false ∧ ({ sM.host with attBusy := true } : HostSt).attBusy = true ∧
    capReady sReady 9 = true ∧ 5 < 40 ∧ sM.host.clocks.length = 40 ∧ sM.host.temps.length = 40 ∧
    18 < sM.host.clocks.getD 5 36 ∧ 100 ≤ (100 : BitVec 16).toNat ∧ (99 : BitVec 16).toNat < 100 ∧ 110 ≤ (110 : BitVec 16).toNat ∧
    (sM.host.temps.getD 5 0).toNat < 100 ∧ coreHere sM 0 = true ∧ sM.host.cxlState.length = 4 ∧ sM.host.lysState.length = 8 ∧
    (0 : Byte) ≠ 1 ∧ (0x5000000000 : Nat) < 0x6000000000 ∧ sM.host.corrected.length = 8 ∧ sM.host.uncorr.length = 8 ∧
    sM.host.corrected.getD 6 0 ≠ 0xFFFFFFFF ∧ sM.host.uncorr.getD 6 0 ≠ 0xFFFFFFFF ∧ sM.host.throttled = false ∧
    ({ sReady with host := { sReady.host with held := [[0]] } } : State).host.held ≠ [] ∧
    ([3, 0, 0, 0, 0, 0, 0, 0] : List W64).getD 0 0 ≠ 0 ∧ (4096 + (1 : BitVec 29)).toNat / 4096 ≠ sM.pkg.toNat := by decide +kernel

/-- A small image: one role without segments, no placement, its handler block and its signature block. Its signature is
Config's own (log entry 11). -/
def imgBytes : List Byte :=
  bytesLE 8 (0x0000485355494E53 : W64) ++ leN 2 1 ++ leN 2 128 ++ leN 2 1 ++ leN 2 0 ++ leN 4 0 ++ leN 4 0 ++ leN 4 128 ++ leN 4 192 ++
  leN 4 192 ++ leN 4 192 ++ leN 4 8656 ++ leN 4 8656 ++ List.replicate 80 0 ++ List.replicate 64 0 ++ List.replicate 8464 0 ++
  leN 4 0x474953 ++ leN 4 1 ++ leN 8 0 ++ leN 4 29792 ++ List.replicate 12 0 ++ List.replicate 29792 0
theorem wit_ImageEvents_status (h : Config.sigVerifies (imgBytes.take (imgSig imgBytes))
      (w64OfLE (((imgBytes.drop (imgSig imgBytes)).drop 8).take 8)) ((imgBytes.drop (imgSig imgBytes)).drop 0x20) = true) :
    imgStatusOf sReady 1 imgBytes = 0 := by
  have e : imgSigned sReady imgBytes = true := by
    unfold imgSigned; simp only [h, Bool.and_true]; decide +kernel
  unfold imgStatusOf; simp only [e]; decide +kernel
theorem wit_ImageEvents_refused : imgStatusOf sReady 1 (List.replicate 128 0) ≠ 0 := by decide +kernel

/-- A core swapped out whose workspace region is its whole scratchpad, and a restore of it from zeros at address 0. -/
def sRes : State := { State.reset with cores := [(0, { cstate := 2, tlb := [⟨0, 2, 0, 0x3D⟩] })], meshIrqs := [irq 2] }
/-- Where the area holds no message, no record and no firing, and the region is the whole scratchpad, nothing more is read. -/
theorem restoreOffsets_nil (c : Core) (hdr : List (Nat × W64)) (h0 : c.wsLo = 0) (h1 : c.wsHi = 2 ^ 20)
    (h2 : ∀ i ∈ List.range 5, fld (areaW hdr (0x680 + 8 * i)) 0 32 = 0)
    (h3 : ∀ g ∈ List.range 16, ∀ l ∈ List.range 32, (areaBytes hdr (0x400 + 32 * g) 32).getD l 0 = 0) :
    restoreOffsets c [] hdr = [] := by
  have e : (((List.range 131072).map (8 * ·)).filter fun o => !(c.wsLo ≤ o && o < c.wsHi)) = [] := by
    rw [List.filter_eq_nil_iff]; intro o ho
    obtain ⟨i, hi, rfl⟩ := List.mem_map.1 ho
    have := List.mem_range.1 hi
    simp [h0, h1]; omega
  unfold restoreOffsets
  rw [e]
  simp only [List.append_nil, List.map_nil, List.flatMap_nil, List.append_eq_nil_iff, List.flatMap_eq_nil_iff]
  exact ⟨fun i hi => by rw [h2 i hi]; rfl, fun g hg l hl => by rw [h3 g hg l hl]; rfl⟩
theorem wit_TrapPreemptEvents_restore : ∃ h r, readArea 0 (irq 2) ((List.range 256).map (8 * ·)) sRes = some h ∧
    areaW h.2 8 = BitVec.ofNat 64 (gcaOf sRes 0) ∧
    readArea 0 (irq 2) (restoreOffsets (h.1.core 0) (baseFirings h.1 0 (irq 2) h.2) h.2) h.1 = some r := by
  obtain ⟨h, hh, hp⟩ := (Option.any_eq_true _ _).1 (by decide +kernel : ((readArea 0 (irq 2) ((List.range 256).map (8 * ·)) sRes).any fun h =>
    areaW h.2 8 == BitVec.ofNat 64 (gcaOf sRes 0) && ((h.1.core 0).wsLo == 0) && ((h.1.core 0).wsHi == 2 ^ 20) &&
    (baseFirings h.1 0 (irq 2) h.2).isEmpty && ((List.range 5).all fun i => fld (areaW h.2 (0x680 + 8 * i)) 0 32 == 0) &&
    (List.range 16).all fun g => (List.range 32).all fun l => (areaBytes h.2 (0x400 + 32 * g) 32).getD l 0 == 0) = true)
  simp only [Bool.and_eq_true, beq_iff_eq, List.all_eq_true, List.isEmpty_iff] at hp
  obtain ⟨⟨⟨⟨⟨a, b⟩, c⟩, d⟩, e⟩, g⟩ := hp
  exact ⟨h, _, hh, a, by rw [d, restoreOffsets_nil _ _ b c e g]; rfl⟩
/-- A load whose tree places core 0, then core 1 beneath it. -/
def loadOf (arrived ready : List Nat) : LoadSt := ⟨0x100, [], 1, [⟨none, 0, 0⟩, ⟨some 0, 1, 0⟩], arrived, ready⟩
theorem wit_ImageEvents : capReady sReady 3 = true ∧ ({ sReady with load := some (loadOf [] []) } : State).load.isSome = true ∧
    sReady.load = none ∧ sReady.host.imgAsid = 0 ∧ ({ sReady.host with imgAsid := 1 } : HostSt).imgAsid ≠ 0 ∧
    (loadOf [] []).tree.find? (fun e => e.child == 0) = some ⟨none, 0, 0⟩ ∧ 0 ∉ (loadOf [] []).arrived ∧
    (loadOf [] []).tree.find? (fun e => e.child == 1) = some ⟨some 0, 1, 0⟩ ∧ 0 ∉ (loadOf [] []).arrived ∧
    (1 ∈ (loadOf [0, 1] []).arrived ∧ 1 ∉ (loadOf [0, 1] []).ready ∧
      ∀ e ∈ (loadOf [0, 1] []).tree, e.parent = some 1 → e.child ∈ (loadOf [0, 1] []).arrived) ∧
    (∃ e ∈ (loadOf [0, 1] [0]).tree, e.child ∉ (loadOf [0, 1] [0]).ready) ∧
    (∀ e ∈ (loadOf [0, 1] [0, 1]).tree, e.child ∈ (loadOf [0, 1] [0, 1]).ready) ∧ capReady sReady 1 = true ∧
    (0 : W64).toNat % 2 ^ 29 / 4096 = sReady.pkg.toNat ∧ coreHere sReady 0 = true ∧ ({ cstate := 4 } : Core).cstate = 4 := by
  decide +kernel

theorem wit_ImageEvents_key : keyUsable { State.reset with keysFused := 0 } Config.rootKeyIndex = false := by simp [keyUsable]

/-! The invariant, the encodings, the step. -/

theorem wit_MemoryInvariant : Memory.wf State.reset.mem = true ∧ 
    ∃ t, step { State.reset with agenda := [.event (.firingCreation 0)] } = .next t := ⟨rfl, _, rfl⟩
theorem wit_MemoryCanonical : Memory.wf ([⟨3, 5⟩] : List Host.Cell) = true ∧ ∀ a, spGet (0 : Byte) [⟨3, 5⟩] a = spGet (0 : Byte) [⟨3, 5⟩] a :=
  ⟨by decide, fun _ => rfl⟩
theorem wit_DecodeEncode : WellFormed (.tret ⟨h0⟩) ∧ ∃ bs, encodeBytes (.tret ⟨h0⟩) = some bs := ⟨by decide, _, rfl⟩
theorem wit_StepRunsDecoded : ({ State.reset with agenda := [.event (.firingCreation 0)] } : State).agenda = .event (.firingCreation 0) :: [] ∧
    State.reset.agenda = [] := ⟨rfl, rfl⟩
/-- A thread about to issue the NOP at 0x1000. -/
def sStep : State := { stateOf coreI thread with agenda := [.issue 0 false], who := none }
theorem wit_StepRunsDecoded_issue : sStep.agenda = .issue 0 false :: [] ∧ issueOrder (sStep.core 0) false = 0 :: (issueOrder (sStep.core 0) false).drop 1 ∧
    sStep.firing 0 0 = some thread ∧ mayLook (sStep.core 0) 0 thread = true ∧ thread.rel = none ∧ brkHit (sStep.core 0) 0 thread = false ∧
    (sStep.core 0).l1iFind thread.pc.toNat = some ⟨0x80, 0, 0x3D, nops⟩ ∧
    permOk (privileged (sStep.core 0) 0) .fetch 0x3D 0 = true ∧ nops.length = 32 ∧ thread.pc.toNat % 4 = 0 ∧
    thread.pc.toNat % 32 + lenBytes .l64 ≤ 32 ∧ thread.pc.toNat % 32 ≠ 28 ∧ (uses (.nop ⟨h0, .l64⟩)).lane = false ∧
    decodeCheck (privileged (sStep.core 0) 0) thread ((wordAt (nops.drop (thread.pc.toNat % 32)) 0).getLsbD 2) (.nop ⟨h0, .l64⟩) = none ∧
    scoreReady (sStep.core 0) 0 thread (.nop ⟨h0, .l64⟩) = true ∧ fpxReady (sStep.core 0) 0 thread = true ∧ thread.badDep = none ∧
    (chainHolder (sStep.core 0) false).isSome = false ∧ (chainHolder { firings := [(0, { thread with chain := 0x80 })] } false).isSome = true ∧
    unitReady { sStep with tick := sStep.tick + 1, agenda := [] } 0 thread (.nop ⟨h0, .l64⟩) = true := by decide +kernel
theorem wit_StepRunsDecoded_next : decode (nops.drop (thread.pc.toNat % 32)) = .ok (.nop ⟨h0, .l64⟩, .l64) ∧
    ∃ t, exec (.nop ⟨h0, .l64⟩) { sStep with tick := sStep.tick + 1, agenda := [], who := some (0, 0) } = .next t ∧
      issued t 0 0 thread = true := ⟨rfl, _, rfl, by decide⟩
/-- A RECV at 0x1000 with no message at hand begins to wait, and has not issued. -/
def sWait : State := stateOf { coreM with l1i := [⟨0x80, 0, 0x3D, bytesLE 8 (0x0000000200001C21 : W64) ++ nops.take 24⟩] } thread
theorem wit_StepRunsDecoded_waits : look sWait 0 0 thread = .go sWait (.recv ⟨h0, 8, false⟩) .l64 ∧
    ∃ t, exec (.recv ⟨h0, 8, false⟩) sWait = .next t ∧ issued t 0 0 thread = false ∧ t.firing 0 0 ≠ some thread ∧
      (t.firing 0 0).map (·.hold) = some .recv := ⟨by decide +kernel, _, rfl, by decide +kernel⟩
/-- A divide before a divider that another firing's divide holds. -/
def sDiv : State := stateOf { coreM with l1i := [⟨0x80, 0, 0x3D, bytesLE 8 (0x0003818140000051 : W64) ++ nops.take 24⟩] } thread
theorem wit_StepRunsDecoded_unit : ∃ s i, look s 0 0 thread = .go s i .l64 ∧ needOf (s.core 0) thread i = some ⟨0, 36, true⟩ ∧
    unitFree s 0 0 = false := by
  refine ⟨engage sDiv 0 (some ⟨0, 36, true⟩), .div ⟨h0, 5, .reg 6, .src (.reg 7), .wrap, false⟩, by decide +kernel, by decide +kernel, ?_⟩
  show decide (36 ≤ (Config.cyclesOf _ 0 - Config.cyclesOf _ 0).toNat) = false
  rw [BitVec.sub_self]; rfl
theorem wit_StepRunsDecoded_after : sStep.firing 0 0 = some thread ∧ thread.uid = thread.uid ∧ thread.stop = 0 ∧ thread.mode = 0 ∧
    ({ thread with seq := 1 } : Firing).seq ≠ thread.seq ∧ thread.hold ≠ .replay ∧
    ({ thread with seq := 1, hold := .replay } : Firing).hold = .replay ∧ (stopped 1 0).stop ≠ 0 := by decide

/-! The assembler (Tables 2-2 and 2-14, R66 to R69, R76, the worked image of chapter 3). -/

/-- `(guard) ADD s5, s1, s2`, DONE, a NOP of a forced length, `BRU s` and `LEA s1, s2, e`, each by its opcode of
spec/opcode_table.json, its D and its operands in SA, SB and the immediate field. -/
def addIns (g : GuardSrc) : SrcLine := .ins { op := 0x000, guard := g, d := 5, opds := [(.a, .reg 1), (.b, .reg 2)] }
def doneIns : SrcLine := .ins { op := 0x08C }
def nopIns (l : Len) : TextItem × Len := (.ins { forced := some l, op := 0x080 }, l)
def add12 : Instr := .add ⟨h0, 5, .reg 1, .src (.reg 2), .wrap, false⟩
def bruIns (s : String) : SrcLine := .ins { op := 0x083, opds := [(.imm, .target (.sym s.toList))] }
def absEnv : AsmEnv := ⟨[], some (.rel 0 0 0)⟩
theorem test_guard_expression : GuardSrc.head absEnv true false false
    (.expr (.or (.and (.pred ⟨true, 1⟩) (.not (.pred ⟨true, 2⟩))) (.pred ⟨true, 3⟩))) = some ⟨false, false, 1, 2, 3, 0x45⟩ := by decide
theorem test_guard_one : GuardSrc.head absEnv false false false (.expr (.pred ⟨false, 5⟩)) = some ⟨false, false, 5, 0, 0, 0x0F⟩ ∧
    GuardSrc.head absEnv false false false (.expr (.not (.pred ⟨false, 5⟩))) = some ⟨false, false, 5, 0, 0, 0xF0⟩ := by decide
theorem test_guard_table : GuardSrc.head absEnv true false false (.table (.num 0xE8) [⟨true, 1⟩, ⟨true, 2⟩, ⟨true, 3⟩]) =
    some ⟨false, false, 1, 2, 3, 0x17⟩ := by decide
theorem test_guard_wrongFile : GuardSrc.head absEnv true false false (.expr (.pred ⟨false, 5⟩)) = none := by decide
/-- R68: 0.5 is an inline constant, 0.75 fits I32 as FP32, 0.1 in a .F64 operand is an error. -/
theorem test_numeric_f64 : (numFloat .f64 (.dec false 5 (-1))).head? = some (.const 2) ∧
    numFloat .f64 (.dec false 75 (-2)) = [.i32 0x3F400000] ∧ numFloat .f64 (.dec false 1 (-1)) = [] := by decide +kernel
/-- R68: the three cases of an integer operand, in order. -/
theorem test_numeric_int : (numInt 64 7).head? = some (.const 7) ∧ (numInt 64 8).head? = some (.i17 8) ∧
    numInt 64 65536 = [.i32 65536] ∧ numInt 64 (2 ^ 31) = [] := by decide +kernel
/-- R95, R96: MOVI.ZX takes no negative number, and LEA, whose displacement I32 gives with its sign, none from 2^31 on. -/
theorem test_numeric_whole : (AsmOperand.whole (.num 0xFFFFFFFF)).places absEnv 0 = [(.i32 0xFFFFFFFF, none)] ∧
    (AsmOperand.whole (.neg (.num 1))).places absEnv 0 = [] ∧ (AsmOperand.int 64 (.num 0x80000000)).places absEnv 0 = [] := by decide +kernel
/-- R32, R69: the lengths an opcode has for its operands, from its encodings alone: ADD of two registers is one of 64 bits, ADD
with an immediate past the inline constants takes 96, BR takes either field. -/
theorem test_lengths : ({ op := 0x000, d := 5, opds := [(.a, .reg 1), (.b, .reg 2)] } : SrcIns).lens = [.l64] ∧
    ({ op := 0x000, d := 5, opds := [(.a, .reg 1), (.b, .int 64 (.num 100))] } : SrcIns).lens = [.l64, .l96] ∧
    ({ op := 0x083, opds := [(Slot.imm, AsmOperand.target AsmExpr.here)] } : SrcIns).lens = [.l64, .l96] := by decide +kernel
/-- R68, R70, R71: `(0xFF, k3) ADD s5, s1, 100` takes I32, and its guard, true of every value, is the default one. -/
def addImm : SrcIns := { op := 0x000, guard := .table (.num 0xFF) [⟨false, 3⟩], d := 5, opds := [(.a, .reg 1), (.b, .int 64 (.num 100))] }
theorem test_built : (addImm.built [] 0 0 .l96).map (·.instr) =
    some (.add ⟨h0, 5, .reg 1, .imm 100, .wrap, false⟩) := by decide +kernel
/-- Table 2-2. -/
theorem test_padding : ((layoutText [] 0 [nopIns .l64, nopIns .l64, nopIns .l96, nopIns .l128, nopIns .l64, nopIns .l96]).map fun ps =>
      (placedParts 0 ps).filterMap fun e => match e.2 with | .pad _ => some (e.1, 1) | .skip => some (e.1, 2) | _ => none) =
    some [(28, 2), (56, 1)] := by decide +kernel
/-- R114: a label before a padded instruction takes that instruction's start. -/
theorem test_label_after_padding : textSyms [] 0 [nopIns .l128, nopIns .l64, (.mark (.label ['x']), .l64), nopIns .l96] =
    [(['x'], .rel 0 0 32)] := by decide +kernel
theorem test_symbols : symbolOk "vfadd".toList = false ∧ symbolOk "s63".toList = false ∧ symbolOk ".equ".toList = false ∧
    registerSpelt "S64".toList = false ∧ registerSpelt "SR.CORE".toList = true := by decide +kernel
/-- The source of the worked image, its ADD and DONE built. -/
def accumSrc : List SrcLine :=
  [.role "accum".toList { htab := some (.num 0xFE000) }, .seg 0,
   .handler { h := .num 3, wave := false, glade := false, src := 1, pri := some (.num 4), ns := some (.num 16) },
   addIns .absent, doneIns, .endh,
   .place ⟨"accum".toList, .num 0, .num 0, .num 1, .num 1, false⟩]
/-- What it assembles to: one role with its handler's entry and Table 3-2's defaults. -/
def accum : AsmFile :=
  { roles := [{ name := [0x61, 0x63, 0x63, 0x75, 0x6D], base := 0x400000000, text := (encodeBytes add12).getD [] ++ (encodeBytes (.done ⟨h0⟩)).getD [],
                handlers := [(3, ⟨0, false, false, false, false, 1, 1, 4, 16, 0, 0xFF, 0⟩)] }],
    places := [⟨0, 0, 1, 1, 0, false⟩] }
theorem test_image_source : asmFile accumSrc = some accum ∧ natOfLE ((encodeBytes add12).getD []) = 0x0001004140000001 := by
  decide +kernel
theorem test_image_tables : (accum.places.flatMap placeBytes) = [0, 0, 1, 1, 0, 0, 0, 0, 0, 0, 0, 0, 0, 0, 0, 0] ∧
    accum.tree.flatMap edgeBytes = [0xFF, 0xFF, 0, 0, 0, 0, 0, 0, 0, 0, 1, 0, 0, 0, 0, 0, 0, 0, 0x20, 0, 0, 0, 0, 0,
      1, 0, 0x21, 0, 0, 0, 0, 0] := by decide +kernel
theorem test_image_formed : imgFormed accum.body = true := by decide +kernel
/-- R63, R75: a symbol defined twice, .endh without a handler, an open handler at the end. -/
theorem test_source_errors : (({ defs := [['x']] } : AsmPass).line (.label ['x'])).isNone = true ∧ (({} : AsmPass).line .endh).isNone = true ∧
    (asmFile (accumSrc.filter fun l => match l with | .endh => false | _ => true)).isNone = true := by decide +kernel
/-- R114: the offset counts words from the instruction's own address. -/
theorem test_branch_offset : ((asmFile [.label ['x'], addIns .absent, bruIns "x"]).map fun f => f.roles.map fun r =>
    natOfLE (r.text.drop 8) / 2 ^ 47) = some [2 ^ 17 - 2] := by decide +kernel

end Sys2Proof.Tests
end

section
/-! PROOF. The family "machine": what module reset leaves (O27), and the image load, the restart of a core and the module
reset (O26). First what the shared operations of these events change, then the two statements. -/

namespace Sys2Proof.Proofs
open Sys2Proof Sys2Proof.Machine Sys2Proof.Claims Sys2Proof.Laws

/-! ## Cores updated one after another -/

theorem core_updCore (s : State) (n m : Nat) (g : Core → Core) :
    (s.updCore n g).core m = if m = n then g (s.core n) else s.core m := core_setCore s n m _

@[simp] theorem core_updCore_same (s : State) (n : Nat) (g : Core → Core) : (s.updCore n g).core n = g (s.core n) :=
  core_setCore_same s n _

section
variable {β : Type} (key : β → Nat) (g : Core → Core) {P : Core → Prop}

/-- The cores that `key` names in a list, updated in its order. -/
def updCores (s : State) (xs : List β) : State := xs.foldl (fun s b => s.updCore (key b) g) s

theorem updCores_eq (s : State) (xs : List β) : ∃ x, updCores key g s xs = { s with cores := x } := by
  induction xs generalizing s with
  | nil => exact ⟨s.cores, rfl⟩
  | cons b xs ih => exact ih (s.updCore (key b) g)

/-- What the update keeps of a core holds after all of them. -/
theorem core_updCores_keeps (hg : ∀ c, P c → P (g c)) (xs : List β) {s : State} {n : Nat} (h : P (s.core n)) :
    P ((updCores key g s xs).core n) := by
  induction xs generalizing s with
  | nil => exact h
  | cons b xs ih =>
    refine ih (s := s.updCore (key b) g) ?_
    rw [core_updCore]
    split
    · next e => subst e; exact hg _ h
    · exact h

/-- What the update establishes holds of every core updated. -/
theorem core_updCores_mem (hg : ∀ c, P (g c)) {xs : List β} (s : State) {b : β} (hb : b ∈ xs) :
    P ((updCores key g s xs).core (key b)) := by
  induction xs generalizing s with
  | nil => cases hb
  | cons a xs ih =>
    rcases List.mem_cons.mp hb with rfl | hb
    · exact core_updCores_keeps key g (fun c _ => hg c) xs (s := s.updCore (key b) g) (by simpa using hg _)
    · exact ih (s.updCore (key a) g) hb

end

/-- A core that waits, or no longer waits, for its image's load to end. -/
def setLoading (b : Bool) (c : Core) : Core := { c with loading := b }

/-! ## Entries of the host's queue (R380) -/

@[simp] theorem pushHost_load (s : State) (e : List Byte) : (pushHost s e).load = s.load := by
  obtain ⟨x, h, -⟩ := pushHost_eq s e
  rw [h]

@[simp] theorem pushHost_imgStatus (s : State) (e : List Byte) : (pushHost s e).host.imgStatus = s.host.imgStatus := by
  unfold pushHost
  dsimp only
  split
  · rfl
  · split <;> rfl

/-- An entry of no core depends on the module's count of cycles alone. -/
theorem hostEntry_module {s u : State} (h : u.tick = s.tick) (kind site : Nat) (detail : List Byte) :
    hostEntry u kind site none detail = hostEntry s kind site none detail := by
  simp [hostEntry, clkOf, h]

/-- A LOAD entry is reported over every state with the same entries held. -/
theorem reports_pushLoad {s u : State} (ht : u.tick = s.tick) (hr : u.host.rdy = s.host.rdy)
    (hh : u.host.held = s.host.held) (st : Byte) (addr : Nat) :
    Reports s (pushLoad u st addr) 1 0 none ([st] ++ leN 7 0 ++ leN 8 addr) := by
  intro hcap hlen
  have hu : capReady u 4 = false := by rw [← hcap, capReady, capReady, hr]
  unfold pushLoad
  rw [pushHost_held _ hu (by rw [hh]; exact hlen), hostEntry_module ht, hh]

/-! ## The registers of the loader and of the system (Table 18-3) -/

/-- A field that stands behind bytes a is read at their length. -/
theorem leAt_field (a f rest : List Byte) : leAt (a ++ (f ++ rest)) a.length f.length = natOfLE f := by
  simp [leAt]

/-- The greatest body of a capability leaves room for its header within the capability's 0x1000 bytes. -/
theorem capLen_le {k : Nat} (h : k ≤ 9) : capLen k ≤ 0x248 := by
  interval_cases k <;> decide

/-- A write inside the body of a ready capability patches the body, sets the registers from it and gives its commands. -/
theorem devWrite_body {s : State} {k o : Nat} {bs : List Byte} (hr : capReady s k = true) (h1 : 1 ≤ k) (h9 : k ≤ 9)
    (ho : o + bs.length ≤ capLen k) (host : Bool) :
    devWrite s host (capOff k + 16 + o) bs =
      capCommand (setCap s k ((capBody s k).take o ++ bs ++ (capBody s k).drop (o + bs.length))) host k o bs := by
  have hl := capLen_le h9
  have hlow : ¬ 0xF0000000 ≤ capOff k + 16 + o := by unfold capOff; omega
  have hk : (capOff k + 16 + o) / 0x1000 + 1 = k := by unfold capOff; omega
  have hm : (capOff k + 16 + o) % 0x1000 = 16 + o := by unfold capOff; omega
  have h16 : ¬ 16 + o < 16 := by omega
  unfold devWrite
  rw [if_neg hlow]
  simp only [hk, hm, hr, Nat.add_sub_cancel_left, Nat.not_lt.mpr h9, Nat.not_lt.mpr ho, h16, Bool.not_true, Bool.or_false,
    decide_false, Bool.false_eq_true, if_false]

/-- The loader's registers are the first 18 bytes of its body: a write behind them sets them to what they were. -/
theorem setCap_loader (s : State) (rest : List Byte) :
    setCap s 3 (bytesLE 8 s.host.imgAddr ++ (bytesLE 8 s.host.imgLen ++ (bytesLE 2 s.host.imgAsid ++ rest))) = s := by
  have hasid := leAt_field (bytesLE 8 s.host.imgAddr ++ bytesLE 8 s.host.imgLen) (bytesLE 2 s.host.imgAsid) rest
  rw [natOfLE_bytesLE, Nat.mod_eq_of_lt s.host.imgAsid.isLt] at hasid
  simp only [List.append_assoc, List.length_append, bytesLE_length, Nat.reduceAdd] at hasid
  simp [setCap, hasid]

theorem devWrite_imageCommand {s : State} (h : capReady s 3 = true) (cmd : W32) :
    devWrite s true (capOff 3 + 16 + 0x14) (bytesLE 4 cmd) = loadCommand s true cmd.toNat := by
  have hc : leAt (bytesLE 4 cmd) 0 4 = cmd.toNat := by
    rw [leAt, List.drop_zero, List.take_of_length_le (by simp), natOfLE_bytesLE]; exact Nat.mod_eq_of_lt cmd.isLt
  have hb : setCap s 3 ((capBody s 3).take 0x14 ++ bytesLE 4 cmd ++ (capBody s 3).drop (0x14 + (bytesLE 4 cmd).length)) = s := by
    simp only [capBody, List.append_assoc, List.take_append, bytesLE_length, List.take_of_length_le, Nat.reduceLeDiff, Nat.reduceSub]
    exact setCap_loader s _
  rw [devWrite_body h (by decide) (by decide) (by rw [bytesLE_length]; decide), hb]
  simp only [capCommand, covers, bytesLE_length, hc]
  rfl

/-- The package's number stands at offset 4 of the system's body, before the command: a write behind it keeps it. The write
sets the number of packages and the ready dies, and puts memory into its form again. -/
theorem setCap_system (s : State) (part : Nat) (rest : List Byte) :
    ∃ d z m, setCap s 1 (leN 4 part ++ (leN 4 s.pkg.toNat ++ rest)) = { s with diesReady := d, sysSize := z, mem := m } := by
  have hpkg := leAt_field (leN 4 part) (leN 4 s.pkg.toNat) rest
  rw [natOfLE_leN, Nat.mod_eq_of_lt (Nat.lt_trans s.pkg.isLt (by decide))] at hpkg
  simp only [leN_length] at hpkg
  simp only [setCap, hpkg, BitVec.ofNat_toNat, BitVec.setWidth_eq]
  split
  · exact ⟨_, s.sysSize, s.mem, rfl⟩
  · exact ⟨_, _, _, rfl⟩

theorem devWrite_coreRestart {s : State} (h : capReady s 1 = true) (gca : W64) :
    ∃ d z m, devWrite s true (capOff 1 + 16 + 0x10) (bytesLE 8 gca) =
      restart { s with diesReady := d, sysSize := z, mem := m } (gca.toNat % 2 ^ 29) := by
  have hgca : leAt (bytesLE 8 gca) 0 4 % 2 ^ 29 = gca.toNat % 2 ^ 29 := by
    have h4 : (bytesLE 8 gca).take 4 = bytesLE 4 gca := rfl
    rw [leAt, List.drop_zero, h4, natOfLE_bytesLE]
    omega
  have hbody : ∃ rest, (capBody s 1).take 0x10 ++ bytesLE 8 gca ++ (capBody s 1).drop (0x10 + (bytesLE 8 gca).length) =
      leN 4 (partCode s) ++ (leN 4 s.pkg.toNat ++ rest) := by
    simp only [capBody, List.append_assoc, List.take_append, leN_length, List.take_of_length_le, Nat.reduceLeDiff, Nat.reduceSub]
    exact ⟨_, rfl⟩
  obtain ⟨rest, hrest⟩ := hbody
  obtain ⟨d, z, m, hset⟩ := setCap_system s (partCode s) rest
  refine ⟨d, z, m, ?_⟩
  rw [devWrite_body h (by decide) (by decide) (by rw [bytesLE_length]; decide), hrest, hset]
  simp only [capCommand, covers, bytesLE_length]
  exact congrArg (restart _) hgca

/-! ## The loader (R83, R384) -/

/-- A load refused: the status register and a LOAD entry with the status. -/
def refuseLoad (s : State) (st : Byte) (addr : Nat) : State :=
  pushLoad { s with host := { s.host with imgStatus := st } } st addr

@[simp] theorem refuseLoad_load (s : State) (st : Byte) (addr : Nat) : (refuseLoad s st addr).load = s.load :=
  pushHost_load _ _

@[simp] theorem refuseLoad_imgStatus (s : State) (st : Byte) (addr : Nat) : (refuseLoad s st addr).host.imgStatus = st :=
  pushHost_imgStatus _ _

theorem reports_refuseLoad (s : State) (st : Byte) (addr : Nat) :
    Reports s (refuseLoad s st addr) 1 0 none ([st] ++ leN 7 0 ++ leN 8 addr) :=
  reports_pushLoad (s := s) (u := { s with host := { s.host with imgStatus := st } }) rfl rfl rfl st addr

theorem startLoad_busy {s : State} (h : s.load.isSome = true) (addr len : Nat) (asid : BitVec 16) :
    startLoad s addr len asid = refuseLoad s 8 addr := by
  unfold startLoad refuseLoad
  simp only [h, if_true]

section
variable {s : State} {addr len : Nat} {asid : BitVec 16} {b : List Byte} (hl : s.load = none)
  (hb : b = s.getBs (memKey s.pkg.toNat (addr % 2 ^ 47)) len)
include hl hb

theorem startLoad_refused (hst : imgStatusOf s asid b ≠ 0) :
    startLoad s addr len asid = refuseLoad s (imgStatusOf s asid b) addr := by
  unfold startLoad refuseLoad
  simp only [hl, ← hb, Option.isSome_none, Bool.false_eq_true, if_false, bne_iff_ne, ne_eq, hst, not_false_eq_true, if_true]

/-- An accepted load: the segments are written, and every placed core waits for its copy. -/
theorem startLoad_accepted (hst : imgStatusOf s asid b = 0) :
    startLoad s addr len asid =
      { updCores Prod.fst (setLoading true) (loadSegments s asid b) (placed s b) with
        load := some ⟨addr, b, asid, (keptEdges ((placed s b).map (·.1)) (edges b)).map (·.1), [], []⟩ } := by
  unfold startLoad
  simp only [hl, ← hb, hst, Option.isSome_none, Bool.false_eq_true, if_false, bne_self_eq_false]
  rfl

end

theorem loadCommand_ignored {s : State} {cmd : Nat} (h : cmd ≠ 1) (host : Bool) : loadCommand s host cmd = s := by
  simp [loadCommand, h]

theorem loadCommand_busy {s : State} (h : s.load.isSome = true) (host : Bool) :
    loadCommand s host 1 = refuseLoad s 8 s.host.imgAddr.toNat := by
  simp [loadCommand, h, startLoad_busy]

theorem loadCommand_asidZero {s : State} (h : s.load = none) (ha : s.host.imgAsid = 0) :
    loadCommand s true 1 = refuseLoad s 2 s.host.imgAddr.toNat := by
  simp [loadCommand, refuseLoad, h, ha]

theorem loadCommand_starts {s : State} (h : s.load = none) (ha : s.host.imgAsid ≠ 0) :
    loadCommand s true 1 = startLoad s s.host.imgAddr.toNat s.host.imgLen.toNat s.host.imgAsid := by
  have hb : (s.host.imgAsid == 0) = false := beq_false_of_ne ha
  unfold loadCommand
  simp only [h, hb, bne_self_eq_false, Option.isSome_none, Bool.and_false, Bool.false_eq_true, if_false]

/-! ## The end of a load (R83) -/

/-- Nothing waited at a core whose inbox is empty. -/
theorem admitWaiting_empty {s : State} {n : Nat} (h : (s.core n).inbox = []) :
    ∃ x, admitWaiting s n = { s with cores := x } ∧ ∀ m, (admitWaiting s n).core m = s.core m := by
  unfold admitWaiting
  dsimp only
  split
  · exact ⟨s.cores, rfl, fun _ => rfl⟩
  · rw [h]
    refine ⟨_, rfl, fun m => ?_⟩
    rw [List.foldl_nil, core_setCore]
    split
    · next e => rw [e, ← h]
    · rfl

theorem admitWaiting_foldl_empty (ns : List Nat) {s : State} (h : ∀ n, (s.core n).inbox = []) :
    ∃ x, ns.foldl admitWaiting s = { s with cores := x } ∧ ∀ m, (ns.foldl admitWaiting s).core m = s.core m := by
  induction ns generalizing s with
  | nil => exact ⟨s.cores, rfl, fun _ => rfl⟩
  | cons n ns ih =>
    obtain ⟨x, hx, hc⟩ := admitWaiting_empty (h n)
    obtain ⟨y, hy, hd⟩ := ih (s := admitWaiting s n) fun m => by rw [hc]; exact h m
    refine ⟨y, ?_, fun m => (hd m).trans (hc m)⟩
    rw [List.foldl_cons, hy, hx]

/-- The load of l has ended: its cores no longer wait, and the status register and the image measured are its own. -/
def loadEnded (s : State) (l : LoadSt) : State :=
  let v := updCores BootEdge.child (setLoading false) s l.tree
  { v with load := none, loaded := true, host := { v.host with imgStatus := 0, imgLast := l.bytes } }

theorem core_loadEnded (s : State) (l : LoadSt) (n : Nat) :
    (loadEnded s l).core n = (updCores BootEdge.child (setLoading false) s l.tree).core n := core_congr rfl rfl rfl n

theorem loadEnded_eq (s : State) (l : LoadSt) : ∃ x, loadEnded s l =
    { s with load := none, loaded := true, host := { s.host with imgStatus := 0, imgLast := l.bytes }, cores := x } := by
  obtain ⟨x, hx⟩ := updCores_eq BootEdge.child (setLoading false) s l.tree
  exact ⟨x, by unfold loadEnded; rw [hx]⟩

/-- Where nothing waited for the image, the cores are admitted without a change. -/
theorem admitWaiting_loadEnded {s : State} (l : LoadSt) (ns : List Nat) (hi : ∀ n, (s.core n).inbox = []) :
    ∃ x, ns.foldl admitWaiting (loadEnded s l) =
        { s with load := none, loaded := true, host := { s.host with imgStatus := 0, imgLast := l.bytes }, cores := x } ∧
      ∀ e ∈ l.tree, ((ns.foldl admitWaiting (loadEnded s l)).core e.child).loading = false := by
  have hinbox : ∀ n, ((loadEnded s l).core n).inbox = [] := fun n => by
    rw [core_loadEnded]
    exact core_updCores_keeps (P := fun c => c.inbox = []) BootEdge.child (setLoading false) (fun _ h => h) l.tree (hi n)
  obtain ⟨x, hx, hc⟩ := admitWaiting_foldl_empty ns hinbox
  obtain ⟨y, hy⟩ := loadEnded_eq s l
  refine ⟨x, by rw [hx, hy], fun e he => ?_⟩
  rw [hc, core_loadEnded]
  exact core_updCores_mem (P := fun c => c.loading = false) BootEdge.child (setLoading false) (fun _ => rfl) s he

/-! ## Killing every firing of a core (R359, R389) -/

/-- A slot that is freed is free, and no other slot below the ghosts changes. -/
theorem firing_free {r : Nat} (hr : r ≤ trapSlot) (c : Core) (sl : Nat) (f : Firing) :
    (c.free sl f).firing r = if r = sl then none else c.firing r := by
  have hg : r ≠ ghostSlot + f.uid := by unfold trapSlot at hr; unfold ghostSlot; omega
  have hd : spFind (spDel c.firings sl) r = if r = sl then none else c.firing r := spFind_spDel _ _ _
  unfold Core.free
  dsimp only
  split
  · exact hd
  · rw [coreFiring_setFiring, if_neg hg]
    exact hd

theorem firing_killFiring {r : Nat} (hr : r ≤ trapSlot) (s : State) (n sl : Nat) :
    (killFiring s n sl).firing n r = if r = sl then none else s.firing n r := by
  unfold killFiring
  split
  · next h =>
    split
    · next e => rw [e, h]
    · rfl
  · obtain ⟨-, -, -, -, -, hf⟩ := poolMoved_frame (countOff_moves (s.setCore n ((s.core n).free sl _)) n _ _)
    unfold endFiring
    rw [hf, firing_setCore_same, firing_free hr]
    rfl

theorem firing_killFiring_foldl {r : Nat} (hr : r ≤ trapSlot) (n : Nat) (sls : List Nat) (s : State) :
    (sls.foldl (fun s sl => killFiring s n sl) s).firing n r = if r ∈ sls then none else s.firing n r := by
  induction sls generalizing s with
  | nil => simp
  | cons sl sls ih =>
    rw [List.foldl_cons, ih, firing_killFiring hr]
    by_cases h : r = sl <;> simp [h]

theorem mem_of_spFind {α : Type} {l : Sparse α} {n : Nat} {a : α} (h : spFind l n = some a) : (n, a) ∈ l := by
  induction l with
  | nil => cases h
  | cons e t ih =>
    obtain ⟨k, b⟩ := e
    unfold spFind at h
    split at h
    · next e => cases h; exact e ▸ List.mem_cons_self
    · exact List.mem_cons_of_mem _ (ih h)

/-- Every slot that holds a firing is a live one. -/
theorem mem_live {c : Core} {r : Nat} {f : Firing} (hr : r ≤ trapSlot) (h : c.firing r = some f) :
    r ∈ c.live.map (·.1) :=
  List.mem_map.mpr ⟨(r, f), List.mem_filter.mpr ⟨mem_of_spFind h, by simpa using hr⟩, rfl⟩

theorem firing_killAll {r : Nat} (hr : r ≤ trapSlot) (s : State) (n : Nat) : (killAll s n).firing n r = none := by
  unfold killAll
  rw [firing_killFiring_foldl hr]
  split
  · rfl
  · next h =>
    cases hf : s.firing n r with
    | none => rfl
    | some f => exact absurd (mem_live hr hf) h

theorem restart_eq {s : State} {gca : Nat} (hp : gca / 4096 = s.pkg.toNat) (hn : coreHere s (gca % 4096) = true)
    (hc : (s.core (gca % 4096)).cstate = 4) :
    restart s gca = (killAll s (gca % 4096)).updCore (gca % 4096) fun c => { c with trapQ := [], cstate := 0 } := by
  simp [restart, hp, hn, hc]

/-! ## The module at reset (R11, R382) -/

/-- Every core of the module is as at reset: the horizons that hold before the first is published are its own. -/
theorem core_reset (n : Nat) : State.reset.core n = Core.reset := rfl

/-- A core without an image has no handler (R83). -/
theorem entry_unplaced {c : Core} (hp : c.placed = false) (h : Nat) : c.entry h = none := by
  unfold Core.entry
  split
  · simp [hp]
  · rfl

/-- The fuses stay through a reset: what the root cannot verify, for its signature or its key, it does not verify after. -/
theorem rootVerifies_resetState {s : State} {bytes sig : List Byte}
    (h : Config.sigVerifies bytes Config.rootKeyIndex sig = false ∨ keyUsable s Config.rootKeyIndex = false) :
    rootVerifies (resetState s) bytes sig = false := by
  have hkey : keyUsable (resetState s) Config.rootKeyIndex = keyUsable s Config.rootKeyIndex := rfl
  unfold rootVerifies
  rw [hkey]
  rcases h with h | h <;> rw [h]
  · exact Bool.and_false _
  · exact Bool.false_and _

/-- Module reset ends in the reset state but for the launch table base and the firing of the firmware; where the stage does not
verify, in the reset state itself. -/
theorem exec_moduleReset (s : State) :
    ∃ t, exec .moduleReset s = .next t ∧ (∃ b x cs, t = { resetState s with launchBase := b, fresh := x, cores := cs }) ∧
      (∀ n, (t.core n).cstate = 0) ∧
      (rootVerifies (resetState s) Config.stageBytes Config.stageSignature = false → t = resetState s) := by
  show ∃ t, execModuleReset s = .next t ∧ _
  unfold execModuleReset
  dsimp only
  split
  · exact ⟨_, rfl, ⟨_, _, _, rfl⟩, fun _ => rfl, fun _ => rfl⟩
  · next h =>
    have hv : rootVerifies (resetState s) Config.stageBytes Config.stageSignature ≠ false := by simpa using h
    split
    · exact ⟨_, rfl, ⟨_, _, _, rfl⟩, fun _ => rfl, fun hn => absurd hn hv⟩
    · refine ⟨_, rfl, ⟨_, _, _, rfl⟩, fun n => ?_, fun hn => absurd hn hv⟩
      rw [core_updCore]
      split <;> rfl

/-! ## The events of an image load (R83, R84, R384, R389) -/

theorem exec_imageLoadCommand {s : State} (h : capReady s 3 = true) (cmd : W32) :
    exec (.imageLoadCommand cmd) s = .next (loadCommand s true cmd.toNat) :=
  congrArg _ (devWrite_imageCommand h cmd)

/-- Core n of load l has its copy, along edge e. -/
def forwarded (s : State) (n : Nat) (l : LoadSt) (e : BootEdge) : State :=
  { s.updCore n fun c => takeImage c l.bytes e.role l.asid with load := some { l with arrived := l.arrived ++ [n] } }

theorem core_forwarded (s : State) (n : Nat) (l : LoadSt) (e : BootEdge) :
    (forwarded s n l e).core n = takeImage (s.core n) l.bytes e.role l.asid :=
  core_updCore_same s n fun c => takeImage c l.bytes e.role l.asid

section
variable {s : State} {n : Nat} {l : LoadSt} {e : BootEdge} (hl : s.load = some l)
include hl

/-- The core's copy comes along its edge once its parent has its own (R83). -/
theorem exec_bootTreeForward (he : l.tree.find? (fun e => e.child == n) = some e) (hn : n ∉ l.arrived)
    (hp : ∀ p, e.parent = some p → p ∈ l.arrived) :
    exec (.bootTreeForward n) s = .next (forwarded s n l e) := by
  show execBootTreeForward n s = _
  unfold execBootTreeForward
  cases hpar : e.parent with
  | none => simp [hl, he, hn, hpar, forwarded]
  | some p => simp [hl, he, hn, hpar, hp p hpar, forwarded]

/-- The core waits for its parent's copy (R83). -/
theorem exec_bootTreeForward_waits (he : l.tree.find? (fun e => e.child == n) = some e) {p : Nat} (hp : e.parent = some p)
    (hn : p ∉ l.arrived) : exec (.bootTreeForward n) s = .next s := by
  show execBootTreeForward n s = _
  unfold execBootTreeForward
  simp [hl, he, hp, hn]

theorem exec_coreReadyReport (ha : n ∈ l.arrived) (hr : n ∉ l.ready)
    (hc : ∀ e ∈ l.tree, e.parent = some n → e.child ∈ l.arrived) :
    exec (.coreReadyReport n) s = .next { s with load := some { l with ready := l.ready ++ [n] } } := by
  show execCoreReadyReport n s = _
  unfold execCoreReadyReport
  simp only [hl]
  rw [if_neg]
  simpa [ha, hr] using hc

theorem exec_coreReadyReport_waits (ha : n ∉ l.arrived) : exec (.coreReadyReport n) s = .next s := by
  show execCoreReadyReport n s = _
  unfold execCoreReadyReport
  simp [hl, ha]

theorem exec_imageLoaded_waits (h : ∃ e ∈ l.tree, e.child ∉ l.ready) : exec .imageLoaded s = .next s := by
  show execImageLoaded s = _
  unfold execImageLoaded
  simp [hl, h]

/-- Once every placed core has reported the load ends: what waited for the image is admitted, and a LOAD entry says so. -/
theorem exec_imageLoaded (h : ∀ e ∈ l.tree, e.child ∈ l.ready) :
    exec .imageLoaded s =
      .next (pushLoad (((loadEnded s l).cores.map (·.1)).foldl admitWaiting (loadEnded s l)) 0 l.addr) := by
  show execImageLoaded s = _
  have hall : (l.tree.any fun e => !l.ready.contains e.child) = false := by simpa using h
  unfold execImageLoaded
  simp only [hl, hall, Bool.false_eq_true, if_false]
  rfl

end

/-- The restart of a halted core of this package (R389): its firings are killed and its trap queue is emptied. -/
theorem exec_coreRestart {s : State} {gca : W64} {n : Nat} (hr : capReady s 1 = true) (hn : n = gca.toNat % 2 ^ 29 % 4096)
    (hp : gca.toNat % 2 ^ 29 / 4096 = s.pkg.toNat) (hh : coreHere s n = true) (hc : (s.core n).cstate = 4) :
    ∃ d z m, exec (.coreRestart gca) s = .next ((killAll { s with diesReady := d, sysSize := z, mem := m } n).updCore n
      fun c => { c with trapQ := [], cstate := 0 }) := by
  obtain ⟨d, z, m, h⟩ := devWrite_coreRestart hr gca
  subst hn
  exact ⟨d, z, m, congrArg _ (h.trans (restart_eq hp hh hc))⟩

end Sys2Proof.Proofs

/-! ## The statements -/

namespace Sys2Proof.Settled
open Sys2Proof Sys2Proof.Machine Sys2Proof.Claims Sys2Proof.Laws Sys2Proof.Proofs

/-- Settles O26, an event at a time: the load command, the copies and reports, the end of the load, the restart and the
module reset. -/
theorem imageEvents : Obligations.ImageEvents := by
  unfold Obligations.ImageEvents
  refine ⟨?command, ?tree, ?ended, ?restart, ?reset⟩
  case command =>
    intro s cmd b hready hb
    rw [exec_imageLoadCommand hready]
    refine ⟨?busy, ?asidZero, ?refused, ?accepted, ?ignored⟩
    case busy =>
      rintro rfl hl
      exact ⟨_, congrArg _ (loadCommand_busy hl true), refuseLoad_load .., refuseLoad_imgStatus .., reports_refuseLoad s _ _⟩
    case asidZero =>
      rintro rfl hl ha
      exact ⟨_, congrArg _ (loadCommand_asidZero hl ha), (refuseLoad_load ..).trans hl, refuseLoad_imgStatus ..,
        reports_refuseLoad s _ _⟩
    case refused =>
      rintro rfl hl ha hst
      exact ⟨_, congrArg _ ((loadCommand_starts hl ha).trans (startLoad_refused hl hb hst)), (refuseLoad_load ..).trans hl,
        refuseLoad_imgStatus .., reports_refuseLoad s _ _⟩
    case accepted =>
      rintro rfl hl ha hst
      exact ⟨_, _, congrArg _ ((loadCommand_starts hl ha).trans (startLoad_accepted hl hb hst)), rfl, rfl, rfl, rfl, rfl, rfl,
        fun p hp => core_updCores_mem (P := fun c => c.loading = true) Prod.fst _ (fun _ => rfl) _ hp⟩
    case ignored =>
      intro hcmd
      have hne : cmd.toNat ≠ 1 := fun h => hcmd (BitVec.eq_of_toNat_eq h)
      exact ⟨_, congrArg _ (loadCommand_ignored hne true), rfl, rfl⟩
  case tree =>
    intro s n l e hl he
    refine ⟨fun hn hp => ⟨_, exec_bootTreeForward hl he hn hp, rfl, rfl, ?_⟩,
      fun p hp hn => exec_bootTreeForward_waits hl he hp hn,
      fun ha hr hc => exec_coreReadyReport hl ha hr hc, fun ha => exec_coreReadyReport_waits hl ha⟩
    rw [core_forwarded]
    exact ⟨rfl, rfl, rfl, rfl, rfl, rfl, rfl⟩
  case ended =>
    intro s l hl
    refine ⟨exec_imageLoaded_waits hl, fun hall hi => ?_⟩
    obtain ⟨x, hu, hload⟩ := admitWaiting_loadEnded l ((loadEnded s l).cores.map (·.1)) hi
    refine ⟨_, exec_imageLoaded hl hall, ?_, ?_, fun e he => ?_, reports_pushLoad ?_ ?_ ?_ 0 l.addr⟩
    · exact (pushHost_load ..).trans (by rw [hu])
    · exact (pushHost_imgStatus ..).trans (by rw [hu])
    · exact (congrArg Core.loading (core_pushHost ..)).trans (hload e he)
    all_goals rw [hu]
  case restart =>
    intro s gca n hready hn hp hh hc
    obtain ⟨d, z, m, hexec⟩ := exec_coreRestart hready hn hp hh hc
    refine ⟨_, hexec, ?_, ?_, fun sl hsl => ?_⟩
    · rw [core_updCore_same]
    · rw [core_updCore_same]
    · rw [State.firing, core_updCore_same]
      exact firing_killAll hsl _ n
  case reset =>
    intro s
    obtain ⟨_, hexec, ⟨b, x, cs, rfl⟩, hstate, hroot⟩ := exec_moduleReset s
    refine ⟨_, hexec, rfl, rfl, rfl, rfl, rfl, rfl, rfl, rfl, hstate, fun hfail n sl => ?_⟩
    rw [hroot (rootVerifies_resetState hfail)]
    rfl

/-- Settles O27: nothing is listed in the reset state, so every read gives what an unlisted key reads as. -/
theorem resetState : Obligations.ResetState := by
  unfold Obligations.ResetState
  refine ⟨by decide, fun k => BitVec.getLsbD_zero, rfl, rfl, rfl, ?_, fun _ => rfl, rfl⟩
  rintro n c rfl
  rw [core_reset]
  exact ⟨rfl, rfl, rfl, rfl, rfl, rfl, rfl, rfl, rfl, rfl, rfl, rfl, rfl, rfl, rfl, fun _ => rfl, entry_unplaced rfl⟩

end Sys2Proof.Settled
end

section
/-! PROOF. The family "scalar": sums, products and quotients (O1), logic, shifts, counts and fields (O34), what the scalar
integer, predicate and control forms leave unchanged (O35), moves and selection (O3). First what the operations of group 000
compute and what a firing keeps through the shared operations, then the four statements. -/

namespace Sys2Proof.Proofs
open Sys2Proof Sys2Proof.Machine Sys2Proof.Claims Sys2Proof.Laws

/-! ## What the issuing firing of a form of group 000 becomes (R87) -/

theorem onF_gives {s : State} {n sl : Nat} {f : Firing} (hi : Issues s n sl f) (g : Firing → Firing) :
    onF s g = .next (s.setFiring n sl (g f)) := onF_issues hi.1 hi.2 g

theorem aluExec_gives {s : State} {n sl : Nat} {f : Firing} (hi : Issues s n sl f) (o : AluOps) (g : W64 → W64 → W64) :
    aluExec o g s = .next (s.setFiring n sl (aluTo f o (g (f.srcS o.a) (f.srcSI o.b)))) := onF_gives hi _

theorem unExec_gives {s : State} {n sl : Nat} {f : Firing} (hi : Issues s n sl f) (o : UnOps) (g : W64 → W64) :
    unExec o g s = .next (s.setFiring n sl (unTo f o (g (f.srcS o.a)))) := onF_gives hi _

/-! ## Words read as integers, and integers made words (R56, R87) -/

theorem rdI_signed (w : Bool) (x : W64) : rdI (wOf w) true x = sintW w x := by cases w <;> rfl

theorem rdI_unsigned (w : Bool) (x : W64) : rdI (wOf w) false x = uintW w x := by cases w <;> rfl

theorem sintW_bounds (w : Bool) (x : W64) : -2 ^ (bits w - 1) ≤ sintW w x ∧ sintW w x < 2 ^ (bits w - 1) := by
  cases w
  · exact ⟨BitVec.le_toInt x, BitVec.toInt_lt⟩
  · exact ⟨BitVec.le_toInt (x.setWidth 32), BitVec.toInt_lt⟩

theorem uintW_bounds (w : Bool) (x : W64) : 0 ≤ uintW w x ∧ uintW w x < 2 ^ bits w := by
  cases w
  · exact ⟨Int.natCast_nonneg _, Int.ofNat_lt.mpr x.isLt⟩
  · exact ⟨Int.natCast_nonneg _, Int.ofNat_lt.mpr (x.setWidth 32).isLt⟩

theorem two_pow_bits (w : Bool) : (2 : Int) ^ bits w = 2 * 2 ^ (bits w - 1) := by cases w <;> rfl

/-- A word extended by sign is the integer's low bits read as a signed number. -/
theorem extR_signed (w : Bool) (x : Int) : (extR (wOf w) true x).toInt = x.bmod (2 ^ bits w) := by
  cases w
  · exact BitVec.toInt_ofInt x
  · exact (BitVec.toInt_signExtend_of_le (x := BitVec.ofInt 32 x) (by decide)).trans (BitVec.toInt_ofInt x)

/-- A word extended by zero is the integer's low bits read as an unsigned number. -/
theorem extR_unsigned (w : Bool) (x : Int) : ((extR (wOf w) false x).toNat : Int) = x % 2 ^ bits w := by
  have low (k : Nat) : ((BitVec.ofInt k x).toNat : Int) = x % (2 ^ k : Nat) := by
    rw [BitVec.toNat_ofInt]
    exact Int.toNat_of_nonneg (Int.emod_nonneg x (by positivity))
  cases w
  · exact low 64
  · have hx : ((BitVec.ofInt 32 x).setWidth 64).toNat = (BitVec.ofInt 32 x).toNat :=
      BitVec.toNat_setWidth_of_le (by decide)
    exact (congrArg Nat.cast hx).trans (low 32)

theorem extR_signed_of_mem {w : Bool} {x : Int} (hlo : -2 ^ (bits w - 1) ≤ x) (hhi : x < 2 ^ (bits w - 1)) :
    (extR (wOf w) true x).toInt = x := by
  have hm : ((2 ^ bits w : Nat) : Int) = 2 * 2 ^ (bits w - 1) := by push_cast; exact two_pow_bits w
  rw [extR_signed]
  exact Int.bmod_eq_of_le (by omega) (by omega)

theorem extR_unsigned_of_mem {w : Bool} {x : Int} (hlo : 0 ≤ x) (hhi : x < 2 ^ bits w) :
    ((extR (wOf w) false x).toNat : Int) = x := by
  rw [extR_unsigned, Int.emod_eq_of_lt hlo hhi]

/-! ## Saturation (R89) -/

/-- Choosing an end of a range or the number itself is clamping. -/
theorem ite_eq_clamp {lo hi : Int} (h : lo ≤ hi) (x : Int) :
    (if x < lo then lo else if hi < x then hi else x) = max lo (min hi x) := by omega

theorem clampI_signed (w : Bool) (x : Int) :
    clampI (wOf w) true x = max (-2 ^ (bits w - 1)) (min (2 ^ (bits w - 1) - 1) x) :=
  have hp : (0 : Int) < 2 ^ (bits w - 1) := by positivity
  ite_eq_clamp (lo := -2 ^ (bits w - 1)) (hi := 2 ^ (bits w - 1) - 1) (by omega) x

theorem clampI_unsigned (w : Bool) (x : Int) : clampI (wOf w) false x = max 0 (min (2 ^ bits w - 1) x) :=
  have hp : (0 : Int) < 2 ^ bits w := by positivity
  ite_eq_clamp (lo := 0) (hi := 2 ^ bits w - 1) (by omega) x

/-- The operation under SAT is the exact one, wrapped or clamped as the mode says. -/
theorem satResult_satOp (g : Int → Int → Int) (sat : Sat) (w : Bool) (a b : W64) :
    SatResult g sat w a b (satOp g sat (wOf w) a b) := by
  have hp : (0 : Int) < 2 ^ (bits w - 1) := by positivity
  have hq : (0 : Int) < 2 ^ bits w := by positivity
  cases sat with
  | wrap =>
    show (extR (wOf w) true _).toInt = _
    rw [extR_signed, rdI_signed, rdI_signed]
  | ss =>
    show (extR (wOf w) true (clampI (wOf w) true _)).toInt = _
    rw [clampI_signed, rdI_signed, rdI_signed]
    exact extR_signed_of_mem (by omega) (by omega)
  | us =>
    show ((extR (wOf w) false (clampI (wOf w) false _)).toNat : Int) = _
    rw [clampI_unsigned, rdI_unsigned, rdI_unsigned]
    exact extR_unsigned_of_mem (by omega) (by omega)

/-! ## High products (Table 4-3) -/

theorem toInt_mulhOp (w : Bool) (a b : W64) :
    (mulhOp true (wOf w) a b).toInt = sintW w a * sintW w b / 2 ^ bits w := by
  obtain ⟨ha, ha'⟩ := sintW_bounds w a
  obtain ⟨hb, hb'⟩ := sintW_bounds w b
  have hp : (0 : Int) < 2 ^ bits w := by positivity
  have hm := two_pow_bits w
  have hab : |sintW w a * sintW w b| ≤ 2 ^ (bits w - 1) * 2 ^ (bits w - 1) := by
    rw [abs_mul]
    exact mul_le_mul (abs_le.mpr ⟨ha, ha'.le⟩) (abs_le.mpr ⟨hb, hb'.le⟩) (abs_nonneg _) (by positivity)
  obtain ⟨hlo, hhi⟩ := abs_le.mp hab
  show (extR (wOf w) true (_ / 2 ^ bits w)).toInt = _
  rw [rdI_signed, rdI_signed]
  exact extR_signed_of_mem ((Int.le_ediv_iff_mul_le hp).mpr (by nlinarith)) (Int.ediv_lt_of_lt_mul hp (by nlinarith))

theorem toNat_mulhOp (w : Bool) (a b : W64) :
    ((mulhOp false (wOf w) a b).toNat : Int) = uintW w a * uintW w b / 2 ^ bits w := by
  obtain ⟨ha, ha'⟩ := uintW_bounds w a
  obtain ⟨hb, hb'⟩ := uintW_bounds w b
  show ((extR (wOf w) false (_ / 2 ^ bits w)).toNat : Int) = _
  rw [rdI_unsigned, rdI_unsigned]
  exact extR_unsigned_of_mem (Int.ediv_nonneg (mul_nonneg ha hb) (by positivity))
    (Int.ediv_lt_of_lt_mul (by positivity) (mul_lt_mul'' ha' hb' ha hb))

/-! ## Quotients and remainders (R90, Table 4-5) -/

/-- A quotient of a range's numbers leaves the range only where its least number is divided by -1. -/
theorem tdiv_mem {m x y : Int} (hlo : -m ≤ x) (hhi : x < m) (hxy : ¬(x = -m ∧ y = -1)) :
    -m ≤ x.tdiv y ∧ x.tdiv y < m := by
  have habs : (x.tdiv y).natAbs ≤ x.natAbs := Int.natAbs_tdiv_le_natAbs x y
  refine ⟨by omega, ?_⟩
  by_contra hge
  have hx : x = -m := by omega
  have hquot : m / -y = m := by
    rw [← Int.tdiv_eq_ediv_of_nonneg (by omega), Int.tdiv_neg, ← Int.neg_tdiv, ← hx]
    omega
  have hlt : m / -y < m := Int.ediv_lt_self_of_pos_of_ne_one (by omega) fun h => hxy ⟨hx, by omega⟩
  omega

theorem toInt_divOp (w : Bool) (a b : W64) : (divOp true (wOf w) a b).toInt =
    if sintW w b = 0 then -1
    else if sintW w a = -2 ^ (bits w - 1) ∧ sintW w b = -1 then -2 ^ (bits w - 1)
    else (sintW w a).tdiv (sintW w b) := by
  obtain ⟨ha, ha'⟩ := sintW_bounds w a
  have hp : (0 : Int) < 2 ^ (bits w - 1) := by positivity
  show (extR (wOf w) true (if rdI (wOf w) true b = 0 then -1 else _)).toInt = _
  rw [rdI_signed, rdI_signed]
  split
  · exact extR_signed_of_mem (by omega) (by omega)
  · split
    · next h =>
      rw [h.1, h.2, extR_signed]
      cases w <;> decide
    · next h => exact extR_signed_of_mem (tdiv_mem ha ha' h).1 (tdiv_mem ha ha' h).2

theorem toNat_divOp (w : Bool) (a b : W64) : ((divOp false (wOf w) a b).toNat : Int) =
    if uintW w b = 0 then 2 ^ bits w - 1 else uintW w a / uintW w b := by
  obtain ⟨ha, ha'⟩ := uintW_bounds w a
  obtain ⟨hb, -⟩ := uintW_bounds w b
  show ((extR (wOf w) false (if rdI (wOf w) false b = 0 then -1 else _)).toNat : Int) = _
  rw [rdI_unsigned, rdI_unsigned]
  split
  · rw [extR_unsigned]
    cases w <;> decide
  · rw [Int.tdiv_eq_ediv_of_nonneg ha]
    exact extR_unsigned_of_mem (Int.ediv_nonneg ha hb) ((Int.ediv_le_self _ ha).trans_lt ha')

theorem toInt_remOp (w : Bool) (a b : W64) : (remOp true (wOf w) a b).toInt =
    if sintW w b = 0 then sintW w a else sintW w a - (sintW w a).tdiv (sintW w b) * sintW w b := by
  obtain ⟨ha, ha'⟩ := sintW_bounds w a
  show (extR (wOf w) true (if rdI (wOf w) true b = 0 then _ else _)).toInt = _
  rw [rdI_signed, rdI_signed, mul_comm, ← Int.tmod_def]
  split
  · exact extR_signed_of_mem ha ha'
  · next h =>
    obtain ⟨hb, hb'⟩ := sintW_bounds w b
    have hlt : ((sintW w a).tmod (sintW w b)).natAbs < (sintW w b).natAbs := by
      rw [Int.natAbs_tmod]
      exact Nat.mod_lt _ (Int.natAbs_pos.mpr h)
    exact extR_signed_of_mem (by omega) (by omega)

theorem toNat_remOp (w : Bool) (a b : W64) : ((remOp false (wOf w) a b).toNat : Int) =
    if uintW w b = 0 then uintW w a else uintW w a - uintW w a / uintW w b * uintW w b := by
  obtain ⟨ha, ha'⟩ := uintW_bounds w a
  obtain ⟨hb, hb'⟩ := uintW_bounds w b
  show ((extR (wOf w) false (if rdI (wOf w) false b = 0 then _ else _)).toNat : Int) = _
  rw [rdI_unsigned, rdI_unsigned, Int.tmod_eq_emod_of_nonneg ha, mul_comm, ← Int.emod_def]
  split
  · exact extR_unsigned_of_mem ha ha'
  · next h => exact extR_unsigned_of_mem (Int.emod_nonneg _ h) ((Int.emod_lt_of_pos _ (by omega)).trans hb')

/-! ## Least and greatest (Table 4-3) -/

theorem toInt_minOp (w : Bool) (a b : W64) : (minOp true (wOf w) a b).toInt = min (sintW w a) (sintW w b) := by
  obtain ⟨ha, ha'⟩ := sintW_bounds w a
  obtain ⟨hb, hb'⟩ := sintW_bounds w b
  show (extR (wOf w) true (min _ _)).toInt = _
  rw [rdI_signed, rdI_signed]
  exact extR_signed_of_mem (le_min ha hb) (min_lt_of_left_lt ha')

theorem toInt_maxOp (w : Bool) (a b : W64) : (maxOp true (wOf w) a b).toInt = max (sintW w a) (sintW w b) := by
  obtain ⟨ha, ha'⟩ := sintW_bounds w a
  obtain ⟨hb, hb'⟩ := sintW_bounds w b
  show (extR (wOf w) true (max _ _)).toInt = _
  rw [rdI_signed, rdI_signed]
  exact extR_signed_of_mem (le_max_of_le_left ha) (max_lt ha' hb')

theorem toNat_minOp (w : Bool) (a b : W64) : ((minOp false (wOf w) a b).toNat : Int) = min (uintW w a) (uintW w b) := by
  obtain ⟨ha, ha'⟩ := uintW_bounds w a
  obtain ⟨hb, hb'⟩ := uintW_bounds w b
  show ((extR (wOf w) false (min _ _)).toNat : Int) = _
  rw [rdI_unsigned, rdI_unsigned]
  exact extR_unsigned_of_mem (le_min ha hb) (min_lt_of_left_lt ha')

theorem toNat_maxOp (w : Bool) (a b : W64) : ((maxOp false (wOf w) a b).toNat : Int) = max (uintW w a) (uintW w b) := by
  obtain ⟨ha, ha'⟩ := uintW_bounds w a
  obtain ⟨hb, hb'⟩ := uintW_bounds w b
  show ((extR (wOf w) false (max _ _)).toNat : Int) = _
  rw [rdI_unsigned, rdI_unsigned]
  exact extR_unsigned_of_mem (le_max_of_le_left ha) (max_lt ha' hb')

/-! ## Shifts, bit by bit (R91) -/

/-- A shift or rotation works on the low word, and its result is extended (R91). -/
theorem shlOp_eq (w : Bool) (a b : W64) : shlOp (wOf w) a b = (a.setWidth (bits w) <<< b.toNat).setWidth 64 := by
  unfold shlOp
  split
  · next h =>
    have hz := BitVec.shiftLeft_eq_zero (x := a.setWidth (bits w)) h
    simp [hz]
  · cases w
    · show a <<< b.toNat = (a.setWidth 64 <<< b.toNat).setWidth 64
      simp
    · rfl

theorem shrOp_eq (w : Bool) (a b : W64) : shrOp (wOf w) a b = (a.setWidth (bits w) >>> b.toNat).setWidth 64 := by
  unfold shrOp
  split
  · next h =>
    have hz := BitVec.ushiftRight_eq_zero (x := a.setWidth (bits w)) h
    simp [hz]
  · cases w
    · show a >>> b.toNat = (a.setWidth 64 >>> b.toNat).setWidth 64
      simp
    · rfl

theorem sarOp_eq (w : Bool) (a b : W64) : sarOp (wOf w) a b =
    ((a.setWidth (bits w)).sshiftRight (if bits w ≤ b.toNat then bits w - 1 else b.toNat)).signExtend 64 := by
  cases w
  · show a.sshiftRight _ = ((a.setWidth 64).sshiftRight _).signExtend 64
    rw [BitVec.setWidth_eq, BitVec.signExtend_eq]
    rfl
  · rfl

theorem rolOp_eq (w : Bool) (a b : W64) :
    rolOp (wOf w) a b = ((a.setWidth (bits w)).rotateLeft (b.toNat % bits w)).setWidth 64 := by
  cases w
  · show a.rotateLeft (b.toNat % 64) = ((a.setWidth 64).rotateLeft (b.toNat % 64)).setWidth 64
    simp
  · rfl

theorem bits_le (w : Bool) : bits w ≤ 64 := by cases w <;> decide

theorem bits_pos (w : Bool) : 0 < bits w := by cases w <;> decide

theorem getLsbD_shlOp (w : Bool) (a b : W64) (i : Nat) : (shlOp (wOf w) a b).getLsbD i =
    (decide (i < bits w) && decide (b.toNat ≤ i) && a.getLsbD (i - b.toNat)) := by
  have hw := bits_le w
  rw [shlOp_eq, BitVec.getLsbD_setWidth, BitVec.getLsbD_shiftLeft, BitVec.getLsbD_setWidth]
  by_cases hi : i < bits w
  · by_cases hb : b.toNat ≤ i
    · simp [hi, hb, show i < 64 by omega, show i - b.toNat < 64 by omega, show i - b.toNat < bits w by omega]
    · simp [hi, hb, show i < b.toNat by omega]
  · simp [hi]

theorem getLsbD_shrOp (w : Bool) (a b : W64) (i : Nat) : (shrOp (wOf w) a b).getLsbD i =
    (decide (i + b.toNat < bits w) && a.getLsbD (i + b.toNat)) := by
  have hw := bits_le w
  rw [shrOp_eq, BitVec.getLsbD_setWidth, BitVec.getLsbD_ushiftRight, BitVec.getLsbD_setWidth, Nat.add_comm b.toNat]
  by_cases hi : i + b.toNat < bits w
  · simp [hi, show i < 64 by omega]
  · simp [hi]

/-- Bit i of a number of n bits extended by sign is its bit i, or its highest. -/
theorem getLsbD_signExtend_eq {n i : Nat} (x : BitVec n) (hn : 0 < n) (hi : i < 64) :
    (x.signExtend 64).getLsbD i = x.getLsbD (min i (n - 1)) := by
  rw [BitVec.getLsbD_signExtend, BitVec.msb_eq_getLsbD_last]
  by_cases h : i < n
  · simp [hi, h, show min i (n - 1) = i by omega]
  · simp [hi, h, show min i (n - 1) = n - 1 by omega]

theorem getLsbD_sshiftRight_eq {n i : Nat} (x : BitVec n) (c : Nat) (hi : i < n) :
    (x.sshiftRight c).getLsbD i = x.getLsbD (min (i + c) (n - 1)) := by
  rw [BitVec.getLsbD_sshiftRight, BitVec.msb_eq_getLsbD_last, Nat.add_comm c]
  by_cases h : i + c < n
  · simp [hi, h, show min (i + c) (n - 1) = i + c by omega]
  · simp [hi, h, show min (i + c) (n - 1) = n - 1 by omega]

theorem getLsbD_sarOp (w : Bool) (a b : W64) {i : Nat} (hi : i < 64) :
    (sarOp (wOf w) a b).getLsbD i = a.getLsbD (min (i + b.toNat) (bits w - 1)) := by
  have hp := bits_pos w
  rw [sarOp_eq, getLsbD_signExtend_eq _ hp hi, getLsbD_sshiftRight_eq _ _ (by omega), BitVec.getLsbD_setWidth]
  have hidx : min (min i (bits w - 1) + if bits w ≤ b.toNat then bits w - 1 else b.toNat) (bits w - 1) =
      min (i + b.toNat) (bits w - 1) := by
    split <;> omega
  rw [hidx]
  simp [hp]

theorem getLsbD_rolOp (w : Bool) (a b : W64) (i : Nat) : (rolOp (wOf w) a b).getLsbD i =
    (decide (i < bits w) && a.getLsbD ((i + bits w - b.toNat % bits w) % bits w)) := by
  have hp := bits_pos w
  have hw := bits_le w
  have hc : b.toNat % bits w < bits w := Nat.mod_lt _ hp
  rw [rolOp_eq, BitVec.getLsbD_setWidth, BitVec.getLsbD_rotateLeft_of_le hc]
  generalize b.toNat % bits w = c at hc
  simp only [BitVec.getLsbD_setWidth]
  by_cases hi : i < bits w
  · by_cases hic : i < c
    · rw [Nat.mod_eq_of_lt (show i + bits w - c < bits w by omega), show i + bits w - c = bits w - c + i by omega]
      simp [hic, hi, show i < 64 by omega, show bits w - c + i < bits w by omega]
    · rw [show i + bits w - c = i - c + bits w by omega, Nat.add_mod_right, Nat.mod_eq_of_lt (show i - c < bits w by omega)]
      simp [hic, hi, show i < 64 by omega, show i - c < bits w by omega]
  · simp [hi, show ¬ i < c by omega]

/-! ## Counts (R92) -/

theorem foldl_bits_eq_countP (x : Nat) (is : List Nat) (n : Nat) :
    is.foldl (fun n i => n + (x >>> i) % 2) n = n + is.countP x.testBit := by
  induction is generalizing n with
  | nil => rfl
  | cons i is ih =>
    have hbit : (x >>> i) % 2 = (x.testBit i).toNat := by
      rw [Nat.testBit, Nat.one_and_eq_mod_two]
      rcases Nat.mod_two_eq_zero_or_one (x >>> i) with h | h <;> simp [h]
    rw [List.foldl_cons, ih, List.countP_cons, hbit]
    cases x.testBit i
    · simp
    · simp only [Bool.toNat_true, if_true]
      omega

/-- The first number below n that p holds of, or n. -/
theorem getD_find?_range (n : Nat) (p : Nat → Bool) {r : Nat} (hr : r = ((List.range n).find? p).getD n) :
    r ≤ n ∧ (∀ i, i < r → p i = false) ∧ (r < n → p r = true) := by
  cases h : (List.range n).find? p with
  | none =>
    rw [h] at hr
    subst hr
    exact ⟨le_rfl, fun i hi => by simpa using List.find?_range_eq_none.mp h i hi, fun hlt => absurd hlt (lt_irrefl _)⟩
  | some j =>
    rw [h] at hr
    subst hr
    obtain ⟨hp, hmem, hlt⟩ := List.find?_range_eq_some.mp h
    exact ⟨(List.mem_range.mp hmem).le, fun i hi => by simpa using hlt i hi, fun _ => hp⟩

/-- A number put together of n digits of k bits has each digit's bits in its place. -/
theorem testBit_digits {k : Nat} (hk : 0 < k) (d : Nat → Nat) (hd : ∀ j, d j < 2 ^ k) (n i : Nat) :
    (List.range n).foldl (fun acc j => acc + d j * 2 ^ (k * j)) 0 < 2 ^ (k * n) ∧
    ((List.range n).foldl (fun acc j => acc + d j * 2 ^ (k * j)) 0).testBit i =
      (decide (i < k * n) && (d (i / k)).testBit (i % k)) := by
  induction n with
  | zero => simp
  | succ n ih =>
    obtain ⟨hlt, hbit⟩ := ih
    rw [List.range_succ, List.foldl_append, List.foldl_cons, List.foldl_nil]
    generalize (List.range n).foldl (fun acc j => acc + d j * 2 ^ (k * j)) 0 = x at hlt hbit
    have hx : x + d n * 2 ^ (k * n) = 2 ^ (k * n) * d n + x := by ring
    rw [hx]
    constructor
    · calc 2 ^ (k * n) * d n + x < 2 ^ (k * n) * d n + 2 ^ (k * n) := by omega
        _ = 2 ^ (k * n) * (d n + 1) := by ring
        _ ≤ 2 ^ (k * n) * 2 ^ k := Nat.mul_le_mul_left _ (hd n)
        _ = 2 ^ (k * (n + 1)) := by ring
    · rw [Nat.testBit_two_pow_mul_add _ hlt, Nat.mul_succ]
      split
      · next h =>
        rw [hbit]
        simp [h, show i < k * n + k by omega]
      · next h =>
        by_cases hi : i < k * n + k
        · have hdiv : i / k = n :=
            Nat.div_eq_of_lt_le (by rw [Nat.mul_comm]; omega) (by rw [Nat.mul_comm, Nat.mul_succ]; exact hi)
          have hmod : i % k = i - k * n := by rw [← hdiv]; have := Nat.div_add_mod i k; omega
          simp [hi, hdiv, hmod]
        · have hpow : 2 ^ k ≤ 2 ^ (i - k * n) := Nat.pow_le_pow_right two_pos (by omega)
          simp [hi, Nat.testBit_lt_two_pow ((hd n).trans_le hpow)]

theorem maskOf_eq_digits (n : Nat) (p : Nat → Bool) :
    maskOf n p = (List.range n).foldl (fun acc j => acc + (p j).toNat * 2 ^ (1 * j)) 0 := by
  unfold maskOf
  congr 1
  funext acc j
  cases p j <;> simp

theorem testBit_maskOf (n : Nat) (p : Nat → Bool) (i : Nat) : (maskOf n p).testBit i = (decide (i < n) && p i) := by
  rw [maskOf_eq_digits, (testBit_digits one_pos _ (fun j => Bool.toNat_lt (p j)) n i).2]
  cases h : p i <;> simp [h, Nat.mod_one]

theorem getLsbD_cntOp (g : Nat → Nat → Nat) (w : Bool) (a : W64) (i : Nat) :
    (cntOp g (wOf w) a).getLsbD i = (decide (i < 64) && (g (bits w) (a.toNat % 2 ^ bits w)).testBit i) :=
  BitVec.getLsbD_ofNat ..

/-- A count of at most w bits fits the result. -/
theorem toNat_cntOp {g : Nat → Nat → Nat} {w : Bool} {a : W64} (h : g (bits w) (a.toNat % 2 ^ bits w) ≤ bits w) :
    (cntOp g (wOf w) a).toNat = g (bits w) (a.toNat % 2 ^ bits w) :=
  (BitVec.toNat_ofNat ..).trans (Nat.mod_eq_of_lt (h.trans_lt ((bits_le w).trans_lt (by decide))))

/-- The low w bits of a word are its own. -/
theorem testBit_low (w : Bool) (a : W64) {i : Nat} (hi : i < bits w) :
    (a.toNat % 2 ^ bits w).testBit i = a.getLsbD i := by
  rw [Nat.testBit_mod_two_pow, BitVec.testBit_toNat]
  simp [hi]

theorem toNat_popc (w : Bool) (a : W64) : (cntOp popcN (wOf w) a).toNat = (List.range (bits w)).countP a.getLsbD := by
  have hcount : popcN (bits w) (a.toNat % 2 ^ bits w) = (List.range (bits w)).countP a.getLsbD := by
    unfold popcN
    rw [foldl_bits_eq_countP, Nat.zero_add]
    exact List.countP_congr fun i hi => by rw [testBit_low w a (List.mem_range.mp hi)]
  rw [toNat_cntOp, hcount]
  rw [hcount]
  exact List.countP_le_length.trans (by simp)

/-- What a count of zero bits answers that looks at the low w bits in the order k gives them, up to the first one bit. -/
theorem toNat_cntOp_first {g : Nat → Nat → Nat} {w : Bool} {a : W64} (k : Nat → Nat)
    (hk : ∀ i, i < bits w → k i < bits w)
    (hg : ∀ x, g (bits w) x = ((List.range (bits w)).find? fun i => x.testBit (k i)).getD (bits w))
    {r : W64} (hr : r = cntOp g (wOf w) a) :
    r.toNat ≤ bits w ∧ (∀ i, i < r.toNat → a.getLsbD (k i) = false) ∧ (r.toNat < bits w → a.getLsbD (k r.toNat) = true) := by
  obtain ⟨hle, hbefore, hat⟩ := getD_find?_range (bits w) _ (hg (a.toNat % 2 ^ bits w))
  rw [hr, toNat_cntOp hle]
  exact ⟨hle, fun i hi => testBit_low w a (hk i (hi.trans_le hle)) ▸ hbefore i hi,
    fun hlt => testBit_low w a (hk _ hlt) ▸ hat hlt⟩

theorem clz_spec (w : Bool) (a : W64) :
    (cntOp clzN (wOf w) a).toNat ≤ bits w ∧
      (∀ i, i < (cntOp clzN (wOf w) a).toNat → a.getLsbD (bits w - 1 - i) = false) ∧
      ((cntOp clzN (wOf w) a).toNat < bits w → a.getLsbD (bits w - 1 - (cntOp clzN (wOf w) a).toNat) = true) :=
  toNat_cntOp_first (fun i => bits w - 1 - i) (fun i hi => by omega) (fun _ => rfl) rfl

theorem ctz_spec (w : Bool) (a : W64) :
    (cntOp ctzN (wOf w) a).toNat ≤ bits w ∧ (∀ i, i < (cntOp ctzN (wOf w) a).toNat → a.getLsbD i = false) ∧
      ((cntOp ctzN (wOf w) a).toNat < bits w → a.getLsbD (cntOp ctzN (wOf w) a).toNat = true) :=
  toNat_cntOp_first id (fun _ hi => hi) (fun _ => rfl) rfl

theorem getLsbD_brev (w : Bool) (a : W64) (i : Nat) :
    (cntOp brevN (wOf w) a).getLsbD i = (decide (i < bits w) && a.getLsbD (bits w - 1 - i)) := by
  have hw := bits_le w
  rw [getLsbD_cntOp]
  unfold brevN
  rw [testBit_maskOf]
  by_cases hi : i < bits w
  · rw [testBit_low w a (show bits w - 1 - i < bits w by omega)]
    simp [hi, show i < 64 by omega]
  · simp [hi]

theorem getLsbD_bswap (w : Bool) (a : W64) (i : Nat) : (cntOp bswapN (wOf w) a).getLsbD i =
    (decide (i < bits w) && a.getLsbD (8 * (bits w / 8 - 1 - i / 8) + i % 8)) := by
  have hw := bits_le w
  have h8 : 8 * (bits w / 8) = bits w := by cases w <;> rfl
  rw [getLsbD_cntOp]
  unfold bswapN
  rw [(testBit_digits (k := 8) (by decide) (fun j => _ >>> (8 * (_ - 1 - j)) % 256)
    (fun j => Nat.mod_lt _ (by decide)) _ i).2, h8]
  by_cases hi : i < bits w
  · rw [show (256 : Nat) = 2 ^ 8 from rfl, Nat.testBit_mod_two_pow, Nat.testBit_shiftRight,
      testBit_low w a (show 8 * (bits w / 8 - 1 - i / 8) + i % 8 < bits w by omega)]
    simp [hi, show i < 64 by omega, show i % 8 < 8 by omega]
  · simp [hi]

/-! ## Bit fields (R93, R94) -/

theorem bfPos_eq (ctl : W64) : bfPos ctl = ctl.toNat % 64 :=
  (fld_eq ctl 0 6).trans (congrArg (· % 64) (Nat.div_one ctl.toNat))

theorem bfWid_eq (ctl : W64) : bfWid ctl = min (ctl.toNat / 256 % 128) 64 := congrArg (min · 64) (fld_eq ctl 8 7)

/-- BFXU gives the field extended by zero, BFX by sign. -/
theorem bfxOp_unsigned (a ctl : W64) :
    bfxOp false a ctl = ((a >>> bfPos ctl).setWidth (bfWid ctl)).setWidth 64 := by
  apply BitVec.eq_of_toNat_eq
  simp [bfxOp]

theorem bfxOp_signed (a ctl : W64) : bfxOp true a ctl = ((a >>> bfPos ctl).setWidth (bfWid ctl)).signExtend 64 := by
  have hx : ((a >>> bfPos ctl).setWidth (bfWid ctl)).toNat = (a.toNat >>> bfPos ctl) % 2 ^ bfWid ctl := by simp
  have hlt := Nat.mod_lt (a.toNat >>> bfPos ctl) (Nat.two_pow_pos (bfWid ctl))
  unfold bfxOp BitVec.signExtend
  rw [BitVec.toInt_eq_toNat_cond, hx]
  dsimp only
  generalize (a.toNat >>> bfPos ctl) % 2 ^ bfWid ctl = x at hlt
  cases hw : bfWid ctl with
  | zero =>
    rw [hw] at hlt
    simp [show x = 0 by omega]
  | succ k =>
    by_cases hk : 2 ^ k ≤ x
    · simp [hk, show ¬ 2 * x < 2 ^ (k + 1) by rw [Nat.pow_succ]; omega]
    · simp [hk, show 2 * x < 2 ^ (k + 1) by rw [Nat.pow_succ]; omega]

theorem getLsbD_bfxu (a ctl : W64) (i : Nat) :
    (bfxOp false a ctl).getLsbD i = (decide (i < bfWid ctl) && a.getLsbD (bfPos ctl + i)) := by
  have hw : bfWid ctl ≤ 64 := Nat.min_le_right ..
  rw [bfxOp_unsigned, BitVec.getLsbD_setWidth, BitVec.getLsbD_setWidth, BitVec.getLsbD_ushiftRight]
  by_cases hi : i < bfWid ctl
  · simp [hi, show i < 64 by omega]
  · simp [hi]

theorem getLsbD_bfx (a ctl : W64) {i : Nat} (hi : i < 64) : (bfxOp true a ctl).getLsbD i =
    (decide (bfWid ctl ≠ 0) && a.getLsbD (bfPos ctl + min i (bfWid ctl - 1))) := by
  rw [bfxOp_signed]
  by_cases h0 : bfWid ctl = 0
  · generalize (a >>> bfPos ctl) = x
    rw [h0, BitVec.eq_nil (x.setWidth 0)]
    simp
  · rw [getLsbD_signExtend_eq _ (by omega) hi, BitVec.getLsbD_setWidth, BitVec.getLsbD_ushiftRight]
    simp [h0, show min i (bfWid ctl - 1) < bfWid ctl by omega]

theorem getLsbD_bfi (a b ctl : W64) {i : Nat} (hi : i < 64) : (bfiOp a b ctl).getLsbD i =
    if bfPos ctl ≤ i ∧ i < bfPos ctl + bfWid ctl then b.getLsbD (i - bfPos ctl) else a.getLsbD i := by
  have hmask : (BitVec.ofNat 64 ((2 ^ bfWid ctl - 1) <<< bfPos ctl)).getLsbD i =
      decide (bfPos ctl ≤ i ∧ i < bfPos ctl + bfWid ctl) := by
    rw [BitVec.getLsbD_ofNat, Nat.testBit_shiftLeft, Nat.testBit_two_pow_sub_one]
    by_cases h : bfPos ctl ≤ i
    · simp [hi, h, show i - bfPos ctl < bfWid ctl ↔ i < bfPos ctl + bfWid ctl by omega]
    · simp [h]
  unfold bfiOp
  rw [BitVec.getLsbD_or, BitVec.getLsbD_and, BitVec.getLsbD_and, BitVec.getLsbD_not, hmask, BitVec.getLsbD_shiftLeft]
  by_cases h : bfPos ctl ≤ i ∧ i < bfPos ctl + bfWid ctl
  · simp [hi, h, show ¬ i < bfPos ctl by omega]
  · simp [hi, h]

/-! ## Addresses, MOVI.HI and selection (R95 to R97) -/

theorem shiftLeft_eq_mul_pow (x : W64) (k : Nat) : x <<< k = x * BitVec.ofNat 64 (2 ^ k) := by
  apply BitVec.eq_of_toNat_eq
  simp [Nat.shiftLeft_eq, Nat.mul_mod]

/-- LEA's sum in A64 has no displacement, and its shift is a product. -/
theorem lea_sum_none (base b : W64) (k : Nat) :
    base + b <<< k + dispOf none = base + b * BitVec.ofNat 64 (2 ^ k) := by
  have h0 : dispOf none = 0 := by decide
  rw [h0, shiftLeft_eq_mul_pow]
  exact BitVec.add_zero _

theorem lea_sum_some (base b : W64) (k : Nat) (i : W32) :
    base + b <<< k + dispOf (some i) = base + b * BitVec.ofNat 64 (2 ^ k) + i.signExtend 64 := by
  rw [shiftLeft_eq_mul_pow]
  rfl

/-- SEL takes source B where the predicate is NEG, and source A where it is not. -/
theorem sel_value (p neg : Bool) (a b : W64) : (if p != neg then a else b) = if p = neg then b else a := by
  cases p <;> cases neg <;> rfl

/-- A predicate that reads 1 selects by NEG alone. -/
theorem sel_value_true {p : Bool} (hp : p = true) (neg : Bool) (a b : W64) :
    (if p != neg then a else b) = if neg then b else a := by
  subst hp
  cases neg <;> rfl

/-- A false guard keeps every register. -/
theorem getS_writeS_disabled {f : Firing} {h : Head} (he : f.enS h = false) (l : Len) (d : Nat) (x : W64) (r : Nat) :
    (f.writeS h l d x).getS r = f.getS r := by
  simp [Firing.writeS, Firing.writeLS, he]

/-! ## What a firing keeps -/

/-- What `Frame` says of the firing: the registers that are not named, the flags, the deposits and the rest are as before. -/
structure Keeps (sd vd kd qd : List Nat) (f g : Firing) : Prop where
  s    : ∀ r, r ∉ sd → g.getS r = f.getS r
  v    : ∀ r l, r ∉ vd → l < 32 → g.getV r l = f.getV r l
  k    : ∀ i, i ∉ kd → i < 8 → g.getK i = f.getK i
  q    : ∀ i, i ∉ qd → i < 8 → g.getQ i = f.getQ i
  fpst : g.fpst = f.fpst
  deps : g.deps = f.deps
  rest : SameRest f g

theorem frame_of_keeps {s : State} {n sl : Nat} {f g : Firing} {sd vd kd qd : List Nat} (h : Keeps sd vd kd qd f g) :
    Frame s (s.setFiring n sl g) n sl f sd vd kd qd false :=
  ⟨getB_setFiring s n sl g, g, rfl, firing_setFiring_same .., h.s, h.v, h.k, h.q, fun _ => h.fpst, h.deps, h.rest⟩

/-- A meaning over the issuing firing that keeps so much of it has the frame. -/
theorem frame_onF {s t : State} {n sl : Nat} {f : Firing} {sd vd kd qd : List Nat} {g : Firing → Firing} (hi : Issues s n sl f)
    (ht : onF s g = .next t) (h : Keeps sd vd kd qd f (g f)) : Frame s t n sl f sd vd kd qd false := by
  rw [onF_gives hi] at ht
  cases ht
  exact frame_of_keeps h

theorem sameRest_trans {f g h : Firing} (hfg : SameRest f g) (hgh : SameRest g h) : SameRest f h := by
  unfold SameRest at *
  simp_all only [and_self]

section
variable {sd vd kd qd : List Nat}

theorem keeps_refl (f : Firing) : Keeps sd vd kd qd f f := by
  constructor <;> simp [SameRest]

theorem Keeps.trans {f g h : Firing} (hfg : Keeps sd vd kd qd f g) (hgh : Keeps sd vd kd qd g h) : Keeps sd vd kd qd f h where
  s r hr := (hgh.s r hr).trans (hfg.s r hr)
  v r l hr hl := (hgh.v r l hr hl).trans (hfg.v r l hr hl)
  k i hi h8 := (hgh.k i hi h8).trans (hfg.k i hi h8)
  q i hi h8 := (hgh.q i hi h8).trans (hfg.q i hi h8)
  fpst := hgh.fpst.trans hfg.fpst
  deps := hgh.deps.trans hfg.deps
  rest := sameRest_trans hfg.rest hgh.rest

theorem keeps_foldl {β : Type} {step : Firing → β → Firing} {xs : List β}
    (h : ∀ x ∈ xs, ∀ f, Keeps sd vd kd qd f (step f x)) (f : Firing) : Keeps sd vd kd qd f (xs.foldl step f) := by
  induction xs generalizing f with
  | nil => exact keeps_refl f
  | cons x xs ih =>
    exact (h x List.mem_cons_self f).trans (ih (fun y hy => h y (List.mem_cons_of_mem _ hy)) _)

theorem keeps_ite {c : Prop} [Decidable c] {f g h : Firing} (hg : Keeps sd vd kd qd f g) (hh : Keeps sd vd kd qd f h) :
    Keeps sd vd kd qd f (if c then g else h) := by
  split
  · exact hg
  · exact hh

/-! ### Through the updates of a firing -/

theorem keeps_endIssue (f : Firing) (lane c : Bool) (r : LatchRes) : Keeps sd vd kd qd f (f.endIssue lane c r) := by
  constructor <;> simp [SameRest, Firing.getS, Firing.getV, Firing.getK, Firing.getQ]

theorem keeps_setPath (f : Firing) (i : Nat) (p : PathE) : Keeps sd vd kd qd f (f.setPath i p) := by
  constructor <;> simp [SameRest, Firing.getS, Firing.getV, Firing.getK, Firing.getQ]

theorem keeps_cur (f : Firing) (e : Nat) : Keeps sd vd kd qd f { f with cur := e } :=
  ⟨fun _ _ => rfl, fun _ _ _ _ => rfl, fun _ _ _ => rfl, fun _ _ _ => rfl, rfl, rfl, by simp [SameRest]⟩

theorem keeps_retire (f : Firing) (lane : Bool) (h : Head) (l : Len) (r : LatchRes) :
    Keeps sd vd kd qd f (f.retire lane h l r) := (keeps_endIssue f lane h.c r).trans (keeps_setPath ..)

theorem keeps_jump (f : Firing) (h : Head) (t : W64) : Keeps sd vd kd qd f (f.jump h t) :=
  (keeps_endIssue f false h.c .none).trans (keeps_setPath ..)

theorem keeps_setS {d : Nat} (hd : d ∈ sd) (f : Firing) (x : W64) : Keeps sd vd kd qd f (f.setS d x) := by
  refine ⟨fun r hr => getS_setS_other fun h => hr (h ▸ hd), ?_, ?_, ?_, ?_, ?_, ?_⟩ <;>
    simp [SameRest, Firing.getV, Firing.getK, Firing.getQ]

theorem keeps_setK {d : Nat} (hd : d ∈ kd) (h8 : d < 8) (f : Firing) (b : Bool) : Keeps sd vd kd qd f (f.setK d b) := by
  refine ⟨?_, ?_, fun i hi hi8 => ?_, ?_, ?_, ?_, ?_⟩
  case refine_3 => exact (getK_setK f d i b h8 hi8).trans (if_neg (by rintro ⟨rfl, -⟩; exact hi hd))
  all_goals simp [SameRest, Firing.getS, Firing.getV, Firing.getQ]

theorem keeps_setQ {d : Nat} (hd : d ∈ qd) (f : Firing) (x : W32) : Keeps sd vd kd qd f (f.setQ d x) := by
  refine ⟨?_, ?_, ?_, fun i hi _ => ?_, ?_, ?_, ?_⟩
  case refine_4 => exact (getQ_setQ f d i x).trans (if_neg (by rintro ⟨rfl, -⟩; exact hi hd))
  all_goals simp [SameRest, Firing.getS, Firing.getV, Firing.getK]

theorem nodup_enLanes (f : Firing) (h : Head) : (f.enLanes h).Nodup := List.Nodup.filter _ List.nodup_range

theorem enLanes_lt {f : Firing} {h : Head} {l : Nat} (hl : l ∈ f.enLanes h) : l < 32 :=
  List.mem_range.mp (List.mem_filter.mp hl).1

theorem keeps_putV_lanes {d : Nat} (hd : d ∈ vd) (f f' : Firing) (h : Head) (g : Nat → W32) :
    Keeps sd vd kd qd f (f.putV ((f'.enLanes h).map fun L => (32 * d + L, g L))) := by
  refine ⟨?_, fun r l hr hl => ?_, ?_, ?_, ?_, ?_, ?_⟩
  case refine_2 =>
    exact (getV_putV_lanes f d _ g (nodup_enLanes f' h) (fun _ => enLanes_lt) r l hl).trans
      (if_neg (by rintro ⟨-, rfl⟩; exact hr hd))
  all_goals simp [SameRest, Firing.getS, Firing.getK, Firing.getQ]

/-! ### Through a register write and the end of an issue -/

theorem keeps_writeLS {d : Nat} (hd : d ∈ sd) (f : Firing) (h : Head) (l : Len) (x y : W64) :
    Keeps sd vd kd qd f (f.writeLS h l d x y) :=
  keeps_ite ((keeps_ite (keeps_refl f) (keeps_setS hd f x)).trans (keeps_retire ..)) (keeps_retire ..)

theorem keeps_writeV {d : Nat} (hd : d ∈ vd) (f : Firing) (h : Head) (l : Len) (g : Nat → W32) :
    Keeps sd vd kd qd f (f.writeV h l d g) :=
  (keeps_ite (keeps_refl f) (keeps_putV_lanes hd f f h g)).trans (keeps_retire ..)

/-! ### Through the choice of a path (R119, R123) -/

theorem keeps_choosePath (f : Firing) (y : Bool) : Keeps sd vd kd qd f (f.choosePath y) := by
  have hcur : ∃ e, f.choosePath y = { f with cur := e } := by
    unfold Firing.choosePath
    dsimp only
    split
    · exact ⟨f.cur, rfl⟩
    · split
      · split
        · exact ⟨_, rfl⟩
        · split
          · exact ⟨_, rfl⟩
          · exact ⟨f.cur, rfl⟩
      · split
        · exact ⟨_, rfl⟩
        · exact ⟨f.cur, rfl⟩
  obtain ⟨e, he⟩ := hcur
  rw [he]
  exact keeps_cur f e

theorem keeps_merge (f : Firing) : Keeps sd vd kd qd f f.merge := by
  unfold Firing.merge
  split
  · exact keeps_refl f
  · exact (keeps_foldl (fun e _ f => keeps_setPath f e _) f).trans (keeps_setPath ..)

theorem keeps_selectPath (f : Firing) (y : Bool) : Keeps sd vd kd qd f (f.selectPath y) :=
  keeps_ite ((keeps_merge f).trans (keeps_choosePath ..)) (keeps_choosePath f y)

end

/-! ## Forms of group 000 write one register (R87) -/

theorem exec_scalarDest {i : Instr} {d : BitVec 6} (h : scalarDest i = some d) :
    ∃ (hd : Head) (l : Len) (x y : Firing → W64), ∀ s, exec i s = onF s fun f => f.writeLS hd l d.toNat (x f) (y f) := by
  unfold scalarDest at h
  split at h <;> cases h
  all_goals exact ⟨_, _, _, _, fun _ => rfl⟩

theorem scalarFrame : ScalarFrame := by
  intro i d s t n sl f hd hi ht
  obtain ⟨hd, l, x, y, he⟩ := exec_scalarDest hd
  rw [he] at ht
  exact frame_onF hi ht (keeps_writeLS (by simp) ..)

/-! ## Forms of group 001 (R101 to R110) -/

section
variable {sd vd kd qd : List Nat}

theorem keeps_cmpK (f : Firing) (o : CmpOps) (en r : Bool) (ht : o.pt.toNat ∈ kd) (hf : o.pf.toNat ∈ kd) :
    Keeps sd vd kd qd f (f.cmpK o en r) :=
  (keeps_setK ht o.pt.isLt f _).trans (keeps_setK hf o.pf.isLt _ _)

theorem keeps_cmpQ (f : Firing) (o : VCmpOps) (r : Nat → Bool) (ht : o.pt.toNat ∈ qd) (hf : o.pf.toNat ∈ qd) :
    Keeps sd vd kd qd f (f.cmpQ o r) := (keeps_setQ ht f _).trans (keeps_setQ hf _ _)

/-- What a PMOV without a register result keeps is what its effect keeps. -/
theorem keeps_pmovEnd {f : Firing} {g : Firing → Firing} (hg : Keeps sd vd kd qd f (g f)) (h : Head) (l : Len) :
    Keeps sd vd kd qd f (pmovEnd f h l g) := (keeps_ite hg (keeps_refl f)).trans (keeps_retire ..)

end

theorem predsOf_bounds {m i : Nat} (h : i ∈ predsOf m) : i ∈ [1, 2, 3, 4, 5, 6, 7] ∧ i < 8 := by
  have hi := (List.mem_filter.mp h).1
  refine ⟨hi, ?_⟩
  fin_cases hi <;> decide

theorem predsOf_subset {m i : Nat} (h : i ∈ predsOf m) : i ∈ (List.range 8).filter m.testBit :=
  List.mem_filter.mpr ⟨List.mem_range.mpr (predsOf_bounds h).2, (List.mem_filter.mp h).2⟩

theorem keeps_plop (f : Firing) (o : PlopOps) (b : Bool) (x : W32) :
    Keeps [] [] (if o.lane then [] else [o.d.toNat]) (if o.lane then [o.d.toNat] else []) f
      (if o.lane then (f.setQ o.d.toNat x).retire true o.h .l64 .none
       else (if f.enS o.h then f.setK o.d.toNat b else f).retire false o.h .l64 .none) := by
  split
  · exact (keeps_setQ (by simp) f x).trans (keeps_retire ..)
  · exact (keeps_ite (keeps_setK (by simp) o.d.isLt f b) (keeps_refl f)).trans (keeps_retire ..)

/-- A form of group 001 keeps all of its firing but what it names. -/
theorem predDest_keeps {i : Instr} {sd vd kd qd : List Nat} (h : predDest i = some (sd, vd, kd, qd)) :
    ∃ g : Firing → Firing, (∀ s, exec i s = onF s g) ∧ ∀ f, Keeps sd vd kd qd f (g f) := by
  unfold predDest at h
  split at h <;> cases h
  next o => -- CMP
    exact ⟨_, fun _ => rfl, fun f => (keeps_cmpK f o _ _ (by simp) (by simp)).trans (keeps_retire ..)⟩
  next o => -- VCMP
    exact ⟨_, fun _ => rfl, fun f => (keeps_cmpQ f o _ (by simp) (by simp)).trans (keeps_retire ..)⟩
  next o => -- PLOP
    exact ⟨_, fun _ => rfl, fun f => keeps_plop f o _ _⟩
  next o => -- PSET
    refine ⟨_, fun _ => rfl, fun f => ?_⟩
    cases o.lane
    · exact (keeps_ite (keeps_foldl (fun i hi f => keeps_setK (predsOf_subset hi) (predsOf_bounds hi).2 f _) f)
        (keeps_refl f)).trans (keeps_retire ..)
    · exact (keeps_foldl (fun i hi f => keeps_setQ (predsOf_subset hi) f _) f).trans (keeps_retire ..)
  next o => -- PMOV.KTOS
    exact ⟨_, fun _ => rfl, fun f => keeps_writeLS (by simp) ..⟩
  next o => -- PMOV.QTOS
    exact ⟨_, fun _ => rfl, fun f => keeps_writeLS (by simp) ..⟩
  next o => -- PMOV.STOK
    exact ⟨_, fun _ => rfl, fun f => keeps_pmovEnd
      (keeps_foldl (fun i hi f => keeps_setK (predsOf_bounds hi).1 (predsOf_bounds hi).2 f _) f) ..⟩
  next o => -- PMOV.STOQ
    exact ⟨_, fun _ => rfl, fun f => keeps_pmovEnd (keeps_setQ (by simp) f _) ..⟩
  next o => -- VPMOV.QTOV
    exact ⟨_, fun _ => rfl, fun f => keeps_writeV (by simp) ..⟩
  next o => -- VPMOV.VTOQ
    exact ⟨_, fun _ => rfl, fun f => (keeps_foldl (fun i hi f => keeps_setQ hi f _) f).trans (keeps_retire ..)⟩

theorem predicateFrame : PredicateFrame := by
  intro i sd vd kd qd s t n sl f hd hi ht
  obtain ⟨g, he, hk⟩ := predDest_keeps hd
  rw [he] at ht
  exact frame_onF hi ht (hk f)

/-! ## A trap leaves its firing stopped (R353, R355) -/

/-- Slot sl of core n holds a stopped firing. -/
def StoppedAt (s : State) (n sl : Nat) : Prop := ∃ g, s.firing n sl = some g ∧ g.stopped = true

theorem stoppedAt_congr {s t : State} {n sl : Nat} (h : t.firing n sl = s.firing n sl) (hs : StoppedAt s n sl) :
    StoppedAt t n sl := by
  unfold StoppedAt
  rwa [h]

theorem queueTrap_firings (sl : Nat) (c : Core) : (c.queueTrap sl).firings = c.firings := rfl

/-- An update of the core that is not one of its firings. -/
theorem firing_updCore_keeps (s : State) (n sl : Nat) {g : Core → Core} (hg : ∀ c, (g c).firings = c.firings) :
    (s.updCore n g).firing n sl = s.firing n sl := by
  unfold State.firing Core.firing
  rw [core_updCore_same, hg]

theorem trapStop_stoppedAt {s : State} {n sl : Nat} {f : Firing} (hf : s.firing n sl = some f) (t : TrapCause)
    (fpc rpc word : W64) : StoppedAt (trapStop s n sl t fpc rpc word) n sl := by
  obtain ⟨g, m, he, -, hstop, -⟩ := trapStop_eq hf t fpc rpc word
  refine ⟨g, ?_, by simp [Firing.stopped, hstop]⟩
  rw [he, firing_setCore_same, coreFiring_setFiring_same]

theorem firing_trapStop_other {s : State} {n sl r : Nat} (hr : r ≠ sl) (t : TrapCause) (fpc rpc word : W64) :
    (trapStop s n sl t fpc rpc word).firing n r = s.firing n r := by
  cases hf : s.firing n sl with
  | none => unfold trapStop; rw [hf]
  | some f =>
    obtain ⟨g, m, he, -⟩ := trapStop_eq hf t fpc rpc word
    rw [he, firing_setCore_same, coreFiring_setFiring, if_neg hr]
    rfl

theorem firing_quietStop_other {s : State} {n sl r : Nat} (hr : r ≠ sl) (k : BitVec 4) :
    (quietStop s n sl k).firing n r = s.firing n r := by
  unfold quietStop
  split
  · rfl
  · next f hf =>
    split
    · exact (firing_updCore_keeps _ n r (queueTrap_firings sl)).trans (firing_trapStop_other hr ..)
    · obtain ⟨g, m, he, -⟩ := stopWith_eq (c := s.core n) hf k (trapRecord s n f (cause 0) f.pc f.pc (codeWord s n sl f.pc))
      rw [he, firing_setCore_same, coreFiring_setFiring, if_neg hr]
      rfl

/-- Stopping every running firing leaves a stopped one as it is. -/
theorem stopAll_stoppedAt {s : State} {n sl : Nat} (k : BitVec 4) (h : StoppedAt s n sl) : StoppedAt (stopAll s n k) n sl := by
  unfold stopAll
  generalize (s.core n).live.map (·.1) = sls
  induction sls generalizing s with
  | nil => exact h
  | cons r rs ih =>
    refine ih ?_
    beta_reduce
    obtain ⟨g, hg, hst⟩ := h
    by_cases hr : sl = r
    · subst hr
      simpa [hg, hst] using ⟨g, hg, hst⟩
    · refine stoppedAt_congr ?_ ⟨g, hg, hst⟩
      split
      · split
        · rfl
        · exact firing_quietStop_other hr k
      · rfl

theorem haltCore_stoppedAt {s : State} {n sl : Nat} (h : StoppedAt s n sl) : StoppedAt (haltCore s n) n sl :=
  stoppedAt_congr (firing_updCore_keeps (stopAll s n 2) n sl fun _ => rfl) (stopAll_stoppedAt 2 h)

theorem doubleTrap_stoppedAt {s : State} {n sl : Nat} (h : StoppedAt s n sl) : StoppedAt (doubleTrap s n) n sl :=
  stoppedAt_congr ((firing_pushHost ..).trans (firing_pushHost ..)) (haltCore_stoppedAt h)

theorem trapOrFpx_stoppedAt {s : State} {n sl : Nat} {f : Firing} (hf : s.firing n sl = some f) (t : TrapCause)
    (fpc rpc word : W64) : StoppedAt (trapOrFpx s n sl t fpc rpc word) n sl := by
  unfold trapOrFpx
  split
  · exact trapStop_stoppedAt hf ..
  · exact trapStop_stoppedAt hf ..

theorem takeTrap_stoppedAt {s : State} {n sl : Nat} {f : Firing} (hf : s.firing n sl = some f) (t : TrapCause) (l : Len) :
    StoppedAt (takeTrap s n sl t l) n sl := by
  rw [takeTrap_eq hf]
  unfold takeTrapAt
  rw [hf]
  have hstop := trapOrFpx_stoppedAt hf t f.pc (if t.next then nextPc f.pc l else f.pc) (codeWord s n sl f.pc)
  dsimp only
  split
  · exact doubleTrap_stoppedAt hstop
  · exact stoppedAt_congr (firing_updCore_keeps _ n sl (queueTrap_firings sl)) hstop

/-! ## Forms of group 010 (R113 to R124) -/

/-- What a control form makes of the state: a firing that keeps all but the registers sd, or a trap. -/
def Controls (sd : List Nat) (s : State) (n sl : Nat) (f : Firing) (t : State) : Prop :=
  (∃ g, t = s.setFiring n sl g ∧ Keeps sd [] [] [] f g) ∨ ∃ c, t = takeTrap s n sl c

theorem controls_keeps {sd : List Nat} {s : State} {n sl : Nat} {f g : Firing} (h : Keeps sd [] [] [] f g) :
    Controls sd s n sl f (s.setFiring n sl g) := .inl ⟨g, rfl, h⟩

theorem controls_trap {sd : List Nat} {s : State} {n sl : Nat} {f : Firing} (c : TrapCause) :
    Controls sd s n sl f (takeTrap s n sl c) := .inr ⟨c, rfl⟩

theorem controls_ite {p : Prop} [Decidable p] {sd : List Nat} {s : State} {n sl : Nat} {f : Firing} {t u : State}
    (ht : Controls sd s n sl f t) (hu : Controls sd s n sl f u) : Controls sd s n sl f (if p then t else u) := by
  split
  · exact ht
  · exact hu

/-- A meaning over the issuing firing that ends in such a state. -/
def ControlForm (sd : List Nat) (m : State → Out) : Prop :=
  ∃ k : State → Nat → Nat → Firing → State, (∀ s, m s = withF s (k s)) ∧ ∀ s n sl f, Controls sd s n sl f (k s n sl f)

/-- A form that acts on the path as a whole (R122). -/
theorem onPath_controls {h : Head} {act : Firing → Firing} (hact : ∀ f, Keeps [] [] [] [] f (act f)) :
    ControlForm [] fun s => onPath h s act :=
  ⟨_, fun _ => rfl, fun _ _ _ f => controls_ite (controls_keeps (hact f))
    (controls_ite (controls_keeps (keeps_retire ..)) (controls_trap _))⟩

/-- BRA and BRU (R120). -/
theorem laneBranch_controls (u : Bool) (o : BrOps) : ControlForm [] (laneBranch u o) := by
  refine ⟨_, fun _ => rfl, fun _ _ _ f => controls_ite (controls_trap _) (controls_ite (controls_keeps (keeps_jump ..))
    (controls_ite (controls_keeps (keeps_retire ..)) ?_))⟩
  split
  · exact controls_trap _
  · exact controls_keeps ((keeps_retire ..).trans ((keeps_setPath ..).trans ((keeps_setPath ..).trans (keeps_selectPath ..))))

/-- A form of group 010 keeps all of its firing but the register it names, or traps. -/
theorem controlDest_controls {i : Instr} {sd : List Nat} (h : controlDest i = some sd) : ControlForm sd (exec i) := by
  unfold controlDest at h
  split at h <;> cases h
  next o => -- NOP
    exact ⟨_, fun _ => rfl, fun _ _ _ f => controls_keeps (keeps_retire ..)⟩
  next o => -- BR
    exact ⟨_, fun _ => rfl, fun _ _ _ f => controls_keeps (keeps_ite (keeps_jump ..) (keeps_retire ..))⟩
  next o => -- RET
    exact ⟨_, fun _ => rfl, fun _ _ _ f => controls_ite (controls_keeps (keeps_retire ..))
      (controls_ite (controls_trap _) (controls_keeps (keeps_jump ..)))⟩
  next o => -- BRA
    exact laneBranch_controls false o
  next o => -- BRU
    exact laneBranch_controls true o
  next o => -- JOIN
    exact onPath_controls fun f => (keeps_endIssue ..).trans ((keeps_setPath ..).trans (keeps_selectPath ..))
  next o => -- YIELD
    exact onPath_controls fun f => (keeps_retire ..).trans ((keeps_setPath ..).trans (keeps_selectPath ..))
  next o => -- SETPRI
    exact onPath_controls fun f => (keeps_retire ..).trans ((keeps_setPath ..).trans (keeps_selectPath ..))
  next o => -- CALL
    exact ⟨_, fun _ => rfl, fun _ _ _ f => controls_keeps
      (keeps_ite ((keeps_setS (by simp) f _).trans (keeps_jump ..)) (keeps_retire ..))⟩
  next o => -- LOOP
    exact ⟨_, fun _ => rfl, fun _ _ _ f => controls_keeps (keeps_ite (keeps_retire ..)
      (keeps_ite ((keeps_setS (by simp) f _).trans (keeps_retire ..)) ((keeps_setS (by simp) f _).trans (keeps_jump ..))))⟩
  next o => -- BRX
    exact ⟨_, fun _ => rfl, fun _ _ _ f => controls_ite (controls_keeps (keeps_retire ..))
      (controls_ite (controls_trap _) (controls_keeps ((keeps_setS (by simp) f _).trans (keeps_jump ..))))⟩

theorem controlFrame : ControlFrame := by
  intro i sd s t n sl f hd hi ht hrun
  obtain ⟨k, he, hk⟩ := controlDest_controls hd
  rw [he, withF_issues hi.1 hi.2] at ht
  cases ht
  rcases hk s n sl f with ⟨g, ht, hg⟩ | ⟨c, ht⟩
  · rw [ht]
    exact frame_of_keeps hg
  · obtain ⟨g, hg, hst⟩ := takeTrap_stoppedAt hi.2 c .l64
    rw [ht] at hrun
    exact absurd (hrun g hg) (by simp [hst])

end Sys2Proof.Proofs

/-! ## The statements -/

namespace Sys2Proof.Settled
open Sys2Proof Sys2Proof.Machine Sys2Proof.Claims Sys2Proof.Laws Sys2Proof.Proofs

/-- Settles O1, a form at a time: each result is a word made of an exact integer, which is in range or wraps. -/
theorem scalarArithmetic : Obligations.ScalarArithmetic := by
  unfold Obligations.ScalarArithmetic
  refine ⟨⟨?add, ?sub, ?mul, ?abs⟩, ?products⟩
  case add => exact fun o s n sl f hi => ⟨_, satResult_satOp (· + ·) o.sat o.w _ _, aluExec_gives hi o _⟩
  case sub => exact fun o s n sl f hi => ⟨_, satResult_satOp (· - ·) o.sat o.w _ _, aluExec_gives hi o _⟩
  case mul => exact fun o s n sl f hi => ⟨_, satResult_satOp (· * ·) o.sat o.w _ _, aluExec_gives hi o _⟩
  case abs => exact fun o s n sl f hi _ => ⟨_, satResult_satOp (fun x _ => x.natAbs) o.sat o.w _ 0, unExec_gives hi o _⟩
  case products =>
    rintro o s n sl f _ _ hi rfl rfl
    exact ⟨⟨_, toInt_mulhOp o.w _ _, aluExec_gives hi o _⟩, ⟨_, toNat_mulhOp o.w _ _, aluExec_gives hi o _⟩,
      ⟨_, toInt_divOp o.w _ _, aluExec_gives hi o _⟩, ⟨_, toNat_divOp o.w _ _, aluExec_gives hi o _⟩,
      ⟨_, toInt_remOp o.w _ _, aluExec_gives hi o _⟩, ⟨_, toNat_remOp o.w _ _, aluExec_gives hi o _⟩,
      ⟨_, toInt_minOp o.w _ _, aluExec_gives hi o _⟩, ⟨_, toInt_maxOp o.w _ _, aluExec_gives hi o _⟩,
      ⟨_, toNat_minOp o.w _ _, aluExec_gives hi o _⟩, ⟨_, toNat_maxOp o.w _ _, aluExec_gives hi o _⟩⟩

/-- Settles O34: each result is read bit by bit from the low word it is made of. -/
theorem scalarBits : Obligations.ScalarBits := by
  unfold Obligations.ScalarBits
  refine ⟨?logic, ?counts, ?fields, ?insert⟩
  case logic =>
    rintro o s n sl f _ _ hi rfl rfl
    exact ⟨aluExec_gives hi o (· &&& ·), aluExec_gives hi o (· ||| ·), aluExec_gives hi o (· ^^^ ·),
      aluExec_gives hi o (· &&& ~~~ ·), aluExec_gives hi o (· ||| ~~~ ·),
      ⟨_, getLsbD_shlOp o.w _ _, aluExec_gives hi o _⟩, ⟨_, getLsbD_shrOp o.w _ _, aluExec_gives hi o _⟩,
      ⟨_, fun _ => getLsbD_sarOp o.w _ _, aluExec_gives hi o _⟩, ⟨_, getLsbD_rolOp o.w _ _, aluExec_gives hi o _⟩⟩
  case counts =>
    rintro o s n sl f _ hi rfl
    obtain ⟨hclz, hclz0, hclz1⟩ := clz_spec o.w (f.srcS o.a)
    obtain ⟨hctz, hctz0, hctz1⟩ := ctz_spec o.w (f.srcS o.a)
    exact ⟨⟨_, toNat_popc o.w _, unExec_gives hi o _⟩, ⟨_, hclz, hclz0, hclz1, unExec_gives hi o _⟩,
      ⟨_, hctz, hctz0, hctz1, unExec_gives hi o _⟩, ⟨_, getLsbD_brev o.w _, unExec_gives hi o _⟩,
      ⟨_, getLsbD_bswap o.w _, unExec_gives hi o _⟩⟩
  case fields =>
    rintro o s n sl f _ _ _ _ hi rfl rfl rfl rfl
    rw [← bfPos_eq, ← bfWid_eq]
    exact ⟨⟨_, getLsbD_bfxu _ _, aluExec_gives hi o _⟩, ⟨_, fun _ => getLsbD_bfx _ _, aluExec_gives hi o _⟩⟩
  case insert =>
    rintro o s n sl f _ _ _ _ _ hi rfl rfl rfl rfl rfl
    rw [← bfPos_eq, ← bfWid_eq]
    exact ⟨_, fun _ => getLsbD_bfi _ _ _, onF_gives hi _⟩

/-- Settles O3: LEA's shift is a product, and SEL reads its predicate apart from its guard. -/
theorem scalarMoves : Obligations.ScalarMoves := by
  unfold Obligations.ScalarMoves
  refine ⟨?mov, ?movi17, ?movi32, ?zx, ?hi, ?lea, ?leaDisp, ?leaPcDisp, ?leaPc, ?sel, ?selK0, ?selOff⟩
  case mov => exact fun o s n sl f hi => unExec_gives hi o id
  case movi17 => exact fun h d i s n sl f hi => onF_gives hi _
  case movi32 => exact fun h d i s n sl f hi => onF_gives hi _
  case zx => exact fun o s n sl f hi => onF_gives hi _
  case hi =>
    intro o s n sl f hi
    refine ⟨_, extract_hi o.imm ((f.getS o.d.toNat).setWidth 32), ?_, onF_gives hi _⟩
    rw [extract_lo, BitVec.setWidth_eq_extractLsb' (by decide)]
  case lea => exact fun h d a b sc s n sl f hi => lea_sum_none (f.srcS a) (f.srcS b) sc.toNat ▸ onF_gives hi _
  case leaDisp => exact fun h d a b sc i s n sl f hi => lea_sum_some (f.srcS a) (f.srcS b) sc.toNat i ▸ onF_gives hi _
  case leaPcDisp => exact fun h d b sc i s n sl f hi => lea_sum_some f.pc (f.srcS b) sc.toNat i ▸ onF_gives hi _
  case leaPc => exact fun h d b sc s n sl f hi => lea_sum_none f.pc (f.srcS b) sc.toNat ▸ onF_gives hi _
  case sel => exact fun o s n sl f hi => sel_value (f.getK o.k.toNat) o.neg (f.srcS o.a) (f.srcSI o.b) ▸ onF_gives hi _
  case selK0 =>
    intro o s n sl f hi hk
    have hone : f.getK o.k.toNat = true := by simp [hk, Firing.getK]
    exact sel_value_true hone o.neg (f.srcS o.a) (f.srcSI o.b) ▸ onF_gives hi _
  case selOff =>
    exact fun o s n sl f hi he => ⟨_, _, onF_gives hi _, firing_setFiring_same .., getS_writeS_disabled he _ _ _⟩

/-- Settles O35: the forms write through the updates of a firing that keep the rest, and a control form traps otherwise. -/
theorem scalarFrames : Obligations.ScalarFrames := ⟨scalarFrame, predicateFrame, controlFrame⟩

end Sys2Proof.Settled
end

section
/-! PROOF. The family "predicates": integer compares (O4), PLOP, PSET and the predicate moves (O5), floating compares and
their conditions (O36). First what a predicate reads after the writes of these forms, then the conditions over values, then
the three statements. -/

namespace Sys2Proof.Proofs
open Sys2Proof Sys2Proof.Machine Sys2Proof.Claims Sys2Proof.Laws

/-! ## The predicate pair of a compare (R104) -/

theorem cmpPair_eq : ∀ (mode : BitVec 2) (en r t u : Bool),
    cmpPair mode en r t u = (newT mode en t r, newF mode en u r) := by decide

/-- A predicate k that is not 0, after writes to p and then q, which name one predicate only where both are 0. -/
theorem read_pair {α : Type} {k : Nat} {p q : BitVec 3} (hk : 0 < k) (hpq : p = q → p = 0) (x y old : α) :
    (if k = q.toNat ∧ q.toNat ≠ 0 then y else if k = p.toNat ∧ p.toNat ≠ 0 then x else old) =
      if k = p.toNat then x else if k = q.toNat then y else old := by
  have hpq' : p.toNat = q.toNat → p.toNat = 0 := fun h => congrArg _ (hpq (BitVec.eq_of_toNat_eq h))
  by_cases hp : k = p.toNat
  · rw [if_neg (by omega), if_pos (by omega), if_pos hp]
  · by_cases hq : k = q.toNat
    · rw [if_pos (by omega), if_neg hp, if_pos hq]
    · rw [if_neg (by omega), if_neg (by omega), if_neg hp, if_neg hq]

theorem writesK_cmpK (o : CmpOps) (f : Firing) (r : Bool) (hpf : o.pt = o.pf → o.pt = 0) :
    WritesK o f (f.cmpK o (f.enS o.h) r) r := by
  intro k hk h8
  unfold Firing.cmpK
  rw [getK_setK _ _ _ _ o.pf.isLt h8, getK_setK _ _ _ _ o.pt.isLt h8, cmpPair_eq, read_pair hk hpf]
  split_ifs with hp hq
  · rw [hp]
  · rw [hq]
  · rfl

theorem getLsbD_laneMask (p : Nat → Bool) {L : Nat} (hL : L < 32) : (laneMask p).getLsbD L = p L := by
  rw [laneMask, BitVec.getLsbD_ofNat, testBit_maskOf]
  simp [hL]

theorem writesQ_cmpQ (o : VCmpOps) (f : Firing) (r : Nat → Bool) (hpf : o.pt = o.pf → o.pt = 0) :
    WritesQ o f (f.cmpQ o r) r := by
  intro q L hq _ hL
  unfold Firing.cmpQ
  rw [getQ_setQ, getQ_setQ, read_pair hq hpf]
  simp only [cmpPair_eq]
  split_ifs with hp hq
  · rw [getLsbD_laneMask _ hL, hp]
    rfl
  · rw [getLsbD_laneMask _ hL, hq]
    rfl
  · rfl

/-! ## The integer conditions (R105, Table 5-3) -/

theorem intCond_iff {w : Nat} (c : BitVec 4) (a b : BitVec w) : intCond c a b = true ↔ IntHolds c a b := by
  have hc := c.isLt
  unfold intCond IntHolds
  generalize c.toNat = n at hc
  interval_cases n <;> simp [BitVec.slt, BitVec.sle, BitVec.ult, BitVec.ule]

/-! ## Predicates written one after another (R108 to R110) -/

theorem getK_foldl_setK (b : Nat → Bool) {xs : List Nat} (hxs : ∀ i ∈ xs, i ≠ 0 ∧ i < 8) (f : Firing) {k : Nat}
    (h8 : k < 8) :
    (xs.foldl (fun f i => f.setK i (b i)) f).getK k = if k ∈ xs then b k else f.getK k := by
  induction xs generalizing f with
  | nil => simp
  | cons i xs ih =>
    obtain ⟨⟨h0, hi⟩, hxs⟩ := List.forall_mem_cons.mp hxs
    rw [List.foldl_cons, ih hxs, getK_setK _ _ _ _ hi h8]
    by_cases hk : k = i <;> simp [hk, h0]

/-- Each q predicate of the list becomes what the step makes of its own old value. -/
theorem getQ_foldl_setQ (g : Nat → W32 → W32) {xs : List Nat} (hxs : ∀ i ∈ xs, i ≠ 0) (hnd : xs.Nodup) (f : Firing)
    (q : Nat) :
    (xs.foldl (fun f i => f.setQ i (g i (f.getQ i))) f).getQ q = if q ∈ xs then g q (f.getQ q) else f.getQ q := by
  induction xs generalizing f with
  | nil => simp
  | cons i xs ih =>
    obtain ⟨h0, hxs⟩ := List.forall_mem_cons.mp hxs
    obtain ⟨hi, hnd⟩ := List.nodup_cons.mp hnd
    rw [List.foldl_cons, ih hxs hnd, getQ_setQ]
    by_cases hq : q = i
    · subst hq
      simp [hi, h0]
    · simp [hq]

theorem mem_one_to_seven {i : Nat} : i ∈ [1, 2, 3, 4, 5, 6, 7] ↔ 0 < i ∧ i < 8 := by
  simp only [List.mem_cons, List.not_mem_nil, or_false]
  omega

theorem mem_predsOf {m i : Nat} (h0 : 0 < i) (h8 : i < 8) : i ∈ predsOf m ↔ m.testBit i = true := by
  rw [predsOf, List.mem_filter, mem_one_to_seven]
  exact and_iff_right ⟨h0, h8⟩

theorem predsOf_ne_zero {m i : Nat} (h : i ∈ predsOf m) : i ≠ 0 :=
  (mem_one_to_seven.mp (predsOf_bounds h).1).1.ne'

theorem nodup_predsOf (m : Nat) : (predsOf m).Nodup := List.Nodup.filter _ (by decide)

/-- A guarded write of the k predicates that a mask names. -/
theorem getK_guarded_foldl {w : Nat} (en : Bool) (b : Nat → Bool) (m : BitVec w) (f : Firing) {k : Nat} (h0 : 0 < k)
    (h8 : k < 8) :
    (if en then (predsOf m.toNat).foldl (fun f i => f.setK i (b i)) f else f).getK k =
      if m.getLsbD k = true ∧ en = true then b k else f.getK k := by
  cases en
  · simp
  · rw [if_pos rfl, getK_foldl_setK b (fun i hi => ⟨predsOf_ne_zero hi, (predsOf_bounds hi).2⟩) f h8]
    exact if_congr ((mem_predsOf h0 h8).trans (by simp [BitVec.testBit_toNat])) rfl rfl

/-- What PSET makes of a q predicate's word: the lanes of the mask take the bit (R108). -/
def psetWord (vals : BitVec 8) (en : W32) (i : Nat) (x : W32) : W32 :=
  if vals.getLsbD i then x ||| en else x &&& ~~~ en

theorem getLsbD_psetWord (vals : BitVec 8) (en : Nat → Bool) (i : Nat) (x : W32) {L : Nat} (hL : L < 32) :
    (psetWord vals (laneMask en) i x).getLsbD L = if en L = true then vals.getLsbD i else x.getLsbD L := by
  unfold psetWord
  cases vals.getLsbD i
  · rw [if_neg Bool.false_ne_true, BitVec.getLsbD_and, BitVec.getLsbD_not, getLsbD_laneMask en hL]
    cases en L <;> simp [hL]
  · rw [if_pos rfl, BitVec.getLsbD_or, getLsbD_laneMask en hL]
    cases en L <;> simp

/-! ## PLOP and PSET in each file (R107, R108) -/

theorem exec_plop_k {o : PlopOps} (hl : o.lane = false) (s : State) : exec (.plop o) s = onF s fun f =>
    (if f.enS o.h then f.setK o.d.toNat (plopBit o.table (f.getK o.s1.toNat) (f.getK o.s2.toNat) (f.getK o.s3.toNat))
     else f).retire false o.h .l64 .none := by
  show execPlop o s = _
  simp [execPlop, hl]

theorem exec_plop_q {o : PlopOps} (hl : o.lane = true) (s : State) : exec (.plop o) s = onF s fun f =>
    (f.setQ o.d.toNat (laneMask fun L => if f.enL o.h L then
        plopBit o.table (bitAt (f.getQ o.s1.toNat) L) (bitAt (f.getQ o.s2.toNat) L) (bitAt (f.getQ o.s3.toNat) L)
      else bitAt (f.getQ o.d.toNat) L)).retire true o.h .l64 .none := by
  show execPlop o s = _
  simp [execPlop, hl]

theorem exec_pset_k {o : PsetOps} (hl : o.lane = false) (s : State) : exec (.pset o) s = onF s fun f =>
    (if f.enS o.h then (predsOf o.mask.toNat).foldl (fun f i => f.setK i (o.vals.getLsbD i)) f
     else f).retire false o.h .l64 .none := by
  show execPset o s = _
  simp [execPset, hl]

theorem exec_pset_q {o : PsetOps} (hl : o.lane = true) (s : State) : exec (.pset o) s = onF s fun f =>
    ((predsOf o.mask.toNat).foldl (fun g i => g.setQ i (psetWord o.vals (laneMask (f.enL o.h)) i (g.getQ i))) f).retire
      true o.h .l64 .none := by
  show execPset o s = _
  simp [execPset, psetWord, hl]

/-! ## The moves (R109, R110) -/

theorem getLsbD_kBits (f : Firing) (i : Nat) : f.kBits.getLsbD i = (decide (i < 8) && f.getK i) := by
  unfold Firing.kBits Firing.getK
  rw [show (1 : W64) = 1#64 from rfl, BitVec.getLsbD_or, BitVec.getLsbD_setWidth, BitVec.getLsbD_one]
  by_cases hi : i < 8
  · simp [hi, show i < 64 by omega, Bool.or_comm, beq_eq_decide]
  · simp [hi, show i ≠ 0 by omega, f.k.getLsbD_of_ge i (by omega)]

theorem getLsbD_qBits (f : Firing) (L i : Nat) : (f.qBits L).getLsbD i = (decide (i < 8) && (f.getQ i).getLsbD L) := by
  unfold Firing.qBits
  rw [BitVec.getLsbD_ofNat, testBit_maskOf]
  by_cases hi : i < 8
  · simp [hi, bitAt, show i < 32 by omega]
  · simp [hi]

/-- The word of q(i) that VPMOV.VTOQ makes of a firing (R110). -/
def vtoqWord (o : VtoqOps) (f : Firing) (i : Nat) : W32 := laneMask fun L =>
  if f.enL o.h L && bitAt (f.srcVI L o.mask) i then bitAt (f.srcV L o.a) i else bitAt (f.getQ i) L

theorem exec_vtoq (o : VtoqOps) (s : State) : exec (.vpmovVtoq o) s = onF s fun f =>
    ([1, 2, 3, 4, 5, 6, 7].foldl (fun g i => g.setQ i (vtoqWord o f i)) f).retire true o.h (lenBL o.mask) .none := rfl

/-! ## The order of floating values (R106) -/

/-- A finite value counted in units of 2^lo. -/
theorem ratOf_eq_scaled (n : Bool) (m : Nat) {e lo : Int} (h : lo ≤ e) :
    ratOf n m e = (scaled n m e lo : ℚ) * (2 : ℚ) ^ lo := by
  obtain ⟨d, rfl⟩ := Int.le.dest h
  have hs : (scaled n m (lo + d) lo : ℚ) = (if n then -1 else 1) * m * 2 ^ d := by
    unfold scaled
    cases n <;> simp
  rw [hs, ratOf, zpow_add₀ two_ne_zero, zpow_natCast]
  ring

theorem fLt_iff_below (a b : FVal) : fLt a b = true ↔ Below a b := by
  match a, b with
  | .fin n m e, .fin n' m' e' =>
    have hlo : (if e ≤ e' then e else e') ≤ e ∧ (if e ≤ e' then e else e') ≤ e' := by split <;> omega
    show decide _ = true ↔ ratOf n m e < ratOf n' m' e'
    rw [ratOf_eq_scaled n m hlo.1, ratOf_eq_scaled n' m' hlo.2, mul_lt_mul_iff_left₀ (by positivity), Int.cast_lt,
      decide_eq_true_iff]
  | .inf n, .inf n' => cases n <;> cases n' <;> simp [fLt, Below]
  | .inf n, .fin .. => rfl
  | .fin .., .inf n => simp [fLt, Below]
  | .nan _, .nan _ | .nan _, .inf _ | .nan _, .fin .. | .inf _, .nan _ | .fin .., .nan _ => simp [fLt, Below]

/-- On ordered values exactly one of below, same and above holds. -/
theorem same_iff_not_below {a b : FVal} (ha : a.isNan = false) (hb : b.isNan = false) :
    Same a b ↔ ¬ Below a b ∧ ¬ Below b a := by
  match a, b, ha, hb with
  | .fin n m e, .fin n' m' e', _, _ =>
    show _ = _ ↔ ¬ _ < _ ∧ ¬ _ < _
    rw [not_lt, not_lt, and_comm, ← le_antisymm_iff]
  | .inf n, .inf n', _, _ => cases n <;> cases n' <;> simp [Same, Below]
  | .inf n, .fin .., _, _ => cases n <;> simp [Same, Below]
  | .fin .., .inf n, _, _ => cases n <;> simp [Same, Below]

theorem fEq_iff_same {a b : FVal} (ha : a.isNan = false) (hb : b.isNan = false) : fEq a b = true ↔ Same a b := by
  rw [same_iff_not_below ha hb, ← fLt_iff_below, ← fLt_iff_below]
  simp [fEq, ha, hb]

theorem fLt_nan {a b : FVal} (h : a.isNan = true ∨ b.isNan = true) : fLt a b = false := by
  match a, b, h with
  | .nan _, .nan _, _ | .nan _, .inf _, _ | .nan _, .fin .., _ | .inf _, .nan _, _ | .fin .., .nan _, _ => rfl
  | .inf _, .inf _, h | .inf _, .fin .., h | .fin .., .inf _, h | .fin .., .fin .., h => simp [FVal.isNan] at h

theorem fEq_nan {a b : FVal} (h : a.isNan = true ∨ b.isNan = true) : fEq a b = false := by
  rcases h with h | h <;> simp [fEq, h]

/-! ## The floating conditions (Table 5-4) -/

theorem floatCond_ordered {t : Fmt} {c : BitVec 4} {x y : Nat} (hc : c.toNat < 14) (hx : (t.decode x).isNan = false)
    (hy : (t.decode y).isNan = false) : (floatCond t c x y).1 = true ↔ OrderedHolds c (t.decode x) (t.decode y) := by
  have heq := fEq_iff_same hx hy
  have hlt := fLt_iff_below (t.decode x) (t.decode y)
  have hgt := fLt_iff_below (t.decode y) (t.decode x)
  unfold floatCond OrderedHolds
  generalize c.toNat = n at hc
  interval_cases n <;> simp [hx, hy, ← heq, ← hlt, ← hgt]

theorem floatCond_unordered {t : Fmt} {c : BitVec 4} {x y : Nat} (hc : c.toNat < 14)
    (h : (t.decode x).isNan = true ∨ (t.decode y).isNan = true) :
    (floatCond t c x y).1 = decide (c.toNat ∈ [1, 6, 8, 9, 10, 11, 12]) := by
  have hun : ((t.decode x).isNan || (t.decode y).isNan) = true := Bool.or_eq_true_iff.mpr h
  unfold floatCond
  generalize c.toNat = n at hc
  interval_cases n <;> simp [hun, fLt_nan h, fLt_nan h.symm, fEq_nan h]

theorem floatCond_invalid {t : Fmt} {c : BitVec 4} {x y : Nat} (hc : c.toNat < 14) : (floatCond t c x y).2 = true ↔
    if c.toNat ∈ [2, 3, 4, 5] then (t.decode x).isNan = true ∨ (t.decode y).isNan = true
    else (t.decode x).isSig = true ∨ (t.decode y).isSig = true := by
  unfold floatCond
  generalize c.toNat = n at hc
  interval_cases n <;> simp

/-- The zeros of both signs are the same number. -/
theorem floatCond_zeros (t : Fmt) (a b : Bool) : (floatCond t 0 (t.signBits a) (t.signBits b)).1 = true ∧
    (floatCond t 2 (t.signBits a) (t.signBits b)).1 = false := by
  cases t <;> cases a <;> cases b <;> decide

/-- TLT's key flips the magnitude's bits of a negative pattern, and keeps its sign (R106). -/
theorem tltKey_eq_totalKey {w : Nat} (x : BitVec w) : tltKey w x.toNat = totalKey x := by
  have hm : x.toNat.testBit (w - 1) = x.msb := by rw [BitVec.testBit_toNat, BitVec.msb_eq_getLsbD_last]
  unfold tltKey totalKey
  rw [hm]
  cases hx : x.msb
  · exact (BitVec.toInt_eq_toNat_of_msb hx).symm
  · have hlow : (BitVec.ofNat w (2 ^ (w - 1) - 1)).toNat = 2 ^ (w - 1) - 1 :=
      Nat.mod_eq_of_lt (lt_of_lt_of_le (Nat.sub_one_lt (by positivity)) (Nat.pow_le_pow_right (by decide) (Nat.sub_le w 1)))
    have hmsb : (x ^^^ BitVec.ofNat w (2 ^ (w - 1) - 1)).msb = true := by
      rw [BitVec.msb_xor, hx, BitVec.msb_eq_getLsbD_last, ← BitVec.testBit_toNat, hlow, Nat.testBit_two_pow_sub_one]
      simp
    rw [if_pos rfl, if_pos rfl, BitVec.toInt_eq_msb_cond, if_pos hmsb, BitVec.toNat_xor, hlow]
    norm_cast

/-! ## Invalid, and FPX where it is enabled (R137) -/

/-- The enable bits are not flags. -/
theorem enables_orFlags (f : Firing) (fl : FpFlags) : (f.orFlags fl).fpst.extractLsb' 16 5 = f.fpst.extractLsb' 16 5 := by
  apply BitVec.eq_of_getLsbD_eq
  intro i hi
  simp [Firing.orFlags, hi, show 6 ≤ 16 + i by omega]

theorem fpxHits_invalid (f : Firing) (fl : FpFlags) : fpxHits (f.orFlags fl) fNV = f.fpst.getLsbD 20 := by
  have hbit : ∀ y : BitVec 5, (fNV.setWidth 5 &&& y != 0) = y.getLsbD 4 := by decide
  unfold fpxHits
  rw [enables_orFlags, hbit]
  simp

/-- The end of an instruction that raises Invalid or nothing. -/
theorem fpEnd_invalid (s : State) (n sl : Nat) (f : Firing) (inv : Bool) (k : Firing → Firing) :
    fpEnd s n sl f (if inv then fNV else 0) k = if inv = true ∧ f.fpst.getLsbD 20 = true
      then takeTrap (s.setFiring n sl (f.orFlags fNV)) n sl (fpxCause fNV)
      else s.setFiring n sl (k (f.orFlags (if inv then fNV else 0))) := by
  unfold fpEnd
  cases inv
  · simp [fpxHits]
  · simp [fpxHits_invalid]

/-- Invalid is sr.fpst's bit 4, and no other bit of it changes. -/
theorem fpst_orInvalid {f g : Firing} {inv : Bool} (hg : g.fpst = (f.orFlags (if inv then fNV else 0)).fpst) :
    g.fpst.getLsbD 4 = (f.fpst.getLsbD 4 || inv) ∧ ∀ i, i ≠ 4 → g.fpst.getLsbD i = f.fpst.getLsbD i := by
  have hbit (i : Nat) : ((if inv then fNV else 0 : FpFlags).setWidth 64).getLsbD i = (inv && decide (i = 4)) := by
    cases inv
    · simp
    · rw [if_pos rfl, show fNV.setWidth 64 = BitVec.twoPow 64 4 by decide, BitVec.getLsbD_twoPow]
      simp [eq_comm]
  have hor (i : Nat) : g.fpst.getLsbD i = (f.fpst.getLsbD i || (inv && decide (i = 4))) := by
    rw [hg, ← hbit]
    exact BitVec.getLsbD_or
  exact ⟨(hor 4).trans (by simp), fun i hi => by simp [hor, hi]⟩

theorem orAll_invalid (p : Nat → Bool) (ls : List Nat) :
    orAll (ls.map fun L => if p L then fNV else 0) = if ls.any p then fNV else 0 := by
  have key (acc : Bool) : (ls.map fun L => if p L then fNV else 0).foldl (· ||| ·) (if acc then fNV else 0) =
      if acc || ls.any p then fNV else 0 := by
    induction ls generalizing acc with
    | nil => simp
    | cons L ls ih =>
      have hor : (if acc then fNV else 0) ||| (if p L then fNV else 0) = if acc || p L then fNV else 0 := by
        cases acc <;> cases p L <;> rfl
      rw [List.map_cons, List.foldl_cons, hor, ih, List.any_cons, Bool.or_assoc]
  exact key false

/-- Some enabled lane meets p. -/
theorem any_enLanes (f : Firing) (h : Head) (p : Nat → Bool) :
    (f.enLanes h).any p = true ↔ ∃ L, L < 32 ∧ f.enL h L = true ∧ p L = true := by
  simp [Firing.enLanes, lanes]

@[simp] theorem cmpK_fpst (f : Firing) (o : CmpOps) (en r : Bool) : (f.cmpK o en r).fpst = f.fpst :=
  (setK_fpst ..).trans (setK_fpst ..)

@[simp] theorem cmpQ_fpst (f : Firing) (o : VCmpOps) (r : Nat → Bool) : (f.cmpQ o r).fpst = f.fpst :=
  (setQ_fpst ..).trans (setQ_fpst ..)

/-! ## FCMP and VFCMP -/

/-- FCMP over what it compares: c is the result and Invalid, both false where the guard is. -/
theorem exec_fcmp {s : State} {n sl : Nat} {f : Firing} (hi : Issues s n sl f) {o : CmpOps} {c : Bool × Bool}
    (hc : c = if f.enS o.h then floatCond (cmpFmt o.t) o.cond (f.fsrcS (cmpFmt o.t) o.a) (f.fsrcSI (cmpFmt o.t) o.b)
      else (false, false)) :
    exec (.fcmp o) s = .next (fpEnd s n sl f (if c.2 then fNV else 0) fun f' =>
      (f'.cmpK o (f.enS o.h) c.1).retire false o.h (lenB o.b) .none) := by
  subst hc
  exact withF_issues hi.1 hi.2 _

/-- VFCMP raises Invalid where an enabled lane does. -/
theorem exec_vfcmp {s : State} {n sl : Nat} {f : Firing} (hi : Issues s n sl f) {o : VCmpOps} {t : BitVec 2}
    {r : Nat → Bool × Bool} {inv : Bool} (ht : t = if o.t then 1 else 0)
    (hr : ∀ L, r L = floatCond (cmpFmt o.t) o.cond ((f.fsrcV t L o.a).headD 0) ((f.fsrcVI t L o.b).headD 0))
    (hinv : inv = true ↔ ∃ L, L < 32 ∧ f.enL o.h L = true ∧ (r L).2 = true) :
    exec (.vfcmp o) s = .next (fpEnd s n sl f (if inv then fNV else 0) fun f' =>
      (f'.cmpQ o fun L => (r L).1).retire true o.h (lenBL o.b) .none) := by
  obtain rfl : inv = (f.enLanes o.h).any fun L => (r L).2 := Bool.eq_iff_iff.mpr (hinv.trans (any_enLanes ..).symm)
  obtain rfl := funext hr
  subst ht
  rw [← orAll_invalid]
  exact withF_issues hi.1 hi.2 _

theorem floatCompareForms : FloatCompareForms := by
  refine ⟨fun o s n sl f c hi hpf hc => ⟨fun hq => ?_, fun hinv hen => ?_⟩,
    fun o s n sl f t r inv hi hpf ht hr hinv => ⟨fun hq => ?_, fun hi' hen => ?_⟩⟩
  · refine ⟨(f.orFlags (if c.2 then fNV else 0)).cmpK o (f.enS o.h) c.1, ?_, writesK_cmpK o (f.orFlags _) c.1 hpf,
      fpst_orInvalid (cmpK_fpst ..)⟩
    rw [Gives, exec_fcmp hi hc, fpEnd_invalid, if_neg (by simpa [or_iff_not_imp_left] using hq)]
  · rw [exec_fcmp hi hc, fpEnd_invalid, if_pos ⟨hinv, hen⟩]
  · refine ⟨(f.orFlags (if inv then fNV else 0)).cmpQ o fun L => (r L).1, ?_, writesQ_cmpQ o (f.orFlags _) _ hpf,
      fpst_orInvalid (cmpQ_fpst ..)⟩
    rw [Gives, exec_vfcmp hi ht hr hinv, fpEnd_invalid, if_neg (by simpa [or_iff_not_imp_left] using hq)]
  · rw [exec_vfcmp hi ht hr hinv, fpEnd_invalid, if_pos ⟨hi', hen⟩]

theorem floatConditions : FloatConditions := by
  refine ⟨fun t c x y hc => ⟨floatCond_ordered hc, floatCond_unordered hc, floatCond_invalid hc⟩, floatCond_zeros,
    fun t x y => ⟨?_, rfl⟩⟩
  rw [← tltKey_eq_totalKey, ← tltKey_eq_totalKey]
  rfl

end Sys2Proof.Proofs

/-! ## The statements -/

namespace Sys2Proof.Settled
open Sys2Proof Sys2Proof.Machine Sys2Proof.Claims Sys2Proof.Laws Sys2Proof.Proofs

/-- Settles O4: a compare writes its two predicates one after the other, and each condition is the order it names. -/
theorem integerCompares : Obligations.IntegerCompares := by
  unfold Obligations.IntegerCompares
  refine ⟨fun o s n sl f hi hpf => ⟨_, _, onF_gives hi _, writesK_cmpK o f _ hpf, ?_⟩,
    fun o s n sl f hi hpf => ⟨_, _, onF_gives hi _, writesQ_cmpQ o f _ hpf, fun L _ => intCond_iff ..⟩⟩
  split
  · exact intCond_iff ..
  · exact intCond_iff ..

/-- Settles O5, a form at a time: what a predicate reads after the writes of the form. -/
theorem predicateMoves : Obligations.PredicateMoves := by
  unfold Obligations.PredicateMoves
  refine ⟨?plopK, ?plopQ, ?psetK, ?psetQ, ?ktos, ?stok, ?qtos, ?stoq, ?qtov, ?vtoq⟩
  case plopK =>
    intro o s n sl f hi hl
    refine ⟨_, (exec_plop_k hl s).trans (onF_gives hi _), fun k h0 h8 => ?_⟩
    by_cases he : f.enS o.h = true
    · rw [if_pos he, getK_setK _ _ _ _ o.d.isLt h8]
      exact if_congr (by simp [he]; omega) rfl rfl
    · rw [if_neg he, if_neg fun h => he h.2]
  case plopQ =>
    intro o s n sl f hi hl
    refine ⟨_, (exec_plop_q hl s).trans (onF_gives hi _), fun q L h0 _ hL => ?_⟩
    rw [getQ_setQ]
    by_cases hq : q = o.d.toNat
    · rw [if_pos (by omega), getLsbD_laneMask _ hL, hq]
      exact if_congr (by simp) rfl rfl
    · rw [if_neg fun h => hq h.1, if_neg fun h => hq h.1]
  case psetK =>
    exact fun o s n sl f hi hl => ⟨_, (exec_pset_k hl s).trans (onF_gives hi _),
      fun k h0 h8 => getK_guarded_foldl _ _ o.mask f h0 h8⟩
  case psetQ =>
    intro o s n sl f hi hl
    refine ⟨_, (exec_pset_q hl s).trans (onF_gives hi _), fun q L h0 h8 hL => ?_⟩
    rw [getQ_foldl_setQ _ (fun _ => predsOf_ne_zero) (nodup_predsOf _)]
    simp only [mem_predsOf h0 h8, BitVec.testBit_toNat]
    by_cases hm : o.mask.getLsbD q = true
    · rw [if_pos hm, getLsbD_psetWord _ _ _ _ hL]
      exact if_congr (by simp [hm]) rfl rfl
    · rw [if_neg hm, if_neg fun h => hm h.1]
  case ktos => exact fun o s n sl f hi => ⟨_, onF_gives hi _, getLsbD_kBits f⟩
  case stok =>
    exact fun o s n sl f hi => ⟨_, onF_gives hi _, fun k h0 h8 => getK_guarded_foldl _ _ (f.srcSI o.mask) f h0 h8⟩
  case qtos => exact fun o s n sl f hi => onF_gives hi _
  case stoq =>
    intro o s n sl f hi
    refine ⟨_, onF_gives hi _, fun q h0 _ => ?_⟩
    by_cases he : f.enS o.h = true
    · rw [if_pos he, getQ_setQ]
      exact if_congr (by simp [he]; omega) rfl rfl
    · rw [if_neg he, if_neg fun h => he h.2]
  case qtov => exact fun o s n sl f hi => ⟨_, onF_gives hi _, getLsbD_qBits f⟩
  case vtoq =>
    intro o s n sl f hi
    refine ⟨_, (exec_vtoq o s).trans (onF_gives hi _), fun q L h0 h8 hL => ?_⟩
    rw [getQ_foldl_setQ (fun i _ => vtoqWord o f i) (fun i hi => (mem_one_to_seven.mp hi).1.ne') (by decide),
      if_pos (mem_one_to_seven.mpr ⟨h0, h8⟩), vtoqWord, getLsbD_laneMask _ hL]
    exact if_congr (by simp [bitAt]) rfl rfl

/-- Settles O36: a compare ends by raising Invalid or nothing, and the conditions are read off the order of the values. -/
theorem floatCompares : Obligations.FloatCompares := ⟨floatCompareForms, floatConditions⟩

end Sys2Proof.Settled
end

section
/-! PROOF. The family "control": scalar transfers (O6), the choice of a path (O7), lane branches, path instructions and DONE
(O37). First the path table, then what an issue makes of the current path, then pools of credits, then the statements. -/

namespace Sys2Proof.Proofs
open Sys2Proof Sys2Proof.Machine Sys2Proof.Claims Sys2Proof.Laws

/-! ## Entries of the path table in a state -/

theorem mem_inState {f : Firing} {st e : Nat} :
    e ∈ f.inState st ↔ e < f.paths.length ∧ (f.paths.getD e {}).st.toNat = st := by
  simp [Firing.inState]

theorem mem_inState_one {f : Firing} {e : Nat} : e ∈ f.inState 1 ↔ ready f e := by
  rw [mem_inState, ready, ← BitVec.toNat_inj]
  rfl

theorem mem_inState_two {f : Firing} {e : Nat} : e ∈ f.inState 2 ↔ blocked f e := by
  rw [mem_inState, blocked, ← BitVec.toNat_inj]
  rfl

/-- The indices of the entries in a state rise. -/
theorem inState_rising (f : Firing) (st : Nat) : (f.inState st).Pairwise (· < ·) :=
  List.pairwise_lt_range.filter _

/-! ## Greatest and least of a list's values -/

theorem foldl_max_spec (v : Nat → Nat) (es : List Nat) (m : Nat) :
    m ≤ es.foldl (fun m e => max m (v e)) m ∧ (∀ e ∈ es, v e ≤ es.foldl (fun m e => max m (v e)) m) ∧
      (es.foldl (fun m e => max m (v e)) m = m ∨ ∃ e ∈ es, v e = es.foldl (fun m e => max m (v e)) m) := by
  induction es generalizing m with
  | nil => simp
  | cons x es ih =>
    obtain ⟨hm, hle, heq⟩ := ih (max m (v x))
    rw [List.foldl_cons]
    refine ⟨by omega, List.forall_mem_cons.mpr ⟨by omega, hle⟩, ?_⟩
    rcases heq with heq | ⟨e, he, heq⟩
    · rcases le_total (v x) m with h | h
      · exact .inl (heq.trans (max_eq_left h))
      · exact .inr ⟨x, List.mem_cons_self, (heq.trans (max_eq_right h)).symm⟩
    · exact .inr ⟨e, List.mem_cons_of_mem _ he, heq⟩

theorem foldl_min_spec (v : Nat → Nat) (es : List Nat) (m : Nat) :
    es.foldl (fun m e => min m (v e)) m ≤ m ∧ (∀ e ∈ es, es.foldl (fun m e => min m (v e)) m ≤ v e) ∧
      (es.foldl (fun m e => min m (v e)) m = m ∨ ∃ e ∈ es, v e = es.foldl (fun m e => min m (v e)) m) := by
  induction es generalizing m with
  | nil => simp
  | cons x es ih =>
    obtain ⟨hm, hle, heq⟩ := ih (min m (v x))
    rw [List.foldl_cons]
    refine ⟨by omega, List.forall_mem_cons.mpr ⟨by omega, hle⟩, ?_⟩
    rcases heq with heq | ⟨e, he, heq⟩
    · rcases le_total m (v x) with h | h
      · exact .inl (heq.trans (min_eq_left h))
      · exact .inr ⟨x, List.mem_cons_self, (heq.trans (min_eq_right h)).symm⟩
    · exact .inr ⟨e, List.mem_cons_of_mem _ he, heq⟩

theorem priOf_le_topPri {f : Firing} {es : List Nat} {e : Nat} (he : e ∈ es) : f.priOf e ≤ f.topPri es :=
  (foldl_max_spec f.priOf es 0).2.1 e he

/-- The highest priority among entries is that of one of them. -/
theorem exists_topPri {f : Firing} {es : List Nat} {e : Nat} (he : e ∈ es) : ∃ x ∈ es, f.priOf x = f.topPri es := by
  rcases (foldl_max_spec f.priOf es 0).2.2 with h | h
  · have hle := priOf_le_topPri (f := f) he
    have h0 : f.topPri es = 0 := h
    exact ⟨e, he, by omega⟩
  · exact h

/-! ## The choice among ready entries (R119) -/

/-- The ready entries of the highest priority. -/
def bestReady (f : Firing) : List Nat := (f.inState 1).filter fun e => f.priOf e == f.topPri (f.inState 1)

theorem mem_bestReady {f : Firing} {e : Nat} :
    e ∈ bestReady f ↔ ready f e ∧ ∀ x, ready f x → f.priOf x ≤ f.priOf e := by
  rw [bestReady, List.mem_filter, mem_inState_one, beq_iff_eq]
  refine and_congr_right fun he => ⟨fun h x hx => ?_, fun h => ?_⟩
  · rw [h]
    exact priOf_le_topPri (mem_inState_one.mpr hx)
  · obtain ⟨x, hx, htop⟩ := exists_topPri (f := f) (mem_inState_one.mpr he)
    exact le_antisymm (priOf_le_topPri (mem_inState_one.mpr he)) (htop ▸ h x (mem_inState_one.mp hx))

theorem bestReady_rising (f : Firing) : (bestReady f).Pairwise (· < ·) := (inState_rising f 1).filter _

theorem bestReady_ne_nil {f : Firing} (h : ∃ e, ready f e) : bestReady f ≠ [] := by
  obtain ⟨e, he⟩ := h
  obtain ⟨x, hx, htop⟩ := exists_topPri (f := f) (mem_inState_one.mpr he)
  exact List.ne_nil_of_mem (List.mem_filter.mpr ⟨hx, by simpa using htop⟩)

/-- The head of a rising list is its least. -/
theorem head_le_of_rising {e x : Nat} {es : List Nat} (h : (e :: es).Pairwise (· < ·)) (hx : x ∈ e :: es) : e ≤ x := by
  rcases List.mem_cons.mp hx with rfl | hx
  · exact le_rfl
  · exact (List.rel_of_pairwise_cons h hx).le

/-- What the choice makes current: a best entry, the current one where it may keep its tie, and else the lowest other. -/
structure Chosen (f : Firing) (y : Bool) (e : Nat) : Prop where
  best   : e ∈ bestReady f
  keeps  : y = false → f.cur ∈ bestReady f → e = f.cur
  yields : y = true → ∀ x ∈ bestReady f, x ≠ f.cur → e ≠ f.cur
  lowest : e ≠ f.cur → ∀ x ∈ bestReady f, x ≠ f.cur → e ≤ x

theorem choosePath_chosen {f : Firing} (h : ∃ e, ready f e) (y : Bool) :
    ∃ e, f.choosePath y = { f with cur := e } ∧ Chosen f y e := by
  have hne := bestReady_ne_nil h
  have hup := bestReady_rising f
  have hmem : ∀ x, x ∈ (bestReady f).filter (fun e => e != f.cur) ↔ x ∈ bestReady f ∧ x ≠ f.cur := by simp
  unfold Firing.choosePath
  dsimp only
  rw [← bestReady]
  split
  next hk => -- the current path keeps its tie
    have hk : f.cur ∈ bestReady f ∧ y = false := by simpa using hk
    exact ⟨f.cur, rfl, hk.1, fun _ _ => rfl, fun hy => absurd hy (by simp [hk.2]), fun hc => absurd rfl hc⟩
  next hk =>
    have hk : f.cur ∈ bestReady f → y = true := by simpa using hk
    split
    next hy =>
      split
      next e es he => -- another best entry wins the tie of one that yielded
        have hin := (hmem e).mp (he ▸ List.mem_cons_self)
        exact ⟨e, rfl, hin.1, fun hn => absurd (hn.symm.trans hy) (by decide), fun _ _ _ _ => hin.2,
          fun _ x hx hxc => head_le_of_rising (he ▸ hup.filter _) (he ▸ (hmem x).mpr ⟨hx, hxc⟩)⟩
      next he => -- the one that yielded is alone
        have hall : ∀ x ∈ bestReady f, x = f.cur := fun x hx => by
          by_contra hxc
          exact List.not_mem_nil (he ▸ (hmem x).mpr ⟨hx, hxc⟩)
        split
        next e es hb =>
          have hin : e ∈ bestReady f := hb ▸ List.mem_cons_self
          exact ⟨e, rfl, hin, fun _ _ => hall e hin, fun _ x hx hxc => absurd (hall x hx) hxc,
            fun hc => absurd (hall e hin) hc⟩
        next hb => exact absurd hb hne
    next hy =>
      have hcur : f.cur ∉ bestReady f := fun hc => hy (hk hc)
      split
      next e es hb => -- the lowest index
        exact ⟨e, rfl, hb ▸ List.mem_cons_self, fun _ hc => absurd hc hcur, fun ht => absurd ht hy,
          fun _ x hx _ => head_le_of_rising (hb ▸ hup) (hb ▸ hx)⟩
      next hb => exact absurd hb hne

theorem selectPath_of_ready {f : Firing} (h : ∃ e, ready f e) (y : Bool) : f.selectPath y = f.choosePath y := by
  obtain ⟨e, he⟩ := h
  have hne : (f.inState 1).isEmpty = false := by simpa using List.ne_nil_of_mem (mem_inState_one.mpr he)
  simp [Firing.selectPath, hne]

theorem selectPath_of_not_ready {f : Firing} (h : ∀ e, ¬ ready f e) (y : Bool) :
    f.selectPath y = f.merge.choosePath false := by
  have hnil : f.inState 1 = [] := List.eq_nil_iff_forall_not_mem.mpr fun e he => h e (mem_inState_one.mp he)
  simp [Firing.selectPath, hnil]

/-! ## The merge of blocked entries (R123) -/

/-- The lowest address of a blocked entry. -/
def lowestPc (f : Firing) : Nat :=
  match f.inState 2 with
  | [] => 0
  | b :: bs => bs.foldl (fun m e => min m (f.paths.getD e {}).pc.toNat) (f.paths.getD b {}).pc.toNat

/-- The blocked entries at the lowest address. -/
def mergeGroup (f : Firing) : List Nat := (f.inState 2).filter fun e => (f.paths.getD e {}).pc.toNat == lowestPc f

/-- The one ready entry they become. -/
def mergedEntry (f : Firing) : PathE :=
  { pc := nextPc (BitVec.ofNat 64 (lowestPc f)) .l64,
    mask := (mergeGroup f).foldl (fun m e => m ||| (f.paths.getD e {}).mask) 0,
    pri := BitVec.ofNat 8 (f.topPri (mergeGroup f)), st := 1 }

/-- Entries freed one after another. -/
def freeEntries (f : Firing) (es : List Nat) : Firing :=
  es.foldl (fun f e => f.setPath e { f.paths.getD e {} with st := 0 }) f

theorem lowestPc_spec {f : Firing} {b : Nat} (hb : blocked f b) :
    (∀ e, blocked f e → lowestPc f ≤ (f.paths.getD e {}).pc.toNat) ∧
      ∃ e, blocked f e ∧ (f.paths.getD e {}).pc.toNat = lowestPc f := by
  have hmem := mem_inState_two.mpr hb
  simp only [← mem_inState_two]
  unfold lowestPc
  cases hl : f.inState 2 with
  | nil => rw [hl] at hmem; cases hmem
  | cons x xs =>
    obtain ⟨hx, hxs, heq⟩ := foldl_min_spec (fun e => (f.paths.getD e {}).pc.toNat) xs (f.paths.getD x {}).pc.toNat
    refine ⟨List.forall_mem_cons.mpr ⟨hx, hxs⟩, ?_⟩
    rcases heq with h | ⟨e, he, h⟩
    · exact ⟨x, List.mem_cons_self, h.symm⟩
    · exact ⟨e, List.mem_cons_of_mem _ he, h⟩

theorem mem_mergeGroup {f : Firing} {e : Nat} :
    e ∈ mergeGroup f ↔ blocked f e ∧ (f.paths.getD e {}).pc.toNat = lowestPc f := by
  rw [mergeGroup, List.mem_filter, mem_inState_two, beq_iff_eq]

/-- The lowest index of the group, and what the merge makes of the table. -/
theorem merge_eq {f : Firing} (h : ∃ e, blocked f e) : ∃ m, m ∈ mergeGroup f ∧ (∀ e ∈ mergeGroup f, m ≤ e) ∧
    f.merge = (freeEntries f (mergeGroup f)).setPath m (mergedEntry f) := by
  obtain ⟨b, hb⟩ := h
  obtain ⟨-, x, hx, hlow⟩ := lowestPc_spec hb
  have hgroup : f.merge = (freeEntries f (mergeGroup f)).setPath ((mergeGroup f).headD 0) (mergedEntry f) := by
    have hmem := mem_inState_two.mpr hb
    unfold Firing.merge mergedEntry mergeGroup lowestPc
    cases hl : f.inState 2 with
    | nil => rw [hl] at hmem; cases hmem
    | cons => rfl
  rw [hgroup]
  have hup : (mergeGroup f).Pairwise (· < ·) := (inState_rising f 2).filter _
  have hxg := mem_mergeGroup.mpr ⟨hx, hlow⟩
  cases hg : mergeGroup f with
  | nil => rw [hg] at hxg; cases hxg
  | cons m ms =>
    rw [hg] at hup
    exact ⟨m, List.mem_cons_self, fun e he => head_le_of_rising hup he, rfl⟩

theorem length_setPath (f : Firing) (i : Nat) (p : PathE) : (f.setPath i p).paths.length = f.paths.length :=
  List.length_set

theorem getD_setPath_same {f : Firing} {i : Nat} (p : PathE) (h : i < f.paths.length) :
    (f.setPath i p).paths.getD i {} = p := by
  simp [Firing.setPath, h]

theorem getD_setPath_other {f : Firing} {i e : Nat} (p : PathE) (h : e ≠ i) :
    (f.setPath i p).paths.getD e {} = f.paths.getD e {} := by
  simp [Firing.setPath, List.getElem?_set_ne h.symm]

theorem length_freeEntries (f : Firing) (es : List Nat) : (freeEntries f es).paths.length = f.paths.length := by
  induction es generalizing f with
  | nil => rfl
  | cons x es ih => exact (ih _).trans (length_setPath ..)

theorem getD_freeEntries {f : Firing} {es : List Nat} (h : ∀ e ∈ es, e < f.paths.length) (e : Nat) :
    (freeEntries f es).paths.getD e {} =
      if e ∈ es then { f.paths.getD e {} with st := 0 } else f.paths.getD e {} := by
  induction es generalizing f with
  | nil => rfl
  | cons x es ih =>
    obtain ⟨hx, hes⟩ := List.forall_mem_cons.mp h
    show (freeEntries (f.setPath x _) es).paths.getD e {} = _
    rw [ih (by simpa only [length_setPath] using hes)]
    by_cases hex : e = x
    · subst hex
      rw [getD_setPath_same _ hx]
      simp
    · rw [getD_setPath_other _ hex]
      simp [hex]

theorem getLsbD_foldl_or {es : List Nat} (v : Nat → W32) (m : W32) (L : Nat) :
    (es.foldl (fun m e => m ||| v e) m).getLsbD L = true ↔ m.getLsbD L = true ∨ ∃ e ∈ es, (v e).getLsbD L = true := by
  induction es generalizing m with
  | nil => simp
  | cons x es ih => rw [List.foldl_cons, ih]; simp [or_assoc]

/-- The table after a merge into entry m. -/
structure Merged (f g : Firing) (m : Nat) : Prop where
  group  : m ∈ mergeGroup f
  lowest : ∀ e ∈ mergeGroup f, m ≤ e
  length : g.paths.length = f.paths.length
  merged  : g.paths.getD m {} = mergedEntry f
  freed  : ∀ e ∈ mergeGroup f, e ≠ m → g.paths.getD e {} = { f.paths.getD e {} with st := 0 }
  others : ∀ e, e ∉ mergeGroup f → g.paths.getD e {} = f.paths.getD e {}

theorem merge_merged {f : Firing} (h : ∃ e, blocked f e) : ∃ m, Merged f f.merge m := by
  obtain ⟨m, hm, hlow, heq⟩ := merge_eq h
  have hlt : ∀ e ∈ mergeGroup f, e < f.paths.length := fun e he => (mem_mergeGroup.mp he).1.1
  rw [heq]
  refine ⟨m, hm, hlow, by rw [length_setPath, length_freeEntries],
    getD_setPath_same _ (by rw [length_freeEntries]; exact hlt m hm), fun e he hne => ?_, fun e he => ?_⟩
  · rw [getD_setPath_other _ hne, getD_freeEntries hlt, if_pos he]
  · rw [getD_setPath_other _ (by rintro rfl; exact he hm), getD_freeEntries hlt, if_neg he]

theorem Merged.ready_iff {f g : Firing} {m : Nat} (h : Merged f g m) (hr : ∀ e, ¬ ready f e) (e : Nat) :
    ready g e ↔ e = m := by
  by_cases hem : e = m
  · subst hem
    have hlt : e < f.paths.length := (mem_mergeGroup.mp h.group).1.1
    exact iff_of_true ⟨h.length ▸ hlt, by rw [h.merged]; rfl⟩ rfl
  · refine iff_of_false (fun ⟨hlt, hst⟩ => ?_) hem
    by_cases he : e ∈ mergeGroup f
    · rw [h.freed e he hem] at hst
      exact absurd hst (show (0 : Byte) ≠ 1 by decide)
    · rw [h.others e he] at hst
      exact hr e ⟨h.length ▸ hlt, hst⟩

/-- Where no path is ready, the merged one becomes the current path. -/
theorem selectPath_merged {f : Firing} (hr : ∀ e, ¬ ready f e) (hb : ∃ e, blocked f e) (y : Bool) :
    ∃ m, Merged f (f.selectPath y) m ∧ (f.selectPath y).cur = m := by
  obtain ⟨m, hm⟩ := merge_merged hb
  obtain ⟨e, he, hch⟩ := choosePath_chosen ⟨m, (hm.ready_iff hr m).mpr rfl⟩ false
  have hem : e = m := (hm.ready_iff hr e).mp (mem_bestReady.mp hch.best).1
  rw [selectPath_of_not_ready hr, he]
  exact ⟨m, ⟨hm.group, hm.lowest, hm.length, hm.merged, hm.freed, hm.others⟩, hem⟩

theorem toNmergedergedEntry_pri {f : Firing} {m : Nat} (hm : m ∈ mergeGroup f) :
    (mergedEntry f).pri.toNat = f.topPri (mergeGroup f) := by
  obtain ⟨x, -, hx⟩ := exists_topPri (f := f) hm
  have hlt : f.priOf x < 2 ^ 8 := (f.paths.getD x {}).pri.isLt
  exact (BitVec.toNat_ofNat ..).trans (Nat.mod_eq_of_lt (hx ▸ hlt))

theorem pathMerge : PathMerge := by
  rintro f _ y pc hr hb rfl hpc
  obtain ⟨m, hm, hcur⟩ := selectPath_merged hr hb y
  obtain ⟨hbm, hlow⟩ := mem_mergeGroup.mp hm.group
  have hleast := (lowestPc_spec hbm).1
  have hin : ∀ e, e ∈ mergeGroup f ↔ blocked f e ∧ pc e = pc m := fun e => by
    rw [mem_mergeGroup, hpc e, hpc m, hlow]
  have hpri : (f.selectPath y).priOf m = f.topPri (mergeGroup f) := by
    rw [Firing.priOf, hm.merged, toNmergedergedEntry_pri hm.group]
  refine ⟨m, hbm, hcur, hm.length, fun e he => ⟨?_, fun h => hm.lowest e ((hin e).mpr ⟨he, h⟩)⟩, by rw [hm.merged]; rfl, ?_,
    fun L _ => ?_, ?_, fun e he h => ?_, fun e hne he h => hm.freed e ((hin e).mpr ⟨he, h⟩) hne,
    fun e _ h => hm.others e fun he => h ((hin e).mp he)⟩
  · rw [hpc, hpc, hlow]
    exact hleast e he
  · rw [hm.merged, mergedEntry, ← hlow, BitVec.ofNat_toNat, BitVec.setWidth_eq]
  · rw [hm.merged, mergedEntry, getLsbD_foldl_or]
    simp [hin, and_assoc]
  · obtain ⟨x, hx, htop⟩ := exists_topPri (f := f) hm.group
    obtain ⟨hbx, hpx⟩ := (hin x).mp hx
    exact ⟨x, hbx, hpx, hpri.trans htop.symm⟩
  · rw [hpri]
    exact priOf_le_topPri ((hin e).mpr ⟨he, h⟩)

/-! ## Addresses (R26, R114) -/

theorem toNat_va56 (x : W64) : (va56 x).toNat = x.toNat % 2 ^ 56 := by
  show (x &&& 0x00FFFFFFFFFFFFFF).toNat = _
  rw [BitVec.toNat_and]
  exact Nat.and_two_pow_sub_one_eq_mod x.toNat 56

theorem branchTo_eq_target (base : W64) (off : Imm) : branchTo base off = target base off := by
  apply BitVec.eq_of_toNat_eq
  have hlt : (base + 4 * (match off with | .i17 i => i.signExtend 64 | .i32 i => i.signExtend 64)).toNat % 2 ^ 56 < 2 ^ 64 :=
    (Nat.mod_lt _ (by decide)).trans (by decide)
  exact (toNat_va56 _).trans ((BitVec.toNat_ofNat ..).trans (Nat.mod_eq_of_lt hlt)).symm

/-- The two low bits that ALIGN looks at (R115). -/
theorem fld_low_ne_zero (x : W64) : (fld x 0 2 != 0) = decide (x.toNat % 4 ≠ 0) := by
  rw [fld_eq, Nat.pow_zero, Nat.div_one]
  by_cases h : x.toNat % 4 = 0 <;> simp [h]

/-! ## What an issue makes of the current path -/

@[simp] theorem jump_cur (f : Firing) (h : Head) (t : W64) : (f.jump h t).cur = f.cur := endIssue_cur ..

@[simp] theorem getS_jump (f : Firing) (h : Head) (t : W64) (r : Nat) : (f.jump h t).getS r = f.getS r := by
  show (f.endIssue false h.c .none).getS r = _
  unfold Firing.getS
  rw [endIssue_s]

@[simp] theorem setS_pc (f : Firing) (d : Nat) (x : W64) : (f.setS d x).pc = f.pc := by
  simp [Firing.pc, Firing.path]

theorem jump_paths (f : Firing) (h : Head) (t : W64) :
    (f.jump h t).paths = f.paths.set f.cur { f.path with pc := t } := by
  simp [Firing.jump, Firing.setPc, Firing.setPath, Firing.path]

theorem retire_paths (f : Firing) (lane : Bool) (h : Head) (l : Len) (r : LatchRes) :
    (f.retire lane h l r).paths = f.paths.set f.cur { f.path with pc := nextPc f.pc l } := by
  simp [Firing.retire, Firing.setPc, Firing.setPath, Firing.path]

section
variable {f : Firing} (hc : f.cur < f.paths.length)
include hc

theorem jump_path (h : Head) (t : W64) : (f.jump h t).path = { f.path with pc := t } := by
  rw [Firing.path, jump_paths, jump_cur]
  simp [hc]

theorem retire_path (lane : Bool) (h : Head) (l : Len) (r : LatchRes) :
    (f.retire lane h l r).path = { f.path with pc := nextPc f.pc l } := by
  rw [Firing.path, retire_paths, retire_cur]
  simp [hc]

theorem jump_pc (h : Head) (t : W64) : (f.jump h t).pc = t := by rw [Firing.pc, jump_path hc]

theorem jump_setS_pc (d : Nat) (x : W64) (h : Head) (t : W64) : ((f.setS d x).jump h t).pc = t :=
  jump_pc (by simpa using hc) h t

end

/-- The link that a jump leaves in its register. -/
theorem getS_jump_link {f : Firing} {d : BitVec 6} {x : W64} {h : Head} {t : W64} (hd : d ≠ 0) :
    ((f.setS d.toNat x).jump h t).getS d.toNat = x :=
  (getS_jump ..).trans (getS_setS_same _ _ _ (by simpa [← BitVec.toNat_inj] using hd))

/-! ## The scalar transfers (R115) -/

section
variable {s : State} {n sl : Nat} {f : Firing} (hi : Issues s n sl f)
include hi

theorem exec_br (o : BrOps) : Gives (.br o) s n sl
    (if f.enS o.h then f.jump o.h (target f.pc o.off) else f.retire false o.h (lenImm o.off) .none) := by
  rw [← branchTo_eq_target]
  exact onF_gives hi _

theorem exec_call_enabled {o : DBrOps} (he : f.enS o.h = true) : Gives (.call o) s n sl
    ((f.setS o.d.toNat (nextPc f.pc (lenImm o.off))).jump o.h (target f.pc o.off)) := by
  rw [← branchTo_eq_target]
  exact (onF_gives hi _).trans (by simp [he])

theorem exec_call_disabled {o : DBrOps} (he : f.enS o.h = false) :
    Gives (.call o) s n sl (f.retire false o.h (lenImm o.off) .none) :=
  (onF_gives hi _).trans (by simp [he])

theorem exec_brx (o : BrxOps) : exec (.brx o) s = .next (
    if f.enS o.h = false then s.setFiring n sl (f.retire false o.h (lenImm o.off) .none)
    else if (target (f.srcS o.a) o.off).toNat % 4 ≠ 0 then takeTrap s n sl (cause 0x09)
    else s.setFiring n sl ((f.setS o.d.toNat (nextPc f.pc (lenImm o.off))).jump o.h (target (f.srcS o.a) o.off))) := by
  refine (withF_issues hi.1 hi.2 _).trans (congrArg _ ?_)
  simp [fld_low_ne_zero, branchTo_eq_target]

theorem exec_ret (o : AOps) : exec (.ret o) s = .next (
    if f.enS o.h = false then s.setFiring n sl (f.retire false o.h .l64 .none)
    else if (f.srcS o.a).toNat % 4 ≠ 0 then takeTrap s n sl (cause 0x09)
    else s.setFiring n sl (f.jump o.h (va56 (f.srcS o.a)))) := by
  refine (withF_issues hi.1 hi.2 _).trans (congrArg _ ?_)
  simp [fld_low_ne_zero, toNat_va56, Nat.mod_mod_of_dvd]

theorem exec_loop_idle {o : DBrOps} (h : ¬(f.enS o.h = true ∧ f.getS o.d.toNat ≠ 0)) :
    Gives (.loop o) s n sl (f.retire false o.h (lenImm o.off) .none) := by
  refine (onF_gives hi _).trans ?_
  have hoff : (!f.enS o.h || f.getS o.d.toNat == 0) = true := by
    cases he : f.enS o.h <;> simp_all
  simp only [hoff, if_true]

section
variable {o : DBrOps} (he : f.enS o.h = true)
include he

theorem exec_loop_last (h1 : f.getS o.d.toNat = 1) :
    Gives (.loop o) s n sl ((f.setS o.d.toNat 0).retire false o.h (lenImm o.off) .none) :=
  (onF_gives hi _).trans (by simp [he, h1])

theorem exec_loop_taken (h0 : f.getS o.d.toNat ≠ 0) (h1 : f.getS o.d.toNat ≠ 1) : Gives (.loop o) s n sl
    ((f.setS o.d.toNat (f.getS o.d.toNat - 1)).jump o.h (target f.pc o.off)) := by
  have hn0 : (f.getS o.d.toNat == 0) = false := beq_false_of_ne h0
  have hn1 : (f.getS o.d.toNat - 1 == 0) = false := beq_false_of_ne (sub_ne_zero.mpr h1)
  refine (onF_gives hi _).trans ?_
  simp only [he, hn0, hn1, branchTo_eq_target, Bool.not_true, Bool.or_false, Bool.false_eq_true, if_false]

end

end

/-! ## All, none or some lanes of the path (R120, R122) -/

theorem enMask_eq_iff {f : Firing} {h : Head} (x : W32) :
    f.enMask h = x ↔ ∀ L, L < 32 → f.enL h L = x.getLsbD L := by
  refine ⟨fun hx L hL => by rw [← hx, Firing.enMask, getLsbD_laneMask _ hL], fun hall => BitVec.eq_of_getLsbD_eq fun L hL => ?_⟩
  rw [Firing.enMask, getLsbD_laneMask _ hL, hall L hL]

theorem enMask_eq_mask_iff {f : Firing} {h : Head} : f.enMask h = f.mask ↔ allLanes f h := enMask_eq_iff f.mask

theorem enMask_eq_zero_iff {f : Firing} {h : Head} : f.enMask h = 0 ↔ noLane f h := by
  simp [enMask_eq_iff, noLane]

/-! ## Lane branches (R120) -/

/-- The firing whose path has split: the lanes enabled go on in entry e at the target, the rest after the branch. -/
def splitPath (f : Firing) (o : BrOps) (e : Nat) : Firing :=
  let g := (f.retire true o.h (lenImm o.off) .none).setPath e
    { pc := target f.pc o.off, mask := f.enMask o.h, pri := f.path.pri, st := 1 }
  g.setPath f.cur { g.path with mask := f.mask &&& ~~~ f.enMask o.h }

section
variable {s : State} {n sl : Nat} {f : Firing} (hi : Issues s n sl f)
include hi

theorem laneBranch_issues (u : Bool) (o : BrOps) : laneBranch u o s = .next (
    if u = true ∧ f.enMask o.h ≠ 0 ∧ f.enMask o.h ≠ f.mask then takeTrap s n sl (cause 0x06)
    else if f.enMask o.h = f.mask then s.setFiring n sl (f.jump o.h (target f.pc o.off))
    else if f.enMask o.h = 0 then s.setFiring n sl (f.retire true o.h (lenImm o.off) .none)
    else match f.freeEntry with
      | none => takeTrap s n sl (cause 0x07)
      | some e => s.setFiring n sl ((splitPath f o e).selectPath false)) := by
  refine (withF_issues hi.1 hi.2 _).trans (congrArg _ ?_)
  simp only [Bool.and_eq_true, bne_iff_ne, beq_iff_eq, branchTo_eq_target, and_assoc]
  rfl

theorem laneBranch_all (u : Bool) {o : BrOps} (ha : allLanes f o.h) :
    laneBranch u o s = .next (s.setFiring n sl (f.jump o.h (target f.pc o.off))) := by
  have hm := enMask_eq_mask_iff.mpr ha
  rw [laneBranch_issues hi, if_neg (fun h => h.2.2 hm), if_pos hm]

theorem laneBranch_none (u : Bool) {o : BrOps} (hn : noLane f o.h) (ha : ¬ allLanes f o.h) :
    laneBranch u o s = .next (s.setFiring n sl (f.retire true o.h (lenImm o.off) .none)) := by
  have h0 := enMask_eq_zero_iff.mpr hn
  rw [laneBranch_issues hi, if_neg (fun h => h.2.1 h0), if_neg (mt enMask_eq_mask_iff.mp ha), if_pos h0]

section
variable {o : BrOps} (hn : ¬ noLane f o.h) (ha : ¬ allLanes f o.h)
include hn ha

theorem exec_bru_some : exec (.bru o) s = .next (takeTrap s n sl (cause 0x06)) :=
  (laneBranch_issues hi true o).trans (by rw [if_pos ⟨rfl, mt enMask_eq_zero_iff.mp hn, mt enMask_eq_mask_iff.mp ha⟩])

theorem exec_bra_some : exec (.bra o) s = .next (match f.freeEntry with
    | none => takeTrap s n sl (cause 0x07)
    | some e => s.setFiring n sl ((splitPath f o e).selectPath false)) :=
  (laneBranch_issues hi false o).trans (by
    rw [if_neg (fun h => absurd h.1 (by decide)), if_neg (mt enMask_eq_mask_iff.mp ha), if_neg (mt enMask_eq_zero_iff.mp hn)])

end

/-! ## Instructions on the path as a whole (R122) -/

theorem onPath_issues (h : Head) (act : Firing → Firing) : onPath h s act = .next (
    if f.enMask h = f.mask then s.setFiring n sl (act f)
    else if f.enMask h = 0 then s.setFiring n sl (f.retire true h .l64 .none) else takeTrap s n sl (cause 0x06)) := by
  refine (withF_issues hi.1 hi.2 _).trans (congrArg _ ?_)
  simp only [beq_iff_eq]

variable {h : Head} (act : Firing → Firing)

theorem onPath_all (ha : allLanes f h) : onPath h s act = .next (s.setFiring n sl (act f)) := by
  rw [onPath_issues hi, if_pos (enMask_eq_mask_iff.mpr ha)]

theorem onPath_none (hn : noLane f h) (ha : ¬ allLanes f h) :
    onPath h s act = .next (s.setFiring n sl (f.retire true h .l64 .none)) := by
  rw [onPath_issues hi, if_neg (mt enMask_eq_mask_iff.mp ha), if_pos (enMask_eq_zero_iff.mpr hn)]

theorem onPath_some (hn : ¬ noLane f h) (ha : ¬ allLanes f h) :
    onPath h s act = .next (takeTrap s n sl (cause 0x06)) := by
  rw [onPath_issues hi, if_neg (mt enMask_eq_mask_iff.mp ha), if_neg (mt enMask_eq_zero_iff.mp hn)]

end

theorem freeEntry_lt {f : Firing} {e : Nat} (h : f.freeEntry = some e) : e < f.paths.length :=
  List.mem_range.mp (List.mem_of_find?_eq_some h)

theorem splitPath_cur (f : Firing) (o : BrOps) (e : Nat) : (splitPath f o e).cur = f.cur :=
  retire_cur f true o.h (lenImm o.off) .none

theorem length_retire (f : Firing) (lane : Bool) (h : Head) (l : Len) (r : LatchRes) :
    (f.retire lane h l r).paths.length = f.paths.length := by
  rw [retire_paths, List.length_set]

/-- The path that the split leaves behind. -/
theorem splitPath_path {f : Firing} {o : BrOps} {e : Nat} (hc : f.cur < f.paths.length) (hne : e ≠ f.cur) :
    (splitPath f o e).path =
      { f.path with pc := nextPc f.pc (lenImm o.off), mask := f.mask &&& ~~~ f.enMask o.h } := by
  have hold : ((f.retire true o.h (lenImm o.off) .none).setPath e
      { pc := target f.pc o.off, mask := f.enMask o.h, pri := f.path.pri, st := 1 }).path =
      { f.path with pc := nextPc f.pc (lenImm o.off) } :=
    (getD_setPath_other _ (by rw [← retire_cur f true o.h (lenImm o.off) .none] at hne; exact hne.symm)).trans
      (retire_path hc true o.h (lenImm o.off) .none)
  rw [Firing.path, splitPath_cur, splitPath, getD_setPath_same _ (by rw [length_setPath, length_retire]; exact hc), hold]

/-- The path that the split makes. -/
theorem splitPath_entry {f : Firing} {e : Nat} (o : BrOps) (hne : e ≠ f.cur) (he : e < f.paths.length) :
    (splitPath f o e).paths.getD e {} = { pc := target f.pc o.off, mask := f.enMask o.h, pri := f.path.pri, st := 1 } := by
  rw [splitPath, getD_setPath_other _ hne, getD_setPath_same _ (by rw [length_retire]; exact he)]

theorem splitPath_other {f : Firing} {e x : Nat} (o : BrOps) (hx : x ≠ e) (hxc : x ≠ f.cur) :
    (splitPath f o e).paths.getD x {} = f.paths.getD x {} := by
  rw [splitPath, getD_setPath_other _ hxc, getD_setPath_other _ hx, retire_paths]
  exact getD_setPath_other _ hxc

theorem laneBranches : LaneBranches := by
  intro o s n sl f hi hc
  refine ⟨fun ha => ⟨_, laneBranch_all hi false ha, laneBranch_all hi true ha, jump_pc hc .., ?_, jump_cur ..⟩,
    fun hn ha => ⟨_, laneBranch_none hi false hn ha, laneBranch_none hi true hn ha, pc_retire hc, ?_, retire_cur ..⟩,
    fun hn ha => ⟨exec_bru_some hi hn ha,
      fun e he => ⟨_, (exec_bra_some hi hn ha).trans (by rw [he]), splitPath_cur .., fun hne => ?_⟩,
      fun he => (exec_bra_some hi hn ha).trans (by rw [he])⟩⟩
  · rw [jump_path hc]
  · rw [retire_path hc]
  · refine ⟨by rw [splitPath_path hc hne], by rw [Firing.pc, splitPath_path hc hne], splitPath_entry o hne (freeEntry_lt he),
      fun x hx hxc => splitPath_other o hx hxc⟩

/-! ## JOIN, YIELD, SETPRI and GETPRI (R123 to R125) -/

/-- A firing whose current entry is p after an issue, before the next path is chosen. -/
theorem setPath_retire_paths {f : Firing} (h : Head) (l : Len) (p : PathE) :
    ((f.retire true h l .none).setPath (f.retire true h l .none).cur p).paths = f.paths.set f.cur p := by
  rw [Firing.setPath, retire_paths, retire_cur]
  exact List.set_set ..

theorem chain_endIssue (f : Firing) (lane : Bool) (r : LatchRes) : (f.endIssue lane false r).chain = 0 := rfl

theorem lowered_pri (x : Byte) : (if x == 0 then 0 else x - 1) = x - (if x = 0 then 0 else 1) := by
  revert x
  decide

theorem toNat_getpri {f : Firing} (hc : f.cur < 8) (hp : f.path.pri.toNat < 8) :
    (BitVec.ofNat 32 (fld f.path.pri 0 3 + 16 * f.cur)).toNat = f.path.pri.toNat + 16 * f.cur := by
  rw [BitVec.toNat_ofNat, fld_eq]
  omega

theorem pathInstructions : PathInstructions := by
  refine ⟨?acts, ?idle, ?uniform, ?getpri⟩
  case acts =>
    intro h s n sl f hi hc ha
    have hcur := retire_cur f true h .l64 .none
    refine ⟨⟨_, onPath_all hi _ ha, ?_, endIssue_cur .., ?_⟩, ⟨_, onPath_all hi _ ha, hcur, ?_⟩,
      fun p => ⟨_, onPath_all hi _ ha, hcur, ?_⟩⟩
    · simp [Firing.setPath, Firing.path]
    · intro hch
      show (f.endIssue true h.c .none).chain = 0
      rw [hch]
      rfl
    · rw [setPath_retire_paths, retire_path hc, lowered_pri]
    · rw [setPath_retire_paths, retire_path hc]
  case idle =>
    exact fun h s n sl f p hi hc hn ha => ⟨_, pc_retire hc, retire_cur .., onPath_none hi _ hn ha, onPath_none hi _ hn ha,
      onPath_none hi _ hn ha⟩
  case uniform =>
    exact fun h s n sl f p hi hn ha => ⟨onPath_some hi _ hn ha, onPath_some hi _ hn ha, onPath_some hi _ hn ha⟩
  case getpri =>
    exact fun o s n sl f hi hc hp => ⟨_, onF_gives hi _, toNat_getpri hc hp⟩

/-! ## Children counted off (R273, R274) -/

theorem pool_dropPool_same (c : Core) (tag : W32) : (c.dropPool tag).pool tag = none := by
  simp [Core.pool, Core.dropPool]

/-- A pool that is dropped makes no other. -/
theorem pool_dropPool_none {c : Core} {tag other : W32} (h : c.pool tag = none) : (c.dropPool other).pool tag = none := by
  simp only [Core.pool, Core.dropPool, List.find?_eq_none, List.mem_filter] at *
  exact fun x hx => h x hx.1

theorem pool_setPool_same (c : Core) (e : Credit) : (c.setPool e).pool e.tag = some e := by
  cases h : c.pool e.tag with
  | some d => exact pool_setPool h rfl
  | none =>
    have hnone : c.credits.find? (fun x => x.tag == e.tag) = none := h
    simp [Core.setPool, Core.pool, hnone]

theorem returnPool_none {s : State} {n : Nat} {tag other : W32} (h : (s.core n).pool tag = none) :
    ((returnPool s n other).core n).pool tag = none := by
  unfold returnPool
  split
  · exact h
  · show (((s.setCore n ((s.core n).dropPool other)).core n).pool tag) = none
    rw [core_setCore_same]
    exact pool_dropPool_none h

/-- Room for a tag's pool leaves that pool as it is. -/
theorem pool_roomForPool (s : State) (n : Nat) (tag : W32) :
    ((roomForPool s n tag).core n).pool tag = (s.core n).pool tag := by
  unfold roomForPool
  dsimp only
  split
  · rfl
  · next h =>
    have hnone : (s.core n).pool tag = none := by
      cases hp : (s.core n).pool tag with
      | none => rfl
      | some e => simp [hp] at h
    split
    · rfl
    · rw [returnPool_none hnone, hnone]

theorem poolAdd_countsOff (s : State) (n : Nat) (tag : W32) (k : Nat) : CountsOff s (poolAdd s n tag k 0) n tag k := by
  rintro hcount - p rfl
  unfold poolAdd
  rw [if_pos hcount]
  dsimp only
  rw [pool_roomForPool]
  have htag : (((s.core n).pool tag).getD ⟨tag, 0, 0⟩).tag = tag := by
    cases hp : (s.core n).pool tag with
    | none => rfl
    | some e => exact pool_tag hp
  generalize ((s.core n).pool tag).getD ⟨tag, 0, 0⟩ = e at htag
  subst htag
  have hset := pool_setPool_same ((roomForPool s n e.tag).core n) { e with pool := e.pool + k, disc := e.disc + 0 }
  refine ⟨fun hle => ?_, fun hgt => ?_⟩
  · rw [if_neg (by omega), core_setCore_same]
    exact hset
  · rw [if_pos hgt]
    unfold returnPool
    rw [core_setCore_same, hset]
    refine ⟨?_, List.mem_append_right _ List.mem_cons_self⟩
    show ((State.setCore _ n _).core n).pool e.tag = none
    rw [core_setCore_same]
    exact pool_dropPool_same ..

theorem countOff_countsOff (s : State) (n : Nat) (tag : W32) (k : Nat) : CountsOff s (countOff s n tag k) n tag k := by
  intro hcount hk
  rw [countOff, if_neg hk]
  exact poolAdd_countsOff s n tag k hcount hk

/-! ## DONE (R126) -/

/-- Entries other than the current one that are ready or blocked. -/
theorem others_nonempty_iff (f : Firing) : (!((f.inState 1 ++ f.inState 2).filter fun e => e != f.cur).isEmpty) = true ↔
    ∃ e, e ≠ f.cur ∧ e < f.paths.length ∧ ((f.paths.getD e {}).st = 1 ∨ (f.paths.getD e {}).st = 2) := by
  simp only [Bool.not_eq_true', List.isEmpty_eq_false_iff_exists_mem, List.mem_filter, List.mem_append, bne_iff_ne,
    mem_inState_one, mem_inState_two, ready, blocked]
  exact exists_congr fun e => by tauto

section
variable {s : State} {n sl : Nat} {f : Firing} (hi : Issues s n sl f)
include hi

theorem exec_done_disabled {o : HOps} (he : f.enS o.h = false) :
    Gives (.done o) s n sl (f.retire false o.h .l64 .none) :=
  (withF_issues hi.1 hi.2 _).trans (by simp [he])

variable {o : HOps} (he : f.enS o.h = true) (hr : endReady (s.core n) sl f = true)
include he hr

theorem exec_done_joinDead (hw : f.wave = true) (hx : ∃ e, e ≠ f.cur ∧ e < f.paths.length ∧
      ((f.paths.getD e {}).st = 1 ∨ (f.paths.getD e {}).st = 2)) :
    exec (.done o) s = .next (takeTrap s n sl (cause 0x08)) := by
  have hothers := (others_nonempty_iff f).mpr hx
  refine (withF_issues hi.1 hi.2 _).trans ?_
  simp only [he, hr, hw, hothers, Bool.not_true, Bool.false_eq_true, if_false, Bool.and_self, if_true]

theorem exec_done_finishes (hx : f.wave = false ∨ ∀ e, e ≠ f.cur → e < f.paths.length →
      (f.paths.getD e {}).st ≠ 1 ∧ (f.paths.getD e {}).st ≠ 2) (ho : endOpen s n f = true) (hd : endReleased s n f = true) :
    exec (.done o) s = .next (finishFiring s n sl f) := by
  have hothers : (f.wave && !((f.inState 1 ++ f.inState 2).filter fun e => e != f.cur).isEmpty) = false := by
    rcases hx with hw | hx
    · rw [hw, Bool.false_and]
    · rw [Bool.eq_false_iff.mpr (mt (others_nonempty_iff f).mp ?_), Bool.and_false]
      rintro ⟨e, hne, hlt, hst⟩
      exact hst.elim (hx e hne hlt).1 (hx e hne hlt).2
  refine (withF_issues hi.1 hi.2 _).trans ?_
  simp only [he, hr, hothers, ho, hd, Bool.not_true, Bool.false_eq_true, if_false]

end

theorem core_clearOvf (s : State) (n : Nat) (cross : Bool) :
    ∃ b, (clearOvf s n cross).core n = { s.core n with dirtyOvf := b } := by
  unfold clearOvf
  split
  · exact ⟨false, core_updCore_same ..⟩
  · exact ⟨(s.core n).dirtyOvf, rfl⟩

theorem mem_clearOvf (s : State) (n : Nat) (cross : Bool) : (clearOvf s n cross).mem = s.mem := by
  unfold clearOvf
  split <;> rfl

/-- The credits of a core are not its firings'. -/
theorem pool_free (c : Core) (sl : Nat) (f : Firing) (tag : W32) : (c.free sl f).pool tag = c.pool tag := by
  unfold Core.free
  dsimp only
  split <;> rfl

/-- The end of a firing: its slot is free, its children are counted off, and memory is as before. -/
theorem endFiring_ends {s : State} {n sl : Nat} (f : Firing) (hsl : sl ≤ trapSlot) :
    (endFiring s n sl f).firing n sl = none ∧ (endFiring s n sl f).mem = s.mem ∧
      CountsOff s (endFiring s n sl f) n f.ltag f.taken := by
  obtain ⟨hmem, -, -, -, -, hfir⟩ :=
    poolMoved_frame (countOff_moves (s.setCore n ((s.core n).free sl f)) n f.ltag f.taken)
  refine ⟨?_, hmem, ?_⟩
  · unfold endFiring
    rw [hfir, firing_setCore_same, firing_free hsl, if_pos rfl]
  · have hcount := countOff_countsOff (s.setCore n ((s.core n).free sl f)) n f.ltag f.taken
    unfold CountsOff at hcount
    simp only [core_setCore_same, pool_free] at hcount
    exact hcount

theorem doneEnds : DoneEnds := by
  refine fun o s n sl f hi hsl => ⟨exec_done_disabled hi, fun he hr => ⟨exec_done_joinDead hi he hr, fun hx ho hd => ?_⟩⟩
  have hexec := exec_done_finishes hi he hr hx ho hd
  unfold finishFiring at hexec
  refine ⟨fun hn => ⟨_, hexec.trans (by rw [hn]), ?_⟩, fun x hx => hexec.trans (by rw [hx])⟩
  obtain ⟨hfree, hmem, hcount⟩ := endFiring_ends (s := clearOvf s n (clearingCross n f.scope)) (n := n)
    (f.setPath f.cur { f.path with st := 3 }) hsl
  refine ⟨hfree, hmem.trans (mem_clearOvf ..), ?_⟩
  obtain ⟨b, hb⟩ := core_clearOvf s n (clearingCross n f.scope)
  unfold CountsOff at hcount ⊢
  rw [hb] at hcount
  exact hcount

end Sys2Proof.Proofs

/-! ## The statements -/

namespace Sys2Proof.Settled
open Sys2Proof Sys2Proof.Machine Sys2Proof.Claims Sys2Proof.Laws Sys2Proof.Proofs

/-- Settles O7: the choice is among the ready entries of the highest priority, whose lowest is their list's head. -/
theorem pathSelection : Obligations.PathSelection := by
  unfold Obligations.PathSelection
  rintro f _ y h rfl
  obtain ⟨e, he, hch⟩ := choosePath_chosen h y
  obtain ⟨hr, htop⟩ := mem_bestReady.mp hch.best
  rw [selectPath_of_ready h, he]
  refine ⟨rfl, hr, htop, fun hy hc hmax => hch.keeps hy (mem_bestReady.mpr ⟨hc, hmax⟩),
    fun hy x hx hxc hmax => hch.yields hy x (mem_bestReady.mpr ⟨hx, hmax⟩) hxc, fun hne x hlt hx hxc => ?_⟩
  by_contra hge
  have hbest : x ∈ bestReady f := mem_bestReady.mpr ⟨hx, fun z hz => (htop z hz).trans (not_lt.mp hge)⟩
  exact absurd (hch.lowest hne x hbest hxc) (not_le.mpr hlt)

/-- Settles O6, a form at a time: a transfer taken jumps, and one that is not goes on in sequence. -/
theorem scalarTransfers : Obligations.ScalarTransfers := by
  unfold Obligations.ScalarTransfers
  refine ⟨?nop, ?br, ?call, ?brx, ?ret, ?loop⟩
  case nop => exact fun o s n sl f hi hc => ⟨_, onF_gives hi _, pc_retire hc⟩
  case br =>
    refine fun o s n sl f hi hc => ⟨_, exec_br hi o, ?_⟩
    split
    · exact jump_pc hc ..
    · exact pc_retire hc
  case call =>
    intro o s n sl f hi hc
    by_cases he : f.enS o.h = true
    · exact ⟨_, exec_call_enabled hi he, fun _ => ⟨jump_setS_pc hc .., getS_jump_link⟩, fun h => absurd he (by simp [h])⟩
    · have he : f.enS o.h = false := by simpa using he
      exact ⟨_, exec_call_disabled hi he, fun h => absurd h (by simp [he]), fun _ => ⟨pc_retire hc, getS_retire ..⟩⟩
  case brx =>
    refine fun o s n sl f hi hc => ⟨fun he ha => ?_, fun he ha => ?_, fun he => ?_⟩
    · refine ⟨_, (exec_brx hi o).trans ?_, jump_setS_pc hc _ _ o.h _, getS_jump_link⟩
      rw [if_neg (by simp [he]), if_neg (by simp [ha])]
    · rw [exec_brx hi, if_neg (by simp [he]), if_pos ha]
    · exact ⟨_, (exec_brx hi o).trans (by rw [if_pos he]), pc_retire hc, getS_retire ..⟩
  case ret =>
    refine fun o s n sl f hi hc => ⟨fun he ha => ?_, fun he ha => ?_, fun he => ?_⟩
    · refine ⟨_, (exec_ret hi o).trans ?_, (congrArg _ (jump_pc hc o.h _)).trans (toNat_va56 _)⟩
      rw [if_neg (by simp [he]), if_neg (by simp [ha])]
    · rw [exec_ret hi, if_neg (by simp [he]), if_pos ha]
    · exact ⟨_, (exec_ret hi o).trans (by rw [if_pos he]), pc_retire hc⟩
  case loop =>
    rintro o s n sl f _ hi hc rfl
    by_cases hon : f.enS o.h = true ∧ f.getS o.d.toNat ≠ 0
    · obtain ⟨he, h0⟩ := hon
      have hd : o.d.toNat ≠ 0 := fun hd => h0 (by simp [Firing.getS, hd])
      rw [if_pos ⟨he, h0⟩]
      by_cases h1 : f.getS o.d.toNat = 1
      · refine ⟨_, exec_loop_last hi he h1, ?_, ?_⟩
        · rw [getS_retire, getS_setS_same _ _ _ hd, h1]
          rfl
        · rw [pc_retire (by simpa using hc), setS_pc, if_neg (by simp [h1])]
      · refine ⟨_, exec_loop_taken hi he h0 h1, (getS_jump ..).trans (getS_setS_same _ _ _ hd), ?_⟩
        have hgt : 1 < (f.getS o.d.toNat).toNat :=
          Nat.lt_of_le_of_ne (Nat.pos_of_ne_zero fun h => h0 (BitVec.eq_of_toNat_eq h))
            fun h => h1 (BitVec.eq_of_toNat_eq h.symm)
        rw [jump_setS_pc hc, if_pos ⟨he, hgt⟩]
    · refine ⟨_, exec_loop_idle hi hon, by rw [getS_retire, if_neg hon], ?_⟩
      rw [pc_retire hc, if_neg]
      rintro ⟨he, hgt⟩
      exact hon ⟨he, fun h0 => by simp [h0] at hgt⟩

/-- Settles O37: the lanes enabled decide a branch, the group of the lowest address is merged, and an end counts off. -/
theorem lanePaths : Obligations.LanePaths := ⟨laneBranches, pathInstructions, pathMerge, doneEnds⟩

end Sys2Proof.Settled
end

section
/-! PROOF. The family "control", firing creation (O24). First lists sorted and searched, then what makes a handler a candidate and
what that takes, then the firing it forms and the events beside it. -/

namespace Sys2Proof.Proofs
open Sys2Proof Sys2Proof.Machine Sys2Proof.Claims Sys2Proof.Laws

/-! ## Sorting by a key -/

section
variable {α : Type} (key : α → Nat)

theorem perm_insertBy (x : α) (xs : List α) : (insertBy key x xs).Perm (x :: xs) := by
  induction xs with
  | nil => exact List.Perm.refl _
  | cons y ys ih =>
    unfold insertBy
    split
    · exact List.Perm.refl _
    · exact (ih.cons y).trans (List.Perm.swap x y ys)

theorem perm_foldl_insertBy (xs acc : List α) :
    (xs.foldl (fun acc x => insertBy key x acc) acc).Perm (acc ++ xs) := by
  induction xs generalizing acc with
  | nil => simp
  | cons x xs ih => exact ((ih _).trans ((perm_insertBy key x acc).append_right xs)).trans List.perm_middle.symm

theorem perm_sortBy (xs : List α) : (sortBy key xs).Perm xs := perm_foldl_insertBy key xs []

theorem mem_sortBy {xs : List α} {x : α} : x ∈ sortBy key xs ↔ x ∈ xs := (perm_sortBy key xs).mem_iff

/-- By the key, and among equals by an order of before. -/
def ByKey (R : α → α → Prop) (a b : α) : Prop := key a < key b ∨ key a = key b ∧ R a b

theorem byKey_insertBy {R : α → α → Prop} {x : α} {xs : List α} (h : xs.Pairwise (ByKey key R)) (hx : ∀ y ∈ xs, R y x) :
    (insertBy key x xs).Pairwise (ByKey key R) := by
  induction xs with
  | nil => simp [insertBy]
  | cons y ys ih =>
    obtain ⟨hy, hys⟩ := List.pairwise_cons.mp h
    obtain ⟨hyx, hysx⟩ := List.forall_mem_cons.mp hx
    unfold insertBy
    split
    next hlt => -- x goes before y
      refine List.pairwise_cons.mpr ⟨fun z hz => .inl ?_, h⟩
      rcases List.mem_cons.mp hz with rfl | hz
      · exact hlt
      · rcases hy z hz with hyz | hyz <;> omega
    next hle =>
      refine List.pairwise_cons.mpr ⟨fun z hz => ?_, ih hys hysx⟩
      rcases List.mem_cons.mp ((perm_insertBy key x ys).mem_iff.mp hz) with rfl | hz
      · rcases lt_or_eq_of_le (not_lt.mp hle) with hlt | heq
        · exact .inl hlt
        · exact .inr ⟨heq, hyx⟩
      · exact hy z hz

/-- Sorting keeps the order of before among equals. -/
theorem byKey_sortBy {R : α → α → Prop} {xs : List α} (h : xs.Pairwise R) : (sortBy key xs).Pairwise (ByKey key R) := by
  suffices hgen : ∀ acc : List α, acc.Pairwise (ByKey key R) → (∀ a ∈ acc, ∀ x ∈ xs, R a x) →
      (xs.foldl (fun acc x => insertBy key x acc) acc).Pairwise (ByKey key R) from
    hgen [] List.Pairwise.nil fun _ ha => absurd ha List.not_mem_nil
  induction xs with
  | nil => exact fun acc hacc _ => hacc
  | cons x xs ih =>
    obtain ⟨hx, hxs⟩ := List.pairwise_cons.mp h
    refine fun acc hacc hR => ih hxs _ (byKey_insertBy key hacc fun a ha => hR a ha x List.mem_cons_self) fun a ha y hy => ?_
    rcases List.mem_cons.mp ((perm_insertBy key x acc).mem_iff.mp ha) with rfl | ha
    · exact hx y hy
    · exact hR a ha y (List.mem_cons_of_mem _ hy)

/-- Sorted by a key that no two entries share. -/
theorem rising_sortBy {xs : List α} (h : (xs.map key).Nodup) : (sortBy key xs).Pairwise fun a b => key a < key b := by
  have hle : (sortBy key xs).Pairwise (ByKey key fun _ _ => True) := byKey_sortBy key (List.pairwise_of_forall fun _ _ => trivial)
  have hne : ((sortBy key xs).map key).Nodup := ((perm_sortBy key xs).map key).nodup_iff.mpr h
  refine (hle.and (List.pairwise_map.mp hne)).imp fun ⟨hab, hne⟩ => ?_
  rcases hab with hab | hab
  · exact hab
  · exact absurd hab.1 hne

/-- Up to the entry with a key, a rising list holds those with a lower one. -/
theorem takeWhile_ne_of_rising {xs : List α} (h : xs.Pairwise fun a b => key a < key b) {m : α} (hm : m ∈ xs) :
    xs.takeWhile (fun x => key x != key m) = xs.filter fun x => decide (key x < key m) := by
  induction xs with
  | nil => cases hm
  | cons x xs ih =>
    obtain ⟨hx, hxs⟩ := List.pairwise_cons.mp h
    rcases List.mem_cons.mp hm with rfl | hm
    · have hnil : xs.filter (fun x => decide (key x < key m)) = [] :=
        List.filter_eq_nil_iff.mpr fun y hy => by simpa using (hx y hy).le
      simp [hnil]
    · simp [(hx m hm).ne, hx m hm, ih hxs hm]

end

/-! ## The least of a list, as the model looks for it -/

section
variable {α : Type} (before : α → α → Prop) [DecidableRel before]

/-- The better of a choice so far and another entry. -/
def pickBest (m : Option α) (x : α) : Option α :=
  match m with
  | none => some x
  | some y => if before x y then some x else some y

theorem foldl_pickBest_isSome {xs : List α} {m : Option α} :
    (xs.foldl (pickBest before) m).isSome = true ↔ m.isSome = true ∨ xs ≠ [] := by
  induction xs generalizing m with
  | nil => simp
  | cons x xs ih =>
    rw [List.foldl_cons, ih]
    cases m with
    | none => simp [pickBest]
    | some y =>
      rw [pickBest]
      split <;> simp

variable {before} (hirr : ∀ x, ¬ before x x) (htrans : ∀ x y z, before x y → before y z → before x z)
include hirr htrans

theorem foldl_pickBest_some {xs : List α} {y z : α} (h : xs.foldl (pickBest before) (some y) = some z) :
    (z = y ∨ z ∈ xs) ∧ (∀ w, ¬ before w y → ¬ before w z) ∧ ∀ x ∈ xs, ¬ before x z := by
  induction xs generalizing y with
  | nil =>
    obtain rfl : y = z := by simpa using h
    exact ⟨.inl rfl, fun _ hw => hw, fun _ hx => absurd hx List.not_mem_nil⟩
  | cons x xs ih =>
    rw [List.foldl_cons, pickBest] at h
    split at h
    next hxy =>
      obtain ⟨hin, hkeep, hall⟩ := ih h
      exact ⟨.inr (List.mem_cons.mpr hin), fun w hw => hkeep w fun hwx => hw (htrans w x y hwx hxy),
        List.forall_mem_cons.mpr ⟨hkeep x (hirr x), hall⟩⟩
    next hxy =>
      obtain ⟨hin, hkeep, hall⟩ := ih h
      exact ⟨hin.imp_right (List.mem_cons_of_mem _), hkeep, List.forall_mem_cons.mpr ⟨hkeep x hxy, hall⟩⟩

/-- The choice is an entry that no other comes before. -/
theorem foldl_pickBest {xs : List α} {z : α} (h : xs.foldl (pickBest before) none = some z) :
    z ∈ xs ∧ ∀ x ∈ xs, ¬ before x z := by
  cases xs with
  | nil => cases h
  | cons y ys =>
    obtain ⟨hin, hkeep, hall⟩ := foldl_pickBest_some hirr htrans (show ys.foldl (pickBest before) (some y) = some z from h)
    exact ⟨List.mem_cons.mpr hin, List.forall_mem_cons.mpr ⟨hkeep y (hirr y), hall⟩⟩

end

/-! ## Entries of the handler table (R249) -/

/-- The words of a valid and well-formed entry. -/
theorem entry_formed {c : Core} {h : Nat} {e : HandlerEntry} (he : c.entry h = some e) :
    ∃ w0 w1 w2 w3, w1 = c.getW (c.htab + 32 * h + 8) ∧ w1.getLsbD 0 = true ∧ entryFormed w0 w1 w2 w3 = true ∧
      e = entryOf w0 w1 w2 := by
  unfold Core.entry at he
  split at he
  next w0 w1 w2 w3 hw =>
    have hw1 : w1 = c.getW (c.htab + 32 * h + 8) := by
      have hl := congrArg (fun l => l[1]?) hw
      simpa [Core.entryWords] using hl.symm
    split at he
    · cases he
    next hv =>
      have hv : (c.placed = true ∧ w1.getLsbD 0 = true) ∧ entryFormed w0 w1 w2 w3 = true := by simpa using hv
      dsimp only at he
      split at he
      · cases he
      · cases he
        exact ⟨w0, w1, w2, w3, hw1, hv.1.2, hv.2, rfl⟩
  next => cases he

/-- A channel handler takes one message at least, and a wave of it 32 at most. -/
theorem entry_k {c : Core} {h : Nat} {e : HandlerEntry} (he : c.entry h = some e) (hg : e.glade = false) :
    1 ≤ e.k ∧ e.k ≤ 32 := by
  obtain ⟨w0, w1, w2, w3, -, -, hf, rfl⟩ := entry_formed he
  simp only [entryFormed, hg, Bool.and_eq_true] at hf
  obtain ⟨⟨⟨⟨⟨⟨-, hk⟩, -⟩, -⟩, -⟩, -⟩, -⟩ := hf
  split at hk
  · simpa using hk
  · have hk : (entryOf w0 w1 w2).k = 1 := by simpa using hk
    omega

/-- A glade's handler names it. -/
theorem entry_namesGlade {c : Core} {h : Nat} {e : HandlerEntry} (he : c.entry h = some e) (hg : e.glade = true) :
    c.namesGlade h e.src = true ∧ e.src < 16 := by
  obtain ⟨w0, w1, w2, w3, hw1, hv, -, rfl⟩ := entry_formed he
  have h12 : w1.getLsbD 12 = true := hg
  exact ⟨by simp [Core.namesGlade, ← hw1, hv, h12, entryOf], (w1.extractLsb' 8 4).isLt⟩

/-! ## Candidates (R251, R281) -/

theorem ser_any_iff (c : Core) (h : Nat) (e : HandlerEntry) :
    (e.ser && c.live.any fun x => x.1 != trapSlot && x.2.hid.toNat == h) = false ↔
      (e.ser = true → ∀ x ∈ c.live, x.1 ≠ trapSlot → x.2.hid.toNat ≠ h) := by
  simp

/-- The candidate of a handler that may run. -/
theorem candOf_of_mayRun {c : Core} {h : Nat} {e : HandlerEntry} (hm : MayRun c h e) :
    c.candOf h = if e.glade = true then if c.gladeOk e.src then c.gladeCand h e else none else c.chanCand h e := by
  obtain ⟨-, he, hw, hs⟩ := hm
  unfold Core.candOf
  rw [he]
  dsimp only
  rw [(ser_any_iff c h e).mpr hs, hw]
  rfl

theorem mayRun_of_candOf {c : Core} {h : Nat} {y : Cand} (hy : c.candOf h = some y) (hh : h < 256) :
    ∃ e, MayRun c h e := by
  unfold Core.candOf at hy
  split at hy
  · cases hy
  next e he =>
    split at hy
    · cases hy
    next hs =>
      split at hy
      · cases hy
      next hw =>
        exact ⟨e, hh, he, by simpa using hw, (ser_any_iff c h e).mp (by simpa using hs)⟩

/-- The messages of one launch that a creation may take: of ordered ones those before any other launch's. -/
def ofLaunch (ord : Bool) (q : List Queued) (m : Queued) : List Queued :=
  if ord then q.takeWhile fun x => x.msg.ltag == m.msg.ltag else q.filter fun x => x.msg.ltag == m.msg.ltag

theorem chanCand_eq_some {c : Core} {h : Nat} {e : HandlerEntry} {y : Cand} : c.chanCand h e = some y ↔
    ∃ m rest, c.available (BitVec.ofNat 8 h) e.ord = m :: rest ∧ e.k ≤ (ofLaunch e.ord (m :: rest) m).length ∧
      y = ⟨h, e, .msgs ((ofLaunch e.ord (m :: rest) m).take e.k), m.arr⟩ := by
  unfold Core.chanCand
  dsimp only
  cases hq : c.available (BitVec.ofNat 8 h) e.ord with
  | nil => simp
  | cons m rest =>
    show (if (ofLaunch e.ord (m :: rest) m).length < e.k then none
      else some (⟨h, e, .msgs ((ofLaunch e.ord (m :: rest) m).take e.k), m.arr⟩ : Cand)) = some y ↔ _
    by_cases hk : (ofLaunch e.ord (m :: rest) m).length < e.k
    · rw [if_pos hk]
      refine iff_of_false (by simp) ?_
      rintro ⟨m', rest', heq, hk', -⟩
      cases heq
      omega
    · rw [if_neg hk]
      refine ⟨fun heq => ⟨m, rest, rfl, not_lt.mp hk, by cases heq; rfl⟩, ?_⟩
      rintro ⟨m', rest', heq, -, rfl⟩
      cases heq
      rfl

/-- A candidate names its handler and that handler's entry. -/
theorem candOf_entry {c : Core} {h : Nat} {e : HandlerEntry} {y : Cand} (hm : MayRun c h e) (hy : c.candOf h = some y) :
    y.h = h ∧ y.e = e := by
  rw [candOf_of_mayRun hm] at hy
  split at hy
  · split at hy
    · unfold Core.gladeCand at hy
      dsimp only at hy
      split at hy
      · cases hy
      · split at hy
        · cases hy; exact ⟨rfl, rfl⟩
        · split at hy
          · cases hy
          · cases hy; exact ⟨rfl, rfl⟩
    · cases hy
  · obtain ⟨m, rest, -, -, rfl⟩ := chanCand_eq_some.mp hy
    exact ⟨rfl, rfl⟩

/-! ### Unordered handlers (R251, R259) -/

section
variable {c : Core} (harr : (c.inbox.map (·.arr)).Nodup)
include harr

theorem queuedFor_rising (hid : BitVec 8) : (c.queuedFor hid false).Pairwise fun a b => a.arr < b.arr :=
  rising_sortBy _ (harr.sublist (List.filter_sublist.map _))

omit harr in
theorem perm_queuedFor (hid : BitVec 8) :
    (c.queuedFor hid false).Perm (c.inbox.filter fun m => m.msg.hid == hid) := perm_sortBy _ _

omit harr in
theorem mem_queuedFor {hid : BitVec 8} {m : Queued} : m ∈ c.queuedFor hid false ↔ m ∈ c.inbox ∧ m.msg.hid = hid := by
  rw [(perm_queuedFor hid).mem_iff, List.mem_filter, beq_iff_eq]

/-- What is held for a blocked RECV is the model's `unheld`, denied. -/
theorem unheld_iff {hid : BitVec 8} {m : Queued} (hm : m ∈ c.queuedFor hid false) :
    c.unheld (c.queuedFor hid false) m = true ↔ ¬ Held c m := by
  obtain ⟨-, rfl⟩ := mem_queuedFor.mp hm
  unfold Core.unheld Held
  cases hk : c.keptFor m with
  | some u => simp
  | none =>
    have hsame : m ∈ (c.queuedFor m.msg.hid false).filter fun x => x.msg.ltag == m.msg.ltag && (c.keptFor x).isNone :=
      List.mem_filter.mpr ⟨hm, by simp [hk]⟩
    have hopen : ∀ l : List Firing, (l.filter fun f => !(c.inbox.any fun x => c.keptFor x == some f.uid)) =
        l.filter fun f => decide (∀ x ∈ c.inbox, c.keptFor x ≠ some f.uid) := fun l =>
      List.filter_congr fun f _ => by rw [Bool.eq_iff_iff]; simp
    dsimp only
    rw [takeWhile_ne_of_rising _ ((queuedFor_rising harr _).filter _) hsame, hopen,
      (((perm_queuedFor (c := c) m.msg.hid).filter _).filter _).length_eq, List.filter_filter, List.filter_filter]
    have holder : (c.inbox.filter fun x => decide (x.arr < m.arr) && (x.msg.ltag == m.msg.ltag && (c.keptFor x).isNone) &&
        x.msg.hid == m.msg.hid) = c.inbox.filter fun x => decide (x.msg.hid = m.msg.hid ∧ x.msg.ltag = m.msg.ltag ∧
        c.keptFor x = none ∧ x.arr < m.arr) :=
      List.filter_congr fun x _ => by
        rw [Bool.eq_iff_iff]
        simp
        tauto
    rw [holder]
    simp

end

theorem hid_eq_iff {h : Nat} (hh : h < 256) (x : BitVec 8) : x = BitVec.ofNat 8 h ↔ x.toNat = h := by
  rw [← BitVec.toNat_inj, BitVec.toNat_ofNat, Nat.mod_eq_of_lt hh]

/-- The messages of the inbox that an unordered handler may take of one launch. -/
def takable (c : Core) (hid : BitVec 8) (tag : W32) : List Queued :=
  ((c.inbox.filter fun m => m.msg.hid == hid).filter (c.unheld (c.queuedFor hid false))).filter fun m => m.msg.ltag == tag

theorem perm_takable (c : Core) (hid : BitVec 8) (m : Queued) :
    (ofLaunch false (c.available hid false) m).Perm (takable c hid m.msg.ltag) :=
  ((perm_queuedFor hid).filter _).filter _

section
variable {c : Core} (harr : (c.inbox.map (·.arr)).Nodup) {h : Nat} (hh : h < 256)
include harr hh

theorem mem_available {m : Queued} :
    m ∈ c.available (BitVec.ofNat 8 h) false ↔ m ∈ c.inbox ∧ m.msg.hid.toNat = h ∧ ¬ Held c m := by
  show m ∈ (c.queuedFor (BitVec.ofNat 8 h) false).filter (c.unheld (c.queuedFor (BitVec.ofNat 8 h) false)) ↔ _
  rw [List.mem_filter, ← hid_eq_iff hh, ← and_assoc, ← mem_queuedFor]
  exact and_congr_right fun hm => unheld_iff harr hm

theorem mem_takable {tag : W32} {m : Queued} :
    m ∈ takable c (BitVec.ofNat 8 h) tag ↔ m ∈ c.inbox ∧ m.msg.hid.toNat = h ∧ m.msg.ltag = tag ∧ ¬ Held c m := by
  rw [takable, List.mem_filter, List.mem_filter, List.mem_filter, beq_iff_eq, beq_iff_eq, ← hid_eq_iff hh]
  constructor
  · rintro ⟨⟨⟨hm, hhid⟩, hu⟩, htag⟩
    exact ⟨hm, hhid, htag, (unheld_iff harr (mem_queuedFor.mpr ⟨hm, hhid⟩)).mp hu⟩
  · rintro ⟨hm, hhid, htag, hu⟩
    exact ⟨⟨⟨hm, hhid⟩, (unheld_iff harr (mem_queuedFor.mpr ⟨hm, hhid⟩)).mpr hu⟩, htag⟩

/-- The head of what is available is the oldest message that no blocked RECV holds. -/
theorem available_head {m : Queued} {rest : List Queued} (hq : c.available (BitVec.ofNat 8 h) false = m :: rest) :
    (m ∈ c.inbox ∧ m.msg.hid.toNat = h ∧ ¬ Held c m) ∧ ∀ x ∈ c.inbox, x.msg.hid.toNat = h → x.arr < m.arr → Held c x := by
  refine ⟨(mem_available harr hh).mp (hq ▸ List.mem_cons_self), fun x hx hhid hlt => ?_⟩
  by_contra hu
  have hup : (m :: rest).Pairwise fun a b => a.arr < b.arr := hq ▸ (queuedFor_rising harr (BitVec.ofNat 8 h)).filter _
  rcases List.mem_cons.mp (hq ▸ (mem_available harr hh).mpr ⟨hx, hhid, hu⟩) with rfl | hx
  · exact lt_irrefl _ hlt
  · exact lt_asymm hlt (List.rel_of_pairwise_cons hup hx)

/-- Two messages that are both the oldest available are one. -/
theorem available_head_unique {m x : Queued} {rest : List Queued}
    (hq : c.available (BitVec.ofNat 8 h) false = m :: rest) (hx : x ∈ c.available (BitVec.ofNat 8 h) false)
    (hmin : ∀ z ∈ c.inbox, z.msg.hid.toNat = h → z.arr < x.arr → Held c z) : m = x := by
  obtain ⟨hm, hhid, hu⟩ := (available_head harr hh hq).1
  have hup : (m :: rest).Pairwise fun a b => a.arr < b.arr := hq ▸ (queuedFor_rising harr (BitVec.ofNat 8 h)).filter _
  rcases List.mem_cons.mp (hq ▸ hx) with rfl | hx
  · rfl
  · exact absurd (hmin m hm hhid (List.rel_of_pairwise_cons hup hx)) hu

theorem exists_chanCand_unordered_iff {e : HandlerEntry} (hord : e.ord = false) :
    (∃ y, c.chanCand h e = some y) ↔ ∃ m ∈ c.inbox, m.msg.hid.toNat = h ∧ ¬ Held c m ∧
      (∀ x ∈ c.inbox, x.msg.hid.toNat = h → x.arr < m.arr → Held c x) ∧ ∃ ms : List Queued, ms.Sublist c.inbox ∧
      ms.length = e.k ∧ ∀ x ∈ ms, x.msg.hid.toNat = h ∧ x.msg.ltag = m.msg.ltag ∧ ¬ Held c x := by
  constructor
  · rintro ⟨y, hy⟩
    obtain ⟨m, rest, hq, hk, -⟩ := chanCand_eq_some.mp hy
    rw [hord] at hq hk
    obtain ⟨⟨hm, hhid, hu⟩, hmin⟩ := available_head harr hh hq
    rw [← hq, (perm_takable c _ m).length_eq] at hk
    have hsub : (takable c (BitVec.ofNat 8 h) m.msg.ltag).Sublist c.inbox :=
      List.filter_sublist.trans (List.filter_sublist.trans List.filter_sublist)
    refine ⟨m, hm, hhid, hu, hmin, (takable c (BitVec.ofNat 8 h) m.msg.ltag).take e.k, (List.take_sublist ..).trans hsub,
      List.length_take_of_le hk, fun x hx => ((mem_takable harr hh).mp (List.mem_of_mem_take hx)).2⟩
  · rintro ⟨m, hm, hhid, hu, hmin, ms, hsub, hlen, hms⟩
    have hmem := (mem_available harr hh).mpr ⟨hm, hhid, hu⟩
    cases hq : c.available (BitVec.ofNat 8 h) false with
    | nil => rw [hq] at hmem; cases hmem
    | cons x rest =>
      obtain rfl := available_head_unique harr hh hq hmem hmin
      have hle : ms.length ≤ (takable c (BitVec.ofNat 8 h) x.msg.ltag).length := by
        have htake : ∀ z ∈ ms, z ∈ takable c (BitVec.ofNat 8 h) x.msg.ltag := fun z hz =>
          (mem_takable harr hh).mpr ⟨hsub.subset hz, hms z hz⟩
        have hnd : ms.Nodup := (List.Nodup.of_map _ harr).sublist hsub
        exact (hnd.subperm htake).length_le
      rw [← (perm_takable c _ x).length_eq, hq, hlen] at hle
      exact ⟨_, chanCand_eq_some.mpr ⟨x, rest, by rw [hord, hq], by rw [hord]; exact hle, rfl⟩⟩

theorem chanCand_unordered_takes {e : HandlerEntry} (hord : e.ord = false) {y : Cand} {ms : List Queued}
    (hy : c.chanCand h e = some y) (ht : y.take = .msgs ms) :
    ms.length = e.k ∧ (∀ m ∈ ms, m ∈ c.inbox ∧ m.msg.hid.toNat = h ∧ ¬ Held c m) ∧
      ∀ m, ms.head? = some m → y.arr = m.arr ∧ (∀ x ∈ ms, x.msg.ltag = m.msg.ltag) ∧
        ∀ x ∈ c.inbox, x.msg.hid.toNat = h → x.arr < m.arr → Held c x := by
  obtain ⟨m, rest, hq, hk, rfl⟩ := chanCand_eq_some.mp hy
  rw [hord] at hq hk ht
  obtain rfl : ((ofLaunch false (m :: rest) m).take e.k) = ms := by simpa using ht
  have hin : ∀ x ∈ (ofLaunch false (m :: rest) m).take e.k,
      x ∈ c.available (BitVec.ofNat 8 h) false ∧ x.msg.ltag = m.msg.ltag := fun x hx => by
    have hx : x ∈ (m :: rest).filter fun x => x.msg.ltag == m.msg.ltag := List.mem_of_mem_take hx
    rw [List.mem_filter, beq_iff_eq] at hx
    exact hq ▸ hx
  refine ⟨List.length_take_of_le hk, fun x hx => (mem_available harr hh).mp (hin x hx).1, fun x hx => ?_⟩
  obtain rfl : m = x := by
    rw [List.head?_take] at hx
    split at hx
    · cases hx
    · simpa [ofLaunch] using hx
  exact ⟨rfl, fun z hz => (hin z hz).2, (available_head harr hh hq).2⟩

end

/-! ### Ordered handlers (R284) -/

/-- The undelivered messages of an ordered handler by stamp, and by arrival where stamps are equal. -/
def byStamp (c : Core) (hid : BitVec 8) : List Queued :=
  sortBy (fun m => m.msg.stamp.toNat) (sortBy (fun m => m.arr) (c.undelivered hid))

/-- The order of consumption of ordered messages. -/
def Earlier (m x : Queued) : Prop := m.msg.stamp.toNat < x.msg.stamp.toNat ∨ m.msg.stamp = x.msg.stamp ∧ m.arr < x.arr

theorem mem_byStamp {c : Core} {hid : BitVec 8} {m : Queued} : m ∈ byStamp c hid ↔ m ∈ c.undelivered hid := by
  rw [byStamp, mem_sortBy, mem_sortBy]

theorem byStamp_rising (c : Core) (hid : BitVec 8) :
    (byStamp c hid).Pairwise fun a b => a.msg.stamp.toNat ≤ b.msg.stamp.toNat :=
  (byKey_sortBy _ (List.pairwise_of_forall fun _ _ => trivial)).imp fun h => h.elim le_of_lt fun h => h.1.le

theorem byStamp_earlier {c : Core} {hid : BitVec 8} (h : ((c.undelivered hid).map (·.arr)).Nodup) :
    (byStamp c hid).Pairwise Earlier :=
  (byKey_sortBy _ (rising_sortBy _ h)).imp fun h => h.imp_right fun h => ⟨BitVec.eq_of_toNat_eq h.1, h.2⟩

theorem hid_of_undelivered {c : Core} {hid : BitVec 8} {m : Queued} (h : m ∈ c.undelivered hid) : m.msg.hid = hid := by
  have h := (List.mem_filter.mp h).2
  simp only [Bool.and_eq_true, beq_iff_eq] at h
  exact h.1

/-- What an ordered candidate takes are the first messages by stamp, queued here and at or below the horizon. -/
theorem chanCand_ordered_prefix {c : Core} {h : Nat} {e : HandlerEntry} (hord : e.ord = true) {y : Cand} {ms : List Queued}
    (hy : c.chanCand h e = some y) (ht : y.take = .msgs ms) :
    ms.length = e.k ∧ ms <+: byStamp c (BitVec.ofNat 8 h) ∧
      ∀ m ∈ ms, m ∈ c.inbox ∧ m.msg.stamp.toNat ≤ c.hz.toNat := by
  obtain ⟨m, rest, hq, hk, rfl⟩ := chanCand_eq_some.mp hy
  rw [hord] at hq hk ht
  obtain rfl : ((ofLaunch true (m :: rest) m).take e.k) = ms := by simpa using ht
  have hchain : (ofLaunch true (m :: rest) m).take e.k <+: c.ordChain (BitVec.ofNat 8 h) := by
    refine (List.take_prefix ..).trans ?_
    rw [← hq]
    exact (List.takeWhile_prefix _).trans (List.takeWhile_prefix _)
  refine ⟨List.length_take_of_le hk, hchain.trans (List.takeWhile_prefix _), fun x hx => ?_⟩
  simpa using List.mem_takeWhile_imp (hchain.subset hx)

/-- A prefix of a list rising by a key holds whatever has a lower key than one of it. -/
theorem mem_prefix_of_lower {α : Type} {key : α → Nat} {ms xs : List α} (h : xs.Pairwise fun a b => key a ≤ key b)
    (hp : ms <+: xs) {m x : α} (hm : m ∈ ms) (hx : x ∈ xs) (hlt : key x < key m) : x ∈ ms := by
  obtain ⟨t, rfl⟩ := hp
  rcases List.mem_append.mp hx with hx | hx
  · exact hx
  · exact absurd ((List.pairwise_append.mp h).2.2 m hm x hx) (not_le.mpr hlt)

/-- The first messages by stamp, given by their order, are a prefix of the sorted ones. -/
theorem byStamp_eq_append {c : Core} {hid : BitVec 8} {ms : List Queued} (harr : ((c.undelivered hid).map (·.arr)).Nodup)
    (hms : ∀ m ∈ ms, m ∈ c.undelivered hid) (hsort : ms.Pairwise Earlier)
    (hfirst : ∀ x ∈ c.undelivered hid, x ∈ ms ∨ ∀ m ∈ ms, Earlier m x) : ∃ t, byStamp c hid = ms ++ t := by
  have hasymm : ∀ a b, Earlier a b → ¬ Earlier b a := fun a b => by
    rintro (h | ⟨h, hlt⟩) (h' | ⟨h', hlt'⟩)
    · omega
    · rw [h'] at h; omega
    · rw [h] at h'; omega
    · omega
  have hnd : (byStamp c hid).Nodup :=
    (byStamp_earlier harr).imp fun {a b} h => by rintro rfl; exact hasymm a a h h
  have hmsnd : ms.Nodup := hsort.imp fun {a b} h => by rintro rfl; exact hasymm a a h h
  refine ⟨(byStamp c hid).filter fun x => decide (x ∉ ms),
    List.Perm.eq_of_pairwise (fun a b _ _ h h' => absurd h' (hasymm a b h)) (byStamp_earlier harr) ?_ ?_⟩
  · refine List.pairwise_append.mpr ⟨hsort, (byStamp_earlier harr).filter _, fun m hm x hx => ?_⟩
    obtain ⟨hx, hne⟩ := List.mem_filter.mp hx
    exact (hfirst x (mem_byStamp.mp hx)).resolve_left (by simpa using hne) m hm
  · refine (List.perm_ext_iff_of_nodup hnd ?_).mpr fun x => ?_
    · refine List.Nodup.append hmsnd (hnd.filter _) fun x hx hx' => ?_
      exact absurd hx (by simpa using (List.mem_filter.mp hx').2)
    · rw [List.mem_append, List.mem_filter]
      by_cases hx : x ∈ ms
      · simp [hx, mem_byStamp, hms x hx]
      · simp [hx]

/-- With no firing blocked in RECV nothing is held. -/
theorem unheld_of_no_recv {c : Core} {m : Queued} (h : ∀ tag, c.blockedRecv m.msg.hid tag = []) (q : List Queued) :
    c.unheld q m = true := by
  have hkept : c.keptFor m = none := by
    unfold Core.keptFor
    split
    · rfl
    · simp [h]
  simp [Core.unheld, hkept, h]

theorem exists_chanCand_ordered {c : Core} {h : Nat} {e : HandlerEntry} (hord : e.ord = true) {ms : List Queued} {tag : W32}
    (hk : 1 ≤ e.k) (hlen : ms.length = e.k) (hrecv : ∀ tag', c.blockedRecv (BitVec.ofNat 8 h) tag' = [])
    (harr : ((c.undelivered (BitVec.ofNat 8 h)).map (·.arr)).Nodup)
    (hms : ∀ m ∈ ms, m ∈ c.inbox ∧ m ∈ c.undelivered (BitVec.ofNat 8 h) ∧ m.msg.stamp.toNat ≤ c.hz.toNat ∧ m.msg.ltag = tag)
    (hsort : ms.Pairwise Earlier) (hfirst : ∀ x ∈ c.undelivered (BitVec.ofNat 8 h), x ∈ ms ∨ ∀ m ∈ ms, Earlier m x) :
    ∃ y, c.chanCand h e = some y ∧ y.take = .msgs ms := by
  obtain ⟨t, ht⟩ := byStamp_eq_append harr (fun m hm => (hms m hm).2.1) hsort hfirst
  have hchain : ∃ t, c.ordChain (BitVec.ofNat 8 h) = ms ++ t := by
    show ∃ t, (byStamp c (BitVec.ofNat 8 h)).takeWhile _ = ms ++ t
    rw [ht]
    exact ⟨_, List.takeWhile_append_of_pos fun m hm => by simpa using ⟨(hms m hm).1, (hms m hm).2.2.1⟩⟩
  obtain ⟨u, hu⟩ := hchain
  have havail : ∃ t, c.available (BitVec.ofNat 8 h) e.ord = ms ++ t := by
    rw [hord]
    show ∃ t, (c.ordChain (BitVec.ofNat 8 h)).takeWhile _ = ms ++ t
    rw [hu]
    exact ⟨_, List.takeWhile_append_of_pos fun m hm =>
      unheld_of_no_recv (by rw [hid_of_undelivered (hms m hm).2.1]; exact hrecv) _⟩
  obtain ⟨v, hv⟩ := havail
  cases ms with
  | nil => simp at hlen; omega
  | cons m rest =>
    have hlaunch : ∃ t, ofLaunch e.ord (m :: (rest ++ v)) m = m :: rest ++ t := by
      rw [hord]
      show ∃ t, (m :: rest ++ v).takeWhile (fun x => x.msg.ltag == m.msg.ltag) = m :: rest ++ t
      exact ⟨_, List.takeWhile_append_of_pos fun x hx => by
        rw [beq_iff_eq, (hms x hx).2.2.2, (hms m List.mem_cons_self).2.2.2]⟩
    obtain ⟨w, hw⟩ := hlaunch
    refine ⟨_, chanCand_eq_some.mpr ⟨m, rest ++ v, hv, ?_, rfl⟩, ?_⟩
    · rw [hw, List.length_append]
      omega
    · rw [hw, List.take_left' hlen]

/-! ### Glades (R263) -/

/-- Head records of a glade, with their columns. -/
def heads (g : Glade) : List (Nat × GRec) := g.cols.zipIdx.filterMap fun c => c.1.head?.map fun r => (c.2, r)

/-- The head records of one launch. -/
def launchHeads (g : Glade) (tag : W32) : List (Nat × GRec) :=
  g.cols.zipIdx.filterMap fun x => match x.1 with
    | y :: _ => if y.ltag == tag then some (x.2, y) else none
    | [] => none

theorem col_eq (g : Glade) (l : Nat) : g.col l = g.cols[l]?.getD [] := by
  rw [Glade.col, List.getD_eq_getElem?_getD]

theorem mem_heads {g : Glade} {l : Nat} {r : GRec} : (l, r) ∈ heads g ↔ (g.col l).head? = some r := by
  simp only [heads, List.mem_filterMap, col_eq, Prod.exists, List.mem_zipIdx_iff_getElem?]
  constructor
  · rintro ⟨col, i, hcol, hr⟩
    obtain ⟨r', hr', heq⟩ := Option.map_eq_some_iff.mp hr
    cases heq
    rw [hcol]
    exact hr'
  · intro hr
    cases hcol : g.cols[l]? with
    | none => rw [hcol] at hr; cases hr
    | some col =>
      rw [hcol] at hr
      exact ⟨col, l, hcol, by rw [show col.head? = some r from hr]; rfl⟩

theorem launchHeads_eq (g : Glade) (tag : W32) : launchHeads g tag = (heads g).filter fun x => x.2.ltag == tag := by
  rw [launchHeads, heads, List.filter_filterMap]
  refine List.filterMap_congr fun x _ => ?_
  obtain ⟨col, i⟩ := x
  cases col with
  | nil => rfl
  | cons y ys => cases h : y.ltag == tag <;> simp [Option.filter, h]

theorem mem_launchHeads {g : Glade} {tag : W32} {l : Nat} {r : GRec} :
    (l, r) ∈ launchHeads g tag ↔ (g.col l).head? = some r ∧ r.ltag = tag := by
  rw [launchHeads_eq, List.mem_filter, mem_heads, beq_iff_eq]

theorem oldest_eq (g : Glade) : g.oldest = (heads g).foldl (pickBest fun a b => a.2.arr < b.2.arr) none := by
  unfold Glade.oldest heads
  congr 1
  funext m x
  cases m <;> rfl

/-- The oldest record is a head record that entered no later than any other. -/
theorem oldest_spec {g : Glade} {l : Nat} {r : GRec} (h : g.oldest = some (l, r)) :
    (g.col l).head? = some r ∧ ∀ l' r', (g.col l').head? = some r' → r.arr ≤ r'.arr := by
  obtain ⟨hin, hmin⟩ := foldl_pickBest (before := fun a b : Nat × GRec => a.2.arr < b.2.arr)
    (fun _ => lt_irrefl _) (fun _ _ _ => lt_trans) ((oldest_eq g).symm.trans h)
  exact ⟨mem_heads.mp hin, fun l' r' hr => not_lt.mp (hmin (l', r') (mem_heads.mpr hr))⟩

theorem oldest_isSome (g : Glade) : (∃ x, g.oldest = some x) ↔ ∃ l r, (g.col l).head? = some r := by
  rw [← Option.isSome_iff_exists, oldest_eq, foldl_pickBest_isSome]
  simp only [Option.isSome_none, Bool.false_eq_true, false_or, ← mem_heads, ne_eq, List.eq_nil_iff_forall_not_mem,
    Prod.forall, not_forall, not_not]

theorem exists_headAt_iff (g : Glade) :
    (∃ l r, HeadAt g l r) ↔ 1 ≤ ((List.range 32).filter fun l => !(g.col l).isEmpty).length := by
  rw [Nat.succ_le_iff, List.length_pos_iff_exists_mem]
  refine exists_congr fun l => ?_
  rw [List.mem_filter, List.mem_range]
  cases h : g.col l with
  | nil => simp [HeadAt, h]
  | cons r rs => simp [HeadAt, h]

theorem all_columns_iff (g : Glade) :
    32 ≤ ((List.range 32).filter fun l => !(g.col l).isEmpty).length ↔ ∀ l, l < 32 → g.col l ≠ [] := by
  have hle : ((List.range 32).filter fun l => !(g.col l).isEmpty).length ≤ 32 := List.length_filter_le ..
  calc 32 ≤ ((List.range 32).filter fun l => !(g.col l).isEmpty).length
    _ ↔ ((List.range 32).filter fun l => !(g.col l).isEmpty).length = (List.range 32).length := by
        rw [List.length_range]; omega
    _ ↔ ∀ l, l < 32 → g.col l ≠ [] := by
        rw [List.length_filter_eq_length_iff]; simp

section
variable {g : Glade} (hg : g.cols.length = 32)
include hg

theorem headAt_iff {l : Nat} {r : GRec} : HeadAt g l r ↔ (g.col l).head? = some r := by
  refine and_iff_right_of_imp fun hr => ?_
  by_contra hl
  rw [col_eq, List.getElem?_eq_none (by omega)] at hr
  cases hr

theorem cols_eq_map : g.cols = (List.range 32).map g.col :=
  List.ext_getElem (by simp [hg]) fun i hi _ => by simp [col_eq, hi]

/-- The columns that hold a record. -/
theorem standing_columns : (g.cols.filter fun c => !c.isEmpty).length =
    ((List.range 32).filter fun l => !(g.col l).isEmpty).length := by
  rw [cols_eq_map hg, List.filter_map, List.length_map]
  rfl

theorem forms_iff : g.forms = true ↔ Formation g := by
  rw [Formation, exists_headAt_iff, ← all_columns_iff, Glade.forms]
  simp only [standing_columns hg, Bool.and_eq_true, Bool.or_eq_true, decide_eq_true_eq, or_assoc]

end

/-- What the candidate of a glade's handler takes. -/
theorem gladeCand_eq_some {c : Core} {h : Nat} {e : HandlerEntry} {y : Cand} (hy : c.gladeCand h e = some y) :
    ∃ l r, (c.glade e.src).oldest = some (l, r) ∧ ((e.wave = false ∧ y = ⟨h, e, .recs e.src [(l, r)], r.arr⟩) ∨
      (e.wave = true ∧ (c.glade e.src).forms = true ∧
        ∃ a, y = ⟨h, e, .recs e.src (launchHeads (c.glade e.src) r.ltag), a⟩)) := by
  unfold Core.gladeCand at hy
  dsimp only at hy
  split at hy
  · cases hy
  next l r ho =>
    refine ⟨l, r, ho, ?_⟩
    split at hy
    next hw => cases hy; exact .inl ⟨by simpa using hw, rfl⟩
    next hw =>
      split at hy
      · cases hy
      next hf => cases hy; exact .inr ⟨by simpa using hw, by simpa using hf, _, rfl⟩

theorem exists_gladeCand_iff (c : Core) (h : Nat) (e : HandlerEntry) : (∃ y, c.gladeCand h e = some y) ↔
    (∃ x, (c.glade e.src).oldest = some x) ∧ (e.wave = true → (c.glade e.src).forms = true) := by
  constructor
  · rintro ⟨y, hy⟩
    obtain ⟨l, r, ho, ⟨hw, -⟩ | ⟨-, hf, -⟩⟩ := gladeCand_eq_some hy
    · exact ⟨⟨_, ho⟩, fun hw' => absurd (hw.symm.trans hw') (by decide)⟩
    · exact ⟨⟨_, ho⟩, fun _ => hf⟩
  · rintro ⟨⟨x, ho⟩, hf⟩
    unfold Core.gladeCand
    cases hw : e.wave with
    | false => exact ⟨_, by simp only [ho]; rfl⟩
    | true => exact ⟨_, by simp only [ho, hf hw]; rfl⟩

/-! ### The statement -/

theorem candidates : Candidates := by
  refine ⟨?named, ?unordered, ?ordered, ?glade⟩
  case named =>
    intro c h y hy hh
    obtain ⟨e, hm⟩ := mayRun_of_candOf hy hh
    obtain ⟨hyh, rfl⟩ := candOf_entry hm hy
    exact ⟨hyh, hm⟩
  case unordered =>
    intro c h e hm hg hord harr
    have hc : c.candOf h = c.chanCand h e := (candOf_of_mayRun hm).trans (if_neg (by simp [hg]))
    rw [hc]
    exact ⟨exists_chanCand_unordered_iff harr hm.1 hord, fun y ms => chanCand_unordered_takes harr hm.1 hord⟩
  case ordered =>
    intro c h e hm hg hord
    have hc : c.candOf h = c.chanCand h e := (candOf_of_mayRun hm).trans (if_neg (by simp [hg]))
    rw [hc]
    refine ⟨fun y ms hy ht => ?_, fun ms tag hk hlen hrecv harr hms hsort hfirst =>
      exists_chanCand_ordered hord hk hlen hrecv harr hms hsort hfirst⟩
    obtain ⟨hlen, hpre, hin⟩ := chanCand_ordered_prefix hord hy ht
    refine ⟨hlen, fun m hmem => ⟨(hin m hmem).1, ?_, (hin m hmem).2, fun x hx hlt => ?_⟩⟩
    · exact (hid_eq_iff hm.1 _).mp (hid_of_undelivered (mem_byStamp.mp (hpre.subset hmem)))
    · exact mem_prefix_of_lower (byStamp_rising c _) hpre hmem (mem_byStamp.mpr hx) hlt
  case glade =>
    rintro c h e g hm hg hok rfl hcols
    have hc : c.candOf h = c.gladeCand h e := (candOf_of_mayRun hm).trans (by rw [if_pos hg, if_pos hok])
    rw [hc, exists_gladeCand_iff, oldest_isSome, ← forms_iff hcols]
    simp only [headAt_iff hcols]
    refine ⟨?_, fun y hy => ?_⟩
    · split
      next hw =>
        refine ⟨fun h => h.2 hw, fun hf => ⟨?_, fun _ => hf⟩⟩
        simpa only [headAt_iff hcols] using ((forms_iff hcols).mp hf).1
      next hw => exact ⟨fun h => h.1, fun h => ⟨h, fun hw' => absurd hw' hw⟩⟩
    · obtain ⟨l, r, ho, hcase⟩ := gladeCand_eq_some hy
      obtain ⟨hhead, hmin⟩ := oldest_spec ho
      rcases hcase with ⟨hw, rfl⟩ | ⟨hw, -, a, rfl⟩
      · exact ⟨_, l, r, rfl, hhead, hmin, fun _ => ⟨rfl, rfl⟩, fun hw' => absurd (hw.symm.trans hw') (by decide)⟩
      · exact ⟨_, l, r, rfl, hhead, hmin, fun hw' => absurd (hw.symm.trans hw') (by decide), fun _ L x => mem_launchHeads⟩

/-! ## The first candidate (R251) -/

/-- Messages available to a handler are messages of the inbox that name it. -/
theorem inbox_of_available {c : Core} {hid : BitVec 8} {ord : Bool} {m : Queued} (h : m ∈ c.available hid ord) :
    m ∈ c.inbox ∧ m.msg.hid = hid := by
  cases ord with
  | false => exact mem_queuedFor.mp (List.mem_of_mem_filter h)
  | true =>
    have hchain : m ∈ c.ordChain hid := (List.takeWhile_prefix _).subset h
    have hin := List.mem_takeWhile_imp hchain
    simp only [Bool.and_eq_true, List.contains_iff_mem] at hin
    exact ⟨hin.1, hid_of_undelivered (mem_byStamp.mp ((List.takeWhile_prefix _).subset hchain))⟩

theorem standing_of_head {g : Glade} {l : Nat} {r : GRec} (h : (g.col l).head? = some r) : g.standing = true := by
  rw [col_eq] at h
  cases hc : g.cols[l]? with
  | none => rw [hc] at h; cases h
  | some col =>
    rw [hc] at h
    refine List.any_eq_true.mpr ⟨col, List.mem_of_getElem? hc, ?_⟩
    cases col with
    | nil => cases h
    | cons => rfl

theorem busyHandlers_lt {c : Core} {h : Nat} (hb : h ∈ c.busyHandlers) : h < 256 := by
  rcases List.mem_append.mp hb with hb | hb
  · obtain ⟨m, -, rfl⟩ := List.mem_map.mp hb
    exact m.msg.hid.isLt
  · obtain ⟨g, -, hb⟩ := List.mem_flatMap.mp hb
    exact List.mem_range.mp (List.mem_of_mem_filter hb)

/-- A candidate's handler has something queued. -/
theorem busy_of_candOf {c : Core} {h : Nat} {y : Cand} (hy : c.candOf h = some y) (hh : h < 256) : h ∈ c.busyHandlers := by
  obtain ⟨e, hm⟩ := mayRun_of_candOf hy hh
  rw [candOf_of_mayRun hm] at hy
  split at hy
  next hg =>
    split at hy
    next =>
      obtain ⟨hnames, hsrc⟩ := entry_namesGlade hm.2.1 hg
      obtain ⟨l, r, ho, -⟩ := gladeCand_eq_some hy
      have hstand := standing_of_head (oldest_spec ho).1
      refine List.mem_append_right _ (List.mem_flatMap.mpr ⟨e.src, ?_, ?_⟩)
      · exact List.mem_filterMap.mpr ⟨e.src, List.mem_range.mpr hsrc, by rw [if_pos hstand]⟩
      · exact List.mem_filter.mpr ⟨List.mem_range.mpr hh, hnames⟩
    next => cases hy
  next =>
    obtain ⟨m, rest, hq, -⟩ := chanCand_eq_some.mp hy
    obtain ⟨hm, hhid⟩ := inbox_of_available (hq ▸ List.mem_cons_self)
    exact List.mem_append_left _ (List.mem_map.mpr ⟨m, hm, (hid_eq_iff hh _).mp hhid⟩)

/-- The order of R251: priority, then arrival, then the handler's number. -/
theorem before_iff (a b : Cand) : a.before b = true ↔
    b.e.pri < a.e.pri ∨ (a.e.pri = b.e.pri ∧ (a.arr < b.arr ∨ (a.arr = b.arr ∧ a.h < b.h))) := by
  simp [Cand.before]

theorem firstCand_eq (c : Core) : c.firstCand =
    (c.busyHandlers.eraseDups.filterMap c.candOf).foldl (pickBest fun x y => x.before y = true) none := by
  unfold Core.firstCand
  congr 1
  funext m x
  cases m <;> rfl

/-- The first candidate is one, and none comes before it. -/
theorem firstCand_spec {c : Core} {x : Cand} (h : c.firstCand = some x) :
    (∃ h, h < 256 ∧ c.candOf h = some x) ∧ ∀ h y, h < 256 → c.candOf h = some y → ¬ y.before x = true := by
  have htrans : ∀ a b d : Cand, a.before b = true → b.before d = true → a.before d = true := by
    intro a b d
    simp only [before_iff]
    omega
  obtain ⟨hin, hmin⟩ := foldl_pickBest (before := fun x y : Cand => x.before y = true)
    (fun a => by rw [before_iff]; omega) htrans ((firstCand_eq c).symm.trans h)
  simp only [List.mem_filterMap, List.mem_eraseDups] at hin hmin
  obtain ⟨h, hb, hc⟩ := hin
  exact ⟨⟨h, busyHandlers_lt hb, hc⟩, fun h y hh hy => hmin y ⟨h, busy_of_candOf hy hh, hy⟩⟩

/-! ## The workspace (R252) -/

theorem wsAlloc_spec {c : Core} {len o : Nat} (h : c.wsAlloc len = some o) :
    o % 1024 = 0 ∧ (c.wsLo ≤ o ∧ o + len ≤ c.wsHi) ∧ (∀ t ∈ c.wsTaken, t.2 ≤ o ∨ o + len ≤ t.1) ∧
      ∀ p, p % 1024 = 0 → p < o → c.wsLo ≤ p → p + len ≤ c.wsHi → ∃ t ∈ c.wsTaken, p < t.2 ∧ t.1 < p + len := by
  rw [Core.wsAlloc, List.find?_map, Option.map_eq_some_iff] at h
  obtain ⟨i, hi, rfl⟩ := h
  obtain ⟨hfit, -, hbefore⟩ := List.find?_range_eq_some.mp hi
  simp only [Function.comp_apply, Bool.and_eq_true, decide_eq_true_eq, List.all_eq_true, Bool.or_eq_true,
    Bool.not_eq_true', Bool.and_eq_false_imp, List.all_eq_false] at hfit hbefore
  refine ⟨by omega, hfit.1, hfit.2, fun p hp hlt hlo hhi => ?_⟩
  obtain ⟨j, rfl⟩ : ∃ j, p = j * 1024 := ⟨p / 1024, by omega⟩
  obtain ⟨t, ht, hno⟩ := hbefore j (by omega) ⟨hlo, hhi⟩
  exact ⟨t, ht, by omega⟩

theorem live_taken {c : Core} {e : Nat × Firing} (he : e ∈ c.live) : (e.2.wp, e.2.wp + wsBytes e.2.nv) ∈ c.wsTaken :=
  List.mem_append_left _ (List.mem_map_of_mem he)

theorem freeSlot_spec {c : Core} {sl : Nat} (h : c.freeSlot = some sl) :
    sl < 64 ∧ c.firing sl = none ∧ ∀ r, r < sl → c.firing r ≠ none := by
  obtain ⟨hfree, hlt, hbefore⟩ := List.find?_range_eq_some.mp h
  exact ⟨List.mem_range.mp hlt, by simpa using hfree, fun r hr => by simpa [Option.isSome_iff_ne_none] using hbefore r hr⟩

/-! ## The new firing (R118, R253) -/

theorem newFiring_fields (uid wp : Nat) (x : Cand) (f : Firing) (hf : f = newFiring uid wp x) :
    f.pc = x.e.pc ∧ f.wp = wp ∧ f.hid = BitVec.ofNat 8 x.h ∧ f.wave = x.e.wave ∧ f.ns = x.e.ns ∧ f.nv = x.e.nv ∧
      f.pri = x.e.pri ∧ f.ltag = x.take.ltag ∧ f.stop = 0 ∧ f.fpst = 0 ∧ f.chain = 0 ∧ f.sq = [] ∧ f.deps = [] ∧
      f.taken = x.take.bodies.length ∧
      f.path.mask = if x.e.wave then laneMask fun L => x.take.bodies.any fun b => b.1 == L else 1 := by
  subst hf
  unfold newFiring
  dsimp only
  split <;> simp [Firing.pc, Firing.path, *]

/-- A key written with one value only reads back. -/
theorem spGet_foldl_unique {α : Type} [DecidableEq α] {d : α} {xs : List (Nat × α)} (l : Sparse α) {k : Nat} {w : α}
    (hin : (k, w) ∈ xs) (huniq : ∀ w', (k, w') ∈ xs → w' = w) :
    spGet d (xs.foldl (fun m e => spPut d m e.1 e.2) l) k = w := by
  induction xs generalizing l with
  | nil => cases hin
  | cons e es ih =>
    by_cases hk : ∃ w', (k, w') ∈ es
    · obtain ⟨w', hw'⟩ := hk
      exact ih _ (huniq w' (List.mem_cons_of_mem _ hw') ▸ hw') fun z hz => huniq z (List.mem_cons_of_mem _ hz)
    · rcases List.mem_cons.mp hin with rfl | hin
      · have hne : ∀ z ∈ es, z.1 ≠ k := fun z hz hzk => hk ⟨z.2, hzk ▸ hz⟩
        exact (spGet_foldl_other (fun e : Nat × α => e.1) (fun e => e.2) es _ k hne).trans (spGet_spPut_same ..)
      · exact absurd ⟨w, hin⟩ hk

theorem putS_eq_foldl {f : Firing} {xs : List (Nat × W64)} (h : ∀ e ∈ xs, e.1 ≠ 0) :
    (f.putS xs).s = xs.foldl (fun m e => spPut 0 m e.1 e.2) f.s := by
  induction xs generalizing f with
  | nil => rfl
  | cons e es ih =>
    obtain ⟨he, hes⟩ := List.forall_mem_cons.mp h
    refine (ih (f := f.setS e.1 e.2) hes).trans ?_
    rw [List.foldl_cons, Firing.setS, if_neg he]

/-- A body from s1 on. -/
theorem getS_putS_body (f : Firing) {body : List W64} {j : Nat} {w : W64} (h : body[j]? = some w) :
    (f.putS (body.zipIdx.map fun e => (e.2 + 1, e.1))).getS (j + 1) = w := by
  have hmem : ∀ k v, (k, v) ∈ body.zipIdx.map (fun e => (e.2 + 1, e.1)) ↔ ∃ i, k = i + 1 ∧ body[i]? = some v := by
    intro k v
    simp only [List.mem_map, Prod.exists, List.mem_zipIdx_iff_getElem?, Prod.mk.injEq]
    constructor
    · rintro ⟨x, i, hx, rfl, rfl⟩
      exact ⟨i, rfl, hx⟩
    · rintro ⟨i, rfl, hx⟩
      exact ⟨v, i, hx, rfl, rfl⟩
  have hne : ∀ e ∈ body.zipIdx.map (fun e => (e.2 + 1, e.1)), e.1 ≠ 0 := by
    rintro ⟨k, v⟩ he
    obtain ⟨i, rfl, -⟩ := (hmem k v).mp he
    exact Nat.succ_ne_zero i
  rw [Firing.getS, if_neg (Nat.succ_ne_zero j), putS_eq_foldl hne]
  refine spGet_foldl_unique _ ((hmem _ _).mpr ⟨j, rfl, h⟩) fun w' hw' => ?_
  obtain ⟨i, hi, hw'⟩ := (hmem _ _).mp hw'
  obtain rfl : j = i := by omega
  exact Option.some.inj (hw'.symm.trans h)

theorem mem_laneWords {nv L k : Nat} {body : List W64} {v : W32} : (k, v) ∈ laneWords nv L body ↔
    ∃ j w, body[j]? = some w ∧ ((2 * j < nv ∧ k = 32 * (2 * j) + L ∧ v = w.extractLsb' 0 32) ∨
      (2 * j + 1 < nv ∧ k = 32 * (2 * j + 1) + L ∧ v = w.extractLsb' 32 32)) := by
  have hif : ∀ (p : Prop) [Decidable p] (a b : Nat × W32), a ∈ (if p then [b] else []) ↔ p ∧ a = b := by
    intro p _ a b
    split <;> simp [*]
  simp only [laneWords, List.mem_flatMap, Prod.exists, List.mem_zipIdx_iff_getElem?, List.mem_append, hif, Prod.mk.injEq]
  exact exists_comm

/-- Bodies for lanes of a wave: one a lane. -/
structure LaneBodies (bs : List (Nat × List W64)) : Prop where
  lt   : ∀ b ∈ bs, b.1 < 32
  uniq : ∀ b ∈ bs, ∀ b' ∈ bs, b.1 = b'.1 → b = b'

theorem getV_putV_bodies {bs : List (Nat × List W64)} (hbs : LaneBodies bs) (f : Firing) {nv L j : Nat} {body : List W64}
    {w : W64} (hb : (L, body) ∈ bs) (hw : body[j]? = some w) (hj : 2 * j + 1 < nv) :
    (f.putV (bs.flatMap fun b => laneWords nv b.1 b.2)).getV (2 * j) L = w.extractLsb' 0 32 ∧
      (f.putV (bs.flatMap fun b => laneWords nv b.1 b.2)).getV (2 * j + 1) L = w.extractLsb' 32 32 := by
  have hL : L < 32 := hbs.lt _ hb
  have huniq : ∀ k v, (32 * k + L, v) ∈ bs.flatMap (fun b => laneWords nv b.1 b.2) → k / 2 = j →
      v = if k = 2 * j then w.extractLsb' 0 32 else w.extractLsb' 32 32 := by
    intro k v hv hkj
    obtain ⟨b, hb', hv⟩ := List.mem_flatMap.mp hv
    have hb32 := hbs.lt b hb'
    obtain ⟨i, w', hw', ⟨-, hk, rfl⟩ | ⟨-, hk, rfl⟩⟩ := mem_laneWords.mp hv
    all_goals
      obtain rfl : (L, body) = b := hbs.uniq _ hb b hb' (by show L = b.1; omega)
      have hk : 32 * k = 32 * _ := Nat.add_right_cancel hk
      obtain rfl : i = j := by omega
      obtain rfl : w' = w := Option.some.inj (hw'.symm.trans hw)
    · rw [if_pos (by omega)]
    · rw [if_neg (by omega)]
  constructor
  · refine spGet_foldl_unique _ ?_ fun v hv => ?_
    · exact List.mem_flatMap.mpr ⟨_, hb, mem_laneWords.mpr ⟨j, w, hw, .inl ⟨by omega, rfl, rfl⟩⟩⟩
    · rw [huniq _ v hv (by omega), if_pos rfl]
  · refine spGet_foldl_unique _ ?_ fun v hv => ?_
    · exact List.mem_flatMap.mpr ⟨_, hb, mem_laneWords.mpr ⟨j, w, hw, .inr ⟨hj, rfl, rfl⟩⟩⟩
    · rw [huniq _ v hv (by omega), if_neg (by omega)]

/-- The registers of a new firing hold the bodies taken: a thread's its one body, a wave's each lane's. -/
theorem newFiring_holds {uid wp : Nat} {x : Cand} {L : Nat} {body : List W64} (hb : (L, body) ∈ x.take.bodies)
    (hthread : x.e.wave = false → x.take.bodies.head? = some (L, body)) (hwave : x.e.wave = true → LaneBodies x.take.bodies) :
    Holds (newFiring uid wp x) x.e L body := by
  refine ⟨fun hw w j hj => ?_, fun hw w j hj hlt => ?_⟩
  · obtain ⟨rest, hbs⟩ : ∃ rest, x.take.bodies = (L, body) :: rest := by
      have hhead := hthread hw
      cases hl : x.take.bodies with
      | nil => rw [hl] at hhead; cases hhead
      | cons b bs => rw [hl] at hhead; cases hhead; exact ⟨bs, rfl⟩
    unfold newFiring
    simp only [hw, hbs, List.take_succ_cons, List.take_zero, List.flatMap_singleton, Bool.false_eq_true, if_false]
    exact getS_putS_body _ hj
  · unfold newFiring
    simp only [hw, if_true]
    exact getV_putV_bodies (hwave hw) _ hb hj hlt

/-! ## The order of candidates and the lowest workspace, as R251 and R252 say them -/

theorem firstCand_order {c : Core} {x y : Cand} {h : Nat} (hx : c.firstCand = some x) (hh : h < 256) (hy : c.candOf h = some y) :
    y.e.pri < x.e.pri ∨ (y.e.pri = x.e.pri ∧ (x.arr < y.arr ∨ (x.arr = y.arr ∧ x.h ≤ y.h))) := by
  have hfirst := (firstCand_spec hx).2 h y hh hy
  rw [before_iff] at hfirst
  omega

theorem wsAlloc_lowest {c : Core} {len o : Nat} (h : c.wsAlloc len = some o) :
    o % 1024 = 0 ∧ c.wsLo ≤ o ∧ o + len ≤ c.wsHi ∧ (∀ e ∈ c.live, e.2.wp + wsBytes e.2.nv ≤ o ∨ o + len ≤ e.2.wp) ∧
      ∀ p, p % 1024 = 0 → p < o → c.wsLo ≤ p → p + len ≤ c.wsHi → ∃ t ∈ c.wsTaken, p < t.2 ∧ t.1 < p + len := by
  obtain ⟨halign, ⟨hlo, hhi⟩, hfree, hlowest⟩ := wsAlloc_spec h
  exact ⟨halign, hlo, hhi, fun e he => hfree _ (live_taken he), hlowest⟩

/-! ## Which branch a creation takes -/

/-- The core neither loads, stops nor is swapped: the model's guard, denied. -/
theorem forms_guard (c : Core) : (!c.placed || c.loading || c.cstate != 0 || c.swapping) = false ↔ Forms c := by
  simp [Forms, and_assoc]

theorem execFiringCreation_idle {s : State} {n : Nat} (h : ¬ Forms (s.core n)) : execFiringCreation n s = .next s := by
  unfold execFiringCreation
  exact if_pos (by simpa [Forms, or_iff_not_imp_left] using h)

/-- The handler whose ill-formed entry is met next (R249). -/
def unmet (c : Core) : Option Nat := c.busyHandlers.find? fun h => c.entryBad h && !c.metBad.contains h

theorem unmet_eq_none {c : Core} (h : EntriesMet c) : unmet c = none :=
  List.find?_eq_none.mpr fun x hx => by simpa using h x hx

theorem unmet_eq_some {c : Core} {h : Nat} (hq : h ∈ c.busyHandlers) (hb : c.entryBad h = true) (hm : h ∉ c.metBad)
    (hothers : ∀ h' ∈ c.busyHandlers, c.entryBad h' = true → h' ∈ c.metBad ∨ h' = h) : unmet c = some h := by
  cases hf : unmet c with
  | none => exact absurd (List.find?_eq_none.mp hf h hq) (by simp [hb, hm])
  | some x =>
    have hx := List.find?_some hf
    simp only [Bool.and_eq_true, Bool.not_eq_true', List.contains_eq_mem, decide_eq_false_iff_not] at hx
    exact congrArg some ((hothers x (List.mem_of_find?_eq_some hf) hx.1).resolve_left hx.2)

theorem execFiringCreation_meets {s : State} {n h : Nat} (hf : Forms (s.core n)) (hu : unmet (s.core n) = some h) :
    execFiringCreation n s = .next (meetEntry s n h) := by
  unfold execFiringCreation
  simp only [(forms_guard _).mpr hf, Bool.false_eq_true, if_false]
  rw [show List.find? _ _ = _ from hu]

theorem execFiringCreation_purges {s : State} {n : Nat} (hf : Forms (s.core n)) (hm : EntriesMet (s.core n))
    (hp : (s.core n).needsPurge = true) : execFiringCreation n s = .next (purge s n) := by
  unfold execFiringCreation
  simp only [(forms_guard _).mpr hf, Bool.false_eq_true, if_false]
  rw [show List.find? _ _ = _ from unmet_eq_none hm]
  simp [hp]

theorem execFiringCreation_forms {s : State} {n : Nat} {x : Cand} {sl wp : Nat} (hf : Forms (s.core n))
    (hm : EntriesMet (s.core n)) (hp : (s.core n).needsPurge = false) (hx : (s.core n).firstCand = some x)
    (hsl : (s.core n).freeSlot = some sl) (hwp : (s.core n).wsAlloc (wsBytes x.e.nv) = some wp) :
    execFiringCreation n s = .next { s.setCore n (((s.core n).consume x.e.wave x.take).setFiring sl
      (newFiring (s.fresh + 1) wp x)) with fresh := s.fresh + 1 } := by
  unfold execFiringCreation
  simp only [(forms_guard _).mpr hf, Bool.false_eq_true, if_false]
  rw [show List.find? _ _ = _ from unmet_eq_none hm]
  simp [hp, hx, hsl, hwp]

/-! ## An ill-formed entry met first (R249, log entry 47) -/

theorem meetEntry_reports {s : State} {n h : Nat} (hb : (s.core n).entryBad h = true) (hm : h ∉ (s.core n).metBad) :
    h ∈ ((meetEntry s n h).core n).metBad ∧ (meetEntry s n h).mem = s.mem ∧
      ((meetEntry s n h).core n).firings = (s.core n).firings ∧ Delivered s (meetEntry s n h) (siteOf s n) (some n) [] 3 0 := by
  have hmeet : meetEntry s n h = pushHost (s.setCore n { s.core n with metBad := (s.core n).metBad ++ [h] })
      (hostEntry s 4 (siteOf s n) (some n) (deliveryDetail [] 3 0)) :=
    if_pos (by simp [hb, hm])
  rw [hmeet]
  exact ⟨by simp, by simp, by simp, fun hr hl => congrArg (·.host.held) (pushHost_held (s := s.setCore n _) _ hr hl)⟩

/-! ## The glade timer (R263) -/

theorem execGladeTimerExpiry_expires {s : State} {n g : Nat} (hg : g < 16) (hrun : ((s.core n).glade g).running = true)
    (hexp : ((s.core n).glade g).expired = false) (hrec : ∃ l, ((s.core n).glade g).col l ≠ []) :
    execGladeTimerExpiry n g s =
      .next (s.setCore n ((s.core n).setGlade g { (s.core n).glade g with expired := true })) := by
  obtain ⟨l, hl⟩ := hrec
  have hstand := standing_of_head (List.head?_eq_some_head hl)
  unfold execGladeTimerExpiry
  exact if_pos (by simp [hg, hrun, hexp, hstand])

/-! ## Ageing (R255) -/

section
variable {s u : State} {n sl : Nat} {f : Firing} {i : Instr} {l : Len}

theorem execPriorityAgeing_eq (hf : s.firing n sl = some f) : execPriorityAgeing n sl s =
    if firingReady s n sl f && f.pri + f.boost < 7 then .next (s.setFiring n sl { f with boost := f.boost + 1 })
    else .next s := by
  unfold execPriorityAgeing
  rw [hf]

/-- A running firing without a pending release is ready as its next instruction is. -/
theorem firingReady_eq (hf : s.firing n sl = some f) (hlook : mayLook (s.core n) sl f = true) (hstop : f.stop = 0)
    (hrel : f.rel = none) (hbad : f.badDep = none) (hl : look s n sl f = .go u i l) : firingReady s n sl f =
      (scoreReady (u.core n) sl f i && fpxReady (u.core n) sl f && unitReady u n f i && wouldIssue u n sl f i) := by
  have hset : settled s n sl f = s := by rw [settled, hrel]
  simp [firingReady, hset, hf, hlook, Firing.stopped, hstop, hbad, hl]

theorem wouldIssue_of_trial_none (h : trial i = none) : wouldIssue u n sl f i = true := by rw [wouldIssue, h]

theorem wouldIssue_of_held {g : State → Out} {t : State} (h : trial i = some g) (hg : g { u with who := some (n, sl) } = .next t)
    (ht : issued t n sl f = false) : wouldIssue u n sl f i = false := by
  unfold wouldIssue
  rw [h]
  dsimp only
  rw [hg]
  exact ht

end

/-! ## What a candidate takes -/

/-- A creation takes 32 messages at most. -/
theorem msgs_le {c : Core} {h : Nat} {y : Cand} {ms : List Queued} (hh : h < 256) (hy : c.candOf h = some y)
    (ht : y.take = .msgs ms) : ms.length ≤ 32 := by
  obtain ⟨e, hm⟩ := mayRun_of_candOf hy hh
  rw [candOf_of_mayRun hm] at hy
  split at hy
  next =>
    split at hy
    next =>
      obtain ⟨l, r, -, ⟨-, rfl⟩ | ⟨-, -, a, rfl⟩⟩ := gladeCand_eq_some hy
      all_goals cases ht
    next => cases hy
  next hg =>
    obtain ⟨m, rest, -, -, rfl⟩ := chanCand_eq_some.mp hy
    cases ht
    exact (List.length_take_le _ _).trans (entry_k hm.2.1 (by simpa using hg)).2

/-- A creation from a glade takes heads of its columns, and a thread one alone. -/
theorem recs_heads {c : Core} {h : Nat} {y : Cand} {g : Nat} {rs : List (Nat × GRec)} (hh : h < 256)
    (hy : c.candOf h = some y) (ht : y.take = .recs g rs) :
    (∀ L r, (L, r) ∈ rs → ((c.glade g).col L).head? = some r) ∧ (y.e.wave = false → ∃ b, rs = [b]) := by
  obtain ⟨e, hm⟩ := mayRun_of_candOf hy hh
  rw [candOf_of_mayRun hm] at hy
  split at hy
  next =>
    split at hy
    next =>
      obtain ⟨l, r, ho, ⟨-, rfl⟩ | ⟨hw, -, a, rfl⟩⟩ := gladeCand_eq_some hy
      · cases ht
        refine ⟨fun L x hx => ?_, fun _ => ⟨_, rfl⟩⟩
        obtain ⟨rfl, rfl⟩ : L = l ∧ x = r := by simpa using hx
        exact (oldest_spec ho).1
      · cases ht
        exact ⟨fun L x hx => (mem_launchHeads.mp hx).1, fun hw' => absurd (hw.symm.trans hw') Bool.noConfusion⟩
    next => cases hy
  next =>
    obtain ⟨m, rest, -, -, rfl⟩ := chanCand_eq_some.mp hy
    cases ht

theorem lt_of_head {g : Glade} {l : Nat} {r : GRec} (h : (g.col l).head? = some r) : l < g.cols.length := by
  by_contra hl
  rw [col_eq, List.getElem?_eq_none (not_lt.mp hl)] at h
  cases h

/-! ### Its bodies, by lane -/

theorem mem_bodies_msgs {ms : List Queued} {L : Nat} {body : List W64} :
    (L, body) ∈ (Take.msgs ms).bodies ↔ ∃ m, ms[L]? = some m ∧ m.msg.body = body := by
  simp only [Take.bodies, List.mem_map, Prod.exists, List.mem_zipIdx_iff_getElem?, Prod.mk.injEq]
  constructor
  · rintro ⟨m, i, hi, rfl, rfl⟩
    exact ⟨m, hi, rfl⟩
  · rintro ⟨m, hm, rfl⟩
    exact ⟨m, L, hm, rfl, rfl⟩

theorem mem_bodies_recs {g : Nat} {rs : List (Nat × GRec)} {L : Nat} {body : List W64} :
    (L, body) ∈ (Take.recs g rs).bodies ↔ ∃ r, (L, r) ∈ rs ∧ r.body = body := by
  simp only [Take.bodies, List.mem_map, Prod.exists, Prod.mk.injEq]
  constructor
  · rintro ⟨l, r, hr, rfl, rfl⟩
    exact ⟨r, hr, rfl⟩
  · rintro ⟨r, hr, rfl⟩
    exact ⟨L, r, hr, rfl, rfl⟩

theorem laneBodies_msgs {ms : List Queued} (h : ms.length ≤ 32) : LaneBodies (Take.msgs ms).bodies where
  lt := by
    rintro ⟨L, body⟩ hb
    obtain ⟨m, hm, -⟩ := mem_bodies_msgs.mp hb
    exact (List.getElem?_eq_some_iff.mp hm).1.trans_le h
  uniq := by
    rintro ⟨L, body⟩ hb ⟨L', body'⟩ hb' rfl
    obtain ⟨m, hm, rfl⟩ := mem_bodies_msgs.mp hb
    obtain ⟨m', hm', rfl⟩ := mem_bodies_msgs.mp hb'
    rw [Option.some.inj (hm.symm.trans hm')]

theorem laneBodies_recs {g : Glade} {gi : Nat} {rs : List (Nat × GRec)} (hcols : g.cols.length ≤ 32)
    (hheads : ∀ L r, (L, r) ∈ rs → (g.col L).head? = some r) : LaneBodies (Take.recs gi rs).bodies where
  lt := by
    rintro ⟨L, body⟩ hb
    obtain ⟨r, hr, -⟩ := mem_bodies_recs.mp hb
    exact (lt_of_head (hheads L r hr)).trans_le hcols
  uniq := by
    rintro ⟨L, body⟩ hb ⟨L', body'⟩ hb' rfl
    obtain ⟨r, hr, rfl⟩ := mem_bodies_recs.mp hb
    obtain ⟨r', hr', rfl⟩ := mem_bodies_recs.mp hb'
    rw [Option.some.inj ((hheads _ _ hr).symm.trans (hheads _ _ hr'))]

/-- The lanes of a new wave are those a body came for. -/
theorem newFiring_mask {uid wp : Nat} {x : Cand} (hw : x.e.wave = true) {L : Nat} (hL : L < 32) :
    (newFiring uid wp x).path.mask.getLsbD L = true ↔ ∃ body, (L, body) ∈ x.take.bodies := by
  obtain ⟨-, -, -, -, -, -, -, -, -, -, -, -, -, -, hmask⟩ := newFiring_fields uid wp x _ rfl
  rw [hmask, if_pos hw, getLsbD_laneMask _ hL]
  simp

/-! ## What leaves a glade (R263) -/

theorem glade_setGlade (c : Core) (g : Nat) (x : Glade) (g' : Nat) :
    (c.setGlade g x).glade g' = if g' = g ∧ g < c.glades.length then x else c.glade g' := by
  unfold Core.setGlade Core.glade
  simp only [List.getD_eq_getElem?_getD, List.getElem?_set]
  by_cases hg : g = g'
  · subst hg
    by_cases hl : g < c.glades.length
    · simp [hl]
    · simp [hl]
  · simp [hg, Ne.symm hg]

/-- Settling a glade changes its marks alone: the core's other parts and every column stay. -/
theorem settleGlade_keeps (c : Core) (g : Nat) : (∃ gs, c.settleGlade g = { c with glades := gs }) ∧
    ∀ g' L, ((c.settleGlade g).glade g').col L = (c.glade g').col L := by
  have hset : ∀ x : Glade, x.cols = (c.glade g).cols → (∃ gs, c.setGlade g x = { c with glades := gs }) ∧
      ∀ g' L, ((c.setGlade g x).glade g').col L = (c.glade g').col L := by
    refine fun x hx => ⟨⟨_, rfl⟩, fun g' L => ?_⟩
    rw [glade_setGlade]
    split
    next h => rw [h.1, Glade.col, Glade.col, hx]
    next => rfl
  unfold Core.settleGlade
  dsimp only
  split
  · exact ⟨⟨_, rfl⟩, fun _ _ => rfl⟩
  · refine hset _ ?_
    split <;> rfl

/-- The columns after their heads were taken. -/
def takeHeads (cols : List (List GRec)) (rs : List (Nat × GRec)) : List (List GRec) :=
  cols.zipIdx.map fun e => if rs.any (fun r => r.1 == e.2) then e.1.drop 1 else e.1

theorem getD_takeHeads (cols : List (List GRec)) (rs : List (Nat × GRec)) (L : Nat) :
    (takeHeads cols rs).getD L [] = if ∃ r ∈ rs, r.1 = L then (cols.getD L []).drop 1 else cols.getD L [] := by
  simp only [takeHeads, List.getD_eq_getElem?_getD, List.getElem?_map, List.getElem?_zipIdx]
  cases cols[L]? with
  | none => simp
  | some col => exact if_congr (by simp) rfl rfl

theorem consume_recs (c : Core) (wave : Bool) (g : Nat) (rs : List (Nat × GRec)) :
    (c.consume wave (.recs g rs)).inbox = c.inbox ∧ ∀ L, ((c.consume wave (.recs g rs)).glade g).col L =
      if ∃ r ∈ rs, r.1 = L then ((c.glade g).col L).drop 1 else (c.glade g).col L := by
  obtain ⟨x, hcols, hc⟩ : ∃ x : Glade, x.cols = takeHeads (c.glade g).cols rs ∧
      c.consume wave (.recs g rs) = (c.setGlade g x).settleGlade g := by
    refine ⟨_, ?_, rfl⟩
    split <;> rfl
  obtain ⟨⟨gs, hgs⟩, hcol⟩ := settleGlade_keeps (c.setGlade g x) g
  rw [hc]
  refine ⟨by rw [hgs, coreSetGlade_inbox], fun L => ?_⟩
  rw [hcol, glade_setGlade]
  by_cases hg : g < c.glades.length
  · rw [if_pos ⟨rfl, hg⟩, Glade.col, hcols, getD_takeHeads]
    rfl
  · have hnone : c.glade g = {} := by simp [Core.glade, List.getElem?_eq_none (not_lt.mp hg)]
    rw [if_neg fun h => hg h.2, hnone]
    simp [Glade.col]

/-! ## The creation (R251 to R253) -/

/-- The state after core n has formed candidate x's firing in a slot. -/
def formed (s : State) (n : Nat) (x : Cand) (sl wp : Nat) : State :=
  { s.setCore n (((s.core n).consume x.e.wave x.take).setFiring sl (newFiring (s.fresh + 1) wp x)) with fresh := s.fresh + 1 }

theorem core_formed (s : State) (n : Nat) (x : Cand) (sl wp : Nat) : (formed s n x sl wp).core n =
    ((s.core n).consume x.e.wave x.take).setFiring sl (newFiring (s.fresh + 1) wp x) := core_setCore_same ..

theorem firing_formed (s : State) (n : Nat) (x : Cand) (sl wp : Nat) :
    (formed s n x sl wp).firing n sl = some (newFiring (s.fresh + 1) wp x) := by
  rw [State.firing, core_formed, coreFiring_setFiring_same]

section
variable {s : State} {n : Nat} {x : Cand} {sl wp : Nat}

/-- A creation from messages: they leave the inbox, and the firing's registers hold their bodies. -/
theorem formed_msgs {ms : List Queued} (ht : x.take = .msgs ms) (hms : ms.length ≤ 32) (f : Firing)
    (hf : f = newFiring (s.fresh + 1) wp x) : f.taken = ms.length ∧
    (∀ q, q ∈ ((formed s n x sl wp).core n).inbox ↔ q ∈ (s.core n).inbox ∧ ∀ m ∈ ms, m.arr ≠ q.arr) ∧
    (x.e.wave = true → ∀ L, L < 32 → f.path.mask.getLsbD L = decide (L < ms.length)) ∧
    ∀ m L, (x.e.wave = false → L = 0) → L < 32 → ms[L]? = some m → Holds f x.e L m.msg.body := by
  subst hf
  refine ⟨?_, fun q => ?_, fun hw L hL => ?_, fun m L hthread _ hm => ?_⟩
  · obtain ⟨-, -, -, -, -, -, -, -, -, -, -, -, -, htaken, -⟩ := newFiring_fields (s.fresh + 1) wp x _ rfl
    rw [htaken, ht]
    simp [Take.bodies]
  · rw [core_formed, coreSetFiring_inbox, ht]
    simp [Core.consume]
  · rw [Bool.eq_iff_iff, newFiring_mask hw hL, ht]
    simp only [mem_bodies_msgs, decide_eq_true_eq]
    exact ⟨fun ⟨_, m, hm, _⟩ => (List.getElem?_eq_some_iff.mp hm).1, fun h => ⟨_, _, List.getElem?_eq_getElem h, rfl⟩⟩
  · refine newFiring_holds (ht ▸ mem_bodies_msgs.mpr ⟨m, hm, rfl⟩) (fun hw => ?_) fun _ => ht ▸ laneBodies_msgs hms
    obtain rfl := hthread hw
    rw [ht]
    simp [Take.bodies, List.head?_eq_getElem?, hm]

/-- A creation from a glade: the heads leave their columns, and the firing's registers hold them. -/
theorem formed_recs {g : Nat} {rs : List (Nat × GRec)} (ht : x.take = .recs g rs)
    (hcols : ((s.core n).glade g).cols.length ≤ 32)
    (hheads : ∀ L r, (L, r) ∈ rs → (((s.core n).glade g).col L).head? = some r)
    (hone : x.e.wave = false → ∃ b, rs = [b]) (f : Firing) (hf : f = newFiring (s.fresh + 1) wp x) :
    f.taken = rs.length ∧ ((formed s n x sl wp).core n).inbox = (s.core n).inbox ∧
    (∀ L r, (L, r) ∈ rs → (((s.core n).glade g).col L).head? = some r ∧ Holds f x.e L r.body) ∧
    (x.e.wave = true → ∀ L, L < 32 → (f.path.mask.getLsbD L = true ↔ ∃ r, (L, r) ∈ rs)) ∧
    ∀ L, (((formed s n x sl wp).core n).glade g).col L =
      if ∃ r ∈ rs, r.1 = L then (((s.core n).glade g).col L).drop 1 else ((s.core n).glade g).col L := by
  subst hf
  obtain ⟨hinbox, hcol⟩ := consume_recs (s.core n) x.e.wave g rs
  refine ⟨?_, ?_, fun L r hr => ⟨hheads L r hr, ?_⟩, fun hw L hL => ?_, fun L => ?_⟩
  · obtain ⟨-, -, -, -, -, -, -, -, -, -, -, -, -, htaken, -⟩ := newFiring_fields (s.fresh + 1) wp x _ rfl
    rw [htaken, ht]
    simp [Take.bodies]
  · rw [core_formed, coreSetFiring_inbox, ht, hinbox]
  · refine newFiring_holds (ht ▸ mem_bodies_recs.mpr ⟨r, hr, rfl⟩) (fun hw => ?_) fun _ => ht ▸ laneBodies_recs hcols hheads
    obtain ⟨b, rfl⟩ := hone hw
    rw [ht, ← List.mem_singleton.mp hr]
    rfl
  · rw [newFiring_mask hw hL, ht]
    simp [mem_bodies_recs]
  · rw [core_formed, ht]
    exact hcol L

end

/-! ## What cancelled launches have queued (R281) -/

/-- Discards counted off move pools alone. -/
theorem foldl_countDiscard_moves {α : Type} (tag : α → W32) (n : Nat) (xs : List α) (s : State) :
    PoolMoved s (xs.foldl (fun s x => countDiscard s n (tag x)) s) n := by
  induction xs generalizing s with
  | nil => exact .inl rfl
  | cons x xs ih => exact poolMoved_trans (countDiscard_moves s n (tag x)) (ih _)

/-- A pool's move leaves its core's firings, inbox and glades. -/
theorem core_of_poolMoved {s t : State} {n : Nat} (h : PoolMoved s t n) :
    (t.core n).firings = (s.core n).firings ∧ (t.core n).inbox = (s.core n).inbox ∧ ∀ g, (t.core n).glade g = (s.core n).glade g := by
  rcases h with rfl | ⟨cr, q, rfl⟩
  · exact ⟨rfl, rfl, fun _ => rfl⟩
  · have hcore : State.core { s.setCore n { s.core n with credits := cr } with homeQ := s.homeQ ++ q } n =
        { s.core n with credits := cr } := core_setCore_same ..
    rw [hcore]
    exact ⟨rfl, rfl, fun _ => rfl⟩

theorem foldl_settleGlade_keeps (gs : List Nat) (c : Core) :
    (∃ gl, gs.foldl Core.settleGlade c = { c with glades := gl }) ∧
      ∀ g L, ((gs.foldl Core.settleGlade c).glade g).col L = (c.glade g).col L := by
  induction gs generalizing c with
  | nil => exact ⟨⟨_, rfl⟩, fun _ _ => rfl⟩
  | cons g gs ih =>
    obtain ⟨⟨gl, hgl⟩, hcol⟩ := settleGlade_keeps c g
    obtain ⟨⟨gl', hgl'⟩, hcol'⟩ := ih (c.settleGlade g)
    exact ⟨⟨gl', by rw [List.foldl_cons, hgl', hgl]⟩, fun g' L => (hcol' g' L).trans (hcol g' L)⟩

/-- A glade without the records of cancelled launches. -/
def uncancelledGlade (c : Core) (g : Glade) : Glade :=
  { g with cols := g.cols.map fun col => col.filter fun r => !c.filtered r.ltag }

/-- A core without what cancelled launches have queued. -/
def uncancelled (c : Core) : Core :=
  { c with inbox := c.inbox.filter fun m => !c.filtered m.msg.ltag, glades := c.glades.map (uncancelledGlade c) }

/-- What is discarded: messages, then records. -/
def cancelledMsgs (c : Core) : List Queued := c.inbox.filter fun m => c.filtered m.msg.ltag

def cancelledRecs (c : Core) : List GRec :=
  c.glades.flatMap fun g => g.cols.flatMap fun col => col.filter fun r => c.filtered r.ltag

theorem purge_eq (s : State) (n : Nat) : purge s n =
    (cancelledRecs (s.core n)).foldl (fun s r => countDiscard s n r.ltag)
      ((cancelledMsgs (s.core n)).foldl (fun s m => countDiscard s n m.msg.ltag)
        (s.setCore n ((List.range 16).foldl Core.settleGlade (uncancelled (s.core n))))) := rfl

theorem col_uncancelled (c : Core) (g L : Nat) :
    ((uncancelled c).glade g).col L = ((c.glade g).col L).filter fun r => !c.filtered r.ltag := by
  have hglade : (uncancelled c).glade g = uncancelledGlade c (c.glade g) := List.getD_map (d := ({} : Glade)) ..
  rw [hglade]
  exact List.getD_map (d := []) ..

theorem purge_discards (s : State) (n : Nat) :
    (purge s n).mem = s.mem ∧ ((purge s n).core n).firings = (s.core n).firings ∧
      (∀ q, q ∈ ((purge s n).core n).inbox ↔ q ∈ (s.core n).inbox ∧ (s.core n).filtered q.msg.ltag = false) ∧
      ∀ g L, (((purge s n).core n).glade g).col L =
        (((s.core n).glade g).col L).filter fun r => !(s.core n).filtered r.ltag := by
  obtain ⟨⟨gl, hgl⟩, hcol⟩ := foldl_settleGlade_keeps (List.range 16) (uncancelled (s.core n))
  have hmoved := poolMoved_trans
    (foldl_countDiscard_moves (fun m : Queued => m.msg.ltag) n (cancelledMsgs (s.core n))
      (s.setCore n ((List.range 16).foldl Core.settleGlade (uncancelled (s.core n)))))
    (foldl_countDiscard_moves (fun r : GRec => r.ltag) n (cancelledRecs (s.core n)) _)
  rw [← purge_eq] at hmoved
  obtain ⟨hfirings, hinbox, hglade⟩ := core_of_poolMoved hmoved
  rw [core_setCore_same] at hfirings hinbox hglade
  refine ⟨(poolMoved_frame hmoved).1, ?_, fun q => ?_, fun g L => ?_⟩
  · rw [hfirings, hgl]
    rfl
  · rw [hinbox, hgl]
    simp [uncancelled]
  · rw [hglade, hcol, col_uncancelled]

theorem settleGlade_of_no_glades {c : Core} (h : c.glades = []) (g : Nat) : c.settleGlade g = c := by
  have hset : ∀ x : Glade, c.setGlade g x = c := by
    intro x
    rw [Core.setGlade, h, List.set_nil, ← h]
  unfold Core.settleGlade
  dsimp only
  split
  · rfl
  · exact hset _

/-- With one message queued and no glade, what is purged is that message. -/
theorem purge_single {s : State} {n : Nat} {m : Queued} (hp : (s.core n).needsPurge = true) (hin : (s.core n).inbox = [m])
    (hg : (s.core n).glades = []) : purge s n = countDiscard (s.setCore n { s.core n with inbox := [] }) n m.msg.ltag := by
  have hm : (s.core n).filtered m.msg.ltag = true := by
    simp only [Core.needsPurge, hin, hg, Bool.and_eq_true] at hp
    simpa using hp.2
  have hcore : uncancelled (s.core n) = { s.core n with inbox := [] } := by
    simp [uncancelled, hin, hg, hm]
  have hsettled : (List.range 16).foldl Core.settleGlade (uncancelled (s.core n)) = uncancelled (s.core n) :=
    List.foldl_fixed' (settleGlade_of_no_glades (by rw [hcore, hg])) _
  rw [purge_eq, hsettled, hcore, cancelledMsgs, cancelledRecs, hin, hg]
  simp [hm]

/-! ## Firing creation and the events beside it -/

theorem exec_firingCreation_forms {s : State} {n : Nat} {x : Cand} {sl wp : Nat} (hf : Forms (s.core n)) (hm : EntriesMet (s.core n))
    (hp : (s.core n).needsPurge = false) (hx : (s.core n).firstCand = some x) (hsl : (s.core n).freeSlot = some sl)
    (hwp : (s.core n).wsAlloc (wsBytes x.e.nv) = some wp) : exec (.firingCreation n) s = .next (formed s n x sl wp) :=
  execFiringCreation_forms hf hm hp hx hsl hwp

theorem firingForms : FiringForms := by
  refine ⟨fun c x y h hx hh hy => firstCand_order hx hh hy, fun c len o h => wsAlloc_lowest h, ?_,
    fun s n h => execFiringCreation_idle h, ?_, ?_, ?_, ?_⟩
  · rintro s n _ x sl wp rfl hf hm hp hx hsl hwp
    obtain ⟨⟨h, hh, hcand⟩, -⟩ := firstCand_spec hx
    obtain ⟨hlt, hfree, hlower⟩ := freeSlot_spec hsl
    obtain ⟨hpc, hwpf, hhid, hwave, hns, hnv, hpri, hltag, hstop, hfpst, hchain, hsq, hdeps, -⟩ :=
      newFiring_fields (s.fresh + 1) wp x _ rfl
    refine ⟨_, _, exec_firingCreation_forms hf hm hp hx hsl hwp, rfl, firing_formed .., hlt, hfree, hlower, hpc, hwpf, hhid, hwave,
      hns, hnv, hpri, hltag, hstop, hfpst, hchain, hsq, hdeps, fun ms ht => ?_, fun g rs ht hcols => ?_⟩
    · exact formed_msgs ht (msgs_le hh hcand ht) _ rfl
    · obtain ⟨hheads, hone⟩ := recs_heads hh hcand ht
      exact formed_recs ht hcols hheads hone _ rfl
  · intro s n h hf hq hb hm hothers
    exact ⟨_, execFiringCreation_meets hf (unmet_eq_some hq hb hm hothers), meetEntry_reports hb hm⟩
  · rintro s n _ rfl hf hm hp
    obtain ⟨hmem, hfir, hin, hcol⟩ := purge_discards s n
    exact ⟨_, execFiringCreation_purges hf hm hp, hmem, hfir, hin, hcol, fun m hi _ hg => purge_single hp hi hg⟩
  · rintro s n g _ hg - rfl hrun hexp hrec
    exact execGladeTimerExpiry_expires hg hrun hexp hrec
  · intro s u n sl f i l hf hlook hstop hrel hbad hl
    have hready := firingReady_eq hf hlook hstop hrel hbad hl
    refine ⟨fun hscore hfpx hunit htrial => ?_, fun hheld => ?_⟩
    · refine (execPriorityAgeing_eq hf).trans ?_
      rw [hready, hscore, hfpx, hunit, wouldIssue_of_trial_none htrial]
      by_cases hpri : f.pri + f.boost < 7 <;> simp [hpri]
    · have hnot : firingReady s n sl f = false := by
        rw [hready]
        rcases hheld with h | h | h | ⟨g, t, htrial, hg, ht⟩
        · simp [h]
        · simp [h]
        · simp [h]
        · simp [wouldIssue_of_held htrial hg ht]
      exact (execPriorityAgeing_eq hf).trans (if_neg (by simp [hnot]))

end Sys2Proof.Proofs

/-! ## The statements -/

namespace Sys2Proof.Settled
open Sys2Proof Sys2Proof.Machine Sys2Proof.Claims Sys2Proof.Laws Sys2Proof.Proofs

/-- Settles O24: which handler is a candidate and what it takes, and then the firing that is formed of the first candidate. -/
theorem firingCreation : Obligations.FiringCreation := ⟨candidates, firingForms⟩

end Sys2Proof.Settled
end

section
/-! PROOF. The family "floating", rounding (O39). First what rounding to an integer is, then the order of a format's patterns, the
pattern that a number rounds to and the one that the model gives, the operations on finite operands, and the patterns' values. -/

namespace Sys2Proof.Proofs
open Sys2Proof Sys2Proof.Machine Sys2Proof.Claims Sys2Proof.Laws

/-! ## A number rounded to an integer (Table 2-7) -/

/-- The mode rounds a magnitude of this sign up to the next integer. -/
def RoundsUp (rm : Rm) (neg : Bool) : Prop := rm = .rup ∧ neg = false ∨ rm = .rdn ∧ neg = true

/-- The mode drops what is left of such a magnitude. -/
def RoundsDown (rm : Rm) (neg : Bool) : Prop := rm = .rtz ∨ rm = .rup ∧ neg = true ∨ rm = .rdn ∧ neg = false

/-- The integer N is y rounded under a mode. -/
def RoundsNat (rm : Rm) (neg : Bool) (y : ℚ) (N : ℕ) : Prop :=
  match rm with
  | .rne => N - 1 / 2 ≤ y ∧ y ≤ N + 1 / 2 ∧ (y = N - 1 / 2 ∨ y = N + 1 / 2 → Even N)
  | m => if m = .rup ∧ neg = false ∨ m = .rdn ∧ neg = true then N - 1 < y ∧ y ≤ N else N ≤ y ∧ y < N + 1

theorem roundsNat_exact (rm : Rm) (neg : Bool) (N : ℕ) : RoundsNat rm neg N N := by
  unfold RoundsNat
  split
  · refine ⟨by linarith, by linarith, ?_⟩
    rintro (h | h) <;> linarith
  · split
    · exact ⟨by linarith, le_rfl⟩
    · exact ⟨le_rfl, by linarith⟩

theorem RoundsNat.bounds {rm : Rm} {neg : Bool} {y : ℚ} {N : ℕ} (h : RoundsNat rm neg y N) : N - 1 < y ∧ y < N + 1 := by
  unfold RoundsNat at h
  split at h
  · obtain ⟨h1, h2, -⟩ := h
    constructor <;> linarith
  · split at h <;> obtain ⟨h1, h2⟩ := h <;> constructor <;> linarith

theorem RoundsNat.le_of_le {rm : Rm} {neg : Bool} {y : ℚ} {N L : ℕ} (h : RoundsNat rm neg y N) (hL : y ≤ L) : N ≤ L := by
  have : (N : ℚ) < L + 1 := by linarith [h.bounds.1]
  exact_mod_cast Nat.lt_succ_iff.mp (by exact_mod_cast this)

theorem RoundsNat.ge_of_ge {rm : Rm} {neg : Bool} {y : ℚ} {N L : ℕ} (h : RoundsNat rm neg y N) (hL : L ≤ y) : L ≤ N := by
  have : (L : ℚ) < N + 1 := by linarith [h.bounds.2]
  exact_mod_cast Nat.lt_succ_iff.mp (by exact_mod_cast this)

/-- A quotient's integer part and what is left of it, and where that lies against a half. -/
theorem quotient_parts (m : ℕ) {d : ℕ} (hd : 0 < d) : ∃ ρ : ℚ, (m : ℚ) / d = (m / d : ℕ) + ρ ∧ 0 ≤ ρ ∧ ρ < 1 ∧
    (d < 2 * (m % d) ↔ 1 / 2 < ρ) ∧ (2 * (m % d) = d ↔ ρ = 1 / 2) ∧ (m % d = 0 ↔ ρ = 0) := by
  have hd' : (0 : ℚ) < d := by exact_mod_cast hd
  have hm : (m : ℚ) = d * (m / d : ℕ) + (m % d : ℕ) := by exact_mod_cast (Nat.div_add_mod m d).symm
  refine ⟨(m % d : ℕ) / d, ?_, by positivity, ?_, ?_, ?_, ?_⟩
  · rw [eq_comm, add_div_eq_mul_add_div _ _ hd'.ne', hm, mul_comm]
  · rw [div_lt_one hd']; exact_mod_cast Nat.mod_lt m hd
  · rw [div_lt_div_iff₀ two_pos hd', one_mul]; norm_cast; rw [mul_comm]
  · rw [div_eq_div_iff hd'.ne' two_ne_zero, one_mul]; norm_cast; rw [mul_comm]
  · rw [div_eq_zero_iff, or_iff_left hd'.ne']; norm_cast

/-- When a mode takes the integer above Q for Q and a part of one more (Table 2-7). -/
def CarriesUp (rm : Rm) (neg : Bool) (Q : ℕ) (ρ : ℚ) : Prop :=
  match rm with
  | .rne => 1 / 2 < ρ ∨ ρ = 1 / 2 ∧ Q % 2 = 1
  | .rtz => False
  | .rup => neg = false ∧ ρ ≠ 0
  | .rdn => neg = true ∧ ρ ≠ 0

theorem roundsNat_away {rm : Rm} {neg : Bool} (h : RoundsUp rm neg) (y : ℚ) (N : ℕ) :
    RoundsNat rm neg y N ↔ N - 1 < y ∧ y ≤ N := by
  rcases h with ⟨rfl, rfl⟩ | ⟨rfl, rfl⟩ <;> simp [RoundsNat]

theorem roundsNat_toward {rm : Rm} {neg : Bool} (h : RoundsDown rm neg) (y : ℚ)
    (N : ℕ) : RoundsNat rm neg y N ↔ N ≤ y ∧ y < N + 1 := by
  rcases h with rfl | ⟨rfl, rfl⟩ | ⟨rfl, rfl⟩ <;> simp [RoundsNat]

theorem roundsNat_carry {rm : Rm} {neg : Bool} {Q : ℕ} {ρ : ℚ} (h0 : 0 ≤ ρ) (h1 : ρ < 1) {up : Bool}
    (hup : up = true ↔ CarriesUp rm neg Q ρ) : RoundsNat rm neg (Q + ρ) (if up then Q + 1 else Q) := by
  have away (hm : RoundsUp rm neg) (hc : CarriesUp rm neg Q ρ ↔ ρ ≠ 0) :
      RoundsNat rm neg (Q + ρ) (if up then Q + 1 else Q) := by
    rw [roundsNat_away hm]
    by_cases hρ : ρ = 0
    · rw [if_neg fun h => hc.mp (hup.mp h) hρ, hρ]
      constructor <;> linarith
    · rw [if_pos (hup.mpr (hc.mpr hρ))]
      have : 0 < ρ := lt_of_le_of_ne h0 (Ne.symm hρ)
      constructor <;> push_cast <;> linarith
  have toward (hm : RoundsDown rm neg) (hc : ¬ CarriesUp rm neg Q ρ) :
      RoundsNat rm neg (Q + ρ) (if up then Q + 1 else Q) := by
    rw [roundsNat_toward hm, if_neg fun h => hc (hup.mp h)]
    constructor <;> linarith
  cases rm with
  | rne =>
    by_cases hc : 1 / 2 < ρ ∨ ρ = 1 / 2 ∧ Q % 2 = 1
    · rw [if_pos (hup.mpr hc)]
      have hge : 1 / 2 ≤ ρ := hc.elim le_of_lt fun h => h.1.ge
      refine ⟨by push_cast; linarith, by push_cast; linarith, fun ht => ?_⟩
      have hρ : ρ = 1 / 2 := by rcases ht with ht | ht <;> push_cast at ht <;> linarith
      have hodd : Q % 2 = 1 := hc.elim (fun h => absurd hρ h.ne') (·.2)
      exact Nat.even_iff.mpr (by omega)
    · rw [if_neg fun h => hc (hup.mp h)]
      obtain ⟨hle, hodd⟩ := not_or.mp hc
      refine ⟨by linarith, by linarith, fun ht => ?_⟩
      have hρ : ρ = 1 / 2 := by rcases ht with ht | ht <;> linarith
      exact Nat.even_iff.mpr (by have : ¬ Q % 2 = 1 := fun h => hodd ⟨hρ, h⟩; omega)
  | rtz => exact toward (.inl rfl) id
  | rup =>
    cases neg
    · exact away (.inl ⟨rfl, rfl⟩) (by simp [CarriesUp])
    · exact toward (.inr (.inl ⟨rfl, rfl⟩)) (by simp [CarriesUp])
  | rdn =>
    cases neg
    · exact toward (.inr (.inr ⟨rfl, rfl⟩)) (by simp [CarriesUp])
    · exact away (.inr ⟨rfl, rfl⟩) (by simp [CarriesUp])

theorem carry_exact_iff {rm : Rm} {neg : Bool} {Q : ℕ} {ρ : ℚ} (h1 : ρ < 1) {up : Bool}
    (hup : up = true ↔ CarriesUp rm neg Q ρ) : ((Q : ℚ) + ρ = (if up then Q + 1 else Q : ℕ)) ↔ ρ = 0 := by
  by_cases h : up = true
  · rw [if_pos h]
    have hne : ρ ≠ 0 := by
      rintro rfl
      have := hup.mp h
      cases rm <;> norm_num [CarriesUp] at this
    exact iff_of_false (fun he => by push_cast at he; linarith) hne
  · rw [if_neg h]
    simp

/-- The model's rounding of m × 2^-sh is the integer that the mode gives, and says whether it differs. -/
theorem roundInt_spec (rm : Rm) (neg : Bool) (m : ℕ) (sh : ℤ) :
    RoundsNat rm neg (m * (2 : ℚ) ^ (-sh)) (roundInt rm neg m sh).1 ∧
    ((roundInt rm neg m sh).2 = true ↔ (m : ℚ) * 2 ^ (-sh) ≠ (roundInt rm neg m sh).1) := by
  unfold roundInt
  split
  next h =>
    have hv : (m : ℚ) * 2 ^ (-sh) = (m * 2 ^ (-sh).toNat : ℕ) := by
      push_cast
      rw [← zpow_natCast, Int.toNat_of_nonneg (by omega)]
    simp only [hv]
    exact ⟨roundsNat_exact .., by simp⟩
  next h =>
    have hv : (m : ℚ) * 2 ^ (-sh) = m / (2 ^ sh.toNat : ℕ) := by
      push_cast
      rw [← zpow_natCast, Int.toNat_of_nonneg (by omega), zpow_neg, div_eq_mul_inv]
    obtain ⟨ρ, hy, h0, h1, hgt, heq, hz⟩ := quotient_parts m (d := 2 ^ sh.toNat) (by positivity)
    have hup : (match rm with
        | .rne => decide (2 ^ sh.toNat < 2 * (m % 2 ^ sh.toNat)) ||
            (2 * (m % 2 ^ sh.toNat) == 2 ^ sh.toNat && m / 2 ^ sh.toNat % 2 == 1)
        | .rtz => false
        | .rup => !neg && m % 2 ^ sh.toNat != 0
        | .rdn => neg && m % 2 ^ sh.toNat != 0) = true ↔ CarriesUp rm neg (m / 2 ^ sh.toNat) ρ := by
      cases rm <;> simp [CarriesUp, hgt, heq, hz]
    rw [hv, hy, bne_iff_ne, ne_eq, hz]
    exact ⟨roundsNat_carry h0 h1 hup, (not_congr (carry_exact_iff h1 hup)).symm⟩

/-! ## Patterns in ascending order (R129, R133) -/

/-- Pattern b counts N units of exponent step d: a denormal has no step, any other has its leading bit. -/
def Units (t : Fmt) (N d : ℕ) : Prop := N < 2 * 2 ^ t.fbits ∧ (d = 0 ∨ 2 ^ t.fbits ≤ N)

theorem exists_units (t : Fmt) (b : ℕ) : ∃ N d, Units t N d ∧ b = N + d * 2 ^ t.fbits := by
  have hlt := Nat.mod_lt b (y := 2 ^ t.fbits) (by positivity)
  have hb := Nat.mod_add_div b (2 ^ t.fbits)
  by_cases h : b / 2 ^ t.fbits = 0
  · rw [h] at hb
    exact ⟨b, 0, ⟨by omega, .inl rfl⟩, by simp⟩
  · obtain ⟨d, hd⟩ := Nat.exists_eq_succ_of_ne_zero h
    rw [hd] at hb
    refine ⟨2 ^ t.fbits + b % 2 ^ t.fbits, d, ⟨by omega, .inr (by omega)⟩, ?_⟩
    rw [Nat.succ_eq_add_one, mul_add] at hb
    linarith [mul_comm d (2 ^ t.fbits)]

/-- The weight of one unit after d exponent steps. -/
def ulp (t : Fmt) (d : ℕ) : ℚ := (2 : ℚ) ^ (t.emin + d)

theorem ulp_pos (t : Fmt) (d : ℕ) : 0 < ulp t d := by unfold ulp; positivity

theorem ulp_succ (t : Fmt) (d : ℕ) : ulp t (d + 1) = 2 * ulp t d := by
  unfold ulp
  rw [Nat.cast_succ, ← add_assoc, zpow_add_one₀ two_ne_zero, mul_comm]

theorem magOf_units {t : Fmt} {N d : ℕ} (h : Units t N d) : magOf t (N + d * 2 ^ t.fbits) = N * ulp t d := by
  have hp : 0 < 2 ^ t.fbits := by positivity
  obtain ⟨hlt, hd⟩ := h
  unfold magOf ulp
  by_cases hN : N < 2 ^ t.fbits
  · obtain rfl := hd.resolve_right (by omega)
    rw [if_pos (by simpa using Nat.div_eq_of_lt hN)]
    simp
  · have hdiv : (N + d * 2 ^ t.fbits) / 2 ^ t.fbits = d + 1 := by
      rw [Nat.add_mul_div_right _ _ hp, Nat.div_eq_of_lt_le (k := 1) (by omega) (by omega), add_comm]
    have hmod : (N + d * 2 ^ t.fbits) % 2 ^ t.fbits = N - 2 ^ t.fbits := by
      rw [Nat.add_mul_mod_self_right, Nat.mod_eq_sub_mod (by omega), Nat.mod_eq_of_lt (by omega)]
    rw [hdiv, if_neg (by omega), hmod, Nat.add_sub_cancel' (by omega)]
    congr 2
    push_cast
    ring

/-- A pattern and the next one are a unit apart. -/
theorem magOf_units_succ {t : Fmt} {N d : ℕ} (h : Units t N d) : magOf t (N + 1 + d * 2 ^ t.fbits) = (N + 1) * ulp t d := by
  by_cases hN : N + 1 < 2 * 2 ^ t.fbits
  · rw [magOf_units ⟨hN, h.2.imp_right (by omega)⟩, Nat.cast_succ]
  · have hN' : N + 1 = 2 * 2 ^ t.fbits := le_antisymm h.1 (not_lt.mp hN)
    have hb : N + 1 + d * 2 ^ t.fbits = 2 ^ t.fbits + (d + 1) * 2 ^ t.fbits := by rw [hN']; ring
    have hc : (N : ℚ) + 1 = 2 * 2 ^ t.fbits := by exact_mod_cast hN'
    rw [hb, magOf_units ⟨by have : 0 < 2 ^ t.fbits := by positivity
                            omega, .inr le_rfl⟩, ulp_succ, hc]
    push_cast
    ring

theorem magOf_strictMono (t : Fmt) : StrictMono (magOf t) := by
  refine strictMono_nat_of_lt_succ fun b => ?_
  obtain ⟨N, d, h, rfl⟩ := exists_units t b
  rw [magOf_units h, show N + d * 2 ^ t.fbits + 1 = N + 1 + d * 2 ^ t.fbits by ring, magOf_units_succ h]
  exact mul_lt_mul_of_pos_right (by linarith) (ulp_pos t d)

@[simp] theorem magOf_zero (t : Fmt) : magOf t 0 = 0 := by simp [magOf]

theorem magOf_nonneg (t : Fmt) (b : ℕ) : 0 ≤ magOf t b :=
  (magOf_zero t).ge.trans ((magOf_strictMono t).monotone b.zero_le)

/-! ## The magnitude that a value rounds to is one (R133) -/

/-- lt and eq are the cut of a number, which compares with every multiple of 2^g, or of a greater power, as V does. -/
structure CutAt (lt eq : ℚ → Prop) (V : ℚ) (g : ℤ) : Prop where
  below : ∀ q q', q' < q → lt q ∨ eq q → lt q'
  apart : ∀ q, lt q → ¬ eq q
  lt_iff : ∀ (j : ℤ) (k : ℤ), g ≤ k → (lt (j * (2 : ℚ) ^ k) ↔ j * (2 : ℚ) ^ k < V)
  eq_iff : ∀ (j : ℤ) (k : ℤ), g ≤ k → (eq (j * (2 : ℚ) ^ k) ↔ j * (2 : ℚ) ^ k = V)

theorem cutAt_exact (V : ℚ) (g : ℤ) : CutAt (· < V) (· = V) V g :=
  ⟨fun _ _ h h' => h.trans_le (h'.elim le_of_lt le_of_eq), fun _ h => h.ne, fun _ _ _ => Iff.rfl, fun _ _ _ => Iff.rfl⟩

/-- The same number scaled by a power of two. -/
theorem CutAt.scale {lt eq : ℚ → Prop} {V : ℚ} {g : ℤ} (h : CutAt lt eq V g) (k : ℕ) :
    CutAt (fun q => lt (q / 2 ^ k)) (fun q => eq (q / 2 ^ k)) (V * 2 ^ k) (g + k) := by
  have hp : (0 : ℚ) < 2 ^ k := by positivity
  have hj (j i : ℤ) : (j : ℚ) * 2 ^ i / 2 ^ k = j * 2 ^ (i - k) := by
    rw [zpow_sub₀ two_ne_zero, zpow_natCast, mul_div_assoc]
  refine ⟨fun q q' hq => h.below _ _ ((div_lt_div_iff_of_pos_right hp).mpr hq), fun q => h.apart _, fun j i hi => ?_,
    fun j i hi => ?_⟩
  · rw [← div_lt_iff₀ hp, hj]
    exact h.lt_iff j (i - k) (by omega)
  · rw [← div_eq_iff hp.ne', hj]
    exact h.eq_iff j (i - k) (by omega)

section
variable {t : Fmt} {rm : Rm} {neg : Bool} {lt eq : ℚ → Prop}

theorem roundsTo_away (h : RoundsUp rm neg) (b : ℕ) :
    RoundsTo t rm neg lt eq b ↔ ¬ lt (magOf t b) ∧ (b = 0 ∨ lt (magOf t (b - 1))) := by
  rcases h with ⟨rfl, rfl⟩ | ⟨rfl, rfl⟩ <;> simp [RoundsTo]

theorem roundsTo_toward (h : RoundsDown rm neg) (b : ℕ) :
    RoundsTo t rm neg lt eq b ↔
      (lt (magOf t b) ∨ eq (magOf t b)) ∧ ¬ lt (magOf t (b + 1)) ∧ ¬ eq (magOf t (b + 1)) := by
  rcases h with rfl | ⟨rfl, rfl⟩ | ⟨rfl, rfl⟩ <;> simp [RoundsTo]

theorem away_or_toward_or_nearest (rm : Rm) (neg : Bool) : rm = .rne ∨ RoundsUp rm neg ∨ RoundsDown rm neg := by
  cases rm <;> cases neg <;> simp [RoundsUp, RoundsDown]

/-- No pattern below one that a number rounds to is one that it rounds to. -/
theorem roundsTo_not_lt {V : ℚ} {g : ℤ} (hc : CutAt lt eq V g) {a b : ℕ} (ha : RoundsTo t rm neg lt eq a)
    (hb : RoundsTo t rm neg lt eq b) : ¬ a < b := by
  intro hab
  have hmono := (magOf_strictMono t).monotone
  rcases away_or_toward_or_nearest rm neg with rfl | h | h
  · obtain ⟨hahi, hatie, -⟩ := ha
    obtain ⟨-, -, hblo⟩ := hb
    have hle : (magOf t a + magOf t (a + 1)) / 2 ≤ (magOf t (b - 1) + magOf t b) / 2 := by
      linarith [hmono (show a ≤ b - 1 by omega), hmono (show a + 1 ≤ b by omega)]
    rcases hle.lt_or_eq with hlt | heq
    · exact hahi (hc.below _ _ hlt ((hblo.resolve_left (by omega)).imp_right And.left))
    · have hb1 : b = a + 1 := by
        by_contra hne
        linarith [magOf_strictMono t (show a < b - 1 by omega), hmono (show a + 1 ≤ b by omega)]
      rw [← heq] at hblo
      rcases hblo with h | h | ⟨h, he⟩
      · omega
      · exact hahi h
      · have := hatie h
        rw [hb1, Nat.even_add_one] at he
        exact he this
  · rw [roundsTo_away h] at ha hb
    have hlt := hb.2.resolve_left (by omega)
    rcases (hmono (show a ≤ b - 1 by omega)).lt_or_eq with hl | he
    · exact ha.1 (hc.below _ _ hl (.inl hlt))
    · exact ha.1 (he ▸ hlt)
  · rw [roundsTo_toward h] at ha hb
    rcases (hmono (show a + 1 ≤ b by omega)).lt_or_eq with hl | he
    · exact ha.2.1 (hc.below _ _ hl hb.1)
    · rw [he] at ha
      exact hb.1.elim ha.2.1 ha.2.2

theorem roundsTo_unique {V : ℚ} {g : ℤ} (hc : CutAt lt eq V g) {a b : ℕ} (ha : RoundsTo t rm neg lt eq a)
    (hb : RoundsTo t rm neg lt eq b) : a = b :=
  le_antisymm (not_lt.mp (roundsTo_not_lt hc hb ha)) (not_lt.mp (roundsTo_not_lt hc ha hb))

end

/-! ## The pattern that the model rounds to -/

/-- The exponent of the unit in which m × 2^e has as many bits as the format keeps. -/
def topUnit (t : Fmt) (m : ℕ) (e : ℤ) : ℤ := e + (Nat.log2 m + 1 : ℕ) - (t.fbits + 1 : ℕ)

/-- The exponent of the unit to which it is rounded: no finer than the denormals'. -/
def roundUnit (t : Fmt) (m : ℕ) (e : ℤ) : ℤ := if topUnit t m e < t.emin then t.emin else topUnit t m e

/-- The units it is rounded to, and whether they differ from it. -/
def roundUnits (t : Fmt) (rm : Rm) (neg : Bool) (m : ℕ) (e : ℤ) : ℕ × Bool := roundInt rm neg m (roundUnit t m e - e)

/-- The pattern of that many units, the exponent going on above the format's largest. -/
def roundBits (t : Fmt) (rm : Rm) (neg : Bool) (m : ℕ) (e : ℤ) : ℕ :=
  (roundUnits t rm neg m e).1 + (roundUnit t m e - t.emin).toNat * 2 ^ t.fbits

/-- Rounded with the exponent unbounded below, it is under the smallest normal (R134). -/
def roundTiny (t : Fmt) (rm : Rm) (neg : Bool) (m : ℕ) (e : ℤ) : Bool :=
  decide (topUnit t m e + (Nat.log2 (roundInt rm neg m (topUnit t m e - e)).1 : ℕ) < t.emin + t.fbits)

theorem roundTo_eq (t : Fmt) (rm : Rm) (sat neg : Bool) {m : ℕ} (hm : m ≠ 0) (e : ℤ) : roundTo t rm sat neg m e =
    if t.maxBits < roundBits t rm neg m e then (overflowBits t rm sat neg, fOF ||| fNX)
    else (t.signBits neg + roundBits t rm neg m e, (if (roundUnits t rm neg m e).2 then fNX else 0) |||
      (if (roundUnits t rm neg m e).2 && roundTiny t rm neg m e then fUF else 0)) := by
  unfold roundTo
  rw [if_neg hm]
  rfl

theorem roundTo_zero (t : Fmt) (rm : Rm) (sat neg : Bool) (e : ℤ) : roundTo t rm sat neg 0 e = (t.signBits neg, 0) := rfl

theorem fbits_pos (t : Fmt) : 0 < t.fbits := by cases t <;> decide

theorem even_units {t : Fmt} {N : ℕ} (h : Even N) (d : ℕ) : Even (N + d * 2 ^ t.fbits) :=
  h.add ((Nat.even_pow.mpr ⟨even_two, (fbits_pos t).ne'⟩).mul_left d)

/-- A value in its rounding's unit, between the unit's bounds: 2^fbits of them where the unit is no denormal's. -/
theorem roundUnit_bounds (t : Fmt) {m : ℕ} (hm : m ≠ 0) (e : ℤ) : ∃ d : ℕ, roundUnit t m e = t.emin + d ∧
    topUnit t m e ≤ t.emin + d ∧ (m : ℚ) * 2 ^ (-(roundUnit t m e - e)) < 2 * 2 ^ t.fbits ∧
    (d = 0 ∧ topUnit t m e < t.emin ∨
      topUnit t m e = t.emin + d ∧ 2 ^ t.fbits ≤ (m : ℚ) * 2 ^ (-(roundUnit t m e - e))) := by
  have hlo : (2 : ℚ) ^ (Nat.log2 m : ℤ) ≤ m := by exact_mod_cast Nat.log2_self_le hm
  have hhi : (m : ℚ) < 2 ^ (Nat.log2 m + 1 : ℤ) := by exact_mod_cast Nat.lt_log2_self
  have hle : topUnit t m e ≤ roundUnit t m e := by unfold roundUnit; split <;> omega
  have hlt : (m : ℚ) * 2 ^ (-(roundUnit t m e - e)) < 2 * 2 ^ t.fbits := by
    calc (m : ℚ) * 2 ^ (-(roundUnit t m e - e)) < 2 ^ (Nat.log2 m + 1 : ℤ) * 2 ^ (-(roundUnit t m e - e)) := by gcongr
      _ = 2 ^ ((Nat.log2 m + 1 : ℤ) + -(roundUnit t m e - e)) := (zpow_add₀ two_ne_zero ..).symm
      _ ≤ 2 ^ (t.fbits + 1 : ℤ) := zpow_le_zpow_right₀ one_le_two (by unfold topUnit at hle; omega)
      _ = 2 * 2 ^ t.fbits := by rw [zpow_add_one₀ two_ne_zero, zpow_natCast, mul_comm]
  refine ⟨(roundUnit t m e - t.emin).toNat, ?_, ?_, hlt, ?_⟩
  · unfold roundUnit; split <;> omega
  · unfold roundUnit; split <;> omega
  · by_cases h : topUnit t m e < t.emin
    · left; unfold roundUnit; rw [if_pos h]; exact ⟨by omega, h⟩
    · right
      have hq : roundUnit t m e = topUnit t m e := if_neg h
      refine ⟨by omega, ?_⟩
      calc (2 : ℚ) ^ t.fbits = 2 ^ (Nat.log2 m : ℤ) * 2 ^ (-(roundUnit t m e - e)) := by
            rw [← zpow_add₀ two_ne_zero, ← zpow_natCast]
            congr 1
            unfold topUnit at hq; omega
        _ ≤ m * 2 ^ (-(roundUnit t m e - e)) := by gcongr

/-- The neighbours of a pattern of N units: the next one is a unit or two away, the one before a unit, or half of one below a
power of two. -/
theorem magOf_neighbours {t : Fmt} {N d : ℕ} (hN : N ≤ 2 * 2 ^ t.fbits) (hd : d = 0 ∨ 2 ^ t.fbits ≤ N) :
    magOf t (N + d * 2 ^ t.fbits) = N * ulp t d ∧
    (∃ J : ℕ, N + 1 ≤ J ∧ magOf t (N + d * 2 ^ t.fbits + 1) = J * ulp t d) ∧
    (N + d * 2 ^ t.fbits = 0 ∨ magOf t (N + d * 2 ^ t.fbits - 1) = (N - 1) * ulp t d ∨
      d ≠ 0 ∧ N = 2 ^ t.fbits ∧ magOf t (N + d * 2 ^ t.fbits - 1) = (N - 1 / 2) * ulp t d) := by
  have hp : 0 < 2 ^ t.fbits := by positivity
  refine ⟨?_, ?_, ?_⟩
  · rcases hN.lt_or_eq with h | h
    · exact magOf_units ⟨h, hd⟩
    · have := magOf_units_succ (t := t) (N := N - 1) (d := d) ⟨by omega, by omega⟩
      rwa [Nat.sub_add_cancel (by omega), Nat.cast_sub (by omega), Nat.cast_one, sub_add_cancel] at this
  · rcases hN.lt_or_eq with h | h
    · refine ⟨N + 1, le_rfl, ?_⟩
      rw [add_right_comm, magOf_units_succ ⟨h, hd⟩, Nat.cast_succ]
    · refine ⟨N + 2, by omega, ?_⟩
      have := magOf_units_succ (t := t) (N := 2 ^ t.fbits) (d := d + 1) ⟨by omega, .inr le_rfl⟩
      rw [show N + d * 2 ^ t.fbits + 1 = 2 ^ t.fbits + 1 + (d + 1) * 2 ^ t.fbits by rw [h]; ring, this, ulp_succ, h]
      push_cast
      ring
  · by_cases h0 : N = 0
    · exact .inl (by simp [h0, hd.resolve_right (by omega)])
    · right
      by_cases hb : d = 0 ∨ 2 ^ t.fbits < N
      · left
        have := magOf_units (t := t) (N := N - 1) (d := d) ⟨by omega, by omega⟩
        rwa [Nat.cast_sub (by omega), Nat.cast_one, ← Nat.sub_add_comm (by omega)] at this
      · right
        obtain ⟨c, rfl⟩ := Nat.exists_eq_succ_of_ne_zero (show d ≠ 0 by tauto)
        have hN : N = 2 ^ t.fbits := by omega
        have := magOf_units (t := t) (N := 2 * N - 1) (d := c) ⟨by omega, by omega⟩
        refine ⟨by omega, hN, ?_⟩
        have hb : N + c.succ * 2 ^ t.fbits - 1 = 2 * N - 1 + c * 2 ^ t.fbits := by rw [hN, Nat.succ_mul]; omega
        rw [hb, this, Nat.succ_eq_add_one, ulp_succ, Nat.cast_sub (by omega)]
        push_cast
        ring

/-- The cut at a number of quarter units. -/
theorem CutAt.at_quarters {t : Fmt} {d : ℕ} {lt eq : ℚ → Prop} {V : ℚ} {g : ℤ} (hc : CutAt lt eq V g)
    (hg : g + 2 ≤ t.emin + d) {x : ℚ} {j : ℤ} (hx : x * 4 = j) :
    (lt (x * ulp t d) ↔ x * ulp t d < V) ∧ (eq (x * ulp t d) ↔ x * ulp t d = V) := by
  have hq : x * ulp t d = j * 2 ^ (t.emin + d - 2) := by
    rw [← hx, ulp, zpow_sub₀ two_ne_zero]
    norm_num
    ring
  rw [hq]
  exact ⟨hc.lt_iff j _ (by omega), hc.eq_iff j _ (by omega)⟩

section
variable {t : Fmt} {rm : Rm} {neg : Bool} {lt eq : ℚ → Prop} {V : ℚ} {g : ℤ}

/-- A value rounded to N units rounds to the pattern of N units. -/
theorem roundsTo_of_roundsNat (hc : CutAt lt eq V g) {d N : ℕ} {y : ℚ} (hg : g + 2 ≤ t.emin + d) (hV : V = y * ulp t d)
    (hr : RoundsNat rm neg y N) (hN : N ≤ 2 * 2 ^ t.fbits) (hd : d = 0 ∨ 2 ^ t.fbits ≤ y) :
    RoundsTo t rm neg lt eq (N + d * 2 ^ t.fbits) := by
  have hu := ulp_pos t d
  have hcmp (x : ℚ) (j : ℤ) (hx : x * 4 = j) :
    (lt (x * ulp t d) ↔ x < y) ∧ (eq (x * ulp t d) ↔ x = y) := by
    obtain ⟨h1, h2⟩ := hc.at_quarters hg hx
    rw [h1, h2, hV, mul_lt_mul_iff_left₀ hu, mul_left_inj' hu.ne']
    exact ⟨Iff.rfl, Iff.rfl⟩
  obtain ⟨hb, ⟨J, hJ, hnext⟩, hprev⟩ := magOf_neighbours hN (hd.imp_right fun h => hr.ge_of_ge (by exact_mod_cast h))
  have hJ' : (N : ℚ) + 1 ≤ J := by exact_mod_cast hJ
  have hhalf (h : d ≠ 0 ∧ N = 2 ^ t.fbits) : (N : ℚ) ≤ y := by rw [h.2]; exact_mod_cast hd.resolve_left h.1
  rcases away_or_toward_or_nearest rm neg with rfl | h | h
  · obtain ⟨hlo, hhi, htie⟩ := hr
    refine ⟨?_, ?_, hprev.imp_right fun hprev => ?_⟩
    · rw [hb, hnext, ← add_mul, mul_div_right_comm, (hcmp _ (2 * (N + J)) (by push_cast; ring)).1]
      linarith
    · rw [hb, hnext, ← add_mul, mul_div_right_comm, (hcmp _ (2 * (N + J)) (by push_cast; ring)).2]
      exact fun he => even_units (htie (.inr (by linarith))) d
    · rcases hprev with hprev | ⟨h1, h2, hprev⟩
      · rw [hb, hprev, ← add_mul, mul_div_right_comm, (hcmp _ (4 * N - 2) (by push_cast; ring)).1,
          (hcmp _ (4 * N - 2) (by push_cast; ring)).2]
        rcases hlo.lt_or_eq with h | h
        · exact .inl (by linarith)
        · exact .inr ⟨by linarith, even_units (htie (.inl h.symm)) d⟩
      · rw [hb, hprev, ← add_mul, mul_div_right_comm, (hcmp _ (4 * N - 1) (by push_cast; ring)).1]
        exact .inl (by linarith [hhalf ⟨h1, h2⟩])
  · rw [roundsNat_away h] at hr
    rw [roundsTo_away h, hb, (hcmp N (4 * N) (by push_cast; ring)).1]
    refine ⟨by linarith, hprev.imp_right fun hprev => ?_⟩
    rcases hprev with hprev | ⟨h1, h2, hprev⟩
    · rw [hprev, (hcmp _ (4 * N - 4) (by push_cast; ring)).1]
      exact hr.1
    · rw [hprev, (hcmp _ (4 * N - 2) (by push_cast; ring)).1]
      linarith [hhalf ⟨h1, h2⟩]
  · rw [roundsNat_toward h] at hr
    rw [roundsTo_toward h, hb, hnext, (hcmp N (4 * N) (by push_cast; ring)).1, (hcmp N (4 * N) (by push_cast; ring)).2,
      (hcmp J (4 * J) (by push_cast; ring)).1, (hcmp J (4 * J) (by push_cast; ring)).2]
    exact ⟨hr.1.lt_or_eq, by linarith, by linarith⟩

end

/-- What the model rounds to, in units: the number of them is the value's own, rounded to an integer. -/
theorem roundBits_spec (t : Fmt) (rm : Rm) (neg : Bool) {m : ℕ} (hm : m ≠ 0) (e : ℤ) : ∃ (d N : ℕ) (y : ℚ),
    roundUnit t m e = t.emin + d ∧ topUnit t m e ≤ t.emin + d ∧ (m : ℚ) * 2 ^ e = y * ulp t d ∧
    roundUnits t rm neg m e = (N, decide (y ≠ N)) ∧ roundBits t rm neg m e = N + d * 2 ^ t.fbits ∧ RoundsNat rm neg y N ∧
    N ≤ 2 * 2 ^ t.fbits ∧ (d = 0 ∧ topUnit t m e < t.emin ∨ topUnit t m e = t.emin + d ∧ 2 ^ t.fbits ≤ y) := by
  obtain ⟨d, hq, htop, hlt, hge⟩ := roundUnit_bounds t hm e
  obtain ⟨hr, hx⟩ := roundInt_spec rm neg m (roundUnit t m e - e)
  refine ⟨d, (roundUnits t rm neg m e).1, _, hq, htop, ?_, ?_, ?_, hr, hr.le_of_le (by exact_mod_cast hlt.le), hge⟩
  · rw [ulp, ← hq, mul_assoc, ← zpow_add₀ two_ne_zero]
    congr 2
    ring
  · exact Prod.ext rfl (Bool.eq_iff_iff.mpr (hx.trans (by simp [roundUnits])))
  · rw [roundBits, hq, add_sub_cancel_left, Int.toNat_natCast]

section
variable {t : Fmt} {lt eq : ℚ → Prop} {m : ℕ} {e g : ℤ}

theorem roundsTo_roundBits (rm : Rm) (neg : Bool) (hc : CutAt lt eq (m * (2 : ℚ) ^ e) g) (hm : m ≠ 0)
    (hg : g + 2 ≤ topUnit t m e) : RoundsTo t rm neg lt eq (roundBits t rm neg m e) := by
  obtain ⟨d, N, y, -, htop, hV, -, hb, hr, hN, hd⟩ := roundBits_spec t rm neg hm e
  rw [hb]
  exact roundsTo_of_roundsNat hc (hg.trans htop) hV hr hN (hd.imp And.left And.right)

theorem roundUnits_exact_iff (rm : Rm) (neg : Bool) (hc : CutAt lt eq (m * (2 : ℚ) ^ e) g) (hm : m ≠ 0)
    (hg : g + 2 ≤ topUnit t m e) : (roundUnits t rm neg m e).2 = true ↔ ¬ eq (magOf t (roundBits t rm neg m e)) := by
  obtain ⟨d, N, y, -, htop, hV, hu, hb, hr, hN, hd⟩ := roundBits_spec t rm neg hm e
  rw [hu, hb, (magOf_neighbours hN (hd.imp And.left fun h => hr.ge_of_ge (by exact_mod_cast h.2))).1,
    (hc.at_quarters (hg.trans htop) (j := 4 * N) (by push_cast; ring)).2, hV, mul_left_inj' (ulp_pos t d).ne', decide_eq_true_iff,
    ne_comm]

theorem mul_zpow_lt_iff {N : ℕ} (hN : N ≠ 0) (a c : ℤ) : (N : ℚ) * 2 ^ a < 2 ^ c ↔ a + (Nat.log2 N : ℕ) < c := by
  have hlo : (2 : ℚ) ^ (Nat.log2 N : ℤ) ≤ N := by exact_mod_cast Nat.log2_self_le hN
  have hhi : (N : ℚ) < 2 ^ (Nat.log2 N + 1 : ℤ) := by exact_mod_cast Nat.lt_log2_self
  constructor <;> intro h
  · rw [← zpow_lt_zpow_iff_right₀ (one_lt_two (α := ℚ)), zpow_add₀ two_ne_zero, mul_comm]
    exact lt_of_le_of_lt (by gcongr) h
  · calc (N : ℚ) * 2 ^ a < 2 ^ (Nat.log2 N + 1 : ℤ) * 2 ^ a := by gcongr
      _ = 2 ^ (Nat.log2 N + 1 + a : ℤ) := (zpow_add₀ two_ne_zero ..).symm
      _ ≤ 2 ^ c := zpow_le_zpow_right₀ one_le_two (by omega)

theorem magOf_smallest_normal (t : Fmt) : magOf t (2 ^ t.fbits) = 2 ^ (t.emin + t.fbits) := by
  have := magOf_units (t := t) (N := 2 ^ t.fbits) (d := 0) ⟨by linarith [Nat.two_pow_pos t.fbits], .inr le_rfl⟩
  rw [zero_mul, add_zero] at this
  rw [this, ulp, Nat.cast_zero, add_zero, zpow_add₀ two_ne_zero, zpow_natCast, mul_comm, Nat.cast_pow, Nat.cast_ofNat]

/-- Scaled so far that no exponent is too small, a value rounds to as many units as with the exponent unbounded. -/
theorem roundBits_scaled (t : Fmt) (rm : Rm) (neg : Bool) {m : ℕ} (hm : m ≠ 0) (e : ℤ) {k : ℕ} (hk : t.emin ≤ topUnit t m e + k) :
    ∃ d N : ℕ, topUnit t m e + k = t.emin + d ∧ (roundInt rm neg m (topUnit t m e - e)).1 = N ∧ 2 ^ t.fbits ≤ N ∧
      roundBits t rm neg m (e + k) = N + d * 2 ^ t.fbits ∧ magOf t (roundBits t rm neg m (e + k)) = N * ulp t d := by
  have htop : topUnit t m (e + k) = topUnit t m e + k := by unfold topUnit; ring
  have hunit : roundUnit t m (e + k) = topUnit t m e + k := by rw [roundUnit, htop, if_neg (by omega)]
  have hN : roundUnits t rm neg m (e + k) = roundInt rm neg m (topUnit t m e - e) := by
    rw [roundUnits, hunit, add_sub_add_right_eq_sub]
  obtain ⟨d, N, y, hq, -, -, hu, hb, hr, hle, hd⟩ := roundBits_spec t rm neg hm (e + k)
  have hge : 2 ^ t.fbits ≤ N := hr.ge_of_ge (by exact_mod_cast (hd.resolve_left (by omega)).2)
  exact ⟨d, N, by omega, by rw [← hN, hu], hge, hb, hb ▸ (magOf_neighbours hle (.inr hge)).1⟩

/-- The model's test of tininess is R134's. -/
theorem roundTiny_iff (rm : Rm) (neg : Bool) (hc : CutAt lt eq (m * (2 : ℚ) ^ e) g) (hm : m ≠ 0) (hg : g + 2 ≤ topUnit t m e) :
    roundTiny t rm neg m e = true ↔ Tiny t rm neg lt eq := by
  have hscale (k : ℕ) : RoundsTo t rm neg (fun q => lt (q / 2 ^ k)) (fun q => eq (q / 2 ^ k)) (roundBits t rm neg m (e + k)) := by
    refine roundsTo_roundBits rm neg (g := g + k) ?_ hm (by unfold topUnit at *; omega)
    have := hc.scale k
    rwa [mul_assoc, ← zpow_natCast, ← zpow_add₀ two_ne_zero] at this
  rw [roundTiny, decide_eq_true_iff]
  have hiff (k : ℕ) (hk : t.emin ≤ topUnit t m e + k) :
      magOf t (roundBits t rm neg m (e + k)) < 2 ^ k * magOf t (2 ^ t.fbits) ↔
        topUnit t m e + (Nat.log2 (roundInt rm neg m (topUnit t m e - e)).1 : ℕ) < t.emin + t.fbits := by
    obtain ⟨d, N, hd, hN, hge, -, hmag⟩ := roundBits_scaled t rm neg hm e hk
    have hpow : (2 : ℚ) ^ k * 2 ^ (t.emin + t.fbits) = 2 ^ (t.emin + t.fbits + k) := by
      rw [zpow_add₀ two_ne_zero _ (k : ℤ), zpow_natCast, mul_comm]
    rw [hmag, magOf_smallest_normal, hpow, ulp, mul_zpow_lt_iff (by have := Nat.two_pow_pos t.fbits; omega), hN]
    omega
  constructor
  · intro h
    have hk : t.emin + 1 ≤ topUnit t m e + (t.emin + 1 - topUnit t m e).toNat := by omega
    obtain ⟨d, N, hd, -, hge, hb, -⟩ := roundBits_scaled t rm neg hm e (k := (t.emin + 1 - topUnit t m e).toNat) (by omega)
    refine ⟨_, _, ?_, hscale (t.emin + 1 - topUnit t m e).toNat, (hiff _ (by omega)).mpr h⟩
    rw [hb, two_mul]
    exact Nat.add_le_add hge (Nat.le_mul_of_pos_left _ (by omega))
  · rintro ⟨k, b, hb, hr, hlt⟩
    obtain rfl := roundsTo_unique (hc.scale k) hr (hscale k)
    refine (hiff k ?_).mp hlt
    by_contra hk
    obtain ⟨d, N, y, -, -, hV, -, hb', hr, -, hd⟩ := roundBits_spec t rm neg hm (e + k)
    have htop : topUnit t m (e + k) = topUnit t m e + k := by unfold topUnit; ring
    obtain ⟨rfl, -⟩ := hd.resolve_right (by omega)
    have hsmall : (m : ℚ) * 2 ^ (e + k) < 2 ^ (t.emin + t.fbits) := (mul_zpow_lt_iff hm ..).mpr (by unfold topUnit at hk; omega)
    have hy : y < 2 ^ t.fbits := by
      rwa [hV, ulp, Nat.cast_zero, add_zero, zpow_add₀ two_ne_zero, zpow_natCast, mul_comm,
        mul_lt_mul_iff_right₀ (by positivity)] at hsmall
    have hN : N ≤ 2 ^ t.fbits := hr.le_of_le (by exact_mod_cast hy.le)
    have := Nat.two_pow_pos t.fbits
    omega

end

theorem overflowBits_eq (t : Fmt) (rm : Rm) (sat neg : Bool) : overflowBits t rm sat neg = overflowTo t rm sat neg := by
  cases t <;> cases rm <;> cases sat <;> cases neg <;> rfl

theorem getLsbD_of_flags_lt {x : FpFlags} (h : x.toNat < 2 ^ 3) {k : ℕ} (hk : 3 ≤ k) : x.getLsbD k = false :=
  Nat.testBit_lt_two_pow (h.trans_le (Nat.pow_le_pow_right (by decide) hk))

section
variable {t : Fmt} {lt eq : ℚ → Prop} {m : ℕ} {e g : ℤ}

/-- The model rounds a number once and raises R134's flags, where its m × 2^e stands for the number at every pattern near it. -/
theorem roundTo_rounded (rm : Rm) (sat neg : Bool) (hc : CutAt lt eq (m * (2 : ℚ) ^ e) g) (hm : m ≠ 0)
    (hg : g + 2 ≤ topUnit t m e) : Rounded t rm sat neg lt eq (roundTo t rm sat neg m e) := by
  refine ⟨roundBits t rm neg m e, roundsTo_roundBits rm neg hc hm hg, ?_⟩
  rw [roundTo_eq t rm sat neg hm, ← roundUnits_exact_iff rm neg hc hm hg, ← roundTiny_iff rm neg hc hm hg, overflowBits_eq]
  by_cases h : t.maxBits < roundBits t rm neg m e
  · rw [if_pos h]
    exact ⟨(if_pos h).symm, by simp [h, fOF, fNX], by simp [h, fOF, fNX], by simp [h, fOF, fNX],
      fun k hk => getLsbD_of_flags_lt (show (fOF ||| fNX).toNat < 2 ^ 3 by decide) hk⟩
  · rw [if_neg h]
    generalize (roundUnits t rm neg m e).2 = inexact
    generalize roundTiny t rm neg m e = tiny
    refine ⟨(if_neg h).symm, ?_, ?_, ?_, fun k hk => getLsbD_of_flags_lt ?_ hk⟩
    · simp only [h, false_or]
      revert inexact tiny; decide
    · simp only [not_lt.mp h, true_and]
      revert inexact tiny; decide
    · simp only [h, iff_false]
      revert inexact tiny; decide
    · clear h
      revert inexact tiny; dsimp only; decide

end

/-! ## The operations on finite operands (R133, R134, R140) -/

theorem abs_ratOf (n : Bool) (m : ℕ) (e : ℤ) : |ratOf n m e| = m * (2 : ℚ) ^ e := by
  cases n <;> simp [ratOf, abs_mul]

theorem ratOf_eq_zero_iff {n : Bool} {m : ℕ} {e : ℤ} : ratOf n m e = 0 ↔ m = 0 := by
  rw [← abs_eq_zero, abs_ratOf]
  simp [zpow_ne_zero]

theorem ratOf_neg_iff {n : Bool} {m : ℕ} (hm : m ≠ 0) (e : ℤ) : ratOf n m e < 0 ↔ n = true := by
  have h : (0 : ℚ) < m * 2 ^ e := by positivity
  cases n
  · simpa [ratOf] using h.le
  · simpa [ratOf] using h

theorem roundTo_exact (t : Fmt) (rm : Rm) (sat n : Bool) {m : ℕ} (hm : m ≠ 0) (e : ℤ) :
    Rounded t rm sat n (· < |ratOf n m e|) (· = |ratOf n m e|) (roundTo t rm sat n m e) := by
  rw [abs_ratOf]
  exact roundTo_rounded rm sat n (cutAt_exact _ (topUnit t m e - 2)) hm (by omega)

/-- A number given by its sign, magnitude and exponent. -/
theorem roundTo_roundedTo (t : Fmt) (rm : Rm) (sat n : Bool) {m : ℕ} (hm : m ≠ 0) (e : ℤ) :
    RoundedTo t rm sat (ratOf n m e) (roundTo t rm sat n m e) := by
  have hn : decide (ratOf n m e < 0) = n := by simp [ratOf_neg_iff hm]
  unfold RoundedTo
  rw [hn]
  exact roundTo_exact t rm sat n hm e

theorem ratOf_natAbs (v e : ℤ) : ratOf (decide (v < 0)) v.natAbs e = v * (2 : ℚ) ^ e := by
  unfold ratOf
  rw [Nat.cast_natAbs]
  by_cases h : v < 0
  · simp [h, abs_of_neg h]
  · simp [h, abs_of_nonneg (not_lt.mp h)]

/-- An exact sum, as the model holds it (R140). -/
theorem sumFin_spec (rm : Rm) (n1 : Bool) (m1 : ℕ) (e1 : ℤ) (n2 : Bool) (m2 : ℕ) (e2 : ℤ) :
    ratOf (sumFin rm n1 m1 e1 n2 m2 e2).1 (sumFin rm n1 m1 e1 n2 m2 e2).2.1 (sumFin rm n1 m1 e1 n2 m2 e2).2.2 =
      ratOf n1 m1 e1 + ratOf n2 m2 e2 ∧
    (ratOf n1 m1 e1 + ratOf n2 m2 e2 = 0 → (sumFin rm n1 m1 e1 n2 m2 e2).1 = (if n1 = n2 then n1 else rm = .rdn)) := by
  have hlo : (if e1 ≤ e2 then e1 else e2) ≤ e1 ∧ (if e1 ≤ e2 then e1 else e2) ≤ e2 := by split <;> omega
  have hsum := congrArg₂ (· + ·) (ratOf_eq_scaled n1 m1 hlo.1) (ratOf_eq_scaled n2 m2 hlo.2)
  rw [← add_mul, ← Int.cast_add] at hsum
  unfold sumFin
  generalize (if e1 ≤ e2 then e1 else e2) = lo at *
  dsimp only at *
  rw [hsum]
  generalize scaled n1 m1 e1 lo + scaled n2 m2 e2 lo = v
  by_cases hv : v = 0
  · simp [hv, ratOf, beq_eq_decide]
  · simp only [if_neg hv]
    exact ⟨ratOf_natAbs v lo, fun h => absurd h (mul_ne_zero (Int.cast_ne_zero.mpr hv) (by positivity))⟩

/-- An exact result of sign n, rounded once; the sign of a zero is n's too. -/
theorem roundTo_value (t : Fmt) (rm : Rm) (n : Bool) (m : ℕ) (e : ℤ) {v : ℚ} (hv : v = ratOf n m e) :
    (v ≠ 0 → RoundedTo t rm false v (roundTo t rm false n m e)) ∧ (v = 0 → roundTo t rm false n m e = (t.signBits n, 0)) := by
  subst hv
  rw [ne_eq, ratOf_eq_zero_iff]
  exact ⟨fun hm => roundTo_roundedTo t rm false n hm e, fun hm => by rw [hm, roundTo_zero]⟩

theorem roundTo_sumFin (t : Fmt) (rm : Rm) (n1 : Bool) (m1 : ℕ) (e1 : ℤ) (n2 : Bool) (m2 : ℕ) (e2 : ℤ) {v : ℚ} {r : Bool × ℕ × ℤ}
    (hv : v = ratOf n1 m1 e1 + ratOf n2 m2 e2) (hr : r = sumFin rm n1 m1 e1 n2 m2 e2) :
    (v ≠ 0 → RoundedTo t rm false v (roundTo t rm false r.1 r.2.1 r.2.2)) ∧
    (v = 0 → roundTo t rm false r.1 r.2.1 r.2.2 = (t.signBits (if n1 = n2 then n1 else rm = .rdn), 0)) := by
  obtain ⟨hsum, hsign⟩ := sumFin_spec rm n1 m1 e1 n2 m2 e2
  rw [← hr] at hsum hsign
  obtain ⟨hne, hz⟩ := roundTo_value t rm r.1 r.2.1 r.2.2 (hv.trans hsum.symm)
  exact ⟨hne, fun h => hsign (hv.symm.trans h) ▸ hz h⟩

theorem ratOf_mul (n1 : Bool) (m1 : ℕ) (e1 : ℤ) (n2 : Bool) (m2 : ℕ) (e2 : ℤ) :
    ratOf n1 m1 e1 * ratOf n2 m2 e2 = ratOf (n1 != n2) (m1 * m2) (e1 + e2) := by
  unfold ratOf
  rw [zpow_add₀ two_ne_zero]
  cases n1 <;> cases n2 <;> simp <;> ring

/-! ### Quotients and roots: a sticky lowest bit -/

/-- A number of Q units of 2^(E+1) and a part of one more, which the lowest bit of 2Q stands for. -/
theorem cutAt_sticky {lt eq : ℚ → Prop} {Q : ℕ} {E : ℤ} {exact : Prop} [Decidable exact]
    (below : ∀ q q', q' < q → lt q ∨ eq q → lt q') (apart : ∀ q, lt q → ¬ eq q)
    (hlt : ∀ j : ℤ, lt (j * (2 : ℚ) ^ (E + 1)) ↔ j < Q + if exact then 0 else 1)
    (heq : ∀ j : ℤ, eq (j * (2 : ℚ) ^ (E + 1)) ↔ exact ∧ j = Q) :
    CutAt lt eq ((2 * Q + (if exact then 0 else 1) : ℕ) * (2 : ℚ) ^ E) (E + 1) := by
  have units (j k : ℤ) (hk : E + 1 ≤ k) : ∃ i : ℤ, (j : ℚ) * 2 ^ k = i * 2 ^ (E + 1) ∧ (j : ℚ) * 2 ^ k = (2 * i : ℤ) * 2 ^ E := by
    obtain ⟨d, rfl⟩ := Int.le.dest hk
    refine ⟨j * 2 ^ d, ?_, ?_⟩
    · rw [zpow_add₀ two_ne_zero _ (d : ℤ), zpow_natCast]
      push_cast
      ring
    · rw [zpow_add₀ two_ne_zero _ (d : ℤ), zpow_natCast, zpow_add_one₀ two_ne_zero]
      push_cast
      ring
  refine ⟨below, apart, fun j k hk => ?_, fun j k hk => ?_⟩
  · obtain ⟨i, h1, h2⟩ := units j k hk
    rw [h1, hlt, ← h1, h2, mul_lt_mul_iff_left₀ (by positivity), ← Int.cast_natCast (2 * Q + _), Int.cast_lt]
    split <;> push_cast <;> omega
  · obtain ⟨i, h1, h2⟩ := units j k hk
    rw [h1, heq, ← h1, h2, mul_left_inj' (by positivity), ← Int.cast_natCast (2 * Q + _), Int.cast_inj]
    split
    next h => simp only [h, true_and]; push_cast; omega
    next h => simp only [h, false_and, false_iff]; push_cast; omega

/-- Two bits and more beside those the format keeps. -/
theorem topUnit_of_bits {t : Fmt} {m : ℕ} {E : ℤ} (h : 2 ^ (t.fbits + 3) ≤ m) : E + 1 + 2 ≤ topUnit t m E := by
  have : t.fbits + 3 ≤ Nat.log2 m := (Nat.le_log2 (by have := Nat.two_pow_pos (t.fbits + 3); omega)).mpr h
  unfold topUnit
  omega

theorem mul_lt_div_add_iff {x d : ℕ} (hd : 0 < d) (j : ℤ) : j * d < x ↔ j < (x / d : ℕ) + if x % d = 0 then 0 else 1 := by
  have hx : (x : ℤ) = d * (x / d : ℕ) + (x % d : ℕ) := by exact_mod_cast (Nat.div_add_mod x d).symm
  have hr : ((x % d : ℕ) : ℤ) < d := by exact_mod_cast Nat.mod_lt x hd
  have hd' : (0 : ℤ) < d := by exact_mod_cast hd
  rw [hx, mul_comm j]
  split
  next h => rw [h, Nat.cast_zero, add_zero, add_zero, Int.mul_lt_mul_left hd']
  next h =>
    have hr0 : 0 < ((x % d : ℕ) : ℤ) := by omega
    rw [Int.lt_add_one_iff]
    constructor
    · intro hlt
      by_contra hj
      have := Int.mul_le_mul_of_nonneg_left (show ((x / d : ℕ) : ℤ) + 1 ≤ j by omega) hd'.le
      linarith
    · intro hj
      linarith [Int.mul_le_mul_of_nonneg_left hj hd'.le]

theorem eq_div_iff_mod {x d : ℕ} (hd : 0 < d) (j : ℤ) : j * d = x ↔ x % d = 0 ∧ j = (x / d : ℕ) := by
  constructor
  · intro h
    have hdvd : d ∣ x := Int.natCast_dvd_natCast.mp ⟨j, by rw [← h, mul_comm]⟩
    refine ⟨Nat.mod_eq_zero_of_dvd hdvd, ?_⟩
    rw [Int.natCast_ediv, ← h, Int.mul_ediv_cancel _ (by omega)]
  · rintro ⟨h, rfl⟩
    exact_mod_cast Nat.div_mul_cancel (Nat.dvd_of_mod_eq_zero h)

theorem pow_le_quot {p m1 m2 : ℕ} (h1 : m1 ≠ 0) (h2 : m2 ≠ 0) : 2 ^ (p + 3) ≤ (quot p m1 m2).1 := by
  have hm1 := Nat.log2_self_le h1
  have hm2 := Nat.lt_log2_self (n := m2)
  suffices h : 2 ^ (p + 3) ≤ m1 * 2 ^ (p + 3 + (Nat.log2 m2 + 1) - Nat.log2 m1) / m2 by
    unfold quot
    dsimp only
    omega
  rw [Nat.le_div_iff_mul_le (Nat.pos_of_ne_zero h2)]
  calc 2 ^ (p + 3) * m2 ≤ 2 ^ (p + 3) * 2 ^ (Nat.log2 m2 + 1) := by gcongr
    _ = 2 ^ (p + 3 + (Nat.log2 m2 + 1)) := (Nat.pow_add ..).symm
    _ ≤ 2 ^ (Nat.log2 m1 + (p + 3 + (Nat.log2 m2 + 1) - Nat.log2 m1)) := Nat.pow_le_pow_right two_pos (by omega)
    _ = 2 ^ Nat.log2 m1 * 2 ^ (p + 3 + (Nat.log2 m2 + 1) - Nat.log2 m1) := Nat.pow_add ..
    _ ≤ _ := by gcongr

/-- The model's quotient stands for the exact one. -/
theorem cutAt_quot (p m1 : ℕ) {m2 : ℕ} (h2 : m2 ≠ 0) (e : ℤ) {V : ℚ} (hV : V = m1 / m2 * (2 : ℚ) ^ e) :
    CutAt (· < V) (· = V) ((quot p m1 m2).1 * (2 : ℚ) ^ (e - (quot p m1 m2).2 - 1)) (e - (quot p m1 m2).2 - 1 + 1) := by
  have hd : (0 : ℚ) < m2 := by exact_mod_cast Nat.pos_of_ne_zero h2
  have hcmp (j : ℤ) (k : ℕ) : (j * (2 : ℚ) ^ (e - k - 1 + 1) < V ↔ j * m2 < (m1 * 2 ^ k : ℕ)) ∧
      (j * (2 : ℚ) ^ (e - k - 1 + 1) = V ↔ j * m2 = (m1 * 2 ^ k : ℕ)) := by
    have hV' : V = (m1 * 2 ^ k : ℕ) / m2 * (2 : ℚ) ^ (e - k - 1 + 1) := by
      rw [hV, sub_add_cancel, zpow_sub₀ two_ne_zero, zpow_natCast]
      push_cast
      field_simp
    rw [hV', mul_lt_mul_iff_left₀ (by positivity), mul_left_inj' (by positivity), lt_div_iff₀ hd, eq_div_iff hd.ne']
    exact ⟨by norm_cast, by norm_cast⟩
  exact cutAt_sticky (fun _ _ h h' => h.trans_le (h'.elim le_of_lt le_of_eq)) (fun _ h => h.ne)
    (fun j => (hcmp j _).1.trans (mul_lt_div_add_iff (Nat.pos_of_ne_zero h2) j))
    (fun j => (hcmp j _).2.trans (eq_div_iff_mod (Nat.pos_of_ne_zero h2) j))

/-! ### Square roots -/

theorem isqrt_spec (k n : ℕ) (h : n < 4 ^ k) : isqrt k n = Nat.sqrt n := by
  have key (i : ℕ) (hi : i ≤ k) : ∃ r,
      (List.range i).foldl (fun r i => let c := r + 2 ^ (k - 1 - i); if c * c ≤ n then c else r) 0 = r ∧
      r * r ≤ n ∧ n < (r + 2 ^ (k - i)) * (r + 2 ^ (k - i)) := by
    induction i with
    | zero => exact ⟨0, rfl, by omega, by rwa [Nat.sub_zero, zero_add, ← mul_pow]⟩
    | succ i ih =>
      obtain ⟨r, hr, hle, hlt⟩ := ih (by omega)
      have hstep : 2 ^ (k - i) = 2 ^ (k - 1 - i) + 2 ^ (k - 1 - i) := by
        rw [← two_mul, ← pow_succ']
        congr 1
        omega
      rw [List.range_succ, List.foldl_append, hr, Nat.sub_add_eq, Nat.sub_right_comm, List.foldl_cons, List.foldl_nil]
      rw [hstep, ← add_assoc] at hlt
      by_cases hc : (r + 2 ^ (k - 1 - i)) * (r + 2 ^ (k - 1 - i)) ≤ n
      · exact ⟨_, if_pos hc, hc, hlt⟩
      · exact ⟨_, if_neg hc, hle, not_le.mp hc⟩
  obtain ⟨r, hr, hle, hlt⟩ := key k le_rfl
  rw [Nat.sub_self, pow_zero] at hlt
  exact hr.trans (le_antisymm (Nat.le_sqrt.mpr hle) (Nat.lt_succ_iff.mp (Nat.sqrt_lt.mpr hlt)))

/-- With as many steps as the model takes. -/
theorem isqrt_log2 (n : ℕ) : isqrt (Nat.log2 n / 2 + 1) n = Nat.sqrt n := by
  refine isqrt_spec _ _ (Nat.lt_log2_self.trans_le ?_)
  rw [show 4 = 2 ^ 2 by rfl, ← pow_mul]
  exact Nat.pow_le_pow_right two_pos (by omega)

theorem sq_lt_iff_sqrt (x : ℕ) (j : ℤ) : (j < 0 ∨ j * j < x) ↔ j < Nat.sqrt x + if Nat.sqrt x * Nat.sqrt x = x then 0 else 1 := by
  rcases lt_or_ge j 0 with hj | hj
  · exact iff_of_true (.inl hj) (by split <;> omega)
  · obtain ⟨i, rfl⟩ := Int.eq_ofNat_of_zero_le hj
    rw [or_iff_right (by omega)]
    norm_cast
    split
    next h => 
      rw [add_zero]; conv_lhs => rw [← h]
      exact Nat.mul_self_lt_mul_self_iff
    next h =>
      rw [Nat.lt_succ_iff, Nat.le_sqrt, lt_iff_le_and_ne, and_iff_left_iff_imp]
      rintro - rfl
      exact h (by rw [Nat.sqrt_eq])

theorem sq_eq_iff_sqrt (x : ℕ) (j : ℤ) : (0 ≤ j ∧ j * j = x) ↔ Nat.sqrt x * Nat.sqrt x = x ∧ j = Nat.sqrt x := by
  constructor
  · rintro ⟨hj, h⟩
    obtain ⟨i, rfl⟩ := Int.eq_ofNat_of_zero_le hj
    obtain rfl : i * i = x := by exact_mod_cast h
    simp [Nat.sqrt_eq]
  · rintro ⟨h, rfl⟩
    exact ⟨by omega, by exact_mod_cast h⟩

/-- The model's root stands for the exact one. -/
theorem cutAt_sqrt (x : ℕ) (h : ℤ) {v : ℚ} (hv : v = x * (2 : ℚ) ^ (2 * h)) :
    CutAt (fun q => q < 0 ∨ q * q < v) (fun q => 0 ≤ q ∧ q * q = v)
    ((2 * Nat.sqrt x + (if Nat.sqrt x * Nat.sqrt x = x then 0 else 1) : ℕ) * (2 : ℚ) ^ (h - 1)) (h - 1 + 1) := by
  have hp : (0 : ℚ) < 2 ^ h := by positivity
  have hsq (j : ℤ) : (j : ℚ) * 2 ^ h * (j * 2 ^ h) = (j * j : ℤ) * 2 ^ (2 * h) := by
    rw [two_mul, zpow_add₀ two_ne_zero]
    push_cast
    ring
  refine cutAt_sticky (fun q q' hq hle => ?_) (fun q hlt heq => ?_) (fun j => ?_) (fun j => ?_)
  · by_cases h0 : q' < 0
    · exact .inl h0
    · refine .inr (lt_of_lt_of_le (mul_self_lt_mul_self (not_lt.mp h0) hq) ?_)
      rcases hle with (hle | hle) | hle
      · linarith
      · exact hle.le
      · exact hle.2.le
  · rcases hlt with hlt | hlt
    · linarith [heq.1]
    · linarith [heq.2]
  · rw [sub_add_cancel, hsq, hv, mul_lt_mul_iff_left₀ (by positivity), mul_neg_iff, ← sq_lt_iff_sqrt]
    simp only [hp, hp.not_gt, and_false, false_or, and_true]
    norm_cast
  · rw [sub_add_cancel, hsq, hv, mul_left_inj' (by positivity), mul_nonneg_iff_of_pos_right hp, ← sq_eq_iff_sqrt]
    norm_cast

theorem ratOf_div (n1 : Bool) (m1 : ℕ) (e1 : ℤ) (n2 : Bool) (m2 : ℕ) (e2 : ℤ) :
    |ratOf n1 m1 e1 / ratOf n2 m2 e2| = m1 / m2 * (2 : ℚ) ^ (e1 - e2) := by
  rw [abs_div, abs_ratOf, abs_ratOf, zpow_sub₀ two_ne_zero, mul_div_mul_comm]

theorem ratOf_div_neg {n1 : Bool} {m1 : ℕ} (h1 : m1 ≠ 0) (e1 : ℤ) {n2 : Bool} {m2 : ℕ} (h2 : m2 ≠ 0) (e2 : ℤ) :
    decide (ratOf n1 m1 e1 / ratOf n2 m2 e2 < 0) = (n1 != n2) := by
  have hn1 := ratOf_neg_iff (n := n1) h1 e1
  have hn2 := ratOf_neg_iff (n := n2) h2 e2
  have h10 : ratOf n1 m1 e1 ≠ 0 := mt ratOf_eq_zero_iff.mp h1
  have h20 : ratOf n2 m2 e2 ≠ 0 := mt ratOf_eq_zero_iff.mp h2
  rw [Bool.eq_iff_iff, decide_eq_true_iff, div_neg_iff, hn1, hn2, ← not_le, ← not_le, le_iff_lt_or_eq, le_iff_lt_or_eq, hn1, hn2]
  cases n1 <;> cases n2 <;> simp [h10, h20]

theorem fDiv_rounded (t : Fmt) (rm : Rm) (n1 : Bool) {m1 : ℕ} (e1 : ℤ) (n2 : Bool) {m2 : ℕ} (e2 : ℤ) (h1 : m1 ≠ 0) (h2 : m2 ≠ 0) :
    RoundedTo t rm false (ratOf n1 m1 e1 / ratOf n2 m2 e2) (fDiv t rm (.fin n1 m1 e1) (.fin n2 m2 e2)) := by
  have hq := pow_le_quot (p := t.fbits + 1) h1 h2
  unfold RoundedTo fDiv
  rw [ratOf_div_neg h1 e1 h2 e2]
  simp only [if_neg h1, if_neg h2]
  have hpos := Nat.two_pow_pos (t.fbits + 1 + 3)
  exact roundTo_rounded rm false _ (cutAt_quot (t.fbits + 1) m1 h2 (e1 - e2) (ratOf_div ..)) (by omega)
    (topUnit_of_bits (le_trans (Nat.pow_le_pow_right two_pos (by omega)) hq))

theorem fSqrt_rounded (t : Fmt) (rm : Rm) {m : ℕ} (e : ℤ) (hm : m ≠ 0) :
    Rounded t rm false false (fun q => q < 0 ∨ q * q < ratOf false m e) (fun q => 0 ≤ q ∧ q * q = ratOf false m e)
      (fSqrt t rm (.fin false m e)) := by
  unfold fSqrt
  dsimp only
  rw [if_neg hm, if_neg Bool.false_ne_true, isqrt_log2]
  obtain ⟨sh, hsh, hle, heven⟩ : ∃ sh : ℕ,
      (if (e - (2 * (t.fbits + 4) : ℕ)) % 2 = 0 then 2 * (t.fbits + 4) else 2 * (t.fbits + 4) + 1) = sh ∧
      2 * (t.fbits + 4) ≤ sh ∧ (e - sh) % 2 = 0 := ⟨_, rfl, by split <;> omega, by split <;> push_cast <;> omega⟩
  rw [hsh]
  have hv : ratOf false m e = (m * 2 ^ sh : ℕ) * (2 : ℚ) ^ (2 * ((e - sh) / 2)) := by
    rw [show 2 * ((e - sh) / 2) = e - sh by omega, zpow_sub₀ two_ne_zero, zpow_natCast]
    push_cast
    field_simp
    simp [ratOf]
  have hroot : 2 ^ (t.fbits + 4) ≤ Nat.sqrt (m * 2 ^ sh) := by
    rw [Nat.le_sqrt, ← Nat.pow_add, ← two_mul]
    exact (Nat.pow_le_pow_right two_pos hle).trans (Nat.le_mul_of_pos_left _ (Nat.pos_of_ne_zero hm))
  have hpos := Nat.two_pow_pos (t.fbits + 4)
  refine roundTo_rounded rm false _ (cutAt_sqrt _ _ hv) (by omega) (topUnit_of_bits ?_)
  rw [pow_succ'] at hroot
  omega

theorem roundOnce : RoundOnce := by
  refine ⟨fun t rm sat n m e hm => roundTo_exact t rm sat n hm e, ?add, ?mul, ?div, ?fma, fun t rm n m e => ⟨?_, ?_, ?_⟩⟩
  case add =>
    intro t rm n1 m1 e1 n2 m2 e2 v hv
    exact roundTo_sumFin t rm n1 m1 e1 n2 m2 e2 hv rfl
  case mul =>
    intro t rm n1 m1 e1 n2 m2 e2 v hv
    exact roundTo_value t rm _ _ _ (hv.trans (ratOf_mul ..))
  case div =>
    rintro t rm n1 m1 e1 n2 m2 e2 v rfl
    refine ⟨fDiv_rounded t rm n1 e1 n2 e2, fun h1 h2 => by simp [fDiv, h1, h2], fun h1 => ?_⟩
    by_cases h2 : m2 = 0 <;> simp [fDiv, h1, h2, invalid]
  case fma =>
    intro t rm n1 m1 e1 n2 m2 e2 n3 m3 e3 v hv
    have hsign (a x : Bool) : (if a = n3 then a else x) = if a = n3 then n3 else x := by split <;> simp_all
    have h := roundTo_sumFin t rm (n1 != n2) (m1 * m2) (e1 + e2) n3 m3 e3 (hv.trans (by rw [ratOf_mul])) rfl
    rw [hsign] at h
    exact h
  · rintro hm rfl
    exact fSqrt_rounded t rm e hm
  · rintro hm rfl
    simp [fSqrt, hm, invalid]
  · rintro rfl
    rfl

/-! ## Patterns and their values (R129, R130) -/

theorem two_pow_width (t : Fmt) : 2 ^ t.width = 2 * 2 ^ (t.width - 1) := by cases t <;> rfl

theorem maxBits_lt (t : Fmt) : t.maxBits < 2 ^ (t.width - 1) := by cases t <;> decide

theorem infBits_lt (t : Fmt) : t.infBits < 2 ^ (t.width - 1) := by cases t <;> decide

/-- A pattern is its sign and what is under it. -/
theorem sign_split {t : Fmt} {x : ℕ} (hx : x < 2 ^ t.width) :
    x = t.signBits (x.testBit (t.width - 1)) + x % 2 ^ (t.width - 1) := by
  have hbit := Nat.testBit_eq_decide_div_mod_eq (x := x) (i := t.width - 1)
  have hdm := Nat.div_add_mod x (2 ^ (t.width - 1))
  have hlt : x / 2 ^ (t.width - 1) < 2 := Nat.div_lt_of_lt_mul (by rwa [mul_comm, ← two_pow_width])
  rw [hbit, Fmt.signBits]
  rcases Nat.le_one_iff_eq_zero_or_eq_one.mp (Nat.lt_succ_iff.mp hlt) with h | h
  · rw [h] at hdm ⊢
    simpa using hdm.symm
  · rw [h] at hdm ⊢
    simpa using hdm.symm

theorem sign_of_split (t : Fmt) (neg : Bool) {a : ℕ} (ha : a < 2 ^ (t.width - 1)) :
    (t.signBits neg + a).testBit (t.width - 1) = neg ∧ (t.signBits neg + a) % 2 ^ (t.width - 1) = a := by
  unfold Fmt.signBits
  cases neg
  · simp [Nat.testBit_lt_two_pow ha, Nat.mod_eq_of_lt ha]
  · simp [Nat.testBit_two_pow_add_eq, Nat.testBit_lt_two_pow ha, Nat.mod_eq_of_lt ha]

/-- The patterns that are no number: E4M3's one NaN, and the exponent of all ones where the format has infinities. -/
theorem maxBits_lt_iff {t : Fmt} {a : ℕ} (ha : a < 2 ^ (t.width - 1)) :
    t.maxBits < a ↔ (t = .e4m3 ∧ a = 0x7F) ∨ (t.hasInf = true ∧ a / 2 ^ t.fbits = 2 ^ t.ebits - 1) := by
  cases t <;> simp [Fmt.maxBits, Fmt.hasInf, Fmt.infBits, Fmt.ebits, Fmt.fbits, Fmt.width] at * <;> omega

theorem infBits_eq_iff {t : Fmt} {a : ℕ} (h : a / 2 ^ t.fbits = 2 ^ t.ebits - 1) : a = t.infBits ↔ a % 2 ^ t.fbits = 0 := by
  have := Nat.div_add_mod a (2 ^ t.fbits)
  rw [h, mul_comm] at this
  unfold Fmt.infBits
  omega

/-- The value under the sign: so many units of a step, or an infinity or not a number (Table 7-1). -/
theorem decode_split (t : Fmt) (neg : Bool) {a : ℕ} (ha : a < 2 ^ (t.width - 1)) :
    (a ≤ t.maxBits ∧ ∃ m d, Units t m d ∧ a = m + d * 2 ^ t.fbits ∧ t.decode (t.signBits neg + a) = .fin neg m (t.emin + d)) ∨
    (t.maxBits < a ∧ ((t.hasInf = true ∧ a = t.infBits ∧ t.decode (t.signBits neg + a) = .inf neg) ∨
      ∃ s, t.decode (t.signBits neg + a) = .nan s)) := by
  obtain ⟨hbit, hmod⟩ := sign_of_split t neg ha
  have hmax := maxBits_lt_iff ha
  unfold Fmt.decode
  dsimp only
  rw [hbit, hmod]
  by_cases h1 : t = .e4m3 ∧ a = 0x7F
  · refine .inr ⟨hmax.mpr (.inl h1), .inr ⟨false, if_pos (by simp [h1])⟩⟩
  rw [if_neg (by simpa using h1)]
  by_cases h2 : t.hasInf = true ∧ a / 2 ^ t.fbits = 2 ^ t.ebits - 1
  · refine .inr ⟨hmax.mpr (.inr h2), ?_⟩
    rw [if_pos (by simpa using h2)]
    by_cases h3 : a % 2 ^ t.fbits = 0
    · exact .inl ⟨h2.1, (infBits_eq_iff h2.2).mpr h3, if_pos (by simpa using h3)⟩
    · exact .inr ⟨_, if_neg (by simpa using h3)⟩
  rw [if_neg (by simpa using h2)]
  refine .inl ⟨not_lt.mp fun h => (hmax.mp h).elim h1 h2, ?_⟩
  have hdm := Nat.div_add_mod a (2 ^ t.fbits)
  have hlt := Nat.mod_lt a (Nat.two_pow_pos t.fbits)
  by_cases h3 : a / 2 ^ t.fbits = 0
  · rw [h3, mul_zero, zero_add] at hdm
    exact ⟨a % 2 ^ t.fbits, 0, ⟨by omega, .inl rfl⟩, by omega, by rw [if_pos h3, Nat.cast_zero, add_zero]⟩
  · obtain ⟨d, hd⟩ := Nat.exists_eq_succ_of_ne_zero h3
    refine ⟨2 ^ t.fbits + a % 2 ^ t.fbits, d, ⟨by omega, .inr (by omega)⟩, ?_, ?_⟩
    · rw [hd, Nat.succ_eq_add_one, mul_add, mul_one, mul_comm] at hdm
      omega
    · rw [if_neg h3, hd]
      congr 1
      push_cast
      ring

theorem mod_width_lt (t : Fmt) (x : ℕ) : x % 2 ^ (t.width - 1) < 2 ^ (t.width - 1) := Nat.mod_lt _ (Nat.two_pow_pos _)

/-- A pattern under the largest finite magnitude is the number that it counts. -/
theorem decode_finite (t : Fmt) (neg : Bool) {b : ℕ} (hb : b ≤ t.maxBits) :
    ∃ m e, t.decode (t.signBits neg + b) = .fin neg m e ∧ magOf t b = m * (2 : ℚ) ^ e := by
  rcases decode_split t neg (hb.trans_lt (maxBits_lt t)) with ⟨-, m, d, hu, rfl, h⟩ | ⟨h, -⟩
  · exact ⟨m, _, h, magOf_units hu⟩
  · omega

/-- A pattern that stands for a number, taken apart. -/
theorem of_decode_fin {t : Fmt} {x : ℕ} {n : Bool} {m : ℕ} {e : ℤ} (hx : x < 2 ^ t.width) (h : t.decode x = .fin n m e) :
    x.testBit (t.width - 1) = n ∧ x = t.signBits n + x % 2 ^ (t.width - 1) ∧ x % 2 ^ (t.width - 1) ≤ t.maxBits ∧
      magOf t (x % 2 ^ (t.width - 1)) = m * (2 : ℚ) ^ e ∧ ∃ d : ℕ, e = t.emin + d ∧ Units t m d := by
  have hs := sign_split hx
  rw [hs] at h
  rcases decode_split t (x.testBit (t.width - 1)) (mod_width_lt t x) with ⟨hmax, m', d, hu, ha, h'⟩ | ⟨-, ⟨-, -, h'⟩ | ⟨s, h'⟩⟩
  · rw [h'] at h
    injection h with hn hm he
    subst hn hm he
    exact ⟨rfl, hs, hmax, by rw [ha]; exact magOf_units hu, d, rfl, hu⟩
  · rw [h'] at h; cases h
  · rw [h'] at h; cases h

theorem of_decode_inf {t : Fmt} {x : ℕ} {n : Bool} (hx : x < 2 ^ t.width) (h : t.decode x = .inf n) :
    x.testBit (t.width - 1) = n ∧ x = t.signBits n + t.infBits := by
  have hs := sign_split hx
  rw [hs] at h
  rcases decode_split t (x.testBit (t.width - 1)) (mod_width_lt t x) with ⟨-, m', d, -, -, h'⟩ | ⟨-, ⟨-, ha, h'⟩ | ⟨s, h'⟩⟩
  · rw [h'] at h; cases h
  · rw [h'] at h
    injection h with hn
    subst hn
    exact ⟨rfl, ha ▸ hs⟩
  · rw [h'] at h; cases h

/-! ## Values that a format holds (R133) -/

theorem roundsTo_exact {t : Fmt} (rm : Rm) (neg : Bool) {V : ℚ} {b : ℕ} (hV : V = magOf t b) :
    RoundsTo t rm neg (· < V) (· = V) b := by
  subst hV
  have hnext := magOf_strictMono t (Nat.lt_succ_self b)
  have hprev : b = 0 ∨ magOf t (b - 1) < magOf t b := (Nat.eq_zero_or_pos b).imp_right fun h => magOf_strictMono t (by omega)
  rw [Nat.succ_eq_add_one] at hnext
  rcases away_or_toward_or_nearest rm neg with rfl | h | h
  · exact ⟨by linarith, fun h => by linarith, hprev.imp_right fun h => .inl (by linarith)⟩
  · rw [roundsTo_away h]
    exact ⟨lt_irrefl _, hprev⟩
  · rw [roundsTo_toward h]
    exact ⟨.inr rfl, hnext.le.not_gt, hnext.ne'⟩

/-- A value that the format holds rounds to itself, with no flag. -/
theorem roundTo_of_magOf {t : Fmt} (rm : Rm) (sat neg : Bool) {m : ℕ} {e : ℤ} {b : ℕ} (hb : b ≤ t.maxBits)
    (h : magOf t b = m * (2 : ℚ) ^ e) : roundTo t rm sat neg m e = (t.signBits neg + b, 0) := by
  by_cases hm : m = 0
  · subst hm
    have hz : b = 0 := (magOf_strictMono t).injective (by rw [h, magOf_zero, Nat.cast_zero, zero_mul])
    rw [hz, roundTo_zero, add_zero]
  · have hc := cutAt_exact (m * (2 : ℚ) ^ e) (topUnit t m e - 2)
    have hbits := roundsTo_unique hc (roundsTo_roundBits rm neg hc hm (by omega)) (roundsTo_exact rm neg h.symm)
    have hx := roundUnits_exact_iff (t := t) rm neg hc hm (by omega)
    rw [hbits, h] at hx
    have hx' : (roundUnits t rm neg m e).2 = false := by simpa using hx
    rw [roundTo_eq t rm sat neg hm, hbits, hx', if_neg (by omega)]
    simp

theorem roundExact : RoundExact := by
  intro t rm sat x n m e hx h
  obtain ⟨-, hs, hmax, hmag, -⟩ := of_decode_fin hx h
  rw [roundTo_of_magOf rm sat n hmax hmag, ← hs]

/-! ## NaN operands (R130, R134, R141) -/

/-- Addition, multiplication and division leave a NaN operand to `nanRes`. -/
theorem arith_nan (t : Fmt) (rm : Rm) {a b : FVal} (h : a.isNan = true ∨ b.isNan = true) :
    fAdd t rm a b = nanRes t [a, b] ∧ fMul t rm a b = nanRes t [a, b] ∧ fDiv t rm a b = nanRes t [a, b] := by
  match a, b, h with
  | .nan _, .nan _, _ | .nan _, .inf _, _ | .nan _, .fin .., _ | .inf _, .nan _, _ | .fin .., .nan _, _ => exact ⟨rfl, rfl, rfl⟩
  | .inf _, .inf _, h | .inf _, .fin .., h | .fin .., .inf _, h | .fin .., .fin .., h => simp [FVal.isNan] at h

theorem nanRules : NanRules := by
  intro t rm a b c h
  obtain ⟨hadd, hmul, hdiv⟩ := arith_nan t rm h
  refine ⟨fun r hr => ?_, fun hz => ?_, fun w n m e => ⟨rfl, rfl⟩, fun n => rfl⟩
  · rw [hadd, hmul, hdiv] at hr
    simp only [List.mem_cons, List.not_mem_nil, or_false, or_self] at hr
    rw [hr]
    simp [nanRes]
  · have hn : (a.isNan || b.isNan || c.isNan) = true := by rcases h with h | h <;> simp [h]
    unfold fFma
    rw [hz, hn]
    simp [nanRes]

/-! ## Infinite operands (R140, R134) -/

theorem infinite_operands (t : Fmt) (rm : Rm) (n k : Bool) (m : ℕ) (b : FVal) (n3 : Bool) (m3 : ℕ) (e3 : ℤ)
    (hb : b = .inf k ∨ ∃ e2, b = .fin k (m + 1) e2) : ∀ p, p = fFma t rm (.inf n) b ∨ p = fFma t rm b (.inf n) →
      p (.fin n3 m3 e3) = infTo t (n != k) ∧ p (.inf n3) = if n3 = (n != k) then infTo t n3 else invalid t := by
  have hk : (k != n) = (n != k) := by cases n <;> cases k <;> rfl
  rcases hb with rfl | ⟨e2, rfl⟩ <;> rintro p (rfl | rfl)
  all_goals exact ⟨by simp [fFma, zeroInf, FVal.isNan, FVal.sign, hk], by
    simp only [fFma, zeroInf, FVal.isNan, FVal.sign, hk, beq_iff_eq, Bool.or_self, Bool.false_eq_true, if_false,
      Nat.add_eq_zero_iff, one_ne_zero, and_false]
    exact if_congr eq_comm rfl rfl⟩

/-! ## FRND (R140) -/

/-- A rounding of a magnitude, with its sign, is that of the number. -/
theorem roundsInt_of_roundsNat {rm : Rm} {n : Bool} {y : ℚ} {N : ℕ} (hy : 0 ≤ y) (h : RoundsNat rm n y N) :
    RoundsInt rm (if n then -y else y) (if n then -(N : ℤ) else N) := by
  have hneg (k : ℚ) : |-y - -k| = |y - k| := by rw [neg_sub_neg, abs_sub_comm]
  rcases away_or_toward_or_nearest rm n with rfl | hm | hm
  · obtain ⟨h1, h2, h3⟩ := h
    have habs : |y - N| ≤ 1 / 2 := abs_le.mpr ⟨by linarith, by linarith⟩
    have heven (h : |y - N| = 1 / 2) : Even (N : ℤ) := by
      refine (Int.even_coe_nat N).mpr (h3 ?_)
      rcases (abs_eq (by norm_num)).mp h with h | h
      · exact .inr (by linarith)
      · exact .inl (by linarith)
    cases n
    · exact ⟨habs, heven⟩
    · have hcast : (((if true then -(N : ℤ) else N) : ℤ) : ℚ) = -N := by simp
      refine ⟨by rw [hcast]; exact (hneg N).trans_le habs, fun h => ?_⟩
      rw [hcast] at h
      exact (heven ((hneg N).symm.trans h)).neg
  · rw [roundsNat_away hm] at h
    have hceil : ⌈y⌉ = N := Int.ceil_eq_iff.mpr (by exact_mod_cast h)
    rcases hm with ⟨rfl, rfl⟩ | ⟨rfl, rfl⟩
    · simp [RoundsInt, hceil]
    · simp [RoundsInt, Int.floor_neg, hceil]
  · rw [roundsNat_toward hm] at h
    have hfloor : ⌊y⌋ = N := Int.floor_eq_iff.mpr (by exact_mod_cast h)
    rcases hm with rfl | ⟨rfl, rfl⟩ | ⟨rfl, rfl⟩
    · cases n
      · simp [RoundsInt, hy.not_gt, hfloor]
      · by_cases h0 : y = 0
        · subst h0
          rw [Int.floor_zero] at hfloor
          simp [RoundsInt, ← hfloor]
        · simp [RoundsInt, lt_of_le_of_ne hy (Ne.symm h0), Int.ceil_neg, hfloor]
    · simp [RoundsInt, Int.ceil_neg, hfloor]
    · simp [RoundsInt, hfloor]

theorem ratOf_eq_ite (n : Bool) (m : ℕ) (e : ℤ) : ratOf n m e = if n then -((m : ℚ) * 2 ^ e) else m * 2 ^ e := by
  cases n <;> simp [ratOf]

/-- The number rounded to an integer, as FRND and CVT.FI round it. -/
theorem roundInt_value (rm : Rm) (n : Bool) (m : ℕ) (e : ℤ) :
    RoundsInt rm (ratOf n m e) (if n then -((roundInt rm n m (-e)).1 : ℤ) else (roundInt rm n m (-e)).1) ∧
    ((roundInt rm n m (-e)).2 = true ↔
      (((if n then -((roundInt rm n m (-e)).1 : ℤ) else (roundInt rm n m (-e)).1) : ℤ) : ℚ) ≠ ratOf n m e) := by
  obtain ⟨hr, hx⟩ := roundInt_spec rm n m (-e)
  rw [neg_neg] at hr hx
  rw [ratOf_eq_ite]
  refine ⟨roundsInt_of_roundsNat (by positivity) hr, hx.trans ?_⟩
  cases n <;> simp [eq_comm]

/-- A format holds every integer up to 2^fbits. -/
theorem exists_magOf_nat (t : Fmt) {N : ℕ} (hN : N ≤ 2 ^ t.fbits) : ∃ b, b ≤ t.maxBits ∧ magOf t b = N := by
  have hemin : t.emin + t.fbits ≤ 0 := by cases t <;> decide
  have hmax : 2 ^ t.fbits + (-t.emin).toNat * 2 ^ t.fbits ≤ t.maxBits := by cases t <;> decide
  have hone : magOf t (2 ^ t.fbits + (-t.emin).toNat * 2 ^ t.fbits) = (2 ^ t.fbits : ℕ) := by
    rw [magOf_units ⟨by have := Nat.two_pow_pos t.fbits; omega, .inr le_rfl⟩, ulp, Int.toNat_of_nonneg (by omega), add_neg_cancel,
      zpow_zero, mul_one]
  by_cases h0 : N = 0
  · exact ⟨0, Nat.zero_le _, by rw [h0, magOf_zero, Nat.cast_zero]⟩
  have hlo := Nat.log2_self_le h0
  have hhi := Nat.lt_log2_self (n := N)
  have hlog : Nat.log2 N ≤ t.fbits := (Nat.pow_le_pow_iff_right one_lt_two).mp (hlo.trans hN)
  have hpow : 2 ^ t.fbits = 2 ^ Nat.log2 N * 2 ^ (t.fbits - Nat.log2 N) := by
    rw [← Nat.pow_add, Nat.add_sub_cancel' hlog]
  have hu : Units t (N * 2 ^ (t.fbits - Nat.log2 N)) ((Nat.log2 N : ℤ) - t.fbits - t.emin).toNat := by
    constructor
    · calc N * 2 ^ (t.fbits - Nat.log2 N) < 2 ^ (Nat.log2 N + 1) * 2 ^ (t.fbits - Nat.log2 N) := by gcongr
        _ = 2 * 2 ^ t.fbits := by rw [hpow]; ring
    · right
      rw [hpow]
      gcongr
  have hmag := magOf_units hu
  have hval : ((N * 2 ^ (t.fbits - Nat.log2 N) : ℕ) : ℚ) * ulp t ((Nat.log2 N : ℤ) - t.fbits - t.emin).toNat = N := by
    have hzero : (t.fbits : ℤ) - (Nat.log2 N : ℕ) + (t.emin + ((Nat.log2 N : ℕ) - t.fbits - t.emin)) = 0 := by ring
    rw [ulp, Int.toNat_of_nonneg (by omega), Nat.cast_mul, Nat.cast_pow, Nat.cast_ofNat, mul_assoc, ← zpow_natCast,
      ← zpow_add₀ two_ne_zero, Nat.cast_sub hlog, hzero, zpow_zero, mul_one]
  refine ⟨_, ((magOf_strictMono t).le_iff_le.mp ?_).trans hmax, hmag.trans hval⟩
  rw [hmag, hval, hone]
  exact_mod_cast hN

/-- What a pattern with a sign stands for. -/
theorem isNum_of_magOf {t : Fmt} (n : Bool) {b : ℕ} (hb : b ≤ t.maxBits) :
    IsNum t (t.signBits n + b) (if n then -magOf t b else magOf t b) := by
  obtain ⟨m, e, hd, hm⟩ := decode_finite t n hb
  exact ⟨n, m, e, hd, by rw [ratOf_eq_ite, hm]⟩

theorem frnd_values (t : Fmt) (rm : Rm) (nx : Bool) (x : ℕ) (n : Bool) (m : ℕ) (e : ℤ) (r : ℕ × FpFlags) (hx : x < 2 ^ t.width)
    (hd : t.decode x = .fin n m e) (hr : r = fRnd t rm nx (.fin n m e)) : ∃ z : ℤ, RoundsInt rm (ratOf n m e) z ∧ IsNum t r.1 z ∧
      r.1.testBit (t.width - 1) = n ∧ r.2 = if nx = true ∧ (z : ℚ) ≠ ratOf n m e then fNX else 0 := by
  obtain ⟨hbit, hs, hmax, hmag, d, -, hu⟩ := of_decode_fin hx hd
  obtain ⟨hz, hexact⟩ := roundInt_value rm n m e
  subst hr
  unfold fRnd
  dsimp only
  by_cases he : 0 ≤ e
  · have hint : ((if n then -((roundInt rm n m (-e)).1 : ℤ) else (roundInt rm n m (-e)).1 : ℤ) : ℚ) = ratOf n m e := by
      by_contra h
      have := hexact.mpr h
      simp [roundInt, he] at this
    rw [if_pos he, roundTo_of_magOf .rne false n hmax hmag, ← hs]
    exact ⟨_, hz, ⟨n, m, e, hd, hint⟩, hbit, by simp [hint]⟩
  · obtain ⟨hN, -⟩ := roundInt_spec rm n m (-e)
    rw [neg_neg] at hN
    have hhalf : (m : ℚ) * 2 ^ e ≤ (2 ^ t.fbits : ℕ) := by
      calc (m : ℚ) * 2 ^ e ≤ (2 * 2 ^ t.fbits : ℕ) * 2 ^ (-1 : ℤ) := by
            gcongr
            · exact hu.1.le
            · exact one_le_two
            · omega
        _ = (2 ^ t.fbits : ℕ) := by push_cast; ring
    obtain ⟨b, hb, hbN⟩ := exists_magOf_nat t (hN.le_of_le hhalf)
    have hround := roundTo_of_magOf (e := 0) .rne false n hb (by rw [hbN, zpow_zero, mul_one])
    have hnum := isNum_of_magOf n hb
    rw [if_neg he, hround]
    refine ⟨_, hz, ?_, (sign_of_split t n (hb.trans_lt (maxBits_lt t))).1, ?_⟩
    · rw [hbN] at hnum
      convert hnum using 1
      cases n <;> simp
    · exact if_congr (by rw [Bool.and_eq_true, and_comm, hexact]) rfl rfl

/-! ## FMIN, FMAX and FCLASS (R141, R142) -/

theorem repack_decode {t : Fmt} {x : ℕ} (hx : x < 2 ^ t.width) (h : (t.decode x).isNan = false) : repack t (t.decode x) = x := by
  match hd : t.decode x with
  | .nan _ => rw [hd] at h; cases h
  | .inf n => exact (of_decode_inf hx hd).2.symm
  | .fin n m e => exact congrArg Prod.fst (roundExact t .rne false x n m e hx hd)

/-- The same number under the same sign is the same pattern. -/
theorem eq_of_same {t : Fmt} {x y : ℕ} (hx : x < 2 ^ t.width) (hy : y < 2 ^ t.width) (h : Same (t.decode x) (t.decode y))
    (hs : (t.decode x).sign = (t.decode y).sign) : x = y := by
  match hdx : t.decode x, hdy : t.decode y with
  | .fin n m e, .fin n' m' e' =>
    rw [hdx, hdy] at h hs
    obtain ⟨-, hsx, -, hmx, -⟩ := of_decode_fin hx hdx
    obtain ⟨-, hsy, -, hmy, -⟩ := of_decode_fin hy hdy
    obtain rfl : n = n' := hs
    have hmag : magOf t (x % 2 ^ (t.width - 1)) = magOf t (y % 2 ^ (t.width - 1)) := by
      rw [hmx, hmy, ← abs_ratOf n, ← abs_ratOf n]
      exact congrArg _ h
    rw [hsx, hsy, (magOf_strictMono t).injective hmag]
  | .inf n, .inf n' =>
    rw [hdx, hdy] at hs
    obtain rfl : n = n' := hs
    rw [(of_decode_inf hx hdx).2, (of_decode_inf hy hdy).2]
  | .nan _, _ | .inf _, .nan _ | .inf _, .fin .. | .fin .., .nan _ | .fin .., .inf _ => rw [hdx, hdy] at h; exact h.elim

/-- Of two numbers one is given, with no flag: the lesser by the order that puts −0 below +0, or the greater. -/
theorem fMinMax_numbers {t : Fmt} {x y : ℕ} (hx : x < 2 ^ t.width) (hy : y < 2 ^ t.width) (ha : (t.decode x).isNan = false)
    (hb : (t.decode y).isNan = false) (w : Bool) : fMinMax t w (t.decode x) (t.decode y) =
      (if (fLt (t.decode x) (t.decode y) || (fEq (t.decode x) (t.decode y) && (t.decode x).sign && !(t.decode y).sign)) != w
        then x else y, 0) := by
  have hsig {a : FVal} (h : a.isNan = false) : a.isSig = false := by cases a <;> simp_all [FVal.isNan, FVal.isSig]
  unfold fMinMax
  rw [ha, hb, hsig ha, hsig hb]
  simp only [Bool.or_self, Bool.and_self, Bool.false_eq_true, if_false]
  split
  · rw [repack_decode hx ha]
  · rw [repack_decode hy hb]

theorem below_asymm {a b : FVal} (h : Below a b) : ¬ Below b a := by
  match a, b, h with
  | .fin .., .fin .., h => exact not_lt.mpr (le_of_lt h)
  | .inf n, .inf n', h => exact fun h' => by simp [h.1] at h'; exact absurd h'.2 (by simp)
  | .inf n, .fin .., h => exact fun h' => absurd (h.symm.trans h') (by simp)
  | .fin .., .inf n, h => exact fun h' => absurd (h.symm.trans h') (by simp)

theorem fMinMax_order {t : Fmt} {x y : ℕ} (hx : x < 2 ^ t.width) (hy : y < 2 ^ t.width) (ha : (t.decode x).isNan = false)
    (hb : (t.decode y).isNan = false) :
    (Below (t.decode x) (t.decode y) → fMinMax t false (t.decode x) (t.decode y) = (x, 0) ∧
      fMinMax t true (t.decode x) (t.decode y) = (y, 0)) ∧
    (Below (t.decode y) (t.decode x) → fMinMax t false (t.decode x) (t.decode y) = (y, 0) ∧
      fMinMax t true (t.decode x) (t.decode y) = (x, 0)) ∧
    (Same (t.decode x) (t.decode y) → fMinMax t false (t.decode x) (t.decode y) = (if (t.decode x).sign then x else y, 0) ∧
      fMinMax t true (t.decode x) (t.decode y) = (if (t.decode y).sign then x else y, 0)) := by
  have hlt := fLt_iff_below (t.decode x) (t.decode y)
  have hgt := fLt_iff_below (t.decode y) (t.decode x)
  have heq := fEq_iff_same ha hb
  have hnot := same_iff_not_below ha hb
  rw [fMinMax_numbers hx hy ha hb, fMinMax_numbers hx hy ha hb]
  refine ⟨fun h => ?_, fun h => ?_, fun h => ?_⟩
  · simp [hlt.mpr h]
  · have h2 : fLt (t.decode x) (t.decode y) = false := by simpa [← hlt] using below_asymm h
    simp [fEq, h2, hgt.mpr h]
  · have h2 : fLt (t.decode x) (t.decode y) = false := by simpa [← hlt] using (hnot.mp h).1
    rw [h2, heq.mpr h]
    by_cases hs : (t.decode x).sign = (t.decode y).sign
    · obtain rfl := eq_of_same hx hy h hs
      simp
    · revert hs
      cases (t.decode x).sign <;> cases (t.decode y).sign <;> simp

theorem fMinMax_nan {t : Fmt} {y : ℕ} (hy : y < 2 ^ t.width) (hb : (t.decode y).isNan = false) (w s : Bool) :
    fMinMax t w (.nan s) (t.decode y) = (y, if s then fNV else 0) ∧
      fMinMax t w (t.decode y) (.nan s) = (y, if s then fNV else 0) := by
  have hr := repack_decode hy hb
  match hd : t.decode y with
  | .nan _ => rw [hd] at hb; cases hb
  | .inf n => rw [hd] at hr; simp [fMinMax, FVal.isNan, FVal.isSig, hr]
  | .fin n m e => rw [hd] at hr; simp [fMinMax, FVal.isNan, FVal.isSig, hr]

theorem fClass_fin {t : Fmt} {x : ℕ} {n : Bool} {m : ℕ} {e : ℤ} {k : ℕ} (hx : x < 2 ^ t.width) (hd : t.decode x = .fin n m e)
    (hk : k = (if ratOf n m e = 0 then 3 else if |ratOf n m e| < (2 : ℚ) ^ (t.emin + t.fbits) then 2 else 1)) :
    fClass t x = 2 ^ (if n then k else 7 - k) := by
  obtain ⟨hbit, -, -, hmag, -⟩ := of_decode_fin hx hd
  have hzero : ratOf n m e = 0 ↔ x % 2 ^ (t.width - 1) = 0 := by
    rw [← abs_eq_zero, abs_ratOf, ← hmag, ← magOf_zero t, (magOf_strictMono t).injective.eq_iff]
  have hsub : |ratOf n m e| < (2 : ℚ) ^ (t.emin + t.fbits) ↔ x % 2 ^ (t.width - 1) < 2 ^ t.fbits := by
    rw [abs_ratOf, ← hmag, ← magOf_smallest_normal, (magOf_strictMono t).lt_iff_lt]
  subst hk
  unfold fClass
  rw [hd, hbit]
  simp only [hzero, hsub]
  cases n <;> rfl

theorem floatSpecials : FloatSpecials := by
  refine ⟨?infinite, frnd_values, ?minmax,
    fun t x hx => ⟨fun n hd => ?_, fun s hd => ?_, fun n m e k hd hk => fClass_fin hx hd hk⟩⟩
  case infinite =>
    rintro t rm n k m e inf inv hinf rfl
    obtain rfl : inf = infTo t := funext hinf
    have hk : (k != n) = (n != k) := by cases n <;> cases k <;> rfl
    refine ⟨rfl, rfl, by simp [fAdd], by simp [fAdd, invalid], rfl, rfl, ?_, rfl, rfl, ?_, rfl, fun _ => rfl, fun c => ⟨rfl, ?_⟩,
      fun k2 m2 e2 => ?_, fun b n3 m3 e3 hb => infinite_operands t rm n k m b n3 m3 e3 hb⟩
    · simp [fMul, hk, invalid]
    · simp [fDiv, hk]
    · simp [fFma, zeroInf, invalid]
    · simp [fFma, zeroInf, FVal.isNan]
  case minmax =>
    rintro t x y _ _ hx hy rfl rfl
    refine ⟨fMinMax_order hx hy, fun w s hb => fMinMax_nan hy hb w s, fun w s s' => ?_⟩
    simp [fMinMax, FVal.isNan, FVal.isSig]
  · unfold fClass
    rw [hd]
    cases n <;> rfl
  · unfold fClass
    rw [hd]
    cases s <;> rfl

end Sys2Proof.Proofs

/-! ## The statements -/

namespace Sys2Proof.Settled
open Sys2Proof Sys2Proof.Machine Sys2Proof.Claims Sys2Proof.Laws Sys2Proof.Proofs

/-- Settles O39: a number's cut says which pattern it rounds to, the model's m × 2^e stands for the cut, and a format's values
round to their own patterns. -/
theorem floatRounding : Obligations.FloatRounding := ⟨roundOnce, roundExact, nanRules, floatSpecials⟩

end Sys2Proof.Settled
end

section
/-! PROOF. The family "floating", forms (O38). What a floating form gives once its flags are known, then the skeletons of the
scalar and the lane forms, and each form through its skeleton. -/

namespace Sys2Proof.Proofs
open Sys2Proof Sys2Proof.Machine Sys2Proof.Claims Sys2Proof.Laws

/-! ## The end of a floating form (R137, R139) -/

theorem fpxHits_orFlags (f : Firing) (a b : FpFlags) : fpxHits (f.orFlags a) b = fpxHits f b := by
  unfold fpxHits
  rw [enables_orFlags]

theorem fpEnd_eq (s : State) (n sl : Nat) (f : Firing) (fl : FpFlags) (k : Firing → Firing) : fpEnd s n sl f fl k =
    if fpxHits f fl then takeTrap (s.setFiring n sl (f.orFlags fl)) n sl (fpxCause fl)
    else s.setFiring n sl (k (f.orFlags fl)) := by
  unfold fpEnd
  dsimp only
  rw [fpxHits_orFlags]

theorem fpGives_fpEnd {i : Instr} {s : State} {n sl : Nat} {f : Firing} {fl : FpFlags} {k : Firing → Firing}
    (h : exec i s = .next (fpEnd s n sl f fl k)) : FpGives i s n sl f fl k := by
  rw [fpEnd_eq] at h
  exact ⟨fun hx => by rw [Gives, h, hx]; rfl, fun hx => by rw [h, hx]; rfl⟩

/-- A scalar form gives the one result that its meaning computes. -/
theorem scalarResult_gives {i : Instr} {s : State} {n sl : Nat} {f : Firing} (hi : Issues s n sl f) {h : Head} {l : Len}
    {d : BitVec 6} {narrow : Bool} {g : Firing → W64 × FpFlags} {r : Nat × FpFlags}
    (he : exec i s = scalarResult h l d narrow g s) (hg : g f = asW64 r) : FpScalarW narrow i s n sl f h l d r := by
  rw [scalarResult, withF_issues hi.1 hi.2] at he
  constructor
  · intro hen
    rw [Gives, he, if_neg (by simp [hen])]
  · intro hen
    refine fpGives_fpEnd ?_
    rw [he, if_pos hen, hg]
    rfl

theorem getLsbD_orAll (fls : List FpFlags) (k : Nat) : (orAll fls).getLsbD k = fls.any (·.getLsbD k) := by
  have key (acc : FpFlags) : (fls.foldl (· ||| ·) acc).getLsbD k = (acc.getLsbD k || fls.any (·.getLsbD k)) := by
    induction fls generalizing acc with
    | nil => simp
    | cons x xs ih => rw [List.foldl_cons, ih, BitVec.getLsbD_or, List.any_cons, Bool.or_assoc]
  rw [orAll, key]
  simp

/-- A lane's result is that of its elements r: their patterns side by side, and their flags. -/
def LaneResult (t : BitVec 2) (r : Nat → Nat × FpFlags) (x : W64 × FpFlags) : Prop :=
  x.1 = (if t.toNat < 2 then BitVec.ofNat 64 (r 0).1 else BitVec.ofNat 64 ((r 0).1 + (r 1).1 * 65536)) ∧
  ∀ k, x.2.getLsbD k = true ↔ ∃ j, j < elCount t ∧ (r j).2.getLsbD k = true

theorem laneFloat_gives {i : Instr} {s : State} {n sl : Nat} {f : Firing} (hi : Issues s n sl f) {h : Head} {l : Len}
    {d : BitVec 8} {t : BitVec 2} {wide : Bool} {g : Firing → Nat → W64 × FpFlags} {r : Nat → Nat → Nat × FpFlags}
    (he : exec i s = laneFloat h l d wide g s) (hg : ∀ L, LaneResult t (r L) (g f L)) (hw : wide = true → t.toNat < 2) :
    FpLane i s n sl f h l d t wide r := by
  rw [laneFloat, withF_issues hi.1 hi.2] at he
  refine ⟨orAll ((f.enLanes h).map fun L => (g f L).2), fun k => ?_, ?_⟩
  rotate_left
  · refine fpGives_fpEnd (he.trans (congrArg (fun k => Host.Outcome.next (fpEnd s n sl f _ k)) (funext fun f' => ?_)))
    cases wide
    · refine congrArg (f'.writeV h l d.toNat) (funext fun L => ?_)
      rw [(hg L).1]
      split <;> exact BitVec.setWidth_ofNat_of_le (by decide) _
    · refine congrArg (f'.writeV64 h l d.toNat) (funext fun L => ?_)
      rw [(hg L).1, if_pos (hw rfl)]
  · rw [getLsbD_orAll, List.any_map, any_enLanes]
    constructor
    · rintro ⟨L, hL, hen, hk⟩
      obtain ⟨j, hj, hk⟩ := ((hg L).2 k).mp hk
      exact ⟨L, j, hL, hen, hj, hk⟩
    · rintro ⟨L, j, hL, hen, hj, hk⟩
      exact ⟨L, hL, hen, ((hg L).2 k).mpr ⟨j, hj, hk⟩⟩

/-- One element a lane. -/
theorem laneResult_one {t : BitVec 2} (ht : t.toNat < 2) {r : Nat → Nat × FpFlags} {x : W64 × FpFlags} (h : x = asW64 (r 0)) :
    LaneResult t r x := by
  subst h
  refine ⟨by rw [if_pos ht]; rfl, fun k => ?_⟩
  rw [elCount, if_pos ht]
  simp [asW64]

/-- One element a lane or two, as `mapElems` computes them. -/
theorem laneResult_mapElems {t : BitVec 2} {xs : List (List Nat)} {op : List Nat → Nat × FpFlags}
    (hlen : (xs.headD []).length = elCount t) : LaneResult t (fun j => op (xs.map fun x => x.getD j 0)) (mapElems xs op) := by
  unfold mapElems joinElems
  rw [hlen]
  by_cases ht : t.toNat < 2
  · refine laneResult_one ht ?_
    simp [elCount, ht, List.range_succ, asW64, orAll]
  · refine ⟨?_, fun k => ?_⟩
    · simp [elCount, ht, List.range_succ]
    · rw [getLsbD_orAll]
      simp

theorem fsrcV_length (f : Firing) (t : BitVec 2) (L : Nat) (a : LSrc) : (f.fsrcV t L a).length = elCount t := by
  have hel (x : W32) : (elems t x).length = elCount t := by
    unfold elems elCount
    split <;> rfl
  unfold Firing.fsrcV
  split
  · simp [elCount]
  · split
    next h => rw [h]; rfl
    next => exact hel _
  · split
    next h => rw [h]; rfl
    next => exact hel _
  · exact hel _

theorem wide_one {t : BitVec 2} (h : (t == 1) = true) : t.toNat < 2 := by
  rw [beq_iff_eq.mp h]
  decide

/-! ## The skeletons of the floating forms -/

section
variable {i : Instr} {s : State} {n sl : Nat} {f : Firing}

theorem fExec_gives (hi : Issues s n sl f) {o : FOps} {g : Fmt → Rm → FVal → FVal → Nat × FpFlags}
    (he : exec i s = fExec o g s) :
    FpScalar i s n sl f o.h (lenB o.b) o.d (flushOut .f64 o.ftz
      (g .f64 (rmOf o.rm) (inF .f64 o.ftz (f.fsrcS .f64 o.a)) (inF .f64 o.ftz (f.fsrcSI .f64 o.b)))) :=
  scalarResult_gives hi he rfl

theorem fUnExec_gives (hi : Issues s n sl f) {o : FUnOps} {g : FVal → Nat × FpFlags} (he : exec i s = fUnExec o g s) :
    FpScalar i s n sl f o.h .l64 o.d (flushOut .f64 o.ftz (g (inF .f64 o.ftz (f.fsrcS .f64 o.a)))) :=
  scalarResult_gives hi he rfl

theorem vfExec_gives (hi : Issues s n sl f) {o : VFOps} {g : Fmt → Rm → FVal → FVal → Nat × FpFlags} {a b : Nat → Nat → FVal}
    (ha : ∀ L j, a L j = inF (tFmt o.t) o.ftz ((f.fsrcV o.t L o.a).getD j 0))
    (hb : ∀ L j, b L j = inF (tFmt o.t) o.ftz ((f.fsrcVI o.t L o.b).getD j 0)) (he : exec i s = vfExec o g s) :
    FpLane i s n sl f o.h (lenBL o.b) o.d o.t (o.t == 1)
      (fun L j => flushOut (tFmt o.t) o.ftz (g (tFmt o.t) (rmOf o.rm) (a L j) (b L j))) := by
  obtain rfl : a = _ := funext₂ ha
  obtain rfl : b = _ := funext₂ hb
  exact laneFloat_gives hi he (fun L => laneResult_mapElems (fsrcV_length f o.t L o.a)) wide_one

theorem vfUnExec_gives (hi : Issues s n sl f) {o : VFUnOps} {g : Fmt → FVal → Nat × FpFlags} {a : Nat → Nat → FVal}
    (ha : ∀ L j, a L j = inF (tFmt o.t) o.ftz ((f.fsrcV o.t L o.a).getD j 0)) (he : exec i s = vfUnExec o g s) :
    FpLane i s n sl f o.h .l64 o.d o.t (o.t == 1) (fun L j => flushOut (tFmt o.t) o.ftz (g (tFmt o.t) (a L j))) := by
  obtain rfl : a = _ := funext₂ ha
  exact laneFloat_gives hi he (fun L => laneResult_mapElems (fsrcV_length f o.t L o.a)) wide_one

end

/-! ## A sign inverted (R140) -/

theorem two_pow_width_f64 : (2 : Nat) ^ (Fmt.f64.width - 1) = 2 ^ 63 := rfl

theorem decode_flipSign (x : Nat) : Fmt.f64.decode (x ^^^ 2 ^ 63) = (Fmt.f64.decode x).neg := by
  have hbit : (x ^^^ 2 ^ 63).testBit (Fmt.f64.width - 1) = !x.testBit (Fmt.f64.width - 1) := by
    rw [show Fmt.f64.width - 1 = 63 from rfl, Nat.testBit_xor, Nat.testBit_two_pow_self, Bool.xor_true]
  have hmod : (x ^^^ 2 ^ 63) % 2 ^ (Fmt.f64.width - 1) = x % 2 ^ (Fmt.f64.width - 1) := by
    rw [two_pow_width_f64, Nat.xor_mod_two_pow, Nat.mod_self, Nat.xor_zero]
  unfold Fmt.decode
  rw [hbit, hmod]
  dsimp only
  split_ifs <;> rfl

theorem flushIn_neg (t : Fmt) (ftz : Bool) (a : FVal) : flushIn t ftz a.neg = (flushIn t ftz a).neg := by
  match a with
  | .nan _ | .inf _ => rfl
  | .fin n m e =>
    simp only [flushIn, FVal.neg]
    split <;> rfl

theorem inF_flipSign (ftz : Bool) (x : Nat) : inF .f64 ftz (x ^^^ 2 ^ 63) = (inF .f64 ftz x).neg := by
  rw [inF, decode_flipSign, flushIn_neg, inF]

/-- Bit by bit: the low 63 bits are a's, and bit 63 is the sign. -/
theorem getLsbD_withSign (a : W64) (sg : Bool) {i : Nat} (hi : i < 64) :
    ((a &&& 0x7FFFFFFFFFFFFFFF) ||| (if sg then 0x8000000000000000 else 0)).getLsbD i = if i < 63 then a.getLsbD i else sg := by
  have hlow : (0x7FFFFFFFFFFFFFFF : W64).getLsbD i = decide (i < 63) := by
    rw [show (0x7FFFFFFFFFFFFFFF : W64) = BitVec.ofNat 64 (2 ^ 63 - 1) from rfl, BitVec.getLsbD_ofNat,
      Nat.testBit_two_pow_sub_one]
    simp [hi]
  have hhigh : (if sg then 0x8000000000000000 else 0 : W64).getLsbD i = (sg && decide (i = 63)) := by
    rw [show (0x8000000000000000 : W64) = BitVec.twoPow 64 63 from rfl]
    cases sg
    · simp
    · rw [if_pos rfl, BitVec.getLsbD_twoPow]
      simp [eq_comm]
  rw [BitVec.getLsbD_or, BitVec.getLsbD_and, hlow, hhigh]
  by_cases h : i < 63
  · simp [h, h.ne]
  · simp [show i = 63 by omega]

theorem cpysOp_spec (x : BitVec 2) (a b : W64) : (cpysOp x a b).setWidth 63 = a.setWidth 63 ∧
    (cpysOp x a b).getLsbD 63 =
      (if x = 0 then b.getLsbD 63 else if x = 1 then !b.getLsbD 63 else a.getLsbD 63 != b.getLsbD 63) := by
  have hsign : ∀ (x : BitVec 2) (sa sb : Bool), (match x.toNat with | 0 => sb | 1 => !sb | _ => sa != sb) =
      (if x = 0 then sb else if x = 1 then !sb else sa != sb) := by decide
  constructor
  · refine BitVec.eq_of_getLsbD_eq fun i hi => ?_
    rw [BitVec.getLsbD_setWidth, BitVec.getLsbD_setWidth]
    exact congrArg _ ((getLsbD_withSign a _ (by omega)).trans (if_pos hi))
  · exact (getLsbD_withSign a _ (by omega)).trans (hsign x _ _)

theorem floatScalar : FloatScalar := by
  refine ⟨?two, ?fma, ?one, ?copySign⟩
  case two =>
    rintro o s n sl f _ _ _ hi rfl rfl rfl
    rw [inF_flipSign]
    exact ⟨fExec_gives hi rfl, fExec_gives (g := fSub) hi rfl, fExec_gives hi rfl, fExec_gives hi rfl,
      fExec_gives (g := Machine.fMin) hi rfl, fExec_gives (g := Machine.fMax) hi rfl⟩
  case fma =>
    rintro o s n sl f _ _ _ hi rfl rfl rfl
    exact scalarResult_gives hi rfl rfl
  case one =>
    rintro o s n sl f _ hi rfl
    exact ⟨fUnExec_gives hi rfl, fUnExec_gives hi rfl, scalarResult_gives hi rfl rfl⟩
  case copySign =>
    rintro o s n sl f _ _ hi rfl rfl
    obtain ⟨hlow, hsign⟩ := cpysOp_spec o.x (BitVec.ofNat 64 (f.fsrcS .f64 o.a)) (BitVec.ofNat 64 (f.fsrcS .f64 o.b))
    exact ⟨_, hlow, hsign, scalarResult_gives hi rfl (by rw [asW64, BitVec.ofNat_toNat, BitVec.setWidth_eq])⟩

theorem floatLane : FloatLane := by
  refine ⟨?two, ?fma, ?one⟩
  case two =>
    intro o s n sl f a b hi ha hb
    exact ⟨vfExec_gives hi ha hb rfl, vfExec_gives (g := fSub) hi ha hb rfl, vfExec_gives hi ha hb rfl,
      vfExec_gives hi ha hb rfl, vfExec_gives (g := Machine.fMin) hi ha hb rfl, vfExec_gives (g := Machine.fMax) hi ha hb rfl⟩
  case fma =>
    intro o s n sl f a b c hi ha hb hc
    obtain rfl : a = _ := funext₂ ha
    obtain rfl : b = _ := funext₂ hb
    obtain rfl : c = _ := funext₂ hc
    exact laneFloat_gives (r := fun L j => opOn (tFmt o.t) o.ftz (fmaX (tFmt o.t) (rmOf o.rm) o.x)
      [(f.fsrcV o.t L o.a).getD j 0, (f.fsrcV o.t L o.b).getD j 0, (f.fsrcV o.t L o.c).getD j 0]) hi rfl
      (fun L => laneResult_mapElems (fsrcV_length f o.t L o.a)) wide_one
  case one =>
    intro o s n sl f a hi ha
    exact ⟨vfUnExec_gives (g := fun t => fSqrt t (rmOf o.rm)) hi ha rfl,
      vfUnExec_gives (g := fun t => fRnd t (rmOf o.rm) (o.x == 1)) hi ha rfl,
      laneFloat_gives (r := fun L j => (fClass (tFmt o.t) ((f.fsrcV o.t L o.a).getD j 0), 0)) hi rfl
        (fun L => laneResult_mapElems (fsrcV_length f o.t L o.a)) (fun h => absurd h Bool.false_ne_true)⟩

end Sys2Proof.Proofs

/-! ## The statements -/

namespace Sys2Proof.Settled
open Sys2Proof Sys2Proof.Machine Sys2Proof.Claims Sys2Proof.Laws Sys2Proof.Proofs

/-- Settles O38: a form gives what its skeleton gives on the values of its operands; a sign is inverted in the pattern or in the
value alike. -/
theorem floatForms : Obligations.FloatForms := ⟨floatScalar, floatLane⟩

end Sys2Proof.Settled
end

section
/-! PROOF. The family "floating", conversions (O8). The forms through the skeletons of O38 and the placing of CVT.PACK; then the
values, which rounding (O39) gives. -/

namespace Sys2Proof.Proofs
open Sys2Proof Sys2Proof.Machine Sys2Proof.Claims Sys2Proof.Laws

/-! ## The conversions' forms (R144 to R149) -/

theorem narrow_eq (c : BitVec 4) : (c.toNat / 2 == 5) = decide (c = 10 ∨ c = 11) := by
  revert c; decide

theorem cvt_scalar {i : Instr} {s : State} {n sl : Nat} {f : Firing} (hi : Issues s n sl f) {o : CvtOps} {d : BitVec 6} {a : SSrc}
    (ho : o.opd = .scalar d a) {w wide : Bool} (hw : w = decide (o.dst = 10 ∨ o.dst = 11)) {g : Firing → Nat → W64 × FpFlags}
    {r : Nat × FpFlags} (he : exec i s = cvtExec o wide g s) (hg : g f 0 = asW64 r) : FpScalarW w i s n sl f o.h .l64 d r := by
  unfold cvtExec at he
  rw [ho] at he
  rw [hw, ← narrow_eq]
  exact scalarResult_gives hi he hg

theorem cvt_lane {i : Instr} {s : State} {n sl : Nat} {f : Firing} (hi : Issues s n sl f) {o : CvtOps} {d : BitVec 8} {a : LSrc}
    (ho : o.opd = .lane d a) {wide : Bool} {g : Firing → Nat → W64 × FpFlags} {r : Nat → Nat × FpFlags}
    (he : exec i s = cvtExec o wide g s) (hg : ∀ L, g f L = asW64 (r L)) :
    FpLane i s n sl f o.h .l64 d 0 wide (fun L _ => r L) := by
  unfold cvtExec at he
  rw [ho] at he
  exact laneFloat_gives hi he (fun L => laneResult_one (by decide) (hg L)) (fun _ => by decide)

theorem asW64_toNat (x : W64) (fl : FpFlags) : asW64 (x.toNat, fl) = (x, fl) := by
  rw [asW64, BitVec.ofNat_toNat, BitVec.setWidth_eq]

/-! ## CVT.PACK (R149) -/

theorem overflowTo_lt (t : Fmt) (rm : Rm) (sat neg : Bool) : overflowTo t rm sat neg < 2 ^ t.width := by
  cases t <;> cases rm <;> cases sat <;> cases neg <;> decide

theorem signBits_add_lt (t : Fmt) (neg : Bool) {b : Nat} (hb : b ≤ t.maxBits) : t.signBits neg + b < 2 ^ t.width := by
  have := maxBits_lt t
  rw [two_pow_width, Fmt.signBits]
  split <;> omega

theorem roundTo_lt (t : Fmt) (rm : Rm) (sat neg : Bool) (m : Nat) (e : Int) : (roundTo t rm sat neg m e).1 < 2 ^ t.width := by
  by_cases hm : m = 0
  · subst hm
    exact signBits_add_lt t neg (Nat.zero_le _)
  · rw [roundTo_eq t rm sat neg hm, overflowBits_eq]
    split
    · exact overflowTo_lt t rm sat neg
    next h => exact signBits_add_lt t neg (not_lt.mp h)

theorem cvtFF_inf (t : Fmt) (rm : Rm) (sat n : Bool) : cvtFF t rm sat (.inf n) =
    if t ≠ .e4m3 ∧ t ≠ .e2m1 then (t.signBits n + t.infBits, 0)
    else if sat = true ∨ t = .e2m1 then (t.signBits n + t.maxBits, fOF ||| fNX) else (0x7F, fNV) := by
  cases t <;> cases sat <;> rfl

theorem cvtFF_nan (t : Fmt) (rm : Rm) (sat sg : Bool) :
    cvtFF t rm sat (.nan sg) = if t = .e2m1 then (0, fNV) else (t.nanBits, if sg then fNV else 0) := by
  cases t <;> rfl

theorem cvtFF_lt (t : Fmt) (rm : Rm) (sat : Bool) (a : FVal) : (cvtFF t rm sat a).1 < 2 ^ t.width := by
  match a with
  | .nan sg =>
    rw [cvtFF_nan]
    cases t <;> cases sg <;> decide
  | .inf n =>
    rw [cvtFF_inf]
    cases t <;> cases sat <;> cases n <;> decide
  | .fin n m e => exact roundTo_lt t rm sat n m e

/-- y : x at POS, bit by bit. -/
theorem getLsbD_packPlace {c : BitVec 3} {pos w : Nat} (hw : w = (packFmt c).width) (old : W32) {x y : Nat}
    (hx : x < 2 ^ w) (hy : y < 2 ^ w) {i : Nat} (hi : i < 32) : (packPlace c pos old x y).getLsbD i =
      if i < 2 * w * pos ∨ 2 * w * (pos + 1) ≤ i then old.getLsbD i
      else if i < 2 * w * pos + w then x.testBit (i - 2 * w * pos) else y.testBit (i - (2 * w * pos + w)) := by
  unfold packPlace
  dsimp only
  rw [← hw, BitVec.getLsbD_or, BitVec.getLsbD_and, BitVec.getLsbD_not, BitVec.getLsbD_ofNat, BitVec.getLsbD_ofNat,
    Nat.testBit_mul_two_pow, Nat.testBit_mul_two_pow, Nat.testBit_two_pow_sub_one, Nat.add_comm x, Nat.mul_comm y,
    Nat.testBit_two_pow_mul_add _ hx, show 2 * w * (pos + 1) = 2 * w * pos + 2 * w by ring]
  generalize 2 * w * pos = p
  by_cases hlow : i < p
  · simp [hi, hlow, not_le.mpr hlow]
  by_cases hhigh : p + 2 * w ≤ i
  · have hy0 : y.testBit (i - p - w) = false := Nat.testBit_lt_two_pow (hy.trans_le (Nat.pow_le_pow_right two_pos (by omega)))
    simp [hi, hhigh, show ¬ i - p < 2 * w by omega, show ¬ i - p < w by omega, hy0]
  · simp only [hi, hlow, hhigh, decide_true, Bool.true_and, or_self, if_false, show p ≤ i by omega, show i - p < 2 * w by omega,
      Bool.not_true, Bool.and_false, Bool.false_or, Nat.sub_add_eq, show i - p < w ↔ i < p + w by omega]

theorem packPlace_fields {c : BitVec 3} {pos w : Nat} (hw : w = (packFmt c).width) (hpos : (pos + 1) * (2 * w) ≤ 32) (old : W32)
    {x y : Nat} (hx : x < 2 ^ w) (hy : y < 2 ^ w) :
    (packPlace c pos old x y).toNat / 2 ^ (2 * w * pos) % 2 ^ w = x ∧
    (packPlace c pos old x y).toNat / 2 ^ (2 * w * pos + w) % 2 ^ w = y ∧
    ∀ i, i < 32 → (i < 2 * w * pos ∨ 2 * w * (pos + 1) ≤ i) → (packPlace c pos old x y).getLsbD i = old.getLsbD i := by
  have hend : 2 * w * (pos + 1) = 2 * w * pos + 2 * w := by ring
  rw [mul_comm, hend] at hpos
  have hbit (i : Nat) (hi : i < 32) := getLsbD_packPlace (pos := pos) hw old hx hy hi
  rw [hend] at hbit ⊢
  generalize 2 * w * pos = p at *
  refine ⟨Nat.eq_of_testBit_eq fun j => ?_, Nat.eq_of_testBit_eq fun j => ?_, fun i hi ho => (hbit i hi).trans (if_pos ho)⟩
  · rw [Nat.testBit_mod_two_pow, Nat.testBit_div_two_pow, BitVec.testBit_toNat]
    by_cases hj : j < w
    · rw [hbit _ (by omega), if_neg (by omega), if_pos (by omega), Nat.add_sub_cancel]
      simp [hj]
    · simp [hj, Nat.testBit_lt_two_pow (hx.trans_le (Nat.pow_le_pow_right two_pos (not_lt.mp hj)))]
  · rw [Nat.testBit_mod_two_pow, Nat.testBit_div_two_pow, BitVec.testBit_toNat]
    by_cases hj : j < w
    · rw [hbit _ (by omega), if_neg (by omega), if_neg (by omega), Nat.add_sub_cancel]
      simp [hj]
    · simp [hj, Nat.testBit_lt_two_pow (hy.trans_le (Nat.pow_le_pow_right two_pos (not_lt.mp hj)))]

theorem conversionForms : Conversions := by
  refine ⟨?scalar, ?lane, ?pack, ?feedback⟩
  case scalar =>
    intro o s n sl f d a w hi ho hw
    refine ⟨cvt_scalar hi ho hw (execCvtFf.eq_1 o s) ?_, ⟨_, rfl, cvt_scalar hi ho hw (execCvtFi.eq_1 o s) ?_⟩,
      cvt_scalar hi ho hw (execCvtIf.eq_1 o s) ?_⟩
    · simp only [ho, Firing.cvtSrcF, inF]
    · simp only [ho, Firing.cvtSrcF, inF, asW64_toNat]
    · simp only [ho, Firing.cvtSrcI]
  case lane =>
    intro o s n sl f d a hi ho
    refine ⟨cvt_lane hi ho (execCvtFf.eq_1 o s) fun L => ?_, ⟨_, fun _ => rfl, cvt_lane hi ho (execCvtFi.eq_1 o s) fun L => ?_⟩,
      cvt_lane hi ho (execCvtIf.eq_1 o s) fun L => ?_⟩
    · simp only [ho, inF]
    · simp only [ho, inF, asW64_toNat]
    · simp only [ho, Firing.cvtSrcI]
  case pack =>
    intro o s n sl f w x y hi hw hpos hx hy
    refine ⟨fun L => packPlace o.fmt o.pos.toNat (f.getV o.d.toNat L) (x L).1 (y L).1, fun L => ?_, ?_⟩
    · refine packPlace_fields hw hpos _ ?_ ?_
      · rw [hx, hw]; exact cvtFF_lt ..
      · rw [hy, hw]; exact cvtFF_lt ..
    · refine laneFloat_gives hi (execCvtPack.eq_1 o s) (fun L => laneResult_one (by decide) ?_)
        (fun h => absurd h Bool.false_ne_true)
      simp only [asW64, BitVec.ofNat_toNat, hx, hy]
  case feedback =>
    intro o s n sl f ls rs fl hi he
    obtain ⟨rfl, hrest⟩ := Prod.mk.inj he
    obtain ⟨rfl, rfl⟩ := Prod.mk.inj hrest
    exact fpGives_fpEnd ((execCvtEf.eq_1 o s).trans (withF_issues hi.1 hi.2 _))

/-! ## The values of the conversions (R146, R147, R150) -/

theorem cvtIF_value (t : Fmt) (rm : Rm) (sat : Bool) {x : Int} (hx : x ≠ 0) : RoundedTo t rm sat x (cvtIF t rm sat x) := by
  have h := roundTo_roundedTo t rm sat (decide (x < 0)) (Int.natAbs_ne_zero.mpr hx) 0
  rwa [ratOf_natAbs, zpow_zero, mul_one] at h

theorem cvtFI_value (w : Nat) (sg : Bool) (rm : Rm) {lo hi : Int} (hlo : lo = if sg then -2 ^ (w - 1) else 0)
    (hhi : hi = if sg then 2 ^ (w - 1) - 1 else 2 ^ w - 1) (n : Bool) (m : Nat) (e : Int) :
    ∃ z, RoundsInt rm (ratOf n m e) z ∧ cvtFI w sg rm (.fin n m e) =
      if z < lo then (lo, fNV) else if hi < z then (hi, fNV) else (z, if (z : ℚ) = ratOf n m e then 0 else fNX) := by
  obtain ⟨hr, hx⟩ := roundInt_value rm n m e
  refine ⟨_, hr, ?_⟩
  rw [cvtFI, ← hlo, ← hhi]
  generalize (roundInt rm n m (-e)).2 = inexact at *
  generalize (if n then -((roundInt rm n m (-e)).1 : ℤ) else (roundInt rm n m (-e)).1) = z at *
  have hflag : (if inexact then fNX else 0) = if (z : ℚ) = ratOf n m e then 0 else fNX := by
    by_cases hz : (z : ℚ) = ratOf n m e
    · rw [if_pos hz, if_neg (by simp [hx, hz])]
    · rw [if_neg hz, if_pos (hx.mpr hz)]
  rw [hflag]

theorem efRat_addExact (a : EfAcc) (v e : Int) : efRat (addExact a v e) = efRat a + v * (2 : ℚ) ^ e := by
  have hlo : (if a.e ≤ e then a.e else e) ≤ a.e ∧ (if a.e ≤ e then a.e else e) ≤ e := by split <;> omega
  have key (k : Int) (hk : (if a.e ≤ e then a.e else e) ≤ k) :
      (2 : ℚ) ^ (k - (if a.e ≤ e then a.e else e)).toNat * 2 ^ (if a.e ≤ e then a.e else e) = 2 ^ k := by
    rw [← zpow_natCast, ← zpow_add₀ two_ne_zero, Int.toNat_of_nonneg (by omega), sub_add_cancel]
  unfold efRat addExact
  dsimp only
  push_cast
  rw [add_mul, mul_assoc, mul_assoc, key _ hlo.1, key _ hlo.2]

theorem ratOf_signed (n : Bool) (m : Nat) (e : Int) : ((if n then -(m : Int) else m : Int) : ℚ) * 2 ^ e = ratOf n m e := by
  rw [ratOf_eq_ite]
  cases n <;> simp

/-- Saturated, a result is finite. -/
theorem roundTo_sat_finite (t : Fmt) (rm : Rm) (neg : Bool) (m : Nat) (e : Int) :
    ∃ b, b ≤ t.maxBits ∧ (roundTo t rm true neg m e).1 = t.signBits neg + b := by
  by_cases hm : m = 0
  · exact ⟨0, Nat.zero_le _, by rw [hm, roundTo_zero, add_zero]⟩
  · rw [roundTo_eq t rm true neg hm, overflowBits_eq]
    split
    · exact ⟨t.maxBits, le_rfl, by simp [overflowTo]⟩
    next h => exact ⟨_, not_lt.mp h, rfl⟩

theorem efStep_fin (t : Fmt) (c : EfAcc) (n : Bool) (m : Nat) (e : Int) {u : EfAcc}
    (hu : u = addExact c (if n then -(m : Int) else m) e) {r : Nat × FpFlags}
    (hr : r = roundTo t .rne true (decide (u.v < 0)) u.v.natAbs u.e) : ∃ n' m' e', t.decode r.1 = .fin n' m' e' ∧
      efStep t c (.fin n m e) = (r.1, addExact u (if n' then (m' : Int) else -(m' : Int)) e', r.2) := by
  obtain ⟨b, hb, hbits⟩ := roundTo_sat_finite t .rne (decide (u.v < 0)) u.v.natAbs u.e
  obtain ⟨m', e', hd, -⟩ := decode_finite t (decide (u.v < 0)) hb
  rw [← hbits, ← hr] at hd
  refine ⟨_, m', e', hd, ?_⟩
  unfold efStep
  dsimp only
  rw [← hu, ← hr, hd]

theorem efStep_value (t : Fmt) (c : EfAcc) (n : Bool) (m : Nat) (e : Int) {r : Nat × EfAcc × FpFlags}
    (hr : r = efStep t c (.fin n m e)) {u : ℚ} (hu : u = efRat c + ratOf n m e) :
    (u ≠ 0 → RoundedTo t .rne true u (r.1, r.2.2)) ∧ (u = 0 → (r.1, r.2.2) = (0, 0)) ∧
    ∃ v, IsNum t r.1 v ∧ efRat r.2.1 = u - v := by
  obtain ⟨n', m', e', hd, hstep⟩ := efStep_fin t c n m e rfl rfl
  have hsum := efRat_addExact c (if n then -(m : Int) else m) e
  rw [ratOf_signed, ← hu] at hsum
  generalize addExact c (if n then -(m : Int) else m) e = a at *
  have hval : ratOf (decide (a.v < 0)) a.v.natAbs a.e = u := (ratOf_natAbs a.v a.e).trans hsum
  rw [hr, hstep]
  refine ⟨fun h => ?_, fun h => ?_, ratOf n' m' e', ⟨n', m', e', hd, rfl⟩, ?_⟩
  · rw [← hval]
    exact roundTo_roundedTo t .rne true _ (fun h0 => h (hval ▸ ratOf_eq_zero_iff.mpr h0)) a.e
  · have hv : a.v = 0 := Int.natAbs_eq_zero.mp (ratOf_eq_zero_iff.mp (hval.trans h))
    rw [hv]
    rfl
  · have hneg : ((if n' then (m' : Int) else -(m' : Int) : Int) : ℚ) * 2 ^ e' = -ratOf n' m' e' := by
      rw [ratOf_eq_ite]
      cases n' <;> simp
    rw [efRat_addExact, hneg, hsum, sub_eq_add_neg]

theorem conversionValues : ConversionValues := by
  refine ⟨fun t rm sat n m e => ⟨fun hm => ?_, ?_, cvtFF_nan t rm sat, cvtFF_inf t rm sat n⟩,
    fun t rm sat x => ⟨cvtIF_value t rm sat, ?_⟩, fun w sg rm lo hi _ hlo hhi => ⟨cvtFI_value w sg rm hlo hhi, fun q => rfl, ?_⟩,
    fun t c n m e r hr u hu => efStep_value t c n m e hr hu, fun t c q => ?_, fun t c n => rfl⟩
  · exact roundTo_roundedTo t rm sat n hm e
  · rintro rfl
    exact roundTo_zero t rm sat n e
  · rintro rfl
    rfl
  · subst hlo hhi
    exact fun n => rfl
  · cases t <;> rfl

end Sys2Proof.Proofs

/-! ## The statements -/

namespace Sys2Proof.Settled
open Sys2Proof Sys2Proof.Machine Sys2Proof.Claims Sys2Proof.Laws Sys2Proof.Proofs

/-- Settles O8: each form computes its conversion on its operand, and each conversion is one rounding of an exact number. -/
theorem conversions : Obligations.Conversions := ⟨conversionForms, conversionValues⟩

end Sys2Proof.Settled
end

section
/-! PROOF. The family "floating", frames (O40). A firing keeps what lane words and flags do not touch; then each form of group 011
and of the conversions ends in such a firing or in a trap, and each lane form in such a firing. -/

namespace Sys2Proof.Proofs
open Sys2Proof Sys2Proof.Machine Sys2Proof.Claims Sys2Proof.Laws

/-! ## What a firing keeps through lane words and flags -/

section
variable {sd vd kd qd : List Nat}

/-- The word x stands at a lane of one of the registers named. -/
def InRegs (vd : List Nat) (x : Nat × W32) : Prop := ∃ d ∈ vd, ∃ L, L < 32 ∧ x.1 = 32 * d + L

theorem inRegs_mk {d L : Nat} (hd : d ∈ vd) (hL : L < 32) (x : W32) : InRegs vd (32 * d + L, x) := ⟨d, hd, L, hL, rfl⟩

theorem keeps_setV {d L : Nat} (hd : d ∈ vd) (hL : L < 32) (f : Firing) (x : W32) : Keeps sd vd kd qd f (f.setV d L x) := by
  refine ⟨?_, fun r l hr hl => ?_, ?_, ?_, ?_, ?_, ?_⟩
  case refine_2 => exact (getV_setV f d L r l x hL hl).trans (if_neg (by rintro ⟨rfl, -⟩; exact hr hd))
  all_goals simp [SameRest, Firing.setV, Firing.getS, Firing.getK, Firing.getQ]

theorem keeps_putV {xs : List (Nat × W32)} (h : ∀ x ∈ xs, InRegs vd x) (f : Firing) : Keeps sd vd kd qd f (f.putV xs) := by
  induction xs generalizing f with
  | nil => exact keeps_refl f
  | cons x xs ih =>
    obtain ⟨d, hd, L, hL, hx⟩ := h x List.mem_cons_self
    have hput : f.putV (x :: xs) = (f.setV d L x.2).putV xs := by
      unfold Firing.putV Firing.setV
      rw [List.foldl_cons, hx]
    rw [hput]
    exact (keeps_setV hd hL f x.2).trans (ih (fun y hy => h y (List.mem_cons_of_mem _ hy)) _)

theorem keeps_writeV64 {d : Nat} (hd : d ∈ vd) (hd' : d + 1 ∈ vd) (f : Firing) (h : Head) (l : Len) (g : Nat → W64) :
    Keeps sd vd kd qd f (f.writeV64 h l d g) := by
  refine (keeps_putV (fun x hx => ?_) f).trans (keeps_retire ..)
  obtain ⟨L, hL, hx⟩ := List.mem_flatMap.mp hx
  rcases List.mem_pair.mp hx with rfl | rfl
  · exact inRegs_mk hd (enLanes_lt hL) _
  · exact inRegs_mk hd' (enLanes_lt hL) _

end

/-- Lane words of several registers after a first one. -/
theorem inRegs_block {n d : Nat} {ls : List Nat} (hls : ∀ L ∈ ls, L < 32) (g : Nat → Nat → W32) :
    ∀ x ∈ ls.flatMap (fun L => (List.range n).map fun j => (32 * (d + j) + L, g L j)), InRegs ((List.range n).map (d + ·)) x := by
  intro x hx
  obtain ⟨L, hL, hx⟩ := List.mem_flatMap.mp hx
  obtain ⟨j, hj, rfl⟩ := List.mem_map.mp hx
  exact inRegs_mk (List.mem_map_of_mem hj) (hls L hL) _

/-! ## The frame of a floating form (R137, R139) -/

/-- What a floating form makes of the state: flags come into a firing that otherwise keeps all but the registers sd and vd, or
a trap is taken. -/
def Floats (sd vd : List Nat) (s : State) (n sl : Nat) (f : Firing) (t : State) : Prop :=
  (∃ fl g, t = s.setFiring n sl g ∧ Keeps sd vd [] [] (f.orFlags fl) g) ∨
  ∃ u c g, u.firing n sl = some g ∧ t = takeTrap u n sl c

theorem orFlags_zero (f : Firing) : f.orFlags 0 = f := by
  simp [Firing.orFlags]

theorem floats_keeps {sd vd : List Nat} {s : State} {n sl : Nat} {f g : Firing} (h : Keeps sd vd [] [] f g) :
    Floats sd vd s n sl f (s.setFiring n sl g) := .inl ⟨0, g, rfl, (orFlags_zero f).symm ▸ h⟩

theorem floats_fpEnd {sd vd : List Nat} (s : State) (n sl : Nat) (f : Firing) (fl : FpFlags) {k : Firing → Firing}
    (hk : ∀ g, Keeps sd vd [] [] g (k g)) : Floats sd vd s n sl f (fpEnd s n sl f fl k) := by
  rw [fpEnd_eq]
  split
  · exact .inr ⟨_, _, _, firing_setFiring_same .., rfl⟩
  · exact .inl ⟨fl, _, rfl, hk _⟩

/-- A meaning over the issuing firing that ends in such a state. -/
def FloatForm (sd vd : List Nat) (m : State → Out) : Prop :=
  ∃ k : State → Nat → Nat → Firing → State, (∀ s, m s = withF s (k s)) ∧
    ∀ s n sl f, s.firing n sl = some f → Floats sd vd s n sl f (k s n sl f)

theorem scalarResult_frame {m : State → Out} {h : Head} {l : Len} {d : BitVec 6} {narrow : Bool} {g : Firing → W64 × FpFlags}
    (hm : ∀ s, m s = scalarResult h l d narrow g s) : FloatForm [d.toNat] [] m := by
  refine ⟨_, hm, fun s n sl f _ => ?_⟩
  dsimp only
  split
  · exact floats_fpEnd s n sl f _ fun g => keeps_writeLS (by simp) ..
  · exact floats_keeps (keeps_writeLS (by simp) ..)

theorem laneFloat_frame {m : State → Out} {h : Head} {l : Len} {d : BitVec 8} {wide : Bool} {g : Firing → Nat → W64 × FpFlags}
    {vd : List Nat} (hm : ∀ s, m s = laneFloat h l d wide g s) (hd : d.toNat ∈ vd) (hw : wide = true → d.toNat + 1 ∈ vd) :
    FloatForm [] vd m := by
  refine ⟨_, hm, fun s n sl f _ => floats_fpEnd s n sl f _ fun g => ?_⟩
  cases wide
  · exact keeps_writeV hd ..
  · exact keeps_writeV64 hd (hw rfl) ..

section
variable {m : State → Out} {o : CvtOps} {wide : Bool} {g : Firing → Nat → W64 × FpFlags}

theorem cvtExec_scalar_frame (hm : ∀ s, m s = cvtExec o wide g s) {d : BitVec 6} {a : SSrc} (ho : o.opd = .scalar d a) :
    FloatForm [d.toNat] [] m := by
  unfold cvtExec at hm
  rw [ho] at hm
  exact scalarResult_frame hm

theorem cvtExec_lane_frame (hm : ∀ s, m s = cvtExec o wide g s) {d : BitVec 8} {a : LSrc} (ho : o.opd = .lane d a)
    (hw : wide = true → o.dst = 0) : FloatForm [] (if o.dst = 0 then [d.toNat, d.toNat + 1] else [d.toNat]) m := by
  unfold cvtExec at hm
  rw [ho] at hm
  refine laneFloat_frame hm ?_ fun h => by simp [hw h]
  split <;> simp

end

/-- The lanes whose residuals CVT.EF keeps. -/
theorem efLanes_resid_lt (t : Fmt) (seg : BitVec 2) (en : Nat → Bool) (src : Nat → FVal) :
    ∀ e ∈ (efLanes t (efSize seg) en src).2.1, e.1 < 32 := by
  have hsize : ∀ seg : BitVec 2, ∀ b < 32 / efSize seg, efSize seg * (b + 1) ≤ 32 := by decide
  unfold efLanes
  refine List.foldlRecOn (motive := fun acc : List (Nat × Nat) × List (Nat × EfAcc) × FpFlags => ∀ e ∈ acc.2.1, e.1 < 32) _ _
    (fun e he => absurd he List.not_mem_nil) ?_
  intro acc hacc b hb e he
  have hb := hsize seg b (List.mem_range.mp hb)
  dsimp only at he
  split at he
  next L hL =>
    rcases List.mem_append.mp he with he | he
    · exact hacc e he
    · have hmem := (List.mem_filter.mp (List.mem_of_getLast? hL)).1
      obtain ⟨j, hj, rfl⟩ := List.mem_map.mp hmem
      have hj := List.mem_range.mp hj
      rw [List.mem_singleton.mp he]
      dsimp only
      nlinarith
  next => exact hacc e he

theorem inRegs_mcvtWords (d : Nat) {w m : Nat} (hw : 8 * w / 32 ≤ 4) (hm : m < 16) (row : List (Nat × Nat)) :
    ∀ x ∈ mcvtWords d w m row, InRegs ((List.range 4).map (d + ·)) x := by
  intro x hx
  obtain ⟨h, hh, hx⟩ := List.mem_flatMap.mp hx
  obtain ⟨r, hr, rfl⟩ := List.mem_map.mp hx
  have hr := List.mem_range.mp hr
  have hh : h < 2 := by rcases List.mem_pair.mp hh with rfl | rfl <;> decide
  exact inRegs_mk (List.mem_map_of_mem (List.mem_range.mpr (by omega))) (by omega) _

theorem InRegs.mono {vd vd' : List Nat} {x : Nat × W32} (h : InRegs vd x) (hsub : vd ⊆ vd') : InRegs vd' x := by
  obtain ⟨d, hd, rest⟩ := h
  exact ⟨d, hsub hd, rest⟩

theorem packFmt_width (c : BitVec 3) : 8 * (packFmt c).width / 32 ≤ 4 := by
  revert c; decide

theorem mcvt_frame {o : McvtOps} {vd : List Nat} (hd : (List.range 4).map (o.d.toNat + ·) ⊆ vd)
    (hr : ∀ vr, o.form = .resid vr → vr.toNat ∈ vd) : FloatForm [] vd (execMcvt o) := by
  refine ⟨_, fun _ => rfl, fun s n sl f hf => ?_⟩
  dsimp only
  split
  · exact floats_keeps (keeps_retire ..)
  split
  · exact .inr ⟨s, _, f, hf, rfl⟩
  refine floats_fpEnd s n sl f _ fun g => (keeps_putV (fun x hx => ?_) g).trans (keeps_retire ..)
  rcases List.mem_append.mp hx with hx | hx
  · obtain ⟨r, hrow, hx⟩ := List.mem_flatMap.mp hx
    obtain ⟨m, hm, rfl⟩ := List.mem_map.mp hrow
    exact (inRegs_mcvtWords _ (packFmt_width o.fmt) (List.mem_range.mp hm) _ x hx).mono hd
  · split at hx
    next vr hform =>
      obtain ⟨r, hrow, rfl⟩ := List.mem_map.mp hx
      obtain ⟨m, hm, rfl⟩ := List.mem_map.mp hrow
      have hm := List.mem_range.mp hm
      exact inRegs_mk (hr vr hform) (by dsimp only; omega) _
    next => exact absurd hx List.not_mem_nil

theorem cvtEf_frame {o : EfOps} {vd : List Nat} (hd : o.d.toNat ∈ vd) (hr : ∀ vr, o.form = .resid vr → vr.toNat ∈ vd) :
    FloatForm [] vd (execCvtEf o) := by
  refine ⟨_, fun _ => rfl, fun s n sl f _ => floats_fpEnd s n sl f _ fun g => ?_⟩
  dsimp only
  split
  next vr hform =>
    refine (keeps_putV (fun x hx => ?_) g).trans (keeps_writeV hd ..)
    obtain ⟨e, he, rfl⟩ := List.mem_map.mp hx
    exact inRegs_mk (hr vr hform) (efLanes_resid_lt _ _ _ _ e he) _
  next => exact keeps_writeV hd ..

/-- A form of group 011, a conversion, a reduction or MCVT keeps all of its firing but what it names and the flags. -/
theorem floatDest_frame {i : Instr} {sd vd : List Nat} (h : floatDest i = some (sd, vd)) : FloatForm sd vd (exec i) := by
  have hone {t : BitVec 2} {d : Nat} : d ∈ (if t = 1 then [d, d + 1] else [d]) := by split <;> simp
  have hpair {t : BitVec 2} {d : Nat} (ht : (t == 1) = true) : d + 1 ∈ (if t = 1 then [d, d + 1] else [d]) := by
    simp [beq_iff_eq.mp ht]
  unfold floatDest at h
  split at h
  -- the scalar forms
  case h_1 | h_2 | h_3 | h_4 | h_5 | h_6 | h_7 | h_8 | h_9 | h_10 | h_11 =>
    cases h
    exact scalarResult_frame fun _ => rfl
  -- the lane forms
  case h_12 | h_13 | h_14 | h_15 | h_16 | h_17 | h_18 | h_19 | h_20 =>
    cases h
    exact laneFloat_frame (fun _ => rfl) hone hpair
  case h_21 | h_25 =>
    cases h
    exact laneFloat_frame (fun _ => rfl) (List.mem_singleton_self _) (fun h => absurd h Bool.false_ne_true)
  case h_22 o => -- CVT.FF
    split at h <;> cases h
    next ho => exact cvtExec_scalar_frame (execCvtFf.eq_1 o) ho
    next ho => exact cvtExec_lane_frame (execCvtFf.eq_1 o) ho (by simp)
  case h_23 o => -- CVT.FI
    split at h <;> cases h
    next ho => exact cvtExec_scalar_frame (execCvtFi.eq_1 o) ho
    next ho => exact cvtExec_lane_frame (execCvtFi.eq_1 o) ho (by simp)
  case h_24 o => -- CVT.IF
    split at h <;> cases h
    next ho => exact cvtExec_scalar_frame (execCvtIf.eq_1 o) ho
    next ho => exact cvtExec_lane_frame (execCvtIf.eq_1 o) ho (by simp)
  case h_26 => -- WRED
    cases h
    exact ⟨_, fun _ => rfl, fun s n sl f _ => floats_fpEnd s n sl f _ fun g => keeps_writeV (by simp) ..⟩
  case h_27 => -- MCVT
    cases h
    exact mcvt_frame (List.subset_append_left ..) fun vr hf => by simp [hf]
  case h_28 => -- CVT.EF
    cases h
    exact cvtEf_frame (by split <;> simp) fun vr hf => by simp [hf]
  case h_29 => cases h

theorem orFlags_high (f : Firing) (fl : FpFlags) {k : Nat} (hk : 6 ≤ k) : (f.orFlags fl).fpst.getLsbD k = f.fpst.getLsbD k := by
  rw [Firing.orFlags, BitVec.getLsbD_or, BitVec.getLsbD_setWidth, BitVec.getLsbD_of_ge fl k hk, Bool.and_false, Bool.or_false]

theorem floatFrame : FloatFrame := by
  intro i sd vd s t n sl f hd hi ht hrun
  obtain ⟨k, he, hk⟩ := floatDest_frame hd
  rw [he, withF_issues hi.1 hi.2] at ht
  cases ht
  rcases hk s n sl f hi.2 with ⟨fl, g, ht, hg⟩ | ⟨u, c, g, hu, ht⟩
  · rw [ht]
    have hfir := firing_setFiring_same s n sl g
    refine ⟨⟨getB_setFiring s n sl g, g, rfl, hfir, hg.s, hg.v, hg.k, hg.q, fun h => absurd h.symm Bool.false_ne_true, hg.deps,
      hg.rest⟩, fun g' hg' k hk6 => ?_⟩
    rw [hfir] at hg'
    cases hg'
    rw [hg.fpst, orFlags_high f fl hk6]
  · obtain ⟨g', hg', hst⟩ := takeTrap_stoppedAt hu c .l64
    rw [ht] at hrun
    exact absurd (hrun g' hg') (by simp [hst])

/-! ## The frame of the lane integer, cross-lane and register matrix forms -/

theorem laneDest_keeps {i : Instr} {sd vd qd : List Nat} (h : laneDest i = some (sd, vd, qd)) :
    ∃ g : Firing → Firing, (∀ s, exec i s = onF s g) ∧ ∀ f, Keeps sd vd [] qd f (g f) := by
  unfold laneDest at h
  split at h
  case h_22 => -- VEXT
    cases h
    exact ⟨_, fun _ => rfl, fun f => (keeps_ite (keeps_refl f) (keeps_setS (by simp) f _)).trans (keeps_retire ..)⟩
  case h_24 | h_25 => -- VOTE.ANY, VOTE.ALL
    cases h
    exact ⟨_, fun _ => rfl, fun f => (keeps_setQ (by simp) f _).trans (keeps_retire ..)⟩
  case h_29 => -- MZERO
    cases h
    exact ⟨_, fun _ => rfl, fun f =>
      (keeps_putV (inRegs_block (fun _ => enLanes_lt) fun _ _ => 0) f).trans (keeps_retire ..)⟩
  case h_30 => cases h
  -- the forms that write one lane register
  all_goals
    cases h
    exact ⟨_, fun _ => rfl, fun f => keeps_writeV (by simp) ..⟩

theorem laneFrame : LaneFrame := by
  refine ⟨?forms, ?mldf⟩
  case forms =>
    intro i sd vd qd s t n sl f hd hi ht
    obtain ⟨g, he, hk⟩ := laneDest_keeps hd
    rw [he] at ht
    exact frame_onF hi ht (hk f)
  case mldf =>
    intro o s t n sl f hi ht hrun
    have he := (execMldf.eq_1 o s).trans (withF_issues hi.1 hi.2 _)
    dsimp only at he
    split at he
    next c _ =>
      cases ht.symm.trans he
      obtain ⟨g, hg, hst⟩ := takeTrap_stoppedAt hi.2 c .l64
      exact absurd (hrun g hg) (by simp [hst])
    next =>
      cases ht.symm.trans he
      exact frame_of_keeps ((keeps_putV (inRegs_block (fun _ => enLanes_lt) _) f).trans (keeps_retire ..))

end Sys2Proof.Proofs

/-! ## The statements -/

namespace Sys2Proof.Settled
open Sys2Proof Sys2Proof.Machine Sys2Proof.Claims Sys2Proof.Laws Sys2Proof.Proofs

/-- Settles O40: each form ends in a firing that keeps all but what it names, or in a trap, which leaves the firing stopped. -/
theorem floatLaneFrame : Obligations.FloatLaneFrame := ⟨floatFrame, laneFrame⟩

end Sys2Proof.Settled
end

section
/-! PROOF. The family "lanes", integers (O41). First elements of lane words and what an element operation gives on them, then
fields and counts of a lane's word bit by bit, then the statement. -/

namespace Sys2Proof.Proofs
open Sys2Proof Sys2Proof.Machine Sys2Proof.Claims Sys2Proof.Laws

/-! ## Elements of lane words (R155) -/

theorem elW_pos (p16 : Bool) : 0 < elW p16 := by cases p16 <;> decide

theorem elem_lt (p16 : Bool) (x : W32) (j : Nat) : elem p16 x j < 2 ^ elW p16 := by
  cases p16
  · exact x.isLt
  · exact Nat.mod_lt _ (by decide)

/-- A lane operation works in each element by itself. -/
theorem elem_laneOp (p16 : Bool) {g : Nat → Nat → Nat → Nat → Nat} (hg : ∀ w x y z, x < 2 ^ w → g w x y z < 2 ^ w)
    (a b c : W32) {j : Nat} (hj : j < if p16 then 2 else 1) :
    elem p16 (laneOp p16 g a b c) j = g (elW p16) (elem p16 a j) (elem p16 b j) (elem p16 c j) := by
  cases p16
  · show (BitVec.ofNat 32 _).toNat = _
    rw [BitVec.toNat_ofNat]
    exact Nat.mod_eq_of_lt (hg 32 _ _ _ a.isLt)
  · have hfld (x : W32) (k : Nat) : elem true x k = fld x (16 * k) 16 := (fld_eq ..).symm
    have hlo := hg 16 (fld a 0 16) (fld b 0 16) (fld c 0 16) (BitVec.isLt _)
    have hhi := hg 16 (fld a 16 16) (fld b 16 16) (fld c 16 16) (BitVec.isLt _)
    have hj' : j = 0 ∨ j = 1 := by
      rw [if_pos rfl] at hj
      omega
    rw [hfld a, hfld b, hfld c]
    show (BitVec.ofNat 32 (g 16 (fld a 0 16) (fld b 0 16) (fld c 0 16) +
      g 16 (fld a 16 16) (fld b 16 16) (fld c 16 16) * 65536)).toNat / 2 ^ (16 * j) % 2 ^ 16 = g 16 _ _ _
    rw [BitVec.toNat_ofNat]
    rcases hj' with rfl | rfl
    · show _ = g 16 (fld a 0 16) (fld b 0 16) (fld c 0 16)
      omega
    · show _ = g 16 (fld a 16 16) (fld b 16 16) (fld c 16 16)
      omega

section
variable {i : Instr} {s : State} {n sl : Nat} {f : Firing}

/-- A two-source lane form gives what its element operation gives on every pair of elements. -/
theorem laneGives_vintExec (hi : Issues s n sl f) {o : VIntOps} {a b : Nat → W32} (ha : ∀ L, a L = f.isrcV o.p16 L o.a)
    (hb : ∀ L, b L = f.isrcVI o.p16 L o.b) {g : Nat → Nat → Nat → Nat} {P : Nat → Nat → Nat → Nat → Prop}
    (he : exec i s = vintExec o g s) (hg : ∀ w x y, x < 2 ^ w → g w x y < 2 ^ w)
    (hP : ∀ x y z, x < 2 ^ elW o.p16 → y < 2 ^ elW o.p16 → P x y z (g (elW o.p16) x y)) :
    LaneGives i s n sl f o.h (lenBL o.b) o.d o.p16 a b b P := by
  refine ⟨_, fun L j hj => ?_, he.trans (onF_gives hi _)⟩
  rw [elem_laneOp o.p16 (fun w x y _ => hg w x y) _ _ _ hj, ← ha, ← hb]
  exact hP _ _ _ (elem_lt ..) (elem_lt ..)

end

/-! ## Elements read as integers, and integers made elements (R89) -/

theorem elI_signed {w x : Nat} (hx : x < 2 ^ w) : elI w true x = sintN w x := by
  unfold elI sintN
  rw [BitVec.toInt_eq_msb_cond, BitVec.msb_eq_getLsbD_last, ← BitVec.testBit_toNat, BitVec.toNat_ofNat, Nat.mod_eq_of_lt hx]
  simp

theorem elI_unsigned (w x : Nat) : elI w false x = x := rfl

theorem natCast_wrapN (w : Nat) (z : Int) : (wrapN w z : Int) = z % 2 ^ w :=
  Int.toNat_of_nonneg (Int.emod_nonneg z (by positivity))

theorem wrapN_lt (w : Nat) (z : Int) : wrapN w z < 2 ^ w := by
  have h := Int.emod_lt_of_pos z (show (0 : Int) < 2 ^ w by positivity)
  rw [← natCast_wrapN] at h
  exact_mod_cast h

theorem wrapN_of_mem {w : Nat} {z : Int} (hlo : 0 ≤ z) (hhi : z < 2 ^ w) : (wrapN w z : Int) = z := by
  rw [natCast_wrapN, Int.emod_eq_of_lt hlo hhi]

theorem sintN_wrapN_of_mem {w : Nat} (hw : 0 < w) {z : Int} (hlo : -2 ^ (w - 1) ≤ z) (hhi : z < 2 ^ (w - 1)) :
    sintN w (wrapN w z) = z := by
  have hword : BitVec.ofNat w (wrapN w z) = BitVec.ofInt w z := by
    apply BitVec.eq_of_toNat_eq
    rw [BitVec.toNat_ofNat, Nat.mod_eq_of_lt (wrapN_lt w z), BitVec.toNat_ofInt]
    simp [wrapN]
  have hp : (2 : Int) ^ w = 2 * 2 ^ (w - 1) := by rw [← pow_succ', Nat.sub_add_cancel hw]
  have hm : ((2 ^ w : Nat) : Int) = 2 * 2 ^ (w - 1) := by push_cast; exact hp
  unfold sintN
  rw [hword, BitVec.toInt_ofInt]
  exact Int.bmod_eq_of_le (by omega) (by omega)

theorem sintN_bounds (w x : Nat) : -2 ^ (w - 1) ≤ sintN w x ∧ sintN w x < 2 ^ (w - 1) :=
  ⟨BitVec.le_toInt _, BitVec.toInt_lt⟩

theorem satEl_elSat (g : Int → Int → Int → Int) (sat : Sat) {w a b c : Nat} (hw : 0 < w) (ha : a < 2 ^ w) (hb : b < 2 ^ w)
    (hc : c < 2 ^ w) : SatEl g sat w a b c (elSat g sat w a b c) := by
  have hp : (0 : Int) < 2 ^ (w - 1) := by positivity
  have hq : (0 : Int) < 2 ^ w := by positivity
  cases sat with
  | wrap =>
    show (wrapN w (g _ _ _) : Int) = _
    rw [natCast_wrapN, elI_signed ha, elI_signed hb, elI_signed hc]
  | ss =>
    have hclamp (x : Int) : clampI w true x = max (-2 ^ (w - 1)) (min (2 ^ (w - 1) - 1) x) :=
      ite_eq_clamp (lo := -2 ^ (w - 1)) (hi := 2 ^ (w - 1) - 1) (by omega) x
    show sintN w (wrapN w (clampI w true (g _ _ _))) = _
    rw [hclamp, elI_signed ha, elI_signed hb, elI_signed hc]
    exact sintN_wrapN_of_mem hw (by omega) (by omega)
  | us =>
    have hclamp (x : Int) : clampI w false x = max 0 (min (2 ^ w - 1) x) :=
      ite_eq_clamp (lo := 0) (hi := 2 ^ w - 1) (by omega) x
    show (wrapN w (clampI w false (g _ _ _)) : Int) = _
    rw [hclamp]
    exact wrapN_of_mem (by omega) (by omega)

theorem elSat_lt (g : Int → Int → Int → Int) (sat : Sat) (w a b c : Nat) : elSat g sat w a b c < 2 ^ w := by
  cases sat <;> exact wrapN_lt ..

/-! ## High products, least and greatest of elements (Table 8-3) -/

theorem elMulh_unsigned {w x y : Nat} (hx : x < 2 ^ w) (hy : y < 2 ^ w) : elMulh true w x y = x * y / 2 ^ w := by
  have hlt : x * y / 2 ^ w < 2 ^ w := Nat.div_lt_of_lt_mul (Nat.mul_lt_mul'' hx hy)
  have h := wrapN_of_mem (w := w) (z := ((x * y / 2 ^ w : Nat) : Int)) (by positivity) (by exact_mod_cast hlt)
  push_cast at h
  exact_mod_cast h

theorem elMulh_signed {w x y : Nat} (hw : 0 < w) (hx : x < 2 ^ w) (hy : y < 2 ^ w) :
    sintN w (elMulh false w x y) = sintN w x * sintN w y / 2 ^ w := by
  obtain ⟨ha, ha'⟩ := sintN_bounds w x
  obtain ⟨hb, hb'⟩ := sintN_bounds w y
  have hp : (0 : Int) < 2 ^ w := by positivity
  have hm : (2 : Int) ^ w = 2 * 2 ^ (w - 1) := by rw [← pow_succ', Nat.sub_add_cancel hw]
  have hab : |sintN w x * sintN w y| ≤ 2 ^ (w - 1) * 2 ^ (w - 1) := by
    rw [abs_mul]
    exact mul_le_mul (abs_le.mpr ⟨ha, ha'.le⟩) (abs_le.mpr ⟨hb, hb'.le⟩) (abs_nonneg _) (by positivity)
  obtain ⟨hlo, hhi⟩ := abs_le.mp hab
  show sintN w (wrapN w (elI w true x * elI w true y / 2 ^ w)) = _
  rw [elI_signed hx, elI_signed hy]
  exact sintN_wrapN_of_mem hw ((Int.le_ediv_iff_mul_le hp).mpr (by nlinarith)) (Int.ediv_lt_of_lt_mul hp (by nlinarith))

theorem elMin_unsigned {w x y : Nat} (hx : x < 2 ^ w) : elMin true w x y = min x y := by
  show wrapN w (min (x : Int) y) = _
  have h := wrapN_of_mem (w := w) (z := ((min x y : Nat) : Int)) (by positivity)
    (by exact_mod_cast (min_le_left x y).trans_lt hx)
  exact_mod_cast h

theorem elMax_unsigned {w x y : Nat} (hx : x < 2 ^ w) (hy : y < 2 ^ w) : elMax true w x y = max x y := by
  show wrapN w (max (x : Int) y) = _
  have h := wrapN_of_mem (w := w) (z := ((max x y : Nat) : Int)) (by positivity) (by exact_mod_cast max_lt hx hy)
  exact_mod_cast h

theorem elMin_signed {w x y : Nat} (hw : 0 < w) (hx : x < 2 ^ w) (hy : y < 2 ^ w) :
    sintN w (elMin false w x y) = min (sintN w x) (sintN w y) := by
  obtain ⟨ha, ha'⟩ := sintN_bounds w x
  obtain ⟨hb, -⟩ := sintN_bounds w y
  show sintN w (wrapN w (min (elI w true x) (elI w true y))) = _
  rw [elI_signed hx, elI_signed hy]
  exact sintN_wrapN_of_mem hw (le_min ha hb) (min_lt_of_left_lt ha')

theorem elMax_signed {w x y : Nat} (hw : 0 < w) (hx : x < 2 ^ w) (hy : y < 2 ^ w) :
    sintN w (elMax false w x y) = max (sintN w x) (sintN w y) := by
  obtain ⟨ha, ha'⟩ := sintN_bounds w x
  obtain ⟨-, hb'⟩ := sintN_bounds w y
  show sintN w (wrapN w (max (elI w true x) (elI w true y))) = _
  rw [elI_signed hx, elI_signed hy]
  exact sintN_wrapN_of_mem hw (le_max_of_le_left ha) (max_lt ha' hb')

theorem laneArithmetic : LaneArithmetic := by
  refine ⟨fun o s n sl f a b hi ha hb => ?_, fun o s n sl f hi => ?mad⟩
  case mad =>
    refine ⟨_, fun L j hj => ?_, onF_gives hi _⟩
    rw [elem_laneOp o.p16 (fun w x y z _ => elSat_lt _ _ w x y z) _ _ _ hj]
    exact satEl_elSat _ _ (elW_pos _) (elem_lt ..) (elem_lt ..) (elem_lt ..)
  have hw := elW_pos o.p16
  refine ⟨laneGives_vintExec hi ha hb rfl ?_ ?add, laneGives_vintExec hi ha hb rfl ?_ ?sub,
    laneGives_vintExec hi ha hb rfl ?_ ?mul, laneGives_vintExec hi ha hb rfl ?_ ?mulh,
    laneGives_vintExec hi ha hb rfl ?_ ?min, laneGives_vintExec hi ha hb rfl ?_ ?max⟩
  case add | sub | mul => exact fun x y _ hx hy => satEl_elSat _ _ hw hx hy (by positivity)
  case mulh =>
    intro x y _ hx hy
    cases o.u
    · exact elMulh_signed hw hx hy
    · exact elMulh_unsigned hx hy
  case min =>
    intro x y _ hx hy
    cases o.u
    · exact elMin_signed hw hx hy
    · exact elMin_unsigned hx
  case max =>
    intro x y _ hx hy
    cases o.u
    · exact elMax_signed hw hx hy
    · exact elMax_unsigned hx hy
  · exact fun w x y _ => elSat_lt _ _ w x y 0
  · exact fun w x y _ => elSat_lt _ _ w x y 0
  · exact fun w x y _ => elSat_lt _ _ w x y 0
  · exact fun w x y _ => wrapN_lt ..
  · exact fun w x y _ => wrapN_lt ..
  · exact fun w x y _ => wrapN_lt ..

/-! ## Shifts of elements (R155) -/

theorem testBit_elShl (w x y i : Nat) :
    (elShl w x y).testBit i = (decide (i < w) && decide (y ≤ i) && x.testBit (i - y)) := by
  unfold elShl
  split
  · next h =>
    rw [Nat.zero_testBit]
    by_cases hi : i < w
    · simp [show ¬ y ≤ i by omega]
    · simp [hi]
  · rw [Nat.testBit_mod_two_pow, Nat.testBit_mul_two_pow, Bool.and_assoc]

theorem testBit_elShr {w x : Nat} (hx : x < 2 ^ w) (y i : Nat) : (elShr w x y).testBit i = x.testBit (i + y) := by
  unfold elShr
  split
  · rw [Nat.zero_testBit, Nat.testBit_lt_two_pow (hx.trans_le (Nat.pow_le_pow_right two_pos (by omega)))]
  · rw [Nat.testBit_div_two_pow]

/-- An element shifted right with its sign is the word of its bits, arithmetically shifted. -/
theorem elSar_eq_sshiftRight {w x : Nat} (hx : x < 2 ^ w) (y : Nat) :
    elSar w x y = ((BitVec.ofNat w x).sshiftRight (if w ≤ y then w - 1 else y)).toNat := by
  unfold elSar
  rw [elI_signed hx, BitVec.sshiftRight, BitVec.toNat_ofInt, Int.shiftRight_eq_div_pow]
  simp [wrapN, sintN]

theorem testBit_elSar {w x : Nat} (hx : x < 2 ^ w) (y : Nat) {i : Nat} (hi : i < w) :
    (elSar w x y).testBit i = x.testBit (min (i + y) (w - 1)) := by
  have hidx : min (i + if w ≤ y then w - 1 else y) (w - 1) = min (i + y) (w - 1) := by split <;> omega
  rw [elSar_eq_sshiftRight hx, BitVec.testBit_toNat, getLsbD_sshiftRight_eq _ _ hi, hidx, BitVec.getLsbD_ofNat]
  simp [show min (i + y) (w - 1) < w by omega]

/-! ## Bit fields and counts of a lane's word, as the scalar forms have them (R92, R156) -/

theorem fld_low_five {w : Nat} (x : BitVec w) : fld x 0 5 = x.toNat % 32 :=
  (fld_eq x 0 5).trans (congrArg (· % 32) (Nat.div_one x.toNat))

theorem vbfPos_eq (ctl : W32) : vbfPos ctl = ctl.toNat % 32 := fld_low_five ctl

theorem vbfWid_eq (ctl : W32) : vbfWid ctl = min (ctl.toNat / 256 % 64) 32 := congrArg (min · 32) (fld_eq ctl 8 6)

theorem vbfPos_lt (ctl : W32) : vbfPos ctl < 32 := vbfPos_eq ctl ▸ Nat.mod_lt _ (by decide)

theorem vbfWid_le (ctl : W32) : vbfWid ctl ≤ 32 := Nat.min_le_right ..

/-- The scalar control word that names the field a lane's control word names. -/
def scalarCtl (ctl : W32) : W64 := BitVec.ofNat 64 (vbfWid ctl * 256 + vbfPos ctl)

theorem toNat_scalarCtl (ctl : W32) : (scalarCtl ctl).toNat = vbfWid ctl * 256 + vbfPos ctl := by
  have hp := vbfPos_lt ctl
  have hw := vbfWid_le ctl
  rw [scalarCtl, BitVec.toNat_ofNat, Nat.mod_eq_of_lt (by omega)]

theorem bfPos_scalarCtl (ctl : W32) : bfPos (scalarCtl ctl) = vbfPos ctl := by
  have hp := vbfPos_lt ctl
  rw [bfPos_eq, toNat_scalarCtl]
  omega

theorem bfWid_scalarCtl (ctl : W32) : bfWid (scalarCtl ctl) = vbfWid ctl := by
  have hp := vbfPos_lt ctl
  have hw := vbfWid_le ctl
  rw [bfWid_eq, toNat_scalarCtl]
  omega

/-- A lane's word extended to a scalar has its bits. -/
theorem getLsbD_extended (a : W32) (i : Nat) : (a.setWidth 64).getLsbD i = a.getLsbD i := by
  rw [BitVec.getLsbD_setWidth]
  by_cases hi : i < 64
  · simp [hi]
  · simp [hi, a.getLsbD_of_ge i (by omega)]

theorem setWidth_ofInt_64 (z : Int) : (BitVec.ofInt 64 z).setWidth 32 = BitVec.ofInt 32 z := by
  apply BitVec.eq_of_toNat_eq
  rw [BitVec.toNat_setWidth, BitVec.toNat_ofInt, BitVec.toNat_ofInt]
  omega

/-- A field of a lane's word is that of the scalar it extends to. -/
theorem vbfxOp_eq_bfxOp (signed : Bool) (a ctl : W32) :
    vbfxOp signed a ctl = (bfxOp signed (a.setWidth 64) (scalarCtl ctl)).setWidth 32 := by
  have hu : (a.setWidth 64).toNat = a.toNat := BitVec.toNat_setWidth_of_le (by decide)
  unfold vbfxOp bfxOp
  rw [bfPos_scalarCtl, bfWid_scalarCtl, hu]
  dsimp only
  split
  · exact (setWidth_ofInt_64 _).symm
  · exact (BitVec.setWidth_ofNat_of_le (by decide) _).symm

theorem vbfiOp_eq_bfiOp (a b ctl : W32) :
    vbfiOp a b ctl = (bfiOp (a.setWidth 64) (b.setWidth 64) (scalarCtl ctl)).setWidth 32 := by
  unfold vbfiOp bfiOp
  rw [bfPos_scalarCtl, bfWid_scalarCtl]
  ext i hi
  simp

theorem getLsbD_vbfxOp (u : Bool) (a ctl : W32) {i : Nat} (hi : i < 32) : (vbfxOp (!u) a ctl).getLsbD i =
    if u then decide (i < vbfWid ctl) && a.getLsbD (vbfPos ctl + i)
    else decide (vbfWid ctl ≠ 0) && a.getLsbD (vbfPos ctl + min i (vbfWid ctl - 1)) := by
  rw [vbfxOp_eq_bfxOp, BitVec.getLsbD_setWidth, ← bfPos_scalarCtl, ← bfWid_scalarCtl, ← getLsbD_extended a,
    ← getLsbD_extended a]
  cases u
  · show (decide (i < 32) && (bfxOp true _ _).getLsbD i) = _
    rw [getLsbD_bfx _ _ (by omega)]
    simp [hi]
  · show (decide (i < 32) && (bfxOp false _ _).getLsbD i) = _
    rw [getLsbD_bfxu]
    simp [hi]

theorem getLsbD_vbfiOp (a b ctl : W32) {i : Nat} (hi : i < 32) : (vbfiOp a b ctl).getLsbD i =
    if vbfPos ctl ≤ i ∧ i < vbfPos ctl + vbfWid ctl then b.getLsbD (i - vbfPos ctl) else a.getLsbD i := by
  rw [vbfiOp_eq_bfiOp, BitVec.getLsbD_setWidth, getLsbD_bfi _ _ _ (by omega), bfPos_scalarCtl, bfWid_scalarCtl,
    getLsbD_extended, getLsbD_extended]
  simp [hi]

/-- A count or reversal of a lane's word is the scalar form's under .W. -/
theorem ofNat_count_eq_cntOp (g : Nat → Nat → Nat) (a : W32) :
    BitVec.ofNat 32 (g 32 a.toNat) = (cntOp g (wOf true) (a.setWidth 64)).setWidth 32 := by
  have hu : (a.setWidth 64).toNat % 2 ^ 32 = a.toNat := by
    rw [BitVec.toNat_setWidth_of_le (by decide)]
    exact Nat.mod_eq_of_lt a.isLt
  show _ = (BitVec.ofNat 64 (g 32 ((a.setWidth 64).toNat % 2 ^ 32))).setWidth 32
  rw [hu, BitVec.setWidth_ofNat_of_le (by decide)]

theorem toNat_count {g : Nat → Nat → Nat} {a : W32} (h : (cntOp g (wOf true) (a.setWidth 64)).toNat ≤ 32) :
    (BitVec.ofNat 32 (g 32 a.toNat)).toNat = (cntOp g (wOf true) (a.setWidth 64)).toNat := by
  rw [ofNat_count_eq_cntOp, BitVec.toNat_setWidth, Nat.mod_eq_of_lt (by omega)]

theorem lane_popc_spec (a : W32) : (BitVec.ofNat 32 (popcN 32 a.toNat)).toNat = (List.range 32).countP a.getLsbD := by
  have h : (cntOp popcN (wOf true) (a.setWidth 64)).toNat = (List.range 32).countP a.getLsbD :=
    (toNat_popc true _).trans (congrArg (List.countP · (List.range 32)) (funext (getLsbD_extended a)))
  rw [toNat_count, h]
  exact h ▸ List.countP_le_length

theorem lane_clz_spec (a : W32) {r : W32} (hr : r = BitVec.ofNat 32 (clzN 32 a.toNat)) :
    r.toNat ≤ 32 ∧ (∀ i, i < r.toNat → a.getLsbD (31 - i) = false) ∧
      (r.toNat < 32 → a.getLsbD (31 - r.toNat) = true) := by
  obtain ⟨hle, hbefore, hat⟩ := clz_spec true (a.setWidth 64)
  rw [hr, toNat_count hle]
  exact ⟨hle, fun i hi => getLsbD_extended a _ ▸ hbefore i hi, fun h => getLsbD_extended a _ ▸ hat h⟩

theorem lane_brev_spec (a : W32) {i : Nat} (hi : i < 32) :
    (BitVec.ofNat 32 (brevN 32 a.toNat)).getLsbD i = a.getLsbD (31 - i) := by
  rw [ofNat_count_eq_cntOp, BitVec.getLsbD_setWidth, getLsbD_brev, getLsbD_extended]
  simp [hi, bits]

theorem laneLogicShift : LaneLogicShift := by
  refine ⟨?ints, ?fields, ?insert, ?counts⟩
  case ints =>
    intro o s n sl f a b hi ha hb
    have ha' : a = fun L => f.isrcV o.p16 L o.a := funext ha
    have hb' : b = fun L => f.isrcVI o.p16 L o.b := funext hb
    refine ⟨fun hp => ⟨?and, ?or, ?xor⟩, laneGives_vintExec hi ha hb rfl ?_ ?shl, laneGives_vintExec hi ha hb rfl ?_ ?shr,
      laneGives_vintExec hi ha hb rfl ?_ ?sar⟩
    case and =>
      refine (onF_gives hi _).trans ?_
      simp [ha', hb', hp, laneOp, ← BitVec.toNat_and]
    case or =>
      refine (onF_gives hi _).trans ?_
      simp [ha', hb', hp, laneOp, ← BitVec.toNat_or]
    case xor =>
      refine (onF_gives hi _).trans ?_
      simp [ha', hb', hp, laneOp, ← BitVec.toNat_xor]
    case shl => exact fun x y _ _ _ i => testBit_elShl ..
    case shr => exact fun x y _ hx _ i => testBit_elShr hx y i
    case sar => exact fun x y _ hx _ i => testBit_elSar hx y
    · exact fun w x y _ => by unfold elShl; split <;> [positivity; exact Nat.mod_lt _ (by positivity)]
    · exact fun w x y hx => by unfold elShr; split <;> [positivity; exact (Nat.div_le_self ..).trans_lt hx]
    · exact fun w x y _ => wrapN_lt ..
  case fields =>
    refine fun o s n sl f hi => ⟨_, onF_gives hi _, ?_⟩
    rintro L _ _ rfl rfl i hlt
    rw [← vbfPos_eq, ← vbfWid_eq]
    exact getLsbD_vbfxOp _ _ _ hlt
  case insert =>
    refine fun o s n sl f hi => ⟨_, onF_gives hi _, ?_⟩
    rintro L _ _ rfl rfl i hlt
    rw [← vbfPos_eq, ← vbfWid_eq]
    exact getLsbD_vbfiOp _ _ _ hlt
  case counts =>
    exact fun o s n sl f hi => ⟨⟨_, onF_gives hi _, fun L => lane_popc_spec _⟩,
      ⟨_, onF_gives hi _, fun L => lane_clz_spec _ rfl⟩, ⟨_, onF_gives hi _, fun L i hlt => lane_brev_spec _ hlt⟩⟩

end Sys2Proof.Proofs

/-! ## The statement -/

namespace Sys2Proof.Settled
open Sys2Proof Sys2Proof.Machine Sys2Proof.Claims Sys2Proof.Laws Sys2Proof.Proofs

/-- Settles O41: an operation works in each element by itself, and a lane's fields and counts are the scalar forms'. -/
theorem laneIntegers : Obligations.LaneIntegers := ⟨laneArithmetic, laneLogicShift⟩

end Sys2Proof.Settled
end

section
/-! PROOF. The family "lanes", cross-lane forms (O42). First a reduction's steps as a function of the lanes' values: which lanes
they join and what an induction over them proves; then the forms, and the values of the reductions, an operation at a time. -/

namespace Sys2Proof.Proofs
open Sys2Proof Sys2Proof.Machine Sys2Proof.Claims Sys2Proof.Laws

/-! ## The lower and the upper lane of a pair (R163) -/

theorem testBit_xor_two_pow (L lo i : Nat) : (L ^^^ 2 ^ lo).testBit i = (L.testBit i ^^ decide (lo = i)) := by
  rw [Nat.testBit_xor, Nat.testBit_two_pow]

theorem xor_two_pow_lt {L j : Nat} (hL : L < 32) (hj : j < 5) : L ^^^ 2 ^ j < 32 :=
  Nat.xor_lt_two_pow (n := 5) hL (Nat.pow_lt_pow_right (by decide) hj)

theorem pair_lt {L j : Nat} (hL : L < 32) (hj : j < 5) : min L (L ^^^ 2 ^ j) < 32 ∧ max L (L ^^^ 2 ^ j) < 32 :=
  ⟨(min_le_left ..).trans_lt hL, max_lt hL (xor_two_pow_lt hL hj)⟩

/-- Lanes that differ in bit lo alone are in the order of that bit. -/
theorem xor_two_pow_order (L lo : Nat) : if L.testBit lo then L ^^^ 2 ^ lo < L else L < L ^^^ 2 ^ lo := by
  have hother (i : Nat) (hi : lo < i) : (L ^^^ 2 ^ lo).testBit i = L.testBit i := by
    simp [hi.ne]
  split
  · next h => exact Nat.lt_of_testBit lo (by simp [h]) h hother
  · next h =>
    exact Nat.lt_of_testBit lo (by simpa using h) (by simp [h]) fun i hi => (hother i hi).symm

/-- The lower lane of a pair has the bit clear, the upper has it set. -/
theorem testBit_min_xor (L lo i : Nat) : (min L (L ^^^ 2 ^ lo)).testBit i = (decide (i ≠ lo) && L.testBit i) := by
  have h := xor_two_pow_order L lo
  split at h
  · next hb =>
    rw [min_eq_right h.le, testBit_xor_two_pow]
    by_cases hi : lo = i
    · subst hi; simp [hb]
    · simp [hi, Ne.symm hi]
  · next hb =>
    rw [min_eq_left h.le]
    by_cases hi : i = lo
    · subst hi; simpa using hb
    · simp [hi]

theorem testBit_max_xor (L lo i : Nat) : (max L (L ^^^ 2 ^ lo)).testBit i = (decide (i = lo) || L.testBit i) := by
  have h := xor_two_pow_order L lo
  split at h
  · next hb =>
    rw [max_eq_left h.le]
    by_cases hi : i = lo
    · subst hi; simpa using hb
    · simp [hi]
  · next hb =>
    rw [max_eq_right h.le, testBit_xor_two_pow]
    by_cases hi : lo = i
    · subst hi; simp [hb]
    · simp [hi, Ne.symm hi]

/-! ## The lanes that a lane's result joins -/

/-- Lanes L and M differ in none but the k bits from lo. -/
def Agree (lo k L M : Nat) : Prop := ∀ i, ¬(lo ≤ i ∧ i < lo + k) → M.testBit i = L.testBit i

theorem agree_zero_iff {lo L M : Nat} : Agree lo 0 L M ↔ M = L :=
  ⟨fun h => Nat.eq_of_testBit_eq fun i => h i (by omega), fun h i _ => by rw [h]⟩

theorem agree_of_lo_zero_iff {k L M : Nat} : Agree 0 k L M ↔ M / 2 ^ k = L / 2 ^ k := by
  constructor
  · intro h
    refine Nat.eq_of_testBit_eq fun i => ?_
    rw [Nat.testBit_div_two_pow, Nat.testBit_div_two_pow]
    exact h _ (by omega)
  · intro h i hi
    have hbit := congrArg (Nat.testBit · (i - k)) h
    simp only [Nat.testBit_div_two_pow] at hbit
    rwa [show i - k + k = i by omega] at hbit

/-- A lane in whose bit lo M has b, and which agrees with L elsewhere. -/
theorem agree_succ_iff {lo k L M L' : Nat} {b : Bool} (hL' : ∀ i, L'.testBit i = if i = lo then b else L.testBit i) :
    Agree (lo + 1) k L' M ↔ Agree lo (k + 1) L M ∧ M.testBit lo = b := by
  constructor
  · intro h
    refine ⟨fun i hi => ?_, ?_⟩
    · rw [h i (by omega), hL', if_neg (by omega)]
    · rw [h lo (by omega), hL', if_pos rfl]
  · rintro ⟨h, hb⟩ i hi
    rw [hL']
    split
    · next hlo => rw [hlo, hb]
    · exact h i (by omega)

theorem testBit_min_eq_ite (L lo i : Nat) : (min L (L ^^^ 2 ^ lo)).testBit i = if i = lo then false else L.testBit i := by
  rw [testBit_min_xor]
  split <;> simp [*]

theorem testBit_max_eq_ite (L lo i : Nat) : (max L (L ^^^ 2 ^ lo)).testBit i = if i = lo then true else L.testBit i := by
  rw [testBit_max_xor]
  split <;> simp [*]

/-- The lanes whose words are joined at lane L by the steps at distances 2^(lo + k − 1) down to 2^lo. -/
def seg (lo k L : Nat) : Finset Nat :=
  (Finset.range 32).filter fun M => M / 2 ^ (lo + k) = L / 2 ^ (lo + k) ∧ M % 2 ^ lo = L % 2 ^ lo

theorem mem_seg {lo k L M : Nat} : M ∈ seg lo k L ↔ M < 32 ∧ Agree lo k L M := by
  rw [seg, Finset.mem_filter, Finset.mem_range, ← agree_of_lo_zero_iff]
  refine and_congr_right fun _ => ⟨fun ⟨hhi, hlo⟩ i hi => ?_, fun h => ⟨fun i hi => h i (by omega), ?_⟩⟩
  · by_cases hilo : i < lo
    · have hbit := congrArg (Nat.testBit · i) hlo
      simpa [Nat.testBit_mod_two_pow, hilo] using hbit
    · exact hhi i (by omega)
  · refine Nat.eq_of_testBit_eq fun i => ?_
    rw [Nat.testBit_mod_two_pow, Nat.testBit_mod_two_pow]
    by_cases hilo : i < lo
    · rw [h i (by omega)]
    · simp [hilo]

theorem seg_zero {lo L : Nat} (hL : L < 32) : seg lo 0 L = {L} := by
  ext M
  rw [mem_seg, agree_zero_iff, Finset.mem_singleton]
  exact ⟨And.right, fun h => ⟨h ▸ hL, h⟩⟩

theorem mem_seg_lo_zero {k L M : Nat} : M ∈ seg 0 k L ↔ M < 32 ∧ M / 2 ^ k = L / 2 ^ k := by
  rw [mem_seg, agree_of_lo_zero_iff]

theorem seg_succ (lo k L : Nat) :
    seg lo (k + 1) L = seg (lo + 1) k (min L (L ^^^ 2 ^ lo)) ∪ seg (lo + 1) k (max L (L ^^^ 2 ^ lo)) := by
  ext M
  rw [Finset.mem_union, mem_seg, mem_seg, mem_seg, agree_succ_iff (testBit_min_eq_ite L lo),
    agree_succ_iff (testBit_max_eq_ite L lo)]
  cases M.testBit lo <;> simp

theorem disjoint_seg (lo k L : Nat) :
    Disjoint (seg (lo + 1) k (min L (L ^^^ 2 ^ lo))) (seg (lo + 1) k (max L (L ^^^ 2 ^ lo))) := by
  refine Finset.disjoint_left.mpr fun M hmin hmax => ?_
  rw [mem_seg, agree_succ_iff (testBit_min_eq_ite L lo)] at hmin
  rw [mem_seg, agree_succ_iff (testBit_max_eq_ite L lo)] at hmax
  exact Bool.false_ne_true (hmin.2.2.symm.trans hmax.2.2)

/-! ## Steps -/

section
variable {α β : Type} {g : α → α → α}

/-- The steps may be taken apart at the last one instead of the first. -/
theorem steps_succ_last (g : α → α → α) (lo k : Nat) (t : Nat → α) (L : Nat) : steps g lo (k + 1) t L =
    g (steps g (lo + 1) k t (min L (L ^^^ 2 ^ lo))) (steps g (lo + 1) k t (max L (L ^^^ 2 ^ lo))) := by
  induction k generalizing t L with
  | zero => rfl
  | succ k ih =>
    rw [steps, ih, show lo + (k + 1) = lo + 1 + k by omega]
    rfl

/-- The steps look at the values of the 32 lanes alone. -/
theorem steps_congr {lo k : Nat} (hk : lo + k ≤ 5) {t u : Nat → α} (h : ∀ L, L < 32 → t L = u L) {L : Nat} (hL : L < 32) :
    steps g lo k t L = steps g lo k u L := by
  induction k generalizing lo L with
  | zero => exact h L hL
  | succ k ih =>
    obtain ⟨hmin, hmax⟩ := pair_lt hL (j := lo) (by omega)
    rw [steps_succ_last, steps_succ_last, ih (by omega) hmin, ih (by omega) hmax]

/-- Lanes that differ in none but the steps' bits get one value. -/
theorem steps_uniform (g : α → α → α) (t : Nat → α) (k lo L M : Nat) (h : Agree lo k L M) :
    steps g lo k t L = steps g lo k t M := by
  induction k generalizing lo L M with
  | zero => rw [agree_zero_iff.mp h]
  | succ k ih =>
    have hpair {b : Bool} {L' M' : Nat} (hL' : ∀ i, L'.testBit i = if i = lo then b else L.testBit i)
        (hM' : ∀ i, M'.testBit i = if i = lo then b else M.testBit i) : Agree (lo + 1) k L' M' := by
      refine (agree_succ_iff hL').mpr ⟨fun i hi => ?_, by rw [hM', if_pos rfl]⟩
      rw [hM', if_neg (by omega), h i hi]
    rw [steps_succ_last, steps_succ_last, ih _ _ _ (hpair (testBit_min_eq_ite L lo) (testBit_min_eq_ite M lo)),
      ih _ _ _ (hpair (testBit_max_eq_ite L lo) (testBit_max_eq_ite M lo))]

/-- What holds of each lane's own value, and of what joins two disjoint sets of lanes, holds of every lane's result. -/
theorem steps_induction {R : Finset Nat → α → Prop} {t : Nat → α} (hone : ∀ L, L < 32 → R {L} (t L))
    (hjoin : ∀ A B x y, Disjoint A B → R A x → R B y → R (A ∪ B) (g x y)) {lo k : Nat} (hk : lo + k ≤ 5) {L : Nat}
    (hL : L < 32) : R (seg lo k L) (steps g lo k t L) := by
  induction k generalizing lo L with
  | zero => exact seg_zero hL ▸ hone L hL
  | succ k ih =>
    obtain ⟨hmin, hmax⟩ := pair_lt hL (j := lo) (by omega)
    rw [steps_succ_last, seg_succ]
    exact hjoin _ _ _ _ (disjoint_seg lo k L) (ih (by omega) hmin) (ih (by omega) hmax)

/-- A map that carries one operation to another carries the steps. -/
theorem steps_map {g' : β → β → β} {f : α → β} (hf : ∀ x y, f (g x y) = g' (f x) (f y)) (lo k : Nat) (t : Nat → α) (L : Nat) :
    f (steps g lo k t L) = steps g' lo k (fun L => f (t L)) L := by
  induction k generalizing lo L with
  | zero => rfl
  | succ k ih => rw [steps_succ_last, steps_succ_last, hf, ih, ih]

end

/-! ## WRED's steps on a list of the lanes' words -/

theorem getD_map_range {α : Type} (h : Nat → α) (d : α) {L : Nat} (hL : L < 32) : ((List.range 32).map h).getD L d = h L := by
  simp [List.getD, hL]

/-- What two lanes' words become under an operation, its flags apart. -/
def joinWord (op : Nat) (x y : W32) : W32 := (wredOp op x y).1

theorem wredStep_word (op s : Nat) (acc : List W32 × FpFlags) {L : Nat} (hL : L < 32) : (wredStep op s acc).1.getD L 0 =
    joinWord op (acc.1.getD (min L (L ^^^ s)) 0) (acc.1.getD (max L (L ^^^ s)) 0) := by
  unfold wredStep
  dsimp only
  rw [List.map_map]
  exact getD_map_range _ _ hL

theorem wredStep_flag (op s : Nat) (acc : List W32 × FpFlags) (i : Nat) : (wredStep op s acc).2.getLsbD i = true ↔
    acc.2.getLsbD i = true ∨ ∃ L, L < 32 ∧
      (wredOp op (acc.1.getD (min L (L ^^^ s)) 0) (acc.1.getD (max L (L ^^^ s)) 0)).2.getLsbD i = true := by
  unfold wredStep
  simp [getLsbD_orAll, lanes]

theorem wredSteps_word (op : Nat) {k : Nat} (hk : k ≤ 5) (acc : List W32 × FpFlags) {L : Nat} (hL : L < 32) :
    (wredSteps op k acc).1.getD L 0 = steps (joinWord op) 0 k (fun L => acc.1.getD L 0) L := by
  induction k generalizing acc with
  | zero => rfl
  | succ k ih =>
    rw [wredSteps, ih (by omega), steps, Nat.zero_add]
    exact steps_congr (by omega) (fun M hM => wredStep_word op (2 ^ k) acc hM) hL

/-- The flags of a reduction are those of its joins, each of two words that the steps before it made. -/
theorem wredSteps_flag (op : Nat) {k : Nat} (hk : k ≤ 5) (acc : List W32 × FpFlags) (i : Nat) {T : Nat → Nat → W32}
    (hT : ∀ j, T j = steps (joinWord op) j (k - j) fun L => acc.1.getD L 0) :
    (wredSteps op k acc).2.getLsbD i = true ↔ acc.2.getLsbD i = true ∨ ∃ j L, j < k ∧ L < 32 ∧
      (wredOp op (T (j + 1) (min L (L ^^^ 2 ^ j))) (T (j + 1) (max L (L ^^^ 2 ^ j)))).2.getLsbD i = true := by
  induction k generalizing acc T with
  | zero => simp [wredSteps]
  | succ k ih =>
    have hlast (M : Nat) : T (k + 1) M = acc.1.getD M 0 := by rw [hT, Nat.sub_self]; rfl
    have hstep {j M : Nat} (hj : j < k) (hM : M < 32) : T (j + 1) M =
        steps (joinWord op) (j + 1) (k - (j + 1)) (fun L => (wredStep op (2 ^ k) acc).1.getD L 0) M := by
      rw [hT, show k + 1 - (j + 1) = k - (j + 1) + 1 by omega, steps, show j + 1 + (k - (j + 1)) = k by omega]
      exact steps_congr (by omega) (fun N hN => (wredStep_word op (2 ^ k) acc hN).symm) hM
    rw [wredSteps, ih (by omega) _ fun j => rfl, wredStep_flag, or_assoc]
    refine or_congr_right ⟨?_, ?_⟩
    · rintro (⟨L, hL, h⟩ | ⟨j, L, hj, hL, h⟩)
      · exact ⟨k, L, by omega, hL, by rwa [hlast, hlast]⟩
      · obtain ⟨hmin, hmax⟩ := pair_lt hL (j := j) (by omega)
        exact ⟨j, L, by omega, hL, by rwa [hstep hj hmin, hstep hj hmax]⟩
    · rintro ⟨j, L, hj, hL, h⟩
      obtain ⟨hmin, hmax⟩ := pair_lt hL (j := j) (by omega)
      rcases Nat.lt_succ_iff_lt_or_eq.mp hj with hj | rfl
      · exact .inr ⟨j, L, hj, hL, by rwa [hstep hj hmin, hstep hj hmax] at h⟩
      · exact .inl ⟨L, hL, by rwa [hlast, hlast] at h⟩

theorem reductionUniform : ReductionUniform := by
  intro op k acc L M hk hL hM h
  rw [wredSteps_word op hk acc hL, wredSteps_word op hk acc hM]
  exact steps_uniform _ _ k 0 L M (agree_of_lo_zero_iff.mpr h.symm)

/-- The integer operations raise no flag. -/
theorem wredOp_flags_zero {op : Nat} (hop : op < 8) (x y : W32) : (wredOp op x y).2 = 0 := by
  interval_cases op <;> rfl

theorem getLsbD_noFlags (i : Nat) : (0 : FpFlags).getLsbD i = false := BitVec.getLsbD_zero

theorem wredSteps_flags_zero {op : Nat} (hop : op < 8) (k : Nat) (acc : List W32 × FpFlags) (h : acc.2 = 0) :
    (wredSteps op k acc).2 = 0 := by
  induction k generalizing acc with
  | zero => exact h
  | succ k ih =>
    refine ih _ (BitVec.eq_of_getLsbD_eq fun i _ => ?_)
    rw [getLsbD_noFlags, Bool.eq_false_iff, Ne, wredStep_flag, h, getLsbD_noFlags]
    simp [wredOp_flags_zero hop]

/-! ## Selection, votes and shuffles (R158 to R161) -/

theorem laneOf_eq (f : Firing) (idx : LaneIdx) :
    f.laneOf idx = match idx with | .sreg r => (f.getS r.toNat).toNat % 32 | .imm j => j.toNat := by
  cases idx with
  | sreg r => exact fld_low_five _
  | imm j => rfl

/-- The vote of one lane (R160). -/
def voteBit (f : Firing) (v : VoteSrc) (L : Nat) : Bool :=
  match v with
  | .pred p _ => (f.getQ p.toNat).getLsbD L
  | .val a b => (f.srcV L a).getLsbD ((f.srcV L b).toNat % 32)
  | .valImm a j => (f.srcV L a).getLsbD j.toNat

theorem voteWord_eq (f : Firing) (h : Head) (v : VoteSrc) : f.voteWord h v = laneMask fun L => f.enL h L && voteBit f v L := by
  cases v with
  | val a b => simp only [Firing.voteWord, voteBit, fld_low_five]; rfl
  | pred q sx => rfl
  | valImm a j => rfl

theorem getLsbD_voteWord (f : Firing) (h : Head) (v : VoteSrc) {L : Nat} (hL : L < 32) :
    (f.voteWord h v).getLsbD L = (f.enL h L && voteBit f v L) := by
  rw [voteWord_eq, getLsbD_laneMask _ hL]

/-- Every enabled lane votes for. -/
theorem voteWord_eq_enabled_iff (f : Firing) (h : Head) (v : VoteSrc) : (f.voteWord h v == laneMask (f.enL h)) =
    (List.range 32).all fun L => !f.enL h L || (f.voteWord h v).getLsbD L := by
  rw [Bool.eq_iff_iff, beq_iff_eq, List.all_eq_true]
  constructor
  · intro heq L hL
    rw [heq, getLsbD_laneMask _ (List.mem_range.mp hL)]
    cases f.enL h L <;> rfl
  · intro hall
    refine BitVec.eq_of_getLsbD_eq fun L hL => ?_
    have hL' := hall L (List.mem_range.mpr hL)
    rw [getLsbD_laneMask _ hL]
    rw [getLsbD_voteWord f h v hL] at hL' ⊢
    revert hL'
    cases f.enL h L <;> simp

/-- The enabled lanes of a q predicate's word take a bit, and the others keep theirs. -/
theorem getLsbD_setLanes (en : Nat → Bool) (b : Bool) (x : W32) {L : Nat} (hL : L < 32) :
    (if b then x ||| laneMask en else x &&& ~~~ laneMask en).getLsbD L = if en L = true then b else x.getLsbD L := by
  cases b
  · exact getLsbD_psetWord 0 en 0 x hL
  · exact getLsbD_psetWord 1 en 0 x hL

/-- What VOTE.ANY or .ALL makes of its firing. -/
def voteFiring (f : Firing) (h : Head) (q : BitVec 3) (b : Bool) : Firing :=
  f.setQ q.toNat (if b then f.getQ q.toNat ||| laneMask (f.enL h) else f.getQ q.toNat &&& ~~~ laneMask (f.enL h))

theorem getLsbD_voteFiring (f : Firing) (h : Head) (q : BitVec 3) (b : Bool) {p L : Nat} (hp : 0 < p) (hL : L < 32) :
    ((voteFiring f h q b).getQ p).getLsbD L =
      if p = q.toNat ∧ f.enL h L = true then b else (f.getQ p).getLsbD L := by
  rw [voteFiring, getQ_setQ]
  by_cases hq : p = q.toNat
  · subst hq
    rw [if_pos ⟨rfl, hp.ne'⟩, getLsbD_setLanes _ _ _ hL]
    simp
  · rw [if_neg (fun h => hq h.1), if_neg (fun h => hq h.1)]

theorem shflLane_eq (mode : BitVec 2) (w L i : Nat) : shflLane mode w L i =
    if mode = 0 ∧ i < w then L - L % w + i else if mode = 1 ∧ i < w then L ^^^ i
    else if mode = 2 ∧ i ≤ L % w then L - i else if mode = 3 ∧ L % w + i < w then L + i else L := by
  unfold shflLane
  match mode with
  | 0#2 | 1#2 | 2#2 | 3#2 => simp

/-! ## Reductions as forms (R163) -/

/-- The word that an enabled lane brings to a reduction (R35). -/
def wredSrc (f : Firing) (o : WredOps) (L : Nat) : W32 :=
  match o.a with
  | .const i => if 8 ≤ o.op.toNat then BitVec.ofNat 32 (floatConst .f32 i) else constInt 32 i
  | a => f.srcV L a

theorem exec_wred {s : State} {n sl : Nat} {f : Firing} (hi : Issues s n sl f) (o : WredOps) {r : List W32 × FpFlags}
    (hr : r = wredSteps o.op.toNat o.wl.toNat
      ((List.range 32).map (fun L => if f.enL o.h L then wredSrc f o L else wredId o.op.toNat), 0)) :
    exec (.wred o) s = .next (fpEnd s n sl f r.2 fun f => f.writeV o.h .l64 o.d.toNat fun L => r.1.getD L 0) := by
  subst hr
  exact withF_issues hi.1 hi.2 _

theorem wredSrc_integer (f : Firing) {o : WredOps} (hop : o.op.toNat < 8) (L : Nat) : wredSrc f o L = f.srcV L o.a := by
  unfold wredSrc
  split
  · next i ha => rw [ha, if_neg (by omega)]; rfl
  · rfl

theorem fpxHits_zero (f : Firing) : fpxHits f 0 = false := by simp [fpxHits]

theorem crossLane : CrossLane := by
  refine ⟨?mov, ?sel, ?bcast, ?ext, ?vote, ?shfl, ?xchg, ?wredInt, ?wredFloat⟩
  case mov => exact fun o s n sl f hi => onF_gives hi _
  case sel =>
    intro o s n sl f hi
    refine (onF_gives hi _).trans ?_
    congr 3
    funext L
    simp only [bitAt, bne_iff_ne, ne_eq, ite_not]
  case bcast =>
    intro o s n sl f i hi hidx
    obtain rfl : i = f.laneOf o.idx := hidx.trans (laneOf_eq f o.idx).symm
    exact onF_gives hi _
  case ext =>
    intro o s n sl f i hi hidx
    obtain rfl : i = f.laneOf o.idx := hidx.trans (laneOf_eq f o.idx).symm
    refine ⟨_, onF_gives hi _, fun r => ?_⟩
    have hany : (f.enLanes o.h).isEmpty = !(List.range 32).any (f.enL o.h) := by
      rw [Bool.eq_iff_iff]
      simp [Firing.enLanes, lanes]
    rw [hany]
    cases (List.range 32).any (f.enL o.h)
    · simp
    · simp only [Bool.not_true, Bool.false_eq_true, if_false, getS_setS]
      by_cases hr : r = o.d.toNat
      · subst hr; simp
      · simp [hr]
  case vote =>
    intro h d q v s n sl f hi
    refine ⟨f.voteWord h v, fun L hL => getLsbD_voteWord f h v hL, onF_gives hi _,
      ⟨voteFiring f h q (f.voteWord h v != 0), onF_gives hi _, ?any⟩,
      ⟨voteFiring f h q (f.voteWord h v == laneMask (f.enL h)), onF_gives hi _, ?all⟩⟩
    case any =>
      intro p L hp _ hL
      have hbne : (f.voteWord h v != 0) = decide (f.voteWord h v ≠ 0) := by
        rw [Bool.eq_iff_iff]
        simp
      rw [getLsbD_voteFiring f h q _ hp hL, hbne]
    case all =>
      intro p L hp _ hL
      rw [getLsbD_voteFiring f h q _ hp hL, voteWord_eq_enabled_iff]
  case shfl =>
    rintro o s n sl f _ hi rfl
    refine (onF_gives hi _).trans ?_
    congr 3
    funext L
    rw [shflLane_eq]
    dsimp only
    split_ifs <;> rfl
  case xchg =>
    rintro o s n sl f _ hi rfl
    exact onF_gives hi _
  case wredInt =>
    intro o s n sl f hi hop
    have hexec := exec_wred hi o rfl
    rw [wredSteps_flags_zero hop _ _ rfl] at hexec
    refine ⟨_, (fpGives_fpEnd hexec).1 (fpxHits_zero f), fun L hL => ?_⟩
    simp only [wredSrc_integer f hop]
  case wredFloat =>
    intro o s n sl f r fl hi hop hr
    refine fpGives_fpEnd (exec_wred hi o (hr.trans ?_))
    refine congrArg (fun h => wredSteps o.op.toNat o.wl.toNat ((List.range 32).map h, 0)) (funext fun L => ?_)
    unfold wredSrc
    cases o.a <;> simp [hop]

end Sys2Proof.Proofs
end

section
/-! PROOF. The family "lanes", the values of the reductions (O42). What an induction over a segment's lanes proves of each
operation: sums and parities count its lanes, least and greatest words are chosen by a key, and a key orders the numbers of
FP32. -/

namespace Sys2Proof.Proofs
open Sys2Proof Sys2Proof.Machine Sys2Proof.Claims Sys2Proof.Laws

/-! ## A reduction's word, by induction over the lanes it joins -/

/-- The word that a lane brings: its own where it is enabled, else the operation's identity (R163). -/
def brought (op : Nat) (v : Nat → W32) (en : Nat → Bool) (L : Nat) : W32 := if en L then v L else wredId op

/-- What a reduction delivers, and its flags. -/
def reduced (op k : Nat) (v : Nat → W32) (en : Nat → Bool) : List W32 × FpFlags :=
  wredSteps op k ((List.range 32).map (brought op v en), 0)

section
variable {op k : Nat} {v : Nat → W32} {en : Nat → Bool} {L : Nat}

theorem steps_brought {lo j M : Nat} (hlo : lo + j ≤ 5) (hM : M < 32) :
    steps (joinWord op) lo j (fun L => ((List.range 32).map (brought op v en)).getD L 0) M =
      steps (joinWord op) lo j (brought op v en) M := steps_congr hlo (fun _ hN => getD_map_range _ _ hN) hM

theorem reduced_word (hk : k ≤ 5) (hL : L < 32) :
    (reduced op k v en).1.getD L 0 = steps (joinWord op) 0 k (brought op v en) L :=
  (wredSteps_word op hk _ hL).trans (steps_brought (by omega) hL)

theorem reduced_induction (hk : k ≤ 5) (hL : L < 32) {R : Finset Nat → W32 → Prop} (hone : ∀ M, R {M} (brought op v en M))
    (hjoin : ∀ A B x y, Disjoint A B → R A x → R B y → R (A ∪ B) (joinWord op x y)) :
    R (seg 0 k L) ((reduced op k v en).1.getD L 0) := by
  rw [reduced_word hk hL]
  exact steps_induction (fun M _ => hone M) hjoin (by omega) hL

/-- The flags of a reduction are those of its joins. -/
theorem reduced_flag (hk : k ≤ 5) (i : Nat) {T : Nat → Nat → W32}
    (hT : ∀ j, T j = steps (joinWord op) j (k - j) (brought op v en)) : (reduced op k v en).2.getLsbD i = true ↔
      ∃ j L, j < k ∧ L < 32 ∧
        (wredOp op (T (j + 1) (min L (L ^^^ 2 ^ j))) (T (j + 1) (max L (L ^^^ 2 ^ j)))).2.getLsbD i = true := by
  unfold reduced
  rw [wredSteps_flag op hk _ i fun j => rfl, getLsbD_noFlags]
  simp only [Bool.false_eq_true, false_or]
  refine exists_congr fun j => exists_congr fun L => and_congr_right fun hj => and_congr_right fun hL => ?_
  obtain ⟨hmin, hmax⟩ := pair_lt hL (j := j) (by omega)
  rw [hT, steps_brought (by omega) hmin, steps_brought (by omega) hmax]

theorem member_iff {M : Nat} : Member k en L M ↔ M ∈ seg 0 k L ∧ en M = true := by
  rw [mem_seg_lo_zero, Member, and_assoc]

theorem seg_eq_filter (k L : Nat) : seg 0 k L = (Finset.range 32).filter fun M => M / 2 ^ k = L / 2 ^ k := by
  ext M
  rw [mem_seg_lo_zero, Finset.mem_filter, Finset.mem_range]

/-! ## Sums and logic -/

theorem reduced_sum (hk : k ≤ 5) (hL : L < 32) : ((reduced 0 k v en).1.getD L 0).toNat =
    ((List.range 32).map fun M => if M / 2 ^ k = L / 2 ^ k ∧ en M = true then (v M).toNat else 0).sum % 2 ^ 32 := by
  have hsum : ((reduced 0 k v en).1.getD L 0).toNat = (∑ M ∈ seg 0 k L, if en M = true then (v M).toNat else 0) % 2 ^ 32 := by
    refine reduced_induction hk hL (R := fun A x => x.toNat = (∑ M ∈ A, if en M = true then (v M).toNat else 0) % 2 ^ 32)
      (fun M => ?_) fun A B x y hAB hx hy => ?_
    · rw [Finset.sum_singleton, brought]
      cases en M
      · rfl
      · exact (Nat.mod_eq_of_lt (v M).isLt).symm
    · show (x + y).toNat = _
      rw [BitVec.toNat_add, hx, hy, Finset.sum_union hAB, ← Nat.add_mod]
  have hlist : (∑ M ∈ seg 0 k L, if en M = true then (v M).toNat else 0) =
      ((List.range 32).map fun M => if M / 2 ^ k = L / 2 ^ k ∧ en M = true then (v M).toNat else 0).sum := by
    rw [seg_eq_filter, Finset.sum_filter]
    simp only [← ite_and]
    rfl
  rw [hsum, hlist]

theorem reduced_and (hk : k ≤ 5) (hL : L < 32) {i : Nat} (hi : i < 32) :
    ((reduced 5 k v en).1.getD L 0).getLsbD i = true ↔ ∀ M, Member k en L M → (v M).getLsbD i = true := by
  have h : ((reduced 5 k v en).1.getD L 0).getLsbD i = true ↔ ∀ M ∈ seg 0 k L, en M = true → (v M).getLsbD i = true := by
    refine reduced_induction hk hL
      (R := fun A x => x.getLsbD i = true ↔ ∀ M ∈ A, en M = true → (v M).getLsbD i = true)
      (fun M => ?_) fun A B x y _ hx hy => ?_
    · have hid : (wredId 5).getLsbD i = true := by
        rw [show wredId 5 = BitVec.allOnes 32 by decide, BitVec.getLsbD_allOnes]
        exact decide_eq_true hi
      rw [brought]
      cases hen : en M <;> simp [hid, hen]
    · show (x &&& y).getLsbD i = true ↔ _
      rw [BitVec.getLsbD_and, Bool.and_eq_true, hx, hy, Finset.forall_mem_union]
  simp only [h, member_iff, and_imp]

theorem reduced_or (hk : k ≤ 5) (hL : L < 32) (i : Nat) :
    ((reduced 6 k v en).1.getD L 0).getLsbD i = true ↔ ∃ M, Member k en L M ∧ (v M).getLsbD i = true := by
  have h : ((reduced 6 k v en).1.getD L 0).getLsbD i = true ↔ ∃ M ∈ seg 0 k L, en M = true ∧ (v M).getLsbD i = true := by
    refine reduced_induction hk hL
      (R := fun A x => x.getLsbD i = true ↔ ∃ M ∈ A, en M = true ∧ (v M).getLsbD i = true)
      (fun M => ?_) fun A B x y _ hx hy => ?_
    · have hid : (wredId 6).getLsbD i = false := BitVec.getLsbD_zero
      rw [brought]
      cases hen : en M <;> simp [hid, hen]
    · show (x ||| y).getLsbD i = true ↔ _
      rw [BitVec.getLsbD_or, Bool.or_eq_true, hx, hy]
      simp only [Finset.mem_union, or_and_right, exists_or]
  simp only [h, member_iff, and_assoc]

theorem decide_odd_add (a b : Nat) : decide ((a + b) % 2 = 1) = (decide (a % 2 = 1) ^^ decide (b % 2 = 1)) := by
  rcases Nat.mod_two_eq_zero_or_one a with ha | ha <;> rcases Nat.mod_two_eq_zero_or_one b with hb | hb <;>
    simp [Nat.add_mod, ha, hb]

theorem reduced_xor (hk : k ≤ 5) (hL : L < 32) (i : Nat) : ((reduced 7 k v en).1.getD L 0).getLsbD i =
    decide (((List.range 32).countP fun M => decide (M / 2 ^ k = L / 2 ^ k) && en M && (v M).getLsbD i) % 2 = 1) := by
  have h : ((reduced 7 k v en).1.getD L 0).getLsbD i =
      decide (((seg 0 k L).filter fun M => (en M && (v M).getLsbD i) = true).card % 2 = 1) := by
    refine reduced_induction hk hL
      (R := fun A x => x.getLsbD i = decide ((A.filter fun M => (en M && (v M).getLsbD i) = true).card % 2 = 1))
      (fun M => ?_) fun A B x y hAB hx hy => ?_
    · have hid : (wredId 7).getLsbD i = false := BitVec.getLsbD_zero
      rw [brought, Finset.filter_singleton]
      cases en M
      · simp [hid]
      · cases h : (v M).getLsbD i <;> simp [h]
    · show (x ^^^ y).getLsbD i = _
      rw [BitVec.getLsbD_xor, hx, hy, Finset.filter_union,
        Finset.card_union_of_disjoint (Finset.disjoint_filter_filter hAB), decide_odd_add]
  have hcount : ((seg 0 k L).filter fun M => (en M && (v M).getLsbD i) = true).card =
      (List.range 32).countP fun M => decide (M / 2 ^ k = L / 2 ^ k) && en M && (v M).getLsbD i := by
    rw [seg_eq_filter, Finset.filter_filter, List.countP_eq_length_filter]
    exact congrArg List.length (List.filter_congr fun M _ => by simp [Bool.and_assoc])
  rw [h, hcount]

end

/-! ## Least and greatest words (R163, Table 8-5) -/

/-- Under a key, g gives of two numbers the one of lesser key, the first where they tie, and a number where there is one. -/
structure Picks (key : W32 → Int) (num : W32 → Prop) (g : W32 → W32 → W32) : Prop where
  both : ∀ x y, num x → num y → g x y = if key y < key x then y else x
  left : ∀ x y, num x → ¬ num y → g x y = x
  right : ∀ x y, ¬ num x → num y → g x y = y
  none : ∀ x y, ¬ num x → ¬ num y → ¬ num (g x y)

/-- A number among A's words, or else the identity, that no number among them has a lesser key than. -/
structure Extreme (key : W32 → Int) (num : W32 → Prop) (e : W32) (v : Nat → W32) (en : Nat → Bool) (A : Finset Nat)
    (x : W32) : Prop where
  mem : num x → x = e ∨ ∃ M ∈ A, en M = true ∧ num (v M) ∧ x = v M
  least : ∀ M ∈ A, en M = true → num (v M) → num x ∧ key x ≤ key (v M)

section
variable {key : W32 → Int} {num : W32 → Prop} {g : W32 → W32 → W32} {e : W32} {v : Nat → W32} {en : Nat → Bool}

theorem Picks.num_left (hg : Picks key num g) {x y : W32} (hx : num x) : num (g x y) := by
  by_cases hy : num y
  · rw [hg.both x y hx hy]
    split <;> assumption
  · rwa [hg.left x y hx hy]

theorem Picks.num_right (hg : Picks key num g) {x y : W32} (hy : num y) : num (g x y) := by
  by_cases hx : num x
  · exact hg.num_left hx
  · rwa [hg.right x y hx hy]

theorem Extreme.left {A B : Finset Nat} {x : W32} (hx : Extreme key num e v en A x)
    (hB : ∀ M ∈ B, en M = true → num (v M) → num x ∧ key x ≤ key (v M)) : Extreme key num e v en (A ∪ B) x where
  mem h := (hx.mem h).imp_right fun ⟨M, hM, hM'⟩ => ⟨M, Finset.mem_union_left _ hM, hM'⟩
  least M hM := (Finset.mem_union.mp hM).elim (hx.least M) (hB M)

theorem Picks.extreme_join (hg : Picks key num g) {A B : Finset Nat} {x y : W32} (hx : Extreme key num e v en A x)
    (hy : Extreme key num e v en B y) : Extreme key num e v en (A ∪ B) (g x y) := by
  by_cases hnx : num x <;> by_cases hny : num y
  · rw [hg.both x y hnx hny]
    split
    · next h =>
      exact Finset.union_comm A B ▸ hy.left fun M hM hen hn => ⟨hny, h.le.trans (hx.least M hM hen hn).2⟩
    · next h => exact hx.left fun M hM hen hn => ⟨hnx, (not_lt.mp h).trans (hy.least M hM hen hn).2⟩
  · rw [hg.left x y hnx hny]
    exact hx.left fun M hM hen hn => absurd (hy.least M hM hen hn).1 hny
  · rw [hg.right x y hnx hny]
    exact Finset.union_comm A B ▸ hy.left fun M hM hen hn => absurd (hx.least M hM hen hn).1 hnx
  · exact ⟨fun h => absurd h (hg.none x y hnx hny), fun M hM hen hn => (Finset.mem_union.mp hM).elim
      (fun hA => absurd (hx.least M hA hen hn).1 hnx) fun hB => absurd (hy.least M hB hen hn).1 hny⟩

theorem extreme_brought {op : Nat} (M : Nat) :
    Extreme key num (wredId op) v en {M} (brought op v en M) := by
  unfold brought
  constructor
  · intro hn
    cases hen : en M
    · exact .inl (if_neg (by simp))
    · rw [hen] at hn
      exact .inr ⟨M, Finset.mem_singleton_self M, hen, hn, rfl⟩
  · intro N hN hen hn
    obtain rfl := Finset.mem_singleton.mp hN
    rw [if_pos hen]
    exact ⟨hn, le_rfl⟩

/-- A reduction by an operation that picks by a key gives the first of the members' numbers in its order. -/
theorem reduced_firstOf {op k L : Nat} (hk : k ≤ 5) (hL : L < 32) (hg : Picks key num (joinWord op))
    (hid : ∀ w, num w → num (wredId op) → key w ≤ key (wredId op)) (hinj : ∀ x y, num x → num y → key x = key y → x = y) :
    FirstOf (Member k en L) v num (fun x y => key x < key y) ((reduced op k v en).1.getD L 0) := by
  have hx : Extreme key num (wredId op) v en (seg 0 k L) ((reduced op k v en).1.getD L 0) :=
    reduced_induction hk hL extreme_brought fun A B x y _ => hg.extreme_join
  generalize (reduced op k v en).1.getD L 0 = x at hx
  rintro ⟨M, hM, hn⟩
  obtain ⟨hseg, hen⟩ := member_iff.mp hM
  obtain ⟨hnx, hle⟩ := hx.least M hseg hen hn
  refine ⟨?_, fun N hN hnN => not_lt.mpr (hx.least N (member_iff.mp hN).1 (member_iff.mp hN).2 hnN).2⟩
  rcases hx.mem hnx with rfl | ⟨N, hN, henN, hnN, hxN⟩
  · exact ⟨M, hM, hn, hinj _ _ hnx hn (le_antisymm hle (hid _ hn hnx))⟩
  · exact ⟨N, member_iff.mpr ⟨hN, henN⟩, hnN, hxN⟩

end

theorem firstOf_imp {In : Nat → Prop} {v : Nat → W32} {P : W32 → Prop} {B B' : W32 → W32 → Prop} {r : W32}
    (h : FirstOf In v P B r) (hB : ∀ x y, P x → P y → B' x y → B x y) : FirstOf In v P B' r := fun hex => by
  obtain ⟨⟨M, hM, hP, hr⟩, hfirst⟩ := h hex
  exact ⟨⟨M, hM, hP, hr⟩, fun N hN hPN hB' => hfirst N hN hPN (hB _ _ hPN (hr ▸ hP) hB')⟩

/-- Every word is a number of an integer operation. -/
theorem picks_integer {key : W32 → Int} {g : W32 → W32 → W32} (h : ∀ x y, g x y = if key y < key x then y else x) :
    Picks key (fun _ => True) g :=
  ⟨fun x y _ _ => h x y, fun _ _ _ h => absurd trivial h, fun _ _ h => absurd trivial h, fun _ _ h => absurd trivial h⟩

theorem picks_min : Picks BitVec.toInt (fun _ => True) (joinWord 1) := picks_integer fun x y => by
  show (if y.slt x then y else x) = _
  simp [BitVec.slt]

theorem picks_max : Picks (fun x => -x.toInt) (fun _ => True) (joinWord 2) := picks_integer fun x y => by
  show (if x.slt y then y else x) = _
  simp [BitVec.slt]

theorem picks_minu : Picks (fun x => x.toNat) (fun _ => True) (joinWord 3) := picks_integer fun x y => by
  show (if y.ult x then y else x) = _
  simp [BitVec.ult]

theorem picks_maxu : Picks (fun x => -x.toNat) (fun _ => True) (joinWord 4) := picks_integer fun x y => by
  show (if x.ult y then y else x) = _
  simp [BitVec.ult]

theorem reduced_integers {k L : Nat} (hk : k ≤ 5) (hL : L < 32) (v : Nat → W32) (en : Nat → Bool) :
    FirstOf (Member k en L) v (fun _ => True) (fun x y => x.toInt < y.toInt) ((reduced 1 k v en).1.getD L 0) ∧
    FirstOf (Member k en L) v (fun _ => True) (fun x y => y.toInt < x.toInt) ((reduced 2 k v en).1.getD L 0) ∧
    FirstOf (Member k en L) v (fun _ => True) (fun x y => x.toNat < y.toNat) ((reduced 3 k v en).1.getD L 0) ∧
    FirstOf (Member k en L) v (fun _ => True) (fun x y => y.toNat < x.toNat) ((reduced 4 k v en).1.getD L 0) := by
  have hlo (w : W32) : -2 ^ 31 ≤ w.toInt := BitVec.le_toInt w
  have hhi (w : W32) : w.toInt < 2 ^ 31 := BitVec.toInt_lt
  have hnat (w : W32) := w.isLt
  refine ⟨reduced_firstOf hk hL picks_min ?_ ?_, firstOf_imp (reduced_firstOf hk hL picks_max ?_ ?_) ?_,
    firstOf_imp (reduced_firstOf hk hL picks_minu ?_ ?_) ?_, firstOf_imp (reduced_firstOf hk hL picks_maxu ?_ ?_) ?_⟩
  · intro w _ _
    have := hhi w
    show w.toInt ≤ 2 ^ 31 - 1
    omega
  · exact fun x y _ _ => BitVec.eq_of_toInt_eq
  · intro w _ _
    have := hlo w
    show -w.toInt ≤ -(-2 ^ 31)
    omega
  · exact fun x y _ _ h => BitVec.eq_of_toInt_eq (neg_injective h)
  · exact fun x y _ _ => neg_lt_neg
  · intro w _ _
    have := hnat w
    show (w.toNat : Int) ≤ 2 ^ 32 - 1
    omega
  · exact fun x y _ _ h => BitVec.eq_of_toNat_eq (Int.ofNat_injective h)
  · exact fun x y _ _ => Int.ofNat_lt.mpr
  · intro w _ _
    have := hnat w
    show -(w.toNat : Int) ≤ -0
    omega
  · exact fun x y _ _ h => BitVec.eq_of_toNat_eq (Int.ofNat_injective (neg_injective h))
  · exact fun x y _ _ h => neg_lt_neg (Int.ofNat_lt.mpr h)

/-! ## Least and greatest numbers of a format (R141) -/

/-- A pattern's place in the order of a format's numbers, −0 below +0: what is under its sign, counted down from −1 where the
sign is set. -/
def patKey (t : Fmt) (x : Nat) : Int :=
  if x.testBit (t.width - 1) then -((x % 2 ^ (t.width - 1) : Nat) : Int) - 1 else (x % 2 ^ (t.width - 1) : Nat)

theorem patKey_eq (t : Fmt) (x : Nat) : patKey t x = if x.testBit (t.width - 1) then -((x % 2 ^ (t.width - 1) : Nat) : Int) - 1
    else (x % 2 ^ (t.width - 1) : Nat) := rfl

theorem signed_injective {n n' : Bool} {a b : Nat} (h : (if n then -(a : Int) - 1 else a) = if n' then -(b : Int) - 1 else b) :
    n = n' ∧ a = b := by
  cases n <;> cases n' <;> simp at h ⊢ <;> omega

theorem patKey_injective {t : Fmt} {x y : Nat} (hx : x < 2 ^ t.width) (hy : y < 2 ^ t.width) (h : patKey t x = patKey t y) :
    x = y := by
  obtain ⟨hsign, hmod⟩ := signed_injective h
  rw [sign_split hx, sign_split hy, hsign, hmod]

theorem magOf_lt_iff (t : Fmt) {a b : Nat} : magOf t a < magOf t b ↔ a < b := (magOf_strictMono t).lt_iff_lt

/-- The order of signed values, −0 below +0, in terms of what is under the signs. -/
theorem signed_lt_iff (t : Fmt) (n n' : Bool) (a b : Nat) :
    ((if n then -(a : Int) - 1 else a) < if n' then -(b : Int) - 1 else b) ↔
      ((if n then -magOf t a else magOf t a) < if n' then -magOf t b else magOf t b) ∨
        ((if n then -magOf t a else magOf t a) = if n' then -magOf t b else magOf t b) ∧ n = true ∧ n' = false := by
  have ha := magOf_nonneg t a
  have hb := magOf_nonneg t b
  cases n <;> cases n' <;> simp only [if_true, if_false, Bool.false_eq_true, and_false, or_false, and_true, reduceCtorEq]
  · rw [magOf_lt_iff, Nat.cast_lt]
  · exact iff_of_false (by omega) (by linarith)
  · exact iff_of_true (by omega) (le_iff_lt_or_eq.mp (by linarith))
  · rw [neg_lt_neg_iff, magOf_lt_iff]
    omega

/-- The key orders numbers as R141 does: by value, −0 below +0. -/
theorem patKey_lt_iff {t : Fmt} (ht : t.maxBits < t.infBits) {x y : Nat} (hx : x < 2 ^ t.width) (hy : y < 2 ^ t.width)
    (ha : (t.decode x).isNan = false) (hb : (t.decode y).isNan = false) : patKey t x < patKey t y ↔
      Below (t.decode x) (t.decode y) ∨
        Same (t.decode x) (t.decode y) ∧ (t.decode x).sign = true ∧ (t.decode y).sign = false := by
  have hinf {z : Nat} {n : Bool} (hz : z < 2 ^ t.width) (h : t.decode z = .inf n) :
      z.testBit (t.width - 1) = n ∧ z % 2 ^ (t.width - 1) = t.infBits := by
    obtain ⟨hs, rfl⟩ := of_decode_inf hz h
    exact ⟨hs, (sign_of_split t n (infBits_lt t)).2⟩
  rw [patKey_eq, patKey_eq]
  match hdx : t.decode x, hdy : t.decode y with
  | .fin n m e, .fin n' m' e' =>
    obtain ⟨hsx, -, -, hmx, -⟩ := of_decode_fin hx hdx
    obtain ⟨hsy, -, -, hmy, -⟩ := of_decode_fin hy hdy
    rw [hsx, hsy, signed_lt_iff t, hmx, hmy, ← ratOf_eq_ite, ← ratOf_eq_ite]
    rfl
  | .inf n, .inf n' =>
    obtain ⟨hsx, hmx⟩ := hinf hx hdx
    obtain ⟨hsy, hmy⟩ := hinf hy hdy
    rw [hsx, hsy, hmx, hmy]
    simp only [Below, Same, FVal.sign]
    cases n <;> cases n' <;> simp
    omega
  | .fin n m e, .inf n' =>
    obtain ⟨hsx, -, hmx, -, -⟩ := of_decode_fin hx hdx
    obtain ⟨hsy, hmy⟩ := hinf hy hdy
    rw [hsx, hsy, hmy]
    generalize x % 2 ^ (t.width - 1) = a at hmx
    simp only [Below, Same, FVal.sign]
    cases n <;> cases n' <;> simp <;> omega
  | .inf n, .fin n' m' e' =>
    obtain ⟨hsx, hmx⟩ := hinf hx hdx
    obtain ⟨hsy, -, hmy, -, -⟩ := of_decode_fin hy hdy
    rw [hsx, hsy, hmx]
    generalize y % 2 ^ (t.width - 1) = b at hmy
    simp only [Below, Same, FVal.sign]
    cases n <;> cases n' <;> simp <;> omega
  | .nan _, _ => rw [hdx] at ha; cases ha
  | _, .nan _ => rw [hdy] at hb; cases hb

/-- The key that FMIN picks the least of, or FMAX, which orders numbers the other way round. -/
def pickKey (t : Fmt) (wantMax : Bool) (x : Nat) : Int := if wantMax then -patKey t x else patKey t x

/-- Of two numbers fMinMax gives the one of lesser key, with no flag. -/
theorem fMinMax_pick {t : Fmt} (ht : t.maxBits < t.infBits) {x y : Nat} (hx : x < 2 ^ t.width) (hy : y < 2 ^ t.width)
    (ha : (t.decode x).isNan = false) (hb : (t.decode y).isNan = false) (w : Bool) :
    fMinMax t w (t.decode x) (t.decode y) = (if pickKey t w y < pickKey t w x then y else x, 0) := by
  obtain ⟨hlt, hgt, hsame⟩ := fMinMax_order hx hy ha hb
  have hsymm := (same_iff_not_below hb ha).trans (and_comm.trans (same_iff_not_below ha hb).symm)
  have hpick : fMinMax t false (t.decode x) (t.decode y) = (if patKey t y < patKey t x then y else x, 0) ∧
      fMinMax t true (t.decode x) (t.decode y) = (if patKey t x < patKey t y then y else x, 0) := by
    rcases lt_trichotomy (patKey t x) (patKey t y) with h | h | h
    · rw [if_neg h.not_gt, if_pos h]
      rcases (patKey_lt_iff ht hx hy ha hb).mp h with h | ⟨h, hsx, hsy⟩
      · exact hlt h
      · simpa [hsx, hsy] using hsame h
    · obtain rfl := patKey_injective hx hy h
      have hrefl := (same_iff_not_below ha ha).mpr ⟨fun h => below_asymm h h, fun h => below_asymm h h⟩
      simpa using hsame hrefl
    · rw [if_pos h, if_neg h.not_gt]
      rcases (patKey_lt_iff ht hy hx hb ha).mp h with h | ⟨h, hsy, hsx⟩
      · exact hgt h
      · simpa [hsx, hsy] using hsame (hsymm.mp h)
  cases w
  · exact hpick.1
  · simpa [pickKey] using hpick.2

theorem fMinMax_flags (t : Fmt) (w : Bool) (a b : FVal) : (fMinMax t w a b).2 = if a.isSig || b.isSig then fNV else 0 := by
  unfold fMinMax
  dsimp only
  split_ifs <;> rfl

theorem isSig_of_isNan {a : FVal} (h : a.isNan = false) : a.isSig = false := by
  cases a with
  | nan s => cases h
  | inf n => rfl
  | fin n m e => rfl

theorem exists_nan_of_isNan {a : FVal} (h : ¬ a.isNan = false) : ∃ s, a = .nan s := by
  cases a with
  | nan s => exact ⟨s, rfl⟩
  | inf n => exact absurd rfl h
  | fin n m e => exact absurd rfl h

/-! ## FMIN and FMAX over a segment (R163) -/

theorem ofNat_toNat_word (x : W32) : BitVec.ofNat 32 x.toNat = x := by simp

/-- The value of an FP32 word, and whether it is a number. -/
def f32Val (x : W32) : FVal := Fmt.f32.decode x.toNat
def F32Num (x : W32) : Prop := (f32Val x).isNan = false

/-- The codes of FMIN and FMAX (Table 8-5). -/
def minMaxOp (wantMax : Bool) : Nat := if wantMax then 10 else 9

theorem wredOp_minMax (w : Bool) (x y : W32) : wredOp (minMaxOp w) x y =
    (BitVec.ofNat 32 (fMinMax .f32 w (f32Val x) (f32Val y)).1, (fMinMax .f32 w (f32Val x) (f32Val y)).2) := by
  cases w <;> rfl

theorem wredId_minMax (w : Bool) : wredId (minMaxOp w) = 0x7FC00000 := by cases w <;> rfl

theorem not_f32Num_canonical : ¬ F32Num 0x7FC00000 := by unfold F32Num f32Val; decide

theorem not_isSig_canonical : (f32Val 0x7FC00000).isSig = false := by unfold f32Val; decide

theorem joinWord_minMax (w : Bool) (x y : W32) :
    joinWord (minMaxOp w) x y = BitVec.ofNat 32 (fMinMax .f32 w (f32Val x) (f32Val y)).1 :=
  congrArg Prod.fst (wredOp_minMax w x y)

theorem joinWord_minMax_nans {w : Bool} {x y : W32} (hx : ¬ F32Num x) (hy : ¬ F32Num y) :
    joinWord (minMaxOp w) x y = 0x7FC00000 := by
  obtain ⟨s, hs⟩ := exists_nan_of_isNan hx
  obtain ⟨s', hs'⟩ := exists_nan_of_isNan hy
  rw [joinWord_minMax, hs, hs']
  rfl

theorem picks_minMax (w : Bool) : Picks (fun x => pickKey .f32 w x.toNat) F32Num (joinWord (minMaxOp w)) where
  both x y hx hy := by
    rw [joinWord_minMax, f32Val, f32Val, fMinMax_pick (by decide) x.isLt y.isLt hx hy]
    dsimp only
    split <;> exact ofNat_toNat_word _
  left x y hx hy := by
    obtain ⟨s, hs⟩ := exists_nan_of_isNan hy
    rw [joinWord_minMax, hs, f32Val, (fMinMax_nan (t := .f32) x.isLt hx w s).2]
    exact ofNat_toNat_word _
  right x y hx hy := by
    obtain ⟨s, hs⟩ := exists_nan_of_isNan hx
    rw [joinWord_minMax, hs, f32Val, (fMinMax_nan (t := .f32) y.isLt hy w s).1]
    exact ofNat_toNat_word _
  none x y hx hy := by
    rw [joinWord_minMax_nans hx hy]
    exact not_f32Num_canonical

theorem not_isSig_joinWord (w : Bool) (x y : W32) : (f32Val (joinWord (minMaxOp w) x y)).isSig = false := by
  by_cases hx : F32Num x <;> by_cases hy : F32Num y
  · rw [(picks_minMax w).both x y hx hy]
    split
    · exact isSig_of_isNan hy
    · exact isSig_of_isNan hx
  · rw [(picks_minMax w).left x y hx hy]
    exact isSig_of_isNan hx
  · rw [(picks_minMax w).right x y hx hy]
    exact isSig_of_isNan hy
  · rw [joinWord_minMax_nans hx hy]
    exact not_isSig_canonical

section
variable {k : Nat} {v : Nat → W32} {en : Nat → Bool}

theorem reduced_minMax_firstOf (hk : k ≤ 5) {L : Nat} (hL : L < 32) (w : Bool) : FirstOf (Member k en L) v F32Num
    (fun x y => pickKey .f32 w x.toNat < pickKey .f32 w y.toNat) ((reduced (minMaxOp w) k v en).1.getD L 0) := by
  refine reduced_firstOf hk hL (picks_minMax w) (fun _ _ hid => ?_) fun x y _ _ h => ?_
  · rw [wredId_minMax] at hid
    exact absurd hid not_f32Num_canonical
  · have hkey : patKey .f32 x.toNat = patKey .f32 y.toNat := by
      cases w
      · exact h
      · exact neg_injective h
    exact BitVec.eq_of_toNat_eq (patKey_injective (t := .f32) x.isLt y.isLt hkey)

/-- With no number among its members a segment gets the canonical NaN. -/
theorem reduced_minMax_nans (hk : k ≤ 5) (hk0 : 0 < k) {L : Nat} (hL : L < 32) (w : Bool)
    (hno : ∀ M, Member k en L M → ¬ F32Num (v M)) : (reduced (minMaxOp w) k v en).1.getD L 0 = 0x7FC00000 := by
  have hx : Extreme (fun x => pickKey .f32 w x.toNat) F32Num (wredId (minMaxOp w)) v en (seg 0 k L)
      ((reduced (minMaxOp w) k v en).1.getD L 0) :=
    reduced_induction hk hL extreme_brought fun A B x y _ => (picks_minMax w).extreme_join
  have hnan : ¬ F32Num ((reduced (minMaxOp w) k v en).1.getD L 0) := by
    intro hn
    rcases hx.mem hn with h | ⟨M, hM, hen, hnM, -⟩
    · rw [h, wredId_minMax] at hn
      exact not_f32Num_canonical hn
    · exact hno M (member_iff.mpr ⟨hM, hen⟩) hnM
  obtain ⟨j, rfl⟩ := Nat.exists_eq_succ_of_ne_zero hk0.ne'
  rw [reduced_word hk hL, steps_succ_last] at hnan ⊢
  generalize steps _ _ _ _ (min _ _) = x at hnan ⊢
  generalize steps _ _ _ _ (max _ _) = y at hnan ⊢
  exact joinWord_minMax_nans (fun hnx => hnan ((picks_minMax w).num_left hnx)) fun hny => hnan ((picks_minMax w).num_right hny)

theorem getLsbD_fNV (i : Nat) : fNV.getLsbD i = decide (i = 4) := by
  by_cases hi : i < 6
  · interval_cases i <;> rfl
  · rw [BitVec.getLsbD_of_ge _ _ (by omega)]
    simp [show i ≠ 4 by omega]

/-- Invalid is raised where a signalling NaN is brought, in the one step that reads the lanes' own words. -/
theorem reduced_minMax_flags (hk : k ≤ 5) (hk0 : 0 < k) (w : Bool) (i : Nat) :
    (reduced (minMaxOp w) k v en).2.getLsbD i = true ↔ i = 4 ∧ ∃ M, M < 32 ∧ en M = true ∧ (f32Val (v M)).isSig = true := by
  have hflag (x y : W32) : (wredOp (minMaxOp w) x y).2.getLsbD i = true ↔
      i = 4 ∧ ((f32Val x).isSig = true ∨ (f32Val y).isSig = true) := by
    rw [wredOp_minMax, fMinMax_flags]
    split <;> simp_all [getLsbD_fNV]
  have hbrought (M : Nat) :
      (f32Val (brought (minMaxOp w) v en M)).isSig = true ↔ en M = true ∧ (f32Val (v M)).isSig = true := by
    unfold brought
    cases en M
    · rw [if_neg Bool.false_ne_true, wredId_minMax, not_isSig_canonical]
      simp
    · simp
  have hsig {j M : Nat} (hj : j < k) (h : (f32Val (steps (joinWord (minMaxOp w)) (j + 1) (k - (j + 1))
      (brought (minMaxOp w) v en) M)).isSig = true) : en M = true ∧ (f32Val (v M)).isSig = true := by
    match hd : k - (j + 1) with
    | 0 => rw [hd] at h; exact (hbrought M).mp h
    | d + 1 =>
      rw [hd, steps_succ_last, not_isSig_joinWord] at h
      cases h
  rw [reduced_flag hk i fun j => rfl]
  constructor
  · rintro ⟨j, L, hj, hL, h⟩
    obtain ⟨hmin, hmax⟩ := pair_lt hL (j := j) (by omega)
    obtain ⟨h4, h | h⟩ := (hflag _ _).mp h
    · exact ⟨h4, _, hmin, hsig hj h⟩
    · exact ⟨h4, _, hmax, hsig hj h⟩
  · rintro ⟨h4, M, hM, hen⟩
    have hM' := (hbrought M).mpr hen
    refine ⟨k - 1, M, by omega, hM, (hflag _ _).mpr ⟨h4, ?_⟩⟩
    rw [show k - (k - 1 + 1) = 0 by omega]
    rcases le_total M (M ^^^ 2 ^ (k - 1)) with h | h
    · exact .inl (by rwa [min_eq_left h])
    · exact .inr (by rwa [max_eq_left h])

end

/-! ## FADD over a segment (R163) -/

theorem infTo_lt (n : Bool) : (infTo .f32 n).1 < 2 ^ 32 := by cases n <;> decide

theorem fAdd_lt (rm : Rm) (a b : FVal) : (fAdd .f32 rm a b).1 < 2 ^ 32 := by
  unfold fAdd
  split
  · exact roundTo_lt .f32 ..
  · split
    · exact infTo_lt _
    · exact (by decide : (invalid .f32).1 < 2 ^ 32)
  · exact infTo_lt _
  · exact infTo_lt _
  · exact (by decide : Fmt.f32.nanBits < 2 ^ 32)

section
variable {g : Nat → Nat → Nat × FpFlags} (hg : ∀ x y, g x y = fAdd .f32 .rne (Fmt.f32.decode x) (Fmt.f32.decode y))
include hg

theorem wredOp_fadd (x y : W32) : wredOp 8 x y = (BitVec.ofNat 32 (g x.toNat y.toNat).1, (g x.toNat y.toNat).2) := by
  rw [hg]
  rfl

/-- FADD's steps are those of the sums on patterns. -/
theorem toNat_steps_fadd (lo j : Nat) (t : Nat → W32) (L : Nat) : (steps (joinWord 8) lo j t L).toNat =
    steps (fun x y => (g x y).1) lo j (fun L => (t L).toNat) L := by
  refine steps_map (f := BitVec.toNat) (fun x y => ?_) lo j t L
  rw [joinWord, wredOp_fadd hg, BitVec.toNat_ofNat, Nat.mod_eq_of_lt]
  rw [hg]
  exact fAdd_lt ..

end

theorem toNat_brought_fadd (v : Nat → W32) (en : Nat → Bool) (L : Nat) :
    (brought 8 v en L).toNat = if en L then (v L).toNat else 0x80000000 := by
  unfold brought
  cases en L <;> rfl

theorem reductionValues : ReductionValues := by
  intro k v en w r hk hw hr
  obtain rfl : w = fun op => reduced op k v en := funext hw
  obtain rfl : r = fun op L => (reduced op k v en).1.getD L 0 := funext fun op => funext (hr op)
  refine ⟨?words, ?fadd, fun op hop => wredSteps_flags_zero hop _ _ rfl, ?flags⟩
  case words =>
    rintro L hL _ rfl
    obtain ⟨h1, h2, h3, h4⟩ := reduced_integers hk hL v en
    refine ⟨reduced_sum hk hL, h1, h2, h3, h4, fun i => reduced_and hk hL, reduced_or hk hL, reduced_xor hk hL, ?_⟩
    intro num b hb hnum
    obtain rfl : b = f32Val := funext hb
    obtain rfl : num = F32Num := funext fun x => propext (hnum x)
    have horder (x y : W32) (hx : F32Num x) (hy : F32Num y) := patKey_lt_iff (t := .f32) (by decide) x.isLt y.isLt hx hy
    refine ⟨firstOf_imp (reduced_minMax_firstOf hk hL false) fun x y hx hy => (horder x y hx hy).mpr,
      firstOf_imp (reduced_minMax_firstOf hk hL true) fun x y hx hy h => neg_lt_neg ((horder y x hy hx).mpr ?_),
      fun hno hk0 => ⟨reduced_minMax_nans hk hk0 hL false hno, reduced_minMax_nans hk hk0 hL true hno⟩⟩
    refine h.imp_right fun ⟨hs, hsx, hsy⟩ => ⟨?_, hsy, hsx⟩
    exact (same_iff_not_below hy hx).mpr ((same_iff_not_below hx hy).mp hs).symm
  case fadd =>
    intro g t hg ht
    have hsteps (j L : Nat) : (steps (joinWord 8) j (k - j) (brought 8 v en) L).toNat = t j L := by
      rw [toNat_steps_fadd hg, ht]
      simp only [toNat_brought_fadd]
    refine ⟨fun L hL => ?_, fun i => ?_⟩
    · show ((reduced 8 k v en).1.getD L 0).toNat = _
      rw [reduced_word hk hL]
      exact hsteps 0 L
    · rw [reduced_flag hk i fun j => rfl]
      simp only [wredOp_fadd hg, hsteps]
  case flags =>
    intro op hop hk0
    obtain ⟨w, rfl⟩ : ∃ w, op = minMaxOp w := hop.elim (fun h => ⟨false, h⟩) fun h => ⟨true, h⟩
    refine ⟨(reduced_minMax_flags hk hk0 w 4).trans (and_iff_right rfl), fun i hi => Bool.eq_false_iff.mpr fun h => ?_⟩
    exact hi ((reduced_minMax_flags hk hk0 w i).mp h).1

end Sys2Proof.Proofs

/-! ## The statement -/

namespace Sys2Proof.Settled
open Sys2Proof Sys2Proof.Machine Sys2Proof.Claims Sys2Proof.Laws Sys2Proof.Proofs

/-- Settles O42, a form at a time; a reduction's values and uniformity by induction over the lanes that its steps join. -/
theorem crossLaneForms : Obligations.CrossLaneForms := ⟨crossLane, reductionUniform, reductionValues⟩

end Sys2Proof.Settled
end

section
/-! PROOF. The family "lanes", queued units (O43). What the SFU, the sampler and its fence make of the state as each of their
conditions holds, then the statement. -/

namespace Sys2Proof.Proofs
open Sys2Proof Sys2Proof.Machine Sys2Proof.Claims Sys2Proof.Laws

/-! ## The special-function unit (R165) -/

theorem laneMask_eq_zero_iff (p : Nat → Bool) : laneMask p = 0 ↔ ∀ L, L < 32 → p L = false := by
  constructor
  · intro h L hL
    rw [← getLsbD_laneMask p hL, h]
    exact BitVec.getLsbD_zero
  · intro h
    apply BitVec.eq_of_getLsbD_eq
    intro L hL
    rw [getLsbD_laneMask p hL, h L hL]
    exact BitVec.getLsbD_zero.symm

/-- A core whose firing takes another value while its own queues are what they are. -/
theorem firing_setCore_setFiring (s : State) (n sl : Nat) (c : Core) (g : Firing) :
    (s.setCore n (c.setFiring sl g)).firing n sl = some g := by
  rw [firing_setCore_same, coreFiring_setFiring, if_pos rfl]

/-- The entry that SFU takes in the core's queue: the operands of a latch now, those of a register when service starts. -/
def sfuEntry (sl : Nat) (f : Firing) (o : SfuOps) : SfuEnt :=
  { slot := sl, pc := f.pc, mask := laneMask (f.enL o.h), fn := o.fn, sa := o.a, d := o.d.toNat,
    vals := match o.a with | .lv _ => some (lanes.map fun L => (L, f.srcV L o.a)) | _ => none }

section
variable {s : State} {n sl : Nat} {f : Firing}

theorem exec_sfu_disabled (hi : Issues s n sl f) {o : SfuOps} (hno : noLane f o.h) :
    Gives (.sfu o) s n sl (f.retire true o.h .l64 .none) := by
  show execSfu o s = _
  unfold execSfu
  rw [withF_issues hi.1 hi.2]
  dsimp only
  rw [if_pos ((laneMask_eq_zero_iff _).mpr hno)]

theorem exec_sfu_queues (hi : Issues s n sl f) {o : SfuOps} (hsome : ¬ noLane f o.h) (hroom : (s.core n).sfuQ.length < 16)
    (htwo : ((s.core n).sfuQ.filter fun e => e.slot == sl).length < 2) : exec (.sfu o) s = .next (s.setCore n
      ({ s.core n with sfuQ := (s.core n).sfuQ ++ [sfuEntry sl f o] }.setFiring sl (f.retire true o.h .l64 .none))) := by
  have hfree : ¬ (decide (Config.sfuCap ≤ (s.core n).sfuQ.length) ||
      decide (2 ≤ ((s.core n).sfuQ.filter fun e => e.slot == sl).length)) = true := by
    rw [Bool.or_eq_true, decide_eq_true_eq, decide_eq_true_eq, Config.sfuCap]
    omega
  show execSfu o s = _
  unfold execSfu
  rw [withF_issues hi.1 hi.2]
  dsimp only
  rw [if_neg fun h => hsome ((laneMask_eq_zero_iff _).mp h), if_neg hfree]
  rfl

end

theorem sfuIssue : SfuIssue := by
  intro o s n sl f hi
  refine ⟨exec_sfu_disabled hi, fun hsome hroom htwo => ?_⟩
  have hexec := exec_sfu_queues hi hsome hroom htwo
  generalize he : sfuEntry sl f o = e at hexec
  refine ⟨_, e, hexec, ?_, ?_⟩
  · rw [core_setCore_same, coreSetFiring_sfuQ]
  · subst he
    exact ⟨rfl, rfl, rfl, rfl, fun L hL => getLsbD_laneMask _ hL, firing_setCore_setFiring .., rfl⟩

/-! ## The sampler (R341 to R346) -/

theorem spadProt_of_spadOk {c : Core} {a : W64} {size : Nat} (h : SpadOk c a size) : c.spadProt a.toNat size = false := by
  obtain ⟨-, hend, hws⟩ := h
  simp only [Core.spadProt, Core.inWs, Bool.or_eq_false_iff, Bool.and_eq_false_iff, decide_eq_false_iff_not]
  omega

/-- The request that a sampler form puts in its queue. -/
def sampRequest (s : State) (n sl : Nat) (f : Firing) (fetch : Bool) (o : SmpOps) (xs : List (Nat × Nat × Bool)) : SampReq :=
  { slot := sl, seq := f.seq, fetch := fetch, desc := (s.core n).getBs (f.srcS o.desc).toNat 32,
    args := (actLanes f o.h o.qm).map fun L => (L, f.getV o.u.toNat L, f.getV o.v.toNat L), xl := xs.eraseDups, d := o.d.toNat }

/-- What a sampler form leaves pending: the four lane registers of its channels. -/
def sampDep (s : State) (n sl : Nat) (f : Firing) (o : SmpOps) : Dep :=
  { seq := f.seq, pc := f.pc, word := codeWord s n sl f.pc, sregs := [], vregs := (List.range 4).map (o.d.toNat + ·),
    dst := .none, src := .unit }

/-- The texels' addresses that a sampler form translates, a lane's after another's. -/
def texelAddrs (s : State) (n : Nat) (f : Firing) (fetch : Bool) (o : SmpOps) : List (Nat × Nat) :=
  (actLanes f o.h o.qm).flatMap fun L =>
    ((taps ((s.core n).getBs (f.srcS o.desc).toNat 32) fetch (f.getV o.u.toNat L) (f.getV o.v.toNat L)).getD []).map fun t =>
      (L, texelVa ((s.core n).getBs (f.srcS o.desc).toNat 32) t.1.1 t.1.2)

section
variable {s : State} {n sl : Nat} {f : Firing} {fetch : Bool} {o : SmpOps}

theorem smpIssue_misaligned (hi : Issues s n sl f) (he : f.enS o.h = true) (ha : (f.srcS o.desc).toNat % 32 ≠ 0) :
    smpIssue fetch o s = .next (takeTrap s n sl (causeAt 0x09 .scratch (f.srcS o.desc))) := by
  unfold smpIssue
  rw [withF_issues hi.1 hi.2]
  simp [he, ha]

theorem smpIssue_illFormed (hi : Issues s n sl f) (he : f.enS o.h = true) (hs : SpadOk (s.core n) (f.srcS o.desc) 32)
    (hd : sdFormed ((s.core n).getBs (f.srcS o.desc).toNat 32) = false) : smpIssue fetch o s = .next (takeTrap s n sl
      (msgfmt (w64OfLE ((((s.core n).getBs (f.srcS o.desc).toNat 32).drop 0x10).take 8)))) := by
  unfold smpIssue
  rw [withF_issues hi.1 hi.2]
  simp [he, hs.1, spadProt_of_spadOk hs, hd]

theorem smpIssue_queues (hi : Issues s n sl f) (he : f.enS o.h = true) (hs : SpadOk (s.core n) (f.srcS o.desc) 32)
    (hd : sdFormed ((s.core n).getBs (f.srcS o.desc).toNat 32) = true) (hls : actLanes f o.h o.qm ≠ [])
    (hroom : (s.core n).sampQ.length < 8) {xs : List (Nat × Nat × Bool)}
    (hx : planTexels (s.core n) sl f (texelAddrs s n f fetch o) = .ok xs) :
    smpIssue fetch o s = .next (s.setCore n
      ({ s.core n with sampQ := (s.core n).sampQ ++ [sampRequest s n sl f fetch o xs] }.setFiring sl
        ({ f with deps := f.deps ++ [sampDep s n sl f o] }.retire false o.h .l96 .none))) := by
  have hcap : ¬ Config.sampCap ≤ (s.core n).sampQ.length := Nat.not_le.mpr hroom
  unfold smpIssue
  rw [withF_issues hi.1 hi.2]
  simp only [he, hs.1, spadProt_of_spadOk hs, hd, List.flatMap_map, Bool.not_true, Bool.false_eq_true, if_false,
    bne_self_eq_false]
  rw [show List.flatMap _ _ = texelAddrs s n f fetch o from rfl, hx]
  simp only [List.isEmpty_iff, hls, hcap, if_false]
  rfl

theorem exec_sampler (fetch : Bool) (o : SmpOps) (s : State) :
    exec (if fetch then .smpf o else .smp o) s = smpIssue fetch o s := by
  cases fetch <;> rfl

end

theorem samplerForms : SamplerForms := by
  refine ⟨?requests, ?fence⟩
  case requests =>
    rintro o s n sl f fetch _ _ _ _ xs hi he rfl rfl rfl rfl
    rw [exec_sampler]
    refine ⟨smpIssue_misaligned hi he, smpIssue_illFormed hi he, fun hs hd hls hroom hx => ?_⟩
    have hexec := smpIssue_queues hi he hs hd hls hroom hx
    generalize hq : sampRequest s n sl f fetch o xs = q at hexec
    refine ⟨_, q, { f with deps := f.deps ++ [sampDep s n sl f o] }, sampDep s n sl f o, hexec, rfl, ?_, ?_⟩
    · rw [core_setCore_same, coreSetFiring_sampQ]
    · subst hq
      exact ⟨rfl, rfl, rfl, rfl, rfl, rfl, firing_setCore_setFiring .., rfl, rfl, rfl, rfl⟩
  case fence =>
    intro o s n sl f hi he hq
    have hnone : ((s.core n).sampQ.any fun q => q.slot == sl) = false := by simpa using hq
    refine (withF_issues hi.1 hi.2 _).trans ?_
    simp [he, hnone]

end Sys2Proof.Proofs

/-! ## The statement -/

namespace Sys2Proof.Settled
open Sys2Proof Sys2Proof.Machine Sys2Proof.Claims Sys2Proof.Laws Sys2Proof.Proofs

/-- Settles O43: the first condition of the forms that fails says what happens, and where none does the request is queued. -/
theorem queuedLaneUnits : Obligations.QueuedLaneUnits := ⟨sfuIssue, samplerForms⟩

end Sys2Proof.Settled
end

section
/-! PROOF. The family "matrix", the unit forms (O44). What a unit form does at issue by the lanes enabled and the state of the unit,
and which words the operation holds that it leaves in the unit. -/

namespace Sys2Proof.Proofs
open Sys2Proof Sys2Proof.Machine Sys2Proof.Claims Sys2Proof.Laws

/-! ## All lanes, or none (R171) -/

theorem allLanes_iff (f : Firing) (h : Head) : f.allLanes h = true ↔ everyLane f h := by
  simp [Firing.allLanes, everyLane, lanes]

theorem noLanes_iff (f : Firing) (h : Head) : f.noLanes h = true ↔ noLane f h := by
  simp [Firing.noLanes, noLane, lanes]

theorem not_noLanes_of_everyLane {f : Firing} {h : Head} (hall : everyLane f h) : ¬ f.noLanes h = true := fun hno => by
  have hon := hall 0 (by decide)
  rw [(noLanes_iff f h).mp hno 0 (by decide)] at hon
  exact Bool.false_ne_true hon

/-! ## What the unit forms do at issue (R171, R184) -/

section
variable {s : State} {n sl : Nat} {f : Firing} {i : Instr} {h : Head} {l : Len} {d regs : Nat}
  {g : Firing → List (Nat × W32) × FpFlags}

theorem unitExec_waits (hi : Issues s n sl f) (hm : (s.core n).mat ≠ none) : unitExec h l d regs g s = .next s := by
  rw [unitExec, withF_issues hi.1 hi.2]
  dsimp only
  rw [if_pos (Option.isSome_iff_ne_none.mpr hm)]

/-- With the unit free and not every lane enabled: no effect with none, MMALANES with some. -/
theorem unitExec_lanes (he : exec i s = unitExec h l d regs g s) (hi : Issues s n sl f) (hm : (s.core n).mat = none) :
    (noLane f h → Gives i s n sl (f.retire true h l .none)) ∧
    (¬ noLane f h → ¬ everyLane f h → exec i s = .next (takeTrap s n sl (cause 0x10))) := by
  rw [unitExec, withF_issues hi.1 hi.2] at he
  dsimp only at he
  rw [if_neg (by simp [hm])] at he
  constructor
  · intro hno
    exact he.trans (by rw [if_pos ((noLanes_iff f h).mpr hno)])
  · intro hsome hpart
    exact he.trans (by rw [if_neg (mt (noLanes_iff f h).mp hsome), if_pos (by simpa using mt (allLanes_iff f h).mp hpart)])

theorem unitTakes_unitExec (he : exec i s = unitExec h l d regs g s) (hi : Issues s n sl f) (hall : everyLane f h)
    (hm : (s.core n).mat = none) {P : MatOp → Prop}
    (hP : ∀ op, op.d = d → op.vals = (g f).1 → op.flags = (g f).2 → P op) : UnitTakes i s n sl f h l P := by
  rw [unitExec, withF_issues hi.1 hi.2] at he
  dsimp only at he
  rw [if_neg (by simp [hm]), if_neg (not_noLanes_of_everyLane hall), if_neg (by simpa using (allLanes_iff f h).mpr hall)] at he
  exact ⟨_, he, rfl, rfl, hP _ rfl rfl rfl⟩

end

/-! ## The results of all elements (R173, R175) -/

theorem foldl_words_flags {α : Type} (w : Nat → List α) (fl : Nat → FpFlags) (is : List Nat) (acc : List α × FpFlags) :
    is.foldl (fun acc i => (acc.1 ++ w i, acc.2 ||| fl i)) acc =
      (acc.1 ++ is.flatMap w, (is.map fl).foldl (· ||| ·) acc.2) := by
  induction is generalizing acc with
  | nil => simp
  | cons i is ih => simp [ih]

theorem mmaAll_eq (base : Nat) (wide : Bool) (el : Nat → Nat → Nat × FpFlags) : mmaAll base wide el =
    ((List.range 256).flatMap fun i => accWords base wide (i / 16) (i % 16) (el (i / 16) (i % 16)).1,
      orAll ((List.range 256).map fun i => (el (i / 16) (i % 16)).2)) :=
  foldl_words_flags ..

/-- The words of each element are among the operation's. -/
theorem mem_mmaAll {base : Nat} {wide : Bool} {el : Nat → Nat → Nat × FpFlags} {m n : Nat} (hm : m < 16) (hn : n < 16)
    {x : Nat × W32} (hx : x ∈ accWords base wide m n (el m n).1) : x ∈ (mmaAll base wide el).1 := by
  have hdiv : (16 * m + n) / 16 = m := by omega
  have hmod : (16 * m + n) % 16 = n := by omega
  rw [mmaAll_eq]
  refine List.mem_flatMap.mpr ⟨16 * m + n, List.mem_range.mpr (by omega), ?_⟩
  rwa [hdiv, hmod]

theorem mem_mmaAll_narrow {base : Nat} {el : Nat → Nat → Nat × FpFlags} {m n : Nat} (hm : m < 16) (hn : n < 16) :
    (accKey base m n, BitVec.ofNat 32 (el m n).1) ∈ (mmaAll base false el).1 :=
  mem_mmaAll hm hn (List.mem_singleton_self _)

theorem mem_mmaAll_wide {base : Nat} {el : Nat → Nat → Nat × FpFlags} {m n k : Nat} (hm : m < 16) (hn : n < 16) (hk : k < 2) :
    (accKey (base + n % 8 + k) m n, BitVec.ofNat 32 ((el m n).1 / 2 ^ (32 * k))) ∈ (mmaAll base true el).1 := by
  refine mem_mmaAll hm hn ?_
  have hkey : accKey (base + n % 8 + k) m n = 32 * (base + 2 * (n % 8) + k) + (m + 16 * (n / 8)) := by
    unfold accKey
    omega
  rw [hkey]
  obtain rfl | rfl : k = 0 ∨ k = 1 := by omega
  · simp [accWords]
  · simp [accWords]

/-- Elements that raise nothing leave the operation without flags. -/
theorem mmaAll_flags_zero {base : Nat} {wide : Bool} {el : Nat → Nat → Nat × FpFlags} (h : ∀ m n, (el m n).2 = 0) :
    (mmaAll base wide el).2 = 0 := by
  rw [mmaAll_eq]
  refine BitVec.eq_of_getLsbD_eq fun b _ => ?_
  rw [getLsbD_orAll, getLsbD_noFlags, List.any_eq_false]
  intro fl hfl
  obtain ⟨i, -, rfl⟩ := List.mem_map.mp hfl
  rw [h, getLsbD_noFlags]
  exact Bool.false_ne_true

/-! ## Integer elements (R175) -/

theorem foldl_add_eq_sum {α : Type} (p : α → Int) (ks : List α) (v : Int) :
    ks.foldl (fun v k => v + p k) v = v + (ks.map p).sum := by
  induction ks generalizing v with
  | nil => simp
  | cons k ks ih => rw [List.foldl_cons, ih, List.map_cons, List.sum_cons, add_assoc]

theorem toInt_ofNat_wrapN (z : Int) : (BitVec.ofNat 32 (wrapN 32 z)).toInt = z.bmod (2 ^ 32) := by
  rw [BitVec.toInt_ofNat', natCast_wrapN]
  exact Int.emod_bmod ..

theorem accElem_narrow_lt (f : Firing) (base m n : Nat) : f.accElem base false m n < 2 ^ 32 := BitVec.isLt _

/-- An integer MMA adds the exact sum of products to the accumulator, and raises nothing. -/
theorem mmaElem_integer {o : MmaOps} (hi : o.i = true) {w : Nat} (hw : w ≠ 64) (f : Firing) (m n : Nat) :
    mmaElem f o w m n = (wrapN 32 (sintN 32 (f.accElem o.d.toNat false m n) + ((List.range (kOf w)).map fun k =>
      mmaInt o.ta (f.fragElem o.a.toNat w m k) * mmaInt o.tb (f.fragElem o.b.toNat w n k)).sum), 0) := by
  unfold mmaElem
  rw [if_pos hi, beq_eq_false_iff_ne.mpr hw, foldl_add_eq_sum, zero_add, elI_signed (accElem_narrow_lt ..)]

/-! ## MMA, MMAS and MMAQ as unit forms -/

theorem exec_mma (o : MmaOps) {w : Nat} (hw : mmaWidth o.i o.ta = some w) (s : State) :
    exec (.mma o) s = unitExec o.h .l64 o.d.toNat (if w == 64 then 16 else 8)
      (fun f => mmaAll o.d.toNat (w == 64) (mmaElem f o w)) s := by
  show execMma o s = _
  rw [execMma, hw, Option.getD_some]

theorem exec_mmas (o : MmasOps) {w : Nat} (hw : mmaWidth o.i o.ta = some w) (s : State) :
    exec (.mmas o) s = unitExec o.h .l96 o.d.toNat 8 (fun f => mmaAll o.d.toNat false (mmasElem f o w)) s := by
  show execMmas o s = _
  rw [execMmas, hw, Option.getD_some]

theorem exec_mmaq (o : MmaqOps) {w : Nat} (hw : mmaWidth o.i o.ta = some w) (s : State) :
    exec (.mmaq o) s = unitExec o.h .l96 o.d.toNat 8 (fun f => mmaAll o.d.toNat false (mmaqElem f o w)) s := by
  show execMmaq o s = _
  rw [execMmaq, hw, Option.getD_some]

theorem matrixProducts : MatrixProducts := by
  refine ⟨?mma, ?mmas, ?mmaq, ?waits, ?lanes⟩
  case mma =>
    intro o s n sl f w hi hall hm hw
    refine unitTakes_unitExec (exec_mma o hw s) hi hall hm fun op hd hvals hflags => ?_
    rw [hvals, hflags]
    have hnarrow (h64 : w ≠ 64) (i j : Nat) (hi : i < 16) (hj : j < 16) : (accKey o.d.toNat i j,
        BitVec.ofNat 32 (mmaElem f o w i j).1) ∈ (mmaAll o.d.toNat (w == 64) (mmaElem f o w)).1 := by
      rw [beq_eq_false_iff_ne.mpr h64]
      exact mem_mmaAll_narrow hi hj
    refine ⟨hd, fun hint h64 => ⟨?_, fun i j hi hj => ⟨_, hnarrow h64 i j hi hj, ?_⟩⟩, hnarrow, fun h64 i j hi hj k hk => ?_⟩
    · exact mmaAll_flags_zero fun m n => by rw [mmaElem_integer hint h64]
    · rw [mmaElem_integer hint h64]
      exact toInt_ofNat_wrapN _
    · rw [beq_iff_eq.mpr h64]
      exact mem_mmaAll_wide hi hj hk
  case mmas =>
    intro o s n sl f w hi hall hm hw
    refine unitTakes_unitExec (exec_mmas o hw s) hi hall hm fun op hd hvals _ => ⟨hd, fun i j hi hj => ?_⟩
    rw [hvals]
    exact mem_mmaAll_narrow hi hj
  case mmaq =>
    intro o s n sl f w hi hall hm hw
    refine unitTakes_unitExec (exec_mmaq o hw s) hi hall hm fun op hd hvals _ => ⟨hd, fun i j hi hj => ?_⟩
    rw [hvals]
    exact mem_mmaAll_narrow hi hj
  case waits =>
    intro o p q s n sl f hi hm
    exact ⟨unitExec_waits hi hm, unitExec_waits hi hm, unitExec_waits hi hm⟩
  case lanes =>
    intro o p q s n sl f hi hm
    obtain ⟨hmma, hmma'⟩ := unitExec_lanes (i := .mma o) (execMma.eq_1 o s) hi hm
    obtain ⟨hmmas, hmmas'⟩ := unitExec_lanes (i := .mmas p) (execMmas.eq_1 p s) hi hm
    obtain ⟨hmmaq, hmmaq'⟩ := unitExec_lanes (i := .mmaq q) (execMmaq.eq_1 q s) hi hm
    exact ⟨hmma, hmma', hmmas, hmmas', hmmaq, hmmaq'⟩

end Sys2Proof.Proofs
end

section
/-! PROOF. The family "matrix", the values of an element (O44). First the exact product of factors and the sum of a group, each
with the special cases of R176; then the groups added one after another, and where the operands lie. -/

namespace Sys2Proof.Proofs
open Sys2Proof Sys2Proof.Machine Sys2Proof.Claims Sys2Proof.Laws

/-! ## The exact product of factors (R176) -/

/-- A factor that is an infinity, and one that is a zero. -/
def isInfVal : FVal → Bool
  | .inf _ => true
  | _ => false

def isZeroVal : FVal → Bool
  | .fin _ m _ => m == 0
  | _ => false

/-- The sign of a product. -/
def productSign (p : List FVal) : Bool := p.foldl (fun b x => b != x.sign) false

/-- A magnitude and exponent times those of a finite factor. -/
def mulFin (acc : Nat × Int) : FVal → Nat × Int
  | .fin _ m e => (acc.1 * m, acc.2 + e)
  | _ => acc

theorem prodOf_eq (p : List FVal) : prodOf p =
    if p.any FVal.isNan then .nan (p.any FVal.isSig)
    else if p.any isInfVal then (if p.any isZeroVal then .zeroInf else .inf (productSign p))
    else .fin (productSign p) (p.foldl mulFin (1, 0)).1 (p.foldl mulFin (1, 0)).2 := rfl

theorem any_isNan_iff (p : List FVal) : p.any FVal.isNan = true ↔ hasNan p := by
  rw [List.any_eq_true, hasNan]
  constructor
  · rintro ⟨x, hx, hnan⟩
    cases x with
    | nan q => exact ⟨q, hx⟩
    | _ => cases hnan
  · rintro ⟨q, hq⟩
    exact ⟨_, hq, rfl⟩

theorem any_isSig_iff (p : List FVal) : p.any FVal.isSig = true ↔ .nan true ∈ p := by
  rw [List.any_eq_true]
  constructor
  · rintro ⟨x, hx, hsig⟩
    cases x with
    | nan q => cases hsig; exact hx
    | _ => cases hsig
  · intro h
    exact ⟨_, h, rfl⟩

theorem any_isInfVal_iff (p : List FVal) : p.any isInfVal = true ↔ hasInf p := by
  rw [List.any_eq_true, hasInf]
  constructor
  · rintro ⟨x, hx, hinf⟩
    cases x with
    | inf n => exact ⟨n, hx⟩
    | _ => cases hinf
  · rintro ⟨n, hn⟩
    exact ⟨_, hn, rfl⟩

theorem any_isZeroVal_iff (p : List FVal) : p.any isZeroVal = true ↔ hasZero p := by
  rw [List.any_eq_true, hasZero]
  constructor
  · rintro ⟨x, hx, hzero⟩
    cases x with
    | fin n m e =>
      obtain rfl : m = 0 := by simpa [isZeroVal] using hzero
      exact ⟨n, e, hx⟩
    | _ => cases hzero
  · rintro ⟨n, e, hn⟩
    exact ⟨_, hn, rfl⟩

theorem productSign_iff (p : List FVal) : productSign p = true ↔ negative p := by
  have key (b : Bool) : p.foldl (fun b x => b != x.sign) b = (b != decide (p.countP FVal.sign % 2 = 1)) := by
    induction p generalizing b with
    | nil => simp
    | cons x xs ih =>
      rw [List.foldl_cons, ih, List.countP_cons]
      rcases Nat.mod_two_eq_zero_or_one (xs.countP FVal.sign) with h | h <;> cases x.sign <;> simp [Nat.add_mod, h]
  rw [productSign, key, negative]
  simp

theorem prodOf_nan {p : List FVal} (h : hasNan p) : prodOf p = .nan (p.any FVal.isSig) := by
  rw [prodOf_eq, if_pos ((any_isNan_iff p).mpr h)]

section
variable {p : List FVal} (hnan : ¬ hasNan p)
include hnan

theorem prodOf_zeroInf (hinf : hasInf p) (hzero : hasZero p) : prodOf p = .zeroInf := by
  rw [prodOf_eq, if_neg (mt (any_isNan_iff p).mp hnan), if_pos ((any_isInfVal_iff p).mpr hinf),
    if_pos ((any_isZeroVal_iff p).mpr hzero)]

theorem prodOf_inf (hinf : hasInf p) (hzero : ¬ hasZero p) : prodOf p = .inf (productSign p) := by
  rw [prodOf_eq, if_neg (mt (any_isNan_iff p).mp hnan), if_pos ((any_isInfVal_iff p).mpr hinf),
    if_neg (mt (any_isZeroVal_iff p).mp hzero)]

theorem prodOf_fin (hinf : ¬ hasInf p) :
    prodOf p = .fin (productSign p) (p.foldl mulFin (1, 0)).1 (p.foldl mulFin (1, 0)).2 := by
  rw [prodOf_eq, if_neg (mt (any_isNan_iff p).mp hnan), if_neg (mt (any_isInfVal_iff p).mp hinf)]

/-- The exact product of finite factors. -/
theorem ratOf_product (hinf : ¬ hasInf p) :
    ratOf (productSign p) (p.foldl mulFin (1, 0)).1 (p.foldl mulFin (1, 0)).2 = (p.map numOf).prod := by
  have key (b : Bool) (a : Nat × Int) : ratOf (p.foldl (fun b x => b != x.sign) b) (p.foldl mulFin a).1 (p.foldl mulFin a).2 =
      ratOf b a.1 a.2 * (p.map numOf).prod := by
    induction p generalizing b a with
    | nil => simp
    | cons x xs ih =>
      rw [List.foldl_cons, List.foldl_cons, ih (fun ⟨q, h⟩ => hnan ⟨q, List.mem_cons_of_mem _ h⟩)
        (fun ⟨q, h⟩ => hinf ⟨q, List.mem_cons_of_mem _ h⟩), List.map_cons, List.prod_cons, ← mul_assoc]
      congr 1
      match x with
      | .nan q => exact absurd ⟨q, List.mem_cons_self⟩ hnan
      | .inf n => exact absurd ⟨n, List.mem_cons_self⟩ hinf
      | .fin n m e => exact (ratOf_mul b a.1 a.2 n m e).symm
  rw [productSign, key]
  simp [ratOf]

end

/-! ## Kinds of products -/

/-- A product that makes its group a NaN, and one that raises NV. -/
def noNumber : Prod → Bool
  | .nan _ | .zeroInf => true
  | _ => false

def raisesNv : Prod → Bool
  | .nan sg => sg
  | .zeroInf => true
  | _ => false

theorem noNumber_prodOf_iff (p : List FVal) : noNumber (prodOf p) = true ↔ hasNan p ∨ hasZero p ∧ hasInf p := by
  by_cases hnan : hasNan p
  · simp [prodOf_nan hnan, noNumber, hnan]
  by_cases hinf : hasInf p
  · by_cases hzero : hasZero p
    · simp [prodOf_zeroInf hnan hinf hzero, noNumber, hinf, hzero]
    · simp [prodOf_inf hnan hinf hzero, noNumber, hnan, hzero]
  · simp [prodOf_fin hnan hinf, noNumber, hnan, hinf]

theorem raisesNv_prodOf_iff (p : List FVal) :
    raisesNv (prodOf p) = true ↔ .nan true ∈ p ∨ ¬ hasNan p ∧ hasZero p ∧ hasInf p := by
  by_cases hnan : hasNan p
  · rw [prodOf_nan hnan, raisesNv, any_isSig_iff]
    simp [hnan]
  have hsig : .nan true ∉ p := fun h => hnan ⟨true, h⟩
  by_cases hinf : hasInf p
  · by_cases hzero : hasZero p
    · simp [prodOf_zeroInf hnan hinf hzero, raisesNv, hnan, hinf, hzero]
    · simp [prodOf_inf hnan hinf hzero, raisesNv, hsig, hzero]
  · simp [prodOf_fin hnan hinf, raisesNv, hsig, hinf]

/-- Where no product is a NaN or 0 × ∞, those that are an infinity, by sign. -/
theorem isInf_prodOf_iff {p : List FVal} (hnan : ¬ hasNan p) (hzi : ¬ (hasZero p ∧ hasInf p)) (b : Bool) :
    (prodOf p).isInf b = true ↔ hasInf p ∧ productSign p = b := by
  by_cases hinf : hasInf p
  · simp [prodOf_inf hnan hinf (fun hz => hzi ⟨hz, hinf⟩), Prod.isInf, hinf]
  · simp [prodOf_fin hnan hinf, Prod.isInf, hinf]

/-! ## The exact sum of finite products, rounded once (R176) -/

/-- The least exponent of finite terms and 0: the unit of the fixed-point adder. -/
def leastExp (fins : List (Bool × Nat × Int)) : Int :=
  fins.foldl (fun (lo : Int) p => if p.2.2 < lo then p.2.2 else lo) 0

/-- The exact sum in those units. -/
def unitSum (fins : List (Bool × Nat × Int)) : Int :=
  fins.foldl (fun (v : Int) p => v + scaled p.1 p.2.1 p.2.2 (leastExp fins)) 0

/-- The sum's sign; an exact zero is negative where every term is. -/
def sumSign (fins : List (Bool × Nat × Int)) : Bool :=
  if unitSum fins = 0 then fins.all (·.1) else decide (unitSum fins < 0)

/-- The sign, magnitude and exponent of a finite product. -/
def finTerm : Prod → Option (Bool × Nat × Int)
  | .fin n m e => some (n, m, e)
  | _ => none

/-- What a group of finite products gives. -/
def finiteSum (acc : Fmt) (fins : List (Bool × Nat × Int)) : Nat × FpFlags :=
  roundTo acc .rne false (sumSign fins) (unitSum fins).natAbs (leastExp fins)

theorem groupSum_eq (acc : Fmt) (ps : List Prod) : groupSum acc ps =
    if ps.any noNumber then (.nan false, if ps.any raisesNv then fNV else 0)
    else if ps.any (·.isInf true) && ps.any (·.isInf false) then (.nan false, fNV)
    else if ps.any (·.isInf true) then (.inf true, 0)
    else if ps.any (·.isInf false) then (.inf false, 0)
    else (acc.decode (finiteSum acc (ps.filterMap finTerm)).1, (finiteSum acc (ps.filterMap finTerm)).2) := rfl

theorem leastExp_le {fins : List (Bool × Nat × Int)} {p : Bool × Nat × Int} (hp : p ∈ fins) : leastExp fins ≤ p.2.2 := by
  have key (lo : Int) : fins.foldl (fun (lo : Int) p => if p.2.2 < lo then p.2.2 else lo) lo ≤ lo ∧
      ∀ p ∈ fins, fins.foldl (fun (lo : Int) p => if p.2.2 < lo then p.2.2 else lo) lo ≤ p.2.2 := by
    clear hp
    induction fins generalizing lo with
    | nil => simp
    | cons x xs ih =>
      obtain ⟨hlo, hle⟩ := ih (if x.2.2 < lo then x.2.2 else lo)
      have hif : (if x.2.2 < lo then x.2.2 else lo) ≤ lo ∧ (if x.2.2 < lo then x.2.2 else lo) ≤ x.2.2 := by split <;> omega
      exact ⟨hlo.trans hif.1, List.forall_mem_cons.mpr ⟨hlo.trans hif.2, hle⟩⟩
  exact (key 0).2 p hp

/-- The terms' exact sum, in units of their least exponent. -/
theorem sum_ratOf_eq_unitSum (fins : List (Bool × Nat × Int)) :
    (fins.map fun p => ratOf p.1 p.2.1 p.2.2).sum = (unitSum fins : ℚ) * 2 ^ leastExp fins := by
  have hscaled : fins.map (fun p => ratOf p.1 p.2.1 p.2.2) =
      fins.map fun p => (scaled p.1 p.2.1 p.2.2 (leastExp fins) : ℚ) * 2 ^ leastExp fins :=
    List.map_congr_left fun p hp => ratOf_eq_scaled p.1 p.2.1 (leastExp_le hp)
  rw [hscaled, List.sum_map_mul_right, unitSum, foldl_add_eq_sum, zero_add, Int.cast_list_sum, List.map_map]
  rfl

theorem finiteSum_value (acc : Fmt) (fins : List (Bool × Nat × Int)) {v : ℚ}
    (hv : v = (fins.map fun p => ratOf p.1 p.2.1 p.2.2).sum) :
    (v ≠ 0 → RoundedTo acc .rne false v (finiteSum acc fins)) ∧
    (v = 0 → finiteSum acc fins = (acc.signBits (fins.all (·.1)), 0)) := by
  rw [sum_ratOf_eq_unitSum] at hv
  by_cases hz : unitSum fins = 0
  · have hv0 : v = 0 := by simp [hv, hz]
    refine ⟨fun h => absurd hv0 h, fun _ => ?_⟩
    rw [finiteSum, sumSign, if_pos hz, hz, Int.natAbs_zero, roundTo_zero]
  · rw [← ratOf_natAbs] at hv
    obtain ⟨hround, -⟩ := roundTo_value acc .rne _ _ _ hv
    refine ⟨fun h => ?_, fun h => ?_⟩
    · rw [finiteSum, sumSign, if_neg hz]
      exact hround h
    · rw [hv, ratOf_eq_zero_iff] at h
      exact absurd (Int.natAbs_eq_zero.mp h) hz

/-! ## A group sum (R176) -/

theorem any_prodOf_iff (ps : List (List FVal)) (k : Prod → Bool) :
    (ps.map prodOf).any k = true ↔ ∃ p ∈ ps, k (prodOf p) = true := by
  rw [List.any_map, List.any_eq_true]
  rfl

theorem any_noNumber_iff (ps : List (List FVal)) :
    (ps.map prodOf).any noNumber = true ↔ ∃ p ∈ ps, hasNan p ∨ hasZero p ∧ hasInf p := by
  simp only [any_prodOf_iff, noNumber_prodOf_iff]

theorem any_raisesNv_iff (ps : List (List FVal)) :
    (ps.map prodOf).any raisesNv = true ↔ ∃ p ∈ ps, .nan true ∈ p ∨ ¬ hasNan p ∧ hasZero p ∧ hasInf p := by
  simp only [any_prodOf_iff, raisesNv_prodOf_iff]

section
variable {ps : List (List FVal)}

/-- With a NaN or 0 × ∞ among the products. -/
theorem groupSum_noNumber (acc : Fmt) (h : ∃ p ∈ ps, hasNan p ∨ hasZero p ∧ hasInf p) :
    groupSum acc (ps.map prodOf) = (.nan false, if (ps.map prodOf).any raisesNv then fNV else 0) := by
  rw [groupSum_eq, if_pos ((any_noNumber_iff ps).mpr h)]

variable (hnum : ∀ p ∈ ps, ¬ hasNan p ∧ ¬ (hasZero p ∧ hasInf p))
include hnum

theorem any_isInf_iff (b : Bool) : (ps.map prodOf).any (·.isInf b) = true ↔ ∃ p ∈ ps, hasInf p ∧ productSign p = b := by
  rw [any_prodOf_iff]
  exact exists_congr fun p => and_congr_right fun hp => isInf_prodOf_iff (hnum p hp).1 (hnum p hp).2 b

theorem any_isInf_true_iff : (ps.map prodOf).any (·.isInf true) = true ↔ ∃ p ∈ ps, hasInf p ∧ negative p := by
  simp only [any_isInf_iff hnum, productSign_iff]

theorem any_isInf_false_iff : (ps.map prodOf).any (·.isInf false) = true ↔ ∃ p ∈ ps, hasInf p ∧ ¬ negative p := by
  simp only [any_isInf_iff hnum, ← productSign_iff, Bool.not_eq_true]

/-- With numbers and infinities alone: infinities of both signs, or of one. -/
theorem groupSum_numbers (acc : Fmt) : groupSum acc (ps.map prodOf) =
    if (ps.map prodOf).any (·.isInf true) && (ps.map prodOf).any (·.isInf false) then (.nan false, fNV)
    else if (ps.map prodOf).any (·.isInf true) then (.inf true, 0)
    else if (ps.map prodOf).any (·.isInf false) then (.inf false, 0)
    else (acc.decode (finiteSum acc ((ps.map prodOf).filterMap finTerm)).1,
      (finiteSum acc ((ps.map prodOf).filterMap finTerm)).2) := by
  refine (groupSum_eq acc _).trans (if_neg fun h => ?_)
  obtain ⟨p, hp, hno⟩ := (any_noNumber_iff ps).mp h
  exact hno.elim (hnum p hp).1 (hnum p hp).2

end

theorem filterMap_finTerm {ps : List (List FVal)} (hnan : ∀ p ∈ ps, ¬ hasNan p) (hinf : ∀ p ∈ ps, ¬ hasInf p) :
    (ps.map prodOf).filterMap finTerm = ps.map fun p => (productSign p, p.foldl mulFin (1, 0)) := by
  rw [List.filterMap_map, ← List.filterMap_eq_map]
  refine List.filterMap_congr fun p hp => ?_
  rw [Function.comp, prodOf_fin (hnan p hp) (hinf p hp)]
  rfl

/-- The model's sum of a group is R176's, a case at a time. -/
theorem groupSum_spec (acc : Fmt) (ps : List (List FVal)) : GroupSum acc ps (groupSum acc (ps.map prodOf)) := by
  refine ⟨fun h => ?noNumber, fun hnum => ?numbers⟩
  case noNumber =>
    rw [groupSum_noNumber acc h]
    exact ⟨rfl, fun hnv => if_pos ((any_raisesNv_iff ps).mpr hnv), fun hnv => if_neg (mt (any_raisesNv_iff ps).mp hnv)⟩
  have hneg := any_isInf_true_iff hnum
  have hpos := any_isInf_false_iff hnum
  rw [groupSum_numbers hnum]
  refine ⟨fun ht hf => ?both, fun ht honly => ?negative, fun hf honly => ?positive, fun hinf v hv => ?finite⟩
  case both =>
    rw [hneg.mpr ht, hpos.mpr hf]
    rfl
  case negative =>
    have hnone : ¬ ∃ p ∈ ps, hasInf p ∧ ¬ negative p := fun ⟨p, hp, hi, hn⟩ => hn (honly p hp hi)
    rw [hneg.mpr ht, Bool.eq_false_iff.mpr (mt hpos.mp hnone)]
    rfl
  case positive =>
    have hnone : ¬ ∃ p ∈ ps, hasInf p ∧ negative p := fun ⟨p, hp, hi, hn⟩ => honly p hp hi hn
    rw [Bool.eq_false_iff.mpr (mt hneg.mp hnone), hpos.mpr hf]
    rfl
  case finite =>
    rw [Bool.eq_false_iff.mpr (mt hneg.mp fun ⟨p, hp, hi, _⟩ => hinf p hp hi),
      Bool.eq_false_iff.mpr (mt hpos.mp fun ⟨p, hp, hi, _⟩ => hinf p hp hi),
      filterMap_finTerm (fun p hp => (hnum p hp).1) hinf]
    have hvalue : v = ((ps.map fun p => (productSign p, p.foldl mulFin (1, 0))).map fun x => ratOf x.1 x.2.1 x.2.2).sum := by
      rw [hv, List.map_map]
      exact congrArg List.sum (List.map_congr_left fun p hp => (ratOf_product (hnum p hp).1 (hinf p hp)).symm)
    have hall : (ps.map fun p => (productSign p, p.foldl mulFin (1, 0))).all (·.1) = true ↔ ∀ p ∈ ps, negative p := by
      simp [productSign_iff]
    obtain ⟨hround, hzero⟩ := finiteSum_value acc _ hvalue
    refine ⟨fun h => ⟨_, hround h, rfl⟩, fun h hn => ?_, fun h hn => ?_⟩
    · simp only [hzero h, hall.mpr hn]
      rfl
    · simp only [hzero h, Bool.eq_false_iff.mpr (mt hall.mp hn)]
      rfl

/-! ## Groups added one after another (R175, R178) -/

/-- What a group gives: its sum, or the canonical NaN with IS where a scale is invalid. -/
def groupResult (acc : Fmt) : Option (List Prod) → FVal × FpFlags
  | none => (.nan false, fIS)
  | some ps => groupSum acc ps

/-- The pattern of an accumulator element after so many groups. -/
def accPattern (acc : Fmt) (d : Nat) (G : Nat → FVal × FpFlags) : Nat → Nat
  | 0 => d
  | g + 1 => (fAdd acc .rne (acc.decode (accPattern acc d G g)) (G g).1).1

/-- The flags that group g raises: its sum's and its addition's. -/
def accFlags (acc : Fmt) (d : Nat) (G : Nat → FVal × FpFlags) (g : Nat) : FpFlags :=
  (G g).2 ||| (fAdd acc .rne (acc.decode (accPattern acc d G g)) (G g).1).2

section
variable {acc : Fmt} {d : Nat} {g : Nat → Option (List Prod)} {G : Nat → FVal × FpFlags}

/-- The model's groups from i on, given what stands before them. -/
theorem accFloat_eq (hG : ∀ i, G i = groupResult acc (g i)) (i k : Nat) (fl : FpFlags) :
    accFloat acc g i k (accPattern acc d G i, fl) =
      (accPattern acc d G (i + k), (List.range' i k).foldl (fun fl j => fl ||| accFlags acc d G j) fl) := by
  induction k generalizing i fl with
  | zero => rfl
  | succ k ih =>
    have hstep : accFloat acc g i (k + 1) (accPattern acc d G i, fl) =
        accFloat acc g (i + 1) k (accPattern acc d G (i + 1), fl ||| accFlags acc d G i) := by
      rw [accPattern, accFlags, ← BitVec.or_assoc, hG i]
      rfl
    rw [hstep, ih, List.range'_succ, List.foldl_cons, Nat.add_right_comm, Nat.add_assoc]

theorem accFloat_accumulates (hG : ∀ i, G i = groupResult acc (g i)) (ng : Nat) :
    Accumulates acc ng d G (accFloat acc g 0 ng (d, 0)) := by
  have hrun := accFloat_eq (d := d) hG 0 ng 0
  rw [Nat.zero_add, ← List.range_eq_range'] at hrun
  have hflags : (List.range ng).foldl (fun fl j => fl ||| accFlags acc d G j) 0 =
      orAll ((List.range ng).map (accFlags acc d G)) := List.foldl_map.symm
  refine ⟨accPattern acc d G, rfl, congrArg Prod.fst hrun, fun _ _ => rfl, fun b => ?_⟩
  rw [show accFloat acc g 0 ng (d, 0) = _ from hrun, hflags, getLsbD_orAll, List.any_map, List.any_eq_true]
  simp only [List.mem_range, Function.comp, accFlags, BitVec.getLsbD_or, Bool.or_eq_true]

end

/-- The products of a group, each by its factors. -/
theorem map_groupKs (w g : Nat) (p : Nat → List FVal) :
    (groupKs (kOf w) g).map (fun k => prodOf (p k)) = (groupOf w g p).map prodOf := by
  simp [groupKs, groupOf, kOf, Nat.add_comm]

theorem groupSum_groupKs (acc : Fmt) (w g : Nat) (p : Nat → List FVal) :
    GroupSum acc (groupOf w g p) (groupSum acc ((groupKs (kOf w) g).map fun k => prodOf (p k))) := by
  rw [map_groupKs]
  exact groupSum_spec ..

/-! ## Where the elements of an operand lie (R172) -/

theorem testBit_fld {w lo n i : Nat} (x : BitVec w) (hi : i < n) : (fld x lo n).testBit i = x.getLsbD (lo + i) := by
  rw [fld, BitVec.testBit_toNat, BitVec.getLsbD_extractLsb']
  simp [hi]

theorem testBit_getV64 (f : Firing) (r L : Nat) {i : Nat} (hi : i < 64) :
    (f.getV64 r L).toNat.testBit i = (f.getV (r + i / 32) L).getLsbD (i % 32) := by
  rw [BitVec.testBit_toNat, Firing.getV64, BitVec.getLsbD_append]
  by_cases h : i < 32
  · rw [if_pos h, Nat.div_eq_of_lt h, Nat.mod_eq_of_lt h, Nat.add_zero]
  · rw [if_neg h, show i / 32 = 1 by omega, show i % 32 = i - 32 by omega]

theorem fragElem_wide (f : Firing) (base m k : Nat) : f.fragElem base 64 m k =
    (f.getV64 (base + k % 24 * 64 / 32) (m + 16 * (k / 24))).toNat := rfl

theorem fragElem_narrow (f : Firing) {w : Nat} (hw : w ≠ 64) (base m k : Nat) : f.fragElem base w m k =
    fld (f.getV (base + k % (1536 / w) * w / 32) (m + 16 * (k / (1536 / w)))) (k % (1536 / w) * w % 32) w := by
  unfold Firing.fragElem
  dsimp only
  rw [if_neg hw]

theorem fragElem_lt (f : Firing) {w : Nat} (hw : w ≠ 64) (base m k : Nat) : f.fragElem base w m k < 2 ^ w := by
  rw [fragElem_narrow f hw]
  exact BitVec.isLt _

/-- An element narrower than a word lies in one. -/
theorem narrow_in_word {w i : Nat} (hw : w = 4 ∨ w = 8 ∨ w = 16) (hi : i < w) (j : Nat) :
    (j * w + i) / 32 = j * w / 32 ∧ (j * w + i) % 32 = j * w % 32 + i := by
  rcases hw with rfl | rfl | rfl <;> omega

theorem testBit_fragElem (f : Firing) {w i : Nat} (hw : w ∈ [4, 8, 16, 64]) (hi : i < w) (base m k : Nat) :
    (f.fragElem base w m k).testBit i = (f.getV (base + (k % (1536 / w) * w + i) / 32)
      (m + 16 * (k / (1536 / w)))).getLsbD ((k % (1536 / w) * w + i) % 32) := by
  by_cases h64 : w = 64
  · subst h64
    have hdiv : (k % 24 * 64 + i) / 32 = k % 24 * 64 / 32 + i / 32 := by omega
    have hmod : (k % 24 * 64 + i) % 32 = i % 32 := by omega
    rw [fragElem_wide, testBit_getV64 f _ _ hi, show 1536 / 64 = 24 from rfl, hdiv, hmod, Nat.add_assoc]
  · have hnarrow : w = 4 ∨ w = 8 ∨ w = 16 := by simpa [h64] using hw
    obtain ⟨hdiv, hmod⟩ := narrow_in_word hnarrow hi (k % (1536 / w))
    rw [fragElem_narrow f h64, testBit_fld _ hi, hdiv, hmod]

/-! ## Scales and zero points (R178, R179) -/

theorem scaleVal_invalid {b : Byte} (h : 0x7F ≤ b.toNat) : scaleVal b = none := if_pos h

/-- A valid scale is the E4M3 number of its byte, which has no sign. -/
theorem scaleVal_valid {b : Byte} (h : b.toNat < 0x7F) :
    (scaleVal b).map (fun v => FVal.fin false v.1 v.2) = some (Fmt.e4m3.decode b.toNat) := by
  obtain ⟨m, e, hd, -⟩ := decode_finite .e4m3 false (b := b.toNat) (by show b.toNat ≤ 0x7E; omega)
  rw [Fmt.signBits, if_neg Bool.false_ne_true, Nat.zero_add] at hd
  rw [scaleVal, if_neg (not_le.mpr h), hd]
  rfl

/-- The scale byte of block g of a row or column (R178): part 0 the A scales, 3 the B scales. -/
def scaleByte (f : Firing) (base w part m g : Nat) : Nat :=
  (byteOf (f.getV (base + part + g % (48 / w) / 4) (m + 16 * (g / (48 / w)))) (g % (48 / w) % 4)).toNat

theorem mmaScale_eq (f : Firing) {w : Nat} (hw : w = 8 ∨ w = 4) (base part m g : Nat) : f.mmaScale base part w m g =
    if 0x7F ≤ scaleByte f base w part m g then none else some (Fmt.e4m3.decode (scaleByte f base w part m g)) := by
  have hnb : 1536 / w / 32 = 48 / w := by rcases hw with rfl | rfl <;> rfl
  rw [Firing.mmaScale, hnb, scaleByte]
  split
  next h => rw [scaleVal_invalid h]; rfl
  next h => exact scaleVal_valid (not_le.mp h)

theorem mmaInt_signed (t : BitVec 3) {w x : Nat} (hw : t = 0 ∧ w = 8 ∨ t = 2 ∧ w = 4) (hx : x < 2 ^ w) :
    mmaInt t x = sintN w x := by
  rcases hw with ⟨rfl, rfl⟩ | ⟨rfl, rfl⟩ <;> exact elI_signed hx

theorem sintN_mod (w x : Nat) : sintN w (x % 2 ^ w) = sintN w x := by
  have hword : BitVec.ofNat w (x % 2 ^ w) = BitVec.ofNat w x := by
    apply BitVec.eq_of_toNat_eq
    rw [BitVec.toNat_ofNat, BitVec.toNat_ofNat, Nat.mod_mod]
  rw [sintN, sintN, hword]

theorem quantParam_eq (f : Firing) (base : Nat) (t : BitVec 3) {w : Nat} (hw : t = 0 ∧ w = 8 ∨ t = 2 ∧ w = 4) (m q : Nat) :
    f.quantParam base t m q =
      (Fmt.f16.decode ((f.getV (base + q % 12 / 2) (m + 16 * (q / 12))).toNat / 2 ^ (16 * (q % 2)) % 2 ^ 16),
        sintN w (byteOf (f.getV (base + 6 + q % 12 / 4) (m + 16 * (q / 12))) (q % 4)).toNat) := by
  have h2 : q % 12 % 2 = q % 2 := by omega
  have h4 : q % 12 % 4 = q % 4 := by omega
  unfold Firing.quantParam
  dsimp only
  rw [h2, h4, fld_eq]
  congr 1
  rcases hw with ⟨rfl, rfl⟩ | ⟨rfl, rfl⟩
  · exact elI_signed (BitVec.isLt _)
  · exact (elI_signed (Nat.mod_lt _ (by decide))).trans (sintN_mod 4 _)

/-! ## The elements of the three forms (R175, R178, R180) -/

/-- The factors of an MMA's product k. -/
def mmaFactors (f : Firing) (o : MmaOps) (w m n k : Nat) : List FVal :=
  [(mmaFmt o.ta).decode (f.fragElem o.a.toNat w m k), (mmaFmt o.tb).decode (f.fragElem o.b.toNat w n k)]

theorem mmaElem_float (f : Firing) {o : MmaOps} (hint : o.i = false) (w m n : Nat) : mmaElem f o w m n =
    accFloat (if w = 64 then .f64 else .f32) (fun g => some ((groupKs (kOf w) g).map fun k => prodOf (mmaFactors f o w m n k)))
      0 ((3072 / w + 31) / 32) (f.accElem o.d.toNat (w == 64) m n, 0) := by
  rw [mmaElem, hint]
  simp only [beq_iff_eq]
  rfl

/-- The factors of an MMAS's product k of block g, the last two of them its scales. -/
def mmasFactors (f : Firing) (o : MmasOps) (w m n g k : Nat) : List FVal :=
  [(mmaFmt o.ta).decode (f.fragElem o.a.toNat w m k), (mmaFmt o.tb).decode (f.fragElem o.b.toNat w n k),
    Fmt.e4m3.decode (scaleByte f o.sc.toNat w 0 m g), Fmt.e4m3.decode (scaleByte f o.sc.toNat w 3 n g)]

/-- The products of an MMAS's group, none where a scale is invalid. -/
def mmasGroup (f : Firing) (o : MmasOps) (w m n g : Nat) : Option (List Prod) :=
  if 0x7F ≤ scaleByte f o.sc.toNat w 0 m g ∨ 0x7F ≤ scaleByte f o.sc.toNat w 3 n g then none
  else some ((groupKs (kOf w) g).map fun k => prodOf (mmasFactors f o w m n g k))

theorem mmasElem_eq (f : Firing) (o : MmasOps) {w : Nat} (hw : w = 8 ∨ w = 4) (m n : Nat) : mmasElem f o w m n =
    accFloat .f32 (mmasGroup f o w m n) 0 (kOf w / 32) (f.accElem o.d.toNat false m n, 0) := by
  rw [mmasElem]
  refine congrArg (fun g => accFloat .f32 g 0 _ _) (funext fun g => ?_)
  rw [mmaScale_eq f hw, mmaScale_eq f hw, mmasGroup]
  by_cases ha : 0x7F ≤ scaleByte f o.sc.toNat w 0 m g
  · simp only [ha, if_true, true_or]
  by_cases hb : 0x7F ≤ scaleByte f o.sc.toNat w 3 n g
  · simp only [ha, hb, if_true, if_false, or_true]
  · simp only [ha, hb, if_false, or_self]
    rfl

/-- The depth of an FP8, E2M1, S8 or S4 operand in groups. -/
theorem groups_narrow {w : Nat} (hw : w = 8 ∨ w = 4) : kOf w / 32 = 96 / w := by
  rcases hw with rfl | rfl <;> rfl

theorem matrixValues : MatrixValues := by
  refine ⟨fun f base w m k i hw _ _ hi => testBit_fragElem f hw hi base m k, ?mma, ?mmas, ?mmaq⟩
  case mma =>
    intro f o w m n acc hint hw hm hn hacc
    refine ⟨_, fun g _ => groupSum_groupKs acc w g _, ?_⟩
    rw [mmaElem_float f hint, ← hacc]
    exact accFloat_accumulates (fun _ => rfl) _
  case mmas =>
    intro f o w m n sc hw hm hn hsc
    obtain rfl : sc = scaleByte f o.sc.toNat w := funext fun part => funext fun m => funext fun g => hsc part m g
    refine ⟨fun g => groupResult .f32 (mmasGroup f o w m n g), fun g _ => ⟨fun hinv => ?_, fun ha hb => ?_⟩, ?_⟩
    · exact congrArg (groupResult .f32) (if_pos hinv)
    · dsimp only
      rw [mmasGroup, if_neg (not_or.mpr ⟨not_le.mpr ha, not_le.mpr hb⟩)]
      exact groupSum_groupKs ..
    · rw [mmasElem_eq f o hw, groups_narrow hw]
      exact accFloat_accumulates (fun _ => rfl) _
  case mmaq =>
    intro f o w m n sg z int hw hm hn hsg hz hint
    have hwa : o.ta = 0 ∧ w = 8 ∨ o.ta = 2 ∧ w = 4 := hw.imp (fun ⟨ha, _, h⟩ => ⟨ha, h⟩) fun ⟨ha, _, h⟩ => ⟨ha, h⟩
    have hwb : o.tb = 0 ∧ w = 8 ∨ o.tb = 2 ∧ w = 4 := hw.imp (fun ⟨_, hb, h⟩ => ⟨hb, h⟩) fun ⟨_, hb, h⟩ => ⟨hb, h⟩
    have h64 : w ≠ 64 := by omega
    have hpa (m q : Nat) : f.quantParam o.pa.toNat o.ta m q = (sg o.pa.toNat m q, z o.pa.toNat m q) := by
      rw [hsg, hz, quantParam_eq f _ _ hwa]
    have hpb (n q : Nat) : f.quantParam o.pb.toNat o.tb n q = (sg o.pb.toNat n q, z o.pb.toNat n q) := by
      rw [hsg, hz, quantParam_eq f _ _ hwb]
    have hval : intVal = int := funext fun x => (hint x).symm
    refine ⟨_, fun g _ => groupSum_groupKs .f32 w g _, ?_⟩
    rw [mmaqElem, groups_narrow (hwa.imp And.right And.right)]
    refine accFloat_accumulates (fun g => ?_) _
    simp only [hpa, hpb, hval, mmaInt_signed _ hwa (fragElem_lt f h64 _ _ _), mmaInt_signed _ hwb (fragElem_lt f h64 _ _ _)]
    rfl

end Sys2Proof.Proofs
end

section
/-! PROOF. The family "matrix", moves (O44). Blocks of lane registers written and read back, MCVT, and the scratchpad bytes that
MSTF stores; then the statement. -/

namespace Sys2Proof.Proofs
open Sys2Proof Sys2Proof.Machine Sys2Proof.Claims Sys2Proof.Laws

/-! ## Blocks of lane registers (R181, R183) -/

theorem mem_enLanes {f : Firing} {h : Head} {L : Nat} : L ∈ f.enLanes h ↔ L < 32 ∧ f.enL h L = true := by
  rw [Firing.enLanes, lanes, List.mem_filter, List.mem_range]

/-- Lane words of several registers after a first one read back; every other lane word stays. -/
theorem getV_putV_block (f : Firing) {ls : List Nat} (hls : ∀ L ∈ ls, L < 32) (d n : Nat) (g : Nat → Nat → W32) {L : Nat}
    (hL : L < 32) (r : Nat) : (f.putV (ls.flatMap fun L => (List.range n).map fun j => (32 * (d + j) + L, g L j))).getV r L =
      if d ≤ r ∧ r < d + n ∧ L ∈ ls then g L (r - d) else f.getV r L := by
  have hmem (w : W32) : (32 * r + L, w) ∈ ls.flatMap (fun L => (List.range n).map fun j => (32 * (d + j) + L, g L j)) ↔
      (d ≤ r ∧ r < d + n ∧ L ∈ ls) ∧ w = g L (r - d) := by
    simp only [List.mem_flatMap, List.mem_map, List.mem_range, Prod.mk.injEq]
    constructor
    · rintro ⟨L', hL', j, hj, hkey, rfl⟩
      have := hls L' hL'
      obtain ⟨rfl, rfl⟩ : L' = L ∧ r = d + j := by omega
      exact ⟨⟨by omega, by omega, hL'⟩, by rw [Nat.add_sub_cancel_left]⟩
    · rintro ⟨⟨hd, hn, hin⟩, rfl⟩
      exact ⟨L, hin, r - d, by omega, by omega, rfl⟩
  unfold Firing.getV Firing.putV
  split
  next hin => exact spGet_foldl_unique _ ((hmem _).mpr ⟨hin, rfl⟩) fun w hw => ((hmem w).mp hw).2
  next hout =>
    refine spGet_foldl_other (fun e : Nat × W32 => e.1) (fun e => e.2) _ _ _ fun x hx hkey => hout ?_
    exact ((hmem x.2).mp (hkey ▸ hx)).1

/-! ## MCVT (R182) -/

/-- The lane words MCVT writes: the rows' narrowed elements, and the residuals where it keeps them. -/
def mcvtResult (o : McvtOps) (rows : Nat → List (Nat × Nat) × EfAcc × FpFlags) : List (Nat × W32) :=
  ((List.range 16).flatMap fun m => mcvtWords o.d.toNat (packFmt o.fmt).width m (rows m).1) ++
    match o.form with
    | .resid vr => (List.range 16).map fun m => (32 * vr.toNat + (m + 16), residF32 (rows m).2.1)
    | _ => []

section
variable {s : State} {n sl : Nat} {f : Firing} {o : McvtOps}

theorem exec_mcvt_all (hi : Issues s n sl f) (hall : everyLane f o.h) : exec (.mcvt o) s =
    .next (fpEnd s n sl f (orAll ((List.range 16).map fun m => (mcvtRow f o m).2.2)) fun g =>
      (g.putV (mcvtResult o (mcvtRow f o))).retire true o.h (efLen o.form) .none) := by
  refine (withF_issues hi.1 hi.2 _).trans ?_
  rw [if_neg (not_noLanes_of_everyLane hall), if_neg (by simpa using (allLanes_iff f o.h).mpr hall)]
  simp only [List.flatMap_map, List.map_map, mcvtResult]
  rfl

/-- With not every lane enabled: no effect with none, MMALANES with some. -/
theorem exec_mcvt_lanes (hi : Issues s n sl f) :
    (noLane f o.h → Gives (.mcvt o) s n sl (f.retire true o.h (efLen o.form) .none)) ∧
    (¬ noLane f o.h → ¬ everyLane f o.h → exec (.mcvt o) s = .next (takeTrap s n sl (cause 0x10))) := by
  constructor
  · intro hno
    exact (withF_issues hi.1 hi.2 _).trans (by rw [if_pos ((noLanes_iff f o.h).mpr hno)])
  · intro hsome hpart
    refine (withF_issues hi.1 hi.2 _).trans ?_
    rw [if_neg (mt (noLanes_iff f o.h).mp hsome), if_pos (by simpa using mt (allLanes_iff f o.h).mp hpart)]

end

/-! ## MLDF (R183) -/

section
variable {s : State} {n sl : Nat} {f : Firing} {o : MldfOps}

theorem exec_mldf (hi : Issues s n sl f) (hok : mldfCheck (s.core n) f o .scratch = none) :
    Gives (.mldf o) s n sl ((f.putV ((f.enLanes o.h).flatMap fun L => (List.range (mldfRegs o.kind)).map fun r =>
      (32 * (o.d.toNat + r) + L, w32OfLE ((s.core n).getBs ((mldfOff f o L).toNat + 4 * r) 4)))).retire true o.h .l96 .none) := by
  refine (withF_issues hi.1 hi.2 _).trans ?_
  dsimp only
  rw [hok]

/-! ## MSTF (R183, log entry 81) -/

/-- The bytes of a lane's part of a register group. -/
def groupBytes (f : Firing) (o : MldfOps) (L : Nat) : List Byte :=
  (List.range (mldfRegs o.kind)).flatMap fun r => bytesLE 4 (f.getV (o.d.toNat + r) L)

/-- A core after lanes have stored their parts, one after another. -/
def storeLanes (f : Firing) (o : MldfOps) (c : Core) (ls : List Nat) : Core :=
  ls.foldl (fun c L => c.putBs (mldfOff f o L).toNat (groupBytes f o L)) c

theorem exec_mstf (hi : Issues s n sl f) (hok : mldfCheck (s.core n) f o .scratch = none) (hrel : f.rel = none) :
    exec (.mstf o) s =
      .next (s.setCore n ((storeLanes f o (s.core n) (f.enLanes o.h)).setFiring sl (f.retire true o.h .l96 .none))) := by
  refine (withF_issues hi.1 hi.2 _).trans ?_
  dsimp only
  rw [hok]
  dsimp only
  rw [if_neg (by simp [hrel])]
  rfl

theorem mldf_traps {tc : TrapCause} (hi : Issues s n sl f) (hbad : mldfCheck (s.core n) f o .scratch = some tc) :
    exec (.mldf o) s = .next (takeTrap s n sl tc) ∧ exec (.mstf o) s = .next (takeTrap s n sl tc) := by
  constructor
  all_goals
    refine (withF_issues hi.1 hi.2 _).trans ?_
    dsimp only
    rw [hbad]

end

/-- Where the checks pass, no enabled lane's offset is negative. -/
theorem mldfOff_nonneg {c : Core} {f : Firing} {o : MldfOps} (hok : mldfCheck c f o .scratch = none) {L : Nat} (hL : L < 32)
    (hen : f.enL o.h L = true) : 0 ≤ mldfOff f o L := by
  unfold mldfCheck at hok
  dsimp only at hok
  split at hok
  next => cases hok
  next =>
    split at hok
    next => cases hok
    next hnone =>
      have hprot := List.find?_eq_none.mp hnone L (mem_enLanes.mpr ⟨hL, hen⟩)
      simp only [Bool.or_eq_true, decide_eq_true_eq, not_or] at hprot
      omega

theorem length_flatMap_bytesLE (ws : Nat → W32) (n : Nat) :
    ((List.range n).flatMap fun r => bytesLE 4 (ws r)).length = 4 * n := by
  simp [List.length_flatMap, Nat.mul_comm]

/-- A stretch of the bytes written, between those before it and those after it. -/
theorem coreGetBs_putBs_middle (c : Core) (k : Nat) (xs bs ys : List Byte) :
    (c.putBs k (xs ++ (bs ++ ys))).getBs (k + xs.length) bs.length = bs := by
  apply List.ext_getElem (coreGetBs_length ..)
  intro i _ hi
  have hlt : xs.length + i < (xs ++ (bs ++ ys)).length := by simp only [List.length_append]; omega
  simp only [Core.getBs, List.getElem_map, List.getElem_range]
  rw [Nat.add_assoc, coreGetB_putBs_same hlt, List.getElem_append_right (Nat.le_add_right ..)]
  simp only [Nat.add_sub_cancel_left]
  exact List.getElem_append_left hi

/-- A word of a run of words stored. -/
theorem coreGetBs_putBs_words (c : Core) (k : Nat) (ws : Nat → W32) {n r : Nat} (hr : r < n) :
    (c.putBs k ((List.range n).flatMap fun r => bytesLE 4 (ws r))).getBs (k + 4 * r) 4 = bytesLE 4 (ws r) := by
  obtain ⟨j, rfl⟩ := Nat.exists_eq_add_of_lt hr
  have hsplit : (List.range (r + j + 1)).flatMap (fun r => bytesLE 4 (ws r)) =
      ((List.range r).flatMap fun r => bytesLE 4 (ws r)) ++
        (bytesLE 4 (ws r) ++ (((List.range j).map Nat.succ).map (r + ·)).flatMap fun r => bytesLE 4 (ws r)) := by
    rw [Nat.add_assoc, List.range_add, List.range_succ_eq_map, List.map_cons, List.flatMap_append,
      List.flatMap_cons, Nat.add_zero]
  have hmid := coreGetBs_putBs_middle c k ((List.range r).flatMap fun r => bytesLE 4 (ws r)) (bytesLE 4 (ws r))
    ((((List.range j).map Nat.succ).map (r + ·)).flatMap fun r => bytesLE 4 (ws r))
  rw [← hsplit, length_flatMap_bytesLE, bytesLE_length] at hmid
  exact hmid

section
variable {f : Firing} {o : MldfOps} {ls : List Nat}

theorem getB_storeLanes_other (c : Core) {a : Nat} (h : ∀ L ∈ ls, a < (mldfOff f o L).toNat ∨
    (mldfOff f o L).toNat + 4 * mldfRegs o.kind ≤ a) : (storeLanes f o c ls).getB a = c.getB a := by
  induction ls generalizing c with
  | nil => rfl
  | cons L ls ih =>
    obtain ⟨hL, hls⟩ := List.forall_mem_cons.mp h
    refine (ih (c.putBs _ _) hls).trans (coreGetB_putBs_other ?_)
    rwa [groupBytes, length_flatMap_bytesLE]

/-- A lane's registers stand in the scratchpad where no later lane names a byte of its part. -/
theorem storeLanes_stored (c : Core) {xs ys : List Nat} {L r : Nat} (hr : r < mldfRegs o.kind)
    (hys : ∀ L' ∈ ys, (mldfOff f o L).toNat + 4 * mldfRegs o.kind ≤ (mldfOff f o L').toNat ∨
      (mldfOff f o L').toNat + 4 * mldfRegs o.kind ≤ (mldfOff f o L).toNat) :
    w32OfLE ((storeLanes f o c (xs ++ L :: ys)).getBs ((mldfOff f o L).toNat + 4 * r) 4) = f.getV (o.d.toNat + r) L := by
  have hlater : (storeLanes f o c (xs ++ L :: ys)).getBs ((mldfOff f o L).toNat + 4 * r) 4 =
      ((storeLanes f o c xs).putBs (mldfOff f o L).toNat (groupBytes f o L)).getBs ((mldfOff f o L).toNat + 4 * r) 4 := by
    rw [storeLanes, List.foldl_append, List.foldl_cons]
    refine List.map_congr_left fun i hi => getB_storeLanes_other (f := f) _ fun L' hL' => ?_
    have := hys L' hL'
    have := List.mem_range.mp hi
    omega
  rw [hlater, groupBytes, coreGetBs_putBs_words _ _ _ hr, w32OfLE_bytesLE]

end

theorem enLanes_rising (f : Firing) (h : Head) : (f.enLanes h).Pairwise (· < ·) := List.pairwise_lt_range.filter _

/-- The enabled lanes before and after one of them. -/
theorem enLanes_split {f : Firing} {h : Head} {L : Nat} (hL : L < 32) (hen : f.enL h L = true) :
    ∃ xs ys, f.enLanes h = xs ++ L :: ys ∧ ∀ L' ∈ ys, L < L' ∧ L' < 32 ∧ f.enL h L' = true := by
  obtain ⟨xs, ys, hsplit⟩ := List.append_of_mem (mem_enLanes.mpr ⟨hL, hen⟩)
  have hrise := enLanes_rising f h
  rw [hsplit] at hrise
  refine ⟨xs, ys, hsplit, fun L' hL' => ⟨?_, mem_enLanes.mp ?_⟩⟩
  · exact (List.pairwise_cons.mp (List.pairwise_append.mp hrise).2.1).1 L' hL'
  · rw [hsplit]
    exact List.mem_append_right _ (List.mem_cons_of_mem _ hL')

/-! ## MZERO, MCVT, MLDF and MSTF -/

theorem matrixMoves : MatrixMoves := by
  refine ⟨?mzero, ?mcvt, fun o s n sl f hi hok => ⟨?mldf, fun hrel => ?mstf⟩, fun o s n sl f tc hi hbad => mldf_traps hi hbad⟩
  case mzero =>
    intro o s n sl f hi
    refine ⟨_, onF_gives hi _, fun r L hL => ?_⟩
    rw [getV_putV_block f (fun _ => enLanes_lt) _ _ (fun _ _ => 0) hL]
    simp only [mem_enLanes, hL, true_and]
  case mcvt =>
    intro o s n sl f rows hi hrows
    obtain rfl : rows = mcvtRow f o := funext hrows
    obtain ⟨hnone, hsome⟩ := exec_mcvt_lanes (o := o) hi
    exact ⟨fun hall => fpGives_fpEnd (exec_mcvt_all hi hall), hnone, hsome⟩
  case mldf =>
    refine ⟨_, exec_mldf hi hok, fun r L hL => ?_⟩
    rw [getV_putV_block f (fun _ => enLanes_lt) _ _ _ hL]
    simp only [mem_enLanes, hL, true_and]
  case mstf =>
    have hoff {L : Nat} := mldfOff_nonneg hok (L := L)
    refine ⟨_, exec_mstf hi hok hrel, fun L hL hen hapart r hr => ?_, fun a hout => ?_⟩
    · obtain ⟨xs, ys, hsplit, hlater⟩ := enLanes_split hL hen
      rw [hsplit]
      refine storeLanes_stored _ hr fun L' hL' => ?_
      obtain ⟨hlt, h32, hen'⟩ := hlater L' hL'
      have := hapart L' hlt h32 hen'
      have := hoff hL hen
      have := hoff h32 hen'
      omega
    · refine getB_storeLanes_other _ fun L hL => ?_
      obtain ⟨hL, hen⟩ := mem_enLanes.mp hL
      have := hout L hL hen
      have := hoff hL hen
      omega

end Sys2Proof.Proofs

/-! ## The statement -/

namespace Sys2Proof.Settled
open Sys2Proof Sys2Proof.Machine Sys2Proof.Claims Sys2Proof.Laws Sys2Proof.Proofs

/-- Settles O44: what the forms do at issue, what the unit forms make of an element, and what the other forms move. -/
theorem matrixForms : Obligations.MatrixForms := ⟨matrixProducts, matrixValues, matrixMoves⟩

end Sys2Proof.Settled
end
